-- ==== Sys2Proof/Word.lean ====
section
/-! DEFINITION. The words of the mover: bytes, 64-bit registers, and the mover-cycle count. -/

namespace Sys2Proof

/-- One byte of memory, of a record or of a frame. -/
abbrev Byte := BitVec 8

/-- A 64-bit word: a parameter register, an instruction word, a register of the map. -/
abbrev Word := BitVec 64

/-- A count of mover cycles (MCLK cycles) since the end of the last start-up: TIME of R287. -/
abbrev Mc := Nat

/-- One of the two halves of the mover, one on each base die (chapter 01). -/
inductive Half where
  | east
  | west
  deriving DecidableEq, Repr

/-- The half on the other side of the Seam. -/
def Half.other : Half → Half
  | .east => .west
  | .west => .east

/-- 0 for East and 1 for West, as every record and register numbers the halves. -/
def Half.num : Half → Nat
  | .east => 0
  | .west => 1

/-- A pair of values, one for each half. -/
structure Both (α : Type) where
  east : α
  west : α
  deriving DecidableEq, Repr

/-- The value of one half. -/
def Both.get {α : Type} (b : Both α) : Half → α
  | .east => b.east
  | .west => b.west

/-- The pair with the value of one half replaced. -/
def Both.set {α : Type} (b : Both α) (h : Half) (v : α) : Both α :=
  match h with
  | .east => ⟨v, b.west⟩
  | .west => ⟨b.east, v⟩

end Sys2Proof
end

