-- ==== Sys2Proof/Syntax.lean ====
section
/-! DEFINITION. The commands of the mover: one constructor per row of spec/opcode_table.json.

The first operand of every command, `t`, is the mc (TIME, R287) at which the command takes place; a command whose `t` lies
behind the machine's TIME takes place at the machine's TIME (assumption 1). The rows that stand for haul instructions carry the
hauler that performs its next instruction: the instruction's own fields are those of the program word that the hauler holds
(R73). The rows that stand for administrative commands carry the partition whose admin queue holds the entry (R299, R302). -/

namespace Sys2Proof

/-- A hauler of a half (R74): each half has 128. -/
structure HaulerId where
  half : Half
  idx  : Fin 128
  deriving DecidableEq, Repr

/-- What one SP_BVALID cycle carries to a half's schedule port (R244, R512, R517). -/
structure Bundle where
  /-- Half whose schedule port receives the bundle. -/
  half   : Half
  /-- SP_CTX: issuing processor context. -/
  ctx    : Fin 256
  /-- SP_VCYC: virtual cycle of the bundle. -/
  vcyc   : BitVec 48
  /-- SP_AOP: the occupied slots, by Anvil-port number. -/
  aops   : List (Fin 16 × Word)
  /-- SP_COP: the FEED, PACE, SIG and DRAIN slots. -/
  cops   : List Word
  /-- ST_DATA presented in the mc after acceptance, by Anvil port; a port not listed holds ST_VALID low (R517). -/
  stData : List (Fin 16 × List Byte)
  deriving DecidableEq, Repr

/-- A page of the register aperture (R530). -/
inductive Page where
  | part (p : Fin 16)
  | global
  deriving DecidableEq, Repr

/-- One write access to a register of a known name (R531, R532). -/
structure RegWrite where
  /-- Host port on which the write arrives. -/
  port  : Half
  page  : Page
  /-- Bytes of the access; only an aligned 8 B write reaches a register (R532). -/
  size  : Nat
  value : Word
  deriving DecidableEq, Repr

/-- One write access to a doorbell region (R280, R531). -/
structure BellWrite where
  port  : Half
  part  : Fin 16
  size  : Nat
  value : Word
  deriving DecidableEq, Repr

/-- A frame as a remote port receives it (R384): bytes of header, payload and CRC. -/
structure RxFrame where
  half  : Half
  /-- Link chiplet LC0 or LC1 of the half. -/
  lc    : Fin 2
  /-- Link port of the chiplet. -/
  port  : Fin 16
  bytes : List Byte
  deriving DecidableEq, Repr

/-- A link port of a half: chiplet and port number (R381). -/
structure LinkPort where
  lc   : Fin 2
  port : Fin 16
  deriving DecidableEq, Repr

/-- The kinds of slices that rotating self-test covers (table "Self-test slices", R488). -/
inductive SliceKind where
  | tongs
  | hauler
  | shaPipe
  | translation
  | counterPath
  | anvil
  deriving DecidableEq, Repr

/-- One slice of a half. -/
structure Slice where
  half : Half
  kind : SliceKind
  idx  : Nat
  deriving DecidableEq, Repr

/-- What the surroundings contribute to a start-up or reset. -/
structure StartEnv where
  /-- Every HBM stack stayed powered since its contents were written (table "Retention"). -/
  stacksPowered : Bool
  /-- The flash device answers and its reads succeed (reason 0x09 otherwise). -/
  flashAnswers  : Bool
  /-- The Hearth copy's CRC checks (R439). -/
  copyCrcOk     : Bool
  /-- The CRC of the Hearth's ledger chain heads checks (R423). -/
  headCrcOk     : Bool
  /-- Retired slices that fail their test again at this reset (R491). -/
  failing       : List Slice
  /-- Frames of TYPE RESPONSE that arrive in the 50 µs of step 2 of a warm reset, each with its mc (R439). -/
  responses     : List (Mc × RxFrame)
  deriving DecidableEq, Repr

/-- A power stage's reading of its rail (R471), and the surroundings of a start-up that it brings about. -/
structure StageReading where
  millivolts : Nat
  env        : StartEnv
  deriving DecidableEq, Repr

/-- The check of a line that a loop test's path returns (R502, R506): whether the line is bad, and the surroundings of a reset that this
brings about. -/
structure LineCheck where
  bad : Bool
  env : StartEnv
  deriving DecidableEq, Repr

/-- Outcome of the ECC check of one Stockpile line (R229). -/
inductive Ecc where
  | clean
  | corrected
  | uncorrectable
  deriving DecidableEq, Repr

/-- A detection by a mechanism of the table "Mechanisms" (R482), with what its record and reaction need (R484, R497). -/
structure Detection where
  half      : Half
  /-- Mechanism code. -/
  mech      : BitVec 8
  /-- UNITCLASS and UNIT of the integrity record. -/
  unitClass : BitVec 8
  unit      : BitVec 16
  /-- The slot of a Tongs unit (R138), for a detection at one. -/
  slot      : Fin 2
  /-- OBJECT of the integrity record. -/
  object    : Word
  /-- Addresses of the lines found faulty: local ones, and at a Tongs slot also global ones of lines in other packages. -/
  lines     : List Nat
  /-- The fault was a corrected single-bit error, which is only counted (R483). -/
  corrected : Bool
  /-- Owner context, when the mechanism can read one (tables "Affected contexts" and "Escalations"). -/
  owner     : Option (Fin 256)
  /-- Mechanism 0x05: the physical counter. -/
  counter   : Nat
  /-- Mechanism 0x0B: the contexts whose streams the pipeline was hashing. -/
  hashing   : List (Fin 256)
  /-- Mechanism 0x0B: the partition whose chain head failed, when it is the chain head. -/
  chainHead : Option (Fin 16)
  deriving DecidableEq, Repr

/-- A wake event of one half (R456). -/
structure WakeEvent where
  half : Half
  /-- Code of the source in the table "Wake sources", 0 for an event of R456 that the table does not list. -/
  code : Fin 9
  deriving DecidableEq, Repr

/-- A rail watched over PMBus (R471). -/
inductive Rail where
  | vddMv
  | vddSp
  deriving DecidableEq, Repr

/-- The commands of the mover: one constructor for each of the 151 rows of spec/opcode_table.json. -/
inductive Instr where
  -- haul instructions: hauler h performs the next instruction of its program
  | nop (t : Mc) (h : HaulerId)
  | halt (t : Mc) (h : HaulerId)
  | shape (t : Mc) (h : HaulerId)
  | move (t : Mc) (h : HaulerId)
  | gather (t : Mc) (h : HaulerId)
  | loop (t : Mc) (h : HaulerId)
  | stepBase (t : Mc) (h : HaulerId)
  | xform (t : Mc) (h : HaulerId)
  | quant (t : Mc) (h : HaulerId)
  | sums (t : Mc) (h : HaulerId)
  | code (t : Mc) (h : HaulerId)
  | expand (t : Mc) (h : HaulerId)
  | putRingFill (t : Mc) (h : HaulerId)
  | putHandle (t : Mc) (h : HaulerId)
  | takeRingAcquire (t : Mc) (h : HaulerId)
  | takeRingRelease (t : Mc) (h : HaulerId)
  | takeHandle (t : Mc) (h : HaulerId)
  | wait (t : Mc) (h : HaulerId)
  | signal (t : Mc) (h : HaulerId)
  | fence (t : Mc) (h : HaulerId)
  | pace (t : Mc) (h : HaulerId)
  | prefetch (t : Mc) (h : HaulerId)
  | advise (t : Mc) (h : HaulerId)
  | atomic (t : Mc) (h : HaulerId)
  | reduce (t : Mc) (h : HaulerId)
  | ledgerSplit (t : Mc) (h : HaulerId)
  | ledgerMark (t : Mc) (h : HaulerId)
  | report (t : Mc) (h : HaulerId)
  | setp (t : Mc) (h : HaulerId)
  -- what the mover does with running requests
  /-- Hauler h takes the parked request of its half whose wait ended first (R75). -/
  | parkedResume (t : Mc) (h : HaulerId)
  | tongsSlotGrant (t : Mc) (half : Half)
  /-- The next billet of ring `ring` of context `ctx` is published. -/
  | ringPublish (t : Mc) (ctx : Fin 256) (ring : Fin 2048)
  | handlePublish (t : Mc) (ctx : Fin 256) (queue : Fin 1024)
  /-- The oldest record waiting for completion queue cq is written. -/
  | completionRecord (t : Mc) (cq : Fin 2048)
  | msixCoalesceTimeout (t : Mc) (cq : Fin 2048)
  -- schedule port: each carries the whole bundle that holds the operation (R252)
  | rd (t : Mc) (b : Bundle)
  | tbl (t : Mc) (b : Bundle)
  | str (t : Mc) (b : Bundle)
  | strPublish (t : Mc) (ctx : Fin 256) (ring : Fin 2048)
  | stm (t : Mc) (b : Bundle)
  | feed (t : Mc) (b : Bundle)
  | schedulePace (t : Mc) (b : Bundle)
  | sig (t : Mc) (b : Bundle)
  | drain (t : Mc) (b : Bundle)
  | drainComplete (t : Mc) (ctx : Fin 256)
  | ready (t : Mc) (ctx : Fin 256)
  /-- OR_FIELDS of an operand read of one Anvil port (table "Anvil ports"). -/
  | operandRead (t : Mc) (half : Half) (ap : Fin 16) (fields : BitVec 57)
  -- counters
  /-- The oldest update under way to physical counter `ctr` reaches its home. -/
  | counterUpdate (t : Mc) (ctr : Fin 65536)
  | counterWait (t : Mc) (half : Half) (ctx : Fin 256) (vid : BitVec 12) (target : Word)
  | hostAdd (t : Mc) (w : RegWrite)
  | stallEvaluation (t : Mc)
  | stallPending (t : Mc) (w : RegWrite)
  -- doorbells and queues
  | sqDoorbell (t : Mc) (q : Fin 8192) (w : BellWrite)
  | cqDoorbell (t : Mc) (q : Fin 2048) (w : BellWrite)
  /-- A write of word `word` of pages 20 to 31 of the region: word 0 is the pacing doorbell, the others are reserved. -/
  | pacingDoorbell (t : Mc) (word : Nat) (w : BellWrite)
  | pacingTimer (t : Mc) (line : Fin 256)
  | entryFetch (t : Mc) (q : Fin 8192)
  | haul (t : Mc) (h : HaulerId)
  | arm (t : Mc) (h : HaulerId) (q : Fin 8192)
  | rearm (t : Mc) (h : HaulerId) (q : Fin 8192)
  | stop (t : Mc) (q : Fin 8192)
  | persistentNextRun (t : Mc) (h : HaulerId) (q : Fin 8192)
  -- administrative commands: the Foreman takes the next entry of partition p's admin queue
  | sqEnable (t : Mc) (p : Fin 16)
  | sqDisable (t : Mc) (p : Fin 16)
  | cqEnable (t : Mc) (p : Fin 16)
  | cqDisable (t : Mc) (p : Fin 16)
  | queueReset (t : Mc) (p : Fin 16)
  | contextReset (t : Mc) (p : Fin 16)
  | contextResetComplete (t : Mc) (ctx : Fin 256)
  | segmentCreate (t : Mc) (p : Fin 16)
  | segmentDestroy (t : Mc) (p : Fin 16)
  | invalidate (t : Mc) (p : Fin 16)
  | segmentDrainComplete (t : Mc) (ctx : Fin 256) (slot : Fin 16)
  | faultResolve (t : Mc) (p : Fin 16)
  | promotionCopyDone (t : Mc) (ctx : Fin 256) (slot : Fin 16) (block : Nat)
  | faultBatchClose (t : Mc) (p : Fin 16)
  | faultResolutionTimeout (t : Mc) (ctx : Fin 256) (slot : Fin 16) (block : Nat)
  | partnerUnfence (t : Mc) (p : Fin 16)
  | ledgerSeal (t : Mc) (p : Fin 16)
  | ledgerEntryClose (t : Mc) (p : Fin 16)
  /-- `programmed` is how many bytes of the range the flash took before an erase, program or compare failure, none on success. -/
  | flashWrite (t : Mc) (p : Fin 16) (programmed : Option Nat)
  | flashVerify (t : Mc) (p : Fin 16) (answers : Bool)
  | reload (t : Mc) (p : Fin 16) (env : StartEnv)
  | warmReset (t : Mc) (p : Fin 16) (env : StartEnv)
  -- resets and start-up
  | warmRstN (t : Mc) (env : StartEnv)
  | coldStart (t : Mc) (env : StartEnv)
  | powerLoss (t : Mc)
  | halfResetRejoin (t : Mc) (half : Half)
  -- remote class
  | rread (t : Mc) (f : RxFrame)
  | rwrite (t : Mc) (f : RxFrame)
  | ratomic (t : Mc) (f : RxFrame)
  | rreduce (t : Mc) (f : RxFrame)
  | rsignal (t : Mc) (f : RxFrame)
  | hello (t : Mc) (f : RxFrame)
  | response (t : Mc) (f : RxFrame)
  | attemptTimeout (t : Mc) (rec : Fin 1088) (tag : BitVec 32)
  | linkUp (t : Mc) (half : Half) (link : LinkPort)
  | pathDown (t : Mc) (rec : Fin 1088)
  | trainingTimeout (t : Mc) (rec : Fin 1088)
  | wakeOrderedSet (t : Mc) (rec : Fin 1088)
  | wakeLimit (t : Mc) (rec : Fin 1088)
  | epochComplete (t : Mc) (ctx : Fin 256) (red : Fin 4096)
  | epochTimeout (t : Mc) (ctx : Fin 256) (red : Fin 4096)
  -- clocks, power states and the Hearth
  /-- `seqIdle` is the half's SEQ_IDLE signal (R453). -/
  | glowEntry (t : Mc) (half : Half) (seqIdle : Bool)
  | glowWake (t : Mc) (event : WakeEvent)
  /-- `stuck` names a stack that does not confirm self-refresh in step 3 (R468). -/
  | bankedEntry (t : Mc) (stuck : Option (Half × Fin 8))
  /-- `code` is the wake code of the table "Wake sources" that the Hearth latched. -/
  | bankedWake (t : Mc) (code : Fin 9)
  | wakeN (t : Mc)
  | hostWake (t : Mc) (half : Half)
  | hbmSupervision (t : Mc) (half : Half) (stack : Fin 8) (celsius : BitVec 16) (selfRefresh : Bool)
  | bankedScrub (t : Mc) (half : Half) (ecc : Ecc)
  /-- `count` is how many mc passed between two sync edges (R447). -/
  | clock (t : Mc) (count : Nat) (env : StartEnv)
  | stagePoll (t : Mc) (half : Half) (rail : Rail) (statusWord : BitVec 16) (reading : StageReading)
  | brownoutWarning (t : Mc) (half : Half) (millivolts : Nat)
  /-- `millivolts` is the rail's reading, which has persisted for 4 µs (table "Brownout levels"). -/
  | brownoutRecovery (t : Mc) (half : Half) (millivolts : Nat)
  | brownoutReset (t : Mc) (half : Half) (millivolts : Nat) (env : StartEnv)
  -- integrity monitoring
  | containedDetection (t : Mc) (d : Detection) (env : StartEnv)
  | uncontainedDetection (t : Mc) (d : Detection) (env : StartEnv)
  | haulerWatchdog (t : Mc) (h : HaulerId) (env : StartEnv)
  | selfTest (t : Mc) (slice : Slice) (passes : Bool)
  | latentOverdue (t : Mc) (half : Half) (ap : Fin 16)
  | patrolScrub (t : Mc) (half : Half) (ecc : Ecc)
  -- register writes with a behaviour of their own
  | commit (t : Mc) (w : RegWrite)
  | priorityCommitApply (t : Mc) (p : Fin 16)
  | discard (t : Mc) (w : RegWrite)
  | shadow (t : Mc) (w : RegWrite)
  | faultQueueEnable (t : Mc) (w : RegWrite)
  | faultQueueHead (t : Mc) (w : RegWrite)
  | clear (t : Mc) (w : RegWrite)
  | ledgerQueueEnable (t : Mc) (w : RegWrite)
  | ledgerQueueHead (t : Mc) (w : RegWrite)
  | bank (t : Mc) (w : RegWrite)
  | holdRun (t : Mc) (w : RegWrite)
  | wakeAt (t : Mc)
  | powerLogSelect (t : Mc) (w : RegWrite)
  | integrityLogSelect (t : Mc) (w : RegWrite)
  | alert (t : Mc) (w : RegWrite)
  | loopStart (t : Mc) (w : RegWrite)
  /-- Line `line` of the half's running loop test returns, with the bits of `flips` inverted on its path; `bad` when it returns spoiled or
  fails its CRC. -/
  | loopLineReturn (t : Mc) (half : Half) (line : Nat) (flips : List Byte) (check : LineCheck)
  | loopLineLost (t : Mc) (half : Half) (line : Nat)
  /-- `failing` lists the banks that fail the March C- test. -/
  | mbistStart (t : Mc) (w : RegWrite) (failing : List (Fin 128))
  /-- `failing` lists the slices that fail their test. -/
  | lbistStart (t : Mc) (w : RegWrite) (failing : List Slice)
  /-- A TAP write of FV_TEST_TAP. -/
  | release (t : Mc) (value : Word)
  /-- A TAP write of `value` to offset `off` of the test block. -/
  | tapAccess (t : Mc) (off : Nat) (value : Word)
  | go (t : Mc) (w : RegWrite)
  | adminSqRecover (t : Mc) (w : RegWrite)
  | adminCqRecover (t : Mc) (w : RegWrite)
  /-- A write access of `size` bytes at offset `off` of the register aperture. -/
  | registerWrite (t : Mc) (port : Half) (off : Nat) (size : Nat) (value : Word)
  | linkDown (t : Mc) (half : Half) (link : LinkPort)
  | quenchTimeout (t : Mc) (half : Half) (env : StartEnv)
  | tapTestLogicReset (t : Mc)
  deriving DecidableEq, Repr

end Sys2Proof
end

