-- ==== Sys2Proof/Config.lean ====
section
/-! DEFINITION. What the manual leaves open, as opaque constants: free values (nothing in Lean can evaluate them). -/

namespace Sys2Proof

/-- What a byte of HBM holds after its stack lost power, by power-loss count and local address (table "Retention"). FREE VALUE. -/
opaque Config.hbmFill : Nat → Nat → Byte

/-- Whether a 256 B line of HBM is poisoned after its stack lost power, by count and line number (R443). FREE VALUE. -/
opaque Config.hbmPoison : Nat → Nat → Bool

/-- The size in bytes of the packed copy of the settings, by configuration generation and image digest (R435). FREE VALUE. -/
opaque Config.packedSize : Nat → Nat → Nat

/-- The private P-384 key of the device that signs ledger seals (R422), by the two words of the serial number. FREE VALUE. -/
opaque Config.deviceKey : BitVec 64 → BitVec 64 → Nat

/-- The per-signature number of the n-th seal (R422). FREE VALUE. -/
opaque Config.sealNonce : Nat → Nat

/-- The fused device secret of 256 bits from which the line keys are derived (R354), by the two words of the serial number. FREE
VALUE. -/
opaque Config.deviceSecret : BitVec 64 → BitVec 64 → BitVec 256

/-- The bytes of the n-th parking record: the manual gives the record its size and its place, and no format (R75). FREE VALUE. -/
opaque Config.parkByte : Nat → Nat → Byte

/-- A byte of a reduction's accumulator, by how many free values were drawn before and by its place: the manual gives the accumulator its
size and no format (table "Reduction descriptor"). FREE VALUE. -/
opaque Config.accByte : Nat → Nat → Byte

/-- What a byte of the flash holds after a reset during the FLASH_WRITE that programs it, by count of start-ups and address (R437).
FREE VALUE. -/
opaque Config.flashCut : Nat → Nat → Byte

/-- BOOT of the n-th start-up (table "HELLO payload"). FREE VALUE. -/
opaque Config.bootValue : Nat → BitVec 64

/-- A value that the manual leaves open, by how many were drawn before (State.drawn). FREE VALUE. -/
opaque Config.freeValue : Nat → BitVec 64

/-- The data of a byte that could not be read and is delivered spoiled: of a half in half reset (R32), or of a remote read that
failed (R392), by TIME and global address. FREE VALUE. -/
opaque Config.unreadByte : Nat → Nat → Byte

end Sys2Proof
end

