-- ==== Sys2Proof/Machine/Settings.lean ====
section
/-! DEFINITION. The settings that the configuration image gives the mover (retain class C): one structure per section record of
R428 to R431, in the manual's names. Numbers are plain Nat where the manual gives a range, bit patterns where it gives bits. -/

namespace Sys2Proof.Machine

/-- The three product grades (table "Grade capabilities", R7); they differ only in fuses. -/
inductive Grade where
  | a
  | b
  | c
  deriving DecidableEq, Repr

/-- HALVES record: residency store (R331) and the wheel's class counts (R307). -/
structure HalfCfg where
  resOffset : Nat
  resLength : Nat
  r : Nat
  w : Nat
  x : Nat
  deriving DecidableEq, Repr

/-- PARTITIONS record. Times are in ns. -/
structure PartCfg where
  homePort    : Half
  adminSqBase : Nat
  adminCqBase : Nat
  compat      : Bool
  batchWindow : Nat
  resTimeout  : Nat
  hotThreshold : Nat
  adminVector : Nat
  deriving DecidableEq, Repr

/-- CONTEXTS record; Seam shares in 1/32 steps from East to West and from West to East (R19). -/
structure CtxCfg where
  ctx       : Nat
  partition : Nat
  homeHalf  : Half
  /-- Bit c is 1 when profile code c is permitted. -/
  profiles  : Nat
  initialProfile : Nat
  ledgered  : Bool
  seamEW    : Nat
  seamWE    : Nat
  drainCounter : Option Nat
  deriving DecidableEq, Repr

/-- STAGING record (R231, R232). -/
structure StagingCfg where
  ctx     : Nat
  half    : Half
  parking : Nat
  offset  : Nat
  length  : Nat
  segment : Nat
  deriving DecidableEq, Repr

/-- Segment kinds (R328). -/
inductive SegKind where
  | device
  | host
  | migratable
  deriving DecidableEq, Repr

/-- The fields of a segment (table "Segment fields", R328). -/
structure SegCfg where
  ctx     : Nat
  index   : Nat
  kind    : SegKind
  r       : Bool
  w       : Bool
  a       : Bool
  enc     : Bool
  comp    : Bool
  led     : Bool
  half    : Half
  /-- INITIAL: true is ABSENT. -/
  absent  : Bool
  start   : Nat
  length  : Nat
  backing : Nat
  pool    : Nat
  frames  : Nat
  deriving DecidableEq, Repr

/-- SQUEUES record (table "Submission queue descriptor"). -/
structure SqCfg where
  qid        : Nat
  ctx        : Nat
  persistent : Bool
  cq         : Nat
  priority   : Nat
  limit      : Nat
  depth      : Nat
  deriving DecidableEq, Repr

/-- Interrupt modes of a completion queue (R292); the time of COALESCE is in ns. -/
inductive IrqMode where
  | none
  | each
  | coalesce (count : Nat) (time : Nat)
  deriving DecidableEq, Repr

/-- CQUEUES record (table "Completion queue descriptor"). -/
structure CqCfg where
  qid       : Nat
  partition : Nat
  depth     : Nat
  vector    : Nat
  irq       : IrqMode
  deriving DecidableEq, Repr

/-- COUNTERS record (table "Counter descriptor"). -/
structure CtrCfg where
  ctr     : Nat
  owner   : Nat
  initial : Nat
  host    : Bool
  deriving DecidableEq, Repr

/-- An entry of a context's virtual counter table (R359). -/
inductive VEntry where
  | unmapped
  | loc (ctr : Nat) (s : Bool) (w : Bool)
  | remote (rec : Nat) (exportId : Nat) (s : Bool)
  deriving DecidableEq, Repr

/-- VCOUNTERS record. -/
structure VctrCfg where
  ctx   : Nat
  vid   : Nat
  entry : VEntry
  deriving DecidableEq, Repr

/-- RINGS record (table "Ring descriptor", R235). -/
structure RingCfg where
  ctx     : Nat
  ring    : Nat
  half    : Half
  slots   : Nat
  /-- Billet size is 4 KiB × 2^log. -/
  log     : Nat
  offset  : Nat
  fixedAhead : Bool
  ahead   : Nat
  /-- Producer SCHEDULE. -/
  prodSched : Bool
  /-- Consumer HAULER. -/
  consHauler : Bool
  format  : Nat
  coded   : Option Nat
  rate    : Nat
  firstFill : Nat
  deriving DecidableEq, Repr

/-- HANDLEQ record (R242). -/
structure HandleCfg where
  ctx    : Nat
  queue  : Nat
  half   : Half
  depth  : Nat
  offset : Nat
  deriving DecidableEq, Repr

/-- FEEDS record (R249). -/
structure FeedCfg where
  half : Half
  feed : Nat
  ctx  : Nat
  deriving DecidableEq, Repr

/-- Sources of a pacing line (table "Pacing sources"). -/
inductive PaceSource where
  | timer
  | host
  | schedule
  deriving DecidableEq, Repr

/-- PACING record (R113); the period is in mc. -/
structure PacingCfg where
  line   : Nat
  ctx    : Nat
  source : PaceSource
  period : Nat
  deriving DecidableEq, Repr

/-- CHANNELS record (table "Scale-channel record"); FP32 values are bit patterns. -/
structure ChannelCfg where
  ctx     : Nat
  pinned  : Bool
  channel : Nat
  w       : Nat
  margin  : BitVec 32
  a       : BitVec 32
  lo      : BitVec 32
  hi      : BitVec 32
  threshold : Nat
  deriving DecidableEq, Repr

/-- RELAY record: the Anvil ports of one chain, first port first (R267). -/
structure RelayCfg where
  ctx   : Nat
  half  : Half
  ports : List Nat
  deriving DecidableEq, Repr

/-- PARTNERS record (table "Partner record", R381); times in ns. A path is a pair of chiplet and link port. -/
structure PartnerCfg where
  num     : Nat
  package : Nat
  routed  : Bool
  half    : Half
  paths   : List (Nat × Nat)
  owner   : Nat
  timeout : Nat
  credit  : Nat
  wake    : Option Nat
  deriving DecidableEq, Repr

/-- What an export entry names (table "Export entry", R395). -/
inductive ExportTarget where
  | memory (va : Nat) (length : Nat)
  | counter (vid : Nat)
  | reduction (red : Nat)
  deriving DecidableEq, Repr

/-- EXPORTS record; `permitted` none is ALL. -/
structure ExportCfg where
  id     : Nat
  owner  : Nat
  target : ExportTarget
  r      : Bool
  w      : Bool
  a      : Bool
  priority : Nat
  permitted : Option (List Nat)
  deriving DecidableEq, Repr

/-- REDUCTIONS record (table "Reduction descriptor", R400, with the home-side fields); the timeout is in ns. -/
structure RedCfg where
  ctx     : Nat
  red     : Nat
  home    : Nat
  exportId : Nat
  members : Nat
  length  : Nat
  fmt     : Nat
  buffer  : Nat
  dest    : Nat
  counter : Option Nat
  timeout : Nat
  deriving DecidableEq, Repr

/-- SAFETY record (table "Safety policy", R485); times in ns. -/
structure SafetyCfg where
  stallWindow : Nat
  watchdog    : Nat
  escalation  : Nat
  quenchLimit : Nat
  seamLimit   : Nat
  deriving DecidableEq, Repr

/-- POWER record (table "Power policy", R479); times in ns (SCRUB is the time per line), THERMAL in °C. -/
structure PowerCfg where
  glowIdle : Nat
  banked   : Bool
  bankIdle : Nat
  thermal  : Nat
  scrub    : Nat
  deriving DecidableEq, Repr

/-- The settings of one configuration generation: the image header and its sections. -/
structure Settings where
  pkg      : Nat
  gen      : Nat
  rollback : Nat
  keyEpoch : Nat
  commitRollback : Bool
  patch    : Bool
  packed   : Nat
  halves   : Both HalfCfg
  parts    : List PartCfg
  ctxs     : List CtxCfg
  staging  : List StagingCfg
  segs     : List SegCfg
  sqs      : List SqCfg
  cqs      : List CqCfg
  ctrs     : List CtrCfg
  vctrs    : List VctrCfg
  rings    : List RingCfg
  handles  : List HandleCfg
  feeds    : List FeedCfg
  pacing   : List PacingCfg
  channels : List ChannelCfg
  relays   : List RelayCfg
  partners : List PartnerCfg
  exports  : List ExportCfg
  reds     : List RedCfg
  safety   : SafetyCfg
  power    : PowerCfg
  deriving DecidableEq, Repr

/-- Defaults of the table "Safety policy" (R485). -/
def SafetyCfg.default : SafetyCfg :=
  { stallWindow := 1000000, watchdog := 2000, escalation := 100000000, quenchLimit := 3, seamLimit := 16 }

/-- Defaults of the table "Power policy" (R479). -/
def PowerCfg.default : PowerCfg :=
  { glowIdle := 2000, banked := false, bankIdle := 10000000, thermal := 95, scrub := 1000 }

/-- Defaults of a HALVES record: r = 16, w = 8, x = 8 (R307), and an empty residency store. -/
def HalfCfg.default : HalfCfg := { resOffset := 0, resLength := 0, r := 16, w := 8, x := 8 }

/-- No settings: what is in force in maintenance configuration and in Cold (R434). -/
def Settings.none : Settings :=
  { pkg := 0, gen := 0, rollback := 0, keyEpoch := 0, commitRollback := false, patch := false, packed := 0
    halves := ⟨HalfCfg.default, HalfCfg.default⟩, parts := [], ctxs := [], staging := [], segs := [], sqs := []
    cqs := [], ctrs := [], vctrs := [], rings := [], handles := [], feeds := [], pacing := [], channels := []
    relays := [], partners := [], exports := [], reds := [], safety := SafetyCfg.default, power := PowerCfg.default }

end Sys2Proof.Machine
end

