-- ==== Sys2Proof/Machine/State.lean ====
section
/-! DEFINITION. The state of the mover, as plain data: memories, settings, queues, requests, rings, counters, segments, the
remote engine, the ledger, power, integrity and test state, the register pages, and the queue of waiting commands. -/

namespace Sys2Proof.Machine

/-- Why the machine stops with a fault. -/
inductive Fault where
  /-- Raised by a pass (and by any other access through a segment) whose translated byte lies in no window of the table "Local
  windows" (R39): the address does not exist. Safe: the model stops where the manual gives no access. -/
  | absentAddress (addr : Nat)
  deriving DecidableEq, Repr

/-- Why a command is refused. -/
inductive Refusal where
  /-- A command whose meaning is not modelled yet; raised by the dispatch alone. Safe: the model stops. -/
  | notModelled (mnemonic : String)
  deriving DecidableEq, Repr

/-! ## Fuses, flash and memory -/

/-- What manufacture fixes (R6, R429, R433, R541). -/
structure Fuses where
  grade    : Grade
  stepping : Nat
  serial0  : Word
  serial1  : Word
  /-- SHA-384 of the accepted signing key (R429). -/
  keyHash  : Nat
  /-- Fuse rollback value and how often it has risen, at most 64 times (R433). -/
  rollback : Nat
  rises    : Nat
  deriving DecidableEq, Repr

/-- A write of the Stockpile in mc `at`, by a requester whose place in the order of R230 is `rank`. -/
structure BankWrite where
  at'  : Mc
  rank : Nat
  addr : Nat
  data : List (Byte × Bool)
  deriving DecidableEq, Repr

/-- The bytes that local addresses reach (HBM, Stockpile, host windows: table "Local windows") and the spoil mark of each 256 B
line. Both lists are strictly rising in the address and list nothing equal to what an unlisted address reads as. -/
structure Mem where
  cells : List Host.Cell
  /-- Spoil marks by line number (local address ÷ 256). -/
  marks : List (Nat × Bool)
  /-- How often the HBM stacks lost power; above 0, unlisted HBM bytes and poison are free values (table "Retention"). -/
  hbmEpoch : Nat
  /-- The Stockpile writes of the mc of the last one, in the order in which their banks grant them (R230). -/
  recent : List BankWrite
  deriving DecidableEq, Repr

/-! ## Haulers and requests -/

/-- A shape set (table "Hauler state"); `handle` marks a base taken at run time (R81). -/
structure ShapeSet where
  base   : Nat
  len    : Nat
  stride : Int
  count  : Nat
  loaded : Bool
  handle : Bool
  deriving DecidableEq, Repr

/-- A counter binding (R68, R69, R360). -/
structure Binding where
  vid      : Nat
  target   : Nat
  gen      : Nat
  supplied : Bool
  deriving DecidableEq, Repr

/-- An open loop level: counter L, first word and length of the body, count, index, and the bases at loop entry (R85, R86). -/
structure LoopFrame where
  ctr   : Nat
  start : Nat
  body  : Nat
  count : Nat
  index : Nat
  bases : List Nat
  deriving DecidableEq, Repr

/-- What a request waits for. -/
inductive Wait where
  | counter (vid ctr target gen : Nat)
  | ringClaim (ring : Nat)
  | ringAcquire (ring : Nat)
  | handlePut (queue : Nat)
  | handleTake (queue : Nat)
  | pace (line : Nat)
  /-- An ABSENT block (R335): slot and block. -/
  | absent (slot block : Nat)
  /-- A block that is MOVING, or a range that is held or draining (R334). -/
  | moving (slot block : Nat)
  /-- PREFETCH with W = 1: slot, first block, blocks (R347). -/
  | prefetch (slot first count : Nat)
  /-- An ATOMIC whose target block is being promoted (R347). -/
  | promotion (slot block : Nat)
  /-- A Tongs slot (R139), an entry of an address feed (R137), remote responses, FENCE: waits that do not park. -/
  | tongs
  | feed (feed : Nat)
  | remote
  | fence
  /-- A ledger entry of the request that cannot be written, the queue being full or not enabled (R425). -/
  | ledger
  /-- The same, of an entry that closed after its instruction: the request waits at the instruction to which it has come (R425). -/
  | entry
  /-- A Seam data line toward a half in Glow that a brownout hold keeps there (R455, R475). -/
  | seam (half : Half)
  /-- A completion queue that is full when the request must write a record to it (R291). -/
  | record (cq : Nat)
  deriving DecidableEq, Repr

/-- Traffic classes of a memory port (R306). -/
inductive LineClass where
  | read
  | write
  | remote
  deriving DecidableEq, Repr

/-- What a line write brings to its line: the partition whose key encrypts it, the address and the bytes with their spoil marks. -/
structure LineLoad where
  key  : Option Nat
  addr : Nat
  data : List (Byte × Bool)
  deriving DecidableEq, Repr

/-- A 256 B line request to a memory port (R305, R306). -/
structure Line where
  /-- Memory port: half and number. -/
  half  : Half
  port  : Nat
  /-- HBM line: local address ÷ 256. -/
  num   : Nat
  write : Bool
  /-- What is in memory once the line has been issued; none for a read. -/
  load  : Option LineLoad
  cls   : LineClass
  /-- Context and ring of the fill that reads the line, if any (R312). -/
  ring  : Option (Nat × Nat)
  /-- Place in its requester's stream. -/
  seq   : Nat
  /-- The read of a read and a write that the port makes as one (R57, R519). -/
  merge : Bool
  /-- Segments (context, slot, epoch) in which the line's billet counts as in flight (R336). -/
  segs  : List (Nat × Nat × Bool)
  deriving DecidableEq, Repr

/-- The lines of a request that are not issued (R319): those in the hauler's port buffers and those behind them, in stream order, and
the number of the next. -/
structure LineQueue where
  buffers : List Line
  stream  : List Line
  next    : Nat
  deriving DecidableEq, Repr

/-- An effect that waits for earlier writes' responses; effects of one request happen in program order (R108, R109). `needs`
holds the tags of the remote writes that must be answered first; the lines to be answered first are those numbered below `upto`. -/
inductive Effect where
  | signal (vid : Nat) (n : Nat) (gen : Nat) (word : Nat) (needs : List Nat) (upto : Nat)
  /-- A SIGNAL on its way to its counter, at which it takes effect at mc `due`. -/
  | sent (due : Mc)
  | ringPublish (ring billet : Nat) (needs : List Nat) (upto : Nat)
  | handlePublish (queue entry : Nat) (base : Nat) (needs : List Nat) (upto : Nat)
  /-- A REPORT, and the tags of the remote writes before it that were open when it ran (R115). -/
  | report (code : Nat) (irq : Bool) (bytes spoiled : Nat) (after : List Nat)
  /-- An RSIGNAL sent with this tag and not yet answered (R366). -/
  | rsignal (tag : Nat)
  deriving DecidableEq, Repr

/-- The open ledger entry of a request (R413, R417): streams since it opened, marks, part index. -/
structure LedgerPart where
  input   : List Byte
  output  : List Byte
  marks   : List Word
  spoiled : Bool
  part    : Nat
  deriving DecidableEq, Repr

/-- The rights a billet can need (R328). -/
inductive Right where
  | r
  | w
  | a
  deriving DecidableEq, Repr

/-- A range that a billet needs: virtual address, bytes, right. -/
abbrev Need := Nat × Nat × Right

/-- A part of a translated billet: contiguous bytes at a local address, or at a global address of another package. -/
structure Piece where
  addr  : Nat
  len   : Nat
  /-- Package of a remote piece. -/
  pkg   : Option Nat
  slot  : Nat
  /-- Epoch of the segment at the translation (R336). -/
  epoch : Bool
  block : Option Nat
  /-- Partition whose key encrypts the bytes in HBM. -/
  key   : Option Nat
  /-- The bytes belong to the boundary streams (R413). -/
  led   : Bool
  deriving DecidableEq, Repr

/-- A range that a billet reads: its place in the instruction's source streams, virtual address, bytes. -/
structure SrcRange where
  key : Nat
  va  : Nat
  len : Nat
  deriving DecidableEq, Repr

/-- A range of a source that a hauler has read and holds: its bytes with their spoil marks, and those of them that belong to the ledger's
input stream (R52, R138, R143, R413). -/
structure Held where
  range : SrcRange
  data  : List (Byte × Bool)
  led   : List (Byte × Bool)
  deriving DecidableEq, Repr

/-- A scale record that an execution appends once its last destination line is issued (R178): channel, pair, and the number below which
its destination lines stand. -/
structure ChanRec where
  channel : Nat
  pair    : BitVec 32 × BitVec 32
  upto    : Nat
  deriving DecidableEq, Repr

/-- How far the pass at the program counter has come (R143, R318). -/
structure PassState where
  started : Bool
  /-- Billets written. -/
  done    : Nat
  /-- Number of the first of its lines, and how many of the request's host writes came before it (R112). -/
  base    : Nat
  hostBase : Both Nat
  /-- Number behind its last destination line so far, side outputs left out (R178). -/
  destEnd : Nat
  /-- Snapshot of the scale channel taken at the start of the execution (R175). -/
  snap    : List (BitVec 32 × BitVec 32)
  /-- Tags of the RREADs sent for the billet at hand. -/
  sent    : List Nat
  /-- The billet at hand that is translated and whose remote bytes are awaited: what it needs and its pieces (R334, R336). -/
  opened  : Option (List Need × List Piece)
  /-- What the Tongs slot, or for repeated reads the hauler, holds of the source (R52, R138, R143). -/
  slot    : List Held
  /-- Feed entries or handle already taken by this execution. -/
  taken   : List Nat
  /-- Address feed from which entries are still to be taken, and the order in which the GATHER reached it (R137). -/
  feedAt  : Option (Nat × Nat)
  /-- Finite values seen so far, as absmax or as lo and hi (R175), and whether a spoiled or non-finite element was (R178). -/
  range   : Option (BitVec 32 × BitVec 32 × BitVec 32)
  dirty   : Bool
  /-- Codes written so far in row-major order, kept for SUMS (R182). -/
  codes   : List (Int × Bool)
  /-- Ledgered bytes read so far, by their place in the source streams (R413). -/
  inputs  : List (Nat × List Byte)
  /-- The request's earliest continuing cause is OK_SPOILED and arose in this execution (R116, R212). -/
  onlyLines : Bool
  deriving DecidableEq, Repr

/-- A pass that has not begun. -/
def PassState.start : PassState :=
  { started := false, done := 0, base := 0, hostBase := ⟨0, 0⟩, destEnd := 0, snap := [], sent := [], opened := none, slot := []
    taken := [], feedAt := none, range := none, dirty := false, codes := [], inputs := []
    onlyLines := false }

/-- A request that a hauler runs or that is parked (table "Hauler state"). -/
structure Request where
  id      : Nat
  qid     : Nat
  /-- The request is a run of its persistent channel (R293, R295). -/
  isRun   : Bool
  ctx     : Nat
  half    : Half
  /-- The hauler that runs it; none while it is parked. -/
  hauler  : Option Nat
  wait    : Option Wait
  /-- Order in which waits began: mc, hauler number, and order of the commands (R91, R97, R98, R114, R137, R139, R344). -/
  waitAt  : Mc
  waitHaul : Nat
  waitSeq : Nat
  /-- The wait began without a free parking record and stays on its hauler (R76). -/
  stays   : Bool
  /-- How the counter wait ended: true when its target was reached, false with OWNER_RESET (R369). -/
  latched : Option Bool
  /-- Parking record in use, while parked (R75, R232). -/
  parkedIn : Option Nat
  tag     : Nat
  irq     : Bool
  pmask   : Nat
  /-- The queue entry, and its argument block once it has been read (R277, R278). -/
  entry   : List Byte
  argBlk  : Option (List Byte)
  /-- The program as read (R73); empty until the fetch is complete. -/
  program : List Word
  /-- Index of the next program word. -/
  pc      : Nat
  shapes  : List ShapeSet
  loops   : List LoopFrame
  params  : List Word
  /-- Parameters as the entry supplied them (R415). -/
  params0 : List Word
  binds   : List Binding
  /-- Ring slots held between acquire and release: ring and billet. -/
  held    : List (Nat × Nat)
  /-- XFORM, QUANT and SUMS words waiting for their pass. -/
  mods    : List Word
  bytes   : Nat
  spoiled : Nat
  /-- Earliest continuing cause: status and word (R116). -/
  cause   : Option (Nat × Nat)
  /-- Final status and detail word, once the request has ended. -/
  fin     : Option (Nat × Nat)
  pass    : PassState
  /-- Tongs unit and slot held (R138). -/
  tongs   : Option (Nat × Nat)
  /-- Lines found faulty in the slot during the pass: true for a destination line, and its address (R146, R147). -/
  hits    : List (Bool × Nat)
  /-- Next element index of each pass word (R164). -/
  elems   : List (Nat × Nat)
  /-- Tags of remote writes not yet answered. -/
  writes  : List Nat
  /-- HBM lines not yet issued (R319). -/
  lines   : LineQueue
  /-- mc at which the hauler last issued a line, passed an instruction word, or received data or a response (R487). -/
  active  : Mc
  /-- Writes of the request on each host port, address and bytes, which no zero-length read has followed, oldest first (R107). -/
  hostWrites : Both (List (Nat × Nat))
  /-- What a pass word holds of a source that an open loop repeats (R52): the word, how many loops were open up to the outermost one
  that repeats it, and what is held. -/
  kept    : List (Nat × Nat × Held)
  /-- Scale record that waits for the execution's destination lines (R178). -/
  record  : Option ChanRec
  /-- mc at which the request's latest counter update is due (R109). -/
  lastDue : Mc
  /-- Remote bytes read for the pass at hand: global address, byte, spoil mark. -/
  rdata   : List (Nat × Byte × Bool)
  /-- Answer of a remote atomic: status, data, and whether its line came spoiled (R386). -/
  answer  : Option (Nat × List Byte × Bool)
  effects : List Effect
  /-- Ring and billet of the fill under way (R91). -/
  filling : Option (Nat × Nat)
  led     : LedgerPart
  /-- The entry with LAST has closed (R417). -/
  lastPart : Bool
  /-- SEQ of the request's last ledger entry. -/
  lastSeq : Option Nat
  deriving DecidableEq, Repr

/-! ## Queues and records -/

/-- Queue states (R274). -/
inductive QState where
  | disabled
  | enabled
  | error
  deriving DecidableEq, Repr

/-- A submission queue (R281, R293); `held` are the entries read and not dispatched. -/
structure SubQueue where
  qid     : Nat
  st      : QState
  base    : Nat
  tail    : Nat
  head    : Nat
  held    : List (List Byte)
  running : Nat
  active  : Bool
  shadow  : Option (List Byte)
  /-- Entry of the present or last run of a persistent channel. -/
  run     : Option (List Byte)
  /-- Status of a run that has ended and whose successor has not started (R295), not of other entries' requests. -/
  ended   : Option Nat
  /-- mc of that end. -/
  endedAt : Mc
  /-- Virtual IDs and local targets that the last run left (R297). -/
  left    : List Binding
  stopped : Bool
  /-- TAG and IRQ flag of accepted STOP entries (R298). -/
  stops   : List (Nat × Bool)
  /-- Committed and shadow priority (R321). -/
  committed : Nat
  shadowPrio : Nat
  /-- The committed priority in force up to mc `.1`, where a write of that mc has set another (R322). -/
  prioUntil : Option (Mc × Nat)
  deriving DecidableEq, Repr

/-- A completion queue (R290 to R292). -/
structure CompQueue where
  qid     : Nat
  st      : QState
  base    : Nat
  count   : Nat
  head    : Nat
  discards : Nat
  /-- Records that no message has yet followed, and the mc of the oldest one. -/
  unsignalled : Nat
  oldest  : Mc
  deriving DecidableEq, Repr

/-- A completion record that waits to be written (R287, R291). -/
structure PendingRec where
  cq      : Nat
  qid     : Nat
  tag     : Nat
  status  : Nat
  bytes   : Nat
  spoiled : Nat
  ledger  : Nat
  detail  : Nat
  irq     : Bool
  /-- Request that the record completes, if any; it keeps its hauler until then. -/
  req     : Option Nat
  /-- Partition whose admin command the record completes, if any. -/
  admin   : Option Nat
  /-- Request whose REPORT writes the record, if any (R105). -/
  rep     : Option Nat
  /-- mc at which the record became ready, and number of the hauler, 128 when no hauler has part in it (R291). -/
  ready   : Mc
  haul    : Nat
  /-- Offset and length of the range that a FLASH_WRITE whose record this is programs (R437). -/
  flash   : Option (Nat × Nat)
  deriving DecidableEq, Repr

/-- An administrative command in progress beyond its start (R302). -/
structure AdminOp where
  id      : Nat
  part    : Nat
  tag     : Nat
  irq     : Bool
  cmd     : Nat
  ctx     : Nat
  slot    : Nat
  first   : Nat
  count   : Nat
  mode    : Nat
  /-- Blocks whose transition is not finished, or drains not complete. -/
  left    : List Nat
  status  : Nat
  detail  : Nat
  deriving DecidableEq, Repr

/-- Context states (R272). -/
inductive CtxSt where
  | loaded
  | resetting
  | quenched
  deriving DecidableEq, Repr

/-- A parked counter wait of a processor context (R370, R514). -/
structure CwWait where
  half   : Half
  vid    : Nat
  ctr    : Nat
  target : Nat
  gen    : Nat
  deriving DecidableEq, Repr

/-- A context (R272, R253, R513, R515). -/
structure CtxState where
  ctx     : Nat
  st      : CtxSt
  profile : Nat
  /-- A bundle of the context has been accepted since it was loaded or reset (R261). -/
  ran     : Bool
  /-- Operations of the bundle of the last LATE, READY being withheld, each with whether it was not ready (R254, R375). -/
  late    : List (Half × Word × Bool)
  /-- SP_READY held low after a wake with OWNER_RESET (R515). -/
  faulted : Bool
  lateCount : Nat
  /-- Waits that the processor context has begun: parked counter waits and suspensions by LATE (R378). -/
  waitNo : Nat
  /-- FV_FAULT_LATE: kind and ID. -/
  lateKind : Nat
  lateId  : Nat
  cw      : Option CwWait
  /-- The CONTEXT_RESET under way: admin operation, profile, and whether a quench named it meanwhile (R301, R493). -/
  resetOp : Option Nat
  resetProfile : Nat
  quenchAfter : Bool
  /-- mc of the detection that quenched the context (R495). -/
  quenchedAt : Mc
  deriving DecidableEq, Repr

/-! ## Rings, handle queues, feeds, pacing lines -/

/-- A ring's run-time state (R238 to R241, R263). -/
structure RingSt where
  ctx       : Nat
  ring      : Nat
  claimed   : Nat
  published : Nat
  acquired  : Nat
  released  : Nat
  /-- Billets whose release has been made out of order, not yet counted in H (R98). -/
  early     : List Nat
  /-- Head billets whose release takes effect at an mc (R246). -/
  releasing : List (Mc × Nat)
  /-- Billet opened by STR, and billets closed by STR with PUB. -/
  openStr   : Option Nat
  closed    : List Nat
  /-- Claimed billets whose filling request ended: claimed and unpublished for good. -/
  lost      : List Nat
  /-- Stored length of each billet of a coded ring (R217). -/
  lengths   : List (Nat × Nat)
  /-- mc at which each not-yet-claimable release and each not-yet-visible publication was made (R240). -/
  relTimes  : List Mc
  pubTimes  : List Mc
  discards  : Nat
  deriving DecidableEq, Repr

/-- An entry of a handle queue: reserved by a request, or holding a handle (R96). -/
structure HandleEntry where
  id   : Nat
  req  : Nat
  val  : Option Nat
  deriving DecidableEq, Repr

structure HandleSt where
  ctx     : Nat
  queue   : Nat
  entries : List HandleEntry
  nextId  : Nat
  deriving DecidableEq, Repr

structure FeedSt where
  half    : Half
  feed    : Nat
  /-- Entries, and the mc from which a GATHER can take each (table "Schedule-port timing"). -/
  entries : List (Nat × Mc)
  deriving DecidableEq, Repr

structure PacingSt where
  line     : Nat
  pending  : Nat
  overruns : Nat
  /-- mc from which each request of a schedule-port PACE counts (table "Schedule-port timing"). -/
  coming   : List Mc
  /-- mc at which a timer line's next request is due. -/
  due      : Mc
  deriving DecidableEq, Repr

/-- An entry of a half's store buffer (R250): an STM whose write has no response yet. `tags` are the remote writes outstanding (record and
tag), `lines` its HBM lines not yet issued (R315), `held` while its range is held (R334), `failed` once a remote write of it has failed:
such an entry is no longer in use when nothing of it is outstanding, and stays as what later SIGs wait for in vain (R392). -/
structure StoreEntry where
  id   : Nat
  half : Half
  ctx  : Nat
  va   : Nat
  data : List (Byte × Bool)
  tags : List (Nat × Nat)
  lines : List Line
  held : Bool
  failed : Bool
  deriving DecidableEq, Repr

/-- An STR whose write has no response yet (table "Schedule-port timing"): its number among stores, the billet, the mc of the
response, and the write until its mc has come: that mc, the address and the bytes. -/
structure StrWrite where
  id     : Nat
  half   : Half
  ctx    : Nat
  ring   : Nat
  billet : Nat
  due    : Mc
  load   : Option (Mc × Nat × List (Byte × Bool))
  deriving DecidableEq, Repr

/-- A SIG that waits for the responses of earlier stores (R251): `needs` names them. -/
structure StoreSig where
  half  : Half
  ctx   : Nat
  vid   : Nat
  n     : Nat
  gen   : Nat
  needs : List Nat
  deriving DecidableEq, Repr

/-- A DRAIN whose counter has not been signalled (R264): context, half of the schedule port, rings still to drain. -/
structure DrainSt where
  ctx   : Nat
  half  : Half
  rings : List (Nat × Nat)
  gen   : Nat
  deriving DecidableEq, Repr

/-! ## Counters -/

/-- A counter at its home, and the other half's copy (R358, R364). -/
structure CtrSt where
  ctr      : Nat
  value    : Nat
  gen      : Nat
  abandoned : Bool
  sat      : Bool
  discards : Nat
  copyValue : Nat
  copyGen   : Nat
  copyAbandoned : Bool
  deriving DecidableEq, Repr

/-- A change of a counter on its way to the copy (R364, R544). -/
structure CopyMsg where
  ctr : Nat
  due : Mc
  value : Nat
  gen : Nat
  abandoned : Bool
  deriving DecidableEq, Repr

/-- An update under way to its counter's home (R362, R365). -/
structure Update where
  ctr    : Nat
  amount : Nat
  gen    : Nat
  /-- Half in which it arose. -/
  half   : Half
  /-- mc at which it takes effect. -/
  due    : Mc
  deriving DecidableEq, Repr

/-- A member of a stall set and how many evaluations it has stayed in it on one wait (R377, R378). -/
structure StallMember where
  /-- Request identity, or none for a processor context. -/
  req    : Option Nat
  ctx    : Nat
  qid    : Nat
  tag    : Nat
  code   : Nat
  object : Nat
  target : Nat
  /-- Which of the member's waits it is (R378). -/
  wait   : Nat
  rounds : Nat
  reported : Bool
  deriving DecidableEq, Repr

/-- A stall report as one partition sees it (R379). -/
structure StallReport where
  members : List StallMember
  foreign : Nat
  overflow : Bool
  deriving DecidableEq, Repr

/-- A partition's stall registers (R379). -/
structure StallRegs where
  part    : Nat
  reports : Nat
  pending : Bool
  /-- mc at which PENDING was last set (R534). -/
  shownAt : Option Mc
  shown   : StallReport
  held    : List StallReport
  deriving DecidableEq, Repr

/-! ## Segments and faults -/

/-- Block states (R338). -/
inductive BlockSt where
  | inHost
  | inFrame (f : Nat)
  /-- Promotion into frame f. -/
  | movingIn (f : Nat)
  /-- Demotion out of frame f; `copy` when it was WRITTEN. -/
  | movingOut (f : Nat) (copy : Bool)
  | absent
  deriving DecidableEq, Repr

/-- What FV_SEG_BLOCK shows of a block before a transition in mc `at'`. -/
structure BlockPast where
  at'     : Mc
  st      : BlockSt
  written : Bool
  readMostly : Bool
  preferDevice : Bool
  deriving DecidableEq, Repr

structure Block where
  num     : Nat
  st      : BlockSt
  written : Bool
  readMostly : Bool
  preferDevice : Bool
  /-- The block as it stood before the transitions of its last mc with one: a read in that mc sees this (R542). -/
  was     : Option BlockPast
  deriving DecidableEq, Repr

/-- What a drain applies when its range is quiet (R349). -/
inductive DrainAct where
  | destroy
  | invalidate (hold : Bool)
  /-- Promotion of one block; `auto` when the mover started it (R339). -/
  | promote (auto : Bool)
  | demote
  | drop
  deriving DecidableEq, Repr

structure SegDrain where
  act   : DrainAct
  /-- Blocks first to first + count − 1. -/
  first : Nat
  count : Nat
  /-- Epoch whose in-flight count must reach zero; chosen when the drain starts. -/
  started : Bool
  op    : Option Nat
  /-- mc of acceptance (R349). -/
  taken : Mc
  deriving DecidableEq, Repr

/-- A segment in its slot (R328, R336). -/
structure Segment where
  cfg    : SegCfg
  /-- Placed by the image (true) or by SEGMENT_CREATE (false). -/
  image  : Bool
  /-- Blocks not in their INITIAL state without marks. -/
  blocks : List Block
  /-- Held ranges: first block and count (R350). -/
  holds  : List (Nat × Nat)
  epoch  : Bool
  /-- In-flight counts of epoch 0 and epoch 1. -/
  inflight0 : Nat
  inflight1 : Nat
  drains : List SegDrain
  deriving DecidableEq, Repr

/-- A record of the fault queue before its PHASE is known (table "Fault record"). -/
structure FaultRec where
  kind    : Nat
  flags   : Nat
  waiters : Nat
  ctx     : Nat
  seg     : Nat
  event   : Nat
  object  : Nat
  value   : Nat
  time    : Nat
  batch   : Nat
  deriving DecidableEq, Repr

/-- An outstanding fault on a block (R341, R344): `recorded` once its record is in a batch, `written` once it is in the queue. -/
structure Outstanding where
  ctx     : Nat
  slot    : Nat
  block   : Nat
  recorded : Bool
  written : Bool
  flags   : Nat
  value   : Nat
  created : Mc
  waiters : List Nat
  /-- Waiters that do not hold a request (a PREFETCH with W = 0). -/
  extra   : Nat
  deriving DecidableEq, Repr

/-- A partition's fault queue and batches (R342, R343, R353). -/
structure FaultQ where
  part    : Nat
  base    : Nat
  vector  : Nat
  log     : Nat
  enabled : Bool
  head    : Nat
  records : Nat
  dropped : Nat
  /-- Number of the next batch to open. -/
  batchNo : Nat
  openB   : List FaultRec
  closedB : List FaultRec
  /-- FAULT and NO_FRAME records that wait for an open batch, in the order of their first faults (R343). -/
  waiting : List FaultRec
  deriving DecidableEq, Repr

/-- An entry of a half's hot-block table at its index (R346). -/
structure HotEntry where
  index : Nat
  ctx   : Nat
  seg   : Nat
  block : Nat
  count : Nat
  deriving DecidableEq, Repr

/-- A context's scale channel at run time (R175, R179); a record is (absmax or lo, hi) as bit patterns. -/
structure ChannelSt where
  ctx      : Nat
  channel  : Nat
  history  : List (BitVec 32 × BitVec 32)
  sat      : Nat
  raised   : Bool
  nonFinite : Nat
  deriving DecidableEq, Repr

/-! ## Anvil ports and schedule port -/

/-- A landing unit that has been written: 1 KiB and four spoil bits (R247). -/
structure Landing where
  unit  : Nat
  data  : List Byte
  spoil : List Bool
  /-- Context of the RD. -/
  ctx   : Nat
  deriving DecidableEq, Repr

/-- What an RD or TBL sends to a port (R246, R247, R219). -/
inductive PortData where
  | unit (l : Landing)
  /-- Stored bytes of a billet of a coded ring; `whole` with its last stored line. -/
  | stored (ring billet : Nat) (bytes : List (Byte × Bool)) (whole : Bool)
  | table (ring : Nat) (bytes : List (Byte × Bool))
  deriving DecidableEq, Repr

/-- Data on its way to a port, where it arrives at mc `due`. `bank` is the mc in which its lines are read from their banks and the address
of the first of them; none where nothing is read. -/
structure PortMsg where
  due  : Mc
  ctx  : Nat
  bank : Option (Mc × Nat)
  data : PortData
  deriving DecidableEq, Repr

/-- A code-table slot of an Anvil port (R219, R221): the ring and the table's bytes, none when the table was invalid. -/
structure TableSlot where
  ctx   : Nat
  ring  : Nat
  table : Option (List Byte)
  deriving DecidableEq, Repr

/-- A coded billet on its way into an expander: the table it is expanded under (R220), bytes so far, blocks already taken, BLOCK field
of the last one, whether the next block has its place in the expander, and whether a block had no TAG (R222). -/
structure Arriving where
  ctx    : Nat
  ring   : Nat
  billet : Nat
  table  : Option (List Byte)
  bytes  : List (Byte × Bool)
  taken  : Nat
  last   : Option Nat
  opened : Bool
  broken : Bool
  deriving DecidableEq, Repr

/-- A block in an expander whose lines are not yet on their way into the smoothing queue, in the order in which first stored lines arrive
(R206): its arrival, once its last stored line has come, what it expands to (none where it is spoiled), and C_i + 24 and T_RC + 24. -/
structure PortBlock where
  ctx     : Nat
  ring    : Nat
  block   : Nat
  arrival : Option Mc
  out     : Option (List Byte)
  cost    : Nat
  limit   : Nat
  /-- mc at which its first stored line came (R206). -/
  opened  : Mc
  /-- For each of its 16 lines, the least number of mc after which its lane can have emitted it (R205); empty where it is spoiled. -/
  floors  : List Nat
  /-- It has had to wait for a lane. -/
  blocked : Bool
  deriving DecidableEq, Repr

/-- An expanded 256 B line in the smoothing queue (R206), with the ring and block it came from, or on its way there. -/
structure ExpLine where
  data  : List Byte
  spoil : Bool
  ring  : Nat
  block : Nat
  /-- mc by which the line is in the queue (R207). -/
  due   : Mc
  /-- The last line of its block. -/
  final : Bool
  deriving DecidableEq, Repr

structure AnvilPort where
  half    : Half
  ap      : Nat
  landing : List Landing
  /-- Data on its way to the port, in the order of acceptance. -/
  coming  : List PortMsg
  tables  : List TableSlot
  blocks  : List PortBlock
  queue   : List ExpLine
  arriving : List Arriving
  /-- Lines that late EXPANDED reads have consumed before they arrived (R208). -/
  skip    : Nat
  /-- For the last 64 blocks whose last line is no longer in the queue, the mc in which its lane became free (R206). -/
  ends    : List Mc
  /-- Context and virtual cycle of the last accepted schedule-port operation (R352). -/
  issuer  : Option Nat
  vcyc    : Nat
  /-- Ring that last delivered coded data to the port. -/
  lastRing : Nat
  deriving DecidableEq, Repr

/-! ## Remote class -/

/-- Partner states (R387). -/
inductive PartnerSt where
  | absent
  | training
  | active
  | slow
  | fenced
  deriving DecidableEq, Repr

/-- A request that has completed within the last 1 ms (R388, R393): what a late response to it must match. -/
structure DoneReq where
  tag  : Nat
  ended : Mc
  ty   : Nat
  rlen : Nat
  seq  : Nat
  deriving DecidableEq, Repr

structure Partner where
  num      : Nat
  st       : PartnerSt
  rev      : Nat
  profiles : Nat
  gen      : Nat
  boot     : Option Nat
  credit   : Nat
  /-- Times of the violations of the last 1 ms, newest first (R397). -/
  violTimes : List Mc
  violations : Nat
  late     : Nat
  timeouts : Nat
  fencedDrops : Nat
  /-- Next SEQ to send (R390). -/
  txSeq    : Nat
  /-- h, SEQs applied above it, and the retained responses (R391). -/
  rxH      : Nat
  rxAbove  : List Nat
  retained : List (Nat × List Byte)
  /-- Responses since the last timeout (R387). -/
  okRun    : Nat
  /-- Index of the path of the last timeout. -/
  badPath  : Option Nat
  /-- Requests completed within the last 1 ms (R388, R393). -/
  recent   : List DoneReq
  nextTag  : Nat
  /-- mc until which requests wait for the record to become Active (R389, R462). -/
  wakeUntil : Option Mc
  /-- The wait follows a wake from Banked, and every request waits (R462). -/
  bankWake : Bool
  /-- mc at which the wake ordered set was last sent (R407). -/
  setAt    : Mc
  /-- mc of the link up that began the present Training (R387), and mc since which every path has been down. -/
  trainAt  : Mc
  downAt   : Mc
  deriving DecidableEq, Repr

/-- What an outstanding remote request is for. -/
inductive Purpose where
  /-- Read of `len` bytes at global address `addr`. -/
  | read (addr len : Nat)
  | write
  | atomic
  | reduce
  | signal
  /-- A line group of an L7 loop test (R504): true for the write, and the first line. -/
  | loopTest (run : Nat) (isWrite : Bool) (line : Nat)
  /-- The other package's part of an inbound request whose export reaches a remote segment. -/
  | relay (id : Nat)
  /-- The destination write of a reduction epoch (R403). -/
  | epochDest (ctx red epoch : Nat)
  /-- A write of a store-buffer entry (R250). -/
  | store (id : Nat)
  deriving DecidableEq, Repr

/-- A remote request that has no valid response yet (R388). -/
structure OutReq where
  num      : Nat
  tag      : Nat
  purpose  : Purpose
  req      : Option Nat
  word     : Nat
  /-- Address, payload, SPOIL and ARG of the request's frame (table "Transaction header"). -/
  addr     : Nat
  payload  : List Byte
  spoil    : Nat
  arg      : List Byte
  /-- SEQ, none until the request is first sent after the record's last Training (R390). -/
  seq      : Option Nat
  /-- A frame of it has been sent since the record's last Training: its lines are in flight at the partner (R398). -/
  onWire   : Bool
  /-- The wait for an Absent record to wake: none before it, true while it lasts, false when it is over (R389). -/
  wakeWait : Option Bool
  ty       : Nat
  rlen     : Nat
  attempts : Nat
  path     : Nat
  sentAt   : Mc
  lines    : Nat
  /-- Segments (context, slot, epoch) in which the billet counts (R336). -/
  segs     : List (Nat × Nat × Bool)
  /-- No attempt is under way: the request waits for the record to wake (R389), or for window or credit (R390, R398). -/
  waiting  : Bool
  deriving DecidableEq, Repr

/-- An inbound request that waits: for a MOVING or held block (R396), for the ledger (R425), or for another package. `sent` once the
other package has been asked; `tried` once a promotion for an atomic has been started (R347). -/
structure Inbound where
  id     : Nat
  num    : Nat
  frame  : RxFrame
  sent   : Bool
  tags   : List Nat
  data   : List (Nat × Byte × Bool)
  status : Nat
  tried  : Bool
  deriving DecidableEq, Repr

/-- A reduction homed here (R402): epoch in progress, chunks stored (rank, offset and length; their bytes are in the buffer in the staging
area, R400), ranks bound. -/
structure EpochSt where
  ctx     : Nat
  red     : Nat
  e       : Nat
  isOpen  : Bool
  opened  : Mc
  bound   : List (Nat × Nat)
  chunks  : List (Nat × Nat × Nat)
  /-- The destination write of the summed epoch has been made (R403). -/
  summed  : Bool
  /-- A remote write of its destination has failed: it never has its responses (R392, R403). -/
  failed  : Bool
  /-- The epoch has been refused (true) or has timed out (false), and its destination takes no write yet (R403, R404). -/
  ending  : Option Bool
  /-- Epochs closed by refusal (R404) and by timeout with what had been received (R402). -/
  refused : List Nat
  timedOut : List (Nat × List (Nat × Nat))
  deriving DecidableEq, Repr

/-! ## Ledger -/

/-- A ledger entry that is to be written, without SEQ, PREV, CHAIN and PHASE (R417 to R419). -/
structure LedEntry where
  kind    : Nat
  bytes   : List Byte
  req     : Option Nat
  /-- Tags of output writes that have no response yet, and the number below which the request's lines must be answered (R416). -/
  needs   : List Nat
  upto    : Nat
  /-- Partner record and context of an INBOUND entry. -/
  inbound : Option (Nat × Nat)
  /-- Updates of the RSIGNALs that take effect once the entry is written: counter, amount, generation, half (R418). -/
  release : List (Nat × Nat × Nat × Half)
  /-- mc at which it closed, every output write having its response (R416). -/
  closed  : Option Mc
  /-- Half of its ledger unit, and the request's hauler, 128 without one (R419). -/
  half    : Half
  haul    : Nat
  /-- Since it closed, there has been an mc in which the queue could not take it (R425). -/
  held    : Bool
  deriving DecidableEq, Repr

/-- An INBOUND stream that has not been closed (R418). -/
structure InStream where
  num   : Nat
  ctx   : Nat
  /-- SEQ and hashed bytes of each transaction. -/
  parts : List (Nat × List Byte)
  spoiled : Bool
  deriving DecidableEq, Repr

/-- A partition's ledger queue and chain (R419 to R425). -/
structure LedgerSt where
  part    : Nat
  base    : Nat
  vector  : Nat
  log     : Nat
  enabled : Bool
  head    : Nat
  records : Nat
  /-- The chain has a head. -/
  chained : Bool
  chain   : Nat
  seq     : Nat
  prev    : List Byte
  sealSeq : Nat
  sinceSeal : Nat
  /-- SEQ of the last SEAL or CHAIN_BREAK. -/
  lastMark : Nat
  /-- The next entry must be a RESUME naming this many cut requests (R423). -/
  resume  : Option Nat
  waiting : List LedEntry
  /-- LEDGER_SEAL commands whose seal is not yet written: TAG and IRQ. -/
  seals   : List (Nat × Bool)
  deriving DecidableEq, Repr

/-! ## Power, integrity, test, registers -/

/-- Stockpile assist (table "Rails by state"). -/
inductive Assist where
  | off
  | retention
  deriving DecidableEq, Repr

/-- What the Bellows sets for a half (R449): VDD_MV, VDD_SP and VDD_HR in mV, whether VDD_CD is at its processor level, the back bias of
the VDD_MV logic in mV below 0 V, and the Stockpile assist; with ISO_N of the half, which is low while the outputs of its VDD_MV domain
and of its Anvil ports are undriven (R458, R460, R473). -/
structure Rails where
  mv     : Nat
  sp     : Nat
  hr     : Nat
  cd     : Bool
  bias   : Nat
  assist : Assist
  isoN   : Bool
  deriving DecidableEq, Repr

/-- A Banked entry: mc since its step 1, and BANKS, BANK and the links that were up as they stood before it (R458, R461). -/
structure BankEntry where
  age     : Nat
  banks   : Nat
  bankReq : Bool
  /-- Links whose lanes step 1 stopped. -/
  links   : List (Half × LinkPort)
  deriving DecidableEq, Repr

structure PowerSt where
  /-- PWRGOOD is low. -/
  cold    : Bool
  /-- MV_RUN: Run reached after start-up or reset (R516). -/
  up      : Bool
  glow    : Both Bool
  /-- mc up to which the half was seen busy: it has been idle since (R453). -/
  busyAt  : Both Mc
  /-- Run time of the half since start-up in mc: time in Glow and Banked does not count (R482). -/
  ran     : Both Mc
  /-- mc at which the half entered the Glow it is in (R457). -/
  glowAt  : Both Mc
  /-- A wake event has met the half in Glow under a brownout hold: it wakes at recovery (R475, R476). -/
  wakeHeld : Both Bool
  banked  : Bool
  /-- The Banked entry that led to the present Banked. -/
  entry   : Option BankEntry
  rails   : Both Rails
  /-- Brownout hold (R475) and lowest reading of the episode in mV. -/
  hold    : Both Bool
  lowest  : Both Nat
  banks   : Nat
  lastWake : Nat
  /-- HTIME at which the last wake from Banked was latched (R464). -/
  wokeAt  : Option Nat
  /-- HTIME at which WAKE_N and WARM_RST_N started their last events (R524). -/
  wakePin : Option Nat
  warmPin : Option Nat
  bankReq : Bool
  holdRun : Bool
  /-- mc of the last writes of FV_PWR_CTRL and FV_PWR_TIMER: what they have written stands in that mc (R534). -/
  ctrlAt  : Option Mc
  timerAt : Option Mc
  wakeAt  : Nat
  htime   : Nat
  /-- mc since the last HCLK count. -/
  hfrac   : Nat
  warnings : Nat
  recoveries : Nat
  resets  : Nat
  /-- Power log: at most 64 records of 16 B, by index (R478). -/
  log     : List (Nat × List Byte)
  logCount : Nat
  scrubLine : Both Nat
  scrubCorrected : Both Nat
  /-- SCRUB records made in Banked, still to be copied to the integrity log (R469): half and line. -/
  scrubbed : List (Half × Nat)
  deriving DecidableEq, Repr

structure IntegritySt where
  records  : Nat
  lastKind : Nat
  overdue  : Bool
  alert    : Bool
  /-- mc of the newest record whose reaction pulls SAFETY_ALERT_N low (R496, R534). -/
  alertAt  : Option Mc
  /-- Integrity log: at most 256 records of 32 B, by index (R497). -/
  log      : List (Nat × List Byte)
  corr     : Both Nat
  seamCrc  : Nat
  miscompare : Nat
  hbmUncorr : Nat
  hbmCorr  : Nat
  retired  : List Slice
  /-- Slices under self-test, and the mc at which each test ends (R148, R488). -/
  testing  : List (Slice × Mc)
  /-- Run time of its half at the end of each slice's last test, and the Anvil ports reported overdue since (R488, R489). -/
  tested   : List (Slice × Mc)
  late     : List Slice
  seamTimes : List Mc
  quenchTimes : Both (List Mc)
  /-- Tongs miscompares: half, unit, mc (table "Escalations"). -/
  misTimes : List (Half × Nat × Mc)
  /-- Detections in a half that a brownout hold keeps in Glow, oldest first: it reacts once it is in Run (R475, R486). -/
  waiting  : List (Detection × StartEnv)
  patrol   : Both Nat
  deriving DecidableEq, Repr

/-- One half's loop engine (R498 to R506). -/
structure LoopTest where
  running : Bool
  depth   : Nat
  unit    : Nat
  half    : Half
  inject  : Bool
  lines   : Nat
  seed    : Nat
  /-- FV_TEST_REMOTE and FV_TEST_HOST as they stood at START (assumption 50). -/
  record  : Nat
  exportId : Nat
  offset  : Nat
  hostBase : Nat
  /-- Number of the test, which its L7 transactions carry (R504). -/
  run     : Nat
  /-- From each of these lines on, lines are sent from this mc on: one in each mc, in L7 those of a group at once (R499). -/
  sentAt  : List (Nat × Mc)
  /-- Lines below this one return no more: lines are checked in rising order (R500). -/
  checked : Nat
  /-- Lines returned or lost. -/
  seen    : List Nat
  /-- The hauler that a test at depth L0, L1 or L8 takes, and at L1 the Tongs slot (R499). -/
  hauler  : Option Nat
  slot    : Option (Nat × Nat)
  deriving DecidableEq, Repr

/-- A memory test under way: its half, the mc at which it is over, and the banks that fail it (R507). -/
structure MbistRun where
  half    : Half
  ends    : Mc
  failing : List (Fin 128)
  deriving DecidableEq, Repr

structure TestSt where
  lines   : Nat
  unit    : Nat
  depth   : Nat
  half    : Nat
  inject  : Bool
  seed    : Nat
  record  : Nat
  exportId : Nat
  offset  : Nat
  hostBase : Nat
  loop    : LoopTest
  /-- STATE, STATUS, ERRBITS, DONE, SPOILED, LOST, FIRST of the result registers. -/
  state   : Nat
  status  : Nat
  errBits : Nat
  done    : Nat
  spoiled : Nat
  lost    : Nat
  first   : Option Nat
  mbState : Nat
  mbHalf  : Nat
  mbFail  : List (Fin 128)
  /-- The memory test under way (R507). -/
  mbist   : Option MbistRun
  lbDone  : Bool
  tapOwn  : Bool
  deriving DecidableEq, Repr

/-- The selector registers of one page (R535), with the two log snapshots (R536). -/
structure Selectors where
  page    : Page
  part    : Nat
  arb     : Nat
  queues  : Nat
  pace    : Nat
  seg     : Nat
  blk     : Nat
  ctr     : Nat
  stall   : Nat
  fault   : Nat
  ring    : Nat
  rem     : Nat
  key     : Nat
  pwrLog  : Nat
  intLog  : Nat
  pwrSnap : List Byte
  intSnap : List Byte
  deriving DecidableEq, Repr

/-- Per-partition register state that no other structure holds. -/
structure PartRegs where
  part     : Nat
  /-- Doorbell-discard count and host-add discard count. -/
  bellDiscards : Nat
  addDiscards : Nat
  /-- Priorities snapshotted by accepted COMMITs that are not yet in effect: queue and priority (R321). -/
  commits  : List (List (Nat × Nat))
  deriving DecidableEq, Repr

/-- Configuration and reset status (R432 to R439). -/
structure CfgStatus where
  reason   : Nat
  last     : Nat
  fuseFull : Bool
  copyFail : Bool
  fromCopy : Bool
  maint    : Bool
  warm     : Nat
  halfW    : Nat
  halfE    : Nat
  maintBase : Nat
  /-- BOOT of the last start-up (table "HELLO payload"), and how many have been drawn. -/
  boot     : Nat
  boots    : Nat
  deriving DecidableEq, Repr

/-- An operand delivery (table "Anvil ports"): OPD_DATA, OPD_SPOIL and, on the INT path, the scales and zero points. -/
structure OperandOut where
  half   : Half
  ap     : Nat
  data   : List Byte
  spoil  : List Bool
  scales : List (BitVec 32 × BitVec 32)
  deriving DecidableEq, Repr

/-- What the mover last drove or sent, for the neighbours to see. -/
structure Outputs where
  /-- MSI-X messages: partition and vector, newest first. -/
  msix   : List (Nat × Nat)
  /-- Frames sent: record, index of the path taken, bytes, newest first. -/
  frames : List (Nat × Nat × List Byte)
  /-- SP_LATE of the last bundle, by half. -/
  late   : Both Bool
  /-- SP_READY per context: contexts whose bit is high. A LATE lowers it for the mc after its own (R513). -/
  ready  : List Nat
  /-- CW_ANS of the last counter wait, by half (0 none, 1 MET, 2 PARKED, 3 FAULTY). -/
  cwAns  : Both Nat
  /-- CW_WAKE pulses: context and CW_WOR, newest first. -/
  wakes  : List (Nat × Bool)
  /-- Last operand delivery: half, port, bytes, 64 spoil bits, scales of the INT path. -/
  opd    : Option OperandOut
  /-- Zero-length reads made on a host port to learn that earlier writes are complete (R107). -/
  zeroReads : Both Nat
  /-- Wake ordered sets sent: record, path (link chiplet and port) and count (R407). -/
  wakeSets : List (Nat × (Nat × Nat) × Nat)
  /-- How often MV_RUN has fallen; it is high while `power.up` (R516). -/
  mvFalls : Nat
  deriving DecidableEq, Repr

/-! ## Memory ports (chapter 09) -/

/-- Who asks for beats at a memory port: a request, an entry of the store buffer, inbound transactions of a partner record, the copy of
a block, and the destination write of a reduction. -/
inductive Requester where
  | request (id : Nat)
  | store (id : Nat)
  | partner (num : Nat)
  | copy (ctx slot block : Nat)
  | epoch (ctx red : Nat)
  deriving DecidableEq, Repr

/-- A line of a requester that is no hauler, with its priority (R316, R340). -/
structure OtherLine where
  who  : Requester
  prio : Nat
  line : Line
  deriving DecidableEq, Repr

/-- A line that has been issued and has no answer yet: it holds a tag of its port (R325). -/
structure Flight where
  who  : Requester
  line : Line
  /-- Half and number of the hauler that issued it, whose limits it counts for (R325). -/
  haul : Option (Half × Nat)
  /-- PCLK at which its data or response returns. -/
  due  : Nat
  deriving DecidableEq, Repr

/-- Reserved-service credit of a ring at a port, in units of 1/(1,680 × P_h) B (R311). -/
structure Credit where
  ctx   : Nat
  ring  : Nat
  level : Nat
  deriving DecidableEq, Repr

/-- One memory port's arbiter (R305 to R325). -/
structure MemPort where
  half    : Half
  port    : Nat
  credits : List Credit
  /-- Reserved-eligible lines in the order in which they became eligible: requester, line, PCLK (R312). -/
  eligible : List (Requester × Nat × Nat)
  /-- Grant holder of each class (R317). -/
  holders : List (LineClass × Requester)
  /-- Requesters with a request raised, and the PCLK since which each waits (R317). -/
  raised  : List (Requester × Nat)
  flight  : List Flight
  deriving DecidableEq, Repr

/-- The memory ports of both halves, how many PCLK have passed since start-up, and in how many of them the PCLK of a half stood still
(table "Power states"): a half's wheels stand at position (pclk − stopped) mod 32 (R305). -/
structure Arbiters where
  pclk   : Nat
  stopped : Both Nat
  ports  : List MemPort
  others : List OtherLine
  /-- Number of the next line of a requester that is no hauler. -/
  next   : Nat
  deriving DecidableEq, Repr

/-- Queues, waiting completion records and administrative commands (chapter 08). -/
structure Queues where
  sqs      : List SubQueue
  cqs      : List CompQueue
  /-- Records waiting to be written, in the order in which they became ready (R287). -/
  records  : List PendingRec
  ops      : List AdminOp
  nextOp   : Nat
  /-- Queue last chosen at each priority: half, priority, queue (R285). -/
  lastPick : List (Half × Nat × Nat)
  /-- Queues whose state a command of mc `.1` has changed, as they stood before it (R304). -/
  oldSqs   : List (Mc × SubQueue)
  oldCqs   : List (Mc × CompQueue)
  deriving DecidableEq, Repr

/-- Requests, on haulers and parked (chapter 03). -/
structure Running where
  reqs     : List Request
  nextReq  : Nat
  nextWait : Nat
  /-- Requests named by a delivered or held stall report (R380). -/
  stalled  : List Nat
  deriving DecidableEq, Repr

/-- Rings, handle queues, feeds, pacing lines and what the schedule port has under way (chapter 07). -/
structure Buffers where
  rings    : List RingSt
  handles  : List HandleSt
  feeds    : List FeedSt
  pacing   : List PacingSt
  drains   : List DrainSt
  /-- Store-buffer entries in use in both halves, oldest first, and the number of the next store. -/
  stores   : List StoreEntry
  nextStore : Nat
  strs     : List StrWrite
  sigs     : List StoreSig
  anvils   : List AnvilPort
  deriving DecidableEq, Repr

/-- Counters, their copies, updates under way, and the stall detector (chapter 11). -/
structure Counters where
  ctrs     : List CtrSt
  copyMsgs : List CopyMsg
  updates  : List Update
  stalls   : List StallMember
  /-- Waits that have been reported: request or context, and number of the wait (R378). -/
  told     : List ((Option Nat × Nat) × Nat)
  stallRegs : List StallRegs
  deriving DecidableEq, Repr

/-- Segments, outstanding faults, fault queues and hot-block tables (chapter 10). -/
structure Segs where
  segs     : List Segment
  faults   : List Outstanding
  faultQs  : List FaultQ
  hot      : Both (List HotEntry)
  deriving DecidableEq, Repr

/-- Partners, outstanding remote requests, links that are up, reductions and inbound streams (chapters 12, 13). -/
structure Remote where
  partners : List Partner
  outReqs  : List OutReq
  links    : List (Half × LinkPort)
  epochs   : List EpochSt
  unknownSrc : Both Nat
  inStreams : List InStream
  /-- Inbound requests that wait, oldest first, and the number of the next. -/
  inbound  : List Inbound
  nextIn   : Nat
  /-- Frames in the receive queues of remote ports whose half a brownout hold keeps in Glow, oldest first (R475, R529). -/
  rxQueue  : List RxFrame
  deriving DecidableEq, Repr

/-- The state of the mover. -/
structure State where
  /-- Waiting commands, first in first out. -/
  pending  : List Instr
  /-- TIME: mc since the end of the last start-up (R287). -/
  time     : Mc
  fuses    : Fuses
  /-- Flash bytes by address; an unlisted byte reads 0xFF. -/
  flash    : List Host.Cell
  mem      : Mem
  cfg      : Settings
  /-- The Hearth's packed copy of the settings (R435). -/
  copy     : Option Settings
  status   : CfgStatus
  power    : PowerSt
  integ    : IntegritySt
  test     : TestSt
  /-- The half is in half reset (R440). -/
  halfReset : Both Bool
  ctxs     : List CtxState
  q        : Queues
  run      : Running
  buf      : Buffers
  ctr      : Counters
  arb      : Arbiters
  seg      : Segs
  channels : List ChannelSt
  rem      : Remote
  ledgers  : List LedgerSt
  partRegs : List PartRegs
  sels     : List Selectors
  /-- MODEL FIELD: how many free values the machine has drawn (assumption 9). -/
  drawn    : Nat
  out      : Outputs
  deriving DecidableEq, Repr

/-! ## Reset -/

/-- A partition page's, or the global page's, selectors at reset. -/
def Selectors.reset (pg : Page) : Selectors :=
  { page := pg, part := 0, arb := 0, queues := 0, pace := 0, seg := 0, blk := 0, ctr := 0, stall := 0, fault := 0, ring := 0
    rem := 0, key := 0, pwrLog := 0, intLog := 0, pwrSnap := List.replicate 16 0, intSnap := List.replicate 32 0 }

/-- The 17 pages of the aperture (R530). -/
def allPages : List Page :=
  ((List.finRange 16).map Page.part) ++ [Page.global]

def LoopTest.idle : LoopTest :=
  { running := false, depth := 0, unit := 0, half := .east, inject := false, lines := 0, seed := 0, record := 0, exportId := 0
    offset := 0, hostBase := 0, run := 0, sentAt := [], checked := 0
    seen := [], hauler := none, slot := none }

/-- The test block at reset (table "Register offsets", R540). -/
def TestSt.reset : TestSt :=
  { lines := 0, unit := 0, depth := 0, half := 0, inject := false, seed := 0x7FFFFFFF, record := 0, exportId := 0, offset := 0
    hostBase := 0, loop := LoopTest.idle, state := 0, status := 0, errBits := 0, done := 0, spoiled := 0, lost := 0
    first := none, mbState := 0, mbHalf := 0, mbFail := [], mbist := none, lbDone := false, tapOwn := false }

/-- Rails before the first start-up: the manual gives the levels of Run, Glow and Banked alone (assumption 70). -/
def Rails.none : Rails := { mv := 0, sp := 0, hr := 0, cd := false, bias := 0, assist := .off, isoN := false }

/-- The power block at PWRGOOD (table "Power registers"). -/
def PowerSt.reset : PowerSt :=
  { cold := true, up := false, glow := ⟨false, false⟩, busyAt := ⟨0, 0⟩, ran := ⟨0, 0⟩, glowAt := ⟨0, 0⟩, wakeHeld := ⟨false, false⟩
    banked := false, entry := none, rails := ⟨Rails.none, Rails.none⟩, hold := ⟨false, false⟩, lowest := ⟨0, 0⟩, banks := 0
    lastWake := 0, wokeAt := none, wakePin := none, warmPin := none, bankReq := false, holdRun := false, ctrlAt := none, timerAt := none
    wakeAt := 0, htime := 0, hfrac := 0, warnings := 0, recoveries := 0
    resets := 0, log := [], logCount := 0, scrubLine := ⟨0, 0⟩, scrubCorrected := ⟨0, 0⟩, scrubbed := [] }

/-- The integrity block at PWRGOOD (table "Integrity registers"). -/
def IntegritySt.reset : IntegritySt :=
  { records := 0, lastKind := 0, overdue := false, alert := false, alertAt := none, log := [], corr := ⟨0, 0⟩, seamCrc := 0, miscompare := 0
    hbmUncorr := 0, hbmCorr := 0, retired := [], testing := [], tested := [], late := [], seamTimes := [], quenchTimes := ⟨[], []⟩
    misTimes := [], waiting := [], patrol := ⟨0, 0⟩ }

def FaultQ.reset (p : Nat) : FaultQ :=
  { part := p, base := 0, vector := 0, log := 6, enabled := false, head := 0, records := 0, dropped := 0, batchNo := 0
    openB := [], closedB := [], waiting := [] }

def LedgerSt.reset (p : Nat) : LedgerSt :=
  { part := p, base := 0, vector := 0, log := 6, enabled := false, head := 0, records := 0, chained := false, chain := 0
    seq := 0, prev := [], sealSeq := 0, sinceSeal := 0, lastMark := 0, resume := none, waiting := [], seals := [] }

def StallRegs.reset (p : Nat) : StallRegs :=
  { part := p, reports := 0, pending := false, shownAt := none, shown := { members := [], foreign := 0, overflow := false }, held := [] }

def PartRegs.reset (p : Nat) : PartRegs := { part := p, bellDiscards := 0, addDiscards := 0, commits := [] }

def AnvilPort.reset (h : Half) (ap : Nat) : AnvilPort :=
  { half := h, ap := ap, landing := [], coming := [], tables := [], blocks := [], queue := [], arriving := [], skip := 0, ends := []
    issuer := none, vcyc := 0, lastRing := 0 }

/-- The 32 Anvil ports without landing data, tables or expanded lines. -/
def allAnvils : List AnvilPort :=
  ((List.range 16).map (AnvilPort.reset .east)) ++ ((List.range 16).map (AnvilPort.reset .west))

/-- FV_CFG_STATUS and FV_CFG_RESETS at PWRGOOD: LAST is 0x01, everything else 0 (chapter 14). -/
def CfgStatus.reset : CfgStatus :=
  { reason := 0, last := 1, fuseFull := false, copyFail := false, fromCopy := false, maint := false, warm := 0, halfW := 0
    halfE := 0, maintBase := 0, boot := 0, boots := 0 }

/-- The fuses of the model's part: an L40-A, stepping 0x00; serial, key hash and rollback 0 (assumption 4). -/
def Fuses.reset : Fuses :=
  { grade := .a, stepping := 0, serial0 := 0, serial1 := 0, keyHash := 0, rollback := 0, rises := 0 }

def Outputs.reset : Outputs :=
  { msix := [], frames := [], late := ⟨false, false⟩, ready := [], cwAns := ⟨0, 0⟩, wakes := [], opd := none, zeroReads := ⟨0, 0⟩, wakeSets := []
    mvFalls := 0 }

def Queues.reset : Queues := { sqs := [], cqs := [], records := [], ops := [], nextOp := 0, lastPick := [], oldSqs := [], oldCqs := [] }

def Running.reset : Running := { reqs := [], nextReq := 0, nextWait := 0, stalled := [] }

def Buffers.reset : Buffers :=
  { rings := [], handles := [], feeds := [], pacing := [], drains := [], stores := [], nextStore := 0, strs := []
    sigs := [], anvils := allAnvils }

def Counters.reset : Counters :=
  { ctrs := [], copyMsgs := [], updates := [], stalls := [], told := [], stallRegs := (List.range 16).map StallRegs.reset }

def MemPort.reset (h : Half) (p : Nat) : MemPort :=
  { half := h, port := p, credits := [], eligible := [], holders := [], raised := [], flight := [] }

/-- Eight memory ports in each half (an L40-B uses six), at wheel position 0 (assumption 60). -/
def Arbiters.reset : Arbiters :=
  { pclk := 0, stopped := ⟨0, 0⟩, ports := ((List.range 8).map (MemPort.reset .east)) ++ ((List.range 8).map (MemPort.reset .west)), others := []
    next := 0 }

def Segs.reset : Segs :=
  { segs := [], faults := [], faultQs := (List.range 16).map FaultQ.reset, hot := ⟨[], []⟩ }

def Remote.reset : Remote :=
  { partners := [], outReqs := [], links := [], epochs := [], unknownSrc := ⟨0, 0⟩, inStreams := []
    inbound := [], nextIn := 0, rxQueue := [] }

/-- The machine in Cold, at the edge of PWRGOOD (R452, R540): every register at its reset value, no settings, nothing listed in
the memories, no command waiting. The first COLD_START reads the flash. -/
def State.reset : State :=
  { pending := [], time := 0, fuses := Fuses.reset, flash := [], mem := { cells := [], marks := [], hbmEpoch := 0, recent := [] }
    cfg := Settings.none, copy := none, status := CfgStatus.reset, power := PowerSt.reset, integ := IntegritySt.reset
    test := TestSt.reset, halfReset := ⟨false, false⟩, ctxs := [], q := Queues.reset, run := Running.reset
    buf := Buffers.reset, ctr := Counters.reset, arb := Arbiters.reset, seg := Segs.reset, channels := [], rem := Remote.reset
    ledgers := (List.range 16).map LedgerSt.reset, partRegs := (List.range 16).map PartRegs.reset
    sels := allPages.map Selectors.reset, drawn := 0, out := Outputs.reset }

end Sys2Proof.Machine
end

