-- ==== Sys2Proof/Machine/Ops.lean ====
section
/-! DEFINITION. The operations over bytes, memory, time and the tables of the state that every command's meaning shares. -/

namespace Sys2Proof.Machine

abbrev Result := Host.Outcome State Fault Refusal

/-- A byte with the spoil mark of the line it came from (R58). -/
abbrev SByte := Byte × Bool

/-! ## Bytes and fields -/

/-- `n` little-endian bytes of `v` (R4). -/
def leBytes : Nat → Nat → List Byte
  | 0, _ => []
  | n + 1, v => BitVec.ofNat 8 v :: leBytes n (v / 256)

/-- The value of little-endian bytes (R4). -/
def leVal : List Byte → Nat
  | [] => 0
  | b :: bs => b.toNat + 256 * leVal bs

/-- The value of big-endian bytes. -/
def beVal (bs : List Byte) : Nat := bs.foldl (fun a b => a * 256 + b.toNat) 0

def beBytes (n v : Nat) : List Byte := (leBytes n v).reverse

/-- `n` bytes of `bs` at offset `i`, as a number. -/
def fieldAt (bs : List Byte) (i n : Nat) : Nat := leVal ((bs.drop i).take n)

/-- Bits hi:lo of a number. -/
def bits (v hi lo : Nat) : Nat := (v / 2 ^ lo) % 2 ^ (hi + 1 - lo)

/-- Bit i of a number. -/
def bit (v i : Nat) : Bool := (v / 2 ^ i) % 2 == 1

def bit01 (b : Bool) : Nat := if b then 1 else 0

/-- `v`, an n-bit two's complement number, as an integer. -/
def signed (n v : Nat) : Int := if v % 2 ^ n ≥ 2 ^ (n - 1) then (v % 2 ^ n : Int) - 2 ^ n else v % 2 ^ n

def ceilDiv (a b : Nat) : Nat := (a + b - 1) / b

def roundUp (a b : Nat) : Nat := ceilDiv a b * b

/-- The words of a byte string, eight bytes each. -/
def bytesToWords : Nat → List Byte → List Word
  | 0, _ => []
  | n + 1, bs => BitVec.ofNat 64 (leVal (bs.take 8)) :: bytesToWords n (bs.drop 8)

def zeros (n : Nat) : List Byte := List.replicate n 0

/-- Number of one bits among the low `n` bits. -/
def popCount (n v : Nat) : Nat := ((List.range n).filter (bit v)).length

/-- Pieces of `k` elements, `fuel` at most. -/
def chunks {α : Type} (k : Nat) : Nat → List α → List (List α)
  | 0, _ => []
  | f + 1, l => if l.isEmpty then [] else l.take k :: chunks k f (l.drop k)

/-- A list cut into pieces of `k` elements. -/
def chunksOf {α : Type} (k : Nat) (l : List α) : List (List α) := chunks k (l.length + 1) l

/-! ## Lists kept by key -/

/-- The list with every element that meets `p` changed by `f`. -/
def updWhere {α : Type} (p : α → Bool) (f : α → α) (l : List α) : List α := l.map fun x => if p x then f x else x

/-- The list with the first element that meets `p` removed. -/
def dropFirst {α : Type} (p : α → Bool) : List α → List α
  | [] => []
  | x :: xs => if p x then xs else x :: dropFirst p xs

/-- Insertion that keeps a list in rising order of `key`; a new element goes behind its equals. -/
def insertBy {α : Type} (key : α → Nat) (x : α) : List α → List α
  | [] => [x]
  | y :: ys => if key x < key y then x :: y :: ys else y :: insertBy key x ys

def sortBy {α : Type} (key : α → Nat) (l : List α) : List α := l.foldl (fun acc x => insertBy key x acc) []

/-- The element with the smallest key, the first of equals. -/
def minBy {α : Type} (key : α → Nat) : List α → Option α
  | [] => none
  | x :: xs => match minBy key xs with
    | none => some x
    | some y => if key x ≤ key y then some x else some y

/-- The elements without repeats, each at its first place. -/
def dedup {α : Type} [BEq α] (l : List α) : List α :=
  (l.foldl (fun acc x => if acc.contains x then acc else x :: acc) []).reverse

/-! ## Sparse maps: strictly rising keys, no entry equal to the default -/

/-- `n` values from key `a` on, over entries none of which lies below `a`. -/
def sparseFill {α : Type} (d : Nat → α) : Nat → Nat → List (Nat × α) → List α
  | 0, _, _ => []
  | n + 1, a, [] => d a :: sparseFill d n (a + 1) []
  | n + 1, a, (b, v) :: cs =>
    if b = a then v :: sparseFill d n (a + 1) cs else d a :: sparseFill d n (a + 1) ((b, v) :: cs)

/-- The `n` values from key `a` on. -/
def sparseRead {α : Type} (d : Nat → α) (cells : List (Nat × α)) (a n : Nat) : List α :=
  sparseFill d n a (cells.dropWhile fun c => c.1 < a)

/-- Entries for the values `vs` from key `a` on, those equal to the default left out. -/
def sparseNew {α : Type} [DecidableEq α] (d : Nat → α) : Nat → List α → List (Nat × α)
  | _, [] => []
  | a, v :: vs => if v = d a then sparseNew d (a + 1) vs else (a, v) :: sparseNew d (a + 1) vs

/-- The map with the values `vs` written from key `a` on. -/
def sparseWrite {α : Type} [DecidableEq α] (d : Nat → α) (cells : List (Nat × α)) (a : Nat) (vs : List α) :
    List (Nat × α) :=
  cells.takeWhile (fun c => c.1 < a) ++ sparseNew d a vs ++ cells.dropWhile fun c => c.1 < a + vs.length

/-- The canonical form of a sparse map. -/
abbrev sparseWf {α : Type} (d : Nat → α) (cells : List (Nat × α)) : Prop :=
  cells.Pairwise (fun a b => a.1 < b.1) ∧ ∀ c ∈ cells, c.2 ≠ d c.1

/-! ## Memory -/

/-- First local address above the HBM windows (table "Local windows"). -/
def hbmTop : Nat := 0x0100_0000_0000

/-- First address of the Stockpile window, and of the West Stockpile (R15). -/
def stockBase : Half → Nat
  | .east => 0x4000_0000_0000
  | .west => 0x4000_1000_0000

/-- A local address of the Stockpiles. -/
def inStockpile (a : Nat) : Bool := stockBase .east ≤ a && a < stockBase .west + 0x1000_0000

/-- Address of host bus address `x` of partition `p` in its host window (R40). -/
def hostAddr (p x : Nat) : Nat := 0x8000_0000_0000 + p * 0x0800_0000_0000 + x

/-- What an unlisted byte reads as: 0, and in HBM whose stacks have lost power a free value (assumption 6). -/
def memDefault (epoch a : Nat) : Byte := if epoch > 0 ∧ a < hbmTop then Config.hbmFill epoch a else 0

/-- Spoil mark of an unlisted line (assumption 6). -/
def markDefault (epoch line : Nat) : Bool := if epoch > 0 ∧ line < hbmTop / 256 then Config.hbmPoison epoch line else false

/-- The canonical form of the memory. -/
abbrev Mem.wf (m : Mem) : Prop := sparseWf (memDefault m.hbmEpoch) m.cells ∧ sparseWf (markDefault m.hbmEpoch) m.marks

/-- `n` bytes at local address `a`. -/
def memRead (m : Mem) (a n : Nat) : List Byte := sparseRead (memDefault m.hbmEpoch) m.cells a n

/-- The byte at local address `a`. -/
def memByte (m : Mem) (a : Nat) : Byte := (memRead m a 1).headD 0

/-- The spoil mark of a 256 B line. -/
def memMark (m : Mem) (line : Nat) : Bool := (sparseRead (markDefault m.hbmEpoch) m.marks line 1).headD false

/-- The memory with bytes stored, marks untouched. -/
def memStore (m : Mem) (a : Nat) (bs : List Byte) : Mem :=
  { m with cells := sparseWrite (memDefault m.hbmEpoch) m.cells a bs }

def memSetMark (m : Mem) (line : Nat) (v : Bool) : Mem :=
  { m with marks := sparseWrite (markDefault m.hbmEpoch) m.marks line [v] }

/-- Local addresses of a half's Stockpile. -/
def inStock (h : Half) (a : Nat) : Bool := stockBase h ≤ a && a < stockBase h + 0x1000_0000

/-- A half's Stockpile is written with zero and good ECC. -/
def zeroStock (h : Half) (m : Mem) : Mem :=
  { m with cells := m.cells.filter fun c => !inStock h c.1, marks := m.marks.filter fun c => !inStock h (c.1 * 256), recent := [] }

def zeroStocks (m : Mem) : Mem := zeroStock .west (zeroStock .east m)

/-- The part of a run from `a` on that lies in the first 256 B line. -/
def lineRoom (a : Nat) : Nat := 256 - a % 256

/-- Pieces of a run of bytes by 256 B line, `fuel` lines at most. -/
def linePieces {α : Type} : Nat → Nat → List α → List (Nat × List α)
  | 0, _, _ => []
  | f + 1, a, bs =>
    if bs.isEmpty then []
    else (a, bs.take (lineRoom a)) :: linePieces f (a + lineRoom a) (bs.drop (lineRoom a))

/-- A run of bytes at `a`, cut at the 256 B line bounds. -/
def piecesOf {α : Type} (a : Nat) (bs : List α) : List (Nat × List α) := linePieces (bs.length / 256 + 2) a bs

/-- One write that stays in one line: a spoiled byte spoils the line (R58), a whole line of good bytes clears its mark, and a part
of a line leaves the mark as it is (R56). -/
def memWriteLine (m : Mem) (a : Nat) (bs : List SByte) : Mem :=
  let m1 := memStore m a (bs.map Prod.fst)
  if bs.any Prod.snd then memSetMark m1 (a / 256) true
  else if bs.length = 256 then memSetMark m1 (a / 256) false
  else m1

/-- A run of bytes written line by line. -/
def memWrite (m : Mem) (a : Nat) (bs : List SByte) : Mem :=
  (piecesOf a bs).foldl (fun m p => memWriteLine m p.1 p.2) m

/-- Who writes the Stockpile. No command of the table makes a host port write it. -/
inductive Writer where
  | schedule
  | hauler (n : Nat)
  | remote
  deriving DecidableEq, Repr

/-- The place of a writer in the order in which a bank grants its write port (R230). Haulers of one number of both halves share a place,
and the command that comes first goes first among them (assumption 60, DESIGN CHOICE). -/
def Writer.rank : Writer → Nat
  | .schedule => 0
  | .hauler n => 1 + n
  | .remote => 201

/-- A Stockpile write of mc `now`. The banks grant the writes of one mc in the order of their ranks, and a later grant overwrites an
earlier one: the writes of this mc that are granted after it are made again on top of it (R230). -/
def bankWrite (m : Mem) (now : Mc) (rank a : Nat) (bs : List SByte) : Mem :=
  let same := m.recent.filter (·.at' == now)
  let before := same.filter (·.rank ≤ rank)
  let after := same.filter fun w => rank < w.rank
  let m1 := after.foldl (fun m w => memWrite m w.addr w.data) (memWrite m a bs)
  { m1 with recent := before ++ [{ at' := now, rank := rank, addr := a, data := bs }] ++ after }

/-- The writes of `n` bytes at `a` that an atomic operation of the same mc has read: none comes after it any more. -/
def bankSettle (m : Mem) (a n : Nat) : Mem :=
  { m with recent := m.recent.filter fun w => w.addr + w.data.length ≤ a || a + n ≤ w.addr }

/-- How many lines a run writes spoiled. -/
def spoiledPieces (a : Nat) (bs : List SByte) : Nat := ((piecesOf a bs).filter fun p => p.2.any Prod.snd).length

/-- `n` bytes at `a` with the spoil marks of their lines. -/
def memReadS (m : Mem) (a n : Nat) : List SByte :=
  (piecesOf a (memRead m a n)).flatMap fun p => p.2.map fun b => (b, memMark m (p.1 / 256))

/-- Good bytes, as a write carries them. -/
def good (bs : List Byte) : List SByte := bs.map fun b => (b, false)

/-- End of a partition's host bus addresses (R40). -/
def hostTop : Nat := 0x0800_0000_0000

/-- Bytes written to a partition's host memory at host bus address `x`; a host write carries no spoil mark. Bytes at or above 8 TiB are
not written (R40). -/
def hostWrite (s : State) (p x : Nat) (bs : List Byte) : State :=
  { s with mem := memStore s.mem (hostAddr p x) (bs.take (hostTop - x)) }

/-- Bytes read from a partition's host memory; those at or above 8 TiB are not reached, and are free values (R40; assumption 68). -/
def hostRead (s : State) (p x n : Nat) : List Byte :=
  let k := min n (hostTop - x)
  memRead s.mem (hostAddr p x) k ++ (List.range (n - k)).map fun i => Config.unreadByte s.time (hostTop + i)

/-! ## Local windows (R39) -/

inductive Window where
  | hbm (h : Half)
  | stock (h : Half)
  | host (p : Nat)
  deriving DecidableEq, Repr

/-- Bytes of HBM that a half serves (R14). -/
def hbmHalf : Grade → Nat
  | .b => 0x0060_0000_0000
  | _ => 0x0080_0000_0000

/-- The window of a local address, none when it is unmapped. -/
def windowOf (g : Grade) (a : Nat) : Option Window :=
  if a < hbmHalf g then some (.hbm .east)
  else if a < 2 * hbmHalf g then some (.hbm .west)
  else if a < 0x4000_0000_0000 then none
  else if a < 0x4000_1000_0000 then some (.stock .east)
  else if a < 0x4000_2000_0000 then some (.stock .west)
  else if a < 0x8000_0000_0000 then none
  else if a < 0x1_0000_0000_0000 then some (.host ((a - 0x8000_0000_0000) / 0x0800_0000_0000))
  else none

/-- Memory port and stack address of a local HBM address (R43). -/
def hbmPort (g : Grade) (a : Nat) : Nat × Nat :=
  let o := a % hbmHalf g
  let n := o / 4096
  match g with
  | .b => (n % 6, n / 6 * 4096 + o % 4096)
  | _ => ((n % 8) ^^^ (n / 8 % 8), n / 8 * 4096 + o % 4096)

/-- Stockpile bank and bank byte address of a local Stockpile address (R44). -/
def stockBank (a : Nat) : Nat × Nat :=
  let o := a % 0x1000_0000
  (bits o 14 8, bits o 27 15 * 256 + o % 256)

/-! ## Settings -/

def halfOfBit (b : Bool) : Half := if b then .west else .east

def ctxCfg (s : State) (c : Nat) : Option CtxCfg := s.cfg.ctxs.find? (·.ctx == c)

def partCfg (s : State) (p : Nat) : Option PartCfg := s.cfg.parts[p]?

/-- Partition of a context; 0 when the context is not declared. -/
def partOfCtx (s : State) (c : Nat) : Nat := ((ctxCfg s c).map (·.partition)).getD 0

/-- Home half of a context; East when the context is not declared. -/
def homeOfCtx (s : State) (c : Nat) : Half := ((ctxCfg s c).map (·.homeHalf)).getD .east

/-- Home host port of a partition (R16); East when no image is in force. -/
def homePort (s : State) (p : Nat) : Half := ((partCfg s p).map (·.homePort)).getD .east

def sqCfg (s : State) (q : Nat) : Option SqCfg := s.cfg.sqs.find? (·.qid == q)

def cqCfg (s : State) (q : Nat) : Option CqCfg := s.cfg.cqs.find? (·.qid == q)

def ctrCfg (s : State) (c : Nat) : Option CtrCfg := s.cfg.ctrs.find? (·.ctr == c)

def ringCfg (s : State) (c r : Nat) : Option RingCfg := s.cfg.rings.find? fun x => x.ctx == c && x.ring == r

def handleCfg (s : State) (c q : Nat) : Option HandleCfg := s.cfg.handles.find? fun x => x.ctx == c && x.queue == q

def pacingCfg (s : State) (l : Nat) : Option PacingCfg := s.cfg.pacing.find? (·.line == l)

def channelCfg (s : State) (c ch : Nat) : Option ChannelCfg :=
  s.cfg.channels.find? fun x => x.ctx == c && x.channel == ch

def stagingCfg (s : State) (c : Nat) : Option StagingCfg := s.cfg.staging.find? (·.ctx == c)

def partnerCfg (s : State) (r : Nat) : Option PartnerCfg := s.cfg.partners.find? (·.num == r)

def exportCfg (s : State) (e : Nat) : Option ExportCfg := s.cfg.exports.find? (·.id == e)

def redCfg (s : State) (c r : Nat) : Option RedCfg := s.cfg.reds.find? fun x => x.ctx == c && x.red == r

/-- The virtual counter table's entry (R359): UNMAPPED where the image declares none. -/
def vEntry (s : State) (c v : Nat) : VEntry :=
  ((s.cfg.vctrs.find? fun x => x.ctx == c && x.vid == v).map (·.entry)).getD .unmapped

/-- Home half of a physical counter, fixed by its number (R357). -/
def homeOfCtr (c : Nat) : Half := halfOfBit (decide (32768 ≤ c))

/-! ## Tables of the state -/

def getReq (s : State) (id : Nat) : Option Request := s.run.reqs.find? (·.id == id)

def setReq (s : State) (r : Request) : State :=
  { s with run.reqs := updWhere (fun x => x.id == r.id) (fun _ => r) s.run.reqs }

def removeReq (s : State) (id : Nat) : State := { s with run.reqs := s.run.reqs.filter (·.id != id) }

/-- The request that a hauler runs. -/
def reqOn (s : State) (h : HaulerId) : Option Request :=
  s.run.reqs.find? fun r => r.half == h.half && r.hauler == some h.idx.val

def getCtx (s : State) (c : Nat) : Option CtxState := s.ctxs.find? (·.ctx == c)

def updCtx (s : State) (c : Nat) (f : CtxState → CtxState) : State :=
  { s with ctxs := updWhere (·.ctx == c) f s.ctxs }

/-- The context is neither RESETTING nor QUENCHED (R272). -/
def ctxLoaded (s : State) (c : Nat) : Bool :=
  match getCtx s c with
  | some x => x.st == .loaded
  | none => false

def profileOf (s : State) (c : Nat) : Nat := ((getCtx s c).map (·.profile)).getD 1

def getSq (s : State) (q : Nat) : Option SubQueue := s.q.sqs.find? (·.qid == q)

def updSq (s : State) (q : Nat) (f : SubQueue → SubQueue) : State :=
  { s with q.sqs := updWhere (·.qid == q) f s.q.sqs }

def getCq (s : State) (q : Nat) : Option CompQueue := s.q.cqs.find? (·.qid == q)

def updCq (s : State) (q : Nat) (f : CompQueue → CompQueue) : State :=
  { s with q.cqs := updWhere (·.qid == q) f s.q.cqs }

def getRing (s : State) (c r : Nat) : Option RingSt := s.buf.rings.find? fun x => x.ctx == c && x.ring == r

def updRing (s : State) (c r : Nat) (f : RingSt → RingSt) : State :=
  { s with buf.rings := updWhere (fun x => x.ctx == c && x.ring == r) f s.buf.rings }

def getHandle (s : State) (c q : Nat) : Option HandleSt := s.buf.handles.find? fun x => x.ctx == c && x.queue == q

def updHandle (s : State) (c q : Nat) (f : HandleSt → HandleSt) : State :=
  { s with buf.handles := updWhere (fun x => x.ctx == c && x.queue == q) f s.buf.handles }

def getCtr (s : State) (c : Nat) : Option CtrSt := s.ctr.ctrs.find? (·.ctr == c)

def updCtr (s : State) (c : Nat) (f : CtrSt → CtrSt) : State :=
  { s with ctr.ctrs := updWhere (·.ctr == c) f s.ctr.ctrs }

def getPacing (s : State) (l : Nat) : Option PacingSt := s.buf.pacing.find? (·.line == l)

/-- Pending count of a line that a PACE instruction sees: a schedule-port request counts from its own mc on (R246). -/
def pacePending (s : State) (x : PacingSt) : Nat := x.pending - (x.coming.filter fun m => s.time < m).length

def updPacing (s : State) (l : Nat) (f : PacingSt → PacingSt) : State :=
  { s with buf.pacing := updWhere (·.line == l) f s.buf.pacing }

def getAnvil (s : State) (h : Half) (ap : Nat) : AnvilPort :=
  (s.buf.anvils.find? fun x => x.half == h && x.ap == ap).getD (AnvilPort.reset h ap)

def updAnvil (s : State) (h : Half) (ap : Nat) (f : AnvilPort → AnvilPort) : State :=
  { s with buf.anvils := updWhere (fun x => x.half == h && x.ap == ap) f s.buf.anvils }

def getSeg (s : State) (c slot : Nat) : Option Segment :=
  s.seg.segs.find? fun x => x.cfg.ctx == c && x.cfg.index == slot

/-- Block `b` of a segment; a block without an entry is in its INITIAL state (R328). -/
def blockOf (g : Segment) (b : Nat) : Block :=
  (g.blocks.find? (·.num == b)).getD
    { num := b, st := if g.cfg.absent then .absent else .inHost, written := false, readMostly := false, preferDevice := false, was := none }

/-- A block that has changed its state in mc `now` keeps what it was before (R542). -/
def stampBlock (now : Mc) (old : Segment) (b : Block) : Block :=
  let o := blockOf old b.num
  if o.st == b.st then b
  else if (o.was.map (·.at')) == some now then { b with was := o.was }
  else { b with was := some ⟨now, o.st, o.written, o.readMostly, o.preferDevice⟩ }

/-- A segment changes by `f`. -/
def changeSeg (now : Mc) (f : Segment → Segment) (g : Segment) : Segment :=
  let g1 := f g
  if g1.blocks == g.blocks then g1 else { g1 with blocks := g1.blocks.map (stampBlock now g) }

def updSeg (s : State) (c slot : Nat) (f : Segment → Segment) : State :=
  { s with seg.segs := updWhere (fun x => x.cfg.ctx == c && x.cfg.index == slot) (changeSeg s.time f) s.seg.segs }

def getFaultQ (s : State) (p : Nat) : FaultQ := (s.seg.faultQs.find? (·.part == p)).getD (FaultQ.reset p)

def updFaultQ (s : State) (p : Nat) (f : FaultQ → FaultQ) : State :=
  { s with seg.faultQs := updWhere (·.part == p) f s.seg.faultQs }

def getPartner (s : State) (r : Nat) : Option Partner := s.rem.partners.find? (·.num == r)

def updPartner (s : State) (r : Nat) (f : Partner → Partner) : State :=
  { s with rem.partners := updWhere (·.num == r) f s.rem.partners }

def getLedger (s : State) (p : Nat) : LedgerSt := (s.ledgers.find? (·.part == p)).getD (LedgerSt.reset p)

def updLedger (s : State) (p : Nat) (f : LedgerSt → LedgerSt) : State :=
  { s with ledgers := updWhere (·.part == p) f s.ledgers }

def getPartRegs (s : State) (p : Nat) : PartRegs := (s.partRegs.find? (·.part == p)).getD (PartRegs.reset p)

def updPartRegs (s : State) (p : Nat) (f : PartRegs → PartRegs) : State :=
  { s with partRegs := updWhere (·.part == p) f s.partRegs }

def getChannel (s : State) (c ch : Nat) : Option ChannelSt := s.channels.find? fun x => x.ctx == c && x.channel == ch

def updChannel (s : State) (c ch : Nat) (f : ChannelSt → ChannelSt) : State :=
  { s with channels := updWhere (fun x => x.ctx == c && x.channel == ch) f s.channels }

def getOp (s : State) (id : Nat) : Option AdminOp := s.q.ops.find? (·.id == id)

def updOp (s : State) (id : Nat) (f : AdminOp → AdminOp) : State :=
  { s with q.ops := updWhere (·.id == id) f s.q.ops }

def removeOp (s : State) (id : Nat) : State := { s with q.ops := s.q.ops.filter (·.id != id) }

/-! ## Counter waits -/

/-- How a counter stands for a wait: value, generation and whether it is ABANDONED, as a half sees it (R364, R544). -/
structure CtrView where
  value : Nat
  gen   : Nat
  abandoned : Bool

/-- The view from half `h`: the home's own values in the home half, else the copy. -/
def ctrView (s : State) (c : Nat) (h : Half) : Option CtrView :=
  (getCtr s c).map fun x =>
    if homeOfCtr c = h then ⟨x.value, x.gen, x.abandoned⟩ else ⟨x.copyValue, x.copyGen, x.copyAbandoned⟩

/-- Outcomes of evaluating a wait. -/
inductive WaitEval where
  | met
  | notMet
  | ownerReset
  deriving DecidableEq, Repr

/-- A wait with a binding of generation `gen` (R364, R369, R372, R373, R544): held while the view is older than the binding, released
with OWNER_RESET when it is newer or ABANDONED, or when the counter's home is in half reset and the waiter's half is not (R34). A
counter that the image does not declare never satisfies a wait (R358). -/
def evalWait (s : State) (c : Nat) (h : Half) (target gen : Nat) : WaitEval :=
  match ctrView s c h with
  | none => .notMet
  | some v =>
    if s.halfReset.get (homeOfCtr c) && homeOfCtr c != h then .ownerReset
    else if v.gen > gen then .ownerReset
    else if v.gen < gen then .notMet
    else if v.abandoned then .ownerReset
    else if v.value ≥ target then .met
    else .notMet

/-- A processor context's parked wait that has ended wakes the context; with OWNER_RESET the context stays unready (R370, R515). -/
def wakeContext (s : State) (x : CtxState) : State :=
  match x.cw with
  | none => s
  | some w =>
    match evalWait s w.ctr w.half w.target w.gen with
    | .notMet => s
    | e =>
      let wor := e == .ownerReset
      let s1 := updCtx s x.ctx fun y => { y with cw := none, faulted := y.faulted || wor }
      { s1 with out.wakes := (x.ctx, wor) :: s1.out.wakes
                out.ready := if wor then s1.out.ready.filter (· != x.ctx) else s1.out.ready }

/-- Every processor context whose wait has ended is woken. -/
def wakeContexts (s : State) : State :=
  if s.ctxs.any fun x => x.cw.isSome then s.ctxs.foldl wakeContext s else s

/-! ## Time -/

/-- The mover runs commands: it is in Run and not in Cold or Banked (R516, R450). -/
def running (s : State) : Bool := s.power.up && !s.power.cold && !s.power.banked

/-- Home half of a submission queue (R273). -/
def sqHome (s : State) (q : Nat) : Half := if q < 16 then homePort s q else ((sqCfg s q).map fun c => homeOfCtx s c.ctx).getD .east

/-! ## Power states (R449, R451, R456, R458, R461) -/

/-- mc since step 1 of the Banked entry that is under way or over: a package that is in Banked without one has long been there. -/
def bankAge (p : PowerSt) : Nat := if p.banked then (p.entry.map (·.age)).getD 25200 else 0

/-- Step 4 of Banked entry, at which the clocks stop, has not started: it starts 5 µs after step 1 (table "Banked entry", assumption
71). -/
def stillEntering (s : State) : Bool := s.power.banked && decide (bankAge s.power < 10500)

/-- The rails of a half in Run, Glow and Banked (table "Rails by state"). -/
def runRails : Rails := { mv := 750, sp := 800, hr := 800, cd := true, bias := 0, assist := .off, isoN := true }
def glowRails : Rails := { runRails with mv := 700, bias := 300 }
def bankedRails : Rails := { mv := 0, sp := 550, hr := 800, cd := false, bias := 900, assist := .retention, isoN := false }

/-- The rails of a half in the present power state. In a Banked entry ISO_N is low from 7 µs on, at which step 5 is complete, and the
rails are those of Banked from 12 µs on, at which step 6 is (R458). -/
def railsFor (p : PowerSt) (h : Half) : Rails :=
  if 25200 ≤ bankAge p then bankedRails
  else { (if p.glow.get h then glowRails else runRails) with isoN := decide (bankAge p < 14700) }

/-- The Bellows sets the rails of both halves for the present power state. -/
def bellows (p : PowerSt) : PowerSt := { p with rails := ⟨railsFor p .east, railsFor p .west⟩ }

/-- A half enters or leaves Glow; on leaving, its idle time counts anew (assumption 28). -/
def setGlow (s : State) (h : Half) (v : Bool) : State :=
  { s with power := bellows { s.power with
      glow := s.power.glow.set h v
      glowAt := if v then s.power.glowAt.set h s.time else s.power.glowAt
      busyAt := if v then s.power.busyAt else s.power.busyAt.set h s.time } }

/-- A wake event of a half in Glow returns it to Run (R456); in a brownout hold, in which the half does not ungate MCLK, it waits for the
recovery (R475, R476). -/
def wakeHalf (s : State) (h : Half) : State :=
  if running s && s.power.glow.get h then
    if s.power.hold.get h then { s with power := { s.power with wakeHeld := s.power.wakeHeld.set h true } } else setGlow s h false
  else s

def wakeBoth (s : State) : State := wakeHalf (wakeHalf s .east) .west

/-- The steps of a Banked entry already done are undone: both halves are in Run, and nothing of R462 happens (R461). -/
def undoEntry (s : State) : State :=
  let p := s.power
  let e := p.entry.getD { age := 0, banks := p.banks, bankReq := p.bankReq, links := s.rem.links }
  { s with rem.links := e.links
           power := bellows { p with banked := false, entry := none, glow := ⟨false, false⟩, busyAt := ⟨s.time, s.time⟩
                                     banks := e.banks, bankReq := e.bankReq } }

/-- A wake event of R456 at a half: a half in Glow wakes, and a Banked entry that has not come to step 4 is undone (R461). -/
def wakeEvent (s : State) (h : Half) : State := if stillEntering s then undoEntry s else wakeHalf s h

/-- The half is busy in this mc (R453). -/
def noteBusy (s : State) (h : Half) : State := { s with power := { s.power with busyAt := s.power.busyAt.set h s.time } }

/-- The machine at a beat on HP_RX of a half: in Glow the half wakes (R529). The wake takes no time in the model, so that the receive
queue of the port is never found full; a half that a brownout hold keeps in Glow serves the access in Glow (assumption 28). -/
def hostBeat (s : State) (h : Half) : State := if running s then noteBusy (wakeHalf s h) h else s

/-! ## Boundary outputs (R473, R516, R527, R528) -/

/-- The outputs of the half's VDD_MV domain and of its Anvil ports are driven: ISO_N is high. -/
def driven (s : State) (h : Half) : Bool := !s.power.cold && (s.power.rails.get h).isoN

/-- HP_READY and RP_READY of a half: from Run on, until step 1 of Banked entry (R458, R460). -/
def portReady (s : State) (h : Half) : Bool := driven s h && running s

/-- MV_RUN, as its receiver sees it. -/
def mvRun (s : State) : Bool := driven s .east && s.power.up

/-- SP_READY of a context, as the sequencer at its home half sees it. -/
def spReady (s : State) (ctx : Nat) : Bool := driven s (homeOfCtx s ctx) && s.out.ready.contains ctx

/-- SP_LATE of a half, as its sequencer sees it. -/
def spLate (s : State) (h : Half) : Bool := driven s h && s.out.late.get h

/-- CW_ANS of a half, as its sequencer sees it. -/
def cwAnswer (s : State) (h : Half) : Nat := if driven s h then s.out.cwAns.get h else 0

/-- HTIME counts HCLK, one for each 21 mc (table "Clocks"); the steps of a Banked entry follow one another (R458). -/
def tickHearth (p : PowerSt) (mc : Nat) : PowerSt :=
  let p1 := { p with htime := p.htime + (p.hfrac + mc) / 21, hfrac := (p.hfrac + mc) % 21 }
  match p.entry with
  | none => p1
  | some e => bellows { p1 with entry := some { e with age := e.age + mc } }

/-- TIME in ns: 10/21 of the mc (table "Clocks"). -/
def nsOf (mc : Mc) : Nat := mc * 10 / 21

/-- mc that hold a time of `ns`, rounded up. -/
def mcOf (ns : Nat) : Mc := (ns * 21 + 9) / 10

/-- The answer of a command that no rule lets reach the fuses, the flash or the queue of waiting commands: those stay as they were. -/
def answer (s s' : State) : Result :=
  .next { s' with pending := s.pending, fuses := s.fuses, flash := s.flash }

/-- A free value: opaque, and the next draw is another (assumption 9). -/
def draw (s : State) : Word × State := (Config.freeValue s.drawn, { s with drawn := s.drawn + 1 })

/-! ## What a loop test takes (R499, R505) -/

/-- A running loop test has taken the hauler, or the Tongs slot. -/
def loopHolds (s : State) (h : Half) (idx : Nat) : Bool :=
  s.test.loop.running && s.test.loop.half == h && s.test.loop.hauler == some idx

def loopSlot (s : State) (h : Half) : Option (Nat × Nat) :=
  if s.test.loop.running && s.test.loop.half == h then s.test.loop.slot else none

/-- A running loop test at `depth` has unit `n` of the half to itself (R505). -/
def unitLooped (s : State) (depth : Nat) (h : Half) (n : Nat) : Bool :=
  s.test.loop.running && s.test.loop.depth == depth && s.test.loop.half == h && s.test.loop.unit == n

/-! ## Slices -/

/-- Slices of a kind in each half (table "Self-test slices"). -/
def sliceCount : SliceKind → Nat
  | .tongs => 32
  | .hauler => 128
  | .shaPipe => 8
  | .translation => 4
  | .counterPath => 4
  | .anvil => 16

end Sys2Proof.Machine
end

