-- ==== Sys2Proof/Machine/Crypto.lean ====
section
/-! DEFINITION. CRC-32C, SHA-256, SHA-384, AES-XTS-256 and ECDSA over P-384, computed as their standards give them. -/

namespace Sys2Proof.Machine

/-! ## CRC-32C (reflected, polynomial 0x82F63B78, start and final complement) -/

def crcBits : Nat → BitVec 32 → BitVec 32
  | 0, c => c
  | n + 1, c => crcBits n (if c.getLsbD 0 then (c >>> 1) ^^^ 0x82F63B78#32 else c >>> 1)

/-- CRC-32C of a byte string. -/
def crc32c (bs : List Byte) : BitVec 32 :=
  ~~~(bs.foldl (fun c b => crcBits 8 (c ^^^ b.setWidth 32)) 0xFFFFFFFF#32)

/-! ## SHA-2 (FIPS 180-4) -/

/-- The `n` words of `w` bits that a number holds, the first one in its highest bits. -/
def wordsOf (w : Nat) : Nat → Nat → List (BitVec w)
  | 0, _ => []
  | n + 1, v => BitVec.ofNat w (v >>> (n * w)) :: wordsOf w n v

/-- Round constants of SHA-256. -/
def sha256K : List (BitVec 32) :=
  wordsOf 32 12 0x428a2f98_71374491_b5c0fbcf_e9b5dba5_3956c25b_59f111f1_923f82a4_ab1c5ed5_d807aa98_12835b01_243185be_550c7dc3 ++
  wordsOf 32 12 0x72be5d74_80deb1fe_9bdc06a7_c19bf174_e49b69c1_efbe4786_0fc19dc6_240ca1cc_2de92c6f_4a7484aa_5cb0a9dc_76f988da ++
  wordsOf 32 12 0x983e5152_a831c66d_b00327c8_bf597fc7_c6e00bf3_d5a79147_06ca6351_14292967_27b70a85_2e1b2138_4d2c6dfc_53380d13 ++
  wordsOf 32 12 0x650a7354_766a0abb_81c2c92e_92722c85_a2bfe8a1_a81a664b_c24b8b70_c76c51a3_d192e819_d6990624_f40e3585_106aa070 ++
  wordsOf 32 12 0x19a4c116_1e376c08_2748774c_34b0bcb5_391c0cb3_4ed8aa4a_5b9cca4f_682e6ff3_748f82ee_78a5636f_84c87814_8cc70208 ++
  wordsOf 32 4 0x90befffa_a4506ceb_bef9a3f7_c67178f2

/-- Initial hash value of SHA-256. -/
def sha256H : List (BitVec 32) :=
  wordsOf 32 8 0x6a09e667_bb67ae85_3c6ef372_a54ff53a_510e527f_9b05688c_1f83d9ab_5be0cd19

/-- Round constants of SHA-384. -/
def sha512K : List (BitVec 64) :=
  wordsOf 64 6 0x428a2f98d728ae22_7137449123ef65cd_b5c0fbcfec4d3b2f_e9b5dba58189dbbc_3956c25bf348b538_59f111f1b605d019 ++
  wordsOf 64 6 0x923f82a4af194f9b_ab1c5ed5da6d8118_d807aa98a3030242_12835b0145706fbe_243185be4ee4b28c_550c7dc3d5ffb4e2 ++
  wordsOf 64 6 0x72be5d74f27b896f_80deb1fe3b1696b1_9bdc06a725c71235_c19bf174cf692694_e49b69c19ef14ad2_efbe4786384f25e3 ++
  wordsOf 64 6 0x0fc19dc68b8cd5b5_240ca1cc77ac9c65_2de92c6f592b0275_4a7484aa6ea6e483_5cb0a9dcbd41fbd4_76f988da831153b5 ++
  wordsOf 64 6 0x983e5152ee66dfab_a831c66d2db43210_b00327c898fb213f_bf597fc7beef0ee4_c6e00bf33da88fc2_d5a79147930aa725 ++
  wordsOf 64 6 0x06ca6351e003826f_142929670a0e6e70_27b70a8546d22ffc_2e1b21385c26c926_4d2c6dfc5ac42aed_53380d139d95b3df ++
  wordsOf 64 6 0x650a73548baf63de_766a0abb3c77b2a8_81c2c92e47edaee6_92722c851482353b_a2bfe8a14cf10364_a81a664bbc423001 ++
  wordsOf 64 6 0xc24b8b70d0f89791_c76c51a30654be30_d192e819d6ef5218_d69906245565a910_f40e35855771202a_106aa07032bbd1b8 ++
  wordsOf 64 6 0x19a4c116b8d2d0c8_1e376c085141ab53_2748774cdf8eeb99_34b0bcb5e19b48a8_391c0cb3c5c95a63_4ed8aa4ae3418acb ++
  wordsOf 64 6 0x5b9cca4f7763e373_682e6ff3d6b2b8a3_748f82ee5defb2fc_78a5636f43172f60_84c87814a1f0ab72_8cc702081a6439ec ++
  wordsOf 64 6 0x90befffa23631e28_a4506cebde82bde9_bef9a3f7b2c67915_c67178f2e372532b_ca273eceea26619c_d186b8c721c0c207 ++
  wordsOf 64 6 0xeada7dd6cde0eb1e_f57d4f7fee6ed178_06f067aa72176fba_0a637dc5a2c898a6_113f9804bef90dae_1b710b35131c471b ++
  wordsOf 64 6 0x28db77f523047d84_32caab7b40c72493_3c9ebe0a15c9bebc_431d67c49c100d4c_4cc5d4becb3e42b6_597f299cfc657e2a ++
  wordsOf 64 2 0x5fcb6fab3ad6faec_6c44198c4a475817

/-- Initial hash value of SHA-384. -/
def sha384H : List (BitVec 64) :=
  wordsOf 64 6 0xcbbb9d5dc1059ed8_629a292a367cd507_9159015a3070dd17_152fecd8f70e5939_67332667ffc00b31_8eb44a8768581511 ++
  wordsOf 64 2 0xdb0c2e0d64f98fa7_47b5481dbefa4fa4

/-- One function of a family: the amounts of its rotations, and of the shift that the message schedule's two have. -/
structure ShaMix where
  turns : List Nat
  shift : Option Nat

def ShaMix.of {w : Nat} (m : ShaMix) (x : BitVec w) : BitVec w :=
  m.turns.foldl (fun y n => y ^^^ x.rotateRight n) ((m.shift.map fun n => x >>> n).getD 0)

/-- A family: bytes in a word, and its functions on the working variables and on the message. -/
structure ShaFamily where
  bytes  : Nat
  onA    : ShaMix
  onE    : ShaMix
  onOld  : ShaMix
  onNew  : ShaMix

def family256 : ShaFamily := ⟨4, ⟨[2, 13, 22], none⟩, ⟨[6, 11, 25], none⟩, ⟨[7, 18], some 3⟩, ⟨[17, 19], some 10⟩⟩

def family512 : ShaFamily := ⟨8, ⟨[28, 34, 39], none⟩, ⟨[14, 18, 41], none⟩, ⟨[1, 8], some 7⟩, ⟨[19, 61], some 6⟩⟩

/-- The last four values that each of the two chains of working variables has taken, newest first. -/
structure ShaChains (w : Nat) where
  as : List (BitVec w)
  es : List (BitVec w)

/-- A round consumes the oldest value of each chain; `x` is the sum of its constant and its message word. Bits of the newest E choose
between the two before it, and three A values vote. -/
def ShaFamily.round {w : Nat} (fam : ShaFamily) (x : BitVec w) : ShaChains w → ShaChains w
  | ⟨[p, q, r, old], [i, j, k, last]⟩ =>
    let t := last + fam.onE.of i + (k ^^^ (i &&& (j ^^^ k))) + x
    ⟨[t + fam.onA.of p + ((p &&& q) ||| (r &&& (p ||| q))), p, q, r], [old + t, i, j, k]⟩
  | c => c

/-- All rounds over a window of 16 message words: a round's word leaves the window, and the one that the schedule makes joins it. -/
def ShaFamily.rounds {w : Nat} (fam : ShaFamily) : List (BitVec w) → List (BitVec w) → ShaChains w → ShaChains w
  | k :: ks, m :: win, c =>
    let fresh := m + fam.onOld.of (win.getD 0 0) + win.getD 8 0 + fam.onNew.of (win.getD 13 0)
    fam.rounds ks (win ++ [fresh]) (fam.round (k + m) c)
  | _, _, c => c

/-- The hash value after one more block. -/
def ShaFamily.absorb {w : Nat} (fam : ShaFamily) (ks hash block : List (BitVec w)) : List (BitVec w) :=
  let c := fam.rounds ks block ⟨hash.take 4, hash.drop 4⟩
  List.zipWith (· + ·) hash (c.as ++ c.es)

/-- The message with its padding: a 1 bit, zeros, and its length in bits in two words. -/
def ShaFamily.pad (fam : ShaFamily) (msg : List Byte) : List Byte :=
  let n := msg.length + 1 + 2 * fam.bytes
  msg ++ 0x80#8 :: zeros (roundUp n (16 * fam.bytes) - n) ++ beBytes (2 * fam.bytes) (8 * msg.length)

/-- The hash of a message from an initial value. -/
def ShaFamily.hash {w : Nat} (fam : ShaFamily) (ks start : List (BitVec w)) (msg : List Byte) : List Byte :=
  let blocks := chunksOf (16 * fam.bytes) (fam.pad msg)
  (blocks.foldl (fun h b => fam.absorb ks h (wordsOf w 16 (beVal b))) start).flatMap fun x => beBytes fam.bytes x.toNat

/-- SHA-256, 32 bytes. -/
def sha256 (msg : List Byte) : List Byte := family256.hash sha256K sha256H msg

/-- SHA-384, 48 bytes. -/
def sha384 (msg : List Byte) : List Byte := (family512.hash sha512K sha384H msg).take 48

/-! ## AES-256 and XTS -/

/-- The substitution table of AES. -/
def aesSbox : List Byte :=
  [0x63, 0x7C, 0x77, 0x7B, 0xF2, 0x6B, 0x6F, 0xC5, 0x30, 0x01, 0x67, 0x2B, 0xFE, 0xD7, 0xAB, 0x76,
   0xCA, 0x82, 0xC9, 0x7D, 0xFA, 0x59, 0x47, 0xF0, 0xAD, 0xD4, 0xA2, 0xAF, 0x9C, 0xA4, 0x72, 0xC0,
   0xB7, 0xFD, 0x93, 0x26, 0x36, 0x3F, 0xF7, 0xCC, 0x34, 0xA5, 0xE5, 0xF1, 0x71, 0xD8, 0x31, 0x15,
   0x04, 0xC7, 0x23, 0xC3, 0x18, 0x96, 0x05, 0x9A, 0x07, 0x12, 0x80, 0xE2, 0xEB, 0x27, 0xB2, 0x75] ++
  [0x09, 0x83, 0x2C, 0x1A, 0x1B, 0x6E, 0x5A, 0xA0, 0x52, 0x3B, 0xD6, 0xB3, 0x29, 0xE3, 0x2F, 0x84,
   0x53, 0xD1, 0x00, 0xED, 0x20, 0xFC, 0xB1, 0x5B, 0x6A, 0xCB, 0xBE, 0x39, 0x4A, 0x4C, 0x58, 0xCF,
   0xD0, 0xEF, 0xAA, 0xFB, 0x43, 0x4D, 0x33, 0x85, 0x45, 0xF9, 0x02, 0x7F, 0x50, 0x3C, 0x9F, 0xA8,
   0x51, 0xA3, 0x40, 0x8F, 0x92, 0x9D, 0x38, 0xF5, 0xBC, 0xB6, 0xDA, 0x21, 0x10, 0xFF, 0xF3, 0xD2] ++
  [0xCD, 0x0C, 0x13, 0xEC, 0x5F, 0x97, 0x44, 0x17, 0xC4, 0xA7, 0x7E, 0x3D, 0x64, 0x5D, 0x19, 0x73,
   0x60, 0x81, 0x4F, 0xDC, 0x22, 0x2A, 0x90, 0x88, 0x46, 0xEE, 0xB8, 0x14, 0xDE, 0x5E, 0x0B, 0xDB,
   0xE0, 0x32, 0x3A, 0x0A, 0x49, 0x06, 0x24, 0x5C, 0xC2, 0xD3, 0xAC, 0x62, 0x91, 0x95, 0xE4, 0x79,
   0xE7, 0xC8, 0x37, 0x6D, 0x8D, 0xD5, 0x4E, 0xA9, 0x6C, 0x56, 0xF4, 0xEA, 0x65, 0x7A, 0xAE, 0x08] ++
  [0xBA, 0x78, 0x25, 0x2E, 0x1C, 0xA6, 0xB4, 0xC6, 0xE8, 0xDD, 0x74, 0x1F, 0x4B, 0xBD, 0x8B, 0x8A,
   0x70, 0x3E, 0xB5, 0x66, 0x48, 0x03, 0xF6, 0x0E, 0x61, 0x35, 0x57, 0xB9, 0x86, 0xC1, 0x1D, 0x9E,
   0xE1, 0xF8, 0x98, 0x11, 0x69, 0xD9, 0x8E, 0x94, 0x9B, 0x1E, 0x87, 0xE9, 0xCE, 0x55, 0x28, 0xDF,
   0x8C, 0xA1, 0x89, 0x0D, 0xBF, 0xE6, 0x42, 0x68, 0x41, 0x99, 0x2D, 0x0F, 0xB0, 0x54, 0xBB, 0x16]

/-- The inverse substitution table of AES. -/
def aesInvSbox : List Byte :=
  [0x52, 0x09, 0x6A, 0xD5, 0x30, 0x36, 0xA5, 0x38, 0xBF, 0x40, 0xA3, 0x9E, 0x81, 0xF3, 0xD7, 0xFB,
   0x7C, 0xE3, 0x39, 0x82, 0x9B, 0x2F, 0xFF, 0x87, 0x34, 0x8E, 0x43, 0x44, 0xC4, 0xDE, 0xE9, 0xCB,
   0x54, 0x7B, 0x94, 0x32, 0xA6, 0xC2, 0x23, 0x3D, 0xEE, 0x4C, 0x95, 0x0B, 0x42, 0xFA, 0xC3, 0x4E,
   0x08, 0x2E, 0xA1, 0x66, 0x28, 0xD9, 0x24, 0xB2, 0x76, 0x5B, 0xA2, 0x49, 0x6D, 0x8B, 0xD1, 0x25] ++
  [0x72, 0xF8, 0xF6, 0x64, 0x86, 0x68, 0x98, 0x16, 0xD4, 0xA4, 0x5C, 0xCC, 0x5D, 0x65, 0xB6, 0x92,
   0x6C, 0x70, 0x48, 0x50, 0xFD, 0xED, 0xB9, 0xDA, 0x5E, 0x15, 0x46, 0x57, 0xA7, 0x8D, 0x9D, 0x84,
   0x90, 0xD8, 0xAB, 0x00, 0x8C, 0xBC, 0xD3, 0x0A, 0xF7, 0xE4, 0x58, 0x05, 0xB8, 0xB3, 0x45, 0x06,
   0xD0, 0x2C, 0x1E, 0x8F, 0xCA, 0x3F, 0x0F, 0x02, 0xC1, 0xAF, 0xBD, 0x03, 0x01, 0x13, 0x8A, 0x6B] ++
  [0x3A, 0x91, 0x11, 0x41, 0x4F, 0x67, 0xDC, 0xEA, 0x97, 0xF2, 0xCF, 0xCE, 0xF0, 0xB4, 0xE6, 0x73,
   0x96, 0xAC, 0x74, 0x22, 0xE7, 0xAD, 0x35, 0x85, 0xE2, 0xF9, 0x37, 0xE8, 0x1C, 0x75, 0xDF, 0x6E,
   0x47, 0xF1, 0x1A, 0x71, 0x1D, 0x29, 0xC5, 0x89, 0x6F, 0xB7, 0x62, 0x0E, 0xAA, 0x18, 0xBE, 0x1B,
   0xFC, 0x56, 0x3E, 0x4B, 0xC6, 0xD2, 0x79, 0x20, 0x9A, 0xDB, 0xC0, 0xFE, 0x78, 0xCD, 0x5A, 0xF4] ++
  [0x1F, 0xDD, 0xA8, 0x33, 0x88, 0x07, 0xC7, 0x31, 0xB1, 0x12, 0x10, 0x59, 0x27, 0x80, 0xEC, 0x5F,
   0x60, 0x51, 0x7F, 0xA9, 0x19, 0xB5, 0x4A, 0x0D, 0x2D, 0xE5, 0x7A, 0x9F, 0x93, 0xC9, 0x9C, 0xEF,
   0xA0, 0xE0, 0x3B, 0x4D, 0xAE, 0x2A, 0xF5, 0xB0, 0xC8, 0xEB, 0xBB, 0x3C, 0x83, 0x53, 0x99, 0x61,
   0x17, 0x2B, 0x04, 0x7E, 0xBA, 0x77, 0xD6, 0x26, 0xE1, 0x69, 0x14, 0x63, 0x55, 0x21, 0x0C, 0x7D]

def aesSub (b : Byte) : Byte := aesSbox.getD b.toNat 0

def aesInvSub (b : Byte) : Byte := aesInvSbox.getD b.toNat 0

/-- Doubling in the field of AES. -/
def aesDouble (b : Byte) : Byte := if b.getLsbD 7 then (b <<< 1) ^^^ 0x1B#8 else b <<< 1

/-- Multiplication in the field of AES by a constant below 16. -/
def aesMul (k : Nat) (b : Byte) : Byte :=
  let b2 := aesDouble b
  let b4 := aesDouble b2
  let b8 := aesDouble b4
  (if bit k 0 then b else 0) ^^^ (if bit k 1 then b2 else 0) ^^^ (if bit k 2 then b4 else 0) ^^^ (if bit k 3 then b8 else 0)

def xorBytes (a b : List Byte) : List Byte := List.zipWith (· ^^^ ·) a b

/-- The key words of AES-256 from the eight last ones on: index, round constant, last eight words oldest first. -/
def aesExpand : Nat → Nat → Byte → List (List Byte) → List (List Byte)
  | 0, _, _, _ => []
  | n + 1, i, rc, win =>
    let last := win.getLastD []
    let rot := (last.drop 1 ++ last.take 1).map aesSub
    let t := if i % 8 = 0 then xorBytes rot [rc, 0, 0, 0] else if i % 8 = 4 then last.map aesSub else last
    let w := xorBytes (win.headD []) t
    w :: aesExpand n (i + 1) (if i % 8 = 0 then aesDouble rc else rc) (win.drop 1 ++ [w])

/-- The 15 round keys of AES-256. -/
def aesKeys (key : List Byte) : List (List Byte) :=
  let first := chunksOf 4 key
  chunksOf 16 ((first ++ aesExpand 52 8 1 first).flatten)

def aesShift (s : List Byte) : List Byte := (List.range 16).map fun i => s.getD ((i + 4 * (i % 4)) % 16) 0

def aesInvShift (s : List Byte) : List Byte := (List.range 16).map fun i => s.getD ((i + 12 * (i % 4)) % 16) 0

/-- One column times the circulant matrix whose first row is `m`. -/
def aesMixCol (m : List Nat) (c : List Byte) : List Byte :=
  (List.range 4).map fun r => ((List.range 4).map fun j => aesMul (m.getD ((4 + j - r) % 4) 0) (c.getD j 0)).foldl (· ^^^ ·) 0

def aesMix (m : List Nat) (s : List Byte) : List Byte := (chunksOf 4 s).flatMap (aesMixCol m)

def aesEncrypt (keys : List (List Byte)) (b : List Byte) : List Byte :=
  let s0 := xorBytes b (keys.headD [])
  let mid := ((keys.drop 1).take 13).foldl
    (fun s k => xorBytes (aesMix [2, 3, 1, 1] (aesShift (s.map aesSub))) k) s0
  xorBytes (aesShift (mid.map aesSub)) (keys.getLastD [])

def aesDecrypt (keys : List (List Byte)) (b : List Byte) : List Byte :=
  let s0 := xorBytes b (keys.getLastD [])
  let mid := (((keys.drop 1).take 13).reverse).foldl
    (fun s k => aesMix [14, 11, 13, 9] (xorBytes ((aesInvShift s).map aesInvSub) k)) s0
  xorBytes ((aesInvShift mid).map aesInvSub) (keys.headD [])

/-- The tweak times α in the field of XTS. -/
def xtsDouble (t : Nat) : Nat := if t ≥ 2 ^ 127 then (2 * t % 2 ^ 128) ^^^ 0x87 else 2 * t

def xtsBlocks (f : List Byte → List Byte) : Nat → Nat → List Byte → List Byte
  | 0, _, _ => []
  | n + 1, t, bs =>
    let tw := leBytes 16 t
    xorBytes (f (xorBytes (bs.take 16) tw)) tw ++ xtsBlocks f n (xtsDouble t) (bs.drop 16)

/-- AES-XTS-256 over whole 16 B blocks with data unit number `unit`: `key` holds the data key in its low 256 bits and the tweak
key in its high 256 bits. -/
def xts (encrypt : Bool) (key : BitVec 512) (unit : Nat) (bs : List Byte) : List Byte :=
  let k1 := aesKeys (leBytes 32 (key.toNat % 2 ^ 256))
  let k2 := aesKeys (leBytes 32 (key.toNat / 2 ^ 256))
  let t := leVal (aesEncrypt k2 (leBytes 16 unit))
  xtsBlocks (if encrypt then aesEncrypt k1 else aesDecrypt k1) (bs.length / 16) t bs

/-! ## ECDSA over P-384 -/

def p384p : Nat := 2 ^ 384 - 2 ^ 128 - 2 ^ 96 + 2 ^ 32 - 1

def p384n : Nat := 0xffffffffffffffffffffffffffffffffffffffffffffffffc7634d81f4372ddf581a0db248b0a77aecec196accc52973

def p384b : Nat := 0xb3312fa7e23ee7e4988e056be3f82d19181d9c6efe8141120314088f5013875ac656398d8a2ed19d2a85c8edd3ec2aef

def p384gx : Nat := 0xaa87ca22be8b05378eb1c71ef320ad746e1d3b628ba79b9859f741e082542a385502f25dbf55296c3a545e3872760ab7

def p384gy : Nat := 0x3617de4a96262c6f5d9e98bf9292dc29f8f41dbd289a147ce9da3113b5f0b8c00a60b1ce1d7e819d7a431d7c90ea0e5f

/-- `b ^ e` mod `m`, over the low `fuel` bits of `e`. -/
def powMod (m : Nat) : Nat → Nat → Nat → Nat
  | 0, _, _ => 1 % m
  | f + 1, b, e =>
    let r := powMod m f (b * b % m) (e / 2)
    if e % 2 = 1 then r * b % m else r

/-- The inverse modulo a prime below 2^384. -/
def invMod (m a : Nat) : Nat := powMod m 384 (a % m) (m - 2)

def subMod (m a b : Nat) : Nat := (a + m - b % m) % m

/-- A point of the curve in projective coordinates: (X ÷ Z, Y ÷ Z), and infinity when Z is 0. -/
structure Point where
  x : Nat
  y : Nat
  z : Nat

def Point.infinity : Point := ⟨0, 1, 0⟩

/-- The sum of two points, by the addition law that is complete on curves of prime order with a = −3: it holds for equal, opposite and
infinite points too. -/
def pointAdd (p q : Point) : Point :=
  let m := p384p
  let xx := p.x * q.x % m
  let yy := p.y * q.y % m
  let zz := p.z * q.z % m
  let xy := (p.x * q.y + q.x * p.y) % m
  let yz := (p.y * q.z + q.y * p.z) % m
  let xz := (p.x * q.z + q.x * p.z) % m
  let a := 3 * subMod m xz (p384b * zz) % m
  let b := 3 * subMod m (p384b * xz) (3 * zz + xx) % m
  let c := 3 * subMod m xx zz % m
  ⟨subMod m (xy * (yy + a)) (yz * b), ((yy + a) * subMod m yy a + c * b) % m, (yz * subMod m yy a + xy * c) % m⟩

/-- `k` times a point, over the low `fuel` bits of `k`. -/
def pointMul : Nat → Nat → Point → Point
  | 0, _, _ => Point.infinity
  | f + 1, k, q =>
    if k % 2 = 1 then pointAdd (pointMul f (k / 2) (pointAdd q q)) q else pointMul f (k / 2) (pointAdd q q)

/-- The affine coordinates of a point, none at infinity. -/
def affine (p : Point) : Option (Nat × Nat) :=
  if p.z = 0 then none else some (p.x * invMod p384p p.z % p384p, p.y * invMod p384p p.z % p384p)

def p384g : Point := ⟨p384gx, p384gy, 1⟩

/-- The point lies on the curve. -/
def onCurve (x y : Nat) : Bool :=
  x < p384p && y < p384p && (y * y) % p384p == (x * x * x + (p384p - 3) * x + p384b) % p384p

/-- The signature (r, s) of a message by the key (x, y) verifies (ECDSA, P-384, SHA-384). -/
def ecdsaVerify (x y : Nat) (msg : List Byte) (r s : Nat) : Bool :=
  onCurve x y && 0 < r && r < p384n && 0 < s && s < p384n &&
    (let z := beVal (sha384 msg) % p384n
     let w := invMod p384n s
     match affine (pointAdd (pointMul 384 (z * w % p384n) p384g) (pointMul 384 (r * w % p384n) ⟨x, y, 1⟩)) with
     | none => false
     | some p => p.1 % p384n == r)

/-- The signature (r, s) of a message by private key `d` with per-signature number `k`. -/
def ecdsaSign (d k : Nat) (msg : List Byte) : Nat × Nat :=
  let z := beVal (sha384 msg) % p384n
  let r := ((affine (pointMul 384 k p384g)).getD (0, 0)).1 % p384n
  (r, invMod p384n k * (z + r * d) % p384n)

/-! ## Line keys (R354) -/

/-- HMAC-SHA-256. -/
def hmac (key msg : List Byte) : List Byte :=
  let k := if key.length > 64 then sha256 key else key
  let pad := fun (v : Byte) => (k ++ List.replicate (64 - k.length) 0).map (· ^^^ v)
  sha256 (pad 0x5C ++ sha256 (pad 0x36 ++ msg))

/-- Block `i` of the counter-mode key derivation of SP 800-108 with label "FVMK": counter, label, a zero byte, context and length.
The counter, the length and the two parts of the context (partition, key epoch) take 32 bits each, most significant byte first
(assumption 41, DESIGN CHOICE: R354 gives no widths). -/
def keyBlock (secret : BitVec 256) (part epoch i : Nat) : List Byte :=
  hmac (beBytes 32 secret.toNat)
    (beBytes 4 i ++ [0x46, 0x56, 0x4D, 0x4B] ++ [0] ++ beBytes 4 part ++ beBytes 4 epoch ++ beBytes 4 512)

/-- The AES-256 key pair of a partition at a key epoch, the data key in the low 256 bits (R354). -/
def lineKeys (secret : BitVec 256) (part epoch : Nat) : BitVec 512 :=
  BitVec.ofNat 512 (leVal (keyBlock secret part epoch 1 ++ keyBlock secret part epoch 2))

end Sys2Proof.Machine
end

