-- ==== Sys2Proof/Machine/Faults.lean ====
section
/-! DEFINITION. Status codes, MSI-X messages, and the faults block: fault records, batches, the fault queue and events (tables
"Status codes", "Fault record", "Event codes"; R341 to R344, R352, R353). -/

namespace Sys2Proof.Machine

/-! ## Status codes (R288) -/

def stOk : Nat := 0x0000
def stOkSpoiled : Nat := 0x0001
def stUnitAbsent : Nat := 0x0010
def stBadProgram : Nat := 0x0011
def stSegmentBound : Nat := 0x0020
def stRights : Nat := 0x0021
def stFaultUnresolved : Nat := 0x0022
def stOwnerReset : Nat := 0x0030
def stContextReset : Nat := 0x0031
def stRearmOverrun : Nat := 0x0040
def stPartnerTimeout : Nat := 0x0050
def stPartnerFenced : Nat := 0x0051
def stProfileMismatch : Nat := 0x0052
def stSizeMismatch : Nat := 0x0060
def stProtectedRegion : Nat := 0x0061
def stQuenched : Nat := 0x0070
def stStalled : Nat := 0x0080

/-- Rank of a status in the order of R78; a status outside that order comes last. -/
def statusRank (st : Nat) : Nat :=
  if st == stUnitAbsent then 0 else if st == stBadProgram then 1 else if st == stSegmentBound then 2
  else if st == stRights then 3 else if st == stProtectedRegion then 4 else 5

/-- The failing check that R78 reports: the first status of its order, and the first failure with that status. -/
def worstFailure (fs : List (Nat × Nat)) : Option (Nat × Nat) := minBy (fun f => statusRank f.1) fs

/-! ## Messages -/

/-- An MSI-X message that names `vector`, on the partition's home host port. -/
def sendMsix (s : State) (p vector : Nat) : State := { s with out.msix := (p, vector) :: s.out.msix }

/-- The phase bit of record `k` of a queue of `depth` records (R289). -/
def phaseOf (k depth : Nat) : Bool := k / depth % 2 == 0

def capAt (m v : Nat) : Nat := if v > m then m else v

/-! ## Fault records -/

def kFault : Nat := 1
def kNoFrame : Nat := 2
def kHot : Nat := 3
def kAdvise : Nat := 4
def kCopySpoiled : Nat := 5
def kEvent : Nat := 0x10

/-- The 32 bytes of a fault record (table "Fault record"). -/
def faultBytes (r : FaultRec) (phase : Bool) : List Byte :=
  leBytes 1 r.kind ++ leBytes 1 (r.flags % 128 + (if phase then 128 else 0)) ++ leBytes 2 (capAt 0xFFFF r.waiters) ++
    leBytes 1 r.ctx ++ leBytes 1 r.seg ++ leBytes 2 r.event ++ leBytes 8 r.object ++ leBytes 8 r.value ++
    leBytes 6 (r.time % 2 ^ 48) ++ leBytes 2 r.batch

/-- The FAULT record of an outstanding fault. -/
def isRecOf (o : Outstanding) (r : FaultRec) : Bool :=
  r.kind == kFault && r.ctx == o.ctx && r.seg == o.slot && r.object == o.block && r.time == o.created

/-- The open batch takes records: fewer than 64, or the closed batch is free for it (R342, R343). -/
def batchHasRoom (q : FaultQ) : Bool := q.openB.length < 64

/-- A full open batch becomes the closed batch when that is free. -/
def closeBatch (q : FaultQ) : FaultQ :=
  if q.closedB.isEmpty then { q with closedB := q.openB, openB := [], batchNo := q.batchNo + 1 } else q

/-- The record joins the open batch, which closes when it then holds 64. -/
def addToBatch (q : FaultQ) (r : FaultRec) : FaultQ :=
  let q1 := { q with openB := q.openB ++ [{ r with batch := q.batchNo % 65536 }] }
  if q1.openB.length ≥ 64 then closeBatch q1 else q1

def faultDepth (q : FaultQ) : Nat := 2 ^ q.log

/-- How many records the queue has room for (R353). -/
def faultRoom (q : FaultQ) : Nat :=
  if q.enabled then faultDepth q - (q.records + 2 ^ 32 - q.head) % 2 ^ 32 else 0

/-- Records written one by one to host memory. -/
def writeFaultRecs (s : State) (p : Nat) (q : FaultQ) : List FaultRec → Nat → State
  | [], _ => s
  | r :: rs, k =>
    let d := faultDepth q
    writeFaultRecs (hostWrite s p (q.base + k % d * 32) (faultBytes r (phaseOf k d))) p q rs (k + 1)

/-- The outstanding faults whose records were just written take no more waiters into them (R341). -/
def markWritten (rs : List FaultRec) (o : Outstanding) : Outstanding :=
  if rs.any (isRecOf o) then { o with written := true } else o

/-- The closed batch is written as far as the queue has room, with one message for the group (R342). -/
def writeClosed (s : State) (p : Nat) : State :=
  let q := getFaultQ s p
  let n := min (faultRoom q) q.closedB.length
  if n = 0 then s
  else
    let rs := q.closedB.take n
    let s1 := writeFaultRecs s p q rs q.records
    let s2 := { s1 with seg.faults := s1.seg.faults.map (markWritten rs) }
    let s3 := updFaultQ s2 p fun x =>
      { x with closedB := x.closedB.drop n, records := (x.records + n) % 2 ^ 32 }
    sendMsix s3 p q.vector

/-- A waiting record is created: a FAULT record takes the waiters gathered meanwhile, and both kinds the present TIME (R343). -/
def createWaiting (s : State) (p : Nat) (r : FaultRec) : State :=
  let hit := fun (o : Outstanding) => !o.recorded && o.ctx == r.ctx && o.slot == r.seg && o.block == r.object
  match (if r.kind == kFault then s.seg.faults.find? hit else none) with
  | some o =>
    let rec' := { r with waiters := o.waiters.length + o.extra, flags := o.flags, value := o.value, time := s.time }
    let s1 := { s with seg.faults := updWhere hit (fun o => { o with recorded := true, created := s.time }) s.seg.faults }
    updFaultQ s1 p fun q => addToBatch q rec'
  | none => if r.kind == kFault then s else updFaultQ s p fun q => addToBatch q { r with time := s.time }

/-- Waiting records move into the open batch, `fuel` at most. -/
def drainWaiting : Nat → State → Nat → State
  | 0, s, _ => s
  | f + 1, s, p =>
    let q := getFaultQ s p
    match q.waiting with
    | [] => s
    | r :: rs =>
      if batchHasRoom q then
        drainWaiting f (createWaiting (updFaultQ s p fun x => { x with waiting := rs }) p r) p
      else s

/-- One round of writing, closing of a full batch and creation of waiting records (R342, R343). -/
def flushRound (s : State) (p : Nat) : State :=
  let s1 := writeClosed s p
  let s2 := if (getFaultQ s1 p).openB.length ≥ 64 then writeClosed (updFaultQ s1 p closeBatch) p else s1
  drainWaiting (getFaultQ s2 p).waiting.length s2 p

/-- Rounds until nothing moves: the open batch is then below 64 records or the closed batch waits for queue space. -/
def flushLoop : Nat → State → Nat → State
  | 0, s, _ => s
  | f + 1, s, p =>
    let q := getFaultQ s p
    if (q.closedB.isEmpty || faultRoom q == 0) && (q.openB.length < 64 || !q.closedB.isEmpty) &&
        (q.waiting.isEmpty || !batchHasRoom q) then s
    else flushLoop f (flushRound s p) p

/-- Writing, closing and creation of records as far as they go (R342, R343). -/
def flushFaults (s : State) (p : Nat) : State := flushLoop ((getFaultQ s p).waiting.length + 4) s p

/-- A record of a kind that is discarded when the batches are full (R343). -/
def pushRecord (s : State) (p : Nat) (r : FaultRec) : State :=
  let q := getFaultQ s p
  if batchHasRoom q && q.waiting.isEmpty then flushFaults (updFaultQ s p fun q => addToBatch q r) p
  else updFaultQ s p fun q => { q with dropped := capAt 0xFFFFFFFF (q.dropped + 1) }

/-- An event "in the faults block" of partition `p` (R352). -/
def raiseEvent (s : State) (p code ctx : Nat) (noCtx : Bool) (object value : Nat) : State :=
  pushRecord s p
    { kind := kEvent, flags := if noCtx then 8 else 0, waiters := 0, ctx := if noCtx then 0 else ctx, seg := 0, event := code
      object := object, value := value, time := s.time, batch := 0 }

/-- An event that names a context. -/
def ctxEvent (s : State) (ctx code object value : Nat) : State :=
  raiseEvent s (partOfCtx s ctx) code ctx false object value

/-- A NO_FRAME record, which waits for an open batch when there is none (R339, R343). -/
def pushNoFrame (s : State) (r : FaultRec) : State :=
  let p := partOfCtx s r.ctx
  let q := getFaultQ s p
  if batchHasRoom q && q.waiting.isEmpty then flushFaults (updFaultQ s p fun q => addToBatch q r) p
  else updFaultQ s p fun q => { q with waiting := q.waiting ++ [r] }

/-- A HOT, ADVISE or COPY_SPOILED record naming a block whose first byte lies at virtual address `va`. -/
def blockRecord (s : State) (kind ctx slot block va : Nat) : State :=
  pushRecord s (partOfCtx s ctx)
    { kind := kind, flags := 0, waiters := 0, ctx := ctx, seg := slot, event := 0, object := block, value := va
      time := s.time, batch := 0 }

/-- An outstanding fault on the block, if any. -/
def faultOn (s : State) (ctx slot block : Nat) : Option Outstanding :=
  s.seg.faults.find? fun o => o.ctx == ctx && o.slot == slot && o.block == block

def flagsOr (a b : Nat) : Nat := a ||| b

/-- A waiter joins an outstanding fault (R341): the waiter counts once for each request, and adds its count and flags to the record
until it is written. -/
def joinFault (s : State) (o : Outstanding) (waiter : Option Nat) (flags : Nat) : State :=
  let old := match waiter with
    | some id => o.waiters.contains id
    | none => false
  let o' := match waiter with
    | some id => { o with waiters := if old then o.waiters else o.waiters ++ [id], flags := flagsOr o.flags flags }
    | none => { o with extra := o.extra + 1, flags := flagsOr o.flags flags }
  let same := fun (x : Outstanding) => x.ctx == o.ctx && x.slot == o.slot && x.block == o.block
  let s1 := { s with seg.faults := updWhere same (fun _ => o') s.seg.faults }
  if o.recorded && !o.written then
    let bump := updWhere (isRecOf o) fun (r : FaultRec) =>
      { r with waiters := if old then r.waiters else r.waiters + 1, flags := flagsOr r.flags flags }
    updFaultQ s1 (partOfCtx s o.ctx) fun q => { q with openB := bump q.openB, closedB := bump q.closedB }
  else s1

/-- A billet or a PREFETCH faults on a block (R341, R343). The caller has seen that the fault queue is ENABLED. -/
def faultBlock (s : State) (ctx slot block va : Nat) (waiter : Option Nat) (flags : Nat) : State :=
  match faultOn s ctx slot block with
  | some o => joinFault s o waiter flags
  | none =>
    let p := partOfCtx s ctx
    let q := getFaultQ s p
    let now := batchHasRoom q && q.waiting.isEmpty
    let o : Outstanding :=
      { ctx := ctx, slot := slot, block := block, recorded := now, written := false, flags := flags, value := va
        created := s.time, waiters := waiter.toList, extra := if waiter.isSome then 0 else 1 }
    let r : FaultRec :=
      { kind := kFault, flags := flags, waiters := 1, ctx := ctx, seg := slot, event := 0, object := block, value := va
        time := s.time, batch := 0 }
    let s1 := { s with seg.faults := s.seg.faults ++ [o] }
    if now then flushFaults (updFaultQ s1 p fun q => addToBatch q r) p
    else updFaultQ s1 p fun q => { q with waiting := q.waiting ++ [r] }

/-- A block's fault is outstanding no more (R344). -/
def clearFault (s : State) (ctx slot block : Nat) : State :=
  { s with seg.faults := s.seg.faults.filter fun o => !(o.ctx == ctx && o.slot == slot && o.block == block) }

end Sys2Proof.Machine
end

