-- ==== Sys2Proof/Machine/Segments.lean ====
section
/-! DEFINITION. Segments: lookup, translation of a billet into pieces, block states, and reads and writes of the pieces that lie in
the own package (chapter 10; R56 to R58, R354 to R356). -/

namespace Sys2Proof.Machine

/-- Bytes of a residency block. -/
def blockSize : Nat := 0x20_0000

def hasRight (c : SegCfg) : Right → Bool
  | .r => c.r
  | .w => c.w
  | .a => c.a

/-- The segment of a context that holds a virtual address. -/
def segAt (s : State) (ctx va : Nat) : Option Segment :=
  s.seg.segs.find? fun x => x.cfg.ctx == ctx && x.cfg.start ≤ va && va < x.cfg.start + x.cfg.length

/-- The segment of a context that holds a whole range. -/
def segOf (s : State) (ctx va len : Nat) : Option Segment :=
  match segAt s ctx va with
  | some x => if va + len ≤ x.cfg.start + x.cfg.length then some x else none
  | none => none

/-- The segment with a block replaced, entries in rising block order. -/
def setBlock (g : Segment) (b : Block) : Segment :=
  { g with blocks := insertBy (·.num) b (g.blocks.filter (·.num != b.num)) }

/-- Frames in use (R339). -/
def usedFrames (g : Segment) : List Nat :=
  g.blocks.filterMap fun b => match b.st with
    | .inFrame f => some f
    | .movingIn f => some f
    | .movingOut f _ => some f
    | _ => none

/-- The lowest-numbered free frame. -/
def freeFrame (g : Segment) : Option Nat :=
  let used := usedFrames g
  (List.range (min g.cfg.frames (used.length + 1))).find? fun f => !used.contains f

/-- A 2 MiB unit of a segment lies in a held range, or in the range of a drain accepted in an earlier mc (R349, R350). -/
def isHeld (now : Mc) (g : Segment) (b : Nat) : Bool :=
  g.holds.any (fun h => h.1 ≤ b && b < h.1 + h.2) ||
    g.drains.any fun d => d.taken < now && d.first ≤ b && b < d.first + d.count

/-- The epoch in which a translation counts (R336): in the mc of a drain's acceptance, still the epoch that the drain waits for
(R349). -/
def epochNow (now : Mc) (g : Segment) : Bool :=
  match g.drains with
  | d :: _ => if d.started && d.taken == now then !g.epoch else g.epoch
  | [] => g.epoch

def isMoving : BlockSt → Bool
  | .movingIn _ => true
  | .movingOut _ _ => true
  | _ => false

/-- Number of 2 MiB units of a segment. -/
def segBlocks (c : SegCfg) : Nat := ceilDiv c.length blockSize

/-- Units that a range of a segment touches. -/
def unitsOf (c : SegCfg) (va len : Nat) : List Nat :=
  let a := (va - c.start) / blockSize
  let b := (va - c.start + len - 1) / blockSize
  (List.range (b + 1 - a)).map (a + ·)

/-- Global address in two parts: package and local address (table "Global address layout"). -/
def pkgOf (g : Nat) : Nat := g / 2 ^ 50

def localOf (g : Nat) : Nat := g % 2 ^ 48

/-- The backing of a segment's byte `va` as a piece of `len` bytes. -/
def backingPiece (s : State) (g : Segment) (va len : Nat) : Piece :=
  let ga := g.cfg.backing + (va - g.cfg.start)
  let own := pkgOf g.cfg.backing == s.cfg.pkg
  { addr := if own then localOf ga else ga, len := len, pkg := if own then none else some (pkgOf ga), slot := g.cfg.index
    epoch := epochNow s.time g, block := none, key := if g.cfg.enc then some (partOfCtx s g.cfg.ctx) else none, led := g.cfg.led && (g.cfg.kind != .device || !own) }

/-- The piece of block `b` from its byte `o` on (R338); none while the block is MOVING or ABSENT. -/
def blockPiece (s : State) (g : Segment) (b o len : Nat) : Option Piece :=
  match (blockOf g b).st with
  | .inHost => some { backingPiece s g (g.cfg.start + b * blockSize + o) len with block := some b }
  | .inFrame f =>
    some { addr := g.cfg.pool + f * blockSize + o, len := len, pkg := none, slot := g.cfg.index, epoch := epochNow s.time g, block := some b, key := none
           led := g.cfg.led }
  | _ => none

/-- A range cut at the block bounds: block, offset in the block, bytes. -/
def blockRanges (c : SegCfg) (va len : Nat) : List (Nat × Nat × Nat) :=
  (unitsOf c va len).map fun b =>
    let lo := max va (c.start + b * blockSize)
    let hi := min (va + len) (c.start + (b + 1) * blockSize)
    (b, lo - (c.start + b * blockSize), hi - lo)

/-- Outcomes of the translation of a billet (R334). -/
inductive Xlate where
  | ok (pieces : List Piece)
  | bound
  | rights
  /-- ABSENT blocks: slot, block, first faulting virtual address, and whether W is needed. -/
  | absent (faults : List (Nat × Nat × Nat × Bool))
  /-- A block that is MOVING or a range that is held. -/
  | held (slot block : Nat)
  /-- The address reached lies in no window of R39. -/
  | nowhere (addr : Nat)
  deriving DecidableEq, Repr

/-- ABSENT blocks that a range touches. -/
def absentIn (g : Segment) (n : Need) : List (Nat × Nat × Nat × Bool) :=
  if g.cfg.kind != .migratable then []
  else ((blockRanges g.cfg n.1 n.2.1).filter fun x => (blockOf g x.1).st == .absent).map fun x =>
    (g.cfg.index, x.1, g.cfg.start + x.1 * blockSize + x.2.1, n.2.2 == .w)

/-- A unit that the range must wait for. -/
def heldIn (now : Mc) (g : Segment) (n : Need) : Option (Nat × Nat) :=
  ((unitsOf g.cfg n.1 n.2.1).find? fun b => isHeld now g b || (g.cfg.kind == .migratable && isMoving (blockOf g b).st)).map
    fun b => (g.cfg.index, b)

def piecesIn (s : State) (g : Segment) (n : Need) : List Piece :=
  if g.cfg.kind == .migratable then (blockRanges g.cfg n.1 n.2.1).filterMap fun x => blockPiece s g x.1 x.2.1 x.2.2
  else [backingPiece s g n.1 n.2.1]

/-- Both ends of a piece lie in one window (R329, R39). -/
def pieceMapped (s : State) (p : Piece) : Bool :=
  p.pkg.isSome ||
    (match windowOf s.fuses.grade p.addr, windowOf s.fuses.grade (p.addr + p.len - 1) with
     | some a, some b => a == b
     | _, _ => false)

/-- The translation of a billet of a context (R333, R334); ranges of no bytes are left out. -/
def translate (s : State) (ctx : Nat) (needs : List Need) : Xlate :=
  let ns := needs.filter fun n => n.2.1 != 0
  let gs := ns.map fun n => (n, segOf s ctx n.1 n.2.1)
  if gs.any fun x => x.2.isNone then .bound
  else
    let ok := gs.filterMap fun x => x.2.map fun g => (x.1, g)
    if ok.any fun x => !hasRight x.2.cfg x.1.2.2 then .rights
    else
      let ab := dedup (ok.flatMap fun x => absentIn x.2 x.1)
      if !ab.isEmpty then .absent ab
      else match ok.findSome? fun x => heldIn s.time x.2 x.1 with
        | some (slot, b) => .held slot b
        | none =>
          let ps := ok.flatMap fun x => piecesIn s x.2 x.1
          match ps.find? fun p => !pieceMapped s p with
          | some p => .nowhere p.addr
          | none => .ok ps

/-! ## Reading and writing local pieces -/

/-- The half whose memory holds a local address; none for host windows and unmapped addresses. -/
def memHalf (g : Grade) (a : Nat) : Option Half :=
  match windowOf g a with
  | some (.hbm h) => some h
  | some (.stock h) => some h
  | _ => none

/-- The half through which a local address is reached: a host window belongs to the half of its port. -/
def homeOfAddr (s : State) (a : Nat) : Option Half :=
  match windowOf s.fuses.grade a with
  | some (.hbm h) => some h
  | some (.stock h) => some h
  | some (.host p) => some (homePort s p)
  | none => none

/-- The address is reached through a half that is in half reset (R32, R33). -/
def unreachable (s : State) (a : Nat) : Bool := (homeOfAddr s a).any s.halfReset.get

/-- The bytes of one 256 B line through a key (R355). -/
def cryptLine (s : State) (enc : Bool) (part line : Nat) (bs : List Byte) : List Byte :=
  xts enc (lineKeys (Config.deviceSecret s.fuses.serial0 s.fuses.serial1) part s.cfg.keyEpoch) (s.cfg.pkg * 2 ^ 50 + line * 256) bs

/-- The plain bytes of the line that holds local address `a`, as a segment with key `key` sees them. -/
def plainLine (s : State) (key : Option Nat) (line : Nat) : List Byte :=
  let raw := memRead s.mem (line * 256) 256
  match key with
  | some p => if line * 256 < hbmTop then cryptLine s false p line raw else raw
  | none => raw

/-- A local range as read through a segment, with the spoil marks of its lines. -/
def readLocal (s : State) (key : Option Nat) (a n : Nat) : List SByte :=
  if unreachable s a then (List.range n).map fun i => (Config.unreadByte s.time (a + i), true)
  else match key with
    | none => memReadS s.mem a n
    | some _ =>
      (piecesOf a (List.replicate n (0 : Byte))).flatMap fun p =>
        let line := p.1 / 256
        ((plainLine s key line).drop (p.1 % 256)).take p.2.length |>.map fun b => (b, memMark s.mem line)

/-- One line's part written through a key: the port merges into the decrypted line and stores the whole line (R57). -/
def writeKeyed (s : State) (part a : Nat) (bs : List SByte) : Mem :=
  let line := a / 256
  let old := plainLine s (some part) line
  let new := old.take (a % 256) ++ bs.map Prod.fst ++ old.drop (a % 256 + bs.length)
  let m := memStore s.mem (line * 256) (cryptLine s true part line new)
  if bs.any Prod.snd then memSetMark m line true
  else if bs.length = 256 then memSetMark m line false
  else m

/-- A local range written through a segment; nothing is written toward a half in half reset (R33). -/
def writeLocal (s : State) (key : Option Nat) (a : Nat) (bs : List SByte) : State :=
  if unreachable s a then s
  else match key with
    | some p =>
      if a < hbmTop then (piecesOf a bs).foldl (fun s x => { s with mem := writeKeyed s p x.1 x.2 }) s
      else { s with mem := memWrite s.mem a bs }
    | none => { s with mem := memWrite s.mem a bs }

/-- A local range written by `w`: in the Stockpile the banks order the writes of one mc (R230). -/
def writeBank (s : State) (w : Writer) (key : Option Nat) (a : Nat) (bs : List SByte) : State :=
  if inStockpile a && !unreachable s a then { s with mem := bankWrite s.mem s.time w.rank a bs } else writeLocal s key a bs

/-- Lines of a local write that count as spoiled: those with a marked byte, and all lines that could not be written (R33). -/
def spoiledLines (s : State) (a : Nat) (bs : List SByte) : Nat :=
  if unreachable s a then (piecesOf a bs).length else spoiledPieces a bs

/-- The WRITTEN mark of a block that is IN_FRAME is set by a write (R340). -/
def markBlockWritten (s : State) (ctx : Nat) (p : Piece) : State :=
  match p.block with
  | none => s
  | some b => updSeg s ctx p.slot fun g =>
    let blk := blockOf g b
    match blk.st with
    | .inFrame _ => setBlock g { blk with written := true }
    | _ => g

/-- A local piece written, with its block marked WRITTEN. -/
def writePiece (s : State) (w : Writer) (ctx : Nat) (p : Piece) (bs : List SByte) : State :=
  markBlockWritten (writeBank s w p.key p.addr bs) ctx p

/-- The write of an atomic operation. Nothing comes between its read and its write, so it takes its bank in the order of the commands
whatever else the mc brings (assumption 77, DESIGN CHOICE). -/
def writeAtomic (s : State) (ctx : Nat) (p : Piece) (bs : List SByte) : State :=
  markBlockWritten (writeLocal { s with mem := bankSettle s.mem p.addr p.len } p.key p.addr bs) ctx p

/-- Bytes dealt out over local pieces in order. -/
def writePieces (w : Writer) (ctx : Nat) : State → List Piece → List SByte → State
  | s, [], _ => s
  | s, p :: ps, bs => writePieces w ctx (writePiece s w ctx p (bs.take p.len)) ps (bs.drop p.len)

/-- Bytes of local pieces in order. -/
def readPieces (s : State) (ps : List Piece) : List SByte := ps.flatMap fun p => readLocal s p.key p.addr p.len

/-- A virtual range of a context read whole, when it translates to local pieces. -/
def readVirtual (s : State) (ctx va n : Nat) : Option (List SByte) :=
  match translate s ctx [(va, n, .r)] with
  | .ok ps => if ps.all fun p => p.pkg.isNone then some (readPieces s ps) else none
  | _ => none

/-! ## Hot blocks (R346) -/

/-- The lowest index of the table that holds no entry. -/
def freeHotIndex (l : List HotEntry) : Option Nat :=
  if l.length < 4096 then (List.range (l.length + 1)).find? fun i => !l.any (·.index == i) else none

/-- The index that a new block takes: the lowest free one (assumption 61), or that of the entry with the lowest count, the lowest
index first. -/
def hotIndex (l : List HotEntry) : Nat :=
  match freeHotIndex l with
  | some i => i
  | none => ((minBy (fun e => e.count * 4096 + e.index) l).map (·.index)).getD 0

/-- The table with an entry at its index, in rising index order. -/
def hotInsert (l : List HotEntry) (e : HotEntry) : List HotEntry :=
  insertBy (·.index) e (l.filter fun x => x.index != e.index)

def sameHot (ctx slot b : Nat) (x : HotEntry) : Bool := x.ctx == ctx && x.seg == slot && x.block == b

def freeHot (s : State) (ctx slot b : Nat) : State :=
  { s with seg.hot := ⟨s.seg.hot.east.filter fun x => !sameHot ctx slot b x, s.seg.hot.west.filter fun x => !sameHot ctx slot b x⟩ }

/-- The table of a half after one more billet of a block. -/
def raiseHot (l : List HotEntry) (ctx slot b : Nat) : List HotEntry :=
  if l.any (sameHot ctx slot b) then updWhere (sameHot ctx slot b) (fun e => { e with count := e.count + 1 }) l
  else hotInsert l { index := hotIndex l, ctx := ctx, seg := slot, block := b, count := 1 }

/-- One billet reaches an IN_HOST block: its count rises, and at the threshold a HOT record is written and the entry freed. -/
def countHot (s : State) (g : Segment) (b : Nat) : State :=
  let h := g.cfg.half
  let l := raiseHot (s.seg.hot.get h) g.cfg.ctx g.cfg.index b
  let s1 := { s with seg.hot := s.seg.hot.set h l }
  let thr := ((partCfg s (partOfCtx s g.cfg.ctx)).map (·.hotThreshold)).getD 64
  if l.any fun e => sameHot g.cfg.ctx g.cfg.index b e && e.count ≥ thr then
    blockRecord (freeHot s1 g.cfg.ctx g.cfg.index b) kHot g.cfg.ctx g.cfg.index b (g.cfg.start + b * blockSize)
  else s1

/-! ## Drains: acceptance (R336, R349) -/

/-- The front drain makes the other epoch current. -/
def startDrain (g : Segment) : Segment :=
  match g.drains with
  | d :: ds => if d.started then g else { g with epoch := !g.epoch, drains := { d with started := true } :: ds }
  | [] => g

/-- A drain of blocks first to first + count − 1 is accepted behind the segment's earlier ones. -/
def acceptDrain (s : State) (ctx slot : Nat) (act : DrainAct) (first count : Nat) (op : Option Nat) : State :=
  updSeg s ctx slot fun g => startDrain
    { g with drains := g.drains ++ [{ act := act, first := first, count := count, started := false, op := op, taken := s.time }] }

/-- The block's promotion is already accepted or under way. -/
def promoting (g : Segment) (b : Nat) : Bool :=
  isMoving (blockOf g b).st ||
    g.drains.any fun d => d.first == b && (match d.act with
      | .promote _ => true
      | _ => false)

/-- A promotion of an IN_HOST block that the mover starts (R339, R347). -/
def startPromotion (s : State) (ctx slot b : Nat) : State :=
  match getSeg s ctx slot with
  | none => s
  | some g =>
    if g.cfg.kind == .migratable && (blockOf g b).st == .inHost && !promoting g b then
      acceptDrain s ctx slot (.promote true) b 1 none
    else s

/-- What a translated billet does to the IN_HOST blocks it reaches: hot counts, and promotions of PREFER_DEVICE blocks. -/
def touchBlock (ctx : Nat) (s : State) (x : Nat × Nat) : State :=
  match getSeg s ctx x.1 with
  | none => s
  | some g =>
    let b := blockOf g x.2
    if b.st != .inHost then s
    else
      let s1 := if b.readMostly then s else countHot s g x.2
      if b.preferDevice then startPromotion s1 ctx x.1 x.2 else s1

def touchBlocks (s : State) (ctx : Nat) (ps : List Piece) : State :=
  (dedup (ps.filterMap fun p => p.block.map fun b => (p.slot, b))).foldl (touchBlock ctx) s

/-- Segments and epochs that a billet of a context touches (R336). -/
def touched (ctx : Nat) (ps : List Piece) : List (Nat × Nat × Bool) := dedup (ps.map fun p => (ctx, p.slot, p.epoch))

/-- A remote request of a billet enters or leaves the in-flight count of an epoch (R336). -/
def addInflight (up : Bool) (s : State) (x : Nat × Nat × Bool) : State :=
  updSeg s x.1 x.2.1 fun g =>
    let f := fun n => if up then n + 1 else n - 1
    if x.2.2 then { g with inflight1 := f g.inflight1 } else { g with inflight0 := f g.inflight0 }

end Sys2Proof.Machine
end

