-- ==== Sys2Proof/Machine/Link.lean ====
section
/-! DEFINITION. Frames and outstanding remote requests: the transaction header, sending, paths, windows and credits, partner state
changes (R384 to R390, R398). -/

namespace Sys2Proof.Machine

/-! ## Frames -/

/-- A frame before its CRC: the fields of the table "Transaction header". -/
structure Frame where
  rev   : Nat
  ty    : Nat
  src   : Nat
  dst   : Nat
  tag   : Nat
  seq   : Nat
  addr  : Nat
  spoil : Nat
  arg   : List Byte
  data  : List Byte
  deriving DecidableEq, Repr

/-- The bytes of a frame, CRC-32C at the end (R384). -/
def frameBytes (f : Frame) : List Byte :=
  let body := leBytes 1 f.rev ++ leBytes 1 f.ty ++ leBytes 2 f.src ++ leBytes 2 f.dst ++ leBytes 2 f.data.length ++
    leBytes 4 f.tag ++ leBytes 4 f.seq ++ leBytes 6 f.addr ++ leBytes 2 f.spoil ++ f.arg ++ f.data
  body ++ leBytes 4 (crc32c body).toNat

/-- A frame as received, with the raw SRC and DST fields; none when it is too short, its LEN disagrees with its bytes, or its CRC
fails. -/
def parseFrame (bs : List Byte) : Option Frame :=
  let n := bs.length
  if n < 36 then none
  else
    let body := bs.take (n - 4)
    if fieldAt bs 6 2 != n - 36 || fieldAt bs (n - 4) 4 != (crc32c body).toNat then none
    else some
      { rev := fieldAt bs 0 1, ty := fieldAt bs 1 1, src := fieldAt bs 2 2, dst := fieldAt bs 4 2, tag := fieldAt bs 8 4
        seq := fieldAt bs 12 4, addr := fieldAt bs 16 6, spoil := fieldAt bs 22 2, arg := (bs.drop 24).take 8
        data := (bs.drop 32).take (n - 36) }

/-- TYPE of a frame as received, whatever else is wrong with it. -/
def frameType (bs : List Byte) : Nat := fieldAt bs 1 1

/-- SPOIL bits of a payload: bit i for its bytes 256 i to 256 i + 255. -/
def spoilBits (bs : List SByte) : Nat :=
  ((chunksOf 256 bs).zipIdx).foldl (fun v x => if anyMarkS x.1 then v + 2 ^ x.2 else v) 0
where
  anyMarkS (l : List SByte) : Bool := l.any Prod.snd

/-- A payload with the marks that SPOIL gives its bytes. -/
def markPayload (spoil : Nat) (bs : List Byte) : List SByte := (bs.zipIdx).map fun x => (x.1, bit spoil (x.2 / 256))

/-! ## Partner states (R387) -/

def partnerCode : PartnerSt → Nat
  | .absent => 0
  | .training => 1
  | .active => 2
  | .slow => 3
  | .fenced => 4

/-- A transition of a partner record, with its partner-state event for the owner partition. -/
def setPartner (s : State) (num : Nat) (st : PartnerSt) : State :=
  match getPartner s num, partnerCfg s num with
  | some p, some c =>
    if p.st = st then s
    else
      let s1 := updPartner s num fun x => { x with st := st }
      raiseEvent s1 c.owner 0x000D 0 true num (partnerCode p.st * 16 + partnerCode st)
  | _, _ => s

def isUp (p : Partner) : Bool := p.st == .active || p.st == .slow

/-- The link of a path of a record is up; a remote port under a loop test at L6 passes no frames (R505). -/
def pathUp (s : State) (c : PartnerCfg) (path : Nat × Nat) : Bool :=
  !unitLooped s 6 c.half path.1 && s.rem.links.any fun l => l.1 == c.half && l.2.lc.val == path.1 && l.2.port.val == path.2

/-- The partner record that names a package (R382: at most one). -/
def recordOf (s : State) (pkg : Nat) : Option PartnerCfg := s.cfg.partners.find? (·.package == pkg)

/-- Window of write-class requests toward the partner (R390). -/
def windowOfRec (p : Partner) : Nat := if p.rev ≥ 3 then 4096 else 1024

/-- Largest payload toward the partner (R406). -/
def maxPayload (p : Partner) : Nat := if p.rev == 2 then 2048 else 4096

/-! ## Sending -/

def isWriteClass (ty : Nat) : Bool := 2 ≤ ty && ty ≤ 5

/-- The path of the next attempt: the next one in preference order whose link is up, from the one after `last`; the same path when
no other is up (R388). In Slow, a first attempt avoids the path of the last timeout when another is up. -/
def choosePath (s : State) (c : PartnerCfg) (p : Partner) (last : Option Nat) : Nat :=
  let n := c.paths.length
  let up := fun i => match c.paths[i]? with
    | some x => pathUp s c x
    | none => false
  match last with
  | some i => (((List.range (n - 1)).map fun k => (i + 1 + k) % n).find? up).getD i
  | none =>
    let avoid := if p.st == .slow then p.badPath else none
    match (List.range n).find? fun i => up i && some i != avoid with
    | some i => i
    | none => ((List.range n).find? up).getD 0

/-- Write-class requests outstanding and lines in flight at a partner: those of which a frame has been sent (R390, R398). -/
def inFlight (s : State) (num : Nat) : Nat × Nat :=
  let l := s.rem.outReqs.filter fun o => o.num == num && o.onWire
  ((l.filter fun o => isWriteClass o.ty).length, (l.map (·.lines)).foldl (· + ·) 0)

def outFrame (s : State) (c : PartnerCfg) (p : Partner) (o : OutReq) : List Byte :=
  frameBytes { rev := p.rev, ty := o.ty, src := s.cfg.pkg, dst := c.package, tag := o.tag, seq := o.seq.getD 0, addr := o.addr
               spoil := o.spoil, arg := o.arg, data := o.payload }

/-- The outstanding request with a tag toward a record. -/
def outReq (s : State) (num tag : Nat) : Option OutReq := s.rem.outReqs.find? fun o => o.num == num && o.tag == tag

def updOut (s : State) (num tag : Nat) (f : OutReq → OutReq) : State :=
  { s with rem.outReqs := updWhere (fun o => o.num == num && o.tag == tag) f s.rem.outReqs }

/-- One attempt of a request (R388, R389): on an Active or Slow record its frame is sent; on another it only counts as sent. -/
def sendAttempt (s : State) (num tag : Nat) : State :=
  match partnerCfg s num, getPartner s num, outReq s num tag with
  | some c, some p, some o =>
    let first := o.attempts == 0
    let path := choosePath s c p (if first then none else some o.path)
    let fresh := isUp p && isWriteClass o.ty && o.seq.isNone
    let o' := { o with attempts := o.attempts + 1, path := path, sentAt := s.time, waiting := false
                       seq := if fresh then some p.txSeq else o.seq, onWire := o.onWire || isUp p }
    let s1 := updOut s num tag fun _ => o'
    let s2 := if fresh then updPartner s1 num fun p => { p with txSeq := (p.txSeq + 1) % 2 ^ 32 } else s1
    if isUp p then { s2 with out.frames := (num, path, outFrame s2 c p o') :: s2.out.frames } else s2
  | _, _, _ => s

/-- The window and the partner's credit let the request's frame go out (R390, R398); a request in flight needs no more room. -/
def hasRoom (s : State) (p : Partner) (o : OutReq) : Bool :=
  o.onWire || (let f := inFlight s o.num
    (!isWriteClass o.ty || f.1 < windowOfRec p) && f.2 + o.lines ≤ p.credit)

/-- A request that finds its record down first waits for it to wake (R389, R462). -/
def waitsForWake (c : PartnerCfg) (p : Partner) (o : OutReq) : Bool :=
  !isUp p && p.st != .fenced && o.attempts == 0 &&
    (o.wakeWait == some true || (o.wakeWait.isNone && ((c.wake.isSome && p.st == .absent) || (p.bankWake && p.wakeUntil.isSome))))

/-- The wake ordered set goes out on lane 0 of every path of the record (R407). -/
def sendWakeSet (s : State) (num : Nat) : State :=
  match partnerCfg s num with
  | none => s
  | some c =>
    let s1 := updPartner s num fun p => { p with setAt := s.time }
    c.paths.foldl (fun s path =>
      let mine := fun (x : Nat × (Nat × Nat) × Nat) => x.1 == num && x.2.1 == path
      let sets := if s.out.wakeSets.any mine then updWhere mine (fun x => (x.1, x.2.1, x.2.2 + 1)) s.out.wakeSets
        else (num, path, 1) :: s.out.wakeSets
      { s with out.wakeSets := sets }) s1

/-- A request begins to wait for a record with Wake to wake: with the first one the wake ordered set and the wake limit start (R389,
R407). -/
def beginWake (s : State) (num tag : Nat) : State :=
  let s1 := updOut s num tag fun o => { o with wakeWait := some true }
  match partnerCfg s num, getPartner s num with
  | some c, some p =>
    match c.wake with
    | some limit =>
      if p.st == .absent && p.wakeUntil.isNone then
        sendWakeSet (updPartner s1 num fun p => { p with wakeUntil := some (s.time + mcOf limit) }) num
      else s1
    | none => s1
  | _, _ => s1

/-- A request that waits is attempted, or waits on: for the record to wake, or for window and credit. -/
def pumpOne (num : Nat) (s : State) (tag : Nat) : State :=
  match partnerCfg s num, getPartner s num, outReq s num tag with
  | some c, some p, some o =>
    if !o.waiting then s
    else if waitsForWake c p o then beginWake s num tag
    else if !isUp p || hasRoom s p o then sendAttempt s num tag
    else s
  | _, _, _ => s

/-- Requests that wait and may be attempted are, in the order in which they were made. -/
def pump (s : State) (num : Nat) : State :=
  ((s.rem.outReqs.filter fun o => o.num == num && o.waiting).map (·.tag)).foldl (pumpOne num) s

/-- A further attempt of a request falls due (R388). -/
def retryOut (s : State) (num tag : Nat) : State := pumpOne num (updOut s num tag fun o => { o with waiting := true }) tag

/-- What a new remote request carries. -/
structure NewReq where
  ty      : Nat
  purpose : Purpose
  req     : Option Nat
  word    : Nat
  addr    : Nat
  payload : List SByte
  arg     : List Byte
  rlen    : Nat
  segs    : List (Nat × Nat × Bool)

/-- Lines that a request takes of the partner's credit (R398). -/
def linesOf (n : NewReq) : Nat :=
  if n.ty == 1 then ceilDiv n.rlen 256 else if n.ty == 3 || n.payload.isEmpty then 1 else ceilDiv n.payload.length 256

/-- A new remote request toward a record: it takes the next tag, and is attempted at once when it may be. -/
def newRemote (s : State) (num : Nat) (n : NewReq) : State × Nat :=
  match getPartner s num with
  | none => (s, 0)
  | some p =>
    let tag := p.nextTag
    let o : OutReq :=
      { num := num, tag := tag, purpose := n.purpose, req := n.req, word := n.word, addr := n.addr
        payload := n.payload.map Prod.fst, spoil := spoilBits n.payload, arg := n.arg, seq := none, onWire := false, wakeWait := none, ty := n.ty, rlen := n.rlen
        attempts := 0, path := 0, sentAt := s.time, lines := linesOf n, segs := n.segs, waiting := true }
    let s1 := updPartner s num fun p => { p with nextTag := (p.nextTag + 1) % 2 ^ 32 }
    let s2 := { s1 with rem.outReqs := s1.rem.outReqs ++ [o] }
    (pumpOne num (n.segs.foldl (addInflight true) s2) tag, tag)

/-- The request is outstanding no more: its tag rests for 1 ms (R388), and its billet leaves the in-flight counts (R336). -/
def dropOut (s : State) (num tag : Nat) : State :=
  match outReq s num tag with
  | none => s
  | some o =>
    let s1 := { s with rem.outReqs := s.rem.outReqs.filter fun x => !(x.num == num && x.tag == tag) }
    let s2 := updPartner s1 num fun p =>
      { p with recent := { tag := tag, ended := s.time, ty := o.ty, rlen := o.rlen, seq := o.seq.getD 0 } ::
                 p.recent.filter fun x => s.time < x.ended + 2100000 }
    o.segs.foldl (addInflight false) s2

/-- A range of remote bytes cut into transactions: none crosses a 4 KiB bound of the target offset (R386). -/
def remoteCuts (maxLen : Nat) : Nat → Nat → Nat → List (Nat × Nat)
  | 0, _, _ => []
  | f + 1, a, n =>
    if n = 0 then []
    else
      let k := min n (maxLen - a % maxLen)
      (a, k) :: remoteCuts maxLen f (a + k) (n - k)

end Sys2Proof.Machine
end

