-- ==== Sys2Proof/Machine/Requests.lean ====
section
/-! DEFINITION. Requests: parking, the effects that wait for responses, the causes that end or continue a request, ledger entries
and records that fall due (R75, R76, R105 to R109, R115, R116, R291, R417). -/

namespace Sys2Proof.Machine

/-! ## Waiting and parking -/

/-- Parking records of a context that are in use. -/
def usedParking (s : State) (ctx : Nat) : List Nat := (s.run.reqs.filter fun r => r.ctx == ctx).filterMap (·.parkedIn)

/-- The lowest free parking record of a context (R75, R76). Which free record a request takes is open; the model takes the lowest
(assumption 59, DESIGN CHOICE). -/
def freeParking (s : State) (ctx : Nat) : Option Nat :=
  (List.range (((stagingCfg s ctx).map (·.parking)).getD 0)).find? fun i => !(usedParking s ctx).contains i

/-- Local address of a parking record (R75, R232). -/
def parkingLocal (s : State) (ctx i : Nat) : Nat :=
  match stagingCfg s ctx with
  | some g => stockBase g.half + g.offset + i * 1024
  | none => 0

/-- Waits that do not park (R111, R137, R139). -/
def waitParks : Wait → Bool
  | .tongs => false
  | .feed _ => false
  | .remote => false
  | .fence => false
  | .seam _ => false
  | _ => true

/-- The hauler's port buffers are emptied: on resumption they fill again from the same line on (R320). -/
def emptyBuffers (q : LineQueue) : LineQueue := { q with buffers := [], stream := q.buffers ++ q.stream }

/-- The arbiters forget a requester that has lowered its requests at every port (R320). -/
def lowerRequests (s : State) (w : Requester) : State :=
  { s with arb.ports := s.arb.ports.map fun p =>
      { p with raised := p.raised.filter (·.1 != w), eligible := p.eligible.filter (·.1 != w) } }

/-- A request parks (R75): 1 KiB goes to a parking record, its Tongs slot is released and what it holds is discarded (R143), its port
buffers are emptied (R320), and it leaves its hauler. One that has ended keeps its slot until its record is written (R142). Without a free
record it stays on its hauler to the end of the wait (R76). The manual gives the record no format: its bytes are free values, and the
request itself stands in `run` (assumption 59, DESIGN CHOICE). -/
def park (s : State) (r : Request) : State :=
  match freeParking s r.ctx with
  | none => setReq s { r with stays := true }
  | some i =>
    let bs := good ((List.range 1024).map (Config.parkByte s.run.nextWait))
    setReq (lowerRequests (writeBank s (.hauler (r.hauler.getD 128)) none (parkingLocal s r.ctx i) bs) (.request r.id))
      { r with hauler := none, tongs := if r.fin.isSome then r.tongs else none, parkedIn := some i, lines := emptyBuffers r.lines
               kept := [], pass := { r.pass with slot := [] } }

/-- The request as it begins a wait. -/
def startWait (s : State) (r : Request) (w : Wait) : Request :=
  { r with wait := some w, waitAt := s.time, waitHaul := r.hauler.getD 128, waitSeq := s.run.nextWait, stays := false, latched := none }

/-- The request begins a wait, or goes on with the one it has: it parks when the wait is one that parks, unless this wait began
without a free parking record. -/
def beginWait (s : State) (r : Request) (w : Wait) : State :=
  let fresh := r.wait != some w
  let r1 := if fresh then startWait s r w else r
  let s1 := if waitParks w && r1.hauler.isSome && !r1.stays then park s r1 else setReq s r1
  if fresh then { s1 with run.nextWait := s1.run.nextWait + 1 } else s1

/-- Order in which requests began to wait: by mc, the lower hauler number first within one mc, then by the order of the commands (R91,
R97, R98, R114, R137, R139, R344). -/
def waitKey (r : Request) : Nat := (r.waitAt * 256 + r.waitHaul) * 2 ^ 48 + r.waitSeq

/-- The order of a request that begins the wait `w` now, or has begun it. -/
def keyFor (s : State) (r : Request) (w : Wait) : Nat := if r.wait == some w then waitKey r else waitKey (startWait s r w)

/-! ## Rings: release (R98, R240) -/

/-- Billets released out of order are counted once every earlier one is (R98). -/
def advanceReleased (now : Mc) : Nat → RingSt → RingSt
  | 0, x => x
  | f + 1, x =>
    if x.early.contains x.released then
      advanceReleased now f
        { x with early := x.early.filter (· != x.released), released := x.released + 1, relTimes := now :: x.relTimes }
    else x

/-- A billet is released; H advances in billet order. -/
def releaseBillet (s : State) (ctx ring billet : Nat) : State :=
  updRing s ctx ring fun x =>
    let y := { x with early := x.early ++ [billet], relTimes := x.relTimes.filter fun t => s.time < t + 4 }
    advanceReleased s.time y.early.length y

/-- A reserved entry of a handle queue that is never filled is freed (R96, R115). -/
def freeHandleEntries (s : State) (id : Nat) : State :=
  { s with buf.handles := s.buf.handles.map fun q =>
      { q with entries := q.entries.filter fun e => !(e.req == id && e.val.isNone) } }

/-! ## Records (R287) -/

/-- A record becomes ready: records wait in the order of their mc, with the lower hauler number first within one mc (R291). -/
def readyRecord (s : State) (r : PendingRec) : State :=
  let key := fun (x : PendingRec) => x.ready * 256 + x.haul
  { s with q.records := insertBy key { r with ready := s.time } s.q.records }

/-- Completion queue of a submission queue; the admin completion queue of an admin queue (R270). -/
def cqOf (s : State) (qid : Nat) : Nat := if qid < 16 then qid else ((sqCfg s qid).map (·.cq)).getD 0

/-- A record that completes an entry without a request. -/
def entryRecord (s : State) (qid tag : Nat) (irq : Bool) (status detail : Nat) : PendingRec :=
  { cq := cqOf s qid, qid := qid, tag := tag, status := status, bytes := 0, spoiled := 0, ledger := 0, detail := detail
    irq := irq, req := none, admin := if qid < 16 then some qid else none, rep := none, ready := s.time, haul := 128
    flash := none }

/-! ## Causes -/

/-- The program word at which a cause arises (table "Fault detail"). -/
def wordDetail (r : Request) : Nat := r.pc % 8192

/-- A continuing cause: the earliest in program order is kept (R116). Within one execution, another cause comes before spoiled lines,
as R212 completes an EXPAND whose check failed with SIZE_MISMATCH. -/
def noteCause (r : Request) (status : Nat) : Request :=
  let lines := status == stOkSpoiled
  let now := { r with cause := some (status, wordDetail r), pass := { r.pass with onlyLines := lines } }
  match r.cause with
  | some _ => if r.pass.onlyLines && !lines then now else r
  | none => now

/-- The committed priority of a queue that is in force (R322). -/
def prioNow (s : State) (q : SubQueue) : Nat :=
  match q.prioUntil with
  | some (m, p) => if s.time ≤ m then p else q.committed
  | none => q.committed

/-- `n` lines delivered spoiled are counted (R116). -/
def noteSpoiled (r : Request) (n : Nat) : Request :=
  if n = 0 then r else noteCause { r with spoiled := capAt 0xFFFFFFFF (r.spoiled + n) } stOkSpoiled

/-! ## Ledger parts (R413, R417) -/

def ledgered (s : State) (ctx : Nat) : Bool := ((ctxCfg s ctx).map (·.ledgered)).getD false

def digestTree (stream : List Byte) : List Byte :=
  if stream.isEmpty then zeros 32
  else sha256 (1#8 :: (chunksOf 4096 stream).flatMap fun leaf => sha256 (0#8 :: leaf))

/-- Bytes of an entry replaced from offset `i` on. -/
def patchAt (i : Nat) (v bs : List Byte) : List Byte := bs.take i ++ v ++ bs.drop (i + v.length)

/-- The partition's ledger queue can take an entry (R425). -/
def ledgerRoom (s : State) (p : Nat) : Bool :=
  let l := getLedger s p
  l.enabled && (l.records + 2 ^ 32 - l.head) % 2 ^ 32 < 2 ^ l.log

/-- mc in which a closed entry reaches the East ledger unit: one of the West half crosses the Seam, in 24 mc (R18, R419). -/
def reachTime (e : LedEntry) : Mc := e.closed.getD 0 + (if e.half == .west then 24 else 0)

/-- Order of closed entries: by the mc in which they reach the East ledger unit; within one mc East before West, a lower hauler number
before a higher one, and an entry of no hauler last (R419). -/
def entryKey (e : LedEntry) : Nat := (reachTime e * 2 + (if e.half == .west then 1 else 0)) * 256 + e.haul

/-- Closed entries in the order in which they are written. -/
def closedEntries (l : LedgerSt) : List LedEntry := sortBy entryKey (l.waiting.filter (·.closed.isSome))

/-- The queue can take the closed entry at place `i` of those that wait, with the RESUME and the SEALs that come before it (R421, R423,
R425). -/
def placeFits (l : LedgerSt) (i : Nat) : Bool :=
  let before := (if l.resume.isSome then 1 else 0) + l.seals.length + (l.sinceSeal + i) / 4096
  l.enabled && (l.records + 2 ^ 32 - l.head) % 2 ^ 32 + before + i < 2 ^ l.log

/-- Closed entries that the queue cannot take now are held until they are written (R425). -/
def judgeHeld (s : State) (p : Nat) : State :=
  updLedger s p fun l =>
    let order := closedEntries l
    { l with waiting := l.waiting.map fun e =>
        if e.closed.isSome && !placeFits l (order.findIdx (· == e)) then { e with held := true } else e }

/-- An entry of the request is held. -/
def entryHeld (s : State) (r : Request) : Bool :=
  (getLedger s (partOfCtx s r.ctx)).waiting.any fun e => e.req == some r.id && e.held

/-! ## Lines that have no answer (R107, R319, R325) -/

/-- The flights of a requester at every port. -/
def flightsOf (s : State) (w : Requester) : List Flight := s.arb.ports.flatMap fun p => p.flight.filter (·.who == w)

/-- Some line of the request that meets `p` is not issued, or issued and not answered. -/
def lineOpen (s : State) (r : Request) (p : Line → Bool) : Bool :=
  r.lines.buffers.any p || r.lines.stream.any p || (flightsOf s (.request r.id)).any fun f => p f.line

/-- A line write numbered below `n` has no response (R108). -/
def writesOpen (s : State) (r : Request) (n : Nat) : Bool := lineOpen s r fun l => l.write && l.seq < n

/-- Every line of the request has been issued (R319). -/
def allIssued (r : Request) : Bool := r.lines.buffers.isEmpty && r.lines.stream.isEmpty

/-- A pass that is over gives its Tongs slot up once its lines are issued (R138); one cut short keeps it (R142). -/
def dropSlot (r : Request) : Request := if allIssued r && !r.pass.started && r.fin.isNone then { r with tongs := none } else r

/-- The scale record that waits is appended once the execution's destination lines are issued (R178): the channel's history keeps its
newest W. -/
def appendIssued (s : State) (id : Nat) : State :=
  match getReq s id with
  | none => s
  | some r =>
    match r.record with
    | none => s
    | some x =>
      if (r.lines.buffers ++ r.lines.stream).any fun l => decide (l.seq < x.upto) then s
      else
        let w := ((channelCfg s r.ctx x.channel).map (·.w)).getD 0
        updChannel (setReq s { r with record := none }) r.ctx x.channel fun y =>
          let h := y.history ++ [x.pair]
          { y with history := h.drop (h.length - w) }

/-- What the issue of a line of a request lets happen. -/
def afterIssue (s : State) (id : Nat) : State :=
  appendIssued { s with run.reqs := updWhere (·.id == id) (fun r => dropSlot { r with active := s.time }) s.run.reqs } id

/-- Data or a response has come for a request (R487). -/
def noteActive (s : State) (id : Nat) : State := { s with run.reqs := updWhere (·.id == id) (fun r => { r with active := s.time }) s.run.reqs }

/-! ## Closing of ledger entries (R416, R419) -/

/-- Every output write of the entry has its response. -/
def entryReady (s : State) (e : LedEntry) : Bool :=
  e.needs.isEmpty && (match e.req.bind (getReq s) with
    | some r => !writesOpen s r e.upto
    | none => true)

/-- An entry that is ready closes: it takes TIME (table "Ledger entry"). -/
def closeIfReady (s : State) (e : LedEntry) : LedEntry :=
  if e.closed.isNone && entryReady s e then
    { e with closed := some s.time, bytes := patchAt 240 (leBytes 6 (s.time % 2 ^ 48)) e.bytes }
  else e

/-- Entries of a partition close as far as they are ready. -/
def closeEntries (s : State) (p : Nat) : State :=
  judgeHeld (updLedger s p fun l => { l with waiting := l.waiting.map (closeIfReady s) }) p

def addEntry (s : State) (p : Nat) (e : LedEntry) : State :=
  closeEntries (updLedger s p fun l => { l with waiting := l.waiting ++ [e] }) p

/-- The 256 bytes of a REQUEST entry, SEQ, CHAIN, PREV, TIME and PHASE zero (table "Ledger entry"). -/
def requestEntry (s : State) (r : Request) (last : Bool) (status : Nat) : List Byte :=
  let l := r.led
  let flags := (if l.spoiled then 1 else 0) + (if l.part > 0 then 2 else 0) + (if last then 4 else 0)
  leBytes 1 1 ++ leBytes 1 (profileOf s r.ctx) ++ leBytes 1 flags ++ leBytes 1 l.marks.length ++ leBytes 4 s.cfg.gen ++
    zeros 8 ++ zeros 4 ++ leBytes 1 r.ctx ++ leBytes 1 (partOfCtx s r.ctx) ++ leBytes 2 r.qid ++ leBytes 4 r.tag ++
    leBytes 2 (if last then status else 0) ++ leBytes 2 l.part ++ zeros 32 ++
    sha256 (r.program.flatMap fun w => leBytes 8 w.toNat) ++
    sha256 (leBytes 2 r.pmask ++ r.params0.flatMap fun w => leBytes 8 w.toNat) ++
    digestTree l.input ++ digestTree l.output ++ leBytes 8 l.input.length ++ leBytes 8 l.output.length ++
    (List.range 4).flatMap (fun i => leBytes 8 (l.marks.getD i 0).toNat) ++ zeros 16

/-- The request's open entry ends (R417): the entry waits to close and to be written, and the next part opens. -/
def closePart (s : State) (r : Request) (last : Bool) (status : Nat) : State :=
  let e : LedEntry :=
    { kind := 1, bytes := requestEntry s r last status, req := some r.id, needs := r.writes, upto := r.lines.next, inbound := none
      release := [], closed := none, half := r.half, haul := r.hauler.getD 128, held := false }
  let s1 := setReq s { r with led := { input := [], output := [], marks := [], spoiled := false, part := r.led.part + 1 } }
  addEntry s1 (partOfCtx s r.ctx) e

/-- The open entry holds anything: stream bytes or a mark (R417). -/
def partHolds (l : LedgerPart) : Bool := !l.input.isEmpty || !l.output.isEmpty || !l.marks.isEmpty

/-- An entry of the request still waits to be written. -/
def entryWaits (s : State) (r : Request) : Bool :=
  (getLedger s (partOfCtx s r.ctx)).waiting.any fun e => e.req == some r.id

/-- The input part takes what an instruction read, in source order (R413). -/
def flushInputs (r : Request) : Request :=
  { r with led := { r.led with input := r.led.input ++ r.pass.inputs.flatMap Prod.snd }
           pass := { r.pass with inputs := [] } }

/-! ## Zero-length reads on the host ports (R107) -/

/-- Every host write of the request has its response. -/
def hostAnswered (r : Request) : Request := { r with hostWrites := ⟨[], []⟩, pass := { r.pass with hostBase := ⟨0, 0⟩ } }

/-- A request that waits for its host writes has one zero-length read made on each port that holds some. A host write of the model is
complete in its step, and so is the read's answer (assumption 8). -/
def askHost (s : State) (r : Request) : State :=
  let ask := fun (s : State) (h : Half) =>
    if (r.hostWrites.get h).isEmpty then s else { s with out.zeroReads := s.out.zeroReads.set h (s.out.zeroReads.get h + 1) }
  setReq (ask (ask s .east) .west) (hostAnswered r)

/-! ## Settling: the final record falls due (R106, R115, R417) -/

def cqDepth (s : State) (q : Nat) : Nat := if q < 16 then 64 else ((cqCfg s q).map (·.depth)).getD 16

/-- An ENABLED completion queue without a free entry. -/
def cqFull (s : State) (q : Nat) : Bool :=
  ((getCq s q).map fun c => c.st == .enabled && decide (cqDepth s q ≤ (c.count + 2 ^ 32 - c.head) % 2 ^ 32)).getD false

/-- An ended request that must wait gives up its hauler when a parking record is free (R291, R425). -/
def parkEnded (s : State) (id : Nat) : State :=
  match getReq s id with
  | some r => if r.hauler.isSome && !r.stays then park s r else s
  | none => s

/-- A request whose entry is held parks: an ended one at its end, another at the instruction to which it has come (R425). -/
def parkOne (s : State) (r : Request) : State :=
  if r.fin.isSome then parkEnded s r.id
  else if r.wait.isNone && r.hauler.isSome && !r.program.isEmpty then beginWait s r .entry
  else s

/-- The requests of the partition whose entries are held park. -/
def parkHeld (s : State) (p : Nat) : State :=
  (dedup (((getLedger s p).waiting.filter (·.held)).filterMap (·.req))).foldl (fun s id => match getReq s id with
    | some r => parkOne s r
    | none => s) s

/-- Requests that wait with a record for a full completion queue park: an ended one at its end, another at the instruction that it has
come to (R105, R291). -/
def parkRecords (s : State) (cq : Nat) : State :=
  if !cqFull s cq then s
  else (s.q.records.filter (·.cq == cq)).foldl (fun s x =>
    match x.req, x.rep.bind (getReq s) with
    | some id, _ => parkEnded s id
    | none, some r => if r.wait.isNone && r.fin.isNone then beginWait s r (.record cq) else s
    | none, none => s) s

/-- The completion record of a request that has ended. -/
def finalRecord (s : State) (r : Request) (st dt : Nat) : PendingRec :=
  { cq := cqOf s r.qid, qid := r.qid, tag := r.tag, status := st, bytes := r.bytes, spoiled := r.spoiled
    ledger := (r.lastSeq.getD 0) % 2 ^ 32, detail := dt, irq := r.irq, req := some r.id, admin := none, rep := none
    ready := s.time, haul := r.hauler.getD 128, flash := none }

/-- Once the request has ended, every write has its response and every effect is done, its last ledger entry closes, and once that
is written its completion record becomes ready. -/
def settle (s : State) (id : Nat) : State :=
  match getReq s id with
  | none => s
  | some r =>
    match r.fin with
    | none => s
    | some (st, dt) =>
      if !r.writes.isEmpty || !r.effects.isEmpty || lineOpen s r (·.write) || s.q.records.any (fun x => x.req == some id) then s
      else if ledgered s r.ctx && (partHolds r.led || (r.lastPart == false && r.led.part > 0)) then
        match getReq (closePart s r true st) id with
        | some r' =>
          let s1 := setReq (closePart s r true st) { r' with lastPart := true }
          if entryHeld s1 r then parkEnded s1 id else s1
        | none => s
      else if entryWaits s r then s
      else parkRecords (readyRecord (askHost s { r with stays := false }) (finalRecord s r st dt)) (cqOf s r.qid)

/-! ## Effects in program order (R108, R109) -/

/-- mc from a release condition to the counter's home (R365). -/
def releaseDelay (ctr : Nat) (h : Half) : Nat := if homeOfCtr ctr = h then 6 else 30

/-- An update to a local counter starts on its way (R362, R365). Nothing goes toward a half in half reset (R34). -/
def sendUpdate (s : State) (ctr amount gen : Nat) (h : Half) (due : Mc) : State :=
  if s.halfReset.get (homeOfCtr ctr) && homeOfCtr ctr != h then s
  else { s with ctr.updates := s.ctr.updates ++ [{ ctr := ctr, amount := amount, gen := gen, half := h, due := due }] }

/-- Generation of a counter as the present moment sees it at its home. -/
def genOf (s : State) (ctr : Nat) : Nat := ((getCtr s ctr).map (·.gen)).getD 0

/-- The head effect of a request is done. -/
def popEffect (s : State) (r : Request) : State := setReq s { r with effects := r.effects.drop 1 }

def isSent : Effect → Bool
  | .sent _ => true
  | _ => false

/-- SIGNALs that have taken effect by `now` leave the head of the list. -/
def dropSent (now : Mc) (es : List Effect) : List Effect :=
  es.dropWhile fun e => match e with
    | .sent due => due ≤ now
    | _ => false

/-- The entry of a record with Fenced state answers no RSIGNAL (R392). -/
def recordFenced (s : State) (num : Nat) : Bool := ((getPartner s num).map fun p => p.st == .fenced).getD true

/-- What the release of an effect leads to: the next one may follow, none follows now, or the request fails with a status at a word. -/
inductive Released where
  | more (s : State)
  | done (s : State)
  | failed (s : State) (status word : Nat)

/-- The first effect that is not on its way, when the responses that it needs have come. A SIGNAL to a local counter is sent behind
those that are on their way and takes effect no earlier; every other effect waits until they have taken effect. -/
def releaseHead (s : State) (r : Request) : Released :=
  let ahead := r.effects.takeWhile isSent
  match r.effects.drop ahead.length with
  | .signal vid n gen word [] upto :: es =>
    if writesOpen s r upto then .done s
    else match vEntry s r.ctx vid with
      | .loc c _ _ =>
        let due := max (s.time + releaseDelay c r.half) r.lastDue
        .more (sendUpdate (askHost s { r with lastDue := due, effects := ahead ++ .sent due :: es }) c n gen r.half due)
      | .remote num e _ =>
        if !ahead.isEmpty then .done s
        else if recordFenced s num then .failed (setReq s { r with effects := [] }) stPartnerFenced word
        else
          let s1 := askHost s { r with effects := es }
          let (s2, tag) := newRemote s1 num
            { ty := 5, purpose := .signal, req := some r.id, word := word, addr := e * 2 ^ 38, payload := []
              arg := leBytes 4 n ++ zeros 4, rlen := 0, segs := [] }
          match getReq s2 r.id with
          | some r2 => .done (setReq s2 { r2 with effects := .rsignal tag :: r2.effects, writes := r2.writes ++ [tag] })
          | none => .done s2
      | .unmapped => .more (setReq s { r with effects := ahead ++ es })
  | .report code irq bytes spoiled _ :: _ =>
    if !ahead.isEmpty || s.q.records.any (fun x => x.rep == some r.id) then .done s
    else
      let cq := cqOf s r.qid
      .done (parkRecords (readyRecord s
        { cq := cq, qid := r.qid, tag := r.tag, status := if spoiled > 0 then stOkSpoiled else stOk, bytes := bytes
          spoiled := spoiled, ledger := (r.lastSeq.getD 0) % 2 ^ 32, detail := 0x8000 + code % 0x8000, irq := irq, req := none
          admin := none, rep := some r.id, ready := s.time, haul := r.hauler.getD 128, flash := none }) cq)
  | _ => .done s

def releaseLoop : Nat → State → Nat → Released
  | 0, s, _ => .done s
  | f + 1, s, id =>
    match getReq s id with
    | none => .done s
    | some r =>
      let r1 := { r with effects := dropSent s.time r.effects }
      match releaseHead (setReq s r1) r1 with
      | .more s1 => releaseLoop f s1 id
      | x => x

/-! ## Ending (R115) -/

/-- Effects that an ended request still makes: SIGNALs, ring publications and REPORTs before the failing point (R115), but for those
that stand behind a failed write. -/
def keepEffect (failed : List Nat) : Effect → Bool
  | .signal _ _ _ _ ns _ => ns.all fun t => !failed.contains t
  | .ringPublish _ _ ns _ => ns.all fun t => !failed.contains t
  | .report _ _ _ _ ns => ns.all fun t => !failed.contains t
  | .rsignal t => !failed.contains t
  | _ => true

def isHandle : Effect → Bool
  | .handlePublish _ _ _ _ _ => true
  | _ => false

/-- The effects before the first one that can never take effect (R109); a handle that is not yet in its entry is never put there (R96,
R115). -/
def keepEffects (failed : List Nat) (es : List Effect) : List Effect :=
  (es.filter fun e => !isHandle e).takeWhile (keepEffect failed)

/-- Billets whose publication is among effects. -/
def publications (es : List Effect) : List (Nat × Nat) := es.filterMap fun e => match e with
  | .ringPublish g b _ _ => some (g, b)
  | _ => none

/-- A claimed and unpublished billet whose fill is cut short stays claimed (R239). -/
def loseBillets (ctx : Nat) (s : State) (bs : List (Nat × Nat)) : State :=
  bs.foldl (fun s b => updRing s ctx b.1 fun x => { x with lost := x.lost ++ [b.2] }) s

def isReport : Effect → Bool
  | .report _ _ _ _ _ => true
  | _ => false

/-- The request keeps the effects `es` and loses the others: their billets stay claimed, its unfilled handle entries are freed, and a
REPORT among them whose record waits for room is not written. -/
def cutEffects (s : State) (r : Request) (es : List Effect) : State :=
  let gone := (publications r.effects).filter fun b => !(publications es).contains b
  let s1 := if es.any isReport then s else { s with q.records := s.q.records.filter (·.rep != some r.id) }
  freeHandleEntries (loseBillets r.ctx (setReq s1 { r with effects := es }) gone) r.id

/-- A request ends with a status at word `detail`; one that has ended already keeps its end. Its unissued lines are dropped (R320), with
the scale record that waits for them (R178), and its Tongs slot stays taken until its completion record is written (R142). The bytes of
dropped lines of earlier billets stay counted in its bytes moved and in the ledger's output stream: the manual does not say what BYTES then
holds (assumption 73, DESIGN CHOICE). -/
def endCore (s : State) (id status detail : Nat) (failed : List Nat) : State :=
  match getReq s id with
  | none => s
  | some r =>
    if r.fin.isSome then s
    else
      let r0 := flushInputs r
      let r1 := { r0 with fin := some (status, detail), wait := none, latched := none, stays := false, held := [], mods := []
                          filling := none, record := none, kept := []
                          writes := r.writes.filter (!failed.contains ·), lines := { r.lines with buffers := [], stream := [] }
                          tongs := if r.pass.started then r.tongs else none
                          pass := { r0.pass with opened := none } }
      let s1 := r.held.foldl (fun s h => releaseBillet s r.ctx h.1 h.2) (setReq (lowerRequests s (.request id)) r1)
      cutEffects (loseBillets r.ctx s1 r.filling.toList) r1 (keepEffects failed r.effects)

/-- How HALT ends a request: its earliest continuing cause, or OK (R116). -/
def haltEnd (r : Request) : Nat × Nat := r.cause.getD (stOk, 0)

/-- A remote write fails (R392): the request ends with `status`, also when it has run to HALT, and what waited for the write never
takes effect (R109). -/
def failCore (s : State) (id status word : Nat) (failed : List Nat) : State :=
  match getReq s id with
  | none => s
  | some r =>
    match r.fin with
    | none => endCore s id status word failed
    | some f =>
      let r1 := { r with fin := if f == haltEnd r then some (status, word) else r.fin, writes := r.writes.filter (!failed.contains ·) }
      cutEffects (setReq s r1) r1 (keepEffects failed r.effects)

/-- Effects of a request take place as far as responses and order let them, and the request's end follows. -/
def releaseEffects (s : State) (id : Nat) : State :=
  match getReq s id with
  | none => s
  | some r =>
    let p := partOfCtx s r.ctx
    let led := ledgered s r.ctx
    let s2 := match releaseLoop (r.effects.length + 1) (if led then closeEntries s p else s) id with
      | .more s1 => settle s1 id
      | .done s1 => settle s1 id
      | .failed s1 st w => settle (failCore s1 id st w []) id
    if led then parkHeld s2 p else s2

/-- A new effect of a request, behind its earlier ones. -/
def addEffect (s : State) (r : Request) (e : Effect) : State :=
  releaseEffects (setReq s { r with effects := r.effects ++ [e] }) r.id

/-- Tags that an effect waits for, changed by `f`. -/
def mapNeeds (f : List Nat → List Nat) : Effect → Effect
  | .signal v n g w ns u => .signal v n g w (f ns) u
  | .ringPublish a b ns u => .ringPublish a b (f ns) u
  | .handlePublish a b c ns u => .handlePublish a b c (f ns) u
  | .report c i b p ns => .report c i b p (f ns)
  | e => e

def isRsignal (tag : Nat) : Effect → Bool
  | .rsignal t => t == tag
  | _ => false

/-- Tags that the ledger entries of a request wait for, changed by `f`. -/
def mapEntryNeeds (s : State) (r : Request) (f : List Nat → List Nat) : State :=
  updLedger s (partOfCtx s r.ctx) fun l =>
    { l with waiting := updWhere (fun e => e.req == some r.id) (fun e => { e with needs := f e.needs }) l.waiting }

/-- The response of a remote write of a request: entries, effects and the end that waited for it go on. -/
def writeAnswered (s : State) (id tag : Nat) : State :=
  match getReq s id with
  | none => s
  | some r =>
    let without := fun (l : List Nat) => l.filter (· != tag)
    let s1 := setReq s { r with writes := without r.writes
                                effects := (r.effects.filter fun e => !isRsignal tag e).map (mapNeeds without) }
    releaseEffects (mapEntryNeeds s1 r without) id

def endRequest (s : State) (id status detail : Nat) (failed : List Nat) : State :=
  releaseEffects (endCore s id status detail failed) id

/-- A remote write of a request fails (R392). -/
def failWrite (s : State) (id tag status word : Nat) : State :=
  match getReq s id with
  | none => s
  | some r => releaseEffects (mapEntryNeeds (failCore s id status word [tag]) r fun l => l.filter (· != tag)) id

/-- A request ends at the word it stands at. -/
def endHere (s : State) (r : Request) (status : Nat) : State := endRequest s r.id status (wordDetail r) []

/-- HALT: the request ends with its earliest continuing cause, or OK (R106, R116). -/
def haltRequest (s : State) (r : Request) : State :=
  releaseEffects (setReq s { r with fin := some (haltEnd r), wait := none, stays := false, tongs := none }) r.id

end Sys2Proof.Machine
end

