-- ==== Sys2Proof/Machine/Arbiter.lean ====
section
/-! DEFINITION. The memory ports: store-buffer entries and SIGs that wait for them, the wheel, classes, reserved service, priority
grants, port buffers, tags, and what the answer of a line lets happen (R74, R250, R251, R305 to R325). -/

namespace Sys2Proof.Machine

/-! ## SIG (R251, R361) -/

/-- A SIG's release condition holds: its update starts, or its RSIGNAL is sent. -/
def releaseSig (s : State) (x : StoreSig) : State :=
  match vEntry s x.ctx x.vid with
  | .loc c _ _ => sendUpdate s c x.n x.gen x.half (s.time + releaseDelay c x.half)
  | .remote num e _ =>
    (newRemote s num
      { ty := 5, purpose := .signal, req := none, word := 0, addr := e * 2 ^ 38, payload := [], arg := leBytes 4 x.n ++ zeros 4
        rlen := 0, segs := [] }).1
  | .unmapped => s

/-- SIGs whose earlier stores all have their responses are released, in the order of acceptance. -/
def releaseSigs (s : State) : State :=
  let open' := fun (x : StoreSig) => x.needs.filter fun i => s.buf.stores.any (·.id == i) || s.buf.strs.any (·.id == i)
  let s1 := { s with buf.sigs := (s.buf.sigs.map fun x => { x with needs := open' x }).filter fun x => !x.needs.isEmpty }
  (s.buf.sigs.filter fun x => (open' x).isEmpty).foldl releaseSig s1

/-! ## Entries of the store buffer (R250) -/

/-- The entry's write has its responses: the entry is free. -/
def freeStore (s : State) (id : Nat) : State :=
  releaseSigs { s with buf.stores := s.buf.stores.filter (·.id != id) }

def updStore (s : State) (id : Nat) (f : StoreEntry → StoreEntry) : State :=
  { s with buf.stores := updWhere (fun (x : StoreEntry) => x.id == id) f s.buf.stores }

/-- Something of the entry's write is still under way. -/
def StoreEntry.live (x : StoreEntry) : Bool := !(x.failed && x.tags.isEmpty && x.lines.isEmpty && !x.held)

/-- An entry whose lines have all been answered, with no remote write outstanding, not held and not failed, is free. -/
def closeStore (s : State) (id : Nat) : State :=
  match s.buf.stores.find? (·.id == id) with
  | some x =>
    if !x.failed && x.tags.isEmpty && x.lines.isEmpty && !x.held && (flightsOf s (.store id)).isEmpty then freeStore s id else s
  | none => s

/-! ## The wheel (R305, R308, R309) -/

/-- Class of wheel position `i`. -/
def positionClass (c : HalfCfg) (i : Nat) : LineClass :=
  let j := i - i * c.r / 32
  if (i + 1) * c.r / 32 > i * c.r / 32 then .read
  else if (j + 1) * c.w / (32 - c.r) > j * c.w / (32 - c.r) then .write
  else .remote

/-- The classes that a beat of a slot is offered to: the slot's own, then those that it may be lent to. -/
def beatOrder : LineClass → List LineClass
  | .read => [.read, .write, .remote]
  | .write => [.write, .read, .remote]
  | .remote => [.remote, .read, .write]

/-- Memory ports of a half (R14). -/
def portCount : Grade → Nat
  | .b => 6
  | _ => 8

/-- The ports of a half run: Run, no half reset, and the half's PCLK not gated by Glow. -/
def portsRun (s : State) (h : Half) : Bool := running s && !s.halfReset.get h && !s.power.glow.get h

/-- The half has its PCLK, which Glow and Banked stop (table "Power states"). -/
def hasPclk (s : State) (h : Half) : Bool := running s && !s.power.glow.get h

/-- Position of a half's wheels in PCLK `k`: one further in each PCLK that the half has had (R305). -/
def wheelAt (s : State) (h : Half) (k : Nat) : Nat := (k - s.arb.stopped.get h) % 32

/-! ## Requesters (R315, R316, R319) -/

/-- A requester with a line ready at a port: priority, hauler number, 128 for one that is no hauler (assumption 60, DESIGN CHOICE:
R317 orders haulers alone), and the hauler itself, if it is one. -/
structure Asker where
  who  : Requester
  line : Line
  prio : Nat
  num  : Nat
  haul : Option (Half × Nat)

def atPort (p : MemPort) (l : Line) : Bool := l.half == p.half && l.port == p.port

/-- A hauler's line ready: the head of its buffer for the port. -/
def haulAsker (s : State) (p : MemPort) (r : Request) : Option Asker :=
  match r.hauler, r.lines.buffers.find? (atPort p) with
  | some n, some l => some ⟨.request r.id, l, ((getSq s r.qid).map (prioNow s)).getD 0, n, some (r.half, n)⟩
  | _, _ => none

def storeAsker (p : MemPort) (x : StoreEntry) : Option Asker :=
  (x.lines.find? (atPort p)).map fun l => ⟨.store x.id, l, 8, 128, none⟩

/-- Lines of the other requesters that are first in line at the port. -/
def otherAskers (p : MemPort) : List OtherLine → List Requester → List Asker
  | [], _ => []
  | o :: os, seen =>
    if atPort p o.line && !seen.contains o.who then ⟨o.who, o.line, o.prio, 128, none⟩ :: otherAskers p os (o.who :: seen)
    else otherAskers p os seen

def askersAt (s : State) (p : MemPort) : List Asker :=
  s.run.reqs.filterMap (haulAsker s p) ++ s.buf.stores.filterMap (storeAsker p) ++ otherAskers p s.arb.others []

/-! ## Reserved service (R311, R312) -/

/-- Credit units in one byte at a port of a half: 1,680 × P_h. -/
def unitsPerByte (g : Grade) : Nat := 1680 * portCount g

/-- Growth of a ring's credit at the ports of half `h` in one PCLK: ρ ÷ (1.68 × P_h) B, with ρ_eff in the other half, where it grows
only with a Seam share toward the ring's home half. -/
def creditGrowth (s : State) (h : Half) (c : RingCfg) : Nat :=
  if c.half == h then 1000 * c.rate
  else
    let share := ((ctxCfg s c.ctx).map fun x => match h with
      | .east => x.seamEW
      | .west => x.seamWE).getD 0
    if share = 0 then 0 else 100 * min (10 * c.rate) (336 * share)

/-- The credits of a port after `n` more PCLK, in which they grow while its half has its PCLK: one for each ring with a rate whose
context is loaded, 1,024 B at most. -/
def growCredits (s : State) (n : Nat) (p : MemPort) : MemPort :=
  let grown := if hasPclk s p.half then n else 0
  let rings := s.cfg.rings.filter fun c => c.rate != 0 && ctxLoaded s c.ctx
  { p with credits := rings.map fun c =>
      let old := ((p.credits.find? fun x => x.ctx == c.ctx && x.ring == c.ring).map (·.level)).getD 0
      { ctx := c.ctx, ring := c.ring
        level := min (1024 * unitsPerByte s.fuses.grade) (old + grown * creditGrowth s p.half c) } }

/-- The line is reserved-eligible at the port. -/
def isReserved (g : Grade) (p : MemPort) (l : Line) : Bool :=
  match l.ring with
  | some (c, r) => !l.write && l.cls == .read && p.credits.any fun x => x.ctx == c && x.ring == r && 256 * unitsPerByte g ≤ x.level
  | none => false

/-- The wheels and credits at PCLK `k` (R305, R311). -/
def passPclk (s : State) (k : Nat) : State :=
  let n := k - s.arb.pclk
  let still := fun (h : Half) => s.arb.stopped.get h + if hasPclk s h then 0 else n
  { s with arb.pclk := max s.arb.pclk k, arb.stopped := ⟨still .east, still .west⟩
           arb.ports := s.arb.ports.map (growCredits s n) }

/-- The lines in the port buffers of haulers that are reserved-eligible at the port, with the hauler's number. -/
def reservedLines (s : State) (p : MemPort) : List (Requester × Line × Nat) :=
  s.run.reqs.flatMap fun r => match r.hauler with
    | some n => (r.lines.buffers.filter fun l => atPort p l && isReserved s.fuses.grade p l).map fun l => (.request r.id, l, n)
    | none => []

/-- The reserved-eligible lines in the order in which they became so, those of PCLK `k` among them: within one PCLK the lower hauler
number first, and the lines of one hauler in stream order. Haulers of one number in the two halves stand as in `State.run.reqs`
(assumption 60, DESIGN CHOICE: the manual does not order them). -/
def noteEligible (k : Nat) (now : List (Requester × Line × Nat)) (p : MemPort) : MemPort :=
  let since := fun (x : Requester × Line × Nat) =>
    ((p.eligible.find? fun e => e.1 == x.1 && e.2.1 == x.2.1.seq).map fun e => e.2.2).getD k
  { p with eligible := (sortBy (fun x => since x * 256 + x.2.2) now).map fun x => (x.1, x.2.1.seq, since x) }

/-- Requesters keep their requests raised while they have a line ready (R318), and a new one waits from PCLK `k` on (R317). -/
def noteRaised (k : Nat) (as : List Asker) (p : MemPort) : MemPort :=
  let stay := p.raised.filter fun x => as.any (·.who == x.1)
  let fresh := dedup ((as.filter fun a => !stay.any fun x => x.1 == a.who).map (·.who))
  { p with raised := stay ++ fresh.map fun w => (w, k) }

/-! ## Tags (R325) -/

/-- A tag is free for the line, under the table "Limits on line requests in flight". The limits for a half hold when those of its ports
do. A hauler's limits count every line that it has issued, also those of a request that has parked or ended since. -/
def tagFree (s : State) (p : MemPort) (a : Asker) : Bool :=
  let count := fun (w : Bool) (l : List Flight) => (l.filter fun f => f.line.write == w).length
  let mine := if a.haul.isNone then 0
    else count a.line.write (s.arb.ports.flatMap fun p => p.flight.filter fun f => f.haul == a.haul)
  if a.line.write then count true p.flight < 1024 && mine < 512
  else
    let limit := if isReserved s.fuses.grade p a.line then 4096 else 4096 - 96 * (s.cfg.halves.get p.half).r
    count false p.flight < limit && mine < 1024

/-! ## One beat (R309, R312, R315, R317) -/

def isStoreAsker (a : Asker) : Bool := match a.who with
  | .store _ => true
  | _ => false

/-- The requester of a class that R317 gives a free beat to. Haulers of one number in the two halves, which R317 does not order, stand as
in `State.run.reqs` (assumption 60, DESIGN CHOICE). -/
def contest (p : MemPort) (c : LineClass) (as : List Asker) : Option Asker :=
  let top := (as.map (·.prio)).foldl max 0
  let best := as.filter (·.prio == top)
  let holder := (p.holders.find? (·.1 == c)).map Prod.snd
  match best.find? fun a => some a.who == holder with
  | some a => some a
  | none => minBy (fun a => (((p.raised.find? (·.1 == a.who)).map Prod.snd).getD 0) * 256 + a.num) best

/-- The winner of a beat within a class: reserved-eligible lines first, STM lines first among writes, then the contest. -/
def winner (s : State) (p : MemPort) (as : List Asker) (c : LineClass) : Option Asker :=
  let mine := as.filter fun a => a.line.cls == c && tagFree s p a
  match c with
  | .read =>
    (match p.eligible.findSome? fun e => mine.find? fun a => a.who == e.1 && a.line.seq == e.2.1 with
     | some a => some a
     | none => contest p .read mine)
  | .write =>
    (match mine.find? isStoreAsker with
     | some a => some a
     | none => contest p .write mine)
  | .remote => if s.fuses.grade == .c then none else contest p .remote mine

/-- PCLK from the issue of a line to its data or response (assumption 60, DESIGN CHOICE: the manual gives no latency). -/
def lineLatency : Nat := 16

/-- The line leaves its requester's buffer. -/
def takeLine (s : State) (a : Asker) : State :=
  let others := fun (l : Line) => l.seq != a.line.seq
  match a.who with
  | .request id =>
    let strip := fun (r : Request) => { r with lines := { r.lines with buffers := r.lines.buffers.filter others } }
    afterIssue { s with run.reqs := updWhere (·.id == id) strip s.run.reqs } id
  | .store id => updStore s id fun x => { x with lines := x.lines.filter others }
  | w => { s with arb.others := s.arb.others.filter fun o => !(o.who == w && o.line.seq == a.line.seq) }

/-- What the issue changes at the port: a flight, the credit of a reserved line, or the grant holder and its wait. -/
def portIssues (g : Grade) (k : Nat) (a : Asker) (p : MemPort) : MemPort :=
  let p1 := { p with flight := p.flight ++ [{ who := a.who, line := a.line, haul := a.haul, due := k + lineLatency }] }
  if isReserved g p a.line then
    let charge := fun (x : Credit) => { x with level := x.level - 256 * unitsPerByte g }
    { p1 with credits := updWhere (fun x => some (x.ctx, x.ring) == a.line.ring) charge p1.credits }
  else if isStoreAsker a then p1
  else
    { p1 with holders := (a.line.cls, a.who) :: p1.holders.filter (·.1 != a.line.cls)
              raised := updWhere (·.1 == a.who) (fun x => (x.1, k)) p1.raised }

def updPort (s : State) (h : Half) (n : Nat) (f : MemPort → MemPort) : State :=
  { s with arb.ports := updWhere (fun p => p.half == h && p.port == n) f s.arb.ports }

/-- A line write reaches memory when it is issued: of two writers of one line, the later issue stays (R317). -/
def landLine (s : State) (l : Line) : State :=
  match l.load with
  | some w => writeLocal s w.key w.addr w.data
  | none => s

/-- One beat of port `n` of half `h` in PCLK `k`; a port under a loop test at L3 carries no line but those of the test (R505). -/
def beat (k : Nat) (h : Half) (n : Nat) (s : State) : State :=
  match s.arb.ports.find? fun p => p.half == h && p.port == n with
  | none => s
  | some p0 =>
    let as := if unitLooped s 3 h n then [] else askersAt s p0
    if as.isEmpty && p0.raised.isEmpty && p0.eligible.isEmpty then s
    else
      let p := noteEligible k (reservedLines s p0) (noteRaised k as p0)
      let s1 := updPort s h n fun _ => p
      match (beatOrder (positionClass (s.cfg.halves.get h) (wheelAt s h k))).findSome? (winner s p as) with
      | none => s1
      | some a => landLine (updPort (takeLine s1 a) h n (portIssues s.fuses.grade k a)) a.line

/-! ## Port buffers (R74, R319) -/

/-- The buffer of the line's port has room. -/
def bufferRoom (q : LineQueue) (l : Line) : Bool :=
  (q.buffers.filter fun x => x.half == l.half && x.port == l.port).length < 32

/-- The first line of the stream enters the buffer of its port; none when that is full (R319). -/
def fillOnce (q : LineQueue) : Option LineQueue :=
  match q.stream with
  | l :: ls => if bufferRoom q l then some { q with buffers := q.buffers ++ [l], stream := ls } else none
  | [] => none

/-- One mc of a hauler: at most one read and one write enter its port buffers, in stream order (R74). -/
def fillBuffers (q : LineQueue) : LineQueue :=
  match q.stream, fillOnce q with
  | l :: _, some q1 =>
    (match q1.stream with
     | l2 :: _ => if l2.write == l.write then q1 else (fillOnce q1).getD q1
     | [] => q1)
  | _, _ => q

/-- Every hauler whose half runs fills its port buffers for one mc. -/
def fillAll (s : State) : State :=
  let fill := fun (r : Request) => { r with lines := fillBuffers r.lines }
  { s with run.reqs := updWhere (fun r => r.hauler.isSome && portsRun s r.half) fill s.run.reqs }

/-! ## One PCLK -/

/-- The lines that have their answers by PCLK `k` give up their tags, and what waited for them goes on: effects, records and ends of
requests, and entries of the store buffer. -/
def answerLines (k : Nat) (s : State) : State :=
  let back := dedup ((s.arb.ports.flatMap fun p => p.flight.filter fun f => decide (f.due ≤ k)).map (·.who))
  let s1 := { s with arb.ports := s.arb.ports.map fun p => { p with flight := p.flight.filter fun f => decide (k < f.due) } }
  back.foldl (fun s w => match w with
    | .request id => releaseEffects (noteActive s id) id
    | .store id => closeStore s id
    | _ => s) s1

/-- The four beats of a port in PCLK `k`. None is lost to refresh, turnaround or bank timing: R310 bounds the loss and fixes none
(assumption 60, DESIGN CHOICE). -/
def portPclk (k : Nat) (s : State) (p : Half × Nat) : State :=
  if portsRun s p.1 then beat k p.1 p.2 (beat k p.1 p.2 (beat k p.1 p.2 (beat k p.1 p.2 s))) else s

/-- Every port of the package. -/
def allPorts (g : Grade) : List (Half × Nat) :=
  (List.range (portCount g)).map (fun n => (Half.east, n)) ++ (List.range (portCount g)).map fun n => (Half.west, n)

/-- PCLK `k`: answers come, and each port issues what its four beats give. -/
def runPclk (k : Nat) (s : State) : State :=
  (allPorts s.fuses.grade).foldl (portPclk k) (answerLines k (passPclk s k))

/-- Lines are waiting or in flight. -/
def linesBusy (s : State) : Bool :=
  s.run.reqs.any (fun r => !allIssued r && r.hauler.isSome) || s.buf.stores.any (fun x => !x.lines.isEmpty) ||
    !s.arb.others.isEmpty || s.arb.ports.any fun p => !p.flight.isEmpty

/-! ## Lines of translated pieces (R57, R306) -/

/-- The piece lies in HBM, which the memory ports serve. -/
def inHbm (s : State) (p : Piece) : Bool := p.pkg.isNone && p.addr < 2 * hbmHalf s.fuses.grade

/-- A line request before it has its class and number: HBM line, whether it is the read of a read and a write that the port makes as one
(R57, R519), and what it writes. -/
structure LineAsk where
  num   : Nat
  merge : Bool
  load  : Option LineLoad

/-- A line of a class at the port of its HBM line. -/
def lineAt (s : State) (write : Bool) (c : LineClass) (ring : Option (Nat × Nat)) (segs : List (Nat × Nat × Bool)) (seq : Nat)
    (x : LineAsk) : Line :=
  { half := if x.num * 256 < hbmHalf s.fuses.grade then .east else .west, port := (hbmPort s.fuses.grade (x.num * 256)).1
    num := x.num, write := write && !x.merge, load := x.load, cls := c, ring := ring, seq := seq, merge := x.merge, segs := segs }

/-- Line requests in order, numbered from `seq` on. -/
def linesOfAsks (s : State) (write : Bool) (c : LineClass) (ring : Option (Nat × Nat)) (segs : List (Nat × Nat × Bool)) (seq : Nat)
    (xs : List LineAsk) : List Line :=
  xs.zipIdx.map fun x => lineAt s write c ring segs (seq + x.2) x.1

/-- The lines that a local piece takes when it is read, or written with data that is in memory already. In a half in half reset none is
issued (R32, R33). -/
def pieceAsks (s : State) (p : Piece) : List LineAsk :=
  if inHbm s p && !unreachable s p.addr then (piecesOf p.addr (List.replicate p.len ())).map fun x => ⟨x.1 / 256, false, none⟩ else []

/-- The lines that an ATOMIC takes at its target: a read followed by a write (R519). -/
def targetAsks (s : State) (p : Piece) : List LineAsk := (pieceAsks s p).flatMap fun x => [{ x with merge := true }, x]

/-- The line requests that write a part of `n` bytes of a line: a part of an encrypted line takes a beat to read and a beat to write
(R57, table "Traffic classes"). -/
def mergeAsks (p : Piece) (a n : Nat) (load : Option LineLoad) : List LineAsk :=
  (if p.key.isSome && n < 256 then [⟨a / 256, true, none⟩] else []) ++ [⟨a / 256, false, load⟩]

/-- The lines that write a local piece whose data is in memory already. -/
def storedAsks (s : State) (p : Piece) : List LineAsk :=
  if inHbm s p && !unreachable s p.addr then
    (piecesOf p.addr (List.replicate p.len ())).flatMap fun x => mergeAsks p x.1 x.2.length none
  else []

def partAsks (p : Piece) (x : Nat × List (Byte × Bool)) : List LineAsk :=
  mergeAsks p x.1 x.2.length (some { key := p.key, addr := x.1, data := x.2 })

/-- The lines that write bytes dealt out over pieces. -/
def writeAsks (s : State) : List Piece → List (Byte × Bool) → List LineAsk
  | [], _ => []
  | p :: ps, bs =>
    (if inHbm s p && !unreachable s p.addr then (piecesOf p.addr (bs.take p.len)).flatMap (partAsks p) else []) ++
      writeAsks s ps (bs.drop p.len)

/-- The half through which a piece is reached. -/
def pieceHome (s : State) (p : Piece) : Option Half :=
  match p.pkg with
  | none => homeOfAddr s p.addr
  | some k => (recordOf s k).map (·.half)

/-- A data line toward a piece wakes its half in Glow (R455). -/
def wakePiece (s : State) (p : Piece) : State :=
  match pieceHome s p with
  | some h => wakeHalf s h
  | none => s

/-- A local piece is written: at once, or in HBM when its lines are issued (`landLine`). -/
def storePiece (s0 : State) (w : Writer) (ctx : Nat) (p : Piece) (bs : List (Byte × Bool)) : State :=
  let s := wakePiece s0 p
  if inHbm s p then markBlockWritten s ctx p else writePiece s w ctx p bs

/-- Lines join the stream of a request. -/
def addLines (r : Request) (ls : List Line) : Request :=
  { r with lines := { r.lines with stream := r.lines.stream ++ ls, next := r.lines.next + ls.length } }

/-- The lines that read the pieces `src` and write `out` for the pieces `dst` join a request's stream. A line whose billet has its other
side in another package is of the remote class (R306). -/
def billetAsks (s : State) (r : Request) (ring : Option (Nat × Nat)) (src dst : List Piece) (out : List LineAsk) : Request :=
  let segs := touched r.ctx (src ++ dst)
  let cls := fun (other : List Piece) (own : LineClass) => if other.any (·.pkg.isSome) then LineClass.remote else own
  let rd := linesOfAsks s false (cls dst .read) ring segs r.lines.next (src.flatMap (pieceAsks s))
  addLines r (rd ++ linesOfAsks s true (cls src .write) none segs (r.lines.next + rd.length) out)

/-- A billet of a request has been read from `src`, and its bytes are for `dst`. -/
def billetLines (s : State) (r : Request) (ring : Option (Nat × Nat)) (src dst : List Piece) (bs : List (Byte × Bool)) : Request :=
  billetAsks s r ring src dst (writeAsks s dst bs)

/-- The request has a write of an earlier instruction over the piece that has no response (R112). -/
def ownLineOver (s : State) (r : Request) (p : Piece) : Bool :=
  let before := if r.pass.started then r.pass.base else r.lines.next
  let meets := fun (l : Line) => l.write && l.seq < before && decide (p.addr / 256 ≤ l.num) && decide (l.num ≤ (p.addr + p.len - 1) / 256)
  inHbm s p && (r.lines.buffers.any meets || r.lines.stream.any meets || (flightsOf s (.request r.id)).any fun f => meets f.line)

/-- Host port that a local piece in a host window lies behind (R107). -/
def hostPort (s : State) (p : Piece) : Option Half :=
  match (if p.pkg.isNone then windowOf s.fuses.grade p.addr else none) with
  | some (.host part) => some (homePort s part)
  | _ => none

/-- A host write of an earlier instruction of the request over the piece has no response (R107, R112). -/
def ownHostOver (s : State) (r : Request) (p : Piece) : Bool :=
  match hostPort s p with
  | none => false
  | some h =>
    let old := if r.pass.started then (r.hostWrites.get h).take (r.pass.hostBase.get h) else r.hostWrites.get h
    old.any fun w => decide (w.1 / 256 ≤ (p.addr + p.len - 1) / 256) && decide (p.addr / 256 ≤ (w.1 + w.2 - 1) / 256)

/-- Before the pieces are read, the request's host writes over them get their responses (R107, R112). -/
def answerHost (s : State) (r : Request) (ps : List Piece) : State × Request :=
  if ps.any (ownHostOver s r) then (askHost s r, hostAnswered r) else (s, r)

/-- Lines of a requester that is no hauler. -/
def addOthers (s : State) (who : Requester) (prio : Nat) (f : Nat → List Line) : State :=
  let ls := f s.arb.next
  { s with arb.others := s.arb.others ++ ls.map (fun l => { who := who, prio := prio, line := l }), arb.next := s.arb.next + ls.length }

/-- Some line of a requester that is no hauler has no answer. -/
def otherOpen (s : State) (who : Requester) : Bool := s.arb.others.any (·.who == who) || !(flightsOf s who).isEmpty

/-! ## In-flight billets of a segment (R336) -/

/-- Billets that count in an epoch of a segment: remote requests, billets whose remote bytes are awaited, and lines. -/
def inflightOf (s : State) (g : Segment) (epoch : Bool) : Nat :=
  let key := (g.cfg.ctx, g.cfg.index, epoch)
  let on := fun (l : Line) => l.segs.contains key
  let opened := s.run.reqs.filter fun r => (r.pass.opened.map fun o => (touched r.ctx o.2).contains key).getD false
  let waiting := s.run.reqs.flatMap (fun r => r.lines.buffers ++ r.lines.stream) ++ s.buf.stores.flatMap (·.lines) ++
    s.arb.others.map (·.line) ++ s.arb.ports.flatMap fun p => p.flight.map (·.line)
  (if epoch then g.inflight1 else g.inflight0) + opened.length + (waiting.filter on).length

end Sys2Proof.Machine
end

