-- ==== Sys2Proof/Machine/Numeric.lean ====
section
/-! DEFINITION. Element formats, the values of codes, rounding, FP32 arithmetic, the stochastic-rounding generator, and MX and TQ
blocks and records (chapters 02 and 05). -/

namespace Sys2Proof.Machine

/-! ## Element formats (table "Element format codes") -/

def isFormat (f : Nat) : Bool := f ≤ 5 || (8 ≤ f && f ≤ 13) || (0x10 ≤ f && f ≤ 0x15) || (0x18 ≤ f && f ≤ 0x1B)

def isMx (f : Nat) : Bool := 0x10 ≤ f && f ≤ 0x15

def isTq (f : Nat) : Bool := 0x18 ≤ f && f ≤ 0x1B

def isRecord (f : Nat) : Bool := isMx f || isTq f

/-- TQ8 and TQ4: signed codes without zero point. -/
def tqSym (f : Nat) : Bool := f == 0x18 || f == 0x1A

/-- Bits of one element. -/
def fmtBits (f : Nat) : Nat :=
  if f == 1 || f == 8 then 32
  else if f == 2 || f == 3 || f == 9 then 16
  else if f == 0x12 || f == 0x13 then 6
  else if f == 0xC || f == 0xD || f == 0x14 || f == 0x1A || f == 0x1B then 4
  else 8

/-- Bits of an element in the chain: MX and TQ elements are FP32 there (R119). -/
def chainBits (f : Nat) : Nat := if isRecord f then 32 else fmtBits f

/-- A floating-point layout: mantissa and exponent width, bias, special codes (0 none, 1 as IEEE, 2 as FP8 E4M3). -/
structure FloatFmt where
  mb      : Nat
  eb      : Nat
  bias    : Nat
  special : Nat
  largest : Nat

def floatFmt (f : Nat) : Option FloatFmt :=
  if f == 1 then some ⟨23, 8, 127, 1, 0x7F7FFFFF⟩
  else if f == 2 then some ⟨7, 8, 127, 1, 0x7F7F⟩
  else if f == 3 then some ⟨10, 5, 15, 1, 0x7BFF⟩
  else if f == 4 || f == 0x10 then some ⟨3, 4, 7, 2, 0x7E⟩
  else if f == 5 || f == 0x11 then some ⟨2, 5, 15, 1, 0x7B⟩
  else if f == 0x12 then some ⟨2, 3, 3, 0, 0x1F⟩
  else if f == 0x13 then some ⟨3, 2, 1, 0, 0x1F⟩
  else if f == 0x14 then some ⟨1, 2, 1, 0, 7⟩
  else none

/-- binary64, the accumulator of NP2 reductions (R185). -/
def binary64 : FloatFmt := ⟨52, 11, 1023, 1, 0x7FEFFFFFFFFFFFFF⟩

def fp32 : FloatFmt := ⟨23, 8, 127, 1, 0x7F7FFFFF⟩

/-- Width and signedness of an integer format. -/
def intFmt (f : Nat) : Option (Nat × Bool) :=
  if f == 8 then some (32, true) else if f == 9 then some (16, true) else if f == 0xA then some (8, true)
  else if f == 0xB then some (8, false) else if f == 0xC then some (4, true) else if f == 0xD then some (4, false)
  else if f == 0x15 then some (8, true) else none

/-- Subnormals of these formats are flushed under NP1 (R151). -/
def flushes (f : Nat) : Bool := f == 1 || f == 2 || f == 3

/-! ## Values of codes (R154) -/

/-- A value: (−1)^neg × m × 2^e, an infinity, or a NaN with its sign. -/
inductive Num where
  | fin (neg : Bool) (m : Nat) (e : Int)
  | inf (neg : Bool)
  | nan (neg : Bool)
  deriving DecidableEq, Repr

/-- The value of a floating-point code, NP1 flushing applied when `flush` (R151). -/
def floatValue (t : FloatFmt) (flush : Bool) (code : Nat) : Num :=
  let neg := bit code (t.mb + t.eb)
  let e := code / 2 ^ t.mb % 2 ^ t.eb
  let m := code % 2 ^ t.mb
  if t.special == 1 && e == 2 ^ t.eb - 1 then (if m == 0 then .inf neg else .nan neg)
  else if t.special == 2 && e == 15 && m == 7 then .nan neg
  else if e == 0 then (if flush then .fin neg 0 0 else .fin neg m (1 - (t.bias : Int) - t.mb))
  else .fin neg (2 ^ t.mb + m) ((e : Int) - t.bias - t.mb)

/-- The value of a code of format `f` under a profile; a RAW8 byte counts as unsigned. -/
def codeValue (profile f code : Nat) : Num :=
  match floatFmt f with
  | some t => floatValue t (profile == 1 && flushes f) code
  | none =>
    match intFmt f with
    | some (n, true) =>
      let v := signed n code
      .fin (v < 0) v.natAbs (if f == 0x15 then -6 else 0)
    | some (n, false) => .fin false (code % 2 ^ n) 0
    | none => .fin false (code % 256) 0

/-! ## Rounding (R160, R161) -/

/-- The part below 2^(-k) of m × 2^k, as numerator and denominator, with the whole part: (whole, numerator, denominator). -/
def splitAt2 (m : Nat) (k : Int) : Nat × Nat × Nat :=
  if k ≥ 0 then (m * 2 ^ k.toNat, 0, 1)
  else let d := 2 ^ (-k).toNat; (m / d, m % d, d)

/-- A fraction num/den rounds up: stochastically with random value `u` (R166), else to nearest with ties to even, or away from
zero when `away`. -/
def roundsUp (sr : Option Nat) (away : Bool) (whole num den : Nat) : Bool :=
  match sr with
  | some u => num * 2 ^ 24 / den + u ≥ 2 ^ 24
  | none => 2 * num > den || (2 * num == den && (away || whole % 2 == 1))

/-- Magnitude code of m × 2^x (m > 0) in a float layout, with no bound on the exponent: pseudocode "Float narrowing". -/
def roundFloat (t : FloatFmt) (sr : Option Nat) (m : Nat) (x : Int) : Nat :=
  let emin : Int := 1 - t.bias
  let e := max ((Nat.log2 m : Int) + x) emin
  let (whole, num, den) := splitAt2 m (x - e + t.mb)
  let q := if roundsUp sr false whole num den then whole + 1 else whole
  if q < 2 ^ t.mb then q
  else (e - emin + 1).toNat * 2 ^ t.mb + (q - 2 ^ t.mb)

/-- What a float target writes on overflow: true for infinity (table "Float target parameters"). -/
def overflowsToInf (profile f : Nat) : Bool := f ≤ 3 || (f == 5 && profile == 2)

def signBit (t : FloatFmt) (neg : Bool) : Nat := if neg then 2 ^ (t.mb + t.eb) else 0

def infCode (t : FloatFmt) : Nat := (2 ^ t.eb - 1) * 2 ^ t.mb

/-- Canonical NaN code: the quiet bit for IEEE layouts, all ones for E4M3. -/
def nanCode (t : FloatFmt) : Nat := if t.special == 2 then 0x7F else infCode t + 2 ^ (t.mb - 1)

/-- round_int of (−1)^neg × m × 2^e (R161). -/
def roundInt (profile : Nat) (sr : Option Nat) (neg : Bool) (m : Nat) (e : Int) : Int :=
  let (whole, num, den) := splitAt2 m e
  let n : Int := if roundsUp sr (profile == 1) whole num den then whole + 1 else whole
  if neg then -n else n

def clampInt (lo hi v : Int) : Int := if v < lo then lo else if v > hi then hi else v

/-- An integer as an n-bit two's complement code. -/
def intCode (n : Nat) (v : Int) : Nat := (v % (2 ^ n : Int)).toNat

/-- A value written into a format (R160 to R162 and the table "Non-finite values"). -/
def writeValue (profile f : Nat) (sr : Option Nat) (v : Num) : Nat :=
  match floatFmt f with
  | some t =>
    match v with
    | .nan neg => if t.special == 0 then 0 else nanCode t + (if profile == 2 then signBit t neg else 0)
    | .inf neg =>
      if isMx f then signBit t neg + t.largest
      else if f == 4 then (if profile == 1 then signBit t neg + t.largest else signBit t neg + nanCode t)
      else if overflowsToInf profile f then signBit t neg + infCode t
      else signBit t neg + t.largest
    | .fin neg m e =>
      if m == 0 then signBit t neg
      else
        let c := roundFloat t sr m e
        if c > t.largest then signBit t neg + (if overflowsToInf profile f && !isMx f then infCode t else t.largest)
        else if profile == 1 && flushes f && c < 2 ^ t.mb then signBit t neg
        else signBit t neg + c
  | none =>
    match intFmt f with
    | some (n, sg) =>
      let lo : Int := if sg then -(2 ^ (n - 1)) else 0
      let hi : Int := if sg then 2 ^ (n - 1) - 1 else 2 ^ n - 1
      match v with
      | .nan _ => 0
      | .inf neg => intCode n (if neg then lo else hi)
      | .fin neg m e => intCode n (clampInt lo hi (roundInt profile sr neg m e))
    | none => 0

/-- The format in which an element of a side stands in the chain (R119, R158). -/
def chainFmt (f : Nat) : Nat := if isRecord f then 1 else f

/-- An element of a record as it enters the FP32 stage or an FP32 destination: unchanged, a NaN's pattern too, but for R151
(R156, R159). -/
def recordTo32 (profile code : Nat) : Nat :=
  match codeValue profile 1 code with
  | .nan _ => code
  | v => writeValue profile 1 none v

/-- Element conversion (R89, R158, R159): from the chain format of the source to that of the destination. Equal formats that are no
record formats convert nothing; R151 applies to every other conversion, an exact one too. -/
def convertElem (profile sfmt dfmt : Nat) (sr : Option Nat) (code : Nat) : Nat :=
  if sfmt == dfmt && !isRecord sfmt then code
  else if isRecord sfmt && chainFmt dfmt == 1 then recordTo32 profile code
  else writeValue profile (chainFmt dfmt) sr (codeValue profile (chainFmt sfmt) code)

/-- A conversion exists (R157). -/
def convertible (sfmt dfmt : Nat) : Bool := (sfmt == 0) == (dfmt == 0)

/-- The table "Exact conversions", equal formats, and FP32 from MX and TQ sources (R159). -/
def exactConv (sfmt dfmt : Nat) : Bool :=
  let s := chainFmt sfmt
  let d := chainFmt dfmt
  s == d ||
  ((s == 2 || s == 3) && d == 1) ||
  ((s == 4 || s == 5) && (d == 1 || d == 2 || d == 3)) ||
  (s == 0xC && (d == 0xA || d == 9 || d == 8 || d == 2 || d == 3 || d == 1)) ||
  (s == 0xD && (d == 0xB || d == 0xA || d == 9 || d == 8 || d == 2 || d == 3 || d == 1)) ||
  ((s == 0xA || s == 0xB) && (d == 9 || d == 8 || d == 2 || d == 3 || d == 1)) ||
  (s == 9 && (d == 8 || d == 1))

/-! ## FP32 and binary64 operations (R152) -/

/-- Signed sum of two finite values at the smaller exponent; an exact zero takes + unless both are negative. -/
def addFin (n1 : Bool) (m1 : Nat) (e1 : Int) (n2 : Bool) (m2 : Nat) (e2 : Int) : Num :=
  let e := min e1 e2
  let a : Int := (m1 : Int) * 2 ^ (e1 - e).toNat * (if n1 then -1 else 1)
  let b : Int := (m2 : Int) * 2 ^ (e2 - e).toNat * (if n2 then -1 else 1)
  let c := a + b
  if c = 0 then .fin (n1 && n2) 0 0 else .fin (c < 0) c.natAbs e

def negNum : Num → Num
  | .fin n m e => .fin (!n) m e
  | .inf n => .inf (!n)
  | .nan n => .nan n

def addNum (x y : Num) : Num :=
  match x, y with
  | .nan n, _ => .nan n
  | _, .nan n => .nan n
  | .inf a, .inf b => if a == b then .inf a else .nan false
  | .inf a, .fin _ _ _ => .inf a
  | .fin _ _ _, .inf b => .inf b
  | .fin n1 m1 e1, .fin n2 m2 e2 => addFin n1 m1 e1 n2 m2 e2

def mulNum (x y : Num) : Num :=
  match x, y with
  | .nan n, _ => .nan n
  | _, .nan n => .nan n
  | .inf a, .inf b => .inf (a != b)
  | .inf a, .fin n m _ => if m == 0 then .nan false else .inf (a != n)
  | .fin n m _, .inf b => if m == 0 then .nan false else .inf (n != b)
  | .fin n1 m1 e1, .fin n2 m2 e2 => .fin (n1 != n2) (m1 * m2) (e1 + e2)

/-- Quotient with at least 64 significant bits and a sticky bit below them: enough to round it once, to nearest. -/
def divNum (x y : Num) : Num :=
  match x, y with
  | .nan n, _ => .nan n
  | _, .nan n => .nan n
  | .inf _, .inf _ => .nan false
  | .inf a, .fin n _ _ => .inf (a != n)
  | .fin n _ _, .inf b => .fin (n != b) 0 0
  | .fin n1 m1 e1, .fin n2 m2 e2 =>
    if m2 == 0 then (if m1 == 0 then .nan false else .inf (n1 != n2))
    else
      let sh := 66 + Nat.log2 m2
      let q := m1 * 2 ^ sh / m2
      let r := m1 * 2 ^ sh % m2
      if m1 == 0 then .fin (n1 != n2) 0 0
      else .fin (n1 != n2) (2 * q + (if r == 0 then 0 else 1)) (e1 - e2 - sh - 1)

/-- The result of an FP32 operation; a NaN made from operands without NaN is positive (R152). -/
def fp32Result (profile : Nat) (v : Num) : Nat := writeValue profile 1 none v

def add32 (profile a b : Nat) : Nat := fp32Result profile (addNum (codeValue profile 1 a) (codeValue profile 1 b))
def sub32 (profile a b : Nat) : Nat :=
  fp32Result profile (addNum (codeValue profile 1 a) (negNum (codeValue profile 1 b)))
def mul32 (profile a b : Nat) : Nat := fp32Result profile (mulNum (codeValue profile 1 a) (codeValue profile 1 b))
def div32 (profile a b : Nat) : Nat := fp32Result profile (divNum (codeValue profile 1 a) (codeValue profile 1 b))
def intTo32 (profile : Nat) (n : Int) : Nat := fp32Result profile (.fin (n < 0) n.natAbs 0)

/-- A value written into binary64, to nearest even. -/
def toBinary64 (v : Num) : Num :=
  match v with
  | .fin neg m e =>
    if m == 0 then .fin neg 0 0
    else
      let c := roundFloat binary64 none m e
      if c > binary64.largest then .inf neg else floatValue binary64 false (signBit binary64 neg + c)
  | x => x

/-- Order of two finite values: the first is below the second. -/
def ltNum (x y : Num) : Bool :=
  match x, y with
  | .fin n1 m1 e1, .fin n2 m2 e2 =>
    match addFin n1 m1 e1 (!n2) m2 e2 with
    | .fin neg m _ => neg && m != 0
    | _ => false
  | _, _ => false

def isFiniteNum : Num → Bool
  | .fin _ _ _ => true
  | _ => false

/-- round_int of an FP32 code, saturated to 64 bits (note under pseudocode "TQ block"). -/
def roundInt32 (profile : Nat) (sr : Option Nat) (code : Nat) : Int :=
  match codeValue profile 1 code with
  | .nan _ => 0
  | .inf neg => if neg then -(2 ^ 63) else 2 ^ 63 - 1
  | .fin neg m e => clampInt (-(2 ^ 63)) (2 ^ 63 - 1) (roundInt profile sr neg m e)

/-! ## The generator (R163 to R166) -/

def quarterRound (a b c d : BitVec 32) : BitVec 32 × BitVec 32 × BitVec 32 × BitVec 32 :=
  let a1 := a + b
  let d1 := (d ^^^ a1).rotateLeft 16
  let c1 := c + d1
  let b1 := (b ^^^ c1).rotateLeft 12
  let a2 := a1 + b1
  let d2 := (d1 ^^^ a2).rotateLeft 8
  let c2 := c1 + d2
  let b2 := (b1 ^^^ c2).rotateLeft 7
  (a2, b2, c2, d2)

/-- The 32-bit value r of the pseudocode "Generator". -/
def genValue (profile : Nat) (seed tensor : BitVec 32) (n i : Word) : BitVec 32 :=
  let lo (w : Word) : BitVec 32 := w.setWidth 32
  let hi (w : Word) : BitVec 32 := (w >>> 32).setWidth 32
  let a := seed ^^^ 0x9E3779B9#32
  let b := tensor ^^^ 0x243F6A88#32
  let c := lo n ^^^ (hi n).rotateLeft 13 ^^^ 0xB7E15162#32
  let d := lo i ^^^ (hi i).rotateLeft 17 ^^^ 0x6A09E667#32
  let (a1, b1, c1, d1) := quarterRound a b c d
  if profile == 1 then b1 ^^^ d1
  else let (_, b2, _, d2) := quarterRound a1 b1 c1 d1; b2 ^^^ d2

/-- What SR = 1 draws from: P[SRP] and P[SRP + 1] (R89). -/
structure SrSeed where
  p0 : Word
  p1 : Word
  deriving DecidableEq, Repr

/-- The 24-bit value u of element index `i`, none with SR = 0 (R166). -/
def srValue (profile : Nat) (sr : Option SrSeed) (i : Nat) : Option Nat :=
  sr.map fun k => (genValue profile (k.p0.setWidth 32) (k.p0.extractLsb' 32 32) k.p1 (BitVec.ofNat 64 i)).toNat / 256

/-! ## Packing (R61) -/

/-- Codes of `w` bits each from a byte string, from bit 0 of the first byte upward. -/
def unpackCodes (w n : Nat) (bs : List Byte) : List Nat :=
  if w == 8 then (bs.take n).map BitVec.toNat
  else if w % 8 == 0 then (List.range n).map fun i => fieldAt bs (i * (w / 8)) (w / 8)
  else (List.range n).map fun i => fieldAt bs (i * w / 8) 2 / 2 ^ (i * w % 8) % 2 ^ w

/-- Codes packed into bytes; `n` is the byte count. -/
def packCodes (w : Nat) (cs : List Nat) : List Byte :=
  if w % 8 == 0 then cs.flatMap (leBytes (w / 8))
  else
    let per := if w == 4 then 2 else 4
    let nb := if w == 4 then 1 else 3
    let go := fun g : List Nat => leBytes nb (g.foldr (fun c acc => c % 2 ^ w + acc * 2 ^ w) 0)
    ((chunksOf per cs).flatMap go).take ((cs.length * w + 7) / 8)

/-! ## Record sizes (R63 to R65, R543) -/

def ceil16 (n : Nat) : Nat := roundUp n 16

/-- Bytes of one MX block's elements. -/
def mxBlockBytes (f : Nat) : Nat := 32 * fmtBits f / 8

/-- Record size of E elements in an MX format. -/
def mxSize (f e : Nat) : Nat := ceil16 (e / 32) + e / 32 * mxBlockBytes f

/-- Size of a TQ row block of n elements. -/
def tqBlockSize (f n : Nat) : Nat := 16 + ceil16 (ceilDiv (n * fmtBits f) 8)

/-- Element counts of the row blocks of a TQ row of `r` elements with block length `b`. -/
def tqBlocks (b r : Nat) : List Nat :=
  let k := ceilDiv r b
  if k == 0 then [] else List.replicate (k - 1) b ++ [r - (k - 1) * b]

/-- Record size of a TQ row. -/
def tqSize (f b r : Nat) : Nat :=
  let k := ceilDiv r b
  if k == 0 then 0 else (k - 1) * tqBlockSize f b + tqBlockSize f (r - (k - 1) * b)

/-- Record size of `n` elements (block length `b` for TQ). -/
def recordSize (f b n : Nat) : Nat := if isMx f then mxSize f n else tqSize f b n

/-- The element count that an MX side declares for a line length (R543). -/
def mxCount (f len : Nat) : Option Nat :=
  -- one block adds its bytes, and 16 more for each started group of 16 scales
  let k0 := len * 16 / (16 * mxBlockBytes f + 16)
  ((List.range 34).map fun i => (k0 + i - 17) * 32).find? fun e => 0 < e && mxSize f e == len

/-- The element count that a TQ side declares: `slast` elements in the last block, or with 0 the largest count that fits. -/
def tqCount (f b slast len : Nat) : Option Nat :=
  let full := tqBlockSize f b
  if slast != 0 then
    if slast > b then none
    else
      let last := tqBlockSize f slast
      if last ≤ len && (len - last) % full == 0 then some ((len - last) / full * b + slast) else none
  else
    -- the last block holds 1 to b elements
    let k := (len - 1) / full
    let last := len - k * full
    if len == 0 || last < 32 then none
    else
      let n := min b ((last - 16) * 8 / fmtBits f)
      if 0 < n && tqBlockSize f n == last then some (k * b + n) else none

/-- The element count declared by a side with records (R543). -/
def declaredCount (f b slast len : Nat) : Option Nat := if isMx f then mxCount f len else tqCount f b slast len

/-! ## Elements with spoil marks -/

/-- An element of the chain: its code and its spoil mark (R122). -/
abbrev Elem := Nat × Bool

def posNan32 : Nat := 0x7FC00000

/-- The FP32 code of an MX element (R155). -/
def mxElem (profile f scale code : Nat) : Nat :=
  if scale == 0xFF then posNan32
  else match codeValue profile f code with
    | .nan _ => posNan32
    | .inf neg => signBit fp32 neg + infCode fp32
    | .fin neg m e => writeValue profile 1 none (.fin neg m (e + scale - 127))

/-- The FP32 code of a TQ code (R156). -/
def tqElem (profile f scale zp code : Nat) : Nat :=
  if scale == 0 then (if tqSym f then 0 else zp)
  else match codeValue 2 1 scale with
    | .nan _ => posNan32
    | _ =>
      let n : Int := if tqSym f then signed (fmtBits f) code else code
      let z : Int := if tqSym f then 0 else signed 32 zp
      mul32 profile (intTo32 profile (n - z)) scale

def anyMark (l : List SByte) : Bool := l.any Prod.snd

/-- Which of `n` packed codes of `w` bits come from a marked byte. -/
def codeMarks (w n : Nat) (bs : List SByte) : List Bool :=
  if w % 8 == 0 then (List.range n).map fun i => anyMark ((bs.drop (i * (w / 8))).take (w / 8))
  else (List.range n).map fun i => anyMark ((bs.drop (i * w / 8)).take (if i * w % 8 + w > 8 then 2 else 1))

/-- Elements of a plain line: codes of `w` bits with the marks of their bytes (R118). -/
def lineElems (w : Nat) (bs : List SByte) : List Elem :=
  let n := bs.length * 8 / w
  if w == 8 then bs.map fun b => (b.1.toNat, b.2)
  else (unpackCodes w n (bs.map Prod.fst)).zip (codeMarks w n bs)

/-- Bytes of packed elements, a byte marked when an element in it is. -/
def packElems (w : Nat) (es : List Elem) : List SByte :=
  if w == 8 then es.map fun e => (BitVec.ofNat 8 e.1, e.2)
  else
    let bs := packCodes w (es.map Prod.fst)
    let ms := es.map Prod.snd
    let markOf := fun j => if w % 8 == 0 then ms.getD (j / (w / 8)) false
      else ((ms.drop (8 * j / w)).take ((8 * j + 7) / w + 1 - 8 * j / w)).any id
    bs.zip ((List.range bs.length).map markOf)

/-- Elements of an MX record of `n` elements (R63). -/
def mxElems (profile f n : Nat) (rec : List SByte) : List Elem :=
  let k := n / 32
  let area := rec.drop (ceil16 k)
  let bb := mxBlockBytes f
  (List.range k).flatMap fun i =>
    let sc := rec.getD i (0, false)
    let blk := (area.drop (i * bb)).take bb
    ((unpackCodes (fmtBits f) 32 (blk.map Prod.fst)).zip (codeMarks (fmtBits f) 32 blk)).map fun c =>
      (mxElem profile f sc.1.toNat c.1, c.2 || sc.2)

/-- The row blocks of a TQ record, by element count; answers each block's bytes. -/
def tqSplit (f : Nat) : List Nat → List SByte → List (Nat × List SByte)
  | [], _ => []
  | n :: ns, bs => (n, bs.take (tqBlockSize f n)) :: tqSplit f ns (bs.drop (tqBlockSize f n))

/-- The stored N fields agree with the declared counts (R67). -/
def tqAgrees (f b n : Nat) (rec : List SByte) : Bool :=
  (tqSplit f (tqBlocks b n) rec).all fun p => fieldAt (p.2.map Prod.fst) 8 2 == p.1

def tqElems (profile f b n : Nat) (rec : List SByte) : List Elem :=
  (tqSplit f (tqBlocks b n) rec).flatMap fun p =>
    let hd := p.2.take 16
    let hb := hd.map Prod.fst
    let scale := fieldAt hb 0 4
    let zp := fieldAt hb 4 4
    let hm := anyMark (hd.take 8)
    let body := p.2.drop 16
    ((unpackCodes (fmtBits f) p.1 (body.map Prod.fst)).zip (codeMarks (fmtBits f) p.1 body)).map fun c =>
      (tqElem profile f scale zp c.1, c.2 || hm)

/-! ## MX blocks (R168) -/

def mxEmax (f : Nat) : Int :=
  if f == 0x10 then 8 else if f == 0x11 then 15 else if f == 0x12 then 4 else if f == 0x13 || f == 0x14 then 2 else 0

/-- floor(log2) of a finite non-zero value. -/
def floorLog2 : Num → Int
  | .fin _ m e => (Nat.log2 m : Int) + e
  | _ => 0

def magNum : Num → Num
  | .fin _ m e => .fin false m e
  | x => x

/-- The largest magnitude of a list of finite values. -/
def maxMag (xs : List Num) : Num := xs.foldl (fun a x => if ltNum a (magNum x) then magNum x else a) (.fin false 0 0)

/-- Scale byte and codes of a block of 32 FP32 codes; `u i` is the random value of the block's i-th element. -/
def mxBlock (profile f : Nat) (u : Nat → Option Nat) (xs : List Nat) : Nat × List Nat :=
  let vs := xs.map (codeValue profile 1)
  if vs.any fun v => !isFiniteNum v then (0xFF, xs.map fun _ => 0)
  else
    let a := maxMag vs
    match a with
    | .fin _ 0 _ => (0x7F, xs.map fun _ => 0)
    | _ =>
      let se := clampInt (-127) 127 (floorLog2 a - mxEmax f)
      let code := fun (k : Nat) (v : Num) => match v with
        | .fin neg m e =>
          if f == 0x15 then intCode 8 (clampInt (-127) 127 (roundInt profile (u k) neg m (e - se + 6)))
          else writeValue profile f (u k) (.fin neg m (e - se))
        | _ => 0
      ((se + 127).toNat, (vs.zipIdx).map fun p => code p.2 p.1)

/-! ## TQ blocks (R169 to R172) -/

def tqMax (f : Nat) : Nat := if f == 0x18 then 127 else if f == 0x1A then 7 else if f == 0x19 then 255 else 15

/-- The range that a block is encoded with: absmax for TQ8 and TQ4, or lo and hi; FP32 codes. -/
structure TqRange where
  a  : Nat
  lo : Nat
  hi : Nat
  deriving DecidableEq, Repr

/-- Own range of a block of finite FP32 codes: the first of the lowest and of the highest values. -/
def ownRange (profile : Nat) (xs : List Nat) : TqRange :=
  let val := codeValue profile 1
  let flushed := fun c => fp32Result profile (val c)
  match xs with
  | [] => ⟨0, 0, 0⟩
  | x :: rest =>
    let lo := rest.foldl (fun m c => if ltNum (val c) (val m) then c else m) x
    let hi := rest.foldl (fun m c => if ltNum (val m) (val c) then c else m) x
    ⟨fp32Result profile (maxMag (xs.map val)), flushed lo, flushed hi⟩

/-- A block as encoded: scale and zero-point fields, codes, and how many elements count as saturated (R179). -/
structure TqBlock where
  scale : Nat
  zp    : Nat
  codes : List Int
  sat   : Nat

def isSub32 (c : Nat) : Bool := c / 2 ^ 23 % 256 == 0

/-- Pseudocode "TQ block" with the range given. -/
def tqBlock (profile f : Nat) (u : Nat → Option Nat) (r : TqRange) (xs : List Nat) : TqBlock :=
  let vs := xs.map (codeValue profile 1)
  let zero := xs.map fun _ => (0 : Int)
  let qmax : Int := tqMax f
  let q32 := intTo32 profile qmax
  let one := 0x3F800000
  let unequal := fun c => (vs.filter fun v => ltNum v (codeValue profile 1 c) || ltNum (codeValue profile 1 c) v).length
  if vs.any fun v => !isFiniteNum v then ⟨posNan32, 0, zero, 0⟩
  else if tqSym f then
    let scale := div32 profile r.a q32
    if isSub32 scale then ⟨0, 0, zero, unequal 0⟩
    else
      let recip := if profile == 1 then div32 profile q32 r.a else div32 profile one scale
      let raw := (xs.zipIdx).map fun p => roundInt32 profile (u p.2) (mul32 profile p.1 recip)
      ⟨scale, 0, raw.map (clampInt (-qmax) qmax), (raw.filter fun c => c < -qmax || c > qmax).length⟩
  else
    let lo := codeValue profile 1 r.lo
    let hi := codeValue profile 1 r.hi
    if !ltNum lo hi && !ltNum hi lo then ⟨0, r.lo, zero, unequal r.lo⟩
    else
      let range := sub32 profile r.hi r.lo
      if range % 2 ^ 31 == 0x7F800000 then ⟨posNan32, 0, zero, 0⟩
      else
        let scale := div32 profile range q32
        if isSub32 scale then ⟨0, r.lo, zero, unequal r.lo⟩
        else
          let recip := if profile == 1 then div32 profile q32 range else div32 profile one scale
          let neg := fun c => if c ≥ 2 ^ 31 then c - 2 ^ 31 else c + 2 ^ 31
          let zp := clampInt (-(2 ^ 31)) (2 ^ 31 - 1) (roundInt32 profile none (mul32 profile (neg r.lo) recip))
          let raw := (xs.zipIdx).map fun p => roundInt32 profile (u p.2) (mul32 profile p.1 recip) + zp
          ⟨scale, intCode 32 zp, raw.map (clampInt 0 qmax), (raw.filter fun c => c < 0 || c > qmax).length⟩

/-! ## Reductions (R185) -/

/-- The sum in rank order of one element of a reduction, as a code of its format. -/
def reduceElem (profile f : Nat) (codes : List Nat) : Nat :=
  if f == 8 then
    let sum := codes.foldl (fun (a : Int) c => clampInt (-(2 ^ 63)) (2 ^ 63 - 1) (a + signed 32 c)) 0
    intCode 32 (clampInt (-(2 ^ 31)) (2 ^ 31 - 1) sum)
  else
    match codes with
    | [] => 0
    | c :: rest =>
      if profile == 1 then
        let acc := rest.foldl (fun a x => add32 profile a (writeValue profile 1 none (codeValue profile f x)))
          (writeValue profile 1 none (codeValue profile f c))
        writeValue profile f none (codeValue profile 1 acc)
      else
        let acc := rest.foldl (fun a x => toBinary64 (addNum a (codeValue profile f x))) (codeValue profile f c)
        writeValue profile f none acc

end Sys2Proof.Machine
end

