-- ==== Sys2Proof/Machine/Coding.lean ====
section
/-! DEFINITION. Exponent coding as pure functions: code lengths, codes, blocks, index and code tables, expansion with its checks
(chapter 06). -/

namespace Sys2Proof.Machine

/-- A row of the table "Codable formats". -/
structure Codable where
  mb     : Nat
  eb     : Nat
  bytes  : Nat
  nfull  : Nat
  deriving DecidableEq, Repr

def codable (f : Nat) : Option Codable :=
  if f == 1 then some ⟨23, 8, 4, 1024⟩
  else if f == 2 then some ⟨7, 8, 2, 2048⟩
  else if f == 3 then some ⟨10, 5, 2, 2048⟩
  else if f == 4 then some ⟨3, 4, 1, 4096⟩
  else if f == 5 then some ⟨2, 5, 1, 4096⟩
  else none

def alphabet (c : Codable) : Nat := 2 ^ c.eb

/-- Sign–mantissa width w. -/
def smWidth (c : Codable) : Nat := c.mb + 1

/-- Exponent symbol and sign–mantissa value of an element (R187). -/
def splitElem (c : Codable) (v : Nat) : Nat × Nat :=
  (v / 2 ^ c.mb % 2 ^ c.eb, v / 2 ^ (c.mb + c.eb) % 2 * 2 ^ c.mb + v % 2 ^ c.mb)

def joinElem (c : Codable) (x sm : Nat) : Nat :=
  sm / 2 ^ c.mb * 2 ^ (c.mb + c.eb) + x * 2 ^ c.mb + sm % 2 ^ c.mb

/-! ## Code lengths (R189) -/

/-- A node of the tree under construction: weight, key, and its leaves with their depths. -/
structure CodeNode where
  weight : Nat
  key    : Nat
  leaves : List (Nat × Nat)

def nodeLess (a b : CodeNode) : Bool := a.weight < b.weight || (a.weight == b.weight && a.key < b.key)

/-- The node with the least (weight, key), and the others. -/
def takeLeast : List CodeNode → Option (CodeNode × List CodeNode)
  | [] => none
  | x :: xs => match takeLeast xs with
    | none => some (x, [])
    | some (y, ys) => if nodeLess x y then some (x, xs) else some (y, x :: ys)

/-- Merging until one node is left. -/
def mergeNodes : Nat → Nat → List CodeNode → List CodeNode
  | 0, _, ns => ns
  | f + 1, key, ns =>
    match takeLeast ns with
    | none => []
    | some (a, rest) => match takeLeast rest with
      | none => [a]
      | some (b, rest') =>
        let deeper := (a.leaves ++ b.leaves).map fun l => (l.1, l.2 + 1)
        mergeNodes f (key + 1) ({ weight := a.weight + b.weight, key := key, leaves := deeper } :: rest')

/-- A present symbol: symbol, count, length. -/
abbrev SymLen := Nat × Nat × Nat

/-- The symbol that the limit loop lengthens: largest length below 12, then smaller count, then larger symbol. -/
def pickSym (l : List SymLen) : Option SymLen :=
  minBy (fun x => (12 - x.2.2) * 2 ^ 40 + x.2.1 * 512 + (511 - x.1)) (l.filter fun x => x.2.2 < 12)

def kraft (l : List SymLen) : Nat := (l.map fun x => 2 ^ (12 - x.2.2)).foldl (· + ·) 0

def limitLoop : Nat → List SymLen → List SymLen
  | 0, l => l
  | f + 1, l =>
    if kraft l > 4096 then
      match pickSym l with
      | none => l
      | some p => limitLoop f (l.map fun x => if x.1 == p.1 then (x.1, x.2.1, x.2.2 + 1) else x)
    else l

/-- Pseudocode "Code lengths": present symbols with their counts, in rising order, answer their lengths. -/
def buildLengths (counts : List (Nat × Nat)) : List SymLen :=
  match counts with
  | [] => []
  | [(x, n)] => [(x, n, 1)]
  | _ =>
    let nodes := counts.map fun c => { weight := c.2, key := c.1, leaves := [(c.1, 0)] : CodeNode }
    let leaves := (mergeNodes counts.length 256 nodes).flatMap (·.leaves)
    let raw := counts.map fun c => (c.1, c.2, min 12 (((leaves.find? (·.1 == c.1)).map Prod.snd).getD 12))
    limitLoop 512 raw

/-- Counts of the present symbols. -/
def symbolCounts (c : Codable) (elems : List Nat) : List (Nat × Nat) :=
  let xs := elems.map fun e => (splitElem c e).1
  ((List.range (alphabet c)).map fun x => (x, (xs.filter (· == x)).length)).filter fun p => p.2 > 0

/-- A code: symbol, length, value. -/
abbrev Code := Nat × Nat × Nat

/-- Canonical codes, in the order of (length, symbol) (R190). -/
def assignCodes (lens : List (Nat × Nat)) : List Code :=
  let sorted := sortBy (fun p => p.2 * 1024 + p.1) (lens.filter fun p => p.2 > 0)
  (sorted.foldl (fun (acc : List Code × Nat × Nat) p =>
    let code := if acc.1.isEmpty then 0 else (acc.2.1 + 1) * 2 ^ (p.2 - acc.2.2)
    (acc.1 ++ [(p.1, p.2, code)], code, p.2)) ([], 0, 0)).1

/-! ## Bit streams (R191) -/

/-- Bits of a code, most significant first. -/
def codeBits (len v : Nat) : List Bool := (List.range len).map fun i => bit v (len - 1 - i)

/-- Bits of a value, least significant first. -/
def valueBits (w v : Nat) : List Bool := (List.range w).map fun i => bit v i

def bitsValue (bs : List Bool) : Nat := bs.foldr (fun b acc => bit01 b + 2 * acc) 0

/-- Stream bits packed from bit 0 of byte 0 upward. -/
def packBits (bs : List Bool) : List Byte := (chunksOf 8 bs).map fun g => BitVec.ofNat 8 (bitsValue g)

def bytesBits (bs : List Byte) : List Bool := bs.flatMap fun b => valueBits 8 b.toNat

/-! ## Blocks (R192 to R195) -/

def blockHeader (raw : Bool) (n ebits len16 block : Nat) : List Byte :=
  leBytes 1 0xB1 ++ leBytes 1 (bit01 raw) ++ leBytes 2 n ++ leBytes 2 ebits ++ leBytes 2 len16 ++ leBytes 4 block ++ zeros 4

def padTo16 (bs : List Byte) : List Byte := bs ++ zeros (ceil16 bs.length - bs.length)

/-- A stored block, its bytes and the facts of its index entry: raw, E_i (0 when raw), lane time. -/
structure Stored where
  bytes : List Byte
  raw   : Bool
  ebits : Nat
  lane  : Nat

/-- Block `i` of a group from its source bytes. -/
def storeBlock (c : Codable) (codes : List Code) (i : Nat) (src : List Byte) : Stored :=
  let elems := unpackCodes (8 * c.bytes) (src.length / c.bytes) src
  let n := elems.length
  let parts := elems.map (splitElem c)
  let stream := parts.flatMap fun p => match codes.find? (·.1 == p.1) with
    | some k => codeBits k.2.1 k.2.2
    | none => []
  let e := stream.length
  let sm := packBits (parts.flatMap fun p => valueBits (smWidth c) p.2)
  let body := sm ++ packBits stream
  let codedLen := 16 + ceil16 body.length
  let rawLen := 16 + ceil16 src.length
  if codedLen < rawLen then
    ⟨blockHeader false n e (codedLen / 16) i ++ padTo16 body, false, e, max (ceilDiv n 16) (ceilDiv e 64)⟩
  else ⟨blockHeader true n 0 (rawLen / 16) i ++ padTo16 src, true, 0, ceilDiv n 16⟩

/-! ## Index and code tables (R196 to R198) -/

def indexMagic : List Byte := [0x46, 0x56, 0x58, 0x49]
def codeMagic : List Byte := [0x46, 0x56, 0x58, 0x54]

def withCrc (bs : List Byte) : List Byte := bs ++ leBytes 4 (crc32c bs).toNat

def indexEntry (b : Stored) (off : Nat) : List Byte :=
  leBytes 8 (b.ebits * 2 ^ 48 + bit01 b.raw * 2 ^ 47 + b.bytes.length / 16 * 2 ^ 32 + off)

/-- Index entries of blocks that start at rising offsets. -/
def indexEntries : Nat → List Stored → List Byte
  | _, [] => []
  | off, b :: bs => indexEntry b off ++ indexEntries (off + b.bytes.length) bs

def rateOf (c : Codable) (tmax : Nat) : Nat := min 16 (max 1 (c.nfull / tmax))

def codeTable (f : Nat) (c : Codable) (lens : List SymLen) (tmax nb elems : Nat) : List Byte :=
  let lenOf := fun x => ((lens.find? (·.1 == x)).map (·.2.2)).getD 0
  let maxlen := lens.foldl (fun m x => max m x.2.2) 0
  withCrc (codeMagic ++ leBytes 1 f ++ leBytes 1 (rateOf c tmax) ++ leBytes 1 maxlen ++ zeros 1 ++ leBytes 2 lens.length ++
    leBytes 2 tmax ++ leBytes 4 nb ++ leBytes 8 elems ++ zeros 8 ++
    (List.range 128).map (fun i => BitVec.ofNat 8 (lenOf (2 * i) + 16 * lenOf (2 * i + 1))) ++ zeros 92)

/-- The three streams that CODE writes for a source stream (R200). -/
structure CodeOut where
  dst : List Byte
  idx : List Byte
  tab : List Byte

/-- Code lengths of a source stream. -/
def groupLengths (c : Codable) (src : List Byte) : List SymLen :=
  buildLengths (symbolCounts c (unpackCodes (8 * c.bytes) (src.length / c.bytes) src))

/-- Its stored blocks. -/
def groupBlocks (c : Codable) (src : List Byte) : List Stored :=
  let codes := assignCodes ((groupLengths c src).map fun x => (x.1, x.2.2))
  (chunksOf 4096 src).zipIdx.map fun x => storeBlock c codes x.2 x.1

/-- Bytes that each stored block takes. -/
def codeSizes (c : Codable) (src : List Byte) : List Nat := (groupBlocks c src).map (·.bytes.length)

def codeGroup (f : Nat) (c : Codable) (src : List Byte) : CodeOut :=
  let elems := unpackCodes (8 * c.bytes) (src.length / c.bytes) src
  let lens := groupLengths c src
  let blocks := groupBlocks c src
  let stored := blocks.flatMap (·.bytes)
  let nb := blocks.length
  let tmax := blocks.foldl (fun m b => max m b.lane) 0
  let size := ceil16 src.length + 16 * nb
  { dst := stored ++ zeros (size - stored.length)
    idx := withCrc (indexMagic ++ leBytes 1 f ++ zeros 3 ++ leBytes 4 nb ++ zeros 4 ++ leBytes 8 elems.length ++
      leBytes 8 stored.length ++ zeros 28) ++ indexEntries 0 blocks
    tab := codeTable f c lens tmax nb elems.length }

/-! ## Expansion (R212) -/

/-- A code table that passed its checks. -/
structure CodeTab where
  codes  : List Code
  nb     : Nat
  elems  : Nat
  rate   : Nat
  tmax   : Nat
  deriving DecidableEq, Repr

/-- The first row of the table "EXPAND checks". -/
def readCodeTable (f : Nat) (c : Codable) (bs : List Byte) : Option CodeTab :=
  let lens := (List.range 256).map fun x =>
    let b := fieldAt bs (32 + x / 2) 1
    (x, if x % 2 == 0 then b % 16 else b / 16)
  let present := lens.filter fun p => p.2 > 0
  let tmax := fieldAt bs 10 2
  let rate := fieldAt bs 5 1
  if bs.length != 256 || bs.take 4 != codeMagic || fieldAt bs 252 4 != (crc32c (bs.take 252)).toNat || fieldAt bs 4 1 != f ||
      present.any (fun p => p.2 > 12 || p.1 ≥ alphabet c) || fieldAt bs 6 1 != present.foldl (fun m p => max m p.2) 0 ||
      fieldAt bs 8 2 != present.length || (present.map fun p => 2 ^ (12 - p.2)).foldl (· + ·) 0 > 4096 || tmax == 0 ||
      rate != rateOf c tmax || fieldAt bs 7 1 != 0 || fieldAt bs 24 8 != 0 || leVal ((bs.drop 160).take 92) != 0 then none
  else some ⟨assignCodes present, fieldAt bs 12 4, fieldAt bs 16 8, rate, tmax⟩

/-- The second row: the index header agrees with the code table. -/
def indexHeaderOk (f : Nat) (t : CodeTab) (bs : List Byte) : Bool :=
  bs.length == 64 && bs.take 4 == indexMagic && fieldAt bs 60 4 == (crc32c (bs.take 60)).toNat && fieldAt bs 4 1 == f &&
    fieldAt bs 8 4 == t.nb && fieldAt bs 16 8 == t.elems && fieldAt bs 5 3 == 0 && fieldAt bs 12 4 == 0 &&
    leVal ((bs.drop 32).take 28) == 0

/-- One symbol from the front of an exponent stream, with the bits left. -/
def decodeSym (codes : List Code) (bs : List Bool) : Option (Nat × List Bool) :=
  match codes.find? fun k => k.2.1 ≤ bs.length && bs.take k.2.1 == codeBits k.2.1 k.2.2 with
  | some k => some (k.1, bs.drop k.2.1)
  | none => none

def decodeSyms (codes : List Code) : Nat → List Bool → Option (List Nat × List Bool)
  | 0, bs => some ([], bs)
  | n + 1, bs =>
    match decodeSym codes bs with
    | none => none
    | some (x, rest) => match decodeSyms codes n rest with
      | none => none
      | some (xs, r) => some (x :: xs, r)

/-- The elements of a stored block of `n` elements, its header already checked; none when one of the last two rows of the table
"EXPAND checks" fails. The decoding rows are not applied to a raw block, so that one whose header and index entry agree on a non-zero
EBITS is taken: R212 does not say (assumption 65, DESIGN CHOICE). -/
def expandBody (c : Codable) (codes : List Code) (raw : Bool) (n ebits : Nat) (body : List Byte) : Option (List Byte) :=
  if raw then
    let k := n * c.bytes
    if (body.drop k).all (· == 0) && k ≤ body.length then some (body.take k) else none
  else
    let smBytes := ceilDiv (n * smWidth c) 8
    let smBits := bytesBits (body.take smBytes)
    let stream := bytesBits (body.drop smBytes)
    match decodeSyms codes n (stream.take ebits) with
    | none => none
    | some (xs, rest) =>
      if !rest.isEmpty || (stream.drop ebits).any id || (smBits.drop (n * smWidth c)).any id || stream.length < ebits then none
      else
        let w := smWidth c
        some ((xs.zipIdx).flatMap fun x => leBytes c.bytes (joinElem c x.1 (bitsValue ((smBits.drop (x.2 * w)).take w))))

end Sys2Proof.Machine
end

