-- ==== Sys2Proof/Machine/Expander.lean ====
section
/-! DEFINITION. What reaches the Anvil ports: landing units, code tables, and coded billets with their expanders and smoothing queues
(R205 to R208, R216 to R223, R246, R247). -/

namespace Sys2Proof.Machine

def ringBytes (c : RingCfg) : Nat := 4096 * 2 ^ c.log

/-- Bytes that cannot be read and are delivered spoiled. -/
def spoiledBytes (s : State) (n : Nat) : List Byte := (List.range n).map fun i => Config.unreadByte s.time i

/-- Bytes with the spoil mark on the lines among `lines`; they stand at `a`. -/
def markRead (lines : List Nat) (a : Nat) (bs : List SByte) : List SByte :=
  bs.zipIdx.map fun x => if lines.any fun l => l / 256 == (a + x.2) / 256 then (x.1.1, true) else x.1

/-- Data on its way to a port whose lines are still to be read from their banks: those among `lines` are read spoiled (R246, R269). -/
def spoilComing (now : Mc) (lines : List Nat) (m : PortMsg) : PortMsg :=
  match m.bank with
  | none => m
  | some (t, a) =>
    if t < now then m
    else { m with data := match m.data with
      | .unit l => .unit { l with spoil := l.spoil.zipIdx.map fun x => x.1 || lines.any fun y => y / 256 == a / 256 + x.2 }
      | .stored r b bs w => .stored r b (markRead lines a bs) w
      | .table r bs => .table r (markRead lines a bs) }

def spoilReads (s : State) (lines : List Nat) : State :=
  { s with buf.anvils := s.buf.anvils.map fun p => { p with coming := p.coming.map (spoilComing s.time lines) } }

/-- Data that a landing check finds faulty: the lines among `lines` land spoiled, whatever their banks hold (R247, R482). -/
def spoilLanding (s : State) (h : Half) (ap : Nat) (lines : List Nat) : State :=
  let hit := fun (m : PortMsg) => match m.bank with
    | some (_, a) => spoilComing 0 lines { m with bank := some (0, a) }
    | none => m
  updAnvil s h ap fun p => { p with coming := p.coming.map fun m => { hit m with bank := m.bank } }

/-- A unit takes its data. -/
def landUnit (l : Landing) (a : AnvilPort) : AnvilPort := { a with landing := a.landing.filter (·.unit != l.unit) ++ [l] }

/-! ## Lanes and smoothing queue (R205 to R208) -/

/-- Blocks of a block billet. -/
def ringBlocks (c : RingCfg) : Nat := ringBytes c / 4096 - 1

/-- T_RC of a table (R198). -/
def rateTime (k : Codable) (t : CodeTab) : Nat := ceilDiv k.nfull t.rate

def codedEvent (s : State) (ctx ring block : Nat) : State := ctxEvent s ctx 0x0005 ring block

/-- When the last `n` lines of a block enter the smoothing queue: free values, in rising order, not before mc `last`, none later than
`slack` mc after mc `start`, and none before a lane that begins at mc `first` can have emitted it (R205 to R207; assumption 24). -/
def lineTimes (first start slack : Nat) (floors : List Nat) : Nat → Mc → State → List Mc × State
  | 0, _, s => ([], s)
  | n + 1, last, s =>
    let (v, s1) := draw s
    let lo := first + floors.headD 0
    let x := max last (lo + v.toNat % (start + slack - lo + 1))
    let (xs, s2) := lineTimes first start slack (floors.drop 1) n x s1
    (x :: xs, s2)

/-- Bits of exponent stream that each element of a block takes (R187, R190, R191). -/
def elemBits (k : Codable) (codes : List Code) (out : List Byte) : List Nat :=
  (unpackCodes (8 * k.bytes) (out.length / k.bytes) out).map fun v =>
    ((codes.find? (·.1 == (splitElem k v).1)).map (·.2.1)).getD 0

/-- For each line of a block, the mc that a lane needs for it and for all lines before it: it emits at most 16 elements and consumes at
most 64 bits of exponent stream in one mc (R205). -/
def lineFloors (k : Codable) (codes : List Code) (raw : Bool) (out : List Byte) : List Nat :=
  let bits' := if raw then [] else elemBits k codes out
  (List.range 16).map fun j =>
    let n := (j + 1) * k.nfull / 16
    max (ceilDiv n 16) (ceilDiv ((bits'.take n).foldl (· + ·) 0) 64)

/-- The 16 lines of an expanded block. -/
def blockLines (b : PortBlock) (times : List Mc) (bs : List Byte) : List ExpLine :=
  (((chunksOf 256 bs).zip times).zipIdx).map fun x =>
    { data := x.1.1, spoil := b.out.isNone, ring := b.ring, block := b.block, due := x.1.2, final := x.2 == 15 }

/-- mc in which the lanes become free whose blocks have their last lines among `ls`, which are no longer in the queue. -/
def noteEnds (ls : List ExpLine) (a : AnvilPort) : AnvilPort :=
  let all := a.ends ++ (ls.filter (·.final)).map (·.due)
  { a with ends := all.drop (all.length - 64) }

/-- Expanded lines join the queue in order; those whose place a late read has consumed are discarded when they reach it. -/
def pushLines (ls : List ExpLine) (a : AnvilPort) : AnvilPort :=
  let b := noteEnds (ls.take a.skip) a
  { b with queue := a.queue ++ ls.drop a.skip, skip := a.skip - ls.length }

/-- Blocks with a lane whose last line has not entered the queue of 64 lines by mc `now`. -/
def busyLanes (now : Mc) (a : AnvilPort) : Nat :=
  (a.ends.filter (now < ·)).length + ((a.queue.zipIdx).filter fun x => x.1.final && (now < x.1.due || 64 ≤ x.2)).length

/-- mc at which the lane of the block 64 places back became free, for a block that has waited for it. -/
def laneTime (now : Mc) (a : AnvilPort) : Mc :=
  ((a.ends ++ (a.queue.filter (·.final)).map (·.due)).reverse[63]?).getD now

/-- A block whose stored lines have all come has its lines on their way. With a lane free at its arrival they enter the queue by
T_RC + 24 mc after it, and with them all lines before them (R206, R207): where a block of a faster table follows one of a slower table,
its bound of R207 lowers the times of the earlier block's lines, although R205's rate would let them come later (assumption 24, DESIGN
CHOICE). -/
def giveLane (s : State) (h : Half) (ap : Nat) (b : PortBlock) (arrival : Mc) : State :=
  let a := getAnvil s h ap
  let start := if b.blocked then max arrival (laneTime s.time a) else arrival
  let bound := max s.time (arrival + b.limit)
  let queue := if b.blocked then a.queue else a.queue.map fun l => { l with due := min l.due (max bound s.time) }
  let last := (queue.getLast?.map (·.due)).getD 0
  let first := if b.blocked then start else b.opened
  let (times, s1) := lineTimes first start b.cost b.floors 16 last s
  let ls := blockLines b times (b.out.getD (spoiledBytes s 4096))
  updAnvil s1 h ap fun a => pushLines ls { a with queue := queue, blocks := a.blocks.drop 1 }

/-- The blocks that have found every lane taken by blocks before them, and so wait for one (R206). -/
def markBlocked (now : Mc) (a : AnvilPort) : AnvilPort :=
  let busy := busyLanes now a
  { a with blocks := a.blocks.zipIdx.map fun x => if busy + x.2 ≥ 64 then { x.1 with blocked := true } else x.1 }

/-- The first blocks are given lanes as far as their stored lines have come and lanes are free, `fuel` at most (R206). The rules give only
upper bounds for when a line enters the queue, and do not say whether one can before its block's last stored line has come: here none
does, so that an EXPANDED read before the block's arrival is late (R208; assumption 24, DESIGN CHOICE). -/
def giveLanes (h : Half) (ap : Nat) : Nat → State → State
  | 0, s => s
  | f + 1, s =>
    let a := getAnvil s h ap
    match a.blocks with
    | [] => s
    | b :: _ =>
      if busyLanes s.time a ≥ 64 then s
      else match b.arrival with
        | none => s
        | some t => giveLanes h ap f (giveLane s h ap b t)

def runLanes (s : State) (h : Half) (ap : Nat) : State :=
  giveLanes h ap ((getAnvil s h ap).blocks.length + 1) (updAnvil s h ap (markBlocked s.time))

/-- A block's first stored line is in: the block takes its place (R206). -/
def openBlock (now : Mc) (ctx ring block : Nat) (a : AnvilPort) : AnvilPort :=
  { a with blocks := a.blocks ++
      [{ ctx := ctx, ring := ring, block := block, arrival := none, out := none, cost := 0, limit := 0, opened := now
         floors := [], blocked := false }] }

/-- The first block of a ring whose last stored line had not come, changed by `f`. -/
def updOpen (ctx ring : Nat) (f : PortBlock → PortBlock) : List PortBlock → List PortBlock
  | [] => []
  | b :: bs => if b.ctx == ctx && b.ring == ring && b.arrival.isNone then f b :: bs else b :: updOpen ctx ring f bs

/-! ## Coded billets (R216 to R222) -/

/-- What a block expands to; none where it is spoiled (table "Block billet outcomes"). -/
def expandStored (k : Codable) (tab : Option CodeTab) (last : Option Nat) (bs : List SByte) : Option (List Byte) :=
  let b := bs.map Prod.fst
  let follows := match last with
    | some n => fieldAt b 8 4 == n + 1
    | none => true
  match tab with
  | none => none
  | some t =>
    if fieldAt b 2 2 != k.nfull || !follows || fieldAt b 1 1 / 2 != 0 || fieldAt b 12 4 != 0 || bs.any Prod.snd then none
    else expandBody k t.codes (bit (fieldAt b 1 1) 0) k.nfull (fieldAt b 4 2) (b.drop 16)

/-- What a coded billet's blocks share: the port, the ring, the format, and the table with its T_RC. -/
structure CodedRun where
  half   : Half
  ap     : Nat
  ring   : RingCfg
  fmt    : Codable
  tab    : Option CodeTab

def CodedRun.limit (r : CodedRun) : Nat := 24 + (r.tab.map (rateTime r.fmt)).getD 0

/-- C_i + 24 of a stored block (R198, R205); that of the table where the block is spoiled. -/
def CodedRun.cost (r : CodedRun) (bs : List SByte) (out : Option (List Byte)) : Nat :=
  let b := bs.map Prod.fst
  if out.isNone then r.limit
  else
    let lane := if bit (fieldAt b 1 1) 0 then ceilDiv r.fmt.nfull 16 else max (ceilDiv r.fmt.nfull 16) (ceilDiv (fieldAt b 4 2) 64)
    min r.limit (lane + 24)

/-- A block whose last stored line has come. A spoiled one raises one coded-delivery event of its own: R222 does not say whether an event
names a block or the billet (assumption 65, DESIGN CHOICE). -/
def emitBlock (s : State) (r : CodedRun) (block cost : Nat) (raw : Bool) (out : Option (List Byte)) : State :=
  let s1 := if out.isNone then codedEvent s r.ring.ctx r.ring.ring block else s
  let floors := (out.map (lineFloors r.fmt ((r.tab.map (·.codes)).getD []) raw)).getD []
  let fill := fun (b : PortBlock) => { b with arrival := some s.time, out := out, cost := cost, limit := r.limit, floors := floors }
  updAnvil s1 r.half r.ap fun a => { a with blocks := updOpen r.ring.ctx r.ring.ring fill a.blocks }

/-- A block takes its place unless it has it. -/
def placeBlock (s : State) (r : CodedRun) (has : Bool) (block : Nat) : State :=
  if has then s else updAnvil s r.half r.ap (openBlock s.time r.ring.ctx r.ring.ring block)

/-- Whole blocks at the front of what has arrived are taken, `fuel` at most. A header with LEN16 = 0 is no block, like one without
TAG: it and every later block of the billet are spoiled. The table "Block billet outcomes" does not name it (assumption 65, DESIGN
CHOICE). -/
def takeBlocks (r : CodedRun) : Nat → State → Arriving → State × Arriving
  | 0, s, x => (s, x)
  | f + 1, s, x =>
    let b := x.bytes.map Prod.fst
    let size := fieldAt b 6 2 * 16
    let n := fieldAt b 8 4
    if x.taken ≥ ringBlocks r.ring || x.broken || x.bytes.length < 16 then (s, x)
    else if fieldAt b 0 1 != 0xB1 || size < 16 then (s, { x with broken := true })
    else
      let s1 := placeBlock s r x.opened n
      if x.bytes.length < size then (s1, { x with opened := true })
      else
        let bs := x.bytes.take size
        let out := expandStored r.fmt r.tab x.last bs
        takeBlocks r f (emitBlock s1 r n (r.cost bs out) (bit (fieldAt b 1 1) 0) out)
          { x with bytes := x.bytes.drop size, taken := x.taken + 1, last := some n, opened := false }

/-- The blocks that a billet lacks, spoiled. The one that has its place keeps its number; the others count on from the last number, or
from 0 where no block came: R222 gives their events no number (assumption 65, DESIGN CHOICE). -/
def restBlocks (r : CodedRun) (s : State) (x : Arriving) : State :=
  let first := if x.opened then fieldAt (x.bytes.map Prod.fst) 8 4 else (x.last.map (· + 1)).getD 0
  (List.range (ringBlocks r.ring - x.taken)).foldl (fun s i =>
    emitBlock (placeBlock s r (x.opened && i == 0) (first + i)) r (first + i) r.limit false none) s

def dropArriving (s : State) (r : CodedRun) : State :=
  updAnvil s r.half r.ap fun a => { a with arriving := a.arriving.filter fun x => !(x.ctx == r.ring.ctx && x.ring == r.ring.ring) }

def tableOf (c : RingCfg) (k : Codable) (x : Arriving) : Option CodeTab := x.table.bind (readCodeTable (c.coded.getD 0) k)

/-- Stored bytes of billet `n` of a coded ring arrive; `whole` once its last stored line has. The billet is expanded under the table that
the ring holds now, when these are its first (R220). -/
def codedIn (s : State) (h : Half) (ap : Nat) (c : RingCfg) (n : Nat) (bs : List SByte) (whole : Bool) : State :=
  match codable (c.coded.getD 0) with
  | none => s
  | some k =>
    let s0 := updAnvil s h ap fun a => { a with lastRing := c.ring }
    let a := getAnvil s0 h ap
    let held := ((a.tables.find? fun t => t.ctx == c.ctx && t.ring == c.ring).bind (·.table))
    let fresh : Arriving :=
      { ctx := c.ctx, ring := c.ring, billet := n, table := held, bytes := [], taken := 0, last := none, opened := false, broken := false }
    let run := fun (x : Arriving) => ({ half := h, ap := ap, ring := c, fmt := k, tab := tableOf c k x } : CodedRun)
    let old := a.arriving.find? fun x => x.ctx == c.ctx && x.ring == c.ring
    let (s1, x) := match old with
      | some x => if x.billet == n then (s0, x) else (restBlocks (run x) s0 x, fresh)
      | none => (s0, fresh)
    let y := takeBlocks (run x) (ringBlocks c) s1 { x with bytes := x.bytes ++ bs }
    let s2 := dropArriving y.1 (run x)
    if whole then restBlocks (run x) s2 y.2 else updAnvil s2 h ap fun a => { a with arriving := a.arriving ++ [y.2] }

/-- A table billet arrives (R219, R221). One that finds no free table slot raises a coded-delivery event whose VALUE, the block number, is
0: a table billet has none (assumption 65, DESIGN CHOICE). -/
def tableIn (s : State) (h : Half) (ap : Nat) (c : RingCfg) (bs : List SByte) : State :=
  let a := getAnvil s h ap
  let mine := fun (t : TableSlot) => t.ctx == c.ctx && t.ring == c.ring
  let valid := !bs.any Prod.snd &&
    ((codable (c.coded.getD 0)).bind fun k => readCodeTable (c.coded.getD 0) k ((bs.take 256).map Prod.fst)).isSome
  let slot : TableSlot := { ctx := c.ctx, ring := c.ring, table := if valid then some ((bs.take 256).map Prod.fst) else none }
  if !a.tables.any mine && a.tables.length ≥ 8 then codedEvent s c.ctx c.ring 0
  else updAnvil s h ap fun a => { a with tables := a.tables.filter (fun t => !mine t) ++ [slot] }

/-! ## Arrivals (R246) -/

/-- Data reaches a port. -/
def arrive (h : Half) (ap : Nat) (s : State) (m : PortMsg) : State :=
  match m.data with
  | .unit l => updAnvil s h ap (landUnit l)
  | .stored ring n bs whole => (match ringCfg s m.ctx ring with
    | some c => codedIn s h ap c n bs whole
    | none => s)
  | .table ring bs => (match ringCfg s m.ctx ring with
    | some c => tableIn s h ap c bs
    | none => s)

/-- What is due at a port by now arrives, in the order of its mc and then of acceptance; then lanes are given.
At a port under a loop test at L5 it waits for the end of the test (R505). -/
def portArrivals (s : State) (a : AnvilPort) : State :=
  let due := sortBy (·.due) (a.coming.filter fun m => decide (m.due ≤ s.time))
  if due.isEmpty || unitLooped s 5 a.half a.ap then s
  else
    let s1 := updAnvil s a.half a.ap fun x => { x with coming := x.coming.filter fun m => decide (s.time < m.due) }
    runLanes (due.foldl (arrive a.half a.ap) s1) a.half a.ap

/-- Everything that is due at the ports by now arrives. -/
def arrivals (s : State) : State := s.buf.anvils.foldl portArrivals s

/-- Head billets whose release takes effect by now are released (R240, R246). -/
def freeHeads (s : State) : State :=
  let free := fun (x : RingSt) (r : Mc × Nat) =>
    if x.released ≤ r.2 then
      { x with released := r.2 + 1, relTimes := r.1 :: x.relTimes.filter fun t => s.time < t + 4
               lengths := x.lengths.filter fun l => l.1 > r.2 }
    else x
  let upd := fun (x : RingSt) =>
    { (x.releasing.filter fun r => decide (r.1 ≤ s.time)).foldl free x with
        releasing := x.releasing.filter fun r => decide (s.time < r.1) }
  { s with buf.rings := updWhere (fun (x : RingSt) => x.releasing.any fun r => decide (r.1 ≤ s.time)) upd s.buf.rings }

/-- mc at which data reaches ports and head billets are released. -/
def portDues (s : State) : List Mc :=
  s.buf.anvils.flatMap (fun a => a.coming.map (·.due)) ++ s.buf.rings.flatMap (fun x => x.releasing.map Prod.fst) ++
    s.buf.strs.flatMap (fun x => x.due :: (x.load.map Prod.fst).toList)

end Sys2Proof.Machine
end

