-- ==== Sys2Proof/Machine/Clock.lean ====
section
/-! DEFINITION. Time: the changes of counters and of their copies, the lines of the memory ports, what reaches the Anvil ports, and what
each lets happen, mc by mc (R74, R246, R305, R362 to R365, R369, R370, R544). -/

namespace Sys2Proof.Machine

/-! ## Changes of a counter -/

/-- The change that a counter has just made is on its way to the other half's copy (R364, R544); during a half reset nothing is sent,
and the rejoin sends every value (R440). -/
def sendCopy (s : State) (ctr : Nat) : State :=
  if s.halfReset.east || s.halfReset.west then s
  else match getCtr s ctr with
    | none => s
    | some c =>
      { s with ctr.copyMsgs := s.ctr.copyMsgs ++
        [{ ctr := ctr, due := s.time + 24, value := c.value, gen := c.gen, abandoned := c.abandoned }] }

/-- 2⁶⁴ − 1. -/
def ctrMax : Nat := 2 ^ 64 - 1

/-- The counter after an update (R362). -/
def addToCtr (c : CtrSt) (u : Update) : CtrSt :=
  if c.abandoned || u.gen < c.gen then { c with discards := capAt 0xFFFFFFFF (c.discards + 1) }
  else if c.value + u.amount > ctrMax then { c with value := ctrMax, sat := true }
  else { c with value := c.value + u.amount }

/-- An update reaches its counter's home. -/
def applyUpdate (s : State) (u : Update) : State :=
  match getCtr s u.ctr with
  | none => s
  | some c =>
    let s1 := updCtr s u.ctr fun c => addToCtr c u
    if (addToCtr c u).value == c.value then s1 else sendCopy s1 u.ctr

/-- A counter's copy takes a change of its home (R364, R544). -/
def applyCopy (m : CopyMsg) (c : CtrSt) : CtrSt := { c with copyValue := m.value, copyGen := m.gen, copyAbandoned := m.abandoned }

/-- A counter wait of a request that the counter has now ended keeps its outcome (R369). -/
def latchWait (s : State) (r : Request) : Request :=
  match r.wait, r.latched with
  | some (.counter _ ctr target gen), none =>
    (match evalWait s ctr r.half target gen with
     | .met => { r with latched := some true }
     | .ownerReset => { r with latched := some false }
     | .notMet => r)
  | _, _ => r

/-- A counter reaches the target of a waiter in half `h`. -/
def targetReached (s : State) (h : Half) : Bool :=
  (s.run.reqs.any fun r => r.half == h && r.latched.isNone && (latchWait s r).latched.isSome) ||
    (s.ctxs.any fun x => x.cw.any fun w => w.half == h && evalWait s w.ctr w.half w.target w.gen != .notMet)

/-- Halves in Glow with a waiter whose counter has reached its target wake (R456). -/
def wakeWaiters (s : State) : State :=
  let wake := fun (h : Half) (x : State) => if s.power.glow.get h && targetReached s h then wakeHalf x h else x
  wake .west (wake .east s)

/-- A counter or a copy has changed: the waits of requests that have ended are latched, and the processor contexts whose waits have
ended are woken (R369, R370). -/
def counterChanged (s : State) : State :=
  let s1 := wakeWaiters s
  wakeContexts { s1 with run.reqs := s1.run.reqs.map (latchWait s1) }

/-! ## Idle halves and wake events in Glow (R453, R455, R456, R466) -/

/-- Records, events or ledger entries of the half wait to be written. -/
def writesWait (s : State) (h : Half) : Bool :=
  (s.q.records.any fun r => sqHome s r.qid == h) ||
    (s.seg.faultQs.any fun q => homePort s q.part == h && !(q.openB.isEmpty && q.closedB.isEmpty && q.waiting.isEmpty)) ||
    (s.ledgers.any fun l => homePort s l.part == h && !(l.waiting.isEmpty && l.seals.isEmpty))

/-- Lines of the half are in flight to or from a partner. -/
def remoteInFlight (s : State) (h : Half) : Bool :=
  (s.rem.outReqs.any fun o => ((partnerCfg s o.num).map (·.half)) == some h) ||
    (s.rem.inbound.any fun x => ((partnerCfg s x.num).map (·.half)) == some h)

/-- Memory or Stockpile lines of the half are in flight: at its memory ports, in its store buffer, or on their way to its Anvil ports. -/
def linesInFlight (s : State) (h : Half) : Bool :=
  (s.arb.ports.any fun p => p.half == h && !p.flight.isEmpty) || (s.arb.others.any fun o => o.line.half == h) ||
    (s.buf.stores.any fun x => x.half == h && x.live) || (s.buf.strs.any fun x => x.half == h) ||
    (s.buf.anvils.any fun a => a.half == h && !a.coming.isEmpty)

/-- The half is idle (R453), as far as the state shows it: a bundle that the schedule port accepts is noted when it comes, and SEQ_IDLE
comes from outside. -/
def halfIdle (s : State) (h : Half) : Bool :=
  !(s.run.reqs.any fun r => r.half == h && (r.hauler.isSome || r.tongs.isSome)) && !linesInFlight s h && !remoteInFlight s h &&
    !writesWait s h &&
    !(s.test.loop.running && s.test.loop.half == h)

/-- A half that is not idle is busy up to mc `t`, at which something next happens. -/
def busyTo (s : State) (t : Mc) (h : Half) (b : Both Mc) : Both Mc := if halfIdle s h then b else b.set h t

/-- Timer pacing lines with a context of half `h`, with the mc of their next requests. -/
def timersOf (s : State) (h : Half) : List Mc :=
  (s.buf.pacing.filter fun x => (pacingCfg s x.line).any fun c => c.source == .timer && homeOfCtx s c.ctx == h).map (·.due)

/-- 120 ns in mc, which a wake from Glow takes at most. -/
def glowWakeTime : Nat := 252

/-- mc at which a half in Glow wakes for its timer pacing requests: 120 ns before each is due (R466). -/
def timerWakes (s : State) (h : Half) : List Mc :=
  if running s && s.power.glow.get h && !s.power.wakeHeld.get h then
    ((timersOf s h).filter (s.time ≤ ·)).map fun d => d - glowWakeTime
  else []

/-- Halves in Glow in which a timer pacing request falls within 120 ns wake. -/
def wakeTimers (s : State) : State :=
  let due := fun (h : Half) => (timerWakes s h).any (· ≤ s.time)
  let s1 := if due .east then wakeHalf s .east else s
  if due .west then wakeHalf s1 .west else s1

/-- A line is ready at a memory port of the half. -/
def asked (s : State) (h : Half) : Bool := s.arb.ports.any fun p => p.half == h && !(askersAt s p).isEmpty

/-- A line that is ready at a port of a half in Glow, from the other half over the Seam, wakes the half (R455, R456). -/
def wakeAsked (s : State) : State :=
  let wake := fun (h : Half) (s : State) => if s.power.glow.get h && !s.power.wakeHeld.get h && asked s h then wakeHalf s h else s
  wake .west (wake .east s)

/-! ## What happens in one mc -/

/-- Every update that reaches its counter by now is applied, in the order in which they reach it (R18, R363). -/
def applyUpdates (s : State) : State :=
  let due := sortBy (·.due) (s.ctr.updates.filter fun u => decide (u.due ≤ s.time))
  due.foldl (fun s u => counterChanged (applyUpdate s u))
    { s with ctr.updates := s.ctr.updates.filter fun u => decide (s.time < u.due) }

/-- Copies take the changes that reach them by now, one after the other (R364, R544). -/
def applyCopies (s : State) : State :=
  let due := sortBy (·.due) (s.ctr.copyMsgs.filter fun m => decide (m.due ≤ s.time))
  due.foldl (fun s m => counterChanged (updCtr s m.ctr (applyCopy m)))
    { s with ctr.copyMsgs := s.ctr.copyMsgs.filter fun m => decide (s.time < m.due) }

/-- mc at which the first SIGNAL of a request that is on its way takes effect. -/
def sentDue (r : Request) : Option Mc :=
  match r.effects with
  | .sent due :: _ => some due
  | _ => none

/-- The lines of STR whose mc has come are written (R241, R246), before anything else that the mc writes (R230). -/
def landStrs (s : State) : State :=
  let ready := fun (x : StrWrite) => (x.load.map fun l => decide (l.1 ≤ s.time)).getD false
  let s1 := (s.buf.strs.filter ready).foldl (fun s x => match x.load with
    | some (_, a, bs) => writeBank s .schedule none a bs
    | none => s) s
  { s1 with buf.strs := updWhere ready (fun x => { x with load := none }) s1.buf.strs }

/-- The responses of STR that come by now: SIGs that waited for them are released (R251). -/
def answerStrs (s : State) : State :=
  if s.buf.strs.any fun x => decide (x.due ≤ s.time) then
    releaseSigs { s with buf.strs := s.buf.strs.filter fun x => decide (s.time < x.due) }
  else s

/-- Effects that waited for a SIGNAL to take effect follow it (R109). -/
def followSent (s : State) : State :=
  (s.run.reqs.filter fun r => (sentDue r).any (· ≤ s.time)).foldl (fun s r => releaseEffects s r.id) s

/-- PCLK that have passed by mc `t`: four in five mc (table "Clocks"). -/
def pclkOf (t : Mc) : Nat := 4 * t / 5

/-- The memory ports at the present mc: haulers fill their port buffers, and a PCLK that begins in it runs. -/
def runPorts (s : State) : State :=
  let s1 := wakeAsked (fillAll s)
  if pclkOf s1.time > s1.arb.pclk then runPclk (pclkOf s1.time) s1 else s1

/-- A memory test that is over by now: every line of its half's Stockpile is zero, and the failing banks show (R507). -/
def endMbist (s : State) : State :=
  match s.test.mbist with
  | some m =>
    if m.ends ≤ s.time then
      { s with mem := zeroStock m.half s.mem
               test := { s.test with mbist := none, mbState := if m.failing.isEmpty then 2 else 3, mbFail := dedup m.failing } }
    else s
  | none => s

/-- What happens in the mc at which the machine now stands. -/
def tick (s : State) : State :=
  let s1 := followSent (applyCopies (applyUpdates (answerStrs (landStrs (freeHeads (arrivals (wakeTimers (endMbist s))))))))
  if linesBusy s1 then runPorts s1 else s1

/-! ## Letting time pass -/

/-- The clocks alone move to mc `t`: TIME, HTIME, how long each half has been idle, and its Run time. -/
def jumpTo (s : State) (t : Mc) : State :=
  let run := fun (h : Half) => s.power.ran.get h + if hasPclk s h then t - s.time else 0
  { s with time := t
           power := { tickHearth s.power (t - s.time) with
             busyAt := busyTo s t .west (busyTo s t .east s.power.busyAt), ran := ⟨run .east, run .west⟩ } }

/-- The wheels and credits at the present mc. -/
def syncPorts (s : State) : State := passPclk s (pclkOf s.time)

/-- mc in which closed entries reach the ledger unit (R419). -/
def entryDues (s : State) : List Mc :=
  s.ledgers.flatMap fun l => ((l.waiting.filter (·.closed.isSome)).map reachTime).filter (s.time < ·)

/-- The next mc at which something happens by itself. -/
def nextEvent (s : State) : Option Mc :=
  let dues := s.ctr.updates.map (·.due) ++ s.ctr.copyMsgs.map (·.due) ++ s.run.reqs.filterMap sentDue ++ portDues s ++ entryDues s ++
    timerWakes s .east ++ timerWakes s .west ++ (s.test.mbist.map (·.ends)).toList ++
    (if linesBusy s then [s.time + 1] else [])
  (minBy id dues).map (max (s.time + 1))

/-- Everything up to mc `t` happens, in the order of time. -/
def advanceTo : Nat → State → Mc → State
  | 0, s, t => jumpTo s t
  | f + 1, s, t =>
    match nextEvent s with
    | some e => if e ≤ t then advanceTo f (tick (jumpTo s e)) t else jumpTo s t
    | none => jumpTo s t

/-- The power state when time has passed up to `q`: HTIME and the steps of a Banked entry have gone on, halves may have left Glow or may
have met a wake event that waits. -/
def powerPart (p q : PowerSt) (mc : Nat) : PowerSt :=
  let p1 := { tickHearth p mc with busyAt := q.busyAt, ran := q.ran, wakeHeld := q.wakeHeld }
  let glow : Both Bool := ⟨p.glow.east && q.glow.east, p.glow.west && q.glow.west⟩
  if glow == p.glow then p1 else bellows { p1 with glow := glow }

/-- What time alone can change: all else of `s` stays. -/
def timePart (s x : State) : State :=
  { s with time := x.time, power := powerPart s.power x.power (x.time - s.time), mem := x.mem, ctxs := x.ctxs, q := x.q, run := x.run, buf := x.buf
           ctr := x.ctr, arb := x.arb, seg := x.seg, rem := x.rem, ledgers := x.ledgers, drawn := x.drawn, out := x.out
           test := { s.test with mbist := x.test.mbist, mbState := x.test.mbState, mbFail := x.test.mbFail } }

/-- The machine at mc `t`, or at its own TIME when `t` lies behind it (assumption 1). -/
def atTime (s : State) (t : Mc) : State :=
  if t ≤ s.time then s else timePart s (syncPorts (advanceTo (t - s.time) s t))

/-- The machine at mc `t` when an access reaches host port `h` (R529). -/
def hostAt (s : State) (t : Mc) (h : Half) : State := hostBeat (atTime s t) h

/-- An empty queue: one mc passes (assumption 2). -/
def idle (s : State) : State := atTime s (s.time + 1)

/-- Time passes event by event until `p` holds, for at most `fuel` events. -/
def passUntil (p : State → Bool) : Nat → State → State
  | 0, s => s
  | f + 1, s =>
    if p s then s
    else match nextEvent s with
      | some e => passUntil p f (atTime s e)
      | none => s

/-- Bound on the events that what is now under way can make: the mc that its lines need at the least favourable port, and the
changes of counters. -/
def eventsLeft (s : State) : Nat :=
  let lines := s.run.reqs.flatMap (fun r => r.lines.buffers ++ r.lines.stream)
  64 * (lines.length + (s.buf.stores.map (·.lines.length)).foldl (· + ·) 0 + s.arb.others.length +
    (s.arb.ports.map (·.flight.length)).foldl (· + ·) 0 + s.ctr.updates.length + s.ctr.copyMsgs.length + s.run.reqs.length + (portDues s).length +
    (entryDues s).length + 4)

/-- An event that the mover makes by itself once `p` holds: the machine at the mc from `t` on at which `p` holds, or at `t` when
nothing under way brings that about (assumption 1). -/
def whenReady (s : State) (t : Mc) (p : State → Bool) : State :=
  let s1 := atTime s t
  let s2 := passUntil p (eventsLeft s1) s1
  if p s2 then s2 else s1

end Sys2Proof.Machine
end

