-- ==== Sys2Proof/Machine/Buffers.lean ====
section
/-! DEFINITION. Rings and handle queues: slots, claims, acquisitions, publication (R91, R96 to R98, R235 to R243). -/

namespace Sys2Proof.Machine

/-- Bytes of a context's parking area, rounded up to 64 KiB (R232). -/
def parkingBytes (g : StagingCfg) : Nat := roundUp (g.parking * 1024) 65536

/-- Virtual address of an offset of a context's staging area (R98, R232, R233). -/
def stagingVa (s : State) (ctx offset : Nat) : Nat :=
  match stagingCfg s ctx with
  | some g => ((getSeg s ctx g.segment).map (·.cfg.start)).getD 0 + (offset - parkingBytes g)
  | none => 0

/-- Local address of an offset of a context's staging area. -/
def stagingLocal (s : State) (ctx offset : Nat) : Nat :=
  match stagingCfg s ctx with
  | some g => stockBase g.half + g.offset + offset
  | none => 0

/-- Offset of billet `k`'s slot in the staging area (R238). -/
def slotOffset (c : RingCfg) (k : Nat) : Nat := c.offset + k % c.slots * ringBytes c

/-- The addresses that fills of a ring can write: its slots. -/
def ringSpan (s : State) (c : RingCfg) : Int × Int :=
  let a := stagingVa s c.ctx (slotOffset c 0)
  (a, a + c.slots * ringBytes c - 1)

/-- H as claims see it: a release counts from the fourth mc after it (R240). -/
def claimableH (s : State) (x : RingSt) : Nat := x.released - (x.relTimes.filter fun t => s.time < t + 4).length

/-- P as the schedule port sees it: a publication is visible from the third mc after it (R240). -/
def visibleP (s : State) (x : RingSt) : Nat := x.published - (x.pubTimes.filter fun t => s.time < t + 3).length

/-- The next billet may be claimed (R239). -/
def mayClaim (s : State) (c : RingCfg) (x : RingSt) : Bool := x.claimed < claimableH s x + c.ahead

/-- Requests of the context that began the same wait before `r` does or did (R91, R97, R98, R114). -/
def aheadOf (s : State) (r : Request) (w : Wait) : Nat :=
  (s.run.reqs.filter fun x => x.ctx == r.ctx && x.id != r.id && x.wait == some w && waitKey x < keyFor s r w).length

/-- A publication of the next billet (R91, R240). -/
def publishBillet (s : State) (ctx ring : Nat) : State :=
  updRing s ctx ring fun x =>
    { x with published := x.published + 1, pubTimes := s.time :: x.pubTimes.filter fun t => s.time < t + 3 }

/-- The head effect of a request publishes billet `k` of a ring, and its writes are answered; `soon` when only answers of lines or a
SIGNAL on its way stand before it. -/
def publishesRing (s : State) (soon : Bool) (ring k : Nat) (r : Request) : Bool :=
  match (if soon then r.effects.dropWhile isSent else r.effects) with
  | .ringPublish g b [] upto :: _ => g == ring && b == k && (soon || !writesOpen s r upto)
  | _ => false

/-- The request that publishes the ring's next billet. -/
def publisher (s : State) (ctx ring : Nat) (soon : Bool) : Option Request :=
  match getRing s ctx ring with
  | some x => if running s then s.run.reqs.find? fun r => r.ctx == ctx && publishesRing s soon ring x.published r else none
  | none => none

/-- RING_PUBLISH: billet P of the ring is published once its fill's writes have their responses (R91). -/
def execRingPublish (t : Mc) (ctx : Fin 256) (ring : Fin 2048) (s : State) : Result :=
  let s1 := whenReady s t fun x => (publisher x ctx.val ring.val false).isSome || (publisher x ctx.val ring.val true).isNone
  match publisher s1 ctx.val ring.val false with
  | none => answer s s1
  | some r => answer s (releaseEffects (popEffect (publishBillet (askHost s1 r) ctx.val ring.val) (hostAnswered r)) r.id)

/-- The head effect of a request fills entry `n` of a handle queue: the base to write. `soon` as for a ring. -/
def publishesHandle (s : State) (soon : Bool) (q n : Nat) (r : Request) : Option Nat :=
  match (if soon then r.effects.dropWhile isSent else r.effects) with
  | .handlePublish q' n' base [] upto :: _ =>
    if q' == q && n' == n && (soon || !writesOpen s r upto) then some base else none
  | _ => none

/-- The oldest reserved entry of a queue that is not yet filled, the request that fills it, and the base. -/
def handleFiller (s : State) (ctx q : Nat) (soon : Bool) : Option (HandleEntry × Request × Nat) :=
  match (if running s then (getHandle s ctx q).bind fun x => x.entries.find? fun e => e.val.isNone else none) with
  | none => none
  | some e => (getReq s e.req).bind fun r => (publishesHandle s soon q e.id r).map fun b => (e, r, b)

/-- The entry's bytes in the queue's buffer (R242): entry `n` stands at 8 × (n mod depth). -/
def writeHandle (s : State) (w : Writer) (c : HandleCfg) (n base : Nat) : State :=
  writeBank s w none (stagingLocal s c.ctx c.offset + n % c.depth * 8) (good (leBytes 8 base))

/-- HANDLE_PUBLISH: the oldest reserved entry that is not yet filled takes its handle (R96). -/
def execHandlePublish (t : Mc) (ctx : Fin 256) (queue : Fin 1024) (s : State) : Result :=
  let s1 := whenReady s t fun x => (handleFiller x ctx.val queue.val false).isSome || (handleFiller x ctx.val queue.val true).isNone
  match handleFiller s1 ctx.val queue.val false, handleCfg s1 ctx.val queue.val with
  | some (e, r, base), some c =>
    let s2 := updHandle (writeHandle (askHost s1 r) (.hauler (r.hauler.getD 128)) c e.id base) ctx.val queue.val fun q =>
      { q with entries := updWhere (fun (y : HandleEntry) => y.id == e.id) (fun y => { y with val := some base }) q.entries }
    answer s (releaseEffects (popEffect s2 (hostAnswered r)) r.id)
  | _, _ => answer s s1

end Sys2Proof.Machine
end

