-- ==== Sys2Proof/Machine/Operands.lean ====
section
/-! DEFINITION. The operand forms: the words of a haul program decoded field by field (tables of chapter 03), with the checks of
reserved fields and reserved values that pre-validation makes on a single instruction. -/

namespace Sys2Proof.Machine

/-- A decoded haul instruction (table "Instruction set"). -/
inductive HInstr where
  | nop
  | halt
  | shape (s : Nat) (pb : Bool) (pi len cnt off : Nat) (stride : Int)
  | move (src dst sfmt dfmt : Nat) (sr : Bool) (srp bil : Nat)
  | gather (tbl dst idx iw : Nat) (fd : Bool) (feed fmt bil : Nat)
  | loop (l body : Nat) (pc : Bool) (pi cnt : Nat)
  | step (s : Nat) (d : Int)
  | xform (kind a b : Nat)
  | quant (blk mode ch sblk slast : Nat)
  | sums (out : Nat) (row col : Bool)
  | code (src dst idx tab fmt : Nat)
  | expand (src dst idx tab fmt fb : Nat)
  | fill (ring src sfmt dfmt : Nat) (sr : Bool) (srp : Nat)
  | putHandle (q s : Nat)
  | acquire (ring s : Nat)
  | release (ring : Nat)
  | takeHandle (q s : Nat)
  | wait (b : Nat) (abs : Bool) (pi n : Nat)
  | signal (b n : Nat)
  | fence (all : Bool)
  | pace (line src dst sfmt dfmt : Nat) (sr : Bool) (srp bil : Nat)
  | prefetch (s : Nat) (w : Bool)
  | advise (s hint : Nat)
  | atomic (op : Nat) (wide signed : Bool) (t opd cmp : Nat) (ret : Bool) (rs : Nat)
  | reduce (src rid pe fmt : Nat)
  | split
  | mark (pi : Nat)
  | report (irq : Bool) (code : Nat)
  | setp (pd mode ps : Nat) (imm : Int) (ext : Word)
  deriving DecidableEq, Repr

def opcodeOf (w : Word) : Nat := bits w.toNat 63 58

/-- Extension words that follow a word (table "Instruction set"). -/
def extWords (w : Word) : Nat :=
  if opcodeOf w == 2 then 2 else if opcodeOf w == 0x18 && bits w.toNat 53 52 == 3 then 1 else 0

/-- The instruction of a word and its extension words; none for a reserved opcode or a reserved KIND. -/
def decodeHaul (w e1 e2 : Word) : Option HInstr :=
  let v := w.toNat
  let f := fun hi lo => bits v hi lo
  match opcodeOf w with
  | 0x00 => some .nop
  | 0x01 => some .halt
  | 0x02 => some (.shape (f 57 55) (bit v 54) (f 53 50) (f 47 24 + 1) (f 23 0 + 1) (bits e1.toNat 56 0)
      (signed 40 (bits e2.toNat 39 0)))
  | 0x03 => some (.move (f 57 55) (f 54 52) (f 51 47) (f 46 42) (bit v 41) (f 40 37) (f 36 34))
  | 0x04 => some (.gather (f 57 55) (f 54 52) (f 51 49) (f 48 47) (bit v 46) (f 45 38) (f 37 33) (f 32 30))
  | 0x05 => some (.loop (f 57 55) (f 54 42) (bit v 41) (f 40 37) (f 23 0 + 1))
  | 0x06 => some (.step (f 57 55) (signed 40 (f 39 0)))
  | 0x07 => some (.xform (f 57 52) (f 51 32) (f 31 0))
  | 0x08 => some (.quant (f 57 48) (f 47 46) (f 45 34) (f 33 24) (f 23 9))
  | 0x09 => some (.sums (f 57 55) (bit v 54) (bit v 53))
  | 0x0A => some (.code (f 57 55) (f 54 52) (f 51 49) (f 48 46) (f 45 41))
  | 0x0B => some (.expand (f 57 55) (f 54 52) (f 51 49) (f 48 46) (f 45 41) (f 40 37))
  | 0x0C =>
    match f 57 56 with
    | 0 => some (.fill (f 55 44) (f 43 41) (f 40 36) (f 35 31) (bit v 30) (f 29 26))
    | 1 => some (.putHandle (f 55 44) (f 43 41))
    | _ => none
  | 0x0D =>
    match f 57 56 with
    | 0 => some (.acquire (f 55 44) (f 43 41))
    | 1 => some (.release (f 55 44))
    | 2 => some (.takeHandle (f 55 44) (f 43 41))
    | _ => none
  | 0x0E => some (.wait (f 57 55) (bit v 54) (f 53 50) (f 31 0))
  | 0x0F => some (.signal (f 57 55) (f 31 0))
  | 0x10 =>
    match f 57 56 with
    | 0 => some (.fence false)
    | 1 => some (.fence true)
    | _ => none
  | 0x11 => some (.pace (f 57 50) (f 49 47) (f 46 44) (f 43 39) (f 38 34) (bit v 33) (f 32 29) (f 28 26))
  | 0x12 => some (.prefetch (f 57 55) (bit v 54))
  | 0x13 => some (.advise (f 57 55) (f 54 51))
  | 0x14 => some (.atomic (f 57 55) (bit v 54) (bit v 53) (f 52 50) (f 49 46) (f 45 42) (bit v 41) (f 40 38))
  | 0x15 => some (.reduce (f 57 55) (f 54 43) (f 42 39) (f 38 34))
  | 0x16 =>
    match f 57 56 with
    | 0 => some .split
    | 1 => some (.mark (f 55 52))
    | _ => none
  | 0x17 => some (.report (bit v 57) (f 14 0))
  | 0x18 => some (.setp (f 57 54) (f 53 52) (f 51 48) (signed 48 (f 47 0)) e1)
  | _ => none

/-- A reserved field, or a field that the instruction's mode leaves unused, is non-zero, or a field holds a reserved value. -/
def wordBad (w e1 e2 : Word) : Bool :=
  let v := w.toNat
  let f := fun hi lo => bits v hi lo
  let nz := fun hi lo => bits v hi lo != 0
  let srBad := fun (sr : Bool) srp => if sr then srp == 15 else srp != 0
  match decodeHaul w e1 e2 with
  | none => true
  | some i =>
    match i with
    | .nop => nz 57 0
    | .halt => nz 57 0
    | .shape _ pb pi _ _ _ _ => nz 49 48 || bits e1.toNat 63 57 != 0 || bits e2.toNat 63 40 != 0 || (!pb && pi != 0)
    | .move _ _ _ _ sr srp bil => nz 33 0 || bil > 4 || srBad sr srp
    | .gather _ _ idx iw fd feed _ bil =>
      nz 29 0 || bil > 4 || (if fd then idx != 0 || iw != 0 else feed != 0 || iw == 3)
    | .loop _ _ pc pi _ => nz 36 24 || (if pc then nz 23 0 else pi != 0)
    | .step _ _ => nz 54 40
    | .xform kind a b => kind == 0 || kind > 8 || (kind ≤ 3 && a != 0) || (kind != 2 && kind != 4 && b != 0)
    | .quant _ mode _ _ _ => nz 8 0 || mode == 3
    | .sums _ _ _ => nz 52 0
    | .code _ _ _ _ _ => nz 40 0
    | .expand _ _ _ _ _ _ => nz 36 0
    | .fill _ _ _ _ sr srp => nz 25 0 || srBad sr srp
    | .putHandle _ _ => nz 40 0
    | .acquire _ _ => nz 40 0
    | .release _ => nz 43 0
    | .takeHandle _ _ => nz 40 0
    | .wait _ abs pi _ => nz 49 32 || (!abs && pi != 0)
    | .signal _ n => nz 54 32 || n == 0
    | .fence _ => nz 55 0
    | .pace _ _ _ _ _ sr srp bil => nz 25 0 || bil > 4 || srBad sr srp
    | .prefetch _ _ => nz 53 0
    | .advise _ hint => nz 50 0 || hint > 3
    | .atomic op _ sg _ _ cmp ret rs =>
      nz 37 0 || op > 4 || (sg && op != 1 && op != 2) || (op != 4 && cmp != 0) || (!ret && rs != 0)
    | .reduce _ _ _ _ => nz 33 0
    | .split => nz 55 0
    | .mark _ => nz 51 0
    | .report _ _ => nz 56 15
    | .setp _ mode ps _ _ => ((mode == 0 || mode == 3) && ps != 0) || (mode == 3 && f 47 0 != 0)

/-- The value that SETP writes (table "Fields of SETP, LEDGER, REPORT, NOP and HALT"). -/
def setpValue (mode : Nat) (ps : Word) (imm : Int) (ext : Word) : Word :=
  let i := BitVec.ofInt 64 imm
  match mode with
  | 0 => i
  | 1 => ps + i
  | 2 => ps * i
  | _ => ext

/-- Names of the haul-instruction rows of the opcode table, as the hauler's commands check them. -/
def isRow : HInstr → String
  | .nop => "NOP"
  | .halt => "HALT"
  | .shape _ _ _ _ _ _ _ => "SHAPE"
  | .move _ _ _ _ _ _ _ => "MOVE"
  | .gather _ _ _ _ _ _ _ _ => "GATHER"
  | .loop _ _ _ _ _ => "LOOP"
  | .step _ _ => "STEP"
  | .xform _ _ _ => "XFORM"
  | .quant _ _ _ _ _ => "QUANT"
  | .sums _ _ _ => "SUMS"
  | .code _ _ _ _ _ => "CODE"
  | .expand _ _ _ _ _ _ => "EXPAND"
  | .fill _ _ _ _ _ _ => "PUT_RING_FILL"
  | .putHandle _ _ => "PUT_HANDLE"
  | .acquire _ _ => "TAKE_RING_ACQUIRE"
  | .release _ => "TAKE_RING_RELEASE"
  | .takeHandle _ _ => "TAKE_HANDLE"
  | .wait _ _ _ _ => "WAIT"
  | .signal _ _ => "SIGNAL"
  | .fence _ => "FENCE"
  | .pace _ _ _ _ _ _ _ _ => "PACE"
  | .prefetch _ _ => "PREFETCH"
  | .advise _ _ => "ADVISE"
  | .atomic _ _ _ _ _ _ _ _ => "ATOMIC"
  | .reduce _ _ _ _ => "REDUCE"
  | .split => "LEDGER_SPLIT"
  | .mark _ => "LEDGER_MARK"
  | .report _ _ => "REPORT"
  | .setp _ _ _ _ _ => "SETP"

/-- The instruction at a word index of a program. -/
def instrAt (prog : List Word) (pc : Nat) : Option HInstr :=
  match prog.drop pc with
  | [] => none
  | w :: rest => decodeHaul w (rest.getD 0 0) (rest.getD 1 0)

/-- Words of the instruction at a word index, extension words included. -/
def instrWords (prog : List Word) (pc : Nat) : Nat := 1 + extWords (prog.getD pc 0)

/-! ## Dimensions of shape sets (R50, R51, R54) -/

/-- STEPs of a loop body that belong to the loop itself: shape set and step, over words lo to hi − 1. -/
def directSteps (prog : List Word) : Nat → Nat → Nat → List (Nat × Int)
  | 0, _, _ => []
  | f + 1, lo, hi =>
    if hi ≤ lo then []
    else match instrAt prog lo with
      | some (.step s d) => (s, d) :: directSteps prog f (lo + 1) hi
      | some (.loop _ body _ _ _) => directSteps prog f (lo + 1 + body) hi
      | _ => directSteps prog f (lo + instrWords prog lo) hi

/-- Lowest and highest virtual address of a shape over all its dimensions, from a base on: `dims` are the loop dimensions, each a count
and a step (R54). -/
def shapeSpan (base : Int) (sh : ShapeSet) (dims : List (Nat × Int)) : Int × Int :=
  let ext := fun (acc : Int × Int) (d : Nat × Int) =>
    let v := ((d.1 : Int) - 1) * d.2
    if v < 0 then (acc.1 + v, acc.2) else (acc.1, acc.2 + v)
  ((sh.count, sh.stride) :: dims).foldl ext (base, base + sh.len - 1)

end Sys2Proof.Machine
end

