-- ==== Sys2Proof/Machine/Transform.lean ====
section
/-! DEFINITION. The Tongs' chain as pure functions: modifiers, transform geometry and refusals, the transforms themselves, element
conversion, and the records that QUANT and SUMS make (chapter 04; R119 to R130, R167 to R183). -/

namespace Sys2Proof.Machine

/-! ## Modifiers -/

/-- The fields of a QUANT word. -/
structure QuantF where
  blk   : Nat
  mode  : Nat
  ch    : Nat
  sblk  : Nat
  slast : Nat
  deriving DecidableEq, Repr

/-- KIND, A and B of an XFORM word. -/
abbrev XformF := Nat × Nat × Nat

/-- The modifiers of a pass. -/
structure Mods where
  xforms : List XformF
  quant  : Option QuantF
  /-- OUT, ROW and COL of the SUMS word. -/
  sums   : Option (Nat × Bool × Bool)
  deriving DecidableEq, Repr

def addMod (m : Mods) (w : Word) : Mods :=
  match decodeHaul w 0 0 with
  | some (.xform k a b) => { m with xforms := m.xforms ++ [(k, a, b)] }
  | some (.quant blk mode ch sblk slast) => { m with quant := some ⟨blk, mode, ch, sblk, slast⟩ }
  | some (.sums out row col) => { m with sums := some (out, row, col) }
  | _ => m

def modsOf (ws : List Word) : Mods := ws.foldl addMod ⟨[], none, none⟩

/-- Row block length of the destination records (R95). -/
def dstBlk (m : Mods) : Nat := ((m.quant.map (·.blk)).getD 1 + 1) * 16

/-- Row block length of the source records (R95). -/
def srcBlk (m : Mods) (sfmt dfmt : Nat) : Nat :=
  match m.quant with
  | some q => ((if isRecord sfmt && isRecord dfmt then q.sblk else q.blk) + 1) * 16
  | none => 32

def srcLast (m : Mods) : Nat := (m.quant.map (·.slast)).getD 0

/-- A byte copy (R88): equal formats and no modifiers. -/
def isByteCopy (m : Mods) (sfmt dfmt : Nat) : Bool := sfmt == dfmt && m.xforms.isEmpty && m.quant.isNone && m.sums.isNone

/-! ## Geometry (R118 to R130) -/

/-- Elements of a line of `len` bytes: by width, or as declared for records (R118, R119, R543). -/
def lineCols (f b slast len : Nat) : Option Nat :=
  if isRecord f then declaredCount f b slast len
  else if fmtBits f == 0 || len * 8 % fmtBits f != 0 then none else some (len * 8 / fmtBits f)

/-- Cd of a destination whose lines hold `len` bytes: line length × 8 ÷ bits(DFMT), for a record format too (R122). -/
def destCols (f len : Nat) : Option Nat :=
  if isRecord f then some (len * 8 / fmtBits f)
  else if fmtBits f == 0 || len * 8 % fmtBits f != 0 then none else some (len * 8 / fmtBits f)

def isPad (x : XformF) : Bool := x.1 == 2 || x.1 == 3

/-- Rows and columns after one transform (table "Transform definitions"), none when a condition of the table "Chain refusals" on the
transform alone holds. Nd and Cd are the destination's counts. -/
def xformDims (nd cd : Nat) (x : XformF) (r c : Nat) : Option (Nat × Nat) :=
  let (k, a, b) := x
  match k with
  | 1 => if a == 0 && b == 0 then some (c, r) else none
  | 2 => if a == 0 && r ≤ nd && c ≤ cd then some (nd, cd) else none
  | 3 => if a == 0 && b == 0 && r ≤ nd && c ≤ cd then some (nd, cd) else none
  | 4 => if b != 0 && a + b ≤ c then some (r, b) else none
  | 5 => if 2 ≤ a && a ≤ 16 && r % a == 0 then some (r / a, c * a) else none
  | 6 => if 2 ≤ a && a ≤ 16 && c % a == 0 then some (r * a, c / a) else none
  | 7 => if 1 ≤ a && a ≤ 8 && b == 0 && c % 8 == 0 then some (r * a, c / 8) else none
  | 8 => if 1 ≤ a && a ≤ 8 && b == 0 && r % a == 0 then some (r / a, c * 8) else none
  | _ => none

/-- Held data of one transform in bits, elements of `w` bits (R125). -/
def heldBits (x : XformF) (r c w : Nat) : Nat :=
  match x.1 with
  | 1 => r * c * w
  | 3 => c * w
  | 5 => x.2.1 * c * w
  | 6 => c * w
  | 7 => c * w
  | 8 => x.2.1 * c * 8
  | _ => 0

/-- Dimensions of the final matrix and the held data in bits; `w` is the element size at this point of the chain. -/
def chainDims (nd cd dbits : Nat) : List XformF → Nat → Nat → Nat → Nat → Option (Nat × Nat × Nat)
  | [], r, c, _, held => some (r, c, held)
  | x :: xs, r, c, w, held =>
    match xformDims nd cd x r c with
    | none => none
    | some (r', c') => chainDims nd cd dbits xs r' c' (if x.1 == 8 then dbits else w) (held + heldBits x r c w)

/-- The order conditions of the table "Chain refusals". -/
def orderOk (xs : List XformF) : Bool :=
  let ks := xs.map Prod.fst
  (ks.dropLast.all fun k => k != 2 && k != 3 && k != 7) && ((ks.drop 1).all fun k => k != 8) &&
    !(ks.contains 7 && ks.contains 8)

/-- BITSPLIT and BITMERGE chains: formats and w (R128, R129), no QUANT, SUMS or SR (R130). -/
def bitsOk (m : Mods) (sfmt dfmt : Nat) (sr : Bool) : Bool :=
  let side := fun f w => (f == 0 || f == 0xB || f == 0xA) && w ≤ 8 || (f == 0xD || f == 0xC) && w ≤ 4
  m.xforms.all fun x =>
    if x.1 == 7 then side sfmt x.2.1 && dfmt == 0 && m.quant.isNone && m.sums.isNone && !sr
    else if x.1 == 8 then sfmt == 0 && side dfmt x.2.1 && m.quant.isNone && m.sums.isNone && !sr
    else true

def hasBits (m : Mods) : Bool := m.xforms.any fun x => x.1 == 7 || x.1 == 8

/-- The pad constant fits DFMT, and no PAD_CONST stands before a record format (R127, table "Chain refusals"). -/
def padOk (m : Mods) (dfmt : Nat) : Bool :=
  m.xforms.all fun x => x.1 != 2 || (!isRecord dfmt && x.2.2 < 2 ^ fmtBits dfmt)

/-- Final dimensions of a chain, none when R124, R125, R127, R128, R129 or R130 refuses it. `fill` is a ring fill, whose
destination has no counts of its own. -/
def chainResult (m : Mods) (sfmt dfmt : Nat) (sr fill : Bool) (r c nd cd : Nat) : Option (Nat × Nat) :=
  if !orderOk m.xforms || !bitsOk m sfmt dfmt sr || !padOk m dfmt || (fill && m.xforms.any isPad) then none
  else match chainDims nd cd (fmtBits dfmt) m.xforms r c (chainBits sfmt) 0 with
    | none => none
    | some (r', c', held) => if held ≤ 524288 * 8 then some (r', c') else none

/-- Bytes of the destination stream of a ring fill with these final dimensions; none when R119 refuses it. -/
def fillBytes (m : Mods) (dfmt r c : Nat) : Option Nat :=
  if isMx dfmt then (if c % 32 == 0 && c > 0 then some (r * mxSize dfmt c) else none)
  else if isTq dfmt then some (r * tqSize dfmt (dstBlk m) c)
  else some (ceilDiv (r * c * fmtBits dfmt) 8)

/-- Bytes of an index of a GATHER's index list. -/
def indexBytes (iw : Nat) : Nat := if iw == 0 then 2 else if iw == 1 then 4 else 8

/-! ## Transforms (R123) -/

/-- What a transform does to the elements that it makes: a pad constant, a byte of bit b of eight codes, a code from bit n of w
bytes. -/
structure CellOps (α : Type) where
  pad   : Nat → α
  split : Nat → List α → α
  merge : Nat → List α → α

/-- A matrix by rows. -/
abbrev Matrix (α : Type) := List (List α)

def transposed {α : Type} (m : Matrix α) : Matrix α :=
  (List.range ((m.headD []).length)).map fun j => m.filterMap fun row => row[j]?

/-- Padding: `fill` gives the element beyond the last of a row, and beyond the last row. -/
def paddedEdge {α : Type} (nd cd : Nat) (m : Matrix α) : Matrix α :=
  let ext := fun (row : List α) => row ++ (List.replicate (cd - row.length) row.getLast?).reduceOption
  let rows := m.map ext
  rows ++ (List.replicate (nd - rows.length) rows.getLast?).reduceOption

def paddedConst {α : Type} (nd cd : Nat) (v : α) (m : Matrix α) : Matrix α :=
  m.map (fun row => row ++ List.replicate (cd - row.length) v) ++ List.replicate (nd - m.length) (List.replicate cd v)

/-- Lane `l` of `k` of a row: elements l, k + l, 2k + l, … -/
def lane {α : Type} (k l : Nat) (row : List α) : List α := (chunksOf k row).filterMap fun g => g[l]?

/-- One transform on a matrix (table "Transform definitions"). -/
def applyXform {α : Type} (ops : CellOps α) (nd cd : Nat) (x : XformF) (m : Matrix α) : Matrix α :=
  let (k, a, b) := x
  match k with
  | 1 => transposed m
  | 2 => paddedConst nd cd (ops.pad b) m
  | 3 => paddedEdge nd cd m
  | 4 => m.map fun row => (row.drop a).take b
  | 5 => (chunksOf a m).map fun g => (transposed g).flatten
  | 6 => m.flatMap fun row => (List.range a).map fun l => lane a l row
  | 7 => m.flatMap fun row => (List.range a).map fun bt => (chunksOf 8 row).map (ops.split bt)
  | 8 => (chunksOf a m).map fun g => (transposed g).flatMap fun col => (List.range 8).map fun n => ops.merge n col
  | _ => m

def applyXforms {α : Type} (ops : CellOps α) (nd cd : Nat) (xs : List XformF) (m : Matrix α) : Matrix α :=
  xs.foldl (fun m x => applyXform ops nd cd x m) m

/-- An element in the chain: code, spoil mark, and whether it is a pad constant, which the conversion leaves alone (R127). -/
abbrev TElem := Nat × Bool × Bool

/-- Bit `b` of eight codes as a byte; marked when a code is. -/
def splitCell (b : Nat) (es : List TElem) : TElem :=
  ((es.zipIdx).foldl (fun v p => v + bit01 (bit p.1.1 b) * 2 ^ p.2) 0, es.any fun e => e.2.1, false)

/-- Bit `n` of w bytes as a code, sign-extended for INT8 and INT4 (R129). -/
def mergeCell (dfmt n : Nat) (es : List TElem) : TElem :=
  let v := (es.zipIdx).foldl (fun v p => v + bit01 (bit p.1.1 n) * 2 ^ p.2) 0
  let code := if dfmt == 0xA || dfmt == 0xC then intCode (fmtBits dfmt) (signed es.length v) else v
  (code, es.any fun e => e.2.1, false)

def elemOps (dfmt : Nat) : CellOps TElem := ⟨fun b => (b, false, true), splitCell, mergeCell dfmt⟩

/-- Union of two lists of row numbers. -/
def unionRows (a b : List Nat) : List Nat := a ++ b.filter fun x => !a.contains x

/-- Which source rows an element comes from. -/
def rowOps : CellOps (List Nat) :=
  ⟨fun _ => [], fun _ es => es.foldl unionRows [], fun _ es => es.foldl unionRows []⟩

/-! ## A pass that uses the Tongs -/

/-- What defines the output of one execution of a pass. -/
structure Chain where
  profile : Nat
  sfmt    : Nat
  dfmt    : Nat
  mods    : Mods
  sr      : Option SrSeed
  /-- Element index of the execution's first element (R164). -/
  first   : Nat
  /-- Rows and columns of the source, and of the destination. -/
  r       : Nat
  c       : Nat
  nd      : Nat
  cd      : Nat
  /-- Range that the scale channel gives; none for own values (R169, R175, R176). -/
  range   : Option TqRange
  deriving DecidableEq, Repr

/-- Elements of a source line (R118, R119). -/
def rowElems (k : Chain) (line : List SByte) : List Elem :=
  if isMx k.sfmt then mxElems k.profile k.sfmt k.c line
  else if isTq k.sfmt then tqElems k.profile k.sfmt (srcBlk k.mods k.sfmt k.dfmt) k.c line
  else lineElems (fmtBits k.sfmt) line

/-- A TQ source record disagrees with its declared counts (R67). -/
def rowBad (k : Chain) (line : List SByte) : Bool :=
  isTq k.sfmt && !tqAgrees k.sfmt (srcBlk k.mods k.sfmt k.dfmt) k.c line

/-- A source row as it enters the chain; a row that was not read stands as zeros. -/
def enterRow (k : Chain) (line : Option (List SByte)) : List TElem :=
  match line with
  | some l => let bad := rowBad k l; (rowElems k l).map fun e => (e.1, e.2 || bad, false)
  | none => List.replicate k.c (0, false, false)

/-- The final matrix of the XFORMs. -/
def finalMatrix (k : Chain) (lines : List (Option (List SByte))) : Matrix TElem :=
  applyXforms (elemOps k.dfmt) k.nd k.cd k.mods.xforms (lines.map (enterRow k))

/-- Rows that each element of the final matrix needs. -/
def needMatrix (k : Chain) : Matrix (List Nat) :=
  applyXforms rowOps k.nd k.cd k.mods.xforms ((List.range k.r).map fun i => List.replicate k.c [i])

/-- Elements of the final matrix after conversion, in row-major order from element index `i` (R121, R166). -/
def convertRow (k : Chain) (i : Nat) (row : List TElem) : List Elem :=
  (row.zipIdx).map fun p =>
    if p.1.2.2 || hasBits k.mods then (p.1.1, p.1.2.1)
    else (convertElem k.profile k.sfmt k.dfmt (srValue k.profile k.sr (i + p.2)) p.1.1, p.1.2.1)

def convertRows (k : Chain) : Nat → Matrix TElem → Matrix Elem
  | _, [] => []
  | i, row :: rows => convertRow k i row :: convertRows k (i + row.length) rows

/-- A row block as QUANT writes it: its bytes, its codes as summed, and what the scale channel counts. -/
structure QBlock where
  bytes     : List SByte
  codes     : List (Int × Bool)
  sat       : Nat
  nonFinite : Nat
  /-- Finite values of the block as FP32 codes, and whether a spoiled or non-finite element stood among its elements. -/
  finite    : List Nat
  dirty     : Bool

def isFinite32 (c : Nat) : Bool := c / 2 ^ 23 % 256 != 255

/-- One TQ row block of elements whose first has index `i` (R169 to R172). -/
def tqOut (k : Chain) (i : Nat) (es : List Elem) : QBlock :=
  let xs := es.map Prod.fst
  let own := k.range.isNone
  let b := tqBlock k.profile k.dfmt (fun j => srValue k.profile k.sr (i + j)) (k.range.getD (ownRange k.profile xs)) xs
  let mark := own && es.any Prod.snd
  let codes := (b.codes.zip es).map fun p => (p.1, p.2.2 || mark)
  let header := leBytes 4 b.scale ++ leBytes 4 b.zp ++ leBytes 2 xs.length ++ zeros 6
  let body := packElems (fmtBits k.dfmt) (codes.map fun c => (intCode (fmtBits k.dfmt) c.1, c.2))
  let pad := tqBlockSize k.dfmt xs.length - 16 - body.length
  let nonFin := xs.any fun c => !isFinite32 c
  { bytes := header.map (fun x => (x, mark)) ++ body ++ good (zeros pad), codes := codes, sat := b.sat
    nonFinite := if nonFin then xs.length else 0, finite := xs.filter isFinite32, dirty := nonFin || es.any Prod.snd }

/-- The blocks of a row of the final matrix. -/
def tqRow (k : Chain) : Nat → List (List Elem) → List QBlock
  | _, [] => []
  | i, b :: bs => tqOut k i b :: tqRow k (i + b.length) bs

/-- An MX line record (R63, R168): scales, zero bytes, then the blocks' elements. -/
def mxRow (k : Chain) (i : Nat) (es : List Elem) : List SByte :=
  let w := fmtBits k.dfmt
  let blocks := ((chunksOf 32 es).zipIdx).map fun p =>
    let mark := p.1.any Prod.snd
    let b := mxBlock k.profile k.dfmt (fun j => srValue k.profile k.sr (i + 32 * p.2 + j)) (p.1.map Prod.fst)
    ((BitVec.ofNat 8 b.1, mark), packElems w (b.2.map fun c => (c, mark)))
  let scales := blocks.map Prod.fst
  scales ++ good (zeros (ceil16 scales.length - scales.length)) ++ blocks.flatMap Prod.snd

/-- The output of an execution: its destination stream, and the row blocks that a TQ destination is made of. -/
structure ChainOut where
  stream : List SByte
  blocks : List (List QBlock)

def outRows (k : Chain) : Nat → Matrix Elem → ChainOut
  | _, [] => ⟨[], []⟩
  | i, row :: rows =>
    let rest := outRows k (i + row.length) rows
    if isTq k.dfmt then
      let bs := tqRow k i (chunksOf (dstBlk k.mods) row)
      ⟨bs.flatMap (·.bytes) ++ rest.stream, bs :: rest.blocks⟩
    else ⟨mxRow k i row ++ rest.stream, rest.blocks⟩

/-- The chain run on its source lines (R121). -/
def runChain (k : Chain) (lines : List (Option (List SByte))) : ChainOut :=
  let m := convertRows k k.first (finalMatrix k lines)
  if isRecord k.dfmt then outRows k k.first m
  else ⟨packElems (fmtBits k.dfmt) m.flatten, []⟩

/-- Byte offsets at which the blocks of the destination stream start, with their element counts, row by row. -/
def blockStarts (k : Chain) : Nat → Matrix (List Nat) → List (Nat × Nat × List Nat)
  | _, [] => []
  | o, row :: rows =>
    if isTq k.dfmt then
      let bs := chunksOf (dstBlk k.mods) row
      let sizes := bs.map fun b => tqBlockSize k.dfmt b.length
      let offs := (sizes.foldl (fun (acc : List Nat × Nat) n => (acc.1 ++ [acc.2], acc.2 + n)) ([], o)).1
      (offs.zip (sizes.zip (bs.map fun b => b.foldl unionRows []))) ++ blockStarts k (o + sizes.foldl (· + ·) 0) rows
    else
      let n := mxSize k.dfmt row.length
      (o, n, row.foldl unionRows []) :: blockStarts k (o + n) rows

def hasTranspose (m : Mods) : Bool := m.xforms.any fun x => x.1 == 1

/-- Source rows needed for bytes lo to hi − 1 of the destination stream: whole row blocks of a TQ destination and whole records of an
MX one; with TRANSPOSE the whole input (R141). -/
def rowsFor (k : Chain) (lo hi : Nat) : List Nat :=
  if hasTranspose k.mods then List.range k.r else
  let m := needMatrix k
  let parts :=
    if isRecord k.dfmt then ((blockStarts k 0 m).filter fun b => b.1 < hi && lo < b.1 + b.2.1).map (·.2.2)
    else
      let w := fmtBits k.dfmt
      ((m.flatten.drop (lo * 8 / w)).take ((hi * 8 + w - 1) / w - lo * 8 / w))
  sortBy id (parts.foldl unionRows [])

/-! ## SUMS (R182, R183) -/

/-- How many sums a pass writes. -/
def sumCount (m : Mods) (rows cols : Nat) : Nat :=
  match m.sums with
  | some (_, row, col) => (if row then rows * ceilDiv cols (dstBlk m) else 0) + (if col then cols else 0)
  | none => 0

def sumOf (es : List (Int × Bool)) : List SByte :=
  (leBytes 4 (intCode 32 ((es.map Prod.fst).foldl (· + ·) 0))).map fun b => (b, es.any Prod.snd)

/-- The side output from all codes of the execution in row-major order. -/
def sumsStream (m : Mods) (cols : Nat) (codes : List (Int × Bool)) : List SByte :=
  match m.sums with
  | none => []
  | some (_, row, col) =>
    let rows := chunksOf (max cols 1) codes
    (if row then rows.flatMap fun r => (chunksOf (dstBlk m) r).flatMap sumOf else []) ++
      (if col then (transposed rows).flatMap sumOf else [])

end Sys2Proof.Machine
end

