-- ==== Sys2Proof/Machine/Pass.lean ====
section
/-! DEFINITION. The engine of the passes: billets and what each reads and writes, translation and its outcomes, remote reads and
writes, spoil counts, ledger streams, scale channels, Tongs slots (R87 to R92, R112, R122, R133 to R145, R174 to R183, R200 to R214,
R333 to R336, R413). -/

namespace Sys2Proof.Machine

/-! ## Outcome of a part of a command -/

/-- How a command's work goes on: further, no further for now, or to a fault of the model. -/
inductive Flow where
  | go (s : State)
  | stop (s : State)
  | fault (f : Fault)

/-- The result of a command whose work ended so. -/
def Flow.result (s : State) : Flow → Result
  | .go s' => answer s s'
  | .stop s' => answer s s'
  | .fault f => .fault f

def Flow.bind (f : Flow) (k : State → Flow) : Flow :=
  match f with
  | .go s => k s
  | x => x

/-! ## Streams of shape sets (R48) -/

/-- Address of line `j`. -/
def lineAddr (sh : ShapeSet) (j : Nat) : Nat := ((sh.base : Int) + j * sh.stride).toNat

def streamLen (sh : ShapeSet) : Nat := sh.len * sh.count

/-- The ranges of stream bytes lo to hi − 1, line by line. -/
def streamRanges (sh : ShapeSet) (key lo hi : Nat) : List SrcRange :=
  let hi := min hi (streamLen sh)
  if sh.len == 0 || hi ≤ lo then []
  else
    let a := lo / sh.len
    let b := (hi - 1) / sh.len
    (List.range (b + 1 - a)).map fun i =>
      let j := a + i
      let from' := if j == a then lo - a * sh.len else 0
      let to' := if j == b then hi - b * sh.len else sh.len
      ⟨key + j * sh.len + from', lineAddr sh j + from', to' - from'⟩

/-- The shape set reads one line again and again (R52). -/
def repeats (sh : ShapeSet) : Bool := sh.stride == 0 && decide (1 < sh.count)

/-- Where the 256 B line that holds byte `o` of a shape set's line begins and ends in that line, for a stride of 0. -/
def lineFrom (sh : ShapeSet) (o : Nat) : Nat := o - min o ((sh.base + o) % 256)
def lineTo (sh : ShapeSet) (o : Nat) : Nat := min sh.len (o + 256 - (sh.base + o) % 256)

/-- Stream place at which the 256 B line begins that holds stream byte `lo`. -/
def repeatFrom (sh : ShapeSet) (lo : Nat) : Nat := lo - lo % sh.len + lineFrom sh (lo % sh.len)

/-- The ranges of stream bytes lo to hi − 1 of a repeated line, cut at its 256 B lines, each of them whole, so that each is read once
(R52). -/
def repeatRanges (sh : ShapeSet) (key lo hi : Nat) : List SrcRange :=
  let hi := min hi (streamLen sh)
  if sh.len == 0 || hi ≤ lo then []
  else
    let last := (hi - 1) % sh.len
    (streamRanges sh key (repeatFrom sh lo) (hi - 1 - last + lineTo sh last)).flatMap fun r =>
      (piecesOf r.va (List.replicate r.len ())).map fun x => ⟨r.key + (x.1 - r.va), x.1, x.2.length⟩

/-- The ranges of a source stream, and its bytes lo to hi − 1 among those that they hold. -/
def sourceRanges (sh : ShapeSet) (lo hi : Nat) : List SrcRange :=
  if repeats sh then repeatRanges sh 0 lo hi else streamRanges sh 0 lo hi

def sourceBytes (sh : ShapeSet) (lo hi : Nat) (bs : List SByte) : List SByte :=
  if repeats sh then (bs.drop (lo - repeatFrom sh lo)).take (hi - lo) else bs

def destRanges (sh : ShapeSet) (lo hi : Nat) : List (Nat × Nat) := (streamRanges sh 0 lo hi).map fun r => (r.va, r.len)

def shapeOf (r : Request) (s : Nat) : ShapeSet :=
  r.shapes.getD s { base := 0, len := 1, stride := 0, count := 1, loaded := false, handle := false }

/-! ## Jobs: one billet of a pass -/

/-- What a billet writes, a continuing cause that arose in it, and the row blocks that begin in it. -/
structure JobOut where
  bytes  : List SByte
  cause  : Option Nat
  blocks : List QBlock

/-- One billet: what is read first, what that leads to, where the billet goes and what it holds. -/
structure Job where
  pre     : List SrcRange
  main    : List SByte → List SrcRange
  dest    : List (Nat × Nat)
  out     : Request → List SByte → List SByte → JobOut
  /-- Its bytes count as moved (R145). -/
  counted : Bool
  /-- What it reads is held for the billets that follow: in a Tongs slot, or a repeated source in the hauler (R52, R138, R143). -/
  holds   : Bool
  /-- What `main` names is read again although it is held (R92). -/
  again   : Bool

/-- Billet bounds of a stream of `n` bytes cut into billets of `b` bytes (R87). -/
def billets (b n : Nat) : List (Nat × Nat) := (List.range (ceilDiv n b)).map fun k => (k * b, min n ((k + 1) * b))

/-- Exactly `n` bytes of a run, zeros where it is short. -/
def fit (n : Nat) (bs : List SByte) : List SByte := bs.take n ++ good (zeros (n - bs.length))

def plainOut (n : Nat) (bs : List SByte) : JobOut := ⟨fit n bs, none, []⟩

/-- A byte copy (R49, R88); `rep` when an open loop repeats its source (R52). -/
def copyJob (rep : Bool) (x y : ShapeSet) (lo hi : Nat) : Job :=
  { pre := [], main := fun _ => sourceRanges x lo hi, dest := destRanges y lo hi
    out := fun _ _ bs => plainOut (hi - lo) (sourceBytes x lo hi bs), counted := true, holds := rep || repeats x, again := false }

/-- Source lines by number, those of `rows` cut from the bytes read. -/
def deal (len : Nat) (rows : List Nat) (n : Nat) (bs : List SByte) : List (Option (List SByte)) :=
  (List.range n).map fun i =>
    match rows.findIdx? (· == i) with
    | some k => some ((bs.drop (k * len)).take len)
    | none => none

/-- Row blocks that begin in bytes lo to hi − 1 of the destination stream. -/
def blocksIn (lo hi : Nat) : Nat → List QBlock → List QBlock
  | _, [] => []
  | o, b :: bs => if lo ≤ o && o < hi then b :: blocksIn lo hi (o + b.bytes.length) bs else blocksIn lo hi (o + b.bytes.length) bs

/-- A billet of a pass through the Tongs (R118 to R122). -/
def chainJob (k : Chain) (x : ShapeSet) (dest : List (Nat × Nat)) (lo hi size : Nat) : Job :=
  let rows := rowsFor k lo hi
  { pre := [], main := fun _ => rows.map fun i => ⟨i * x.len, lineAddr x i, x.len⟩, dest := dest
    out := fun _ _ bs =>
      let lines := deal x.len rows k.r bs
      let o := runChain k lines
      let bad := lines.any fun l => match l with
        | some l => rowBad k l
        | none => false
      ⟨fit size ((o.stream.drop lo).take (hi - lo)), if bad then some stSizeMismatch else none,
        blocksIn lo hi 0 o.blocks.flatten⟩
    counted := true, holds := true, again := false }

/-- A billet of the side output of SUMS (R182). -/
def sumsJob (m : Mods) (cols : Nat) (sh : ShapeSet) (lo hi : Nat) : Job :=
  { pre := [], main := fun _ => [], dest := destRanges sh lo hi
    out := fun r _ _ => plainOut (hi - lo) (((sumsStream m cols r.pass.codes).drop lo).take (hi - lo)), counted := false, holds := true, again := false }

def billetSize (bil : Nat) : Nat := 4096 * 2 ^ bil

def sumsJobs (r : Request) (m : Mods) (cols b : Nat) : List Job :=
  match m.sums with
  | none => []
  | some (out, _, _) =>
    let sh := shapeOf r out
    (billets b (streamLen sh)).map fun p => sumsJob m cols sh p.1 p.2

/-! ## Scale channels (R174 to R181) -/

def fp32Max : Nat := 0x7F7FFFFF

/-- Infinity gives way to the largest finite value (R175). -/
def capInf (c : Nat) : Nat := if c % 2 ^ 31 == 0x7F800000 then (if c ≥ 2 ^ 31 then 2 ^ 31 + fp32Max else fp32Max) else c

/-- The largest, or the smallest, of FP32 codes of finite values. -/
def maxCode (cs : List Nat) : Nat :=
  match cs with
  | [] => 0
  | c :: rest => rest.foldl (fun m x => if ltNum (codeValue 2 1 m) (codeValue 2 1 x) then x else m) c

def minCode (cs : List Nat) : Nat :=
  match cs with
  | [] => 0
  | c :: rest => rest.foldl (fun m x => if ltNum (codeValue 2 1 x) (codeValue 2 1 m) then x else m) c

/-- The range that the QUANT takes from its channel at the start of an execution; none for own values (R175, R176). -/
def channelRange (s : State) (profile ctx : Nat) (q : QuantF) (dfmt : Nat) (snap : List (BitVec 32 × BitVec 32)) : Option TqRange :=
  match q.mode, channelCfg s ctx q.ch with
  | 1, some c =>
    if snap.isEmpty then none
    else
      let m := c.margin.toNat
      let firsts := snap.map fun x => x.1.toNat
      if tqSym dfmt then some ⟨capInf (mul32 profile (maxCode firsts) m), 0, 0⟩
      else
        let lo := minCode firsts
        let hi := add32 profile lo (mul32 profile (sub32 profile (maxCode (snap.map fun x => x.2.toNat)) lo) m)
        some ⟨0, lo, capInf hi⟩
  | 2, some c => some ⟨c.a.toNat, c.lo.toNat, c.hi.toNat⟩
  | _, _ => none

/-- The channel's counts rise by what a billet's blocks give, and a pinned channel that reaches its threshold raises one event
(R171, R179). A billet's blocks are counted together, so that the count in the event can exceed the threshold: R179 does not give the
grain (assumption 63, DESIGN CHOICE). -/
def countChannel (s : State) (ctx ch sat nonFinite : Nat) : State :=
  match getChannel s ctx ch, channelCfg s ctx ch with
  | some x, some c =>
    let n := capAt 0xFFFFFFFF (x.sat + sat)
    let hit := c.pinned && c.threshold > 0 && n ≥ c.threshold && !x.raised
    let s1 := updChannel s ctx ch fun x =>
      { x with sat := n, raised := x.raised || hit, nonFinite := capAt 0xFFFFFFFF (x.nonFinite + nonFinite) }
    if hit then ctxEvent s1 ctx 0x0004 ch n else s1
  | _, _ => s

/-- Range of the finite values seen so far, joined with a block's (R175): absmax, lo, hi. -/
def joinRange (profile : Nat) (a : Option (BitVec 32 × BitVec 32 × BitVec 32)) (b : QBlock) :
    Option (BitVec 32 × BitVec 32 × BitVec 32) :=
  if b.finite.isEmpty then a
  else
    let o := ownRange profile b.finite
    match a with
    | none => some (BitVec.ofNat 32 o.a, BitVec.ofNat 32 o.lo, BitVec.ofNat 32 o.hi)
    | some (am, lo, hi) =>
      some (BitVec.ofNat 32 (maxCode [am.toNat, o.a]), BitVec.ofNat 32 (minCode [lo.toNat, o.lo]),
        BitVec.ofNat 32 (maxCode [hi.toNat, o.hi]))

/-- The blocks that begin in a billet are accounted: channel counts, range, codes for SUMS. -/
def accountBlocks (s : State) (r : Request) (m : Mods) (bs : List QBlock) : State × Request :=
  let ch := match m.quant with
    | some q => if q.mode == 0 then none else some q.ch
    | none => none
  let s1 := match ch with
    | some c => countChannel s r.ctx c ((bs.map (·.sat)).foldl (· + ·) 0) ((bs.map (·.nonFinite)).foldl (· + ·) 0)
    | none => s
  let p := r.pass
  let p1 := { p with range := bs.foldl (joinRange (profileOf s r.ctx)) p.range, dirty := p.dirty || bs.any (·.dirty)
                     codes := if m.sums.isSome then p.codes ++ bs.flatMap (·.codes) else p.codes }
  (s1, { r with pass := p1 })

/-- The record that an adaptive channel learns of an execution (R178); it is appended once the execution's last destination line is issued
(`appendIssued`). A history keeps one kind of pair for both kinds of record: a
symmetric execution leaves (absmax, absmax), which an asymmetric one reads as lo and hi, and a symmetric execution reads lo as absmax.
R175 does not say what a history that both kinds use means (assumption 63, DESIGN CHOICE). -/
def recordOfPass (s : State) (r : Request) (m : Mods) (dfmt : Nat) : Option ChanRec :=
  match m.quant with
  | none => none
  | some q =>
    match q.mode, channelCfg s r.ctx q.ch, r.pass.range with
    | 1, some _, some (a, lo, hi) =>
      if r.pass.dirty then none
      else some { channel := q.ch, pair := if tqSym dfmt then (a, a) else (lo, hi), upto := r.pass.destEnd }
    | _, _, _ => none

/-! ## Blocked billets -/

/-- FLAGS of a fault record (table "Fault record"). -/
def faultFlags (w prefetch atomic : Bool) : Nat := bit01 w + 2 * bit01 prefetch + 4 * bit01 atomic

/-- The fault queue of the partition takes faults (R343). -/
def faultsEnabled (s : State) (ctx : Nat) : Bool := (getFaultQ s (partOfCtx s ctx)).enabled

/-- Every ABSENT block of a billet faults (R341). -/
def raiseFaults (s : State) (ctx : Nat) (waiter : Option Nat) (prefetch atomic : Bool) (fs : List (Nat × Nat × Nat × Bool)) : State :=
  fs.foldl (fun s f => faultBlock s ctx f.1 f.2.1 f.2.2.1 waiter (faultFlags (f.2.2.2 || atomic) prefetch atomic)) s

/-- A billet of a request whose translation is not complete (R334, R335, R343). -/
def blockBillet (s : State) (r0 : Request) (x : Xlate) (atomic : Bool) : Flow :=
  let r := { r0 with pass := { r0.pass with opened := none } }
  match x with
  | .ok _ => .go (setReq s r)
  | .bound => .stop (endHere (setReq s r) r stSegmentBound)
  | .rights => .stop (endHere (setReq s r) r stRights)
  | .nowhere a => .fault (.absentAddress a)
  | .held slot b => .stop (beginWait (setReq s r) r (.moving slot b))
  | .absent fs =>
    if !faultsEnabled s r.ctx then .stop (endHere (setReq s r) r stFaultUnresolved)
    else match fs with
      | [] => .go (setReq s r)
      | f :: _ => .stop (beginWait (raiseFaults (setReq s r) r.ctx (some r.id) false atomic fs) r (.absent f.1 f.2.1))

/-! ## Remote bytes (R383, R386, R388, R392) -/

/-- Whether a byte of a global address has been read for the request. -/
def haveByte (r : Request) (ga : Nat) : Bool := r.rdata.any fun x => x.1 == ga

/-- Transactions that a remote piece needs. -/
def pieceCuts (s : State) (p : Piece) : List (Nat × Nat) :=
  match p.pkg.bind (recordOf s) with
  | some c => remoteCuts (((getPartner s c.num).map maxPayload).getD 4096) (p.len / 2048 + 2) p.addr p.len
  | none => []

/-- An outstanding write of the request reaches a 256 B line of a remote range (R112). -/
def ownWriteOver (s : State) (r : Request) (pkg a n : Nat) : Bool :=
  s.rem.outReqs.any fun o =>
    o.req == some r.id && isWriteClass o.ty && ((partnerCfg s o.num).map (·.package)) == some pkg &&
      o.addr / 256 ≤ (localOf a + n - 1) / 256 && localOf a / 256 ≤ (o.addr + max o.payload.length 1 - 1) / 256

/-- RREADs for the bytes of a remote piece that are still missing; `segs` are the segments in which the billet counts (R336). -/
def requestPiece (segs : List (Nat × Nat × Bool)) (s : State) (id : Nat) (p : Piece) : State :=
  match p.pkg.bind (recordOf s) with
  | none => s
  | some c =>
    (pieceCuts s p).foldl (fun s cut =>
      match getReq s id with
      | none => s
      | some r =>
        if haveByte r cut.1 || s.rem.outReqs.any (fun o => o.req == some id && o.purpose == .read cut.1 cut.2) then s
        else
          let (s1, tag) := newRemote s c.num
            { ty := 1, purpose := .read cut.1 cut.2, req := some id, word := wordDetail r, addr := localOf cut.1, payload := []
              arg := leBytes 4 cut.2 ++ zeros 4, rlen := cut.2, segs := segs }
          match getReq s1 id with
          | some r1 => setReq s1 { r1 with pass := { r1.pass with sent := r1.pass.sent ++ [tag] } }
          | none => s1) s

/-- A record that a remote piece names is Fenced, or the piece names no record. -/
def pieceFenced (s : State) (p : Piece) : Bool :=
  match p.pkg with
  | none => false
  | some k => match recordOf s k with
    | none => true
    | some c => ((getPartner s c.num).map fun x => x.st == .fenced).getD true

/-- Bytes at `a` and on, those of a line with a hit marked spoiled: of a source line that entered the slot with a wrong CRC (R146), or
of a destination line on which the members of the unit disagreed (R147). -/
def markHits (dest : Bool) (hits : List (Bool × Nat)) (a : Nat) (bs : List SByte) : List SByte :=
  if hits.isEmpty then bs
  else (bs.zipIdx).map fun x => (x.1.1, x.1.2 || hits.any fun h => h.1 == dest && h.2 / 256 == (a + x.2) / 256)

/-- Bytes of a piece: from memory, or from what was read from the partner, with the hits of the slot's input. -/
def pieceBytes (s : State) (r : Request) (p : Piece) : List SByte :=
  markHits false r.hits p.addr (match p.pkg with
    | none => readLocal s p.key p.addr p.len
    | some _ => (List.range p.len).map fun i =>
      match r.rdata.find? fun x => x.1 == p.addr + i with
      | some x => x.2
      | none => (Config.unreadByte s.time (p.addr + i), true))

/-- Bytes dealt out over the pieces of a destination, with the hits of the slot's output. -/
def markDest (hits : List (Bool × Nat)) : List Piece → List SByte → List SByte
  | [], bs => bs
  | p :: ps, bs => markHits true hits p.addr (bs.take p.len) ++ markDest hits ps (bs.drop p.len)

/-- Every remote byte of the pieces has been read. -/
def allRead (s : State) (r : Request) (ps : List Piece) : Bool :=
  ps.all fun p => p.pkg.isNone || (pieceCuts s p).all fun c => haveByte r c.1

/-- An own write reaches a line of some remote piece (R112). -/
def ownWrites (s : State) (r : Request) (ps : List Piece) : Bool :=
  ps.any fun p => match p.pkg with
    | some k => ownWriteOver s r k p.addr p.len
    | none => false

/-- Remote reads of a billet's pieces `ps`: sent, waited for, or complete (`go`). All pieces that the billet touches are `all`. -/
def awaitRemote (s : State) (r : Request) (all ps : List Piece) : Flow :=
  if ps.any (pieceFenced s) then .stop (endHere s r stPartnerFenced)
  else if ps.any (ownLineOver s r) then .stop (beginWait s r .remote)
  else if allRead s r ps && r.pass.sent.isEmpty then .go s
  else if ownWrites s r ps then .stop (beginWait s r .remote)
  else
    let s1 := ps.foldl (fun s p => requestPiece (touched r.ctx all) s r.id p) s
    match getReq s1 r.id with
    | some r1 => .stop (beginWait s1 r1 .remote)
    | none => .stop s1

/-- RWRITEs of a remote piece. -/
def writeRemote (segs : List (Nat × Nat × Bool)) (s : State) (id : Nat) (p : Piece) (bs : List SByte) : State :=
  match p.pkg.bind (recordOf s) with
  | none => s
  | some c =>
    (pieceCuts s p).foldl (fun s cut =>
      match getReq s id with
      | none => s
      | some r =>
        let (s1, tag) := newRemote s c.num
          { ty := 2, purpose := .write, req := some id, word := wordDetail r, addr := localOf cut.1
            payload := (bs.drop (cut.1 - p.addr)).take cut.2, arg := zeros 8, rlen := 0, segs := segs }
        match getReq s1 id with
        | some r1 => setReq s1 { r1 with writes := r1.writes ++ [tag] }
        | none => s1) s

/-- The host writes of a request with those of local pieces in host windows. -/
def hostPorts (s : State) (ps : List Piece) (old : Both (List (Nat × Nat))) : Both (List (Nat × Nat)) :=
  ps.foldl (fun b p => match hostPort s p with
    | some h => b.set h (b.get h ++ [(p.addr, p.len)])
    | none => b) old

/-- The hauler that runs a request, as the banks see it (R230). -/
def writerOf (s : State) (id : Nat) : Writer := .hauler (((getReq s id).bind (·.hauler)).getD 128)

/-- Bytes dealt out over the pieces of a destination; `segs` are the segments in which the billet counts. -/
def emitPieces (ctx : Nat) (segs : List (Nat × Nat × Bool)) (id : Nat) : State → List Piece → List SByte → State
  | s, [], _ => s
  | s, p :: ps, bs =>
    let part := bs.take p.len
    let s1 := if p.pkg.isSome then writeRemote segs s id p part else storePiece s (writerOf s id) ctx p part
    emitPieces ctx segs id s1 ps (bs.drop p.len)

/-- Lines written spoiled, or not written, over the pieces of a destination (R33, R116). -/
def spoiledOver (s : State) : List Piece → List SByte → Nat
  | [], _ => 0
  | p :: ps, bs =>
    let part := bs.take p.len
    (if p.pkg.isSome then spoiledPieces p.addr part else spoiledLines s p.addr part) + spoiledOver s ps (bs.drop p.len)

/-! ## Ledger streams (R413) -/

/-- The ledgered bytes among those of pieces. -/
def ledBytes : List Piece → List SByte → List SByte
  | [], _ => []
  | p :: ps, bs => (if p.led then bs.take p.len else []) ++ ledBytes ps (bs.drop p.len)

/-- Bytes read at a place of the source streams join the input stream, once each: those that earlier billets have read there are left
out. -/
def addInput (p : PassState) (key : Nat) (bs : List SByte) : PassState :=
  let got := ((p.inputs.filter fun x => x.1 ≤ key).map fun x => x.1 + x.2.length - key).foldl max 0
  let new := bs.drop got
  if new.isEmpty then p else { p with inputs := insertBy Prod.fst (key + got, new.map Prod.fst) p.inputs }

/-! ## One billet -/

/-- What is held of a range. -/
def heldAt (slot : List Held) (x : SrcRange) : Option Held := slot.find? fun y => y.range.va == x.va && y.range.len == x.len

/-- Ranges with those left out that an earlier one repeats (R52). -/
def firstReads (rs : List SrcRange) : List SrcRange :=
  rs.foldl (fun acc x => if acc.any fun y => y.va == x.va && y.len == x.len then acc else acc ++ [x]) []

/-- The ranges among `rs` that are to be read: those that are not held, each once. -/
def notHeld (r : Request) (j : Job) (rs : List SrcRange) : List SrcRange :=
  if j.holds then firstReads (rs.filter fun x => (heldAt r.pass.slot x).isNone) else rs

/-- The ranges of `main` that are to be read. -/
def mainReads (r : Request) (j : Job) (rs : List SrcRange) : List SrcRange := if j.again then rs else notHeld r j rs

/-- Pieces of each range, in order, dealt from the pieces of all of them. -/
def dealPieces : List SrcRange → List Piece → List (SrcRange × List Piece)
  | [], _ => []
  | r :: rs, ps =>
    let n := countFor r.len ps
    (r, ps.take n) :: dealPieces rs (ps.drop n)
where
  countFor : Nat → List Piece → Nat
    | _, [] => 0
    | n, p :: ps => if n = 0 then 0 else 1 + countFor (n - p.len) ps

/-- Ranges that have been read from the pieces `ps`. -/
def readHeld (s : State) (r : Request) (rs : List SrcRange) (ps : List Piece) : List Held :=
  (dealPieces rs ps).map fun x =>
    let bs := x.2.flatMap (pieceBytes s r)
    { range := x.1, data := bs, led := ledBytes x.2 bs }

/-- What the ranges `rs` hold, by stream place: those of `fresh` that have been read now, and with `holds` those that are held. -/
def inStream (holds : Bool) (slot fresh : List Held) (rs : List SrcRange) : List (Nat × Held) :=
  if holds then rs.map fun x => (x.key, (heldAt (slot ++ fresh) x).getD { range := x, data := [], led := [] })
  else fresh.map fun x => (x.range.key, x)

/-- What the ranges hold, those that are to be read having the pieces `ps`, and the pass with what is held and the ledger's input stream
then. With `again` all of them have been read. -/
def readRanges (s : State) (r : Request) (j : Job) (again : Bool) (rs : List SrcRange) (ps : List Piece) : List SByte × PassState :=
  let holds := j.holds && !again
  let fresh := readHeld s r (if again then rs else notHeld r j rs) ps
  let use := inStream holds r.pass.slot fresh rs
  let p := if ledgered s r.ctx then use.foldl (fun p x => addInput p x.1 x.2.led) r.pass else r.pass
  (use.flatMap fun x => x.2.data, if holds then { p with slot := p.slot ++ fresh } else p)

/-- A range or destination lies in a half that is in half reset (R32, R33). -/
def anyUnreachable (s : State) (ps : List Piece) : Bool := ps.any fun p => p.pkg.isNone && unreachable s p.addr

def readNeeds (rs : List SrcRange) : List Need := rs.map fun r => (r.va, r.len, .r)

/-- The ring whose reserved service the reads of the pass have: the ring that it fills (R257, R312). -/
def fillRing (r : Request) : Option (Nat × Nat) := r.filling.map fun x => (r.ctx, x.1)

/-- What is held of ranges that the request now writes is held no longer, so that it reads its own writes (R52, R112; assumption 74,
DEDUCED). -/
def forgetKept (dest : List (Nat × Nat)) (r : Request) : Request :=
  { r with kept := r.kept.filter fun x => !dest.any fun d =>
      d.1 < x.2.2.range.va + x.2.2.range.len && x.2.2.range.va < d.1 + d.2 }

/-- The billet's data is at hand: it is written and accounted, and its lines go to the memory ports. The bytes of lines that the request's
end drops before they are issued (R320) stay counted (assumption 73, DESIGN CHOICE). -/
def commitBillet (s : State) (r0 : Request) (m : Mods) (j : Job) (pre : List SByte) (srcPs : List Piece) (bs : List SByte)
    (p1 : PassState) (dst : List Piece) : State :=
  let r := forgetKept j.dest r0
  let o := j.out r pre bs
  let out := markDest r.hits dst o.bytes
  let n := out.length
  let spoil := spoiledOver s dst out
  let r1 := { r with pass := { p1 with done := p1.done + 1, sent := [], opened := none }, rdata := [], wait := none
                     hostWrites := hostPorts s dst r.hostWrites }
  let r2 := if anyUnreachable s (srcPs ++ dst) then noteCause r1 stQuenched else r1
  let r3 := match o.cause with
    | some c => noteCause r2 c
    | none => r2
  let r4 := noteSpoiled { r3 with bytes := if j.counted then (r3.bytes + n) % 2 ^ 64 else r3.bytes } spoil
  let led := ledgered s r.ctx
  let r5 := if led then
      { r4 with led := { r4.led with output := r4.led.output ++ (ledBytes dst out).map Prod.fst
                                     spoiled := r4.led.spoiled || anyMark (ledBytes dst out) ||
                                       anyMark (ledBytes srcPs (srcPs.flatMap (pieceBytes s r))) } }
    else r4
  let (s1, r6) := accountBlocks s r5 m o.blocks
  let r7 := billetLines s1 r6 (fillRing r6) srcPs dst out
  let r8 := if j.counted then { r7 with pass := { r7.pass with destEnd := r7.lines.next } } else r7
  let s2 := emitPieces r.ctx (touched r.ctx (srcPs ++ dst)) r.id (setReq s1 r8) dst out
  touchBlocks s2 r.ctx (srcPs ++ dst)

/-- How many pieces at the front of a list hold `n` bytes. -/
def firstPieces (n : Nat) (ps : List Piece) : Nat := dealPieces.countFor n ps

/-- Translated needs with their pieces. -/
def dealNeeds : List Need → List Piece → List (Need × List Piece)
  | [], _ => []
  | x :: xs, ps =>
    let n := firstPieces x.2.1 ps
    (x, ps.take n) :: dealNeeds xs (ps.drop n)

/-- The pieces of a billet: those of the translation that it has already made, while it waits for remote bytes, and for needs that it
has learned of since, of one made now (R334, R335). -/
def billetXlate (s : State) (r : Request) (needs : List Need) : Xlate :=
  match r.pass.opened with
  | some (ns, ps) =>
    if ns == needs then .ok ps
    else
      let more := needs.filter fun x => !ns.contains x
      (match translate s r.ctx more with
       | .ok new =>
         let all := dealNeeds ns ps ++ dealNeeds more new
         .ok (needs.flatMap fun x => ((all.find? (·.1 == x)).map Prod.snd).getD [])
       | x => x)
  | none => translate s r.ctx needs

/-- Data lines of the request to or from the pieces cross the Seam: the far half in Glow wakes, and while a brownout hold keeps it there
the request waits (R455, R475). -/
def crossSeam (s : State) (r : Request) (ps : List Piece) : Flow :=
  let far := r.half.other
  if !(ps.any fun p => pieceHome s p == some far) then .go s
  else
    let s1 := wakeHalf s far
    if s1.power.glow.get far then .stop (beginWait s1 r (.seam far)) else .go s1

/-- The billet is translated: its remote bytes are awaited, then it is written. -/
def finishBillet (s : State) (r : Request) (m : Mods) (j : Job) (main : List SrcRange) (nPre nSrc : Nat) (needs : List Need)
    (ps : List Piece) : Flow :=
  let srcPs := ps.take nSrc
  let dst := ps.drop nSrc
  let r0 := { r with pass := { r.pass with opened := some (needs, ps) } }
  (crossSeam (setReq s r0) r0 ps).bind fun s2 =>
  let (s0, r1) := answerHost s2 r0 srcPs
  (awaitRemote s0 r1 ps srcPs).bind fun s1 =>
    if dst.any (pieceFenced s1) then .stop (endHere s1 r1 stPartnerFenced)
    else
      let (pre, p0) := readRanges s1 r1 j false j.pre (srcPs.take nPre)
      let (bs, p1) := readRanges s1 { r1 with pass := p0 } j j.again main (srcPs.drop nPre)
      .go (commitBillet s1 r1 m j pre srcPs bs p1 dst)

/-- How many pieces at the end of a list hold `n` bytes. -/
def lastPieces : List Piece → Nat → Nat
  | [], _ => 0
  | p :: ps, n => if n = 0 then 0 else 1 + lastPieces ps (n - p.len)

/-- One billet of a request (R333, R334): every byte of it is translated before any is read or written. The rows that index entries
name are known once the entries are, so the entries' own translation comes first, with the destination when they lie in another
package or do not translate. -/
def runJob (s : State) (r : Request) (m : Mods) (j : Job) : Flow :=
  let pn := readNeeds (notHeld r j j.pre)
  let dn := j.dest.map fun d => (d.1, d.2, Right.w)
  let dlen := (j.dest.map Prod.snd).foldl (· + ·) 0
  let whole := fun (s : State) (r : Request) (prePs : List Piece) =>
    let main := j.main (readRanges s r j false j.pre prePs).1
    let held := { r with pass := (readRanges s r j false j.pre prePs).2 }
    let needs := pn ++ readNeeds (mainReads held j main) ++ dn
    match billetXlate s r needs with
    | .ok ps => finishBillet s r m j main prePs.length (ps.length - lastPieces ps.reverse dlen) needs ps
    | x => blockBillet s r x false
  match billetXlate s r pn with
  | .ok prePs =>
    if prePs.all (·.pkg.isNone) && !prePs.any (ownLineOver s r) then whole s r prePs
    else match billetXlate s r (pn ++ dn) with
      | .ok ps =>
        let r0 := { r with pass := { r.pass with opened := some (pn ++ dn, ps) } }
        (awaitRemote (setReq s r0) r0 ps prePs).bind fun s1 => match getReq s1 r.id with
          | some r1 => whole s1 r1 prePs
          | none => .stop s1
      | x => blockBillet s r x false
  | _ => blockBillet s r (translate s r.ctx (pn ++ dn)) false

/-- Billets of a pass from the first one not yet written on, until one is blocked. A billet reads what memory then holds: what billets
before it have written to the Stockpile, and to HBM where their lines have been issued. Of the two values that R55 allows a destination
byte that aliases its source, this order gives one (assumption 62, DESIGN CHOICE). -/
def runJobs (m : Mods) (id : Nat) : State → List Job → Flow
  | s, [] => .go s
  | s, j :: js =>
    match getReq s id with
    | none => .stop s
    | some r =>
      match runJob s r m j with
      | .go s1 => runJobs m id s1 js
      | x => x

/-! ## Sides whose base came at run time (R81) -/

/-- A side as R81 checks it: shape set, right, format, and whether it must be compressible or not encrypted. -/
structure RtSide where
  set   : Nat
  right : Right
  fmt   : Nat
  comp  : Bool
  plain : Bool

/-- Loop dimensions of a shape set: count, step and present index of each open loop that steps it (R50, R51, R86). -/
def rtDims (r : Request) (k : Nat) : List (Nat × Int × Nat) :=
  r.loops.filterMap fun l =>
    let st := (directSteps r.program l.body l.start (l.start + l.body)).filter (·.1 == k)
    if st.isEmpty then none else some (l.count, (st.map Prod.snd).foldl (· + ·) 0, l.index)

/-- Lowest address, and bytes, of all dimensions of a shape set; none when they leave the 57-bit space. -/
def rtSpan (r : Request) (k : Nat) : Option (Nat × Nat) :=
  let sh := shapeOf r k
  let dims := rtDims r k
  let first := dims.foldl (fun (b : Int) d => b - d.2.2 * d.2.1) (sh.base : Int)
  let sp := shapeSpan first sh (dims.map fun d => (d.1, d.2.1))
  if sp.1 < 0 || sp.2 ≥ 2 ^ 57 then none else some (sp.1.toNat, (sp.2 + 1 - sp.1).toNat)

def rtMeet (r : Request) (a b : Nat) : Bool :=
  match rtSpan r a, rtSpan r b with
  | some x, some y => x.1 < y.1 + y.2 && y.1 < x.1 + x.2
  | _, _ => false

/-- Outcome of R81 for one side: a status that ends the request. One side that lies in an encrypted segment and lacks its right gives
PROTECTED_REGION, and SEGMENT_BOUND of another side comes before it: the table "Run-time outcomes" gives both statuses and no order
(assumption 75, DESIGN CHOICE). -/
def rtFail (s : State) (r : Request) (x : RtSide) : Option Nat :=
  let sh := shapeOf r x.set
  if !sh.handle then none
  else match rtSpan r x.set with
    | none => some stSegmentBound
    | some (lo, n) =>
      match segOf s r.ctx lo n with
      | none => some stSegmentBound
      | some g =>
        if sh.base % (if isRecord x.fmt then 16 else if fmtBits x.fmt ≥ 16 then fmtBits x.fmt / 8 else 1) != 0 then
          some stSegmentBound
        else if x.plain && g.cfg.enc then some stProtectedRegion
        else if !hasRight g.cfg x.right || (x.comp && !g.cfg.comp) then some stSegmentBound
        else none

/-- R81 for the sides of an instruction; `apart` are pairs of shape sets that must not overlap (R54, R136). -/
def rtCheck (s : State) (r : Request) (sides : List RtSide) (apart : List (Nat × Nat)) : Option Nat :=
  match sides.filterMap (rtFail s r) with
  | st :: rest => if (st :: rest).contains stSegmentBound then some stSegmentBound else some st
  | [] =>
    if apart.any fun p => ((shapeOf r p.1).handle || (shapeOf r p.2).handle) && rtMeet r p.1 p.2 then some stSegmentBound
    else none

/-! ## Tongs slots (R138, R139, R142, R148) -/

def tongsUnits : Nat := 32

/-- A Tongs unit of a half is retired (R491). -/
def unitRetired (s : State) (h : Half) (u : Nat) : Bool :=
  s.integ.retired.any fun x => x.half == h && x.kind == .tongs && x.idx == u

def isUnit (h : Half) (u : Nat) (x : Slice × Mc) : Bool := x.1.half == h && x.1.kind == .tongs && x.1.idx == u

/-- A Tongs unit of a half is under self-test (R148). -/
def unitTested (s : State) (h : Half) (u : Nat) : Bool := s.integ.testing.any fun x => isUnit h u x && s.time < x.2

/-- A free slot of a half: the lowest of the lowest unit. R139 leaves the choice open; it shows in no output (assumption 64, DESIGN
CHOICE). -/
def freeSlot (s : State) (h : Half) : Option (Nat × Nat) :=
  let used := (s.run.reqs.filter fun r => r.half == h).filterMap (·.tongs)
  ((List.range (2 * tongsUnits)).map fun i => (i / 2, i % 2)).find? fun x =>
    !unitRetired s h x.1 && !unitTested s h x.1 && !used.contains x && loopSlot s h != some x

/-- Requests of a half that wait for a Tongs slot, in the order in which they asked. -/
def tongsWaiters (s : State) (h : Half) : List Request :=
  sortBy waitKey (s.run.reqs.filter fun r => r.half == h && r.wait == some .tongs && r.tongs.isNone)

/-- The request has a Tongs slot, or asks for one and waits until TONGS_SLOT_GRANT gives it one (R139). -/
def needTongs (s : State) (r : Request) : Flow := if r.tongs.isSome then .go s else .stop (beginWait s r .tongs)

/-- A pass waits while every slot of the half is busy or under test: the test on one unit ends (R148), on the lowest one (assumption
64, DESIGN CHOICE). -/
def endUnitTest (s : State) (h : Half) : State :=
  if (tongsWaiters s h).isEmpty || (freeSlot s h).isSome then s
  else match (List.range tongsUnits).find? (unitTested s h) with
    | some u => { s with integ.testing := s.integ.testing.filter fun x => !isUnit h u x }
    | none => s

/-- TONGS_SLOT_GRANT: the earliest waiter of a half takes a free slot, once there is one. Those of one mc are served in a later one, when
all of them have asked, the lower hauler number first (R139). -/
def execTongsSlotGrant (t : Mc) (half : Half) (s : State) : Result :=
  let s0 := endUnitTest (atTime s t) half
  let s1 := whenReady s0 t fun x => (tongsWaiters x half).isEmpty || (freeSlot x half).isSome
  match (tongsWaiters s1 half).head?, freeSlot s1 half with
  | some r, some x => answer s (if r.waitAt < s1.time then setReq s1 { r with tongs := some x, wait := none } else s1)
  | _, _ => answer s s1

end Sys2Proof.Machine
end

