-- ==== Sys2Proof/Machine/Hauler.lean ====
section
/-! DEFINITION. The hauler: its next instruction, program flow and loops, when waits end, resumption, and the instructions that move
no data (R68, R75, R83 to R86, R94 to R100, R103 to R111). -/

namespace Sys2Proof.Machine

/-! ## Program flow (R85, R86) -/

def moveBase (sh : ShapeSet) (d : Int) : ShapeSet := { sh with base := (((sh.base : Int) + d) % 2 ^ 57).toNat }

def applySteps (shapes : List ShapeSet) (steps : List (Nat × Int)) : List ShapeSet :=
  steps.foldl (fun l s => l.modify s.1 fun sh => moveBase sh s.2) shapes

/-- Stepped shape sets take back their bases at loop entry. -/
def restoreBases (shapes : List ShapeSet) (bases : List Nat) (steps : List (Nat × Int)) : List ShapeSet :=
  steps.foldl (fun l s => l.modify s.1 fun sh => { sh with base := bases.getD s.1 sh.base }) shapes

/-- The ends of the loops whose bodies end at the program counter: the next iteration, or the words after the body. -/
def endLoops (prog : List Word) : Nat → Request → Request
  | 0, r => r
  | f + 1, r =>
    match r.loops with
    | [] => r
    | l :: ls =>
      if r.pc != l.start + l.body then r
      else
        let st := directSteps prog l.body l.start (l.start + l.body)
        if l.index + 1 < l.count then
          { r with pc := l.start, shapes := applySteps r.shapes st, loops := { l with index := l.index + 1 } :: ls }
        else
          let kept := r.kept.filter fun x => x.2.1 ≤ ls.length
          endLoops prog f { r with shapes := restoreBases r.shapes l.bases st, loops := ls, kept := kept }

/-- The request goes on to its next instruction. -/
def advance (r : Request) : Request :=
  endLoops r.program 8 { r with pc := r.pc + instrWords r.program r.pc, wait := none, latched := none }

/-- The instruction is complete and changes nothing else. -/
def goNext (s : State) (r : Request) : Flow := .go (setReq s (advance r))

/-! ## When a hauler may act -/

/-- The half's haulers run: not in half reset and not in Glow. -/
def halfRuns (s : State) (h : Half) : Bool := running s && !s.halfReset.get h && !s.power.glow.get h

/-- The Foreman of the half starts and resumes requests: no brownout hold (R475). -/
def mayStart (s : State) (h : Half) : Bool := halfRuns s h && !s.power.hold.get h

/-- The request waits for the record of its REPORT to be written (R105, R291). -/
def recordWaits (s : State) (r : Request) : Bool :=
  (match r.wait with
   | some (.record _) => true
   | _ => false) && s.q.records.any fun x => x.rep == some r.id

/-- The request that hauler `h` runs, and its next instruction, when that is of the named row. -/
def current (s : State) (h : HaulerId) (row : String) : Option (Request × HInstr) :=
  if !halfRuns s h.half then none
  else match reqOn s h with
    | none => none
    | some r =>
      if r.fin.isSome || recordWaits s r || (r.wait != some .ledger && entryHeld s r) then none
      else match instrAt r.program r.pc with
        | some i => if isRow i == row then some (r, i) else none
        | none => none

/-- Every line of the request on hauler `h` has been issued (R319). -/
def linesIssued (h : HaulerId) (s : State) : Bool := (reqOn s h).all allIssued

/-- The machine when hauler `h` comes to its next instruction, of the named row: the lines of the instructions before it have been issued
(R74, R319). -/
def atInstr (s : State) (t : Mc) (h : HaulerId) (row : String) : State :=
  let s1 := atTime s t
  if (current s1 h row).isSome then whenReady s1 t (linesIssued h) else s1

/-- What a command of a request leaves, with the hauler active where it has passed an instruction word or a billet (R487): one that has not
passed its word waits at it. -/
def noteProgress (r : Request) (x : Flow) : Flow :=
  let mark := fun (s : State) => match getReq s r.id with
    | some r1 => if r1.wait.isNone || r1.pc != r.pc || r1.pass.done != r.pass.done then noteActive s r.id else s
    | none => s
  match x with
  | .go s => .go (mark s)
  | .stop s => .stop (mark s)
  | .fault f => .fault f

/-- A hauler's command: the meaning `k` of the instruction when it is the hauler's next one, else nothing (assumption 3). -/
def withInstr (t : Mc) (h : HaulerId) (row : String) (s : State) (k : State → Request → HInstr → Flow) : Result :=
  let s1 := atInstr s t h row
  match current s1 h row with
  | some (r, i) => (noteProgress r (k s1 r i)).result s
  | none => answer s s1

/-! ## When a wait ends (R75, R334, R344, R347, R363) -/

/-- A block of a segment is as a waiter of PREFETCH wants it: IN_FRAME, or left IN_HOST with no promotion under way. -/
def prefetched (g : Segment) (b : Nat) : Bool :=
  match (blockOf g b).st with
  | .inFrame _ => true
  | .inHost => !promoting g b
  | _ => false

/-- The request's wait has ended, as far as the state shows; the instruction itself then decides. -/
def waitOver (s : State) (r : Request) : Bool :=
  match r.wait with
  | none => true
  | some (.counter _ ctr target gen) => r.latched.isSome || evalWait s ctr r.half target gen != .notMet
  | some (.ringClaim ring) =>
    (match getRing s r.ctx ring, ringCfg s r.ctx ring with
     | some x, some c => mayClaim s c x && aheadOf s r (.ringClaim ring) == 0
     | _, _ => true)
  | some (.ringAcquire ring) =>
    (match getRing s r.ctx ring with
     | some x => x.acquired < x.published && aheadOf s r (.ringAcquire ring) == 0
     | none => true)
  | some (.handlePut q) =>
    (match getHandle s r.ctx q, handleCfg s r.ctx q with
     | some x, some c => x.entries.length < c.depth && aheadOf s r (.handlePut q) == 0
     | _, _ => true)
  | some (.handleTake q) =>
    (match getHandle s r.ctx q with
     | some x => ((x.entries.head?).bind (·.val)).isSome && aheadOf s r (.handleTake q) == 0
     | none => true)
  | some (.pace line) => ((getPacing s line).map fun x => decide (pacePending s x > aheadOf s r (.pace line))).getD true
  | some (.absent slot b) => ((getSeg s r.ctx slot).map fun g => (blockOf g b).st != .absent).getD true
  | some (.moving slot b) =>
    ((getSeg s r.ctx slot).map fun g => !isHeld s.time g b && !(g.cfg.kind == .migratable && isMoving (blockOf g b).st)).getD true
  | some (.prefetch slot first n) =>
    ((getSeg s r.ctx slot).map fun g => (List.range n).all fun i => prefetched g (first + i)).getD true
  | some (.promotion slot b) => ((getSeg s r.ctx slot).map fun g => !promoting g b).getD true
  | some .tongs => true
  | some (.feed _) => true
  | some .remote => r.pass.sent.isEmpty || r.answer.isSome
  | some .fence => r.writes.isEmpty
  | some .ledger => !entryWaits s r
  | some .entry => true
  | some (.seam h) => !s.power.glow.get h
  | some (.record _) => !recordWaits s r

/-- Parked requests of a half whose wait has ended, with no entry that the ledger queue could not take (R425). -/
def resumable (s : State) (h : Half) : List Request :=
  sortBy waitKey (s.run.reqs.filter fun r =>
    r.half == h && r.hauler.isNone && r.fin.isNone && r.wait.isSome && waitOver s r && !entryHeld s r)

/-- The hauler runs no request, is not retired, and is not under self-test (R74, R488, R491). -/
def haulerFree (s : State) (h : HaulerId) : Bool :=
  let isIt := fun (x : Slice) => x.half == h.half && x.kind == .hauler && x.idx == h.idx.val
  (reqOn s h).isNone && !loopHolds s h.half h.idx.val && !s.integ.retired.any isIt && !s.integ.testing.any fun x => isIt x.1 && s.time < x.2

/-- PARKED_RESUME: of the half's parked requests whose wait has ended, the one whose wait began first resumes on hauler `h` (R75,
R285). -/
def execParkedResume (t : Mc) (h : HaulerId) (s : State) : Result :=
  let s1 := atTime s t
  match (if mayStart s1 h.half && haulerFree s1 h then (resumable s1 h.half).head? else none) with
  | some r => answer s (setReq s1 { r with hauler := some h.idx.val, parkedIn := none, active := s1.time })
  | none => answer s s1

/-! ## Control, parameters and modifiers -/

/-- NOP (R82). -/
def execNop (t : Mc) (h : HaulerId) (s : State) : Result := withInstr t h "NOP" s fun s r _ => goNext s r

/-- HALT (R106, R116). -/
def execHalt (t : Mc) (h : HaulerId) (s : State) : Result := withInstr t h "HALT" s fun s r _ => .go (haltRequest s r)

/-- SHAPE (R83): base P[PI] + OFFSET modulo 2⁶⁴, or OFFSET. -/
def execShape (t : Mc) (h : HaulerId) (s : State) : Result :=
  withInstr t h "SHAPE" s fun s r i =>
    match i with
    | .shape k pb pi len cnt off stride =>
      let b := if pb then (r.params.getD pi 0 + BitVec.ofNat 64 off).toNat else off
      let sh : ShapeSet :=
        { base := b % 2 ^ 57, len := len, stride := stride, count := cnt, loaded := true, handle := false }
      goNext s { r with shapes := r.shapes.set k sh }
    | _ => .go s

/-- LOOP (R84, R85). -/
def execLoop (t : Mc) (h : HaulerId) (s : State) : Result :=
  withInstr t h "LOOP" s fun s r i =>
    match i with
    | .loop l body pc pi cnt =>
      let n := if pc then (r.params.getD pi 0).toNat else cnt
      let fr : LoopFrame :=
        { ctr := l, start := r.pc + 1, body := body, count := n, index := 0, bases := r.shapes.map (·.base) }
      .go (setReq s { r with pc := r.pc + 1, wait := none, loops := fr :: r.loops })
    | _ => .go s

/-- STEP (R86): the word itself only passes; its step is made at the end of each iteration. -/
def execStepBase (t : Mc) (h : HaulerId) (s : State) : Result := withInstr t h "STEP" s fun s r _ => goNext s r

/-- A modifier waits for the pass that follows it (R94). -/
def keepModifier (s : State) (r : Request) : Flow := goNext s { r with mods := r.mods ++ [r.program.getD r.pc 0] }

/-- XFORM (R93, R94). -/
def execXform (t : Mc) (h : HaulerId) (s : State) : Result := withInstr t h "XFORM" s fun s r _ => keepModifier s r

/-- QUANT (R94, R95). -/
def execQuant (t : Mc) (h : HaulerId) (s : State) : Result := withInstr t h "QUANT" s fun s r _ => keepModifier s r

/-- SUMS (R94, R182). -/
def execSums (t : Mc) (h : HaulerId) (s : State) : Result := withInstr t h "SUMS" s fun s r _ => keepModifier s r

/-- SETP (table "Fields of SETP, LEDGER, REPORT, NOP and HALT"). -/
def execSetp (t : Mc) (h : HaulerId) (s : State) : Result :=
  withInstr t h "SETP" s fun s r i =>
    match i with
    | .setp pd mode ps imm ext => goNext s { r with params := r.params.set pd (setpValue mode (r.params.getD ps 0) imm ext) }
    | _ => .go s

/-! ## Order -/

/-- The evaluation of a WAIT (R99, R369, R372). -/
def evalRequestWait (s : State) (r : Request) (vid ctr target gen : Nat) : Flow :=
  match evalWait s ctr r.half target gen with
  | .met => goNext s r
  | .ownerReset => .go (endHere s r stOwnerReset)
  | .notMet => .stop (beginWait s r (.counter vid ctr target gen))

/-- WAIT (R99): advance mode raises the local target once, when the instruction first runs; a wait that its counter has ended keeps its
outcome (R369). -/
def execWait (t : Mc) (h : HaulerId) (s : State) : Result :=
  withInstr t h "WAIT" s fun s r i =>
    match i with
    | .wait b abs pi n =>
      match r.wait, r.latched with
      | some (.counter _ _ _ _), some true => goNext s r
      | some (.counter _ _ _ _), some false => .go (endHere s r stOwnerReset)
      | some (.counter vid ctr target gen), none => evalRequestWait s r vid ctr target gen
      | _, _ =>
        match r.binds[b]? with
        | none => .go (endHere s r stBadProgram)
        | some x =>
          let target := if abs then ((r.params.getD pi 0).toNat + n) % 2 ^ 64 else (x.target + n) % 2 ^ 64
          let r1 := if abs then r else { r with binds := r.binds.set b { x with target := target } }
          match vEntry s r.ctx x.vid with
          | .loc ctr _ _ => evalRequestWait (setReq s r1) r1 x.vid ctr target x.gen
          | _ => .go (endHere s r stRights)
    | _ => .go s

/-- SIGNAL (R100, R108, R109): the update waits for the responses of every earlier write. -/
def execSignal (t : Mc) (h : HaulerId) (s : State) : Result :=
  withInstr t h "SIGNAL" s fun s r i =>
    match i with
    | .signal b n =>
      match r.binds[b]? with
      | none => .go (endHere s r stBadProgram)
      | some x => .go (addEffect s (advance r) (.signal x.vid n x.gen (wordDetail r) r.writes r.lines.next))
    | _ => .go s

/-- Lines of a request that a FENCE waits for are open: writes, or with ALL reads too (R111). -/
def fenceOpen (all : Bool) (id : Nat) (s : State) : Bool := (getReq s id).any fun r => lineOpen s r fun l => all || l.write

/-- FENCE (R111): the answers of the request's earlier lines come, and those of its remote writes are waited for. -/
def execFence (t : Mc) (h : HaulerId) (s : State) : Result :=
  withInstr t h "FENCE" s fun s r i =>
    match i with
    | .fence all =>
      let s1 := whenReady s s.time fun x => !fenceOpen all r.id x
      (match getReq s1 r.id with
       | none => .go s1
       | some r1 =>
         if fenceOpen all r.id s1 || !r1.writes.isEmpty then .stop (beginWait s1 r1 .fence)
         else goNext (askHost s1 r1) (hostAnswered r1))
    | _ => .go s

/-! ## Buffers between stages -/

/-- PUT of a handle (R96). -/
def execPutHandle (t : Mc) (h : HaulerId) (s : State) : Result :=
  withInstr t h "PUT_HANDLE" s fun s r i =>
    match i with
    | .putHandle q sh =>
      match getHandle s r.ctx q, handleCfg s r.ctx q with
      | some x, some c =>
        if x.entries.length < c.depth && aheadOf s r (.handlePut q) == 0 then
          let s1 := updHandle s r.ctx q fun y =>
            { y with entries := y.entries ++ [{ id := y.nextId, req := r.id, val := none }], nextId := y.nextId + 1 }
          .go (addEffect s1 (advance r) (.handlePublish q x.nextId (shapeOf r sh).base r.writes r.lines.next))
        else .stop (beginWait s r (.handlePut q))
      | _, _ => .go (endHere s r stRights)
    | _ => .go s

/-- TAKE of a handle (R97). -/
def execTakeHandle (t : Mc) (h : HaulerId) (s : State) : Result :=
  withInstr t h "TAKE_HANDLE" s fun s r i =>
    match i with
    | .takeHandle q k =>
      match getHandle s r.ctx q with
      | none => .go (endHere s r stRights)
      | some x =>
        match (if aheadOf s r (.handleTake q) == 0 then (x.entries.head?).bind (·.val) else none) with
        | none => .stop (beginWait s r (.handleTake q))
        | some v =>
          let s1 := updHandle s r.ctx q fun y => { y with entries := y.entries.drop 1 }
          goNext s1 { r with shapes := r.shapes.set k { shapeOf r k with base := v % 2 ^ 57, handle := true } }
    | _ => .go s

/-- TAKE ring acquire (R98). -/
def execTakeRingAcquire (t : Mc) (h : HaulerId) (s : State) : Result :=
  withInstr t h "TAKE_RING_ACQUIRE" s fun s r i =>
    match i with
    | .acquire ring k =>
      match getRing s r.ctx ring, ringCfg s r.ctx ring with
      | some x, some c =>
        if x.acquired < x.published && aheadOf s r (.ringAcquire ring) == 0 then
          let n := ringBytes c
          let s1 := updRing s r.ctx ring fun y => { y with acquired := y.acquired + 1 }
          let sh : ShapeSet :=
            { base := stagingVa s r.ctx (slotOffset c x.acquired), len := n, stride := n, count := 1, loaded := true, handle := true }
          goNext s1 { r with held := r.held ++ [(ring, x.acquired)], shapes := r.shapes.set k sh }
        else .stop (beginWait s r (.ringAcquire ring))
      | _, _ => .go (endHere s r stRights)
    | _ => .go s

/-- TAKE ring release (R98). -/
def execTakeRingRelease (t : Mc) (h : HaulerId) (s : State) : Result :=
  withInstr t h "TAKE_RING_RELEASE" s fun s r i =>
    match i with
    | .release ring =>
      match r.held.find? fun x => x.1 == ring with
      | some x => goNext (releaseBillet s r.ctx ring x.2) { r with held := r.held.filter (· != x) }
      | none => .go (endHere s r stBadProgram)
    | _ => .go s

/-! ## Records -/

/-- The current entry closes (R104, R417); the request waits while the queue is full or not enabled (R425), and `k` follows. -/
def splitThen (s : State) (r : Request) (k : State → Request → Flow) : Flow :=
  if r.wait == some .ledger then
    if entryWaits s r then .stop s else k s { r with wait := none }
  else
    let s1 := closePart s r false 0
    match getReq s1 r.id with
    | none => .go s1
    | some r1 => if entryHeld s1 r1 then .stop (beginWait s1 r1 .ledger) else k s1 r1

/-- LEDGER SPLIT (R104). -/
def execLedgerSplit (t : Mc) (h : HaulerId) (s : State) : Result :=
  withInstr t h "LEDGER_SPLIT" s fun s r _ => if ledgered s r.ctx then splitThen s r goNext else goNext s r

/-- A mark joins the current entry. -/
def addMark (pi : Nat) (s : State) (r : Request) : Flow :=
  goNext s { r with led := { r.led with marks := r.led.marks ++ [r.params.getD pi 0] } }

/-- LEDGER MARK (R104, R417): a fifth mark splits first. -/
def execLedgerMark (t : Mc) (h : HaulerId) (s : State) : Result :=
  withInstr t h "LEDGER_MARK" s fun s r i =>
    match i with
    | .mark pi =>
      if !ledgered s r.ctx then goNext s r
      else if r.led.marks.length ≥ 4 || r.wait == some .ledger then splitThen s r (addMark pi)
      else addMark pi s r
    | _ => .go s

/-- REPORT (R105, R109): the totals are those at the instruction. With the completion queue full the request waits (R291). -/
def execReport (t : Mc) (h : HaulerId) (s : State) : Result :=
  withInstr t h "REPORT" s fun s r i =>
    match i with
    | .report irq code => .go (addEffect s (advance r) (.report code irq r.bytes r.spoiled r.writes))
    | _ => .go s

end Sys2Proof.Machine
end

