-- ==== Sys2Proof/Machine/Passes.lean ====
section
/-! DEFINITION. The pass instructions: MOVE, PACE, PUT ring fill, GATHER, CODE and EXPAND (R87 to R92, R114, R133 to R137, R199 to
R217). -/

namespace Sys2Proof.Machine

/-! ## What the passes share -/

/-- The pass at its start, with what the hauler still holds of its source (R52). -/
def beganPass (r : Request) (snap : List (BitVec 32 × BitVec 32)) : PassState :=
  { r.pass with started := true, base := r.lines.next, hostBase := ⟨r.hostWrites.east.length, r.hostWrites.west.length⟩, snap := snap
                slot := (r.kept.filter (·.1 == r.pc)).map (·.2.2) }

/-- The start of an execution: the checks of R81, and the snapshot of the scale channel. The execution starts before it waits for a ring
slot or a Tongs slot, so the snapshot is older than those waits: R175 does not say on which side of them the start lies (assumption 63,
DESIGN CHOICE). -/
def startPass (s : State) (r : Request) (m : Mods) (sides : List RtSide) (apart : List (Nat × Nat)) : Flow :=
  if r.pass.started then .go s
  else match rtCheck s r sides apart with
    | some st => .stop (endHere s r st)
    | none =>
      let snap := match m.quant with
        | some q => if q.mode == 1 then ((getChannel s r.ctx q.ch).map (·.history)).getD [] else []
        | none => []
      .go (setReq s { r with tongs := none, pass := beganPass r snap })

/-- Elements that earlier executions of the pass at this word have numbered (R164). -/
def firstElem (r : Request) : Nat := ((r.elems.find? (·.1 == r.pc)).map Prod.snd).getD 0

def addElems (r : Request) (n : Nat) : List (Nat × Nat) :=
  (r.pc, firstElem r + n) :: r.elems.filter fun x => x.1 != r.pc

/-- A step of 0 of an open loop: how many loops are open up to the outermost one that steps the shape set so (R52). -/
def repeatDepth (r : Request) (k : Nat) : Option Nat :=
  (r.loops.zipIdx.filterMap fun x =>
    let st := (directSteps r.program x.1.body x.1.start (x.1.start + x.1.body)).filter (·.1 == k)
    if !st.isEmpty && (st.map Prod.snd).foldl (· + ·) 0 == 0 then some (r.loops.length - x.2) else none).getLast?

/-- The range lies in a line of the shape set. -/
def inShape (sh : ShapeSet) (x : SrcRange) : Bool :=
  (List.range sh.count).any fun j => lineAddr sh j ≤ x.va && x.va + x.len ≤ lineAddr sh j + sh.len

/-- What the hauler goes on holding of the sources `ks` of the pass that ends, for the iterations that repeat them (R52). -/
def keepSources (r : Request) (ks : List Nat) : List (Nat × Nat × Held) :=
  (r.kept.filter (·.1 != r.pc)) ++ ks.flatMap fun k => match repeatDepth r k with
    | some d => (r.pass.slot.filter fun x => inShape (shapeOf r k) x.range).map fun x => (r.pc, d, x)
    | none => []

/-- The end of an execution: the channel's record, which waits for the destination lines, the ledger's input part and element numbers. The
slot stays with the request until its lines are issued. A request that ends with all destination lines issued and its SUMS output unwritten
appends none, which R178 leaves open (assumption 63, DESIGN CHOICE). `ks` are the pass's sources. -/
def finishPass (s : State) (r : Request) (m : Mods) (dfmt elems : Nat) (ks : List Nat) : State × Request :=
  let r1 := flushInputs r
  let r2 := dropSlot { r1 with
    elems := addElems r1 elems, kept := keepSources r ks, record := recordOfPass s r m dfmt, pass := PassState.start
    hits := [], mods := [], wait := none }
  let s1 := appendIssued (setReq s r2) r2.id
  (s1, (getReq s1 r2.id).getD r2)

/-- The jobs of a pass run from the first billet not yet written; then `k` ends it. -/
def runPass (s : State) (id : Nat) (m : Mods) (jobs : List Job) (k : State → Request → Flow) : Flow :=
  match getReq s id with
  | none => .stop s
  | some r =>
    (runJobs m id s (jobs.drop r.pass.done)).bind fun s1 =>
      match getReq s1 id with
      | some r1 => k s1 r1
      | none => .stop s1

/-- A flow that goes on with the request as it now stands. -/
def withReq (f : Flow) (id : Nat) (k : State → Request → Flow) : Flow :=
  f.bind fun s => match getReq s id with
    | some r => k s r
    | none => .stop s

/-- The seed words of stochastic rounding (R89). -/
def srOf (r : Request) (sr : Bool) (srp : Nat) : Option SrSeed :=
  if sr then some ⟨r.params.getD srp 0, r.params.getD (srp + 1) 0⟩ else none

/-- The chain of an execution (R118, R119, R121). -/
def chainOf (s : State) (r : Request) (m : Mods) (sfmt dfmt : Nat) (sr : Option SrSeed) (x : ShapeSet) (nd dlen : Nat) : Chain :=
  let profile := profileOf s r.ctx
  { profile := profile, sfmt := sfmt, dfmt := dfmt, mods := m, sr := sr, first := firstElem r, r := x.count
    c := (lineCols sfmt (srcBlk m sfmt dfmt) (srcLast m) x.len).getD 0, nd := nd
    cd := (destCols dfmt dlen).getD 0
    range := if isTq dfmt then m.quant.bind fun q => channelRange s profile r.ctx q dfmt r.pass.snap else none }

/-- Rows and columns of the final matrix. -/
def finalDims (k : Chain) : Nat × Nat :=
  (chainResult k.mods k.sfmt k.dfmt k.sr.isSome false k.r k.c k.nd k.cd).getD (0, 0)

def rtSide (k : Nat) (right : Right) (fmt : Nat) : RtSide := ⟨k, right, fmt, false, false⟩

def sumsSide (m : Mods) : List RtSide :=
  match m.sums with
  | some (out, _, _) => [rtSide out .w 8]
  | none => []

def sumsApart (m : Mods) (ks : List Nat) : List (Nat × Nat) :=
  match m.sums with
  | some (out, _, _) => ks.map fun k => (k, out)
  | none => []

/-! ## MOVE and PACE -/

/-- A source stream written to a destination stream (R49, R88, R114, R120). -/
def moveBurst (s : State) (r : Request) (src dst sfmt dfmt : Nat) (sr : Bool) (srp bil : Nat) : Flow :=
  let m := modsOf r.mods
  let x := shapeOf r src
  let y := shapeOf r dst
  let b := billetSize bil
  withReq (startPass s r m (rtSide src .r sfmt :: rtSide dst .w dfmt :: sumsSide m) ((src, dst) :: sumsApart m [src, dst])) r.id fun s r =>
    if isByteCopy m sfmt dfmt then
      runPass s r.id m ((billets b (streamLen y)).map fun p => copyJob (repeatDepth r src).isSome x y p.1 p.2) fun s r =>
        let (s1, r1) := finishPass s r m dfmt 0 [src]
        goNext s1 r1
    else
      withReq (needTongs s r) r.id fun s r =>
        let k := chainOf s r m sfmt dfmt (srOf r sr srp) x y.count y.len
        let (rows, cols) := finalDims k
        let jobs := (billets b (streamLen y)).map fun p => chainJob k x (destRanges y p.1 p.2) p.1 p.2 (p.2 - p.1)
        runPass s r.id m (jobs ++ sumsJobs r m cols b) fun s r =>
          let (s1, r1) := finishPass s r m dfmt (rows * cols) [src]
          goNext s1 r1

/-- MOVE (R49). -/
def execMove (t : Mc) (h : HaulerId) (s : State) : Result :=
  withInstr t h "MOVE" s fun s r i =>
    match i with
    | .move src dst sfmt dfmt sr srp bil => moveBurst s r src dst sfmt dfmt sr srp bil
    | _ => .go s

/-- PACE (R114): one pending request of the line is taken, then one burst moves. -/
def execPace (t : Mc) (h : HaulerId) (s : State) : Result :=
  withInstr t h "PACE" s fun s r i =>
    match i with
    | .pace line src dst sfmt dfmt sr srp bil =>
      if !r.pass.taken.isEmpty then moveBurst s r src dst sfmt dfmt sr srp bil
      else
        match getPacing s line with
        | none => .go (endHere s r stRights)
        | some p =>
          if pacePending s p > aheadOf s r (.pace line) then
            let s1 := updPacing s line fun x => { x with pending := x.pending - 1 }
            let r1 := { r with wait := none, pass := { r.pass with taken := [line] } }
            moveBurst (setReq s1 r1) r1 src dst sfmt dfmt sr srp bil
          else .stop (beginWait s r (.pace line))
    | _ => .go s

/-! ## PUT ring fill (R87, R91, R217) -/

/-- The billet that the fill writes: claimed now, or at an earlier run of this instruction. -/
def claimFill (s : State) (r : Request) (c : RingCfg) : Flow :=
  if r.filling.isSome then .go s
  else match getRing s r.ctx c.ring with
    | none => .stop (endHere s r stRights)
    | some x =>
      if mayClaim s c x && aheadOf s r (.ringClaim c.ring) == 0 then
        let s1 := updRing s r.ctx c.ring fun y => { y with claimed := y.claimed + 1 }
        .go (setReq s1 { r with filling := some (c.ring, x.claimed), wait := none })
      else .stop (beginWait s r (.ringClaim c.ring))

/-- The end of a fill: the length of a coded billet is kept, and the publication follows the writes. -/
def endFill (s : State) (r : Request) (m : Mods) (c : RingCfg) (src dfmt elems n : Nat) : Flow :=
  let (s1, r1) := finishPass s r m dfmt elems [src]
  match r.filling with
  | none => goNext s1 r1
  | some (ring, k) =>
    let s2 := if c.coded.isSome then
        updRing s1 r.ctx ring fun y => { y with lengths := (k, n) :: y.lengths.filter fun l => l.1 != k && k < l.1 + c.slots }
      else s1
    .go (addEffect s2 (advance { r1 with filling := none }) (.ringPublish ring k r.writes r.lines.next))

/-- The stream of a fill into an uncoded ring with zero bytes over the rest of the slot (R87). -/
def padJob (j : Job) (dest : List (Nat × Nat)) (size : Nat) : Job :=
  { j with dest := dest
           out := fun r pre bs => let o := j.out r pre bs; { o with bytes := fit size o.bytes } }

/-- The side output of SUMS, its base taken at run time, meets the ring that the pass fills (R81, R183). -/
def sumsMeetRing (s : State) (r : Request) (m : Mods) (c : RingCfg) : Bool :=
  match m.sums with
  | some (out, _, _) =>
    (shapeOf r out).handle && (match rtSpan r out with
      | some x => decide ((x.1 : Int) ≤ (ringSpan s c).2) && decide ((ringSpan s c).1 ≤ x.1 + x.2 - 1)
      | none => false)
  | none => false

def execPutRingFill (t : Mc) (h : HaulerId) (s : State) : Result :=
  withInstr t h "PUT_RING_FILL" s fun s r i =>
    match i with
    | .fill ring src sfmt dfmt sr srp =>
      match ringCfg s r.ctx ring with
      | none => .go (endHere s r stRights)
      | some c =>
        let m := modsOf r.mods
        let x := shapeOf r src
        let size := ringBytes c
        let side : RtSide := ⟨src, .r, sfmt, c.coded.isSome, false⟩
        if !r.pass.started && sumsMeetRing s r m c then .go (endHere s r stSegmentBound) else
        withReq (startPass s r m (side :: sumsSide m) (sumsApart m [src])) r.id fun s r =>
          withReq (claimFill s r c) r.id fun s r =>
            let rep := (repeatDepth r src).isSome
            let k := ((r.filling.map Prod.snd).getD 0)
            let va := stagingVa s r.ctx (slotOffset c k)
            if c.coded.isSome then
              let n := min (streamLen x) size
              let j := { copyJob rep x x 0 n with dest := [(va, n)] }
              runPass s r.id m [j] fun s r => endFill s r m c src dfmt 0 n
            else if isByteCopy m sfmt dfmt then
              runPass s r.id m [padJob (copyJob rep x x 0 (min (streamLen x) size)) [(va, size)] size] fun s r =>
                endFill s r m c src dfmt 0 size
            else
              withReq (needTongs s r) r.id fun s r =>
                let kc := chainOf s r m sfmt dfmt (srOf r sr srp) x 0 0
                let (rows, cols) := (chainResult m sfmt dfmt sr true kc.r kc.c 0 0).getD (0, 0)
                let n := (fillBytes m dfmt rows cols).getD 0
                let j := padJob (chainJob kc x [(va, size)] 0 n n) [(va, size)] size
                runPass s r.id m (j :: sumsJobs r m cols size) fun s r => endFill s r m c src dfmt (rows * cols) size
    | _ => .go s

/-! ## GATHER (R90, R133 to R137) -/

/-- Indices of a billet's lines as read from the index list; none for an entry from a spoiled line (R135). -/
def indicesOf (w n : Nat) (bs : List SByte) : List (Option Nat) :=
  (List.range n).map fun i =>
    let e := (bs.drop (i * w)).take w
    if anyMark e then none else some (leVal (e.map Prod.fst))

/-- Rows of the table for lines j, j + 1, …, and what the lines then hold. -/
def gatherRanges (x : ShapeSet) (j : Nat) (is : List (Option Nat)) : List SrcRange :=
  (is.zipIdx).filterMap fun p => match p.1 with
    | some i => if i < x.count then some ⟨2 ^ 60 + (j + p.2) * x.len, lineAddr x i, x.len⟩ else none
    | none => none

/-- A row of the table as GATHER writes it, and whether its record disagrees with the declared counts: every line of such a record is
delivered spoiled (R67). -/
def gatherRow (m : Mods) (fmt : Nat) (row : List SByte) : List SByte × Bool :=
  let b := dstBlk m
  if isTq fmt && !tqAgrees fmt b ((lineCols fmt b (srcLast m) row.length).getD 0) row then (row.map fun p => (p.1, true), true)
  else (row, false)

def gatherLines (m : Mods) (fmt : Nat) (x : ShapeSet) : List (Option Nat) → List SByte → List SByte × Bool
  | [], _ => ([], false)
  | i :: is, bs =>
    let zero : List SByte × Bool := (List.replicate x.len (0, true), false)
    let ((row, bad), rest) := match i with
      | some k => if k < x.count then (gatherRow m fmt (bs.take x.len), bs.drop x.len) else (zero, bs)
      | none => (zero, bs)
    let (rows, bads) := gatherLines m fmt x is rest
    (row ++ rows, bad || bads)

/-- A billet of GATHER: bytes lo to hi − 1 of the destination; `rep` when an open loop repeats a source (R52). -/
def gatherJob (rep : Bool) (m : Mods) (fmt : Nat) (x y : ShapeSet) (idx : Option (ShapeSet × Nat)) (taken : List Nat) (lo hi : Nat) : Job :=
  let a := lo / y.len
  let n := (hi - 1) / y.len + 1 - a
  let is := fun (pre : List SByte) => match idx with
    | some (z, w) => indicesOf w n (sourceBytes z (a * w) ((a + n) * w) pre)
    | none => ((taken.drop a).take n).map some
  { pre := match idx with
      | some (z, w) => sourceRanges z (a * w) ((a + n) * w)
      | none => []
    main := fun pre => gatherRanges x a (is pre)
    dest := destRanges y lo hi
    out := fun _ pre bs =>
      let o := gatherLines m fmt x (is pre) bs
      { plainOut (hi - lo) (o.1.drop (lo - a * y.len)) with cause := if o.2 then some stSizeMismatch else none }
    counted := true, holds := rep || repeats x || (idx.map fun z => repeats z.1).getD false, again := false }

/-- A GATHER reaches its feed once, and keeps its place until it has all its entries (R137). -/
def reachFeed (s : State) (r : Request) (feed : Nat) : Request :=
  if r.pass.feedAt.isSome then r
  else { r with pass := { r.pass with feedAt := some (feed, waitKey (startWait s r (.feed feed))) } }

/-- It is this GATHER's turn at the feed: none that reached the feed before it still lacks entries. Those that reach it in one mc are
served from the next mc on, when all of them are there, the lower hauler number first (R137). -/
def atFeed (s : State) (r : Request) (feed : Nat) : Bool :=
  let mine := (r.pass.feedAt.map Prod.snd).getD 0
  decide (mine < s.time * 2 ^ 56) &&
  !s.run.reqs.any fun x => x.half == r.half && x.id != r.id && x.fin.isNone &&
    (x.pass.feedAt.map fun k => k.1 == feed && decide (k.2 < mine)).getD false

/-- Entries of a feed that the GATHER may take now; with the last one it leaves the feed. -/
def takeFeed (s : State) (r : Request) (feed n : Nat) : State × Request :=
  let x := (s.buf.feeds.find? fun f => f.half == r.half && f.feed == feed).map fun f => f.entries.takeWhile fun e => e.2 ≤ s.time
  let k := min (n - r.pass.taken.length) ((x.map List.length).getD 0)
  let got := ((x.getD []).take k).map Prod.fst
  let all := r.pass.taken ++ got
  let r1 := { r with pass := { r.pass with taken := all, feedAt := if all.length < n then r.pass.feedAt else none } }
  let mine := fun (f : FeedSt) => f.half == r.half && f.feed == feed
  let fs := updWhere mine (fun f => { f with entries := f.entries.drop k }) s.buf.feeds
  (setReq { s with buf.feeds := fs } r1, r1)

/-- Billets of a feed-driven GATHER whose entries have come. -/
def readyBillets (taken : Nat) (y : ShapeSet) (bs : List (Nat × Nat)) : List (Nat × Nat) :=
  bs.takeWhile fun p => (p.2 - 1) / y.len < taken

def endGather (s : State) (r : Request) (m : Mods) (fmt : Nat) (ks : List Nat) : Flow :=
  let (s1, r1) := finishPass s r m fmt 0 ks
  goNext s1 r1

/-- GATHER. -/
def execGather (t : Mc) (h : HaulerId) (s : State) : Result :=
  withInstr t h "GATHER" s fun s r i =>
    match i with
    | .gather tbl dst idx iw fd feed fmt bil =>
      let m := modsOf r.mods
      let x := shapeOf r tbl
      let y := shapeOf r dst
      let z := shapeOf r idx
      let wait := Wait.feed feed
      let bs := billets (billetSize bil) (streamLen y)
      let sides := [rtSide tbl .r fmt, rtSide dst .w fmt] ++ (if fd then [] else [rtSide idx .r 0])
      withReq (startPass s r m sides ((tbl, dst) :: (if fd then [] else [(idx, dst)]))) r.id fun s r =>
        if !fd then
          let rep := (repeatDepth r tbl).isSome || (repeatDepth r idx).isSome
          runPass s r.id m (bs.map fun p => gatherJob rep m fmt x y (some (z, indexBytes iw)) [] p.1 p.2) fun s r =>
            endGather s r m fmt [tbl, idx]
        else if atFeed s (reachFeed s r feed) feed then
          let (s1, r1) := takeFeed s (reachFeed s r feed) feed y.count
          let ready := readyBillets r1.pass.taken.length y bs
          let rep := (repeatDepth r tbl).isSome
          runPass s1 r.id m (ready.map fun p => gatherJob rep m fmt x y none r1.pass.taken p.1 p.2) fun s r =>
            if ready.length == bs.length then endGather s r m fmt [tbl] else .stop (beginWait s r wait)
        else .stop (beginWait s (reachFeed s r feed) wait)
    | _ => .go s

/-! ## CODE (R199 to R204) -/

def coderBillet : Nat := 65536

/-- Blocks of a group that begin before byte `o` of its stored stream of `total` bytes: all of them before its end. -/
def blocksBefore (sizes : List Nat) (total o : Nat) : Nat :=
  if o = 0 then 0
  else if total ≤ o then sizes.length
  else ((List.range sizes.length).filter fun i => (sizes.take i).foldl (· + ·) 0 < o).length

/-- What CODE reads again to code the blocks that begin in bytes lo to hi − 1 of its stored stream (R92). -/
def codeReads (x y : ShapeSet) (sizes : List Nat) (lo hi : Nat) : List SrcRange :=
  let n := streamLen y
  streamRanges x 0 (4096 * blocksBefore sizes n lo) (min (streamLen x) (4096 * blocksBefore sizes n hi))

/-- A billet of one of CODE's three streams; `part` picks the stream. CODE has read its source once before, to build the code table; the
stored blocks are coded from a second read (R92). -/
def codeJob (f : Nat) (x y : ShapeSet) (part : CodeOut → List Byte) (stored : Bool) (lo hi : Nat) : Job :=
  { pre := streamRanges x 0 0 (streamLen x)
    main := fun pre => match codable f with
      | some c => if stored then codeReads x y (codeSizes c (pre.map Prod.fst)) lo hi else []
      | none => []
    dest := destRanges y lo hi
    out := fun _ pre bs =>
      let mark := anyMark pre || anyMark bs
      match codable f with
      | some c => ⟨(fit (hi - lo) (good (((part (codeGroup f c (pre.map Prod.fst))).drop lo).take (hi - lo)))).map
          fun b => (b.1, mark), none, []⟩
      | none => plainOut (hi - lo) []
    counted := true, holds := true, again := true }

def codeJobs (f : Nat) (x y : ShapeSet) (part : CodeOut → List Byte) (stored : Bool) : List Job :=
  (billets coderBillet (streamLen y)).map fun p => codeJob f x y part stored p.1 p.2

/-- Sides of CODE and EXPAND as R81 and R226 check them. -/
def coderSides (isCode : Bool) (fmt x y z w : Nat) : List RtSide :=
  let io : Right := if isCode then .w else .r
  [⟨x, .r, if isCode then fmt else 0, !isCode, true⟩, ⟨y, .w, if isCode then 0 else fmt, isCode, true⟩,
   ⟨z, io, 0, true, true⟩, ⟨w, io, 0, true, true⟩]

/-- CODE. -/
def execCode (t : Mc) (h : HaulerId) (s : State) : Result :=
  withInstr t h "CODE" s fun s r i =>
    match i with
    | .code src dst idx tab fmt =>
      let m := modsOf []
      let x := shapeOf r src
      let y := shapeOf r dst
      let z := shapeOf r idx
      let w := shapeOf r tab
      withReq (startPass s r m (coderSides true fmt src dst idx tab) []) r.id fun s r =>
        withReq (needTongs s r) r.id fun s r =>
          runPass s r.id m (codeJobs fmt x y (·.dst) true ++ codeJobs fmt x z (·.idx) false ++ codeJobs fmt x w (·.tab) false)
            fun s r =>
            let (s1, r1) := finishPass s r m fmt 0 [src]
            goNext s1 r1
    | _ => .go s

/-! ## EXPAND (R211 to R215) -/

/-- What EXPAND knows of its tables: the code table when it and the index header pass the first two rows of the table "EXPAND
checks". -/
def expandTables (f : Nat) (c : Codable) (tab header : List Byte) : Option CodeTab :=
  match readCodeTable f c tab with
  | some t => if indexHeaderOk f t header then some t else none
  | none => none

/-- Elements of block `b` of a group (R192). -/
def blockElems (c : Codable) (t : CodeTab) (b : Nat) : Nat := if b + 1 < t.nb then c.nfull else t.elems - (t.nb - 1) * c.nfull

/-- Where an index entry places its block, when that lies inside the source stream (row 5). -/
def blockPlace (entry srcLen : Nat) : Option (Nat × Nat) :=
  let off := entry % 2 ^ 32
  let n := bits entry 40 32 * 16
  if 32 ≤ n && n ≤ 4112 && off + n ≤ srcLen then some (off, n) else none

/-- The rows of the table "EXPAND checks" from the sixth on, for a block of number `b` that must hold `size` bytes. -/
def expandBlock (c : Codable) (t : CodeTab) (b size entry : Nat) (bs : List Byte) : Option (List Byte) :=
  let n := fieldAt bs 2 2
  let raw := bit (fieldAt bs 1 1) 0
  let eb := fieldAt bs 4 2
  if fieldAt bs 0 1 != 0xB1 || fieldAt bs 8 4 != b || n != blockElems c t b || eb != bits entry 63 48 ||
      fieldAt bs 6 2 != bits entry 40 32 || raw != bit entry 47 || fieldAt bs 1 1 / 2 != 0 || fieldAt bs 12 4 != 0 ||
      bits entry 46 41 != 0 || n * c.bytes != size then none
  else expandBody c t.codes raw n eb (bs.drop 16)

/-- What EXPAND reads ahead of the blocks: code table, index header, and the entries of blocks b to b + n − 1. -/
structure ExpandPlan where
  fmt   : Nat
  x     : ShapeSet
  z     : ShapeSet
  w     : ShapeSet
  /-- First block of the pass, and bytes of its destination. -/
  fb    : Nat
  total : Nat

def entryInside (p : ExpandPlan) (b : Nat) : Bool := 64 + 8 * b + 8 ≤ streamLen p.z

def expandPre (p : ExpandPlan) (b n : Nat) : List SrcRange :=
  streamRanges p.w 0 0 256 ++ streamRanges p.z (2 ^ 59) 0 64 ++
    ((List.range n).filter fun i => entryInside p (b + i)).flatMap fun i =>
      streamRanges p.z (2 ^ 59) (64 + 8 * (b + i)) (72 + 8 * (b + i))

/-- The parts of what was read ahead: table, header, and each block's entry with its mark. -/
def splitPre (p : ExpandPlan) (b n : Nat) (pre : List SByte) : List SByte × List SByte × List (Option (Nat × Bool)) :=
  let tl := min 256 (streamLen p.w)
  let hl := min 64 (streamLen p.z)
  let es := pre.drop (tl + hl)
  let ent := (List.range n).map fun i =>
    if entryInside p (b + i) then
      let k := ((List.range i).filter fun q => entryInside p (b + q)).length
      let e := (es.drop (8 * k)).take 8
      some (leVal (e.map Prod.fst), anyMark e)
    else none
  (pre.take tl, (pre.drop tl).take hl, ent)

def tablesOf (p : ExpandPlan) (tab header : List SByte) : Option CodeTab :=
  (codable p.fmt).bind fun c => expandTables p.fmt c (tab.map Prod.fst) (header.map Prod.fst)

/-- Source ranges of the blocks that the index places. -/
def expandMain (p : ExpandPlan) (b n : Nat) (pre : List SByte) : List SrcRange :=
  let (tab, header, ent) := splitPre p b n pre
  match tablesOf p tab header with
  | none => []
  | some t =>
    (ent.zipIdx).flatMap fun e => match e.1 with
      | some (v, _) => if b + e.2 < t.nb then
          (match blockPlace v (streamLen p.x) with
           | some (o, k) => streamRanges p.x (2 ^ 60) o (o + k)
           | none => [])
        else []
      | none => []

/-- One block's destination bytes and whether a check failed; the rest of the bytes read follows. -/
def expandOne (p : ExpandPlan) (c : Codable) (t : CodeTab) (spoil : Bool) (b : Nat) (e : Option (Nat × Bool)) (bs : List SByte) :
    List SByte × Bool × List SByte :=
  let j := b - p.fb
  let size := min 4096 (p.total - 4096 * j)
  let fail := (List.replicate size (0, true), true, bs)
  match e with
  | none => fail
  | some (v, m) =>
    if t.nb ≤ b then fail
    else match blockPlace v (streamLen p.x) with
      | none => fail
      | some (_, k) =>
        let blk := bs.take k
        let mark := spoil || m || anyMark blk
        match expandBlock c t b size v (blk.map Prod.fst) with
        | some o => (o.map (fun y => (y, mark)), false, bs.drop k)
        | none => (List.replicate size (0, true), true, bs.drop k)

def expandAll (p : ExpandPlan) (c : Codable) (t : CodeTab) (spoil : Bool) :
    Nat → List (Option (Nat × Bool)) → List SByte → List SByte × Bool
  | _, [], _ => ([], false)
  | b, e :: es, bs =>
    let (o, bad, rest) := expandOne p c t spoil b e bs
    let (o2, bad2) := expandAll p c t spoil (b + 1) es rest
    (o ++ o2, bad || bad2)

/-- A billet of EXPAND: blocks fb + lo ÷ 4096 on. -/
def expandJob (p : ExpandPlan) (y : ShapeSet) (lo hi : Nat) : Job :=
  let b := p.fb + lo / 4096
  let n := ceilDiv (hi - lo) 4096
  { pre := expandPre p b n, main := expandMain p b n, dest := destRanges y lo hi
    out := fun _ pre bs =>
      let (tab, header, ent) := splitPre p b n pre
      match codable p.fmt, tablesOf p tab header with
      | some c, some t =>
        let (o, bad) := expandAll p c t (anyMark tab || anyMark header) b ent bs
        ⟨fit (hi - lo) o, if bad then some stSizeMismatch else none, []⟩
      | _, _ => ⟨List.replicate (hi - lo) (0, true), some stSizeMismatch, []⟩
    counted := true, holds := true, again := false }

/-- EXPAND. -/
def execExpand (t : Mc) (h : HaulerId) (s : State) : Result :=
  withInstr t h "EXPAND" s fun s r i =>
    match i with
    | .expand src dst idx tab fmt fb =>
      let m := modsOf []
      let x := shapeOf r src
      let y := shapeOf r dst
      let z := shapeOf r idx
      let w := shapeOf r tab
      let p : ExpandPlan :=
        { fmt := fmt, x := x, z := z, w := w, fb := (r.params.getD fb 0).toNat, total := streamLen y }
      withReq (startPass s r m (coderSides false fmt src dst idx tab) []) r.id fun s r =>
        withReq (needTongs s r) r.id fun s r =>
          runPass s r.id m ((billets coderBillet (streamLen y)).map fun q => expandJob p y q.1 q.2) fun s r =>
            let (s1, r1) := finishPass s r m fmt 0 [src, idx, tab]
            goNext s1 r1
    | _ => .go s

end Sys2Proof.Machine
end

