-- ==== Sys2Proof/Machine/Prevalidate.lean ====
section
/-! DEFINITION. Pre-validation of a haul program (R77 to R81, table "Pre-validation checks"): every failing check as a status and a
word, of which R78 reports one. -/

namespace Sys2Proof.Machine

/-! ## Structure: instructions, loops, steps -/

/-- An instruction of the program with the index of its first word. -/
structure PvInstr where
  idx   : Nat
  words : Nat
  word  : Word
  e1    : Word
  e2    : Word

/-- The instructions of a program, up to `fuel`. -/
def pvInstrs : Nat → Nat → List Word → List PvInstr
  | 0, _, _ => []
  | f + 1, i, ws =>
    match ws with
    | [] => []
    | w :: rest =>
      let n := 1 + extWords w
      ⟨i, n, w, rest.getD 0 0, rest.getD 1 0⟩ :: pvInstrs f (i + n) (ws.drop n)

def pvDecode (i : PvInstr) : Option HInstr := decodeHaul i.word i.e1 i.e2

/-- A loop of the program: its word, counter, first word after its body, and whether its count comes from a parameter. -/
structure PvLoop where
  idx   : Nat
  l     : Nat
  body  : Nat
  fin   : Nat

def pvLoops (is : List PvInstr) : List PvLoop :=
  is.filterMap fun i => match pvDecode i with
    | some (.loop l body _ _ _) => some ⟨i.idx, l, body, i.idx + 1 + body⟩
    | _ => none

/-- Loops whose bodies hold a word, outermost first. -/
def loopsAround (ls : List PvLoop) (w : Nat) : List PvLoop := ls.filter fun l => l.idx < w && w < l.fin

/-- A STEP: its word, shape set, step, and the word of the innermost loop that holds it. -/
structure PvStep where
  idx  : Nat
  s    : Nat
  d    : Int
  loop : Option Nat

def pvSteps (is : List PvInstr) (ls : List PvLoop) : List PvStep :=
  is.filterMap fun i => match pvDecode i with
    | some (.step s d) => some ⟨i.idx, s, d, ((loopsAround ls i.idx).getLast?).map (·.idx)⟩
    | _ => none

/-- Words at which SHAPE or TAKE loads a shape set. -/
def pvLoads (is : List PvInstr) : List (Nat × Nat) :=
  is.filterMap fun i => match pvDecode i with
    | some (.shape s _ _ _ _ _ _) => some (i.idx, s)
    | some (.acquire _ s) => some (i.idx, s)
    | some (.takeHandle _ s) => some (i.idx, s)
    | _ => none

/-! ## The walk -/

/-- A shape set as pre-validation tracks it. -/
abbrev PvShape := Option ShapeSet

/-- A side of a pass with a known base: word, lowest and highest address, right, and whether its segment must be compressible or
must not be encrypted (R226). -/
structure PvSide where
  word  : Nat
  lo    : Nat
  hi    : Nat
  right : Right
  comp  : Bool
  plain : Bool

structure Pv where
  fails  : List (Nat × Nat)
  params : List Word
  shapes : List PvShape
  /-- Counts of the loops read so far, by the loop's word. -/
  counts : List (Nat × Nat)
  /-- Rings held, by body: innermost first. -/
  held   : List (List Nat)
  /-- Modifiers that wait for their pass: word index and word. -/
  mods   : List (Nat × Word)
  sides  : List PvSide

/-- What the walk knows of the program and its request. -/
structure PvEnv where
  s     : State
  ctx   : Nat
  half  : Half
  binds : List (Option Nat)
  instrs : List PvInstr
  loops : List PvLoop
  steps : List PvStep
  loads : List (Nat × Nat)
  total : Nat

def pvFail (p : Pv) (st w : Nat) : Pv := { p with fails := p.fails ++ [(st, w)] }

def pvBad (p : Pv) (bad : Bool) (w : Nat) : Pv := if bad then pvFail p stBadProgram w else p

def pvRight (p : Pv) (bad : Bool) (w : Nat) : Pv := if bad then pvFail p stRights w else p

def pvShapeOf (p : Pv) (s : Nat) : PvShape := (p.shapes.getD s none)

/-- Loop dimensions of a shape set at a word: count and summed step of each enclosing loop that steps it (R50, R51, R86). -/
def pvDims (e : PvEnv) (p : Pv) (w s : Nat) : List (Nat × Int) :=
  (loopsAround e.loops w).filterMap fun l =>
    let st := e.steps.filter fun x => x.loop == some l.idx && x.s == s
    if st.isEmpty then none
    else some (((p.counts.find? (·.1 == l.idx)).map Prod.snd).getD 1, (st.map (·.d)).foldl (· + ·) 0)

def spansMeet (a b : Option (Int × Int)) : Bool :=
  match a, b with
  | some x, some y => x.1 ≤ y.2 && y.1 ≤ x.2
  | _, _ => false

/-- Alignment unit of a format (table "Alignment rules by format class"). -/
def alignUnit (f : Nat) : Nat := if isRecord f then 16 else if fmtBits f ≥ 16 then fmtBits f / 8 else 1

def aligned (u : Nat) (v : Int) : Bool := v % (u : Int) == 0

/-- A shape set follows R59 for a format; the record size of a record side is checked with its element count. `atRun` leaves the
base out. -/
def shapeAligned (f : Nat) (sh : ShapeSet) (dims : List (Nat × Int)) (atRun : Bool) : Bool :=
  let u := alignUnit f
  (atRun || aligned u sh.base) && aligned u sh.stride && aligned u sh.len &&
    dims.all fun d => aligned u d.2

/-- A side of an instruction: its shape must be loaded, and aligned for its format, and its span must stay in the 57-bit space; a
known span is kept for the segment checks. Answers the span. -/
def pvSide (e : PvEnv) (p : Pv) (w s : Nat) (right : Right) (f : Nat) (comp plain : Bool) : Pv × Option (Int × Int) :=
  match pvShapeOf p s with
  | none => (pvFail p stBadProgram w, none)
  | some sh =>
    let dims := pvDims e p w s
    let p1 := pvBad p (!shapeAligned f sh dims sh.handle) w
    if sh.handle then (p1, none)
    else
      let sp := shapeSpan sh.base sh dims
      if sp.1 < 0 || sp.2 ≥ 2 ^ 57 then (pvFail p1 stBadProgram w, some sp)
      else ({ p1 with sides := p1.sides ++ [⟨w, sp.1.toNat, sp.2.toNat, right, comp, plain⟩] }, some sp)

/-! ## Passes -/

/-- Refusals of too many modifiers, at the words that are too many (R94). -/
def pvModCount (p : Pv) (ms : List (Nat × Word)) : Pv :=
  let extra := fun (op k : Nat) => (ms.filter fun m => opcodeOf m.2 == op).drop k
  (extra 7 4 ++ extra 8 1 ++ extra 9 1).foldl (fun p m => pvFail p stBadProgram m.1) p

/-- The word of the first modifier with an opcode. -/
def modWord (ms : List (Nat × Word)) (op w : Nat) : Nat := ((ms.find? fun m => opcodeOf m.2 == op).map Prod.fst).getD w

/-- The QUANT of a pass meets R95, R133, R167 and R174. -/
def quantOk (s : State) (ctx : Nat) (q : QuantF) (sfmt dfmt : Nat) (gather : Bool) : Bool :=
  let both := isRecord sfmt && isRecord dfmt && !gather
  let srcField := if both then q.sblk else q.blk
  let chan := channelCfg s ctx q.ch
  (both || q.sblk == 0) && (isTq sfmt || q.slast == 0) && (!isMx dfmt || q.blk == 1) && (!isMx sfmt || srcField == 1) &&
    (if gather || !isTq dfmt then q.mode == 0 && q.ch == 0
     else match q.mode with
       | 0 => q.ch == 0
       | 1 => (chan.map fun c => !c.pinned).getD false
       | 2 => (chan.map fun c => c.pinned).getD false
       | _ => false)

/-- The formats of a pass and the modifiers that they call for (R60, R89, R95, R157). -/
def pvFormats (e : PvEnv) (p : Pv) (w sfmt dfmt : Nat) (sr : Bool) (ms : List (Nat × Word)) : Pv :=
  let m := modsOf (ms.map Prod.snd)
  let rec' := isRecord sfmt || isRecord dfmt
  let p1 := pvBad p (!isFormat sfmt || !isFormat dfmt || (!convertible sfmt dfmt && !hasBits m)) w
  let p2 := match m.quant with
    | none => pvBad p1 rec' w
    | some q => pvBad p1 (!rec' || !quantOk e.s e.ctx q sfmt dfmt false) (modWord ms 8 w)
  let p3 := match m.sums with
    | none => p2
    | some (_, row, col) => pvBad p2 (!isTq dfmt || !(row || col)) (modWord ms 9 w)
  pvBad p3 (sr && exactConv sfmt dfmt && !isRecord dfmt) w

/-- The side output of SUMS (R183). -/
def pvSums (e : PvEnv) (p : Pv) (w rows cols dfmt : Nat) (ms : List (Nat × Word)) (spans : List (Option (Int × Int))) : Pv :=
  let m := modsOf (ms.map Prod.snd)
  match m.sums with
  | none => p
  | some (out, _, _) =>
    if !isTq dfmt then p
    else
      let sw := modWord ms 9 w
      let (p1, sp) := pvSide e p sw out .w 8 false false
      let size := ((pvShapeOf p out).map fun sh => sh.len * sh.count).getD 0
      pvBad (pvBad p1 (size != 4 * sumCount m rows cols) sw) (spans.any fun x => spansMeet x sp) sw

/-- The final matrix suits its destination lines (R119, R120). -/
def finalFits (m : Mods) (dfmt r c nd dlen : Nat) : Bool :=
  if isRecord dfmt then
    r == nd && recordSize dfmt (dstBlk m) c == dlen && (!isMx dfmt || c % 32 == 0)
  else r * c * fmtBits dfmt == nd * dlen * 8

/-- MOVE, and PACE as the MOVE that its burst is (R114). -/
def pvMove (e : PvEnv) (p : Pv) (w src dst sfmt dfmt : Nat) (sr : Bool) (ms : List (Nat × Word)) : Pv :=
  let m := modsOf (ms.map Prod.snd)
  let p0 := pvFormats e (pvModCount p ms) w sfmt dfmt sr ms
  let (p1, a) := pvSide e p0 w src .r sfmt false false
  let (p2, b) := pvSide e p1 w dst .w dfmt false false
  let p3 := pvBad p2 (spansMeet a b) w
  match pvShapeOf p src, pvShapeOf p dst with
  | some x, some y =>
    if isByteCopy m sfmt dfmt then pvBad p3 (x.len * x.count != y.len * y.count) w
    else
      let cols := lineCols sfmt (srcBlk m sfmt dfmt) (srcLast m) x.len
      let cd := destCols dfmt y.len
      match cols, cd with
      | some c, some cd =>
        (match chainResult m sfmt dfmt sr false x.count c y.count cd with
         | some (r', c') => pvSums e (pvBad p3 (!finalFits m dfmt r' c' y.count y.len) w) w r' c' dfmt ms [a, b]
         | none => pvFail p3 stBadProgram w)
      | _, _ => pvFail p3 stBadProgram w
  | _, _ => p3

/-- PUT ring fill (R87, R183, R217, R226). -/
def pvFill (e : PvEnv) (p : Pv) (w ring src sfmt dfmt : Nat) (sr : Bool) (ms : List (Nat × Word)) : Pv :=
  let m := modsOf (ms.map Prod.snd)
  let cfg := ringCfg e.s e.ctx ring
  let p0 := pvRight p ((cfg.map (·.prodSched)).getD true) w
  let size := (cfg.map fun c => 4096 * 2 ^ c.log).getD 0
  match cfg.bind (·.coded) with
  | some f =>
    let p1 := if e.s.fuses.grade == .b then pvFail p0 stUnitAbsent w else p0
    let p2 := ms.foldl (fun p x => pvFail p stBadProgram x.1) p1
    let p3 := pvBad p2 (sr || sfmt != f || dfmt != f) w
    let (p4, _) := pvSide e p3 w src .r sfmt true true
    pvBad p4 (((pvShapeOf p src).map fun x => decide (x.len * x.count > size)).getD false) w
  | none =>
    let p1 := pvFormats e (pvModCount p0 ms) w sfmt dfmt sr ms
    let (p2, a) := pvSide e p1 w src .r sfmt false false
    match pvShapeOf p src with
    | none => p2
    | some x =>
      if isByteCopy m sfmt dfmt then pvBad p2 (cfg.isSome && x.len * x.count > size) w
      else match lineCols sfmt (srcBlk m sfmt dfmt) (srcLast m) x.len with
        | none => pvFail p2 stBadProgram w
        | some c =>
          match chainResult m sfmt dfmt sr true x.count c 0 0 with
          | none => pvFail p2 stBadProgram w
          | some (r', c') =>
            (match fillBytes m dfmt r' c' with
             | none => pvFail p2 stBadProgram w
             | some n => pvSums e (pvBad p2 (cfg.isSome && n > size) w) w r' c' dfmt ms [a, cfg.map (ringSpan e.s)])

/-- GATHER (R90, R133, R136). -/
def pvGather (e : PvEnv) (p : Pv) (w tbl dst idx iw : Nat) (fd : Bool) (feed fmt : Nat) (ms : List (Nat × Word)) : Pv :=
  let m := modsOf (ms.map Prod.snd)
  let other := ms.filter fun x => opcodeOf x.2 != 8
  let p0 := other.foldl (fun p x => pvFail p stBadProgram x.1) (pvModCount p ms)
  let p1 := match m.quant with
    | none => pvBad p0 (isRecord fmt) w
    | some q => pvBad p0 (!isRecord fmt || !quantOk e.s e.ctx q fmt fmt true) (modWord ms 8 w)
  let p2 := pvBad p1 (!isFormat fmt) w
  let (p3, a) := pvSide e p2 w tbl .r fmt false false
  let (p4, b) := pvSide e p3 w dst .w fmt false false
  let (p5, i) := if fd then (p4, none) else pvSide e p4 w idx .r 0 false false
  let p6 := if fd then pvRight p5 (!(e.s.cfg.feeds.any fun f => f.half == e.half && f.feed == feed && f.ctx == e.ctx)) w else p5
  let p7 := pvBad p6 (spansMeet a b || spansMeet i b) w
  match pvShapeOf p tbl, pvShapeOf p dst with
  | some x, some y =>
    let p8 := pvBad p7 (x.len != y.len) w
    let p9 := pvBad p8 (isRecord fmt && m.quant.isSome && (lineCols fmt (dstBlk m) (srcLast m) x.len).isNone) w
    if fd then p9
    else match pvShapeOf p idx with
      | some z => pvBad p9 (z.len * z.count != y.count * indexBytes iw) w
      | none => p9
  | _, _ => p7

/-- CODE and EXPAND (R92, R199, R226). -/
def pvCoder (e : PvEnv) (p : Pv) (w src dst idx tab fmt : Nat) (isCode : Bool) : Pv :=
  let p0 := if e.s.fuses.grade == .b then pvFail p stUnitAbsent w else p
  let p1 := pvBad p0 (codable fmt).isNone w
  let io : Right := if isCode then .w else .r
  let (p2, _) := pvSide e p1 w src .r (if isCode then fmt else 0) (!isCode) true
  let (p3, _) := pvSide e p2 w dst .w (if isCode then 0 else fmt) isCode true
  let (p4, _) := pvSide e p3 w idx io 0 true true
  let (p5, _) := pvSide e p4 w tab io 0 true true
  let sz := fun k => ((pvShapeOf p k).map fun x => x.len * x.count).getD 0
  if !isCode then p5
  else match codable fmt with
    | none => p5
    | some c =>
      let n := sz src
      let nb := ceilDiv n 4096
      let all := [src, dst, idx, tab].all fun k => (pvShapeOf p k).isSome
      pvBad p5 (all && (n % c.bytes != 0 || n > 67108864 || sz dst != ceil16 n + 16 * nb || sz idx != 64 + 8 * nb || sz tab != 256)) w

/-! ## Other instructions -/

def pvSetShape (p : Pv) (s : Nat) (sh : ShapeSet) : Pv := { p with shapes := p.shapes.set s (some sh) }

/-- LOOP (R84, table "Pre-validation checks"). -/
def pvLoop (e : PvEnv) (p : Pv) (w l body : Nat) (pc : Bool) (pi cnt : Nat) : Pv :=
  let around := loopsAround e.loops w
  let fin := w + 1 + body
  let limit := (around.map (·.fin)).foldl min (e.total - 1)
  let straddles := e.instrs.any fun i => i.idx < fin && fin < i.idx + i.words
  let n := if pc then (p.params.getD pi 0).toNat else cnt
  let okCount := 1 ≤ n && n ≤ 16777216
  let p1 := pvBad p (body == 0 || fin > limit || straddles || around.length ≥ 8 || around.any (fun x => x.l == l) || !okCount) w
  { p1 with counts := p1.counts ++ [(w, if okCount then n else 1)], held := [] :: p1.held }

/-- STEP (R50, R86). -/
def pvStep (e : PvEnv) (p : Pv) (w s : Nat) : Pv :=
  let around := loopsAround e.loops w
  match around.getLast? with
  | none => pvFail p stBadProgram w
  | some l =>
    let stepped := around.filter fun x => e.steps.any fun st => st.loop == some x.idx && st.s == s
    pvBad p (stepped.length > 6 || e.loads.any fun x => x.2 == s && l.idx < x.1 && x.1 < l.fin) w

/-- A binding named by WAIT or SIGNAL (R360). -/
def pvBind (e : PvEnv) (p : Pv) (w b : Nat) (waits : Bool) : Pv :=
  match e.binds.getD b none with
  | none => pvFail p stBadProgram w
  | some vid =>
    match vEntry e.s e.ctx vid with
    | .loc _ sg wt => pvRight p (!(if waits then wt else sg)) w
    | .remote _ _ sg => if waits then pvFail p stBadProgram w else pvRight p (!sg) w
    | .unmapped => pvFail p stRights w

/-- TAKE ring acquire (R79, R98). -/
def pvAcquire (e : PvEnv) (p : Pv) (w ring s : Nat) : Pv :=
  let cfg := ringCfg e.s e.ctx ring
  let p1 := pvRight p (!((cfg.map (·.consHauler)).getD false)) w
  let p2 := pvBad p1 (p.held.any fun h => h.contains ring) w
  let n := (cfg.map fun c => 4096 * 2 ^ c.log).getD 4096
  let p3 := pvSetShape p2 s { base := 0, len := n, stride := n, count := 1, loaded := true, handle := true }
  { p3 with held := match p3.held with
      | h :: hs => (ring :: h) :: hs
      | [] => [[ring]] }

def pvRelease (e : PvEnv) (p : Pv) (w ring : Nat) : Pv :=
  let p1 := pvRight p (!(((ringCfg e.s e.ctx ring).map (·.consHauler)).getD false)) w
  match p1.held with
  | h :: hs => if h.contains ring then { p1 with held := h.filter (· != ring) :: hs } else pvFail p1 stBadProgram w
  | [] => pvFail p1 stBadProgram w

/-- REDUCE (R103, R401). -/
def pvReduce (e : PvEnv) (p : Pv) (w src rid pe fmt : Nat) : Pv :=
  let p1 := pvBad p (!(fmt == 1 || fmt == 2 || fmt == 3 || fmt == 8)) w
  let (p2, _) := pvSide e p1 w src .r fmt false false
  let v := (p.params.getD pe 0).toNat
  let p3 := pvBad p2 (bits v 31 14 != 0) w
  match redCfg e.s e.ctx rid with
  | none => pvFail p3 stRights w
  | some d =>
    let size := ((pvShapeOf p src).map fun x => x.len * x.count).getD d.length
    pvBad p3 (size != d.length || fmt != d.fmt || bits v 13 0 ≥ d.members) w

/-- ATOMIC (R102). -/
def pvAtomic (e : PvEnv) (p : Pv) (w t : Nat) (wide ret : Bool) (rs : Nat) : Pv :=
  let n := if wide then 8 else 4
  let (p1, _) := pvSide e p w t .a 0 false false
  let p2 := match pvShapeOf p t with
    | some x => pvBad p1 (x.len != n || x.count != 1 || (!x.handle && x.base % n != 0) ||
        (pvDims e p w t).any fun d => !aligned n d.2) w
    | none => p1
  if ret then (pvSide e p2 w rs .w 0 false false).1 else p2

/-- A SHAPE before word `w` loads the shape set (R97). -/
def shapedBefore (e : PvEnv) (w s : Nat) : Bool :=
  e.instrs.any fun x => x.idx < w && (match pvDecode x with
    | some (.shape k _ _ _ _ _ _) => k == s
    | _ => false)

/-- One instruction, its own word checked first; `ms` are the modifiers before it when it is a pass that takes them. -/
def pvInstr (e : PvEnv) (p : Pv) (w : Nat) (i : HInstr) (ms : List (Nat × Word)) : Pv :=
  let need := fun (p : Pv) s => pvBad p (pvShapeOf p s).isNone w
  match i with
  | .shape s pb pi len cnt off stride =>
    let b := if pb then (p.params.getD pi 0 + BitVec.ofNat 64 off).toNat else off
    pvSetShape (pvBad p (b ≥ 2 ^ 57) w) s
      { base := b % 2 ^ 57, len := len, stride := stride, count := cnt, loaded := true, handle := false }
  | .move src dst sfmt dfmt sr _ _ => pvMove e p w src dst sfmt dfmt sr ms
  | .pace line src dst sfmt dfmt sr _ _ =>
    pvMove e (pvRight p (((pacingCfg e.s line).map fun c => c.ctx != e.ctx).getD true) w) w src dst sfmt dfmt sr ms
  | .gather tbl dst idx iw fd feed fmt _ => pvGather e p w tbl dst idx iw fd feed fmt ms
  | .fill ring src sfmt dfmt sr _ => pvFill e p w ring src sfmt dfmt sr ms
  | .loop l body pc pi cnt => pvLoop e p w l body pc pi cnt
  | .step s _ => pvStep e p w s
  | .code src dst idx tab fmt => pvCoder e p w src dst idx tab fmt true
  | .expand src dst idx tab fmt _ => pvCoder e p w src dst idx tab fmt false
  | .putHandle q s => need (pvRight p (handleCfg e.s e.ctx q).isNone w) s
  | .takeHandle q s =>
    let p1 := pvBad (pvRight p (handleCfg e.s e.ctx q).isNone w) (!shapedBefore e w s) w
    match pvShapeOf p s with
    | some x => pvSetShape p1 s { x with handle := true }
    | none => p1
  | .acquire ring s => pvAcquire e p w ring s
  | .release ring => pvRelease e p w ring
  | .wait b _ _ _ => pvBind e p w b true
  | .signal b _ => pvBind e p w b false
  | .prefetch s _ => need p s
  | .advise s _ => need p s
  | .atomic _ wide _ t _ _ ret rs => pvAtomic e p w t wide ret rs
  | .reduce src rid pe fmt => pvReduce e p w src rid pe fmt
  | .setp pd mode ps imm ext =>
    let p1 := pvBad p (!(loopsAround e.loops w).isEmpty) w
    { p1 with params := p1.params.set pd (setpValue mode (p1.params.getD ps 0) imm ext) }
  | .halt => pvBad p (!(p.held.headD []).isEmpty) w
  | _ => p

def takesMods : HInstr → Bool
  | .move _ _ _ _ _ _ _ => true
  | .gather _ _ _ _ _ _ _ _ => true
  | .pace _ _ _ _ _ _ _ _ => true
  | .fill _ _ _ _ _ _ => true
  | _ => false

def isModifier : HInstr → Bool
  | .xform _ _ _ => true
  | .quant _ _ _ _ _ => true
  | .sums _ _ _ => true
  | _ => false

/-- Modifiers that no pass consumes (R94): the first one's word fails. -/
def dropMods (p : Pv) : Pv :=
  match p.mods with
  | [] => p
  | m :: _ => { pvFail p stBadProgram m.1 with mods := [] }

/-- Bodies that end before word `w`, innermost first: their rings must balance (R79), and no modifier may be left. -/
def leaveLoops (e : PvEnv) (w : Nat) (p : Pv) : Pv :=
  let ending := (e.loops.filter fun l => l.fin == w && l.idx < w).reverse
  ending.foldl (fun p l =>
    let p1 := dropMods p
    { pvBad p1 (!(p1.held.headD []).isEmpty) l.idx with held := p1.held.drop 1 }) p

/-- The walk over one instruction. -/
def pvOne (e : PvEnv) (p0 : Pv) (i : PvInstr) : Pv :=
  let p := pvBad (leaveLoops e i.idx p0) (wordBad i.word i.e1 i.e2) i.idx
  match pvDecode i with
  | none => dropMods p
  | some h =>
    if isModifier h then { p with mods := p.mods ++ [(i.idx, i.word)] }
    else if takesMods h then pvInstr e { p with mods := [] } i.idx h p.mods
    else pvInstr e (dropMods p) i.idx h []

/-- The segment checks of a side (R226, table "Pre-validation checks"). -/
def sideFails (s : State) (ctx : Nat) (x : PvSide) : List (Nat × Nat) :=
  match segOf s ctx x.lo (x.hi + 1 - x.lo) with
  | none => [(stSegmentBound, x.word)]
  | some g =>
    (if hasRight g.cfg x.right then [] else [(stRights, x.word)]) ++
    (if x.plain && g.cfg.enc then [(stProtectedRegion, x.word)]
     else if x.comp && !g.cfg.comp then [(stRights, x.word)] else [])

/-- The refusal of a program, none when every check passes (R77, R78). `binds` are the virtual counter IDs of the supplied
bindings. -/
def prevalidate (s : State) (ctx : Nat) (half : Half) (program params : List Word) (binds : List (Option Nat)) :
    Option (Nat × Nat) :=
  let is := pvInstrs program.length 0 program
  let ls := pvLoops is
  let e : PvEnv :=
    { s := s, ctx := ctx, half := half, binds := binds, instrs := is, loops := ls, steps := pvSteps is ls
      loads := pvLoads is, total := program.length }
  let start : Pv :=
    { fails := [], params := params, shapes := List.replicate 8 none, counts := [], held := [[]], mods := [], sides := [] }
  let p := is.foldl (pvOne e) start
  let fails := p.fails ++ p.sides.flatMap (sideFails s ctx)
  worstFailure (sortBy Prod.snd fails)

end Sys2Proof.Machine
end

