-- ==== Sys2Proof/Machine/Queues.lean ====
section
/-! DEFINITION. Queues: doorbells, entry fetch, completion records, interrupts, pacing requests (R276, R280 to R284, R287 to R292,
R113). -/

namespace Sys2Proof.Machine

/-- Difference of two 32-bit counts (R281). -/
def sub32b (a b : Nat) : Nat := (a + 2 ^ 32 - b % 2 ^ 32) % 2 ^ 32

def sqDepth (s : State) (q : Nat) : Nat := if q < 16 then 64 else ((sqCfg s q).map (·.depth)).getD 16

/-- Partition that owns a submission queue (R270). -/
def sqOwner (s : State) (q : Nat) : Option Nat := if q < 16 then some q else (sqCfg s q).map fun c => partOfCtx s c.ctx

def cqOwner (s : State) (q : Nat) : Option Nat := if q < 16 then some q else (cqCfg s q).map (·.partition)

/-! ## Queues as they stood before a command of the same mc (R304) -/

/-- A command is about to change a submission queue's state: the queue as it stands is kept for this mc. -/
def keepSq (s : State) (q : Nat) : State :=
  match getSq s q with
  | none => s
  | some x =>
    let now := s.q.oldSqs.filter fun o => o.1 == s.time
    { s with q.oldSqs := if now.any (·.2.qid == q) then now else (s.time, x) :: now }

def keepCq (s : State) (q : Nat) : State :=
  match getCq s q with
  | none => s
  | some x =>
    let now := s.q.oldCqs.filter fun o => o.1 == s.time
    { s with q.oldCqs := if now.any (·.2.qid == q) then now else (s.time, x) :: now }

/-- The submission queue as a doorbell or a dispatch of this mc sees it. -/
def seenSq (s : State) (q : Nat) : Option SubQueue :=
  match s.q.oldSqs.find? fun o => o.1 == s.time && o.2.qid == q with
  | some o => some o.2
  | none => getSq s q

/-- The completion queue as a doorbell or a completion of this mc sees it. -/
def seenCq (s : State) (q : Nat) : Option CompQueue :=
  match s.q.oldCqs.find? fun o => o.1 == s.time && o.2.qid == q with
  | some o => some o.2
  | none => getCq s q

/-- A change of the queue as this mc still sees it, and not of the queue that a command has changed. -/
def updOldSq (s : State) (q : Nat) (f : SubQueue → SubQueue) : State :=
  { s with q.oldSqs := updWhere (fun o => o.2.qid == q) (fun o => (o.1, f o.2)) s.q.oldSqs }

/-- A change of a submission queue that also reaches the queue as this mc sees it. -/
def updSeenSq (s : State) (q : Nat) (f : SubQueue → SubQueue) : State :=
  updOldSq (updSq s q f) q f

def updSeenCq (s : State) (q : Nat) (f : CompQueue → CompQueue) : State :=
  let s1 := updCq s q f
  { s1 with q.oldCqs := updWhere (fun o => o.2.qid == q) (fun o => (o.1, f o.2)) s1.q.oldCqs }

/-! ## Doorbells (R280) -/

/-- A doorbell write is well formed: 4 B, or 8 B with a zero high half. -/
def bellOk (w : BellWrite) : Bool := w.size == 4 || (w.size == 8 && w.value.toNat < 2 ^ 32)

def bellValue (w : BellWrite) : Nat := w.value.toNat % 2 ^ 32

/-- A discarded doorbell is counted. -/
def countBell (s : State) (p : Nat) : State :=
  updPartRegs s p fun x => { x with bellDiscards := capAt 0xFFFFFFFF (x.bellDiscards + 1) }

/-- A queue-error event of a submission queue (R282, R352). -/
def queueError (s : State) (q tOld tNew : Nat) : State :=
  let noCtx := q < 16
  raiseEvent s ((sqOwner s q).getD 0) 0x000B (((sqCfg s q).map (·.ctx)).getD 0) noCtx q (tOld * 2 ^ 32 + tNew)

/-- A tail doorbell (R281, R282). -/
def ringTail (s : State) (q tNew : Nat) : State :=
  match seenSq s q with
  | none => s
  | some x =>
    if x.st != .enabled then s
    else
      let d := sqDepth s q
      if sub32b tNew x.tail > d || sub32b tNew x.head > d then
        queueError (updSeenSq s q fun y => if y.st == .enabled then { y with st := .error, held := [] } else y) q x.tail tNew
      else updSeenSq s q fun y => { y with tail := tNew }

/-- A head doorbell of a completion queue (R290). -/
def ringHead (s : State) (q v : Nat) : State :=
  match seenCq s q with
  | none => s
  | some x =>
    if x.st != .enabled then s
    else if sub32b v x.head > sub32b x.count x.head then
      updSeenCq s q fun y => if y.st == .enabled then { y with st := .error } else y
    else updSeenCq s q fun y => { y with head := v }

/-- SQ_DOORBELL. -/
def execSqDoorbell (t : Mc) (q : Fin 8192) (w : BellWrite) (s : State) : Result :=
  let s1 := hostAt s t w.port
  if !running s1 then answer s s1
  else if w.port != homePort s1 w.part.val || !bellOk w || sqOwner s1 q.val != some w.part.val then
    answer s (countBell s1 w.part.val)
  else answer s (ringTail s1 q.val (bellValue w))

/-- CQ_DOORBELL. -/
def execCqDoorbell (t : Mc) (q : Fin 2048) (w : BellWrite) (s : State) : Result :=
  let s1 := hostAt s t w.port
  if !running s1 then answer s s1
  else if w.port != homePort s1 w.part.val || !bellOk w || cqOwner s1 q.val != some w.part.val then
    answer s (countBell s1 w.part.val)
  else answer s (ringHead s1 q.val (bellValue w))

/-! ## Pacing requests (R113) -/

/-- A source request of a pacing line, which counts from `delay` mc on: the count rises, or at 65,535 the request is lost, counted and
reported; the home half of the line's context wakes from Glow (R456). -/
def addPacing (s : State) (line delay : Nat) : State :=
  match getPacing s line, pacingCfg s line with
  | some x, some c =>
    if x.pending ≥ 65535 then
      let n := capAt 0xFFFFFFFF (x.overruns + 1)
      ctxEvent (updPacing s line fun x => { x with overruns := n }) c.ctx 0x0003 line n
    else
      let late := x.coming.filter fun m => s.time < m
      wakeHalf (updPacing s line fun x => { x with pending := x.pending + 1, coming := if delay = 0 then late else (s.time + delay) :: late })
        (homeOfCtx s c.ctx)
  | _, _ => s

/-- PACING_DOORBELL: word 0 of page 20; every other word of pages 20 to 31 is reserved (R280). -/
def execPacingDoorbell (t : Mc) (word : Nat) (w : BellWrite) (s : State) : Result :=
  let s1 := hostAt s t w.port
  if !running s1 then answer s s1
  else
    let line := bellValue w
    let ok := w.port == homePort s1 w.part.val && bellOk w && word == 0 && line < 256 &&
      (match pacingCfg s1 line with
       | some c => c.source == .host && partOfCtx s1 c.ctx == w.part.val
       | none => false)
    answer s (if ok then addPacing s1 line 0 else countBell s1 w.part.val)

/-- PACING_TIMER: the line's request falls due, and the next one a period later. -/
def execPacingTimer (t : Mc) (line : Fin 256) (s : State) : Result :=
  match pacingCfg s line.val, getPacing s line.val with
  | some c, some x =>
    if c.source == .timer && running s then
      let s1 := atTime s (max t x.due)
      answer s (addPacing (updPacing s1 line.val fun x => { x with due := x.due + c.period }) line.val 0)
    else answer s (atTime s t)
  | _, _ => answer s (atTime s t)

/-! ## Entry fetch (R284) -/

/-- The early checks of an admin entry (R299 steps 1 to 3): detail of the refusal. -/
def adminEarly (e : List Byte) : Option Nat :=
  let cmd := fieldAt e 8 2
  if fieldAt e 0 1 != 0x10 then some 0x2001
  else if fieldAt e 1 1 != 0 && fieldAt e 1 1 != 2 || fieldAt e 2 2 != 0 || fieldAt e 10 6 != 0 then some 0x2002
  else if !((1 ≤ cmd && cmd ≤ 5) || cmd == 0x10 || (0x20 ≤ cmd && cmd ≤ 0x23) || cmd == 0x30 || cmd == 0x40 ||
      (0x50 ≤ cmd && cmd ≤ 0x52) || cmd == 0x60) then some 0x4000
  else none

/-- An entry that an admin queue holds: refused entries complete at once, in their order (R299). -/
def holdAdmin (s : State) (q : Nat) (e : List Byte) : State :=
  match adminEarly e with
  | some d => readyRecord s (entryRecord s q (fieldAt e 4 4) (bit (fieldAt e 1 1) 1) stBadProgram d)
  | none => updSq s q fun x => { x with held := x.held ++ [e] }

/-- ENTRY_FETCH: the next visible entry of an ENABLED queue is read and held, at most 8 at once. -/
def execEntryFetch (t : Mc) (q : Fin 8192) (s : State) : Result :=
  let s1 := atTime s t
  match getSq s1 q.val, sqOwner s1 q.val with
  | some x, some p =>
    if !running s1 || x.st != .enabled || x.tail == x.head || x.held.length ≥ 8 || s1.halfReset.get (sqHome s1 q.val) then
      answer s s1
    else
      let e := hostRead s1 p (x.base + x.head % sqDepth s1 q.val * 64) 64
      let s2 := updSq s1 q.val fun x => { x with head := (x.head + 1) % 2 ^ 32 }
      answer s (if q.val < 16 then holdAdmin s2 q.val e else updSq s2 q.val fun x => { x with held := x.held ++ [e] })
  | _, _ => answer s s1

/-! ## Completion records (R287 to R292) -/

/-- The 32 bytes of a completion record (table "Completion record"). -/
def recordBytes (s : State) (r : PendingRec) (phase : Bool) : List Byte :=
  leBytes 2 (r.qid % 8192 + (if phase then 0x8000 else 0)) ++ leBytes 2 r.status ++ leBytes 4 r.tag ++ leBytes 8 r.bytes ++
    leBytes 4 r.spoiled ++ leBytes 4 r.ledger ++ leBytes 6 (s.time % 2 ^ 48) ++ leBytes 2 r.detail

/-- Interrupt mode and vector of a completion queue. -/
def cqIrq (s : State) (q : Nat) : IrqMode × Nat :=
  if q < 16 then (.each, ((partCfg s q).map (·.adminVector)).getD 0)
  else ((cqCfg s q).map fun c => (c.irq, c.vector)).getD (.none, 0)

/-- The message after a record (R292). -/
def signalRecord (s : State) (q p : Nat) (irq : Bool) : State :=
  let (mode, vector) := cqIrq s q
  let n := ((getCq s q).map (·.unsignalled)).getD 0 + 1
  let now := irq || (match mode with
    | .each => true
    | .coalesce c _ => n ≥ c
    | .none => false)
  if now then sendMsix (updCq s q fun x => { x with unsignalled := 0 }) p vector
  else updCq s q fun x => { x with unsignalled := n, oldest := if n == 1 then s.time else x.oldest }

/-- The record of a request is written or discarded: the request gives up its hauler and its queue's count, and leaves what its
persistent channel's next run needs (R285, R295, R297). -/
def retireRequest (s : State) (id status : Nat) : State :=
  match getReq s id with
  | none => s
  | some r =>
    let s1 := removeReq s id
    let s2 := { s1 with run.stalled := s1.run.stalled.filter (· != id) }
    updSq s2 r.qid fun q =>
      { q with running := q.running - 1, ended := if r.isRun && q.active then some status else q.ended
               endedAt := if r.isRun && q.active then s.time else q.endedAt
               left := if r.isRun && q.active then r.binds else q.left }

/-- What follows the record, written or discarded. -/
def afterRecord (s : State) (r : PendingRec) : State :=
  let s1 := match r.req with
    | some id => retireRequest s id r.status
    | none => s
  match r.rep with
  | some id =>
    (match getReq s1 id with
     | some q =>
       let waited := q.hauler.isSome && (match q.wait with
         | some (.record _) => true
         | _ => false)
       releaseEffects (popEffect s1 (if waited then { q with wait := none } else q)) id
     | none => s1)
  | none => s1

/-- The first waiting record of a queue leaves the waiting list. -/
def dropRecord (s : State) (cq : Nat) : State := { s with q.records := dropFirst (·.cq == cq) s.q.records }

/-- A record for a queue that is DISABLED or in ERROR is discarded, counted and reported (R291). -/
def discardRecord (s : State) (cq p : Nat) (r : PendingRec) : State :=
  let n := capAt 0xFFFFFFFF (((getCq s cq).map (·.discards)).getD 0 + 1)
  let s1 := updCq (dropRecord s cq) cq fun x => { x with discards := n }
  afterRecord (raiseEvent s1 p 0x000C 0 true cq n) r

/-- The oldest record waiting for a queue is written, when the queue has room. It is written also while the half of the partition's home
host port is in half reset, as are fault records and MSI-X messages: R33 names the writes of requests, and does not say what becomes of
those of the mover itself toward the host of such a partition (assumption 82, DESIGN CHOICE). -/
def writeRecord (s : State) (cq : Nat) : State :=
  match s.q.records.find? (·.cq == cq), seenCq s cq, cqOwner s cq with
  | some r, some x, some p =>
    if x.st != .enabled then discardRecord s cq p r
    else
      let d := cqDepth s cq
      if sub32b x.count x.head ≥ d then parkRecords s cq
      else
        let s1 := hostWrite (dropRecord s cq) p (x.base + x.count % d * 32) (recordBytes s r (phaseOf x.count d))
        let s2 := updSeenCq s1 cq fun x => { x with count := (x.count + 1) % 2 ^ 32 }
        parkRecords (afterRecord (signalRecord s2 cq p r.irq) r) cq
  | _, _, _ => s

/-- An ended request, or one with a REPORT, has a record for the queue on the way: it waits for answers of lines or for a SIGNAL to take
effect. -/
def recordComing (s : State) (cq : Nat) : Bool :=
  !s.q.records.any (·.cq == cq) && s.run.reqs.any fun r => cqOf s r.qid == cq && r.writes.isEmpty &&
    (match r.effects.dropWhile isSent with
     | .report _ _ _ _ _ :: _ => true
     | [] => r.fin.isSome && !entryWaits s r && (!r.effects.isEmpty || (lineOpen s r (·.write) && r.hauler.isSome))
     | _ => false)

/-- COMPLETION_RECORD. -/
def execCompletionRecord (t : Mc) (cq : Fin 2048) (s : State) : Result :=
  let s1 := whenReady s t fun x => !recordComing x cq.val
  answer s (if running s1 then writeRecord s1 cq.val else s1)

/-- MSIX_COALESCE_TIMEOUT: t µs after the oldest record that no message has followed (R292). -/
def execMsixCoalesceTimeout (t : Mc) (cq : Fin 2048) (s : State) : Result :=
  match getCq s cq.val, cqOwner s cq.val, cqIrq s cq.val with
  | some x, some p, (.coalesce _ time, vector) =>
    if x.unsignalled > 0 && running s then
      let s1 := atTime s (max t (x.oldest + mcOf time))
      answer s (sendMsix (updCq s1 cq.val fun x => { x with unsignalled := 0 }) p vector)
    else answer s (atTime s t)
  | _, _, _ => answer s (atTime s t)

end Sys2Proof.Machine
end

