-- ==== Sys2Proof/Machine/Channels.lean ====
section
/-! DEFINITION. Dispatch of queue entries: entry checks, argument block, program fetch, pre-validation, and persistent channels (R68
to R73, R277 to R279, R285, R293 to R298, R360). -/

namespace Sys2Proof.Machine

/-! ## The entry (R277) -/

def entryType (e : List Byte) : Nat := fieldAt e 0 1
def entryFlags (e : List Byte) : Nat := fieldAt e 1 1
def entryArgs (e : List Byte) : Bool := bit (entryFlags e) 0
def entryIrq (e : List Byte) : Bool := bit (entryFlags e) 1
def entryTag (e : List Byte) : Nat := fieldAt e 4 4
def entryPmask (e : List Byte) : Nat := fieldAt e 2 2
def entryProgram (e : List Byte) : Nat := fieldAt e 8 8
def entryArgAddr (e : List Byte) : Nat := fieldAt e 16 8
def entryBmask (e : List Byte) : Nat := fieldAt e 24 1

/-- A TYPE that the queue's kind accepts (R286). -/
def typeAccepted (c : SqCfg) (e : List Byte) : Bool :=
  if c.persistent then 2 ≤ entryType e && entryType e ≤ 4 else entryType e == 1

def anyNonZero (bs : List Byte) : Bool := bs.any (· != 0)

/-- A STOP entry holds TYPE and TAG only (R277). -/
def stopBad (e : List Byte) : Bool := anyNonZero ((e.drop 1).take 3) || anyNonZero (e.drop 8)

/-- Cause 0x002 in the entry itself. -/
def entryReserved (e : List Byte) : Bool := entryFlags e / 4 != 0 || anyNonZero ((e.drop 25).take 7)

/-- Cause 0x003 in the entry itself. -/
def entryUnmasked (e : List Byte) : Bool :=
  (List.range 4).any fun i => !bit (entryPmask e) i && fieldAt e (32 + 8 * i) 8 != 0

/-- Cause 0x002 in the argument block. -/
def argReserved (a : List Byte) : Bool :=
  anyNonZero (a.drop 224) || (List.range 8).any fun i =>
    fieldAt a (96 + 16 * i) 2 / 4096 != 0 || anyNonZero ((a.drop (98 + 16 * i)).take 6)

/-- Cause 0x003 in the argument block. -/
def argUnmasked (e a : List Byte) : Bool :=
  ((List.range 12).any fun i => !bit (entryPmask e) (4 + i) && fieldAt a (8 * i) 8 != 0) ||
  ((List.range 8).any fun i => !bit (entryBmask e) i && (fieldAt a (96 + 16 * i) 2 != 0 || fieldAt a (104 + 16 * i) 8 != 0))

/-- Cause 0x004. -/
def entryNoArgs (e : List Byte) : Bool :=
  !entryArgs e && (entryPmask e / 16 != 0 || entryBmask e != 0 || entryArgAddr e != 0)

def badAddress (a unit : Nat) : Bool := a % unit != 0 || a ≥ 2 ^ 57

/-- Why the argument block cannot be read: causes 0x005 to 0x007. -/
def argUnreadable (s : State) (ctx : Nat) (e : List Byte) : Option Nat :=
  if !entryArgs e then none
  else if badAddress (entryArgAddr e) 256 then some 5
  else match segOf s ctx (entryArgAddr e) 256 with
    | none => some 6
    | some g => if g.cfg.r then none else some 7

def causeStatus (c : Nat) : Nat := if c == 6 then stSegmentBound else if c == 7 then stRights else stBadProgram

/-- The lowest cause of the table "Entry checks" (R279), the argument block being at hand when it can be read. -/
def entryCause (s : State) (r : Request) (c : SqCfg) : Option Nat :=
  let e := r.entry
  let a := r.argBlk.getD (zeros 256)
  if !typeAccepted c e then some 1
  else if entryReserved e || argReserved a then some 2
  else if entryUnmasked e || argUnmasked e a then some 3
  else if entryNoArgs e then some 4
  else if r.argBlk.isNone && (argUnreadable s r.ctx e).isSome then argUnreadable s r.ctx e
  else if badAddress (entryProgram e) 8 then some 8
  else none

/-! ## Reads of a request that has not begun (R72, R73, R278) -/

/-- What has been read of a program or argument block joins the request: its spoiled lines count as those of a source do (R116), and its
lines go to the memory ports (R306). -/
def takeFetched (s : State) (r : Request) (ps : List Piece) (bs : List SByte) : Request :=
  let r1 := { r with rdata := [], wait := none, pass := PassState.start }
  billetLines s (noteSpoiled r1 (spoiledOver s ps bs)) none ps [] []

/-- A range of the context's memory that the request reads before it runs, as one billet (R333); from a half in half reset nothing can be
read, and the request ends (R32). -/
def fetchRange (s : State) (r : Request) (va n : Nat) (k : State → Request → List Byte → Flow) : Flow :=
  let needs : List Need := [(va, n, .r)]
  match billetXlate s r needs with
  | .ok ps =>
    if anyUnreachable s ps then
      .go (endRequest (setReq s { r with spoiled := capAt 0xFFFFFFFF (r.spoiled + spoiledOver s ps (good (zeros n))) }) r.id stQuenched 0 [])
    else
      let r0 := { r with pass := { r.pass with opened := some (needs, ps) } }
      (crossSeam (setReq s r0) r0 ps).bind fun s2 => (awaitRemote s2 r0 ps ps).bind fun s1 =>
        match getReq s1 r.id with
        | some r1 =>
          let bs := ps.flatMap (pieceBytes s1 r1)
          let r2 := takeFetched s1 r1 ps bs
          k (setReq s1 r2) r2 (bs.map Prod.fst)
        | none => .stop s1
  | x => blockBillet s r x false

/-- A program or argument block counts as one billet on the blocks that it reaches (R333, R346). -/
def touchFetched (s : State) (ctx va n : Nat) : State :=
  match translate s ctx [(va, n, .r)] with
  | .ok ps => touchBlocks s ctx ps
  | _ => s

/-- Index of the first word that is HALT and no extension word (R71). -/
def haltAt : Nat → Nat → List Word → Option Nat
  | 0, _, _ => none
  | f + 1, i, ws =>
    match ws with
    | [] => none
    | w :: _ =>
      if opcodeOf w == 1 then some i
      else haltAt f (i + 1 + extWords w) (ws.drop (1 + extWords w))

/-- A supplied binding at its start (R68, R69, R297, R360). -/
def makeBinding (s : State) (ctx : Nat) (e a : List Byte) (left : List Binding) (i : Nat) : Binding :=
  if !bit (entryBmask e) i then { vid := 0, target := 0, gen := 0, supplied := false }
  else
    let vid := fieldAt a (96 + 16 * i) 2 % 4096
    let target := match left[i]? with
      | some b => if b.supplied && b.vid == vid then b.target else fieldAt a (104 + 16 * i) 8
      | none => fieldAt a (104 + 16 * i) 8
    let gen := match vEntry s ctx vid with
      | .loc c _ _ => genOf s c
      | _ => 0
    { vid := vid, target := target, gen := gen, supplied := true }

def makeParams (e a : List Byte) : List Word :=
  bytesToWords 4 (e.drop 32) ++ bytesToWords 12 a

/-- The program is complete: it is pre-validated, and runs or is refused (R77). -/
def beginProgram (s : State) (r : Request) (prog : List Word) : Flow :=
  let s := touchFetched s r.ctx (entryProgram r.entry) (8 * prog.length)
  let ids := r.binds.map fun b => if b.supplied then some b.vid else none
  match prevalidate s r.ctx r.half prog r.params ids with
  | some (st, w) => .go (endRequest (setReq s { r with mods := [] }) r.id st w [])
  | none => .go (setReq s { r with program := prog, mods := [], pc := 0, wait := none })

/-- How many words from the program's start on hold its first HALT, to the end of that word's 256 B line, as far as local memory shows it:
the program's lines are one billet (R333). A line that does not translate ends the search, and is part of the billet. None where a line
lies in another package or the program leaves its segment: then the lines are read one after the other, since no more than the next one is
known. -/
def programReach (s : State) (r : Request) (g : Segment) : Nat → List Word → Option Nat
  | 0, _ => none
  | f + 1, ws =>
    let n := ws.length
    let va := entryProgram r.entry + 8 * n
    let fin := g.cfg.start + g.cfg.length
    if n ≥ 8192 || fin < va + 8 then none
    else
      let k := min (min ((256 - va % 256) / 8) (8192 - n)) ((fin - va) / 8)
      match translate s r.ctx [(va, 8 * k, .r)] with
      | .ok ps =>
        if ps.any (·.pkg.isSome) then none
        else if anyUnreachable s ps then some (n + k)
        else
          let all := ws ++ bytesToWords k ((ps.flatMap (pieceBytes s r)).map Prod.fst)
          if (haltAt all.length 0 all).isSome then some (n + k) else programReach s r g f all
      | _ => some (n + k)

/-- Program words read until HALT (R71, R72): as one billet (R333), or line by line; what has been read so far stands in `mods`. -/
def fetchWords : Nat → State → Nat → Flow
  | 0, s, _ => .go s
  | f + 1, s, id =>
    match getReq s id with
    | none => .stop s
    | some r =>
      let base := entryProgram r.entry
      let n := r.mods.length
      match segAt s r.ctx base with
      | none => .go (endRequest s id stSegmentBound 0 [])
      | some g =>
        let va := base + 8 * n
        let fin := g.cfg.start + g.cfg.length
        if !g.cfg.r then .go (endRequest s id stRights 0 [])
        else if n ≥ 8192 then .go (endRequest s id stBadProgram 8191 [])
        else if fin < va + 8 then .go (endRequest s id stSegmentBound n [])
        else
          let line := min (min ((256 - va % 256) / 8) (8192 - n)) ((fin - va) / 8)
          let k := if n = 0 then (programReach s r g 300 []).getD line else line
          match fetchRange s r va (8 * k) fun s1 r1 bs =>
              let all := r1.mods ++ bytesToWords k bs
              match haltAt all.length 0 all with
              | some h => beginProgram s1 r1 (all.take (h + 1))
              | none => .go (setReq s1 { r1 with mods := all }) with
          | .go s2 =>
            (match getReq s2 id with
             | some r2 => if r2.fin.isSome || !r2.program.isEmpty then .go s2 else fetchWords f s2 id
             | none => .go s2)
          | x => x

/-- The request has its argument block, or reads it (R278). -/
def fetchArgs (s : State) (r : Request) (k : State → Request → Flow) : Flow :=
  if !entryArgs r.entry || r.argBlk.isSome || (argUnreadable s r.ctx r.entry).isSome || entryReserved r.entry then k s r
  else fetchRange s r (entryArgAddr r.entry) 256 fun s1 r1 bs =>
    let r2 := { r1 with argBlk := some bs }
    k (touchFetched (setReq s1 r2) r.ctx (entryArgAddr r.entry) 256) r2

/-- The fetch phase of a request: entry checks, argument block, program, pre-validation. -/
def prepare (s : State) (id : Nat) : Flow :=
  match getReq s id with
  | none => .stop s
  | some r =>
    match sqCfg s r.qid with
    | none => .stop s
    | some c =>
      if !typeAccepted c r.entry then .go (endRequest s id stBadProgram 0x2001 [])
      else fetchArgs s r fun s1 r1 =>
        match entryCause s1 r1 c with
        | some k => .go (endRequest s1 id (causeStatus k) (0x2000 + k) [])
        | none =>
          let a := r1.argBlk.getD (zeros 256)
          let left := ((getSq s1 r1.qid).map (·.left)).getD []
          let r2 := if r1.binds.isEmpty then
              { r1 with binds := (List.range 8).map (makeBinding s1 r1.ctx r1.entry a left)
                        params := makeParams r1.entry a, params0 := makeParams r1.entry a }
            else r1
          fetchWords 8300 (setReq s1 r2) id

/-! ## Starting a request (R68, R285) -/

/-- A request as its hauler begins it. -/
def newRequest (s : State) (q : Nat) (c : SqCfg) (h : HaulerId) (e : List Byte) : Request :=
  { id := s.run.nextReq, qid := q, isRun := c.persistent && typeAccepted c e, ctx := c.ctx, half := h.half, hauler := some h.idx.val
    wait := none, waitAt := 0, waitHaul := 0, waitSeq := 0, stays := false, latched := none, parkedIn := none, tag := entryTag e
    irq := entryIrq e, pmask := entryPmask e, entry := e, argBlk := none, program := [], pc := 0
    shapes := List.replicate 8 { base := 0, len := 1, stride := 0, count := 1, loaded := false, handle := false }
    loops := [], params := List.replicate 16 0, params0 := List.replicate 16 0, binds := [], held := [], mods := []
    bytes := 0, spoiled := 0, cause := none, fin := none, pass := PassState.start, tongs := none, hits := [], elems := [], writes := []
    lines := { buffers := [], stream := [], next := 0 }, active := s.time, hostWrites := ⟨[], []⟩, kept := [], record := none
    lastDue := 0, rdata := [], answer := none, effects := [], filling := none
    led := { input := [], output := [], marks := [], spoiled := false, part := 0 }, lastPart := false, lastSeq := none }

def ctxQuenched (s : State) (ctx : Nat) : Bool := ((getCtx s ctx).map fun x => x.st == .quenched).getD false

/-- A request starts on hauler `h` from entry `e`; in a QUENCHED context it completes at once (R272). -/
def startRequest (s : State) (q : Nat) (c : SqCfg) (h : HaulerId) (e : List Byte) : Flow :=
  let r := newRequest s q c h e
  let s1 := { s with run.reqs := s.run.reqs ++ [r], run.nextReq := s.run.nextReq + 1 }
  let s2 := updSeenSq s1 q fun x => { x with running := x.running + 1, ended := if r.isRun then none else x.ended }
  if ctxQuenched s2 c.ctx then .go (endRequest s2 r.id stQuenched 0 []) else prepare s2 r.id

/-- The front held entry of a queue starts a request. -/
def startsRequest (c : SqCfg) (x : SubQueue) : Bool :=
  match x.held with
  | [] => false
  | e :: _ =>
    if !c.persistent || !typeAccepted c e then true
    else if entryType e == 4 then false
    else !x.active

/-- The record that completes entry `e` of a queue, which a command of this mc has cut short. -/
def cutRecord (q : Nat) (e : List Byte) (x : PendingRec) : Bool :=
  x.qid == q && x.tag == entryTag e && x.status == stContextReset && x.req.isNone && x.rep.isNone

/-- The queue as a dispatch of this mc sees it: as it stood before a command that changes its state (R304), when the record that the
command made for its front entry is not written yet. -/
def dispatchSq (s : State) (q : Nat) : Option SubQueue :=
  match seenSq s q, getSq s q with
  | some x, some y =>
    if x.held == y.held then some x
    else match x.held with
      | e :: _ => if s.q.records.any (cutRecord q e) then some x else some y
      | [] => some x
  | _, y => y

/-- The queue may start a request now (R285). -/
def eligible (s : State) (h : Half) (x : SubQueue) : Bool :=
  match sqCfg s x.qid with
  | none => false
  | some c =>
    x.qid ≥ 16 && x.st == .enabled && sqHome s x.qid == h && x.running < c.limit && startsRequest c x &&
      ((getCtx s c.ctx).map fun y => y.st != .resetting).getD false

/-- The queue that R285 chooses: of the highest priority, the lowest ID above the ID last chosen there, wrapping around. -/
def pickQueue (s : State) (h : Half) : Option Nat :=
  let qs := (s.q.sqs.filterMap fun x => dispatchSq s x.qid).filter (eligible s h)
  let top := (qs.map (prioNow s)).foldl max 0
  let last := ((s.q.lastPick.find? fun x => x.1 == h && x.2.1 == top).map (·.2.2)).getD 8191
  minBy (fun q => (q + 8192 - (last + 1)) % 8192) ((qs.filter fun x => prioNow s x == top).map (·.qid))

def notePick (s : State) (h : Half) (q : Nat) : State :=
  let p := ((getSq s q).map (prioNow s)).getD 0
  { s with q.lastPick := (h, p, q) :: s.q.lastPick.filter fun x => !(x.1 == h && x.2.1 == p) }

/-- Hauler `h` may take a new request. -/
def haulerReady (s : State) (h : HaulerId) : Bool :=
  mayStart s h.half && haulerFree s h && (resumable s h.half).isEmpty

/-- The request that hauler `h` is still fetching. -/
def fetching (s : State) (h : HaulerId) : Option Request :=
  match reqOn s h with
  | some r => if r.fin.isNone && r.program.isEmpty then some r else none
  | none => none

/-- The front held entry of a queue, as a dispatch sees it, leaves it; the record of a command of this mc that cut it short goes too. -/
def popHeld (s : State) (q : Nat) : State :=
  let s1 := match dispatchSq s q, getSq s q with
    | some x, some y => (match x.held with
      | e :: _ => if x.held == y.held then s else { s with q.records := dropFirst (cutRecord q e) s.q.records }
      | [] => s)
    | _, _ => s
  updSeenSq s1 q fun x => { x with held := x.held.drop 1 }

/-- The front held entry of queue `q` starts a request on hauler `h`. -/
def dispatchFront (s : State) (h : HaulerId) (q : Nat) (e : List Byte) (prep : SubQueue → SubQueue) : Flow :=
  match sqCfg s q with
  | none => .go s
  | some c => startRequest (updSeenSq (popHeld (notePick s h.half q) q) q prep) q c h e

/-- An entry completes without a request. -/
def completeEntry (s : State) (q : Nat) (e : List Byte) (status detail : Nat) : State :=
  readyRecord s (entryRecord s q (entryTag e) (entryIrq e) status detail)

/-- A command on hauler `h` goes on with the fetch that the hauler has begun, or else does `k`. -/
def orFetching (t : Mc) (h : HaulerId) (s : State) (k : State → Flow) : Result :=
  let s1 := atTime s t
  match (if halfRuns s1 h.half then fetching s1 h else none) with
  | some r => (prepare s1 r.id).result s
  | none => (k s1).result s

/-- HAUL: the entry that R285 chooses is dispatched on hauler `h`, when it is a HAUL entry or one that its queue does not accept. -/
def execHaul (t : Mc) (h : HaulerId) (s : State) : Result :=
  orFetching t h s fun s =>
    match (if haulerReady s h then pickQueue s h.half else none) with
    | none => .go s
    | some q =>
      match (dispatchSq s q).bind fun x => x.held.head?, sqCfg s q with
      | some e, some c => if c.persistent && typeAccepted c e then .go s else dispatchFront s h q e id
      | _, _ => .go s

/-! ## Persistent channels (R293 to R298) -/

/-- The front held entry of persistent queue `q` that may be taken, when it is of TYPE `ty`. -/
def channelFront (s : State) (q ty : Nat) : Option (SubQueue × List Byte) :=
  match dispatchSq s q, sqCfg s q with
  | some x, some c =>
    match x.held with
    | e :: _ =>
      if running s && c.persistent && x.st == .enabled && entryType e == ty && !s.halfReset.get (sqHome s q) then some (x, e)
      else none
    | [] => none
  | _, _ => none

/-- The first run starts from the entry (R293). -/
def armChannel (s : State) (h : HaulerId) (q : Nat) (e : List Byte) : Flow :=
  if haulerReady s h && pickQueue s h.half == some q then
    dispatchFront s h q e fun x => { x with active := true, run := some e, left := [], stopped := false }
  else .go s

/-- A REARM's entry goes to the shadow. Where a command of this mc has made the queue DISABLED, the REARM comes before it (R304): the entry
stands in the shadow as this mc sees the queue, and the command completes it with CONTEXT_RESET (R300). -/
def putShadow (s : State) (q : Nat) (e : List Byte) : State :=
  let s1 := popHeld s q
  if ((getSq s1 q).map fun y => y.st == .enabled).getD false then updSeenSq s1 q fun x => { x with shadow := some e }
  else completeEntry (updOldSq s1 q fun x => { x with shadow := some e }) q e stContextReset 0

/-- ARM: on an IDLE channel it starts the first run; on an ACTIVE one it is refused (R293). -/
def execArm (t : Mc) (h : HaulerId) (q : Fin 8192) (s : State) : Result :=
  orFetching t h s fun s =>
    match channelFront s q.val 2 with
    | none => .go s
    | some (x, e) =>
      if x.active then .go (completeEntry (popHeld s q.val) q.val e stBadProgram 0) else armChannel s h q.val e

/-- REARM: into an empty shadow, or REARM_OVERRUN (R294); on an IDLE channel as ARM (R293). -/
def execRearm (t : Mc) (h : HaulerId) (q : Fin 8192) (s : State) : Result :=
  orFetching t h s fun s =>
    match channelFront s q.val 3 with
    | none => .go s
    | some (x, e) =>
      if !x.active then armChannel s h q.val e
      else if x.shadow.isSome then .go (completeEntry (popHeld s q.val) q.val e stRearmOverrun 0)
      else .go (putShadow s q.val e)

/-- STOP (R298). -/
def stopChannel (s : State) (x : SubQueue) (e : List Byte) : State :=
  let s1 := popHeld s x.qid
  if stopBad e then completeEntry s1 x.qid e stBadProgram 0x2002
  else if !x.active then completeEntry s1 x.qid e stOk 0
  else updSeenSq s1 x.qid fun y => { y with stopped := true, stops := y.stops ++ [(entryTag e, entryIrq e)] }

def execStop (t : Mc) (q : Fin 8192) (s : State) : Result :=
  let s1 := atTime s t
  match channelFront s1 q.val 4 with
  | some (x, e) => answer s (stopChannel s1 x e)
  | none => answer s s1

/-- The channel becomes IDLE, and every accepted STOP completes (R295, R298). -/
def channelIdle (s : State) (q : Nat) : State :=
  match getSq s q with
  | none => s
  | some x =>
    let s1 := updSq s q fun x => { x with active := false, ended := none, stopped := false, stops := [], left := [] }
    x.stops.foldl (fun s st => readyRecord s (entryRecord s q st.1 st.2 stOk 0)) s1

/-- A REARM that the queue holds behind nothing but STOPs when a run has ended is in the shadow before the next run starts, and those STOPs
are accepted before it; `fuel` entries at most (R294, R296, R298). -/
def absorbRearm (q : Nat) : Nat → State → State
  | 0, s => s
  | f + 1, s =>
    match dispatchSq s q with
    | none => s
    | some x =>
      let rearm := ((x.held.dropWhile fun e => entryType e == 4).head?.map fun e => entryType e == 3).getD false
      if !x.active || x.shadow.isSome || !rearm then s
      else match channelFront s q 4, channelFront s q 3 with
        | some (y, e), _ => absorbRearm q f (stopChannel s y e)
        | none, some (_, e) => putShadow s q e
        | none, none => s

/-- The channel as the dispatch of its next run sees it: as it stood before a command of this mc that changes the queue's state, unless the
record that the command made for its shadow entry is written already (R304). -/
def runSq (s : State) (q : Nat) : Option SubQueue :=
  match seenSq s q, getSq s q with
  | some x, some y =>
    (match x.shadow with
     | some e => if x.shadow == y.shadow || s.q.records.any (cutRecord q e) then some x else some y
     | none => some x)
  | _, y => y

/-- The shadow, taken: the record of a command of this mc that cut it short goes too. -/
def popShadow (s : State) (q : Nat) (e : List Byte) : State :=
  let cut := ((getSq s q).map fun y => y.shadow != some e).getD false
  updSeenSq (if cut then { s with q.records := dropFirst (cutRecord q e) s.q.records } else s) q fun y =>
    { y with shadow := none, run := some e }

/-- The run that follows on an ended run: the shadow's, none, or the same entry's (R295). A queue in ERROR does not end its channel: R295
names a STOP, SQ_DISABLE, QUEUE_RESET and the run's status alone, and R282 the entries alone that have been read (assumption 36, DEDUCED).
In RESETTING no run starts (R272). -/
def nextRun (s : State) (h : HaulerId) (x : SubQueue) (c : SqCfg) (status : Nat) : Flow :=
  let may := mayStart s h.half && haulerFree s h && sqHome s x.qid == h.half && ((getCtx s c.ctx).map fun y => y.st != .resetting).getD false
  let start := fun (s1 : State) (e : List Byte) => if may then startRequest s1 x.qid c h e else .go s
  match x.shadow with
  | some e => start (popShadow s x.qid e) e
  | none =>
    if x.stopped || x.st == .disabled || !(status == stOk || status == stOkSpoiled) then .go (channelIdle s x.qid)
    else match x.run with
      | some e => start (updSeenSq s x.qid fun y => { y with run := some e }) e
      | none => .go (channelIdle s x.qid)

/-- PERSISTENT_NEXT_RUN: in an mc after that of the run's end, so that a REARM read in that mc has come first (R296). -/
def execPersistentNextRun (t : Mc) (h : HaulerId) (q : Fin 8192) (s : State) : Result :=
  orFetching t h s fun s0 =>
    let s := absorbRearm q.val 9 s0
    match getSq s q.val, runSq s q.val, sqCfg s q.val with
    | some y, some x, some c =>
      (match y.ended with
       | some st =>
         if running s && y.active && y.endedAt < s.time && y.running < c.limit then nextRun s h x c st else .go s0
       | none => .go s0)
    | _, _, _ => .go s0

end Sys2Proof.Machine
end

