-- ==== Sys2Proof/Machine/RegAccess.lean ====
section
/-! DEFINITION. Which register writes reach a register (R531, R532, R537, R538), and the selectors of a page (R535). -/

namespace Sys2Proof.Machine

/-- Kinds of register that the rules of an access tell apart. -/
inductive RegKind where
  /-- A selector, writable on the global page too (R535, R537). -/
  | selector
  /-- Partition 0's test block. -/
  | test
  /-- FV_CFG_MAINTBASE. -/
  | maintBase
  /-- FV_INT_STATUS. -/
  | intStatus
  | plain
  deriving DecidableEq, Repr

/-- The partition whose page is written; partition 0's for the global page. -/
def pagePart : Page → Nat
  | .part p => p.val
  | .global => 0

/-- Registers are served: not in Cold and not in Banked, where the host complex holds requests (R465). -/
def regsServed (s : State) : Bool := !s.power.cold && !s.power.banked

/-- A write reaches a register of kind `k`: on the page's host port, as an 8 B access, and permitted in the mover's state. -/
def regOpen (s : State) (w : RegWrite) (k : RegKind) : Bool :=
  let p := pagePart w.page
  regsServed s && w.size == 8 && w.port == homePort s p &&
    (s.power.up || k == .intStatus) &&
    (match w.page with
     | .global => k == .selector
     | .part _ => true) &&
    (!s.status.maint || (p == 0 && (k == .test || k == .maintBase)) || k == .intStatus)

/-- The selectors of a page. -/
def getSel (s : State) (pg : Page) : Selectors := (s.sels.find? (·.page == pg)).getD (Selectors.reset pg)

def updSel (s : State) (pg : Page) (f : Selectors → Selectors) : State :=
  { s with sels := updWhere (·.page == pg) f s.sels }

/-- Bits hi:lo of a written value. -/
def regBits (w : RegWrite) (hi lo : Nat) : Nat := bits w.value.toNat hi lo

def regBit (w : RegWrite) (i : Nat) : Bool := bit w.value.toNat i

end Sys2Proof.Machine
end

