-- ==== Sys2Proof/Machine/Counting.lean ====
section
/-! DEFINITION. Counters: updates at the home, the copies' changes, owner reset and return, counter waits of processor contexts, host
additions (R357 to R374, R514, R544). -/

namespace Sys2Proof.Machine

/-! ## Reset and return of an owner's counters (R362, R372, R373) -/

/-- The counters that a context owns. -/
def ownedCtrs (s : State) (ctx : Nat) : List CtrCfg := s.cfg.ctrs.filter (·.owner == ctx)

/-- Owner reset accepted: the counter is ABANDONED, and its waiters are released (R372). -/
def abandonCtr (s : State) (c : CtrCfg) : State := sendCopy (updCtr s c.ctr fun x => { x with abandoned := true }) c.ctr

def abandonOwned (s : State) (ctx : Nat) : State := counterChanged ((ownedCtrs s ctx).foldl abandonCtr s)

/-- Owner reset complete: initial value, a new generation, ACTIVE (R362, R373). -/
def restoreCtr (s : State) (c : CtrCfg) : State :=
  sendCopy (updCtr s c.ctr fun x =>
    { x with value := c.initial, gen := (x.gen + 1) % 2 ^ 32, abandoned := false, sat := false }) c.ctr

def restoreOwned (s : State) (ctx : Nat) : State := counterChanged ((ownedCtrs s ctx).foldl restoreCtr s)

/-! ## COUNTER_UPDATE -/

/-- A SIGNAL of some request waits for the answers of lines and for nothing else, and is then sent to the counter. -/
def signalWaits (s : State) (ctr : Nat) : Bool :=
  s.run.reqs.any fun r => match r.effects.drop (r.effects.takeWhile isSent).length with
    | .signal vid _ _ _ [] _ :: _ => (match vEntry s r.ctx vid with
      | .loc c _ _ => c == ctr
      | _ => false)
    | _ => false

/-- COUNTER_UPDATE: the oldest update under way to a counter reaches its home (R363, R365); every update takes effect when it is due,
whatever is commanded. -/
def execCounterUpdate (t : Mc) (ctr : Fin 65536) (s : State) : Result :=
  let s1 := whenReady s t fun x => !signalWaits x ctr.val
  match minBy (·.due) (s1.ctr.updates.filter (·.ctr == ctr.val)) with
  | some u => answer s (if running s1 then atTime s1 u.due else s1)
  | none => answer s s1

/-! ## Waits of processor contexts (R370, R372, R514) -/

def setAns (s : State) (h : Half) (v : Nat) : State := { s with out.cwAns := s.out.cwAns.set h v }

/-- COUNTER_WAIT: answered MET (1), PARKED (2) or FAULTY (3); a new wait replaces a parked one. -/
def execCounterWait (t : Mc) (half : Half) (ctx : Fin 256) (vid : BitVec 12) (target : Word) (s : State) : Result :=
  let s1 := atTime s t
  if !running s1 || s1.halfReset.get half then answer s s1
  else
    let v := vid.toNat
    let s2 := updCtx s1 ctx.val fun x => { x with cw := none }
    match vEntry s1 ctx.val v with
    | .loc c _ true =>
      let w : CwWait :=
        { half := half, vid := v, ctr := c, target := target.toNat, gen := genOf s1 c }
      (match evalWait s1 c half w.target w.gen with
       | .met => answer s (setAns s2 half 1)
       | _ => answer s (wakeContexts (updCtx (setAns s2 half 2) ctx.val fun x => { x with cw := some w, waitNo := x.waitNo + 1 })))
    | _ => answer s (ctxEvent (setAns s2 half 3) ctx.val 0x0008 (2 ^ 59 + v) target.toNat)

/-! ## Host additions (R367) -/

/-- HOST_ADD: a write of N to FV_CTR_ADD adds to the selected counter, or is counted as discarded; a selection of another partition's
context is ignored (table "Counter registers"). -/
def execHostAdd (t : Mc) (w : RegWrite) (s : State) : Result :=
  let s1 := hostAt s t w.port
  if !regOpen s1 w .plain then answer s s1
  else
    let p := pagePart w.page
    let sel := (getSel s1 w.page).ctr
    let ctx := bits sel 19 12
    let n := regBits w 31 0
    let lost := updPartRegs s1 p fun x => { x with addDiscards := capAt 0xFFFFFFFF (x.addDiscards + 1) }
    if (ctxCfg s1 ctx).isSome && partOfCtx s1 ctx != p then answer s s1
    else match vEntry s1 ctx (bits sel 11 0) with
      | .loc c _ _ =>
        (match getCtr s1 c, ctrCfg s1 c with
         | some x, some d =>
           if d.host && !x.abandoned && n != 0 then answer s (sendUpdate s1 c n x.gen w.port (s1.time + releaseDelay c w.port))
           else answer s lost
         | _, _ => answer s lost)
      | _ => answer s lost

end Sys2Proof.Machine
end

