-- ==== Sys2Proof/Machine/Admin.lean ====
section
/-! DEFINITION. Administrative commands: how an admin queue's front entry is taken, and the queue and context commands (R274, R275,
R299 to R303). -/

namespace Sys2Proof.Machine

/-! ## Taking a command (R299, R302, R303) -/

def adminCmd (e : List Byte) : Nat := fieldAt e 8 2

/-- Command-specific details (table "Fault detail"). -/
def dtReserved : Nat := 0x4000
def dtNotOwned : Nat := 0x4006

/-- Commands of a partition that have started and have no record yet, LEDGER_SEALs whose seal is not written among them (R302). -/
def adminBusy (s : State) (p : Nat) : Nat :=
  (s.q.ops.filter (·.part == p)).length + (s.q.records.filter (·.admin == some p)).length + (getLedger s p).seals.length

/-- The front entry of partition `p`'s admin queue, when it names command `cmd` and may start. -/
def adminFront (s : State) (p cmd : Nat) : Option (List Byte) :=
  match getSq s p with
  | none => none
  | some x =>
    match x.held with
    | e :: _ =>
      if running s && x.st == .enabled && adminCmd e == cmd && !s.halfReset.get (sqHome s p) && adminBusy s p < 16 then some e
      else none
    | [] => none

/-- The record of an admin command; `bytes` is its BYTES field. -/
def adminRecord (s : State) (p : Nat) (tag : Nat) (irq : Bool) (status detail bytes : Nat) : State :=
  readyRecord s { entryRecord s p tag irq status detail with bytes := bytes }

def finishAdmin (s : State) (p : Nat) (e : List Byte) (status detail : Nat) : State :=
  adminRecord s p (entryTag e) (entryIrq e) status detail 0

/-- An operation of partition `p` still in progress names the context (R302). -/
def ctxBusy (s : State) (p ctx : Nat) : Bool := s.q.ops.any fun o => o.part == p && o.ctx == ctx

/-- Commands that maintenance configuration accepts (R303). -/
def maintCmd (cmd : Nat) : Bool := 0x50 ≤ cmd && cmd ≤ 0x52

/-- Steps 4 and 5 of R299: detail and status of a command that its configuration or issuer forbids. -/
def adminBarred (s : State) (p cmd : Nat) : Option (Nat × Nat) :=
  if s.status.maint && !maintCmd cmd then some (stBadProgram, 0x4005)
  else if 0x50 ≤ cmd && p != 0 then some (stRights, dtNotOwned)
  else none

/-- An administrative command of partition `p`: its checks, of which the first in the order of R78 is reported, and its effect. A
command that names a context of an operation in progress waits (R302). `names` gives that context, and `fin` makes the answer. -/
def withAdminBy (fin : State → State → Result) (t : Mc) (p : Fin 16) (cmd : Nat) (s : State) (names : List Byte → Option Nat)
    (checks : State → List Byte → List (Nat × Nat)) (act : State → List Byte → State) : Result :=
  let s1 := atTime s t
  match adminFront s1 p.val cmd with
  | none => answer s s1
  | some e =>
    if (names e).any fun c => ctxBusy s1 p.val c then answer s s1
    else
      let s2 := popHeld s1 p.val
      match adminBarred s1 p.val cmd with
      | some (st, d) => answer s (finishAdmin s2 p.val e st d)
      | none =>
        match worstFailure (checks s2 e) with
        | some (st, d) => answer s (finishAdmin s2 p.val e st d)
        | none => fin s (act s2 e)

/-- An administrative command that reaches neither the fuses nor the flash. -/
def withAdmin (t : Mc) (p : Fin 16) (cmd : Nat) (s : State) (names : List Byte → Option Nat)
    (checks : State → List Byte → List (Nat × Nat)) (act : State → List Byte → State) : Result :=
  withAdminBy answer t p cmd s names checks act

/-- A failing check, when its condition holds. -/
def failIf (c : Bool) (status detail : Nat) : List (Nat × Nat) := if c then [(status, detail)] else []

/-- A non-zero byte among operand bytes `lo` to `hi`. -/
def opBytes (e : List Byte) (lo hi : Nat) : Bool := anyNonZero ((e.drop lo).take (hi + 1 - lo))

/-- The context is declared and belongs to the partition. -/
def ownsCtx (s : State) (p ctx : Nat) : Bool := (ctxCfg s ctx).isSome && partOfCtx s ctx == p

/-! ## Queue commands (R300) -/

def opQueue (e : List Byte) : Nat := fieldAt e 16 2

def opBase (e : List Byte) : Nat := fieldAt e 24 8

/-- BASE fails R276. -/
def baseBad (base bytes : Nat) : Bool := base % 4096 != 0 || base + bytes > 0x0800_0000_0000

def noCtx (_ : List Byte) : Option Nat := none

/-- SQ_ENABLE. -/
def execSqEnable (t : Mc) (p : Fin 16) (s : State) : Result :=
  withAdmin t p 0x0001 s noCtx
    (fun s e =>
      failIf (opBytes e 18 23 || opBytes e 32 63) stBadProgram dtReserved ++
      failIf (sqOwner s (opQueue e) != some p.val) stRights dtNotOwned ++
      failIf (((getSq s (opQueue e)).map fun x => x.st != .disabled).getD false) stBadProgram 0x4001 ++
      failIf (baseBad (opBase e) (sqDepth s (opQueue e) * 64)) stSegmentBound 0x4002)
    (fun s e =>
      finishAdmin (updSq (keepSq s (opQueue e)) (opQueue e) fun x => { x with st := .enabled, base := opBase e, tail := 0, head := 0, held := [] })
        p.val e stOk 0)

/-- CQ_ENABLE. -/
def execCqEnable (t : Mc) (p : Fin 16) (s : State) : Result :=
  withAdmin t p 0x0003 s noCtx
    (fun s e =>
      failIf (opBytes e 18 23 || opBytes e 32 63) stBadProgram dtReserved ++
      failIf (cqOwner s (opQueue e) != some p.val) stRights dtNotOwned ++
      failIf (((getCq s (opQueue e)).map fun x => x.st != .disabled).getD false) stBadProgram 0x4001 ++
      failIf (baseBad (opBase e) (cqDepth s (opQueue e) * 32)) stSegmentBound 0x4002)
    (fun s e =>
      finishAdmin (updCq (keepCq s (opQueue e)) (opQueue e) fun x => { x with st := .enabled, base := opBase e, count := 0, head := 0, unsignalled := 0 })
        p.val e stOk 0)

/-- A submission queue is made DISABLED (R300): read entries and the shadow complete with CONTEXT_RESET, and a persistent channel
starts no further run. -/
def disableSq (s : State) (q : Nat) : State :=
  match getSq s q with
  | none => s
  | some x =>
    let s1 := updSq (keepSq s q) q fun x => { x with st := .disabled, held := [], shadow := none, stopped := x.stopped || x.active }
    (x.held ++ x.shadow.toList).foldl (fun s e => completeEntry s q e stContextReset 0) s1

/-- A completion queue is made DISABLED: no message follows on records written before. -/
def disableCq (s : State) (q : Nat) : State := updCq (keepCq s q) q fun x => { x with st := .disabled }

/-- The checks that the DISABLE commands share; a queue in ERROR keeps that state. -/
def sqDisableChecks (s : State) (p q : Nat) : List (Nat × Nat) :=
  failIf (sqOwner s q != some p) stRights dtNotOwned ++ failIf (q < 16) stRights 0x4003 ++
  failIf (((getSq s q).map fun x => x.st == .error).getD false) stBadProgram 0x4001

def cqDisableChecks (s : State) (p q : Nat) : List (Nat × Nat) :=
  failIf (cqOwner s q != some p) stRights dtNotOwned ++ failIf (q < 16) stRights 0x4003 ++
  failIf (((getCq s q).map fun x => x.st == .error).getD false) stBadProgram 0x4001

/-- SQ_DISABLE; on a queue that is already DISABLED it changes nothing. -/
def execSqDisable (t : Mc) (p : Fin 16) (s : State) : Result :=
  withAdmin t p 0x0002 s noCtx
    (fun s e => failIf (opBytes e 18 63) stBadProgram dtReserved ++ sqDisableChecks s p.val (opQueue e))
    (fun s e =>
      let off := ((getSq s (opQueue e)).map fun x => x.st == .disabled).getD true
      finishAdmin (if off then s else disableSq s (opQueue e)) p.val e stOk 0)

/-- CQ_DISABLE. -/
def execCqDisable (t : Mc) (p : Fin 16) (s : State) : Result :=
  withAdmin t p 0x0004 s noCtx
    (fun s e => failIf (opBytes e 18 63) stBadProgram dtReserved ++ cqDisableChecks s p.val (opQueue e))
    (fun s e => finishAdmin (disableCq s (opQueue e)) p.val e stOk 0)

/-- QUEUE_RESET: as DISABLE, from any state. -/
def execQueueReset (t : Mc) (p : Fin 16) (s : State) : Result :=
  withAdmin t p 0x0005 s noCtx
    (fun s e =>
      let q := opQueue e
      let cq := bit (fieldAt e 18 1) 0
      failIf (fieldAt e 18 1 / 2 != 0 || opBytes e 19 63) stBadProgram dtReserved ++
      failIf ((if cq then cqOwner s q else sqOwner s q) != some p.val) stRights dtNotOwned ++ failIf (q < 16) stRights 0x4003)
    (fun s e =>
      let q := opQueue e
      finishAdmin (if bit (fieldAt e 18 1) 0 then disableCq s q else disableSq s q) p.val e stOk 0)

/-! ## CONTEXT_RESET (R301, R372, R380) -/

/-- Submission queues of a context. -/
def queuesOf (s : State) (ctx : Nat) : List Nat := (s.cfg.sqs.filter (·.ctx == ctx)).map (·.qid)

/-- A request that a context reset ends: STALLED when a stall report names it. -/
def resetRequest (s : State) (r : Request) : State :=
  endRequest s r.id (if s.run.stalled.contains r.id then stStalled else stContextReset) (wordDetail r) []

/-- A context enters RESETTING: its queues are DISABLED, its requests and entries end, its counters are ABANDONED. A queue in ERROR becomes
DISABLED too: R301 names every submission queue of the context, although R274 lets QUEUE_RESET alone lead from ERROR to DISABLED
(assumption 22, DEDUCED). -/
def beginReset (s : State) (ctx op profile : Nat) : State :=
  let s1 := updCtx s ctx fun x =>
    { x with st := .resetting, resetOp := some op, resetProfile := profile, quenchAfter := false }
  let s2 := (queuesOf s1 ctx).foldl disableSq s1
  let s3 := (s2.run.reqs.filter (·.ctx == ctx)).foldl resetRequest s2
  abandonOwned s3 ctx

/-- A command in progress joins the list of operations. -/
def addOp (s : State) (o : AdminOp) : State := { s with q.ops := s.q.ops ++ [o], q.nextOp := s.q.nextOp + 1 }

def newOp (s : State) (p : Nat) (e : List Byte) (ctx slot first count mode : Nat) (left : List Nat) : AdminOp :=
  { id := s.q.nextOp, part := p, tag := entryTag e, irq := entryIrq e, cmd := adminCmd e, ctx := ctx, slot := slot
    first := first, count := count, mode := mode, left := left, status := stOk, detail := 0 }

/-- An operation ends with its record. -/
def finishOp (s : State) (o : AdminOp) (status detail : Nat) : State :=
  adminRecord (removeOp s o.id) o.part o.tag o.irq status detail 0

/-- CONTEXT_RESET. One of a context whose half is in half reset is absorbed into that reset: the context stays QUENCHED, and the record says
so, like that of a context reset which a half reset replaces (R441, R493; assumption 22, DEDUCED). -/
def execContextReset (t : Mc) (p : Fin 16) (s : State) : Result :=
  withAdmin t p 0x0010 s (fun e => some (fieldAt e 16 1))
    (fun s e =>
      let ctx := fieldAt e 16 1
      let code := fieldAt e 17 1
      failIf (opBytes e 18 63) stBadProgram dtReserved ++ failIf (!ownsCtx s p.val ctx) stRights dtNotOwned ++
      failIf (code != 0 && !((ctxCfg s ctx).map fun c => bit c.profiles code).getD true) stProfileMismatch 0x4004)
    (fun s e =>
      let o := newOp s p.val e (fieldAt e 16 1) 0 0 0 0 []
      if s.halfReset.get (homeOfCtx s o.ctx) then finishAdmin s p.val e stQuenched 0
      else beginReset (addOp s o) o.ctx o.id (fieldAt e 17 1))

/-! ## CONTEXT_RESET_COMPLETE (R301, R443) -/

/-- Every record of the context's requests and entries is written. -/
def resetDone (s : State) (ctx : Nat) : Bool :=
  !(s.run.reqs.any (·.ctx == ctx)) && !(s.q.records.any fun r => (queuesOf s ctx).contains r.qid)

/-- A ring as the image gives it, empty. -/
def RingSt.empty (c : RingCfg) : RingSt :=
  { ctx := c.ctx, ring := c.ring, claimed := 0, published := 0, acquired := 0, released := 0, early := [], releasing := [], openStr := none
    closed := [], lost := [], lengths := [], relTimes := [], pubTimes := [], discards := 0 }

def isUnitData : PortData → Bool
  | .unit _ => true
  | _ => false

/-- Stores of the context that have failed are forgotten, with the SIGs that wait for them (assumption 79). -/
def clearStores (s : State) (ctx : Nat) : State :=
  let dead := (s.buf.stores.filter fun x => x.ctx == ctx && x.failed).map (·.id)
  { s with buf.stores := s.buf.stores.filter fun x => !dead.contains x.id
           buf.sigs := s.buf.sigs.filter fun x => !(x.needs.any fun n => dead.contains n) }

/-- The context's rings, handle queues, feeds and pending pacing requests are cleared, and its DRAINs under way. -/
def clearBuffers (s : State) (ctx : Nat) : State :=
  let feeds := fun (f : FeedSt) => s.cfg.feeds.any fun c => c.half == f.half && c.feed == f.feed && c.ctx == ctx
  let lines := fun (x : PacingSt) => ((pacingCfg s x.line).map fun c => c.ctx == ctx).getD false
  { s with buf.rings := s.buf.rings.map fun x => if x.ctx == ctx then (ringCfg s ctx x.ring).elim x RingSt.empty else x
           buf.handles := updWhere (fun (x : HandleSt) => x.ctx == ctx) (fun x => { x with entries := [], nextId := 0 }) s.buf.handles
           buf.feeds := updWhere feeds (fun x => { x with entries := [] }) s.buf.feeds
           buf.pacing := updWhere lines (fun x => { x with pending := 0, coming := [] }) s.buf.pacing
           buf.drains := s.buf.drains.filter (·.ctx != ctx)
           buf.anvils := s.buf.anvils.map fun a =>
             { a with tables := a.tables.filter (·.ctx != ctx), arriving := a.arriving.filter (·.ctx != ctx)
                      coming := a.coming.filter (fun m => m.ctx != ctx || isUnitData m.data)
                      blocks := a.blocks.filter fun b => b.ctx != ctx || b.arrival.isSome }
           out.ready := s.out.ready.filter (· != ctx) }

/-- Members of a context leave the stall reports, and REPORTS keeps its count (table "Retention"). -/
def unstall (p : StallMember → Bool) (s : State) : State :=
  let strip := fun (r : StallReport) => { r with members := r.members.filter fun m => !p m }
  { s with ctr.stalls := s.ctr.stalls.filter fun m => !p m
           ctr.stallRegs := s.ctr.stallRegs.map fun r => { r with shown := strip r.shown, held := r.held.map strip } }

/-- What a context reset clears beside the buffers and the counters. -/
def clearContext (s : State) (ctx : Nat) : State :=
  let s1 := clearStores (clearBuffers s ctx) ctx
  let hot := fun (l : List HotEntry) => l.filter (·.ctx != ctx)
  let s2 := { s1 with seg.hot := ⟨hot s1.seg.hot.east, hot s1.seg.hot.west⟩
                      channels := updWhere (fun (c : ChannelSt) => c.ctx == ctx)
                        (fun c => { c with history := [], sat := 0, raised := false, nonFinite := 0 }) s1.channels
                      rem.epochs := s1.rem.epochs.filter (·.ctx != ctx) }
  unstall (fun m => m.ctx == ctx) s2

/-- CONTEXT_RESET_COMPLETE. -/
def execContextResetComplete (t : Mc) (ctx : Fin 256) (s : State) : Result :=
  let s1 := atTime s t
  match getCtx s1 ctx.val with
  | none => answer s s1
  | some x =>
    if !running s1 || x.st != .resetting || !resetDone s1 ctx.val then answer s s1
    else
      let s2 := (queuesOf s1 ctx.val).foldl channelIdle s1
      let s3 := clearContext s2 ctx.val
      let s4 := updCtx s3 ctx.val fun y =>
        { y with st := if y.quenchAfter then .quenched else .loaded
                 profile := if y.resetProfile == 0 then y.profile else y.resetProfile
                 ran := false, late := [], faulted := false, lateCount := 0, lateKind := 0, lateId := 0, resetOp := none
                 quenchAfter := false }
      let s5 := restoreOwned s4 ctx.val
      match x.resetOp.bind (getOp s5) with
      | some o => answer s (finishOp s5 o (if x.quenchAfter then stQuenched else stOk) 0)
      | none => answer s s5

end Sys2Proof.Machine
end

