-- ==== Sys2Proof/Machine/Anvil.lean ====
section
/-! DEFINITION. The Anvil ports: landing units, code tables, expanders with their smoothing queues, and operand reads (R205 to R208,
R219 to R223, R247, R248, R352, R491, R517, R518). -/

namespace Sys2Proof.Machine

/-! ## Landing units (R247, R518) -/

/-- A byte of the landing buffer with its spoil mark; a unit that nothing has landed in holds zeros (assumption 24). -/
def landByte (a : AnvilPort) (j : Nat) : SByte :=
  match a.landing.find? (·.unit == j / 1024) with
  | some l => (l.data.getD (j % 1024) 0, l.spoil.getD (j % 1024 / 256) false)
  | none => (0, false)

def landBytes (a : AnvilPort) (off n : Nat) : List SByte := (List.range n).map fun i => landByte a (off + i)

/-- The first unit of a range that is pending. -/
def pendingIn (a : AnvilPort) (now : Mc) (off n : Nat) : Option Nat :=
  ((List.range ((off + n - 1) / 1024 + 1 - off / 1024)).map (off / 1024 + ·)).find? fun u =>
    a.coming.any fun m => decide (now < m.due) && (match m.data with
      | .unit l => l.unit == u
      | _ => false)

/-! ## Smoothing queue (R206 to R208) -/

/-- The next line of an EXPANDED read: the line, and whether it is in the queue. A line that waited for room (64 lines) enters no
earlier than the read that made it. -/
def popLine (now : Mc) (a : AnvilPort) : AnvilPort × Option ExpLine × Bool :=
  match a.queue with
  | [] => ({ a with skip := a.skip + 1 }, none, false)
  | l :: rest =>
    let late := (rest.drop 63).map fun (x : ExpLine) => { x with due := max x.due now }
    ({ noteEnds [l] a with queue := rest.take 63 ++ late }, some l, decide (l.due ≤ now))

/-- Ring and number of the block whose line a read finds in no queue, `k` lines having been read before it since: a block that has its
place in the expander, or one that comes after those. The number of a block of which nothing has arrived is open (assumption 65, DESIGN
CHOICE). -/
def missingBlock (a : AnvilPort) (k : Nat) : Nat × Nat :=
  match a.blocks[k / 16]? with
  | some b => (b.ring, b.block)
  | none =>
    match a.blocks.getLast?, a.arriving.find? (·.ring == a.lastRing) with
    | some b, _ => (b.ring, b.block + 1 + (k / 16 - a.blocks.length))
    | none, some x => (x.ring, ((x.last.map (· + 1)).getD 0) + k / 16)
    | none, none => (a.lastRing, 0)

/-! ## Operand reads (R248) -/

/-- The fields of the table "Operand read". -/
structure OpRead where
  path   : Nat
  sfmt   : Nat
  base   : Nat
  blk    : Nat
  first  : Nat
  count  : Nat

def opRead (f : BitVec 57) : OpRead :=
  let v := f.toNat
  { path := bits v 56 54, sfmt := bits v 53 49, base := bits v 48 35 * 16, blk := bits v 34 25, first := bits v 24 11
    count := bits v 10 0 }

/-- What a read picks from the landing buffer: the ranges it reads; value (an FP32 code, or the code of a plain format), stored code
and mark of each element; scale and zero point of each block; and whether the record allows the read. -/
structure Picked where
  ranges : List (Nat × Nat)
  elems  : List (Nat × Nat × Bool)
  scales : List (BitVec 32 × BitVec 32)
  ok     : Bool

def Picked.join (a b : Picked) : Picked := ⟨a.ranges ++ b.ranges, a.elems ++ b.elems, a.scales ++ b.scales, a.ok && b.ok⟩

def Picked.none : Picked := ⟨[], [], [], true⟩

/-- The bytes that hold codes `lo` to `hi` − 1 of `w` bits packed from `base` on. -/
def codeRange (w base lo hi : Nat) : Nat × Nat := (base + lo * w / 8, ceilDiv (hi * w) 8 - lo * w / 8)

/-- Codes `lo` to `hi` − 1 of `w` bits packed from `base` on, with the marks of their bytes. -/
def pickCodes (a : AnvilPort) (w base lo hi : Nat) : List (Nat × Bool) :=
  (List.range (hi - lo)).map fun i =>
    let b0 := (lo + i) * w
    let bs := landBytes a (base + b0 / 8) (ceilDiv (b0 % 8 + w) 8)
    (leVal (bs.map Prod.fst) / 2 ^ (b0 % 8) % 2 ^ w, anyMark bs)

def pickPlain (a : AnvilPort) (o : OpRead) : Picked :=
  let w := fmtBits o.sfmt
  ⟨[codeRange w o.base o.first (o.first + o.count)],
    (pickCodes a w o.base o.first (o.first + o.count)).map (fun c => (c.1, c.1, c.2)), [], true⟩

/-- One block of an MX record of `nb` blocks. -/
def pickMx (a : AnvilPort) (profile : Nat) (o : OpRead) (b : Nat) : Picked :=
  let w := fmtBits o.sfmt
  let sc := landByte a (o.base + b)
  let area := o.base + ceil16 (o.blk + 1) + b * mxBlockBytes o.sfmt
  let lo := max o.first (32 * b) - 32 * b
  let hi := min (o.first + o.count) (32 * b + 32) - 32 * b
  ⟨[(o.base + b, 1), codeRange w area lo hi],
    (pickCodes a w area lo hi).map fun c => (mxElem profile o.sfmt sc.1.toNat c.1, c.1, c.2 || sc.2), [(sc.1.zeroExtend 32, 0)], true⟩

/-- Row blocks of a TQ record from block `b` at byte `pos` on. -/
def pickTq (a : AnvilPort) (profile : Nat) (o : OpRead) : Nat → Nat → Nat → Picked
  | 0, _, _ => Picked.none
  | f + 1, b, pos =>
    let len := (o.blk + 1) * 16
    let stop := o.first + o.count
    let last := (stop - 1) / len
    let hdr := landBytes a pos 16
    let hb := hdr.map Prod.fst
    let n := fieldAt hb 8 2
    let w := fmtBits o.sfmt
    let lo := max o.first (b * len) - b * len
    let hi := min stop (b * len + n) - b * len
    let good := 1 ≤ n && n ≤ len && (b == last || n == len) && (b < last || stop ≤ b * len + n)
    let hm := anyMark (hdr.take 8)
    let here : Picked :=
      if lo < hi then
        ⟨[(pos, 16), codeRange w (pos + 16) lo hi],
          (pickCodes a w (pos + 16) lo hi).map (fun c => (tqElem profile o.sfmt (fieldAt hb 0 4) (fieldAt hb 4 4) c.1, c.1, c.2 || hm)),
          [(BitVec.ofNat 32 (fieldAt hb 0 4), BitVec.ofNat 32 (fieldAt hb 4 4))], good⟩
      else ⟨[(pos, 16)], [], [], good⟩
    if !good || b ≥ last then here else here.join (pickTq a profile o f (b + 1) (pos + tqBlockSize o.sfmt n))

def isFp8 (f : Nat) : Bool := f == 4 || f == 5

/-- Format that a path delivers: the stored one, BF16 or FP8 E4M3. -/
def pathFmt (o : OpRead) : Nat := if o.path == 1 then 2 else if o.path == 2 then 4 else o.sfmt

/-- The path and format name a delivery that R184 and R248 define. -/
def pathDefined (o : OpRead) : Bool :=
  isFormat o.sfmt && 1 ≤ o.count && o.count ≤ 1024 &&
    (o.path == 0 || ((o.path == 1 || o.path == 2) && (isRecord o.sfmt || isFp8 o.sfmt)) || (o.path == 3 && (isRecord o.sfmt || isFp8 o.sfmt)))

/-- Bytes that the elements take in the format delivered. -/
def deliveredBytes (o : OpRead) : Nat := ceilDiv (o.count * fmtBits (pathFmt o)) 8

def pick (a : AnvilPort) (profile : Nat) (o : OpRead) : Picked :=
  if o.path == 0 || !isRecord o.sfmt then pickPlain a o
  else if isMx o.sfmt then
    let nb := (o.first + o.count - 1) / 32 + 1 - o.first / 32
    let all := (List.range nb).foldl (fun (p : Picked) i => p.join (pickMx a profile o (o.first / 32 + i))) Picked.none
    { all with ok := o.first + o.count ≤ (o.blk + 1) * 32 }
  else pickTq a profile o ((o.first + o.count - 1) / ((o.blk + 1) * 16) + 1) 0 o.base

/-- OPD_SPOIL: bit i marks bytes 16i to 16i + 15. -/
def spoilMask (bs : List SByte) : List Bool := ((chunksOf 16 bs).map anyMark ++ List.replicate 64 false).take 64

/-- The port delivers the bytes of an operand read. -/
def deliver (s : State) (h : Half) (ap : Nat) (bs : List SByte) (scales : List (BitVec 32 × BitVec 32)) : State :=
  let o : OperandOut := { half := h, ap := ap, data := bs.map Prod.fst, spoil := spoilMask bs, scales := scales }
  { s with out.opd := some o }

/-- An event at a port that follows from an operand read (R352): it names the context of the port's last operation. -/
def portEvent (s : State) (a : AnvilPort) (code object value : Nat) : State :=
  match a.issuer with
  | some c => ctxEvent s c code object value
  | none => raiseEvent s 0 code 0 true object value

/-- Every element of a read is delivered spoiled, with a landing event that names `unit`. -/
def deliverSpoiled (s : State) (a : AnvilPort) (unit n : Nat) : State :=
  portEvent (deliver s a.half a.ap ((spoiledBytes s (min n 1024)).map fun b => (b, true)) []) a 0x0006 (a.ap * 256 + unit) a.vcyc

/-- Lines of an EXPANDED read, taken one by one. -/
def popLines : Nat → State → Half → Nat → List SByte → State × List SByte
  | 0, s, _, _, acc => (s, acc)
  | n + 1, s, h, ap, acc =>
    let a := getAnvil s h ap
    let r := popLine s.time a
    let s1 := runLanes (updAnvil s h ap fun _ => r.1) h ap
    match r.2.1, r.2.2 with
    | some l, true => popLines n s1 h ap (acc ++ l.data.map fun b => (b, l.spoil))
    | some l, false =>
      popLines n (portEvent s1 a 0x0005 l.ring l.block) h ap (acc ++ (spoiledBytes s 256).map fun b => (b, true))
    | none, _ =>
      let b := missingBlock a a.skip
      popLines n (portEvent s1 a 0x0005 b.1 b.2) h ap (acc ++ (spoiledBytes s 256).map fun b => (b, true))

/-- A read on path EXPANDED (R207, R208). -/
def readExpanded (s : State) (a : AnvilPort) (o : OpRead) : State :=
  let unit := o.base / 1024
  match codable o.sfmt with
  | none => deliverSpoiled s a unit 1024
  | some k =>
    let n := o.count * k.bytes
    if o.count == 0 || n > 1024 then deliverSpoiled s a unit n
    else
      let r := popLines (ceilDiv n 256) s a.half a.ap []
      deliver r.1 a.half a.ap (r.2.take n) []

def portRetired (s : State) (h : Half) (ap : Nat) : Bool := s.integ.retired.contains ⟨h, .anvil, ap⟩

/-- The elements of a read in the format that its path delivers. -/
def delivered (profile : Nat) (o : OpRead) (p : Picked) : List SByte :=
  let f := pathFmt o
  packElems (fmtBits f) (p.elems.map fun e => (if o.path == 1 || o.path == 2 then convertElem profile o.sfmt f none e.1 else e.2.1, e.2.2))

/-- A read on path RAW, FLOAT or INT. -/
def readLanding (s : State) (a : AnvilPort) (o : OpRead) : State :=
  let unit := o.base / 1024
  if !pathDefined o then deliverSpoiled s a unit (if o.path ≤ 3 && isFormat o.sfmt && o.count ≤ 1024 then deliveredBytes o else 1024)
  else if deliveredBytes o > 1024 then deliverSpoiled s a unit (deliveredBytes o)
  else
    let ctx := match a.landing.find? (·.unit == unit) with
      | some l => some l.ctx
      | none => a.issuer
    let profile := (ctx.map (profileOf s)).getD 1
    let p := pick a profile o
    if !p.ok || p.ranges.any (fun r => r.1 + r.2 > 262144) then deliverSpoiled s a unit (deliveredBytes o)
    else match p.ranges.findSome? fun r => pendingIn a s.time r.1 r.2 with
      | some u => deliverSpoiled s a u (deliveredBytes o)
      | none => deliver s a.half a.ap (delivered profile o p) (if o.path == 3 then p.scales else [])

/-- OPERAND_READ; a retired port delivers everything spoiled (R491). -/
def execOperandRead (t : Mc) (half : Half) (ap : Fin 16) (fields : BitVec 57) (s : State) : Result :=
  let s1 := atTime s t
  let a := getAnvil s1 half ap.val
  let o := opRead fields
  if !running s1 || s1.halfReset.get half || s1.power.glow.get half then answer s s1
  else if portRetired s1 half ap.val then
    if o.path == 4 then
      let s2 := readExpanded s1 a o
      answer s (deliverSpoiled s2 a (o.base / 1024) (((s2.out.opd).map fun x => x.data.length).getD 1024))
    else answer s (deliverSpoiled s1 a (o.base / 1024) (deliveredBytes o))
  else if o.path == 4 then answer s (readExpanded s1 a o)
  else answer s (readLanding s1 a o)

end Sys2Proof.Machine
end

