-- ==== Sys2Proof/Machine/Loops.lean ====
section
/-! DEFINITION. Loop-back tests (R498 to R506). -/

namespace Sys2Proof.Machine

/-! ## The lines (R500, R501) -/

/-- Next state of the PRBS-31 generator; its new low bit is the bit produced. -/
def prbsStep (s : Nat) : Nat := (2 * s + (if bit s 30 != bit s 27 then 1 else 0)) % 2 ^ 31

/-- `n` bits from state `s`, as a state and bits with the first one in bit 0. -/
def prbsBits : Nat → Nat → Nat × Nat
  | 0, s => (s, 0)
  | n + 1, s =>
    let t := prbsStep s
    let r := prbsBits n t
    (r.1, 2 * r.2 + t % 2)

/-- `n` bytes from state `s`. -/
def prbsBytes : Nat → Nat → Nat × List Byte
  | 0, s => (s, [])
  | n + 1, s =>
    let r := prbsBits 8 s
    let q := prbsBytes n r.1
    (q.1, BitVec.ofNat 8 r.2 :: q.2)

/-- The state before line `j`. -/
def prbsAt (seed : Nat) : Nat → Nat
  | 0 => if seed == 0 then 0x7FFFFFFF else seed
  | j + 1 => (prbsBytes 256 (prbsAt seed j)).1

/-- Line `j` as the checker expects it. -/
def loopLine (seed j : Nat) : List Byte := (prbsBytes 256 (prbsAt seed j)).2

/-- Line `j` as it is sent: bit 0 of line 0 inverted under INJECT. -/
def sentLine (l : LoopTest) (j : Nat) : List Byte :=
  match loopLine l.seed j with
  | b :: bs => (if l.inject && j == 0 then b ^^^ 1#8 else b) :: bs
  | [] => []

/-- Bits in which two lines differ. -/
def bitDiff (a b : List Byte) : Nat := ((List.zipWith (fun x y => popCount 8 (x ^^^ y).toNat) a b).foldl (· + ·) 0)

/-! ## Results (R502) -/

def stIdle : Nat := 0
def stRunning : Nat := 1
def stPass : Nat := 2
def stFail : Nat := 3
def stRefused : Nat := 4
def stAborted : Nat := 5

/-- The test ends once every line has returned or been counted lost. -/
def endLoop (s : State) : State :=
  let t := s.test
  if t.loop.running && t.loop.seen.length ≥ t.loop.lines then
    let ok := t.errBits == 0 && t.spoiled == 0 && t.lost == 0 && t.status == 0
    { s with test := { t with loop := { t.loop with running := false }, state := if ok then stPass else stFail } }
  else s

def minLine (a : Option Nat) (j : Nat) : Option Nat :=
  match a with
  | some k => some (min k j)
  | none => some j

/-- mc at which line `j` has been sent; none when it has not. -/
def sentAt (l : LoopTest) (j : Nat) : Option Mc :=
  (l.sentAt.filter fun x => x.1 ≤ j).getLast?.map fun x => if l.depth == 7 then x.2 else x.2 + (j - x.1)

/-- The line has been sent by now, and neither has it returned nor has it been counted lost. -/
def lineOut (s : State) (j : Nat) : Bool :=
  let l := s.test.loop
  l.running && j < l.lines && !l.seen.contains j && (sentAt l j).any fun m => decide (m ≤ s.time)

/-- A line can return: lines come back, and are checked, in rising order (R500). -/
def canReturn (s : State) (j : Nat) : Bool := lineOut s j && s.test.loop.checked ≤ j

/-- A line returns, and is compared unless it is bad. -/
def lineReturned (s : State) (j : Nat) (data : List Byte) (bad : Bool) : State :=
  let t := s.test
  if !canReturn s j then s
  else
    let l := { t.loop with seen := j :: t.loop.seen, checked := j + 1 }
    let d := bitDiff (loopLine l.seed j) (data.take 256 ++ zeros (256 - data.length))
    let t1 := { t with loop := l, done := capAt 0xFFFFFFFF (t.done + 1) }
    let t2 := if bad then { t1 with spoiled := capAt 0xFFFF (t1.spoiled + 1) }
      else { t1 with errBits := capAt 0xFFFFFFFF (t1.errBits + d), first := if d > 0 then minLine t1.first j else t1.first }
    endLoop { s with test := t2 }

/-- 1 ms in mc. -/
def lostAfter : Mc := 2100000

/-- A line is counted lost once 1 ms has passed since it was sent. -/
def lineLost (s : State) (j : Nat) : State :=
  let t := s.test
  if !(lineOut s j && (sentAt t.loop j).any fun m => decide (m + lostAfter ≤ s.time)) then s
  else
    endLoop { s with test := { t with loop := { t.loop with seen := j :: t.loop.seen }, lost := capAt 0xFFFF (t.lost + 1)
                                      done := capAt 0xFFFFFFFF (t.done + 1) } }

/-- A running test ends FAIL with a status (R504), or ABORTED (R506). -/
def stopLoop (s : State) (state status : Nat) : State :=
  if s.test.loop.running then
    { s with test := { s.test with loop := { s.test.loop with running := false }, state := state, status := status } }
  else s

def abortLoop (s : State) : State := stopLoop s stAborted s.test.status

/-! ## L7 (R504) -/

/-- Lines of the group of 16 that starts at line `j`. -/
def groupLines (l : LoopTest) (j : Nat) : List Nat := (List.range (min 16 (l.lines - j))).map (j + ·)

/-- Offset in the export, or in the 64 KiB target, of the group that starts at line `j`. -/
def groupOffset (j : Nat) : Nat := j % 256 * 256

/-- ADDR of a transaction of the group. -/
def groupAddr (s : State) (j : Nat) : Nat :=
  s.test.loop.exportId * 2 ^ 38 + (s.test.loop.offset * 4096 + groupOffset j) % 2 ^ 38

/-- A group's transactions toward the partner: RWRITEs or RREADs, cut for a revision-2 partner. Its lines are sent with the RWRITEs. -/
def sendGroup (s0 : State) (isWrite : Bool) (j : Nat) : State :=
  let s := if isWrite then { s0 with test.loop.sentAt := s0.test.loop.sentAt ++ [(j, s0.time)] } else s0
  let l := s.test.loop
  let bytes := (groupLines l j).flatMap (sentLine l)
  let num := l.record
  let cut := ((getPartner s num).map maxPayload).getD 4096
  (remoteCuts cut 4 (groupOffset j) bytes.length).foldl (fun s c =>
    let part := (bytes.drop (c.1 - groupOffset j)).take c.2
    (newRemote s num
      { ty := if isWrite then 2 else 1, purpose := .loopTest l.run isWrite (j + (c.1 - groupOffset j) / 256), req := none, word := 0
        addr := groupAddr s j + (c.1 - groupOffset j), payload := if isWrite then good part else []
        arg := if isWrite then zeros 8 else leBytes 4 c.2 ++ zeros 4, rlen := if isWrite then 0 else c.2, segs := [] }).1) s

/-- Transactions of the running test that are outstanding. -/
def loopOutstanding (s : State) : Bool :=
  s.rem.outReqs.any fun o => match o.purpose with
    | .loopTest run _ _ => run == s.test.loop.run
    | _ => false

/-- The transaction is one of the test that runs: those of an earlier test change nothing (R504). -/
def ofThisTest (s : State) (run : Nat) : Bool := s.test.loop.running && s.test.loop.run == run

/-- An answered transaction of an L7 test: the group is read back once it is written, and the next group follows. -/
def groupAnswered (s : State) (isWrite : Bool) (line : Nat) (data : List SByte) : State :=
  let s1 := if isWrite then s
    else ((chunksOf 256 data).zipIdx).foldl (fun s x => lineReturned s (line + x.2) (x.1.map Prod.fst) (x.1.any Prod.snd)) s
  if loopOutstanding s1 || !s1.test.loop.running then s1
  else
    let j := line / 16 * 16
    if isWrite then sendGroup s1 false j
    else if j + 16 < s1.test.loop.lines then sendGroup s1 true (j + 16) else s1

/-- A transaction of an L7 test without an answer: STATUS shows it, and the next group follows. Its lines are counted lost 1 ms after they
were sent (R502). -/
def groupLost (s : State) (line : Nat) : State :=
  let s1 := { s with test := { s.test with status := stPartnerTimeout } }
  let j := line / 16 * 16
  if loopOutstanding s1 || !s1.test.loop.running || s1.test.loop.lines ≤ j + 16 then s1 else sendGroup s1 true (j + 16)

/-! ## Commands -/

/-- Refusal of a START (table "Loop refusals"). -/
def loopRefusal (s : State) (depth unit lines : Nat) (h : Half) : Option Nat :=
  let g := s.fuses.grade
  let units := if depth == 3 then 8 else if depth == 5 then 16 else if depth == 6 then 2 else 1
  let maint := depth == 3 || depth == 5 || depth == 6
  if (depth == 3 && g == .b && (unit == 6 || unit == 7)) || ((depth == 6 || depth == 7) && g == .c) then some stUnitAbsent
  else if depth > 8 || lines == 0 || unit ≥ units || (maint && !s.status.maint) then some stBadProgram
  else if depth == 7 then
    match partnerCfg s s.test.record, getPartner s s.test.record with
    | some c, some p =>
      if c.half != h then some stPartnerTimeout
      else if p.st == .fenced then some stPartnerFenced
      else if isUp p then none else some stPartnerTimeout
    | _, _ => some stPartnerTimeout
  else if depth == 8 && s.test.hostBase + 0x1_0000 > 0x0800_0000_0000 then some stSegmentBound
  else none

/-- A running test that has not begun to send its lines takes what its depth needs, a hauler and a Tongs slot as a request of priority 0
would, and sends one line in each mc from then on (R499). While none is free it waits for the next command that finds one. -/
def engage (s : State) : State :=
  let l := s.test.loop
  let unit := l.depth == 0 || l.depth == 1 || l.depth == 8
  if !l.running || l.depth == 7 || !l.sentAt.isEmpty then s
  else
    let hauler := (List.finRange 128).find? fun i => mayStart s l.half && haulerFree s ⟨l.half, i⟩
    let slot := if l.depth == 1 then freeSlot s l.half else none
    if unit && (hauler.isNone || (l.depth == 1 && slot.isNone)) then s
    else
      { s with test.loop := { l with sentAt := [(0, s.time)], hauler := if unit then hauler.map (·.val) else none, slot := slot } }

/-- The remote port of an L6 test stops passing frames: records whose paths all lie on its chiplet have no path from now on (R387,
R505). -/
def isolateChiplet (s : State) : State :=
  let l := s.test.loop
  (s.cfg.partners.filter fun c => c.half == l.half && c.paths.all fun p => p.1 == l.unit).foldl
    (fun s c => updPartner s c.num fun p => { p with downAt := s.time }) s

/-- The fields of FV_TEST_LOOP, and START: refused, or the test runs (R503). -/
def startLoop (s : State) (v : Nat) (start : Bool) : State :=
  let h := halfOfBit (bit v 4)
  let t := { s.test with lines := bits v 63 32, unit := bits v 23 16, depth := bits v 11 8, half := bit01 (bit v 4), inject := bit v 3 }
  let s1 := { s with test := t }
  if !start || s.test.state == stRunning then s1
  else
    let t1 := { t with errBits := 0, done := 0, spoiled := 0, lost := 0, first := none, status := 0 }
    match loopRefusal s1 t.depth t.unit t.lines h with
    | some st => { s1 with test := { t1 with state := stRefused, status := st } }
    | none =>
      let l : LoopTest :=
        { running := true, depth := t.depth, unit := t.unit, half := h, inject := t.inject, lines := t.lines, seed := t.seed
          record := t.record, exportId := t.exportId, offset := t.offset, hostBase := t.hostBase, run := t.loop.run + 1, sentAt := []
          checked := 0, seen := [], hauler := none, slot := none }
      let s2 := { s1 with test := { t1 with state := stRunning, loop := l } }
      if t.depth == 7 then sendGroup s2 true 0
      else if t.depth == 6 then isolateChiplet (engage s2)
      else engage s2

/-- LOOP_START: a write of FV_TEST_LOOP. While TAP_OWN is 1, host writes to the test block are ignored (R510). -/
def execLoopStart (t : Mc) (w : RegWrite) (s : State) : Result :=
  let s1 := hostAt s t w.port
  if regOpen s1 w .test && pagePart w.page == 0 && !s1.test.tapOwn then answer s (startLoop s1 w.value.toNat (regBit w 0))
  else answer s s1

/-- Where line `j` of an L2 or L8 test goes: the half's loop area (R459, R499), or the host memory at the BASE of its START. -/
def loopTarget (s : State) (j : Nat) : Option Nat :=
  let l := s.test.loop
  if l.depth == 2 then some (stockBase l.half + 0x1000_0000 - 0x1_8000 + groupOffset j)
  else if l.depth == 8 then some (hostAddr 0 (l.hostBase + groupOffset j))
  else none

/-- A line on its way through its loop: in L2 and L8 it is written to its place and read back (R498); the path inverts the bits of
`flips`. -/
def loopBack (s : State) (j : Nat) (flips : List Byte) : State × List SByte :=
  let sent := good (sentLine s.test.loop j)
  let x := match loopTarget s j with
    | some a =>
      let s1 := writeLocal s none a sent
      (s1, readLocal s1 none a 256)
    | none => (s, sent)
  (x.1, x.2.zipIdx.map fun b => (b.1.1 ^^^ flips.getD b.2 0, b.1.2))

/-- Line `j` of the running test comes back through its loop. -/
def loopReturn (s : State) (j : Nat) (flips : List Byte) (bad : Bool) : State :=
  if !canReturn s j then s
  else
    let (s1, bs) := loopBack s j flips
    lineReturned s1 j (bs.map Prod.fst) (bad || anyMark bs)

/-- LOOP_LINE_LOST: a line has not returned 1 ms after it was sent. -/
def execLoopLineLost (t : Mc) (half : Half) (line : Nat) (s : State) : Result :=
  let s1 := engage (atTime s t)
  if s1.test.loop.half == half then answer s (lineLost s1 line) else answer s s1

end Sys2Proof.Machine
end

