-- ==== Sys2Proof/Machine/MemSide.lean ====
section
/-! DEFINITION. The memory-side instructions PREFETCH, ADVISE and ATOMIC (R101, R102, R346 to R348). -/

namespace Sys2Proof.Machine

/-! ## Spans (R101, R333) -/

/-- Blocks of migratable segments that a range touches, with their slots; none when a byte lies in no segment. `fuel` units at
most. -/
def spanBlocks (s : State) (ctx : Nat) : Nat → Nat → Nat → Option (List (Nat × Nat))
  | 0, _, _ => some []
  | f + 1, a, hi =>
    if hi ≤ a then some []
    else match segAt s ctx a with
      | none => none
      | some g =>
        let b := (a - g.cfg.start) / blockSize
        let next := min (g.cfg.start + g.cfg.length) (g.cfg.start + (b + 1) * blockSize)
        match spanBlocks s ctx f next hi with
        | none => none
        | some rest => some (if g.cfg.kind == .migratable then (g.cfg.index, b) :: rest else rest)

/-- The blocks of a shape set's span over its two dimensions (R101); none for SEGMENT_BOUND. -/
def shapeBlocks (s : State) (ctx : Nat) (sh : ShapeSet) : Option (List (Nat × Nat)) :=
  let sp := shapeSpan sh.base sh []
  if sp.1 < 0 || sp.2 ≥ 2 ^ 57 then none
  else
    let n := (sp.2 + 1 - sp.1).toNat
    spanBlocks s ctx (n / 65536 + 34) sp.1.toNat (sp.1.toNat + n)

def blockState (s : State) (ctx : Nat) (x : Nat × Nat) : BlockSt :=
  match getSeg s ctx x.1 with
  | some g => (blockOf g x.2).st
  | none => .absent

def blockVa (s : State) (ctx : Nat) (x : Nat × Nat) : Nat :=
  ((getSeg s ctx x.1).map fun g => g.cfg.start + x.2 * blockSize).getD 0

/-- The first and the number of a run's blocks in one segment. -/
def runOf (bs : List (Nat × Nat)) : Option (Nat × Nat × Nat) :=
  match bs with
  | [] => none
  | x :: _ => some (x.1, x.2, (bs.filter fun y => y.1 == x.1).length)

def spanLow (sh : ShapeSet) : Nat := (shapeSpan sh.base sh []).1.toNat

/-- A block as PREFETCH and ADVISE name those on which they have acted. -/
def blockKey (x : Nat × Nat) : Nat := x.1 * 2 ^ 40 + x.2

/-- The translation of a block of the span waits (R333, R334): it is held or MOVING. For PREFETCH, `soon`, a promotion that is accepted
or under way needs nothing more (assumption 66, DEDUCED). -/
def blockWaits (s : State) (ctx : Nat) (soon : Bool) (x : Nat × Nat) : Bool :=
  match getSeg s ctx x.1 with
  | none => false
  | some g =>
    let st := (blockOf g x.2).st
    let inward := match st with
      | .movingIn _ => true
      | .inHost => promoting g x.2
      | _ => false
    !(soon && inward) && (isHeld s.time g x.2 || isMoving st)

/-- One block after the other is acted on by `act`, each once, until one must wait. -/
def actBlocks (soon : Bool) (act : State → Nat × Nat → Flow) (id : Nat) : State → List (Nat × Nat) → Flow
  | s, [] => .go s
  | s, x :: xs =>
    match getReq s id with
    | none => .stop s
    | some r =>
      if r.pass.taken.contains (blockKey x) then actBlocks soon act id s xs
      else if blockWaits s r.ctx soon x then .stop (beginWait s r (.moving x.1 x.2))
      else match act s x with
        | .go s1 => actBlocks soon act id s1 xs
        | y => y

/-- The request has acted on a block. -/
def tookBlock (s : State) (id : Nat) (x : Nat × Nat) : State :=
  match getReq s id with
  | some r => setReq s { r with pass := { r.pass with taken := blockKey x :: r.pass.taken } }
  | none => s

/-- PREFETCH of one block (R347): a promotion of an IN_HOST block, a fault of an ABSENT one, whose address is the first of the span in
the block. -/
def prefetchBlock (id ctx lo : Nat) (w : Bool) (s : State) (x : Nat × Nat) : Flow :=
  match blockState s ctx x with
  | .inHost => .go (startPromotion (tookBlock s id x) ctx x.1 x.2)
  | .absent =>
    if !faultsEnabled s ctx then
      match getReq s id with
      | some r => .stop (endHere s r stFaultUnresolved)
      | none => .stop s
    else .go (faultBlock (if w then s else tookBlock s id x) ctx x.1 x.2 (max lo (blockVa s ctx x)) (if w then some id else none)
      (faultFlags false true false))
  | _ => .go s

/-- The instruction ends; it keeps nothing of the blocks. -/
def endSpan (s : State) (r : Request) : Flow := goNext s { r with pass := PassState.start }

/-- PREFETCH and the hint WILL_NEED (R347, R348); `w` waits until the blocks are resident. -/
def prefetchSpan (s : State) (r : Request) (sh : ShapeSet) (w : Bool) : Flow :=
  match shapeBlocks s r.ctx sh with
  | none => .go (endHere s r stSegmentBound)
  | some bs =>
    (actBlocks true (prefetchBlock r.id r.ctx (spanLow sh) w) r.id s bs).bind fun s1 =>
      match getReq s1 r.id with
      | none => .stop s1
      | some r1 =>
        let unready := bs.filter fun x => ((getSeg s1 r.ctx x.1).map fun g => !prefetched g x.2).getD false
        if !w then endSpan s1 r1
        else match unready.find? fun x => blockState s1 r.ctx x == .absent with
          | some x => .stop (beginWait s1 r1 (.absent x.1 x.2))
          | none => match runOf unready with
            | none => endSpan s1 r1
            | some (slot, first, _) => .stop (beginWait s1 r1 (.prefetch slot first 1))

/-- PREFETCH: a request that has waited for a block goes on to the next unready one, and starts no promotion again. -/
def execPrefetch (t : Mc) (h : HaulerId) (s : State) : Result :=
  withInstr t h "PREFETCH" s fun s r i =>
    match i with
    | .prefetch k w => prefetchSpan s r (shapeOf r k) w
    | _ => .go s

/-! ## ADVISE (R348) -/

def markBlock (s : State) (ctx : Nat) (x : Nat × Nat) (f : Block → Block) : State :=
  updSeg s ctx x.1 fun g => setBlock g (f (blockOf g x.2))

/-- One block under a hint other than WILL_NEED. -/
def adviseBlock (ctx hint : Nat) (s : State) (x : Nat × Nat) : State :=
  match hint with
  | 1 =>
    let s1 := freeHot s ctx x.1 x.2
    (match blockState s1 ctx x with
     | .inFrame _ => blockRecord s1 kAdvise ctx x.1 x.2 (blockVa s1 ctx x)
     | _ => s1)
  | 2 => markBlock s ctx x fun b => { b with readMostly := true, preferDevice := false }
  | 3 => markBlock s ctx x fun b => { b with preferDevice := true, readMostly := false }
  | _ => s

/-- ADVISE. -/
def execAdvise (t : Mc) (h : HaulerId) (s : State) : Result :=
  withInstr t h "ADVISE" s fun s r i =>
    match i with
    | .advise k hint =>
      if hint == 0 then prefetchSpan s r (shapeOf r k) false
      else match shapeBlocks s r.ctx (shapeOf r k) with
        | none => .go (endHere s r stSegmentBound)
        | some bs =>
          (actBlocks false (fun s x => .go (adviseBlock r.ctx hint (tookBlock s r.id x) x)) r.id s bs).bind fun s1 =>
            match getReq s1 r.id with
            | some r1 => endSpan s1 r1
            | none => .stop s1
    | _ => .go s

/-! ## ATOMIC (R102) -/

/-- The new value of an atomic operation on `n`-byte values, none when CAS does not match. -/
def atomicValue (op n : Nat) (sg : Bool) (old opd cmp : Nat) : Option Nat :=
  let m := 2 ^ (8 * n)
  let less := fun (a b : Nat) => if sg then decide (signed (8 * n) a < signed (8 * n) b) else decide (a < b)
  match op with
  | 0 => some ((old + opd) % m)
  | 1 => some (if less opd old then opd % m else old)
  | 2 => some (if less old opd then opd % m else old)
  | 3 => some (opd % m)
  | _ => if old == cmp % m then some (opd % m) else none

/-- The IN_HOST block that the target lies in (R347). -/
def hostBlock (s : State) (ctx : Nat) (ps : List Piece) : Option (Nat × Nat) :=
  (ps.filterMap fun p => p.block.map fun b => (p.slot, b)).find? fun x => blockState s ctx x == .inHost

/-- The operands of an ATOMIC as its word names them. -/
structure AtomicOp where
  op  : Nat
  n   : Nat
  sg  : Bool
  opd : Nat
  cmp : Nat

def ledgerAtomic (s : State) (r : Request) (inp out : List SByte) : Request :=
  if ledgered s r.ctx then
    { r with led := { r.led with input := r.led.input ++ inp.map Prod.fst, output := r.led.output ++ out.map Prod.fst
                                 spoiled := r.led.spoiled || anyMark inp || anyMark out } }
  else r

/-- The return of the old value to RS, once the operation is done (R102); `inp` and `out` are what the ledger sees of the target. R102 does
not say what an RS stream of another size than the operand takes: the model writes its first operand-size bytes, the old value cut to RS
(assumption 67, DESIGN CHOICE). `target` is a local target, whose line the operation reads and writes in the write class (R306, R519). -/
def returnOld (s : State) (r : Request) (target ret : List Piece) (old inp out : List SByte) (lost : Bool) : Flow :=
  let bs := fit ((ret.map (·.len)).foldl (· + ·) 0) old
  let r1 := if lost || anyUnreachable s ret then noteCause r stQuenched else r
  let r2 := noteSpoiled r1 (spoiledOver s ret bs + (if lost then 1 else 0))
  let r3 := ledgerAtomic s r2 inp (out ++ ledBytes ret bs)
  let r4 := { r3 with answer := none, pass := PassState.start, wait := none, hostWrites := hostPorts s (target ++ ret) r3.hostWrites }
  let far := target.filter (·.pkg.isSome)
  let r5 := billetAsks s r4 none far (target ++ ret) (target.flatMap (targetAsks s) ++ writeAsks s ret bs)
  let s1 := emitPieces r.ctx (touched r.ctx (target ++ ret)) r.id (setReq s r5) ret bs
  match getReq s1 r.id with
  | some r6 => goNext s1 r6
  | none => .stop s1

/-- The operation on a local target, once no own write reaches its line (R112). It is in memory at once: nothing comes between its read
and its write. -/
def atomicLocal (s0 : State) (r0 : Request) (a : AtomicOp) (opened : Option (List Need × List Piece)) (p : Piece) (ret : List Piece) : Flow :=
  let (s, r) := answerHost s0 r0 [p]
  if unreachable s p.addr then
    returnOld s r [p] ret ((List.range p.len).map fun i => (Config.unreadByte s.time (p.addr + i), true)) [] [] true
  else if ownLineOver s r p then .stop (beginWait s { r with pass := { r.pass with opened := opened } } .remote)
  else (crossSeam s { r with pass := { r.pass with opened := opened } } (p :: ret)).bind fun s =>
    let old := readLocal s p.key p.addr p.len
    let mark := anyMark old
    let v := leVal (old.map Prod.fst)
    let new := (atomicValue a.op a.n a.sg v a.opd a.cmp).map fun x => (leBytes a.n x).map fun b => (b, mark)
    let s1 := match new with
      | some bs => writeAtomic s r.ctx p bs
      | none => s
    let r1 := if mark then noteSpoiled r 1 else r
    returnOld s1 r1 [p] ret old (if p.led then old else []) (if p.led then new.getD [] else []) false

/-- A revision-2 partner has no signed MIN and MAX (R406). -/
def atomicBars (p : Partner) (op : Nat) (sg : Bool) : Bool := p.rev == 2 && sg && (op == 1 || op == 2)

/-- The operation on a remote target: sent once no own write reaches its line (R112), then answered (R385); a spoiled answer is returned
spoiled, and counted (R116, R386). -/
def atomicRemote (s : State) (r : Request) (a : AtomicOp) (opened : Option (List Need × List Piece)) (p : Piece) (ret : List Piece) : Flow :=
  if pieceFenced s p then .stop (endHere s r stPartnerFenced)
  else match r.answer with
    | some (_, data, mark) =>
      let old := (data.take a.n).map fun b => (b, mark)
      let new := (atomicValue a.op a.n a.sg (leVal (data.take a.n)) a.opd a.cmp).map fun x => (leBytes a.n x).map fun b => (b, mark)
      returnOld s (if mark then noteSpoiled r 1 else r) [p] ret old (if p.led then old else []) (if p.led then new.getD [] else []) false
    | none =>
      if !r.pass.sent.isEmpty || ownWrites s r [p] then
        .stop (beginWait s { r with pass := { r.pass with opened := opened } } .remote)
      else match p.pkg.bind (recordOf s) with
        | none => .stop (endHere s r stPartnerFenced)
        | some c =>
          if ((getPartner s c.num).map fun x => isUp x && atomicBars x a.op a.sg).getD false then .stop (endHere s r stUnitAbsent)
          else
          let (s1, tag) := newRemote s c.num
            { ty := 3, purpose := .atomic, req := some r.id, word := wordDetail r, addr := localOf p.addr
              payload := good (leBytes 8 a.opd ++ leBytes 8 a.cmp)
              arg := leBytes 1 a.op ++ leBytes 1 ((if a.n == 8 then 1 else 0) + (if a.sg then 2 else 0)) ++ zeros 6
              rlen := 0, segs := touched r.ctx (p :: ret) }
          match getReq s1 r.id with
          | some r1 => .stop (beginWait s1 { r1 with pass := { r1.pass with sent := [tag], opened := opened } } .remote)
          | none => .stop s1

/-- The request waits for a promotion that has not ended (R347). -/
def promotionOpen (s : State) (r : Request) : Bool :=
  match r.wait with
  | some (.promotion slot b) => ((getSeg s r.ctx slot).map (promoting · b)).getD false
  | _ => false

/-- ATOMIC: target and return range are one billet (R333); an IN_HOST target is promoted first (R347). -/
def execAtomic (t : Mc) (h : HaulerId) (s : State) : Result :=
  withInstr t h "ATOMIC" s fun s r i =>
    match i with
    | .atomic op wide sg tg opd cmp ret rs =>
      let n := if wide then 8 else 4
      let x := shapeOf r tg
      let y := shapeOf r rs
      let m := 2 ^ (8 * n)
      let a : AtomicOp := { op := op, n := n, sg := sg, opd := (r.params.getD opd 0).toNat % m
                            cmp := if op == 4 then (r.params.getD cmp 0).toNat % m else 0 }
      let sides := rtSide tg .a 0 :: if ret then [rtSide rs .w 0] else []
      if promotionOpen s r then .stop s
      else if (r.pass.started == false) && (x.handle && x.base % n != 0) then .go (endHere s r stSegmentBound)
      else
        withReq (atomicStart s r sides) r.id fun s r =>
          let retNeeds : List Need := if ret then (streamRanges y 0 0 n).map fun q => (q.va, q.len, Right.w) else []
          let needs := (x.base, n, Right.a) :: retNeeds
          match billetXlate s r needs with
          | .ok ps =>
            match ps with
            | p :: dst =>
              (match hostBlock s r.ctx [p] with
               | some b => .stop (beginWait (startPromotion s r.ctx b.1 b.2) r (.promotion b.1 b.2))
               | none =>
                 let s1 := if r.pass.opened.isSome then s else touchBlocks s r.ctx dst
                 let r1 := forgetKept (needs.map fun x => (x.1, x.2.1)) r
                 if p.pkg.isSome then atomicRemote s1 r1 a (some (needs, ps)) p dst
                 else atomicLocal s1 r1 a (some (needs, ps)) p dst)
            | [] => .go (endHere s r stSegmentBound)
          | z => blockBillet s r z true
    | _ => .go s
where
  atomicStart (s : State) (r : Request) (sides : List RtSide) : Flow :=
    if r.pass.started then .go s
    else match rtCheck s r sides [] with
      | some st => .stop (endHere s r st)
      | none => .go (setReq s { r with pass := beganPass r [] })

end Sys2Proof.Machine
end

