-- ==== Sys2Proof/Machine/Reduce.lean ====
section
/-! DEFINITION. Ordered reductions: the epoch at the home, chunks, sums, timeouts and refusals, and the instruction REDUCE (R103, R185,
R400 to R404). -/

namespace Sys2Proof.Machine

/-! ## Epochs (R402) -/

/-- A reduction at context load: epoch 0, not open. -/
def EpochSt.start (ctx red : Nat) : EpochSt :=
  { ctx := ctx, red := red, e := 0, isOpen := false, opened := 0, bound := [], chunks := [], summed := false, failed := false
    ending := none
    refused := [], timedOut := [] }

def getEpoch (s : State) (ctx red : Nat) : EpochSt :=
  (s.rem.epochs.find? fun x => x.ctx == ctx && x.red == red).getD (EpochSt.start ctx red)

def setEpoch (s : State) (x : EpochSt) : State :=
  let old := s.rem.epochs.filter fun y => !(y.ctx == x.ctx && y.red == x.red)
  { s with rem.epochs := old ++ [x] }

/-- A chunk of the rank that is stored meets bytes lo to hi − 1. -/
def chunkMeets (x : EpochSt) (rank lo hi : Nat) : Bool :=
  x.chunks.any fun c => c.1 == rank && c.2.1 < hi && lo < c.2.1 + c.2.2

/-- Bytes of a rank that are stored. -/
def rankBytes (x : EpochSt) (rank : Nat) : Nat :=
  ((x.chunks.filter (·.1 == rank)).map fun c => c.2.2).foldl (· + ·) 0

def rankComplete (d : RedCfg) (x : EpochSt) (rank : Nat) : Bool := rankBytes x rank == d.length

/-- Every rank's contribution is stored. -/
def allRanks (d : RedCfg) (x : EpochSt) : Bool := (List.range d.members).all (rankComplete d x)

def missingRank (d : RedCfg) (x : EpochSt) : Nat := ((List.range d.members).find? fun r => !rankComplete d x r).getD 0

/-- Ranks from 0 on whose contributions are stored. -/
def leadingRanks (d : RedCfg) (x : EpochSt) : Nat := ((List.range d.members).takeWhile (rankComplete d x)).length

/-- Local address of byte `off` of the reduction's buffer in the staging area (R400). The manual gives the buffer's size and not its layout:
contributions stand in it by rank, and the accumulator behind them (assumption 80, DESIGN CHOICE). -/
def redBuffer (s : State) (d : RedCfg) (off : Nat) : Nat := stagingLocal s d.ctx (d.buffer + off)

/-- A chunk is stored in the buffer (R400, R402). -/
def storeChunk (s : State) (d : RedCfg) (rank off : Nat) (bs : List SByte) : State :=
  writeBank s .remote none (redBuffer s d (rank * d.length + off)) bs

/-- Ranks have been added to the accumulator (R403), whose bytes are free values. -/
def accumulate (s : State) (d : RedCfg) : State :=
  let n := 8 * (d.length / (fmtBits d.fmt / 8))
  let s1 := { s with drawn := s.drawn + 1 }
  writeBank s1 .remote none (redBuffer s d (d.members * d.length)) (good ((List.range n).map (Config.accByte s.drawn)))

/-- A rank's contribution, as the buffer holds it. -/
def contribution (s : State) (d : RedCfg) (rank : Nat) : List SByte := memReadS s.mem (redBuffer s d (rank * d.length)) d.length

/-- The sum of all ranks in rank order (R185, R403); an element that takes a spoiled byte is spoiled. -/
def epochSum (s : State) (profile : Nat) (d : RedCfg) : List SByte :=
  let n := fmtBits d.fmt / 8
  let ranks := (List.range d.members).map fun r => chunksOf n (contribution s d r)
  (List.range (d.length / n)).flatMap fun i =>
    let es := ranks.map fun r => r.getD i []
    let v := reduceElem profile d.fmt (es.map fun e => leVal (e.map Prod.fst))
    (leBytes n v).map fun b => (b, es.any fun e => e.any Prod.snd)

/-! ## Destination and closing (R403, R404) -/

/-- RWRITEs of a remote piece of a destination. -/
def destRemote (s : State) (d : RedCfg) (e : Nat) (segs : List (Nat × Nat × Bool)) (p : Piece) (bs : List SByte) : State :=
  match p.pkg.bind (recordOf s) with
  | none => s
  | some c =>
    (pieceCuts s p).foldl (fun s cut =>
      (newRemote s c.num
        { ty := 2, purpose := .epochDest d.ctx d.red e, req := none, word := 0, addr := localOf cut.1
          payload := (bs.drop (cut.1 - p.addr)).take cut.2, arg := zeros 8, rlen := 0, segs := segs }).1) s

/-- Bytes dealt out over the pieces of a destination. -/
def destPieces (d : RedCfg) (e : Nat) (segs : List (Nat × Nat × Bool)) : State → List Piece → List SByte → State
  | s, [], _ => s
  | s, p :: ps, bs =>
    let part := bs.take p.len
    destPieces d e segs (if p.pkg.isSome then destRemote s d e segs p part else storePiece s .remote d.ctx p part) ps (bs.drop p.len)

/-- The destination write of an epoch: done, or held by its segment. A destination that no longer translates is left unwritten. It writes
the Stockpile as the remote port (R230; assumption 60). Its lines are of the write class, at priority 0 (assumption 60). -/
def writeDest (s : State) (d : RedCfg) (e : Nat) (bs : List SByte) : Option State :=
  match translate s d.ctx [(d.dest, d.length, .w)] with
  | .ok ps =>
    let segs := touched d.ctx ps
    let s1 := addOthers s (.epoch d.ctx d.red) 0 fun n => linesOfAsks s true .write none segs n (writeAsks s ps bs)
    some (touchBlocks (destPieces d e segs s1 ps bs) d.ctx ps)
  | .held _ _ => none
  | _ => some s

/-- The half that homes a reduction: that of its context's staging area. -/
def redHome (s : State) (ctx : Nat) : Half := ((stagingCfg s ctx).map (·.half)).getD (homeOfCtx s ctx)

/-- The completion counter is signalled by 1. -/
def signalEpoch (s : State) (d : RedCfg) : State :=
  match d.counter with
  | none => s
  | some v =>
    match vEntry s d.ctx v with
    | .loc c _ _ => sendUpdate s c 1 (genOf s c) (redHome s d.ctx) (s.time + releaseDelay c (redHome s d.ctx))
    | _ => s

/-- The next epoch. -/
def nextEpoch (x : EpochSt) : EpochSt :=
  { x with e := (x.e + 1) % 2 ^ 32, isOpen := false, bound := [], chunks := [], summed := false, failed := false, ending := none }

def epochEvent (s : State) (d : RedCfg) (x : EpochSt) (refused : Bool) : State :=
  ctxEvent s d.ctx 0x000F (d.red % 4096 + x.e * 2 ^ 32) (missingRank d x + (if refused then 2 ^ 63 else 0))

/-- Zeros with every line spoiled (R403, R404). -/
def spoiledZeros (n : Nat) : List SByte := (zeros n).map fun b => (b, true)

/-- An epoch ends without a sum, refused or after its timeout: zeros with every line spoiled go to the destination, the counter is
signalled, and E rises (R403, R404). While the destination takes no write, the epoch waits for it (R334). -/
def spoilEpoch (s : State) (d : RedCfg) (x : EpochSt) (refused : Bool) : State :=
  match writeDest s d x.e (spoiledZeros d.length) with
  | none => setEpoch s { x with ending := some refused }
  | some s1 =>
    let s2 := epochEvent (signalEpoch s1 d) d x refused
    let got := x.chunks.map fun c => (c.1, c.2.1)
    setEpoch s2 (if refused then { nextEpoch x with refused := x.refused ++ [x.e] }
      else { nextEpoch x with timedOut := x.timedOut ++ [(x.e, got)] })

/-- A complete epoch's sum is written, when its destination takes it. -/
def sumEpoch (s : State) (d : RedCfg) (x : EpochSt) : State :=
  if allRanks d x && !x.summed && x.ending.isNone then
    match writeDest s d x.e (epochSum s (profileOf s d.ctx) d) with
    | some s1 => setEpoch s1 { x with summed := true }
    | none => s
  else s

/-- Destination writes that waited are tried again. -/
def retryEpochs (s : State) : State :=
  s.rem.epochs.foldl (fun s x => match redCfg s x.ctx x.red, x.ending with
    | some d, some refused => spoilEpoch s d x refused
    | some d, none => sumEpoch s d x
    | none, _ => s) s

/-! ## Chunks (R402) -/

/-- A contribution's chunk as the home sees it. -/
structure Chunk where
  sender  : Nat
  profile : Nat
  epoch   : Nat
  rank    : Nat
  off     : Nat
  data    : List SByte

/-- The answer to a chunk: state, status, and whether it is a violation (table "Chunk handling"). -/
def takeChunk (s : State) (d : RedCfg) (k : Chunk) : State × Nat × Bool :=
  let x := getEpoch s d.ctx d.red
  let hi := k.off + k.data.length
  let bound := (x.bound.find? fun b => b.1 == k.rank).map Prod.snd
  let late := fun (got : List (Nat × Nat)) =>
    if got.any fun r => r.1 == k.rank && r.2 == k.off then (s, stBadProgram, true) else (s, stPartnerTimeout, false)
  if k.epoch > x.e then (s, stBadProgram, true)
  else if k.epoch < x.e then
    if x.refused.contains k.epoch then (s, stProfileMismatch, false)
    else match x.timedOut.find? fun t => t.1 == k.epoch with
      | some t => late t.2
      | none => (s, stBadProgram, true)
  else if x.ending == some true then (s, stProfileMismatch, false)
  else if x.ending == some false then late (x.chunks.map fun c => (c.1, c.2.1))
  else if chunkMeets x k.rank k.off hi || (bound.isSome && bound != some k.sender) then (s, stBadProgram, true)
  else if k.profile != profileOf s d.ctx then (spoilEpoch s d { x with chunks := [] } true, stProfileMismatch, false)
  else
    let y := { x with isOpen := true, opened := if x.isOpen then x.opened else s.time
                      bound := if bound.isSome then x.bound else x.bound ++ [(k.rank, k.sender)]
                      chunks := x.chunks ++ [(k.rank, k.off, k.data.length)] }
    let s1 := storeChunk (setEpoch s y) d k.rank k.off k.data
    let s2 := if leadingRanks d y > leadingRanks d x then accumulate s1 d else s1
    (sumEpoch s2 d y, stOk, false)

/-! ## EPOCH_COMPLETE, EPOCH_TIMEOUT -/

/-- Remote writes of the epoch's destination that have no response yet. -/
def destOutstanding (s : State) (x : EpochSt) : Bool := s.rem.outReqs.any fun o => o.purpose == .epochDest x.ctx x.red x.e

/-- A remote write of an epoch's destination has failed: what it may have written is never reported as done (R392), so that the epoch stays
summed, with neither its signal nor the next epoch, until a reset or a quench closes it (assumption 79, DEDUCED). -/
def destFailed (s : State) (ctx red e : Nat) : State :=
  let x := getEpoch s ctx red
  if x.e == e && x.summed then setEpoch s { x with failed := true } else s

/-- EPOCH_COMPLETE: the sum's destination write has its responses; the counter is signalled and E rises (R403). -/
def execEpochComplete (t : Mc) (ctx : Fin 256) (red : Fin 4096) (s : State) : Result :=
  let s1 := whenReady s t fun x => !otherOpen x (.epoch ctx.val red.val)
  match redCfg s1 ctx.val red.val with
  | none => answer s s1
  | some d =>
    let s2 := if running s1 then sumEpoch s1 d (getEpoch s1 ctx.val red.val) else s1
    let x := getEpoch s2 ctx.val red.val
    if x.summed && !x.failed && !destOutstanding s2 x && running s2 then answer s (setEpoch (signalEpoch s2 d) (nextEpoch x))
    else answer s s2

/-- EPOCH_TIMEOUT (R403): counted from the epoch's opening, when it is not yet summed. -/
def execEpochTimeout (t : Mc) (ctx : Fin 256) (red : Fin 4096) (s : State) : Result :=
  let x := getEpoch s ctx.val red.val
  match redCfg s ctx.val red.val with
  | none => answer s (atTime s t)
  | some d =>
    if !x.isOpen || allRanks d x || x.ending.isSome || !running s then answer s (atTime s t)
    else answer s (spoilEpoch (atTime s (max t (x.opened + mcOf d.timeout))) d x false)

/-- Open epochs of a context's reductions close without a write and without a signal, and E rises (R492). -/
def dropEpochs (s : State) (ctx : Nat) : State :=
  { s with rem.epochs := s.rem.epochs.map fun x => if x.ctx == ctx && x.isOpen then nextEpoch x else x }

/-- Open epochs homed in a half discard their chunks, with an epoch event each, and E rises (R440). -/
def resetEpochs (s : State) (h : Half) : State :=
  (s.rem.epochs.filter fun x => x.isOpen && redHome s x.ctx == h).foldl (fun s x =>
    match redCfg s x.ctx x.red with
    | some d => setEpoch (epochEvent s d x false) (nextEpoch x)
    | none => s) s

/-! ## REDUCE (R103, R400, R401) -/

/-- The checks of the table "Export checks" that do not look at an atomic's operand: sender `pkg`, transaction type `ty`, offset and
bytes. -/
def exportBars (s : State) (pkg : Nat) (e : ExportCfg) (ty off n : Nat) : Option Nat :=
  let allowed := match e.permitted with
    | none => true
    | some l => l.contains pkg
  let size := match e.target with
    | .memory _ len => len
    | .counter _ => 0
    | .reduction red => ((redCfg s e.owner red).map (·.length)).getD 0
  let suits := match e.target, ty with
    | .memory _ _, 1 => true
    | .memory _ _, 2 => true
    | .memory _ _, 3 => true
    | .counter _, 5 => true
    | .reduction _, 4 => true
    | _, _ => false
  let right := match ty with
    | 1 => e.r
    | 2 => e.w
    | 3 => e.a
    | _ => true
  if !allowed || !suits || !right then some stRights
  else if (if ty == 5 then off != 0 else off + n > size) then some stSegmentBound
  else none

/-- The context acts for nobody while it is QUENCHED (R492). -/
def ownerQuenched (s : State) (ctx : Nat) : Bool := ((getCtx s ctx).map fun y => y.st == .quenched).getD false

/-- A chunk that has passed the export checks, at its home: state, status, and whether it is a violation. -/
def chunkAtHome (s : State) (e : ExportCfg) (fmt : Nat) (k : Chunk) : State × Nat × Bool :=
  match e.target with
  | .reduction red =>
    (match redCfg s e.owner red with
     | none => (s, stRights, true)
     | some d => if k.rank ≥ d.members || fmt != d.fmt then (s, stBadProgram, true) else takeChunk s d k)
  | _ => (s, stRights, true)

/-- A chunk of the own package at an export of its own, under the rules of a remote one (R400). -/
def localChunk (s : State) (d : RedCfg) (k : Chunk) : State × Nat :=
  match exportCfg s d.exportId with
  | none => (s, stRights)
  | some e =>
    if ownerQuenched s e.owner then (s, stQuenched)
    else match exportBars s s.cfg.pkg e 4 k.off k.data.length with
      | some st => (s, st)
      | none =>
        let (s1, st, _) := chunkAtHome s e d.fmt k
        (s1, st)

/-- A partner whose record is Active or Slow does not take an RREDUCE of this format and profile: the status that ends the request
before sending (R401, R406). -/
def chunkBars (p : Partner) (fmt profile : Nat) : Option Nat :=
  if p.rev == 2 && (fmt == 2 || fmt == 3) then some stUnitAbsent
  else if !bit p.profiles profile then some stProfileMismatch
  else none

/-- A REDUCE whose home cannot take it at all (R401, R406, R392). The features of a partner that is not Active or Slow are not known;
they are judged when its record becomes Active. -/
def reduceBarred (s : State) (r : Request) (d : RedCfg) : Option Nat :=
  if d.home == s.cfg.pkg then none
  else match (recordOf s d.home).bind fun c => getPartner s c.num with
    | none => some stPartnerFenced
    | some p =>
      if p.st == .fenced then some stPartnerFenced
      else if isUp p then chunkBars p d.fmt (profileOf s r.ctx)
      else none

/-- The next 4 KiB have been accepted, and the REDUCE goes on. -/
def chunkDone (r : Request) : Request :=
  { r with pass := { r.pass with done := r.pass.done + 1, sent := [], opened := none }, rdata := [], wait := none }

/-- RREDUCEs of a chunk: one transaction, or two of 2,048 B toward a revision-2 partner (R406). -/
def sendReduce (s : State) (r : Request) (d : RedCfg) (c : PartnerCfg) (k : Chunk) (segs : List (Nat × Nat × Bool)) : State :=
  let cut := ((getPartner s c.num).map maxPayload).getD 4096
  (remoteCuts cut 3 k.off k.data.length).foldl (fun s x =>
    let (s1, tag) := newRemote s c.num
      { ty := 4, purpose := .reduce, req := some r.id, word := wordDetail r, addr := d.exportId * 2 ^ 38 + x.1
        payload := (k.data.drop (x.1 - k.off)).take x.2
        arg := leBytes 4 k.epoch ++ leBytes 2 k.rank ++ leBytes 1 d.fmt ++ leBytes 1 k.profile, rlen := 0, segs := segs }
    match getReq s1 r.id with
    | some r1 => setReq s1 { r1 with pass := { r1.pass with sent := r1.pass.sent ++ [tag] } }
    | none => s1) s

/-- One chunk to its home: accepted at once, or sent and waited for. -/
def sendChunk (s : State) (r : Request) (d : RedCfg) (k : Chunk) (segs : List (Nat × Nat × Bool)) : Flow :=
  if d.home == s.cfg.pkg then
    let (s1, st) := localChunk s d k
    if st == stOk then .go (setReq s1 (chunkDone r))
    else if st == stPartnerTimeout then .go (setReq s1 (chunkDone (noteCause r stPartnerTimeout)))
    else .stop (endHere s1 r st)
  else match recordOf s d.home with
    | none => .stop (endHere s r stPartnerFenced)
    | some c =>
      let r1 := { r with pass := { r.pass with sent := [], opened := none }, rdata := [] }
      let s1 := sendReduce (setReq s r1) r1 d c k segs
      match getReq s1 r.id with
      | some r2 => .stop (beginWait s1 r2 .remote)
      | none => .stop s1

/-- What a REDUCE reads of its source for a chunk; a repeated line is read once (R52). -/
def chunkJob (sh : ShapeSet) (lo : Nat) : Job :=
  { pre := [], main := fun _ => sourceRanges sh lo (lo + 4096), dest := [], out := fun _ _ _ => plainOut 0 [], counted := false
    holds := repeats sh, again := false }

/-- The source bytes of a chunk are at hand: they are read and accounted, their lines go to the memory ports, and the chunk is sent. -/
def readChunk (s : State) (r0 : Request) (sh : ShapeSet) (d : RedCfg) (v lo : Nat) (ps : List Piece) : Flow :=
  let j := chunkJob sh lo
  let (raw, p1) := readRanges s r0 j false (j.main []) ps
  let bs := sourceBytes sh lo (min (lo + 4096) (streamLen sh)) raw
  let r := { r0 with pass := p1 }
  let led := ledgered s r.ctx
  let segs := touched r.ctx ps
  let cls := if d.home == s.cfg.pkg then LineClass.read else .remote
  let r1 := if led then { r with led := { r.led with spoiled := r.led.spoiled || anyMark (ledBytes ps raw) } } else r
  let r2 := noteSpoiled (if anyUnreachable s ps then noteCause r1 stQuenched else r1) (spoiledPieces lo bs)
  let r3 := addLines r2 (linesOfAsks s false cls none segs r2.lines.next (ps.flatMap (pieceAsks s)))
  let k : Chunk :=
    { sender := s.cfg.pkg, profile := profileOf s r.ctx, epoch := bits v 63 32, rank := bits v 13 0, off := lo, data := bs }
  sendChunk (touchBlocks (setReq s r3) r.ctx ps) r3 d k segs

/-- Chunks from the first one not yet accepted on, each 4 KiB of the source (R333). -/
def reduceChunks (sh : ShapeSet) (d : RedCfg) (v : Nat) : Nat → State → Nat → Flow
  | 0, s, id =>
    match getReq s id with
    | some r => goNext s { flushInputs r with pass := PassState.start }
    | none => .stop s
  | f + 1, s, id =>
    match getReq s id with
    | none => .stop s
    | some r =>
      let lo := r.pass.done * 4096
      if lo ≥ streamLen sh then goNext s { flushInputs r with pass := PassState.start }
      else
        let j := chunkJob sh lo
        let needs := readNeeds (notHeld r j (j.main []))
        match billetXlate s r needs with
        | .ok ps =>
          let r0 := { r with pass := { r.pass with opened := some (needs, ps) } }
          let (s0, r1) := answerHost (setReq s r0) r0 ps
          (awaitRemote s0 r1 ps ps).bind fun s1 =>
            match getReq s1 id with
            | none => .stop s1
            | some r2 => (readChunk s1 r2 sh d v lo ps).bind fun s2 => reduceChunks sh d v f s2 id
        | x => blockBillet s r x false

/-- REDUCE: it completes when the home has accepted every chunk. -/
def execReduce (t : Mc) (h : HaulerId) (s : State) : Result :=
  withInstr t h "REDUCE" s fun s r i =>
    match i with
    | .reduce src rid pe fmt =>
      match redCfg s r.ctx rid with
      | none => .go (endHere s r stRights)
      | some d =>
        match (if r.pass.started then none else rtCheck s r [rtSide src .r fmt] []), reduceBarred s r d with
        | some st, _ => .go (endHere s r st)
        | none, some st => .go (endHere s r st)
        | none, none =>
          if r.wait == some .remote && !r.pass.sent.isEmpty then .stop s
          else
            let r1 := { r with pass := if r.pass.started then r.pass else beganPass r [], wait := none }
            reduceChunks (shapeOf r src) d (r.params.getD pe 0).toNat 260 (setReq s r1) r.id
    | _ => .go s

end Sys2Proof.Machine
end

