-- ==== Sys2Proof/Machine/Stores.lean ====
section
/-! DEFINITION. The store buffers of the schedule ports: STM writes, the SIGs that wait for them, and the counter updates of SIG (R250,
R251, R306, R315, R334, R336, R361, R365). -/

namespace Sys2Proof.Machine

/-! ## STM (R250) -/

/-- RWRITEs of a remote piece of a store. -/
def storeRemote (ctx id : Nat) (s : State) (p : Piece) (bs : List SByte) : State :=
  match p.pkg.bind (recordOf s) with
  | none => s
  | some c =>
    (pieceCuts s p).foldl (fun s cut =>
      let r := newRemote s c.num
        { ty := 2, purpose := .store id, req := none, word := 0, addr := localOf cut.1
          payload := (bs.drop (cut.1 - p.addr)).take cut.2, arg := zeros 8, rlen := 0, segs := [(ctx, p.slot, p.epoch)] }
      updStore r.1 id fun x => { x with tags := x.tags ++ [(c.num, r.2)] }) s

def storePieces (ctx id : Nat) : State → List Piece → List SByte → State
  | s, [], _ => s
  | s, p :: ps, bs =>
    let part := bs.take p.len
    let s1 := if p.pkg.isSome then storeRemote ctx id s p part else storePiece s .schedule ctx p part
    storePieces ctx id s1 ps (bs.drop p.len)

/-- A store-fault event (code 0x000A) with its status and address. -/
def storeFault (s : State) (ctx status va : Nat) : State := ctxEvent s ctx 0x000A status va

/-- The store's status when its address cannot be written: no segment, or one that is not device-backed or lacks W. -/
def storeBars (s : State) (ctx va : Nat) : Option Nat :=
  match segOf s ctx va 1024 with
  | none => some stSegmentBound
  | some g => if g.cfg.kind != .device || !g.cfg.w then some stRights else none

/-- Entries behind one that waits for its range wait too: stores issue in order of acceptance (R315). -/
def storesWait (s : State) (x : StoreEntry) : Bool :=
  s.buf.stores.any fun y => y.half == x.half && y.held && decide (y.id < x.id)

/-- The entry's lines toward the memory ports, of the write class (R306). -/
def storeLines (s : State) (x : StoreEntry) (ps : List Piece) : List Line :=
  linesOfAsks s true .write none (touched x.ctx ps) 0 (writeAsks s ps x.data)

/-- An entry's write is issued; it waits while its range is held (R334). Its response has come when all of its lines have been answered. -/
def issueStore (s : State) (x : StoreEntry) : State :=
  match storeBars s x.ctx x.va with
  | some st => freeStore (storeFault s x.ctx st x.va) x.id
  | none =>
    if storesWait s x then updStore s x.id fun y => { y with held := true } else
    match translate s x.ctx [(x.va, 1024, .w)] with
    | .held _ _ => updStore s x.id fun y => { y with held := true }
    | .ok ps =>
      if ps.any (pieceFenced s) then updStore s x.id fun y => { y with held := false, failed := true }
      else
        let ls := storeLines s x ps
        closeStore (storePieces x.ctx x.id (updStore s x.id fun y => { y with held := false, lines := ls }) ps x.data) x.id
    | _ => freeStore s x.id

/-- An STM is accepted. -/
def newStore (s : State) (half : Half) (ctx va : Nat) (data : List SByte) : State :=
  match storeBars s ctx va with
  | some st => storeFault s ctx st va
  | none =>
    let x : StoreEntry := { id := s.buf.nextStore, half := half, ctx := ctx, va := va, data := data, tags := [], lines := [], held := false, failed := false }
    issueStore { s with buf.stores := s.buf.stores ++ [x], buf.nextStore := s.buf.nextStore + 1 } x

/-- STR's write of a billet: its lines are written 2 mc after acceptance, and its response comes 2 to 10 mc after it, a free value (table
"Schedule-port timing"; assumption 8). -/
def newStr (s : State) (half : Half) (ctx ring billet a : Nat) (bs : List SByte) : State :=
  let (v, s1) := draw s
  let x : StrWrite :=
    { id := s.buf.nextStore, half := half, ctx := ctx, ring := ring, billet := billet, due := s.time + 2 + v.toNat % 9
      load := some (s.time + 2, a, bs) }
  { s1 with buf.strs := s.buf.strs ++ [x], buf.nextStore := s.buf.nextStore + 1 }

/-- Stores of a context without a response. -/
def openStores (s : State) (ctx : Nat) : List Nat :=
  (s.buf.stores.filter (·.ctx == ctx)).map (·.id) ++ (s.buf.strs.filter (·.ctx == ctx)).map (·.id)

/-- A remote write of an entry has failed (R392). The entry leaves the store buffer when nothing else of it is outstanding, and no SIG that
waits for it, or that the context issues later, takes effect (assumption 79, DEDUCED). -/
def storeFailed (s : State) (id num tag : Nat) : State :=
  updStore s id fun x => { x with tags := x.tags.filter (· != (num, tag)), failed := true }

/-- A remote write of an entry has been answered. -/
def storeAnswered (s : State) (id num tag : Nat) : State :=
  closeStore (updStore s id fun x => { x with tags := x.tags.filter (· != (num, tag)) }) id

/-- Entries that wait are tried again, in order of acceptance. -/
def retryStores (s : State) : State := (s.buf.stores.filter (·.held)).foldl issueStore s

/-- Entries of a half's store buffer in use. -/
def storesUsed (s : State) (h : Half) : Nat := (s.buf.stores.filter fun x => x.half == h && x.live).length

/-- A SIG is accepted: its update carries the counter's generation of this moment (R362). `needs` are the entries of the context's
earlier bundles. -/
def newSig (s : State) (half : Half) (ctx vid n : Nat) (needs : List Nat) : State :=
  let gen := match vEntry s ctx vid with
    | .loc c _ _ => genOf s c
    | _ => 0
  let x : StoreSig := { half := half, ctx := ctx, vid := vid, n := n, gen := gen, needs := needs }
  if needs.isEmpty then releaseSig s x else { s with buf.sigs := s.buf.sigs ++ [x] }

end Sys2Proof.Machine
end

