-- ==== Sys2Proof/Machine/Inbound.lean ====
section
/-! DEFINITION. The remote engine as a receiver: partner states, HELLO, inbound requests, responses, timeouts and links (R384 to R399,
R402 to R407, R418, R425, R442). -/

namespace Sys2Proof.Machine

/-! ## Outstanding requests end (R388, R392, R397) -/

/-- A late answer from another package reaches the inbound request that asked it. -/
def relayDone (s : State) (id tag status : Nat) (data : List (Nat × Byte × Bool)) : State :=
  let inbound := updWhere (fun (x : Inbound) => x.id == id)
    (fun x => { x with tags := x.tags.filter (· != tag), data := x.data ++ data
                       status := if x.status == stOk then status else x.status }) s.rem.inbound
  { s with rem.inbound := inbound }

/-- An outstanding request has failed with a status that ends whatever asked for it. -/
def outFailed (s : State) (o : OutReq) (status : Nat) : State :=
  let s1 := dropOut s o.num o.tag
  match o.purpose, o.req with
  | .loopTest run _ _, _ => if ofThisTest s run then stopLoop s1 stFail status else s1
  | .relay id, _ => relayDone s1 id o.tag status []
  | .store id, _ => storeFailed s1 id o.num o.tag
  | .epochDest ctx red e, _ => destFailed s1 ctx red e
  | _, some id => failWrite s1 id o.tag status o.word
  | _, none => s1

/-- Every request outstanding to a partner completes with a status (R397). -/
def failAll (s : State) (num status : Nat) : State :=
  (s.rem.outReqs.filter (·.num == num)).foldl (fun s o => outFailed s o status) s

/-- The partner record becomes Fenced (R397): what is outstanding completes, and what it has asked is answered no more. -/
def fencePartner (s : State) (num recent : Nat) : State :=
  let s1 := setPartner s num .fenced
  let s2 := match partnerCfg s num with
    | some c => raiseEvent s1 c.owner 0x000E 0 true num recent
    | none => s1
  failAll { s2 with rem.inbound := s2.rem.inbound.filter (·.num != num) } num stPartnerFenced

/-- A violation is counted; 16 within 1 ms fence the record (R397). -/
def violate (s : State) (num : Nat) : State :=
  match getPartner s num with
  | none => s
  | some p =>
    let ts := s.time :: p.violTimes.filter fun t => s.time < t + 2100000
    let s1 := updPartner s num fun p => { p with violTimes := ts, violations := capAt 0xFFFF (p.violations + 1) }
    if ts.length ≥ 16 && p.st != .fenced then fencePartner s1 num ts.length else s1

/-! ## Training (R387, R390, R405, R442) -/

/-- The HELLO toward a partner. -/
def helloFrame (s : State) (c : PartnerCfg) : List Byte :=
  frameBytes
    { rev := 0, ty := 0xF0, src := s.cfg.pkg, dst := c.package, tag := 0, seq := 0, addr := 0, spoil := 0, arg := zeros 8
      data := leBytes 2 s.cfg.pkg ++ leBytes 1 3 ++ leBytes 1 6 ++ leBytes 4 s.cfg.gen ++ leBytes 4 s.status.boot ++
        leBytes 2 c.credit ++ zeros 18 }

/-- The record enters Training and sends its HELLO. -/
def startTraining (s : State) (c : PartnerCfg) (path : Nat) : State :=
  let s1 := setPartner s c.num .training
  let s2 := updPartner s1 c.num fun p => { p with trainAt := s.time }
  { s2 with out.frames := (c.num, path, helloFrame s c) :: s2.out.frames }

/-- The record becomes Absent: the partner's inbound lines are freed (R442). -/
def dropPartner (s : State) (num : Nat) : State :=
  let s1 := setPartner s num .absent
  { s1 with rem.inbound := s1.rem.inbound.filter (·.num != num) }

/-- The record becomes Absent, and requests that waited to be sent go on as R389 states. -/
def makeAbsent (s : State) (num : Nat) : State := pump (dropPartner s num) num

/-- A list of tags with `new` beside `old`. -/
def withTwin (old new : Nat) (l : List Nat) : List Nat := if l.contains old then l ++ [new] else l

/-- Whatever waits for the answer of tag `old` waits for that of `new` too. -/
def linkTwin (s : State) (o : OutReq) (new : Nat) : State :=
  let f := withTwin o.tag new
  match o.purpose, o.req with
  | .relay id, _ =>
    { s with rem.inbound := updWhere (fun (x : Inbound) => x.id == id) (fun x => { x with tags := f x.tags }) s.rem.inbound }
  | .store id, _ =>
    updStore s id fun x => { x with tags := if x.tags.contains (o.num, o.tag) then x.tags ++ [(o.num, new)] else x.tags }
  | _, some id =>
    (match getReq s id with
     | some r =>
       let s1 := setReq s { r with pass := { r.pass with sent := f r.pass.sent }, writes := f r.writes
                                   effects := r.effects.map (mapNeeds f) }
       mapEntryNeeds s1 r f
     | none => s)
  | _, none => s

/-- Bytes that a request carries or asks for. -/
def bytesOf (o : OutReq) : Nat := if o.ty == 1 then o.rlen else o.payload.length

/-- The part of a request at address `a`, of `n` bytes. -/
def partOf (o : OutReq) (tag a n : Nat) : OutReq :=
  let k := a - o.addr
  let body := ((markPayload o.spoil o.payload).drop k).take n
  { o with tag := tag, addr := a, payload := body.map Prod.fst, spoil := spoilBits body
           arg := if o.ty == 1 then leBytes 4 n ++ zeros 4 else o.arg, rlen := if o.ty == 1 then n else 0, lines := ceilDiv n 256
           purpose := match o.purpose with
             | .read addr _ => .read (addr + k) n
             | .loopTest h w line => .loopTest h w (line + k / 256)
             | x => x }

/-- A request of more than 2,048 B goes to a revision-2 partner as two (R406): the first part keeps the tag. -/
def splitOut (s : State) (o : OutReq) : State :=
  match remoteCuts 2048 3 o.addr (bytesOf o), getPartner s o.num with
  | first :: rest, some p =>
    if bytesOf o ≤ 2048 then s
    else
      let s1 := updOut s o.num o.tag fun _ => partOf o o.tag first.1 first.2
      (rest.zipIdx).foldl (fun s x =>
        let tag := (p.nextTag + x.2) % 2 ^ 32
        let s2 := updPartner s o.num fun p => { p with nextTag := (tag + 1) % 2 ^ 32 }
        let s3 := { s2 with rem.outReqs := s2.rem.outReqs ++ [partOf o tag x.1.1 x.1.2] }
        linkTwin (o.segs.foldl (addInflight true) s3) o tag) s1
  | _, _ => s

/-- A request that the partner's revision or profiles do not admit: the status with which it ends (R401, R406). -/
def outBars (p : Partner) (o : OutReq) : Option Nat :=
  match o.ty with
  | 3 => if atomicBars p (fieldAt o.arg 0 1) (bit (fieldAt o.arg 1 1) 1) then some stUnitAbsent else none
  | 4 => chunkBars p (fieldAt o.arg 6 1) (fieldAt o.arg 7 1)
  | _ => none

/-- An outstanding request meets what HELLO has told of the partner (R401, R406). -/
def refitOut (s : State) (o : OutReq) : State :=
  match getPartner s o.num with
  | none => s
  | some p => match outBars p o with
    | some st => outFailed s o st
    | none => if p.rev == 2 then splitOut s o else s

/-- After Training both SEQ directions start at 1 with nothing sent or applied (R390, R442), and what waited may be sent. -/
def becomeActive (s : State) (num : Nat) : State :=
  let s1 := setPartner s num .active
  let s2 := updPartner s1 num fun p =>
    { p with txSeq := 1, rxH := 0, rxAbove := [], retained := [], okRun := 0, badPath := none, wakeUntil := none, bankWake := false }
  let anew := fun (o : OutReq) => { o with seq := none, onWire := false }
  let s3 := { s2 with rem.outReqs := updWhere (fun (o : OutReq) => o.num == num) anew s2.rem.outReqs }
  pump ((s3.rem.outReqs.filter (·.num == num)).foldl refitOut s3) num

/-- Index of the path of a record on which a frame arrived. -/
def arrivalPath (c : PartnerCfg) (f : RxFrame) : Option Nat :=
  if c.half == f.half then c.paths.findIdx? fun p => p.1 == f.lc.val && p.2 == f.port.val else none

/-- Checks of a HELLO other than MAXREV and PKG (R405): no value is asked of TAG and SPOIL. -/
def helloForm (s : State) (c : PartnerCfg) (f : Frame) : Bool :=
  f.rev == 0 && f.src == c.package && f.dst == s.cfg.pkg && f.data.length == 32 && f.seq == 0 && f.addr == 0 &&
    !anyNonZero f.arg && fieldAt f.data 0 2 < 2 ^ 14 && fieldAt f.data 3 1 % 2 == 0 && fieldAt f.data 3 1 < 8 &&
    !anyNonZero (f.data.drop 14)

/-- What a valid HELLO records; a difference in GEN is reported by FV_REM_STATUS, which shows it (R405). -/
def recordHello (d : List Byte) (p : Partner) : Partner :=
  { p with rev := min 3 (fieldAt d 2 1), profiles := fieldAt d 3 1, gen := fieldAt d 4 4, boot := some (fieldAt d 8 4)
           credit := fieldAt d 12 2 }

/-- A HELLO is checked in Training (R387). -/
def checkHello (s : State) (c : PartnerCfg) (f : Frame) : State :=
  if fieldAt f.data 0 2 != c.package || fieldAt f.data 2 1 < 2 then makeAbsent s c.num
  else if helloForm s c f then becomeActive (updPartner s c.num (recordHello f.data)) c.num
  else s

/-- mc of the 10 ms within which Training must end (R387). -/
def trainingTime : Nat := 21000000

/-- A frame that reaches a Fenced record is dropped and counted. -/
def countDrop (s : State) (num : Nat) : State :=
  updPartner s num fun p => { p with fencedDrops := capAt 0xFFFF (p.fencedDrops + 1) }

/-- A HELLO starts Training, by which it is checked. -/
def trainBy (s : State) (c : PartnerCfg) (path : Nat) (f : Frame) : State :=
  pump (checkHello (startTraining s c path) c f) c.num

/-- A HELLO of record `c` on path `path`. A frame whose CRC fails is not acted on (R384). -/
def takeHello (s : State) (c : PartnerCfg) (path : Nat) (bs : List Byte) : State :=
  match getPartner s c.num, parseFrame bs with
  | some p, f? =>
    if p.st == .fenced then countDrop s c.num
    else (match f? with
      | none => s
      | some f =>
        match p.st with
        | .absent => trainBy s c path f
        | .training =>
          if s.time ≤ p.trainAt + trainingTime then checkHello s c f else trainBy (dropPartner s c.num) c path f
        | _ =>
          if !(helloForm s c f && fieldAt f.data 0 2 == c.package && fieldAt f.data 2 1 ≥ 2) then s
          else if p.boot == some (fieldAt f.data 8 4) then pump (updPartner s c.num (recordHello f.data)) c.num
          else trainBy (dropPartner s c.num) c path f)
  | none, _ => s

/-- The record whose HELLO a frame is: that of SRC when the frame came on a path of it, else the direct record of the path, for which it
is a HELLO with another package ID (R387), else that of SRC. -/
def helloRecord (s : State) (f : RxFrame) : Option PartnerCfg :=
  let named := recordOf s (fieldAt f.bytes 2 2 % 2 ^ 14)
  match named.filter fun c => (arrivalPath c f).isSome, s.cfg.partners.find? fun c => !c.routed && (arrivalPath c f).isSome with
  | some c, _ => some c
  | none, some c => some c
  | none, none => named

/-- The remote ports of the half receive frames: Run, no half reset, and remote traffic present (R11). -/
def remoteOn (s : State) (h : Half) : Bool := running s && !s.halfReset.get h && s.fuses.grade != .c && !s.status.maint

/-! ## Inbound requests: form (R394, R398, R406) -/

/-- Inbound lines of a request (R398). -/
def inboundLines (f : Frame) : Nat :=
  if f.ty == 1 then ceilDiv (fieldAt f.arg 0 4) 256
  else if f.ty == 3 || f.data.isEmpty then 1 else ceilDiv f.data.length 256

def offsetOf (f : Frame) : Nat := f.addr % 2 ^ 38

/-- Bytes that a request reaches from its offset on. -/
def reachOf (f : Frame) : Nat :=
  if f.ty == 1 then fieldAt f.arg 0 4
  else if f.ty == 3 then (if bit (fieldAt f.arg 1 1) 0 then 8 else 4)
  else f.data.length

/-- LEN and ARG agree with the table "Transaction types", with no reserved bit set. -/
def formOk (f : Frame) : Bool :=
  match f.ty with
  | 1 => f.data.isEmpty && 1 ≤ fieldAt f.arg 0 4 && fieldAt f.arg 0 4 ≤ 4096 && fieldAt f.arg 4 4 == 0 && f.seq == 0
  | 2 => 1 ≤ f.data.length && f.data.length ≤ 4096 && !anyNonZero f.arg
  | 3 => f.data.length == 16 && fieldAt f.arg 1 1 < 4 && fieldAt f.arg 2 6 == 0
  | 4 => 1 ≤ f.data.length && f.data.length ≤ 4096 && fieldAt f.arg 4 2 < 2 ^ 14
  | 5 => f.data.isEmpty && 1 ≤ fieldAt f.arg 0 4 && fieldAt f.arg 4 4 == 0
  | _ => false

/-- A feature that a revision-2 partner does not have (R406). -/
def rev3Only (f : Frame) : Bool :=
  f.data.length > 2048 || (f.ty == 1 && fieldAt f.arg 0 4 > 2048) ||
    (f.ty == 3 && bit (fieldAt f.arg 1 1) 1 && (fieldAt f.arg 0 1 == 1 || fieldAt f.arg 0 1 == 2)) ||
    (f.ty == 4 && (fieldAt f.arg 6 1 == 2 || fieldAt f.arg 6 1 == 3 || fieldAt f.arg 7 1 == 2))

/-- How a SEQ stands to h (R391): 1 to w above it, at or below it, or out of the window. -/
inductive SeqPlace where
  | inside
  | below
  | outside
  deriving DecidableEq, Repr

def seqPlace (p : Partner) (seq : Nat) : SeqPlace :=
  let d := sub32b seq p.rxH
  if 1 ≤ d && d ≤ windowOfRec p then .inside else if d == 0 || d ≥ 2 ^ 31 then .below else .outside

/-- Lines that the partner's waiting requests hold. -/
def heldLines (s : State) (num : Nat) : Nat :=
  ((s.rem.inbound.filter (·.num == num)).map fun x => ((parseFrame x.frame.bytes).map inboundLines).getD 0).foldl (· + ·) 0

/-- The request is malformed (R394). -/
def malformed (s : State) (c : PartnerCfg) (p : Partner) (x : RxFrame) (f : Frame) : Bool :=
  f.src ≥ 2 ^ 14 || f.dst != s.cfg.pkg || (arrivalPath c x).isNone || f.rev != p.rev || !formOk f ||
    (f.ty != 5 && offsetOf f % 4096 + reachOf f > 4096) || (p.rev == 2 && rev3Only f) ||
    (isWriteClass f.ty && seqPlace p f.seq == .outside) || heldLines s c.num + inboundLines f > c.credit

/-! ## Answers -/

/-- The response to a request, with a status and its data. -/
def responseBytes (s : State) (c : PartnerCfg) (p : Partner) (f : Frame) (status : Nat) (data : List SByte) : List Byte :=
  frameBytes
    { rev := p.rev, ty := f.ty + 0x80, src := s.cfg.pkg, dst := c.package, tag := f.tag, seq := f.seq, addr := 0
      spoil := spoilBits data, arg := leBytes 2 status ++ zeros 6, data := data.map Prod.fst }

/-- h rises past every SEQ that has been applied (R391). -/
def advanceH : Nat → Partner → Partner
  | 0, p => p
  | n + 1, p =>
    let k := (p.rxH + 1) % 2 ^ 32
    if p.rxAbove.contains k then advanceH n { p with rxH := k, rxAbove := p.rxAbove.filter (· != k) } else p

/-- A write-class request has been applied: its response is retained in the window. -/
def keepResponse (seq : Nat) (bs : List Byte) (p : Partner) : Partner :=
  let q := advanceH (p.rxAbove.length + 1) { p with rxAbove := p.rxAbove ++ [seq] }
  { q with retained := (p.retained ++ [(seq, bs)]).filter fun x => sub32b q.rxH x.1 < windowOfRec q || sub32b q.rxH x.1 ≥ 2 ^ 31 }

/-- The response is sent on the path on which the request came. -/
def respond (s : State) (c : PartnerCfg) (path : Nat) (f : Frame) (status : Nat) (data : List SByte) : State :=
  match getPartner s c.num with
  | none => s
  | some p =>
    let bs := responseBytes s c p f status data
    let s1 := if isWriteClass f.ty then updPartner s c.num (keepResponse f.seq bs) else s
    { s1 with out.frames := (c.num, path, bs) :: s1.out.frames }

/-! ## Exports (R395, R396) -/

/-- What becomes of a well-formed request: an answer, with a violation or none, or a wait. -/
inductive InRes where
  | reply (s : State) (status : Nat) (data : List SByte) (viol : Bool)
  | hold (s : State) (x : Inbound)

/-- The failing check of the table "Export checks", in its order. -/
def exportFails (s : State) (c : PartnerCfg) (e : ExportCfg) (f : Frame) : Option Nat :=
  match exportBars s c.package e f.ty (offsetOf f) (reachOf f) with
  | some st => some st
  | none => if f.ty == 3 && (offsetOf f % reachOf f != 0 || fieldAt f.arg 0 1 > 4) then some stBadProgram else none

/-! ## Ledger of inbound writes (R418, R425) -/

/-- The INBOUND entry of a stream with a status (table "Ledger entry"). -/
def inboundEntry (s : State) (c : PartnerCfg) (x : InStream) (status : Nat) : List Byte :=
  let stream := (x.parts.map Prod.snd).flatten
  let seqs := x.parts.map Prod.fst
  leBytes 1 2 ++ leBytes 1 (profileOf s x.ctx) ++ leBytes 1 (bit01 x.spoiled) ++ zeros 1 ++ leBytes 4 s.cfg.gen ++ zeros 12 ++
    leBytes 1 x.ctx ++ leBytes 1 (partOfCtx s x.ctx) ++ zeros 2 ++ leBytes 4 x.num ++ leBytes 2 status ++ zeros 2 ++ zeros 32 ++ zeros 64 ++
    digestTree stream ++ zeros 32 ++ leBytes 8 stream.length ++ zeros 8 ++ leBytes 8 c.package ++
    leBytes 8 (seqs.headD 0) ++ leBytes 8 (seqs.getLastD 0) ++ zeros 24

/-- The stream of a record and context closes; the updates `release` wait for its entry. -/
def closeStream (s : State) (c : PartnerCfg) (x : InStream) (status : Nat) (release : List (Nat × Nat × Nat × Half)) : State :=
  let e : LedEntry :=
    { kind := 2, bytes := inboundEntry s c x status, req := none, needs := [], upto := 0, inbound := some (c.num, x.ctx)
      release := release, closed := none, half := c.half, haul := 128, held := false }
  let s1 := { s with rem.inStreams := s.rem.inStreams.filter fun y => !(y.num == x.num && y.ctx == x.ctx) }
  addEntry s1 (partOfCtx s x.ctx) e

def streamOf (s : State) (num ctx : Nat) : InStream :=
  (s.rem.inStreams.find? fun x => x.num == num && x.ctx == ctx).getD { num := num, ctx := ctx, parts := [], spoiled := false }

/-- A transaction takes its place among others in SEQ order, SEQs being compared as they wrap. -/
def insertSeq (seq : Nat) (bs : List Byte) : List (Nat × List Byte) → List (Nat × List Byte)
  | [] => [(seq, bs)]
  | y :: ys => if sub32b y.1 seq < 2 ^ 31 then (seq, bs) :: y :: ys else y :: insertSeq seq bs ys

/-- A write that reaches LEDGERED segments joins its stream, in SEQ order; 4,096 transactions close it. -/
def streamWrite (s : State) (c : PartnerCfg) (e : ExportCfg) (f : Frame) : State :=
  let x := streamOf s c.num e.owner
  let bytes := leBytes 8 (e.id * 2 ^ 54 + offsetOf f) ++ f.data
  let y := { x with parts := insertSeq f.seq bytes x.parts, spoiled := x.spoiled || f.spoil != 0 }
  if y.parts.length ≥ 4096 then closeStream s c y 0 []
  else { s with rem.inStreams := (s.rem.inStreams.filter fun z => !(z.num == c.num && z.ctx == e.owner)) ++ [y] }

/-- An entry of the partner waits that the partition's ledger queue could not take, or cannot take now (R425). -/
def ledgerHolds (s : State) (num p : Nat) : Bool :=
  (getLedger s p).waiting.any fun e => (e.held || !ledgerRoom s p) && (match e.inbound with
    | some (n, _) => n == num
    | none => false)

/-- Some piece lies in a LEDGERED segment. -/
def anyLedgered (s : State) (ctx : Nat) (ps : List Piece) : Bool :=
  ledgered s ctx && ps.any fun p => ((getSeg s ctx p.slot).map (·.cfg.led)).getD false

/-! ## Carrying out (R396) -/

def inboundRight (ty : Nat) : Right := if ty == 1 then .r else if ty == 2 then .w else .a

/-- A request whose export reaches another package: asked there once, then answered; a feature that a revision-2 partner lacks ends it
before sending (R406). Its bytes join the ledger's stream with the answer
(R418). -/
def relayOut (s : State) (c0 : PartnerCfg) (e0 : ExportCfg) (x : Inbound) (f : Frame) (p : Piece) : InRes :=
  let ctx := e0.owner
  let led := isWriteClass f.ty && anyLedgered s ctx [p]
  if led && ledgerHolds s c0.num (partOfCtx s ctx) then .hold s x
  else if x.sent then
    if !x.tags.isEmpty then .hold s x
    else
      let data := if x.status != stOk then [] else (sortBy Prod.fst x.data).map Prod.snd
      .reply (if led && x.status == stOk then streamWrite s c0 e0 f else s) x.status data false
  else match p.pkg.bind (recordOf s) with
    | none => .reply s stPartnerFenced [] false
    | some c =>
      if pieceFenced s p then .reply s stPartnerFenced [] false
      else if f.ty == 3 && ((getPartner s c.num).map fun q => isUp q && atomicBars q (fieldAt f.arg 0 1) (bit (fieldAt f.arg 1 1) 1)).getD false then
        .reply s stUnitAbsent [] false
      else
        let cuts := if f.ty == 3 then [(p.addr, p.len)] else pieceCuts s p
        let step := fun (acc : State × List Nat) (cut : Nat × Nat) =>
          let part := if f.ty == 2 then ((markPayload f.spoil f.data).drop (cut.1 - p.addr)).take cut.2
            else if f.ty == 3 then good f.data else []
          let r := newRemote acc.1 c.num
            { ty := f.ty, purpose := .relay x.id, req := none, word := 0, addr := localOf cut.1, payload := part
              arg := if f.ty == 1 then leBytes 4 cut.2 ++ zeros 4 else f.arg, rlen := if f.ty == 1 then cut.2 else 0
              segs := touched ctx [p] }
          (r.1, acc.2 ++ [r.2])
        let (s1, tags) := cuts.foldl step (s, [])
        .hold s1 { x with sent := true, tags := tags }

/-- The lines of an inbound request: of the remote class, with the priority of the export (R306, R316). -/
def inboundLinesAt (s : State) (c : PartnerCfg) (e : ExportCfg) (f : Frame) (ps : List Piece) : State :=
  let asks := match f.ty with
    | 1 => pieceAsks s
    | 2 => storedAsks s
    | _ => targetAsks s
  addOthers s (.partner c.num) e.priority fun n => linesOfAsks s (f.ty != 1) .remote none (touched e.owner ps) n (ps.flatMap asks)

/-- The memory part of an inbound request on a local piece list. It is answered in its step (assumption 8). -/
def memoryAct (s : State) (c : PartnerCfg) (e : ExportCfg) (x : Inbound) (f : Frame) (ps : List Piece) : InRes :=
  let led := isWriteClass f.ty && anyLedgered s e.owner ps
  if led && ledgerHolds s c.num (partOfCtx s e.owner) then .hold s x
  else if anyUnreachable s ps then .reply s stQuenched [] false
  else
    let s0 := inboundLinesAt (if led then streamWrite s c e f else s) c e f ps
    match f.ty with
    | 1 => .reply (touchBlocks s0 e.owner ps) stOk (readPieces s0 ps) false
    | 2 => .reply (touchBlocks (writePieces .remote e.owner s0 ps (markPayload f.spoil f.data)) e.owner ps) stOk [] false
    | _ =>
      match ps with
      | p :: _ =>
        let old := readLocal s0 p.key p.addr p.len
        let mark := anyMark old
        let n := p.len
        let new := atomicValue (fieldAt f.arg 0 1) n (bit (fieldAt f.arg 1 1) 1) (leVal (old.map Prod.fst))
          (fieldAt f.data 0 8 % 2 ^ (8 * n)) (fieldAt f.data 8 8 % 2 ^ (8 * n))
        let s1 := match new with
          | some v => writeAtomic s0 e.owner p ((leBytes n v).map fun b => (b, mark))
          | none => s0
        .reply s1 stOk (old ++ (zeros (8 - n)).map fun b => (b, mark)) false
      | [] => .reply s0 stSegmentBound [] false

/-- A request for memory: one billet of the export's owner (R333, R334, R347). -/
def memoryRequest (s : State) (c : PartnerCfg) (e : ExportCfg) (va : Nat) (x : Inbound) (f : Frame) : InRes :=
  match translate s e.owner [(va + offsetOf f, reachOf f, inboundRight f.ty)] with
  | .bound => .reply s stSegmentBound [] false
  | .nowhere _ => .reply s stSegmentBound [] false
  | .rights => .reply s stRights [] false
  | .absent _ => .reply s stFaultUnresolved [] false
  | .held _ _ => .hold s x
  | .ok ps =>
    let s := ps.foldl wakePiece s
    match ps with
    | p :: _ =>
      if p.pkg.isSome then relayOut s c e x f p
      else if f.ty == 3 then
        match hostBlock s e.owner [p] with
        | some b =>
          if x.tried then
            (if ((getSeg s e.owner b.1).map fun g => promoting g b.2).getD false then .hold s x else .reply s stFaultUnresolved [] false)
          else .hold (startPromotion s e.owner b.1 b.2) { x with tried := true }
        | none => memoryAct s c e x f ps
      else memoryAct s c e x f ps
    | [] => .reply s stSegmentBound [] false

/-- An INBOUND entry of the record and context that is not yet written. -/
def entryOfStream (num ctx : Nat) (e : LedEntry) : Bool := e.inbound == some (num, ctx)

/-- An update waits for the last INBOUND entry of the record and context. -/
def waitForEntry (s : State) (num ctx : Nat) (u : Nat × Nat × Nat × Half) : State :=
  let last := fun (l : List LedEntry) => l.length - 1 - l.reverse.findIdx (entryOfStream num ctx)
  updLedger s (partOfCtx s ctx) fun l => { l with waiting := l.waiting.modify (last l.waiting) fun e => { e with release := e.release ++ [u] } }

/-- An accepted RSIGNAL (R365, R418): the update waits for the entry that it closes, or for one that is closed and not yet written. -/
def signalRequest (s : State) (c : PartnerCfg) (e : ExportCfg) (vid : Nat) (half : Half) (f : Frame) : InRes :=
  match vEntry s e.owner vid with
  | .loc ctr _ _ =>
    let n := fieldAt f.arg 0 4
    let x := streamOf s c.num e.owner
    let u := (ctr, n, genOf s ctr, half)
    if !x.parts.isEmpty then .reply (closeStream s c x 0 [u]) stOk [] false
    else if (getLedger s (partOfCtx s e.owner)).waiting.any (entryOfStream c.num e.owner) then
      .reply (waitForEntry s c.num e.owner u) stOk [] false
    else .reply (sendUpdate s ctr n u.2.2.1 half (s.time + releaseDelay ctr half)) stOk [] false
  | _ => .reply s stRights [] false

/-- An inbound chunk (R402). -/
def reduceRequest (s : State) (c : PartnerCfg) (e : ExportCfg) (f : Frame) : InRes :=
  let (s1, st, v) := chunkAtHome s e (fieldAt f.arg 6 1)
    { sender := c.package, profile := fieldAt f.arg 7 1, epoch := fieldAt f.arg 0 4, rank := fieldAt f.arg 4 2, off := offsetOf f
      data := markPayload f.spoil f.data }
  .reply s1 st [] v

/-- A well-formed request carried out. -/
def carryOut (s : State) (c : PartnerCfg) (x : Inbound) (f : Frame) : InRes :=
  match exportCfg s (f.addr / 2 ^ 38) with
  | none => .reply s stRights [] true
  | some e =>
    if ownerQuenched s e.owner then .reply s stQuenched [] false
    else match exportFails s c e f with
      | some st => .reply s st [] true
      | none =>
        match e.target with
        | .memory va _ => memoryRequest s c e va x f
        | .counter vid => signalRequest s c e vid x.frame.half f
        | .reduction _ => reduceRequest s c e f

/-- A well-formed request: answered, or held behind the earlier ones. -/
def serve (s : State) (x : Inbound) : State :=
  match partnerCfg s x.num, parseFrame x.frame.bytes with
  | some c, some f =>
    match carryOut s c x f with
    | .reply s1 st data v =>
      let s2 := respond s1 c ((arrivalPath c x.frame).getD 0) f st data
      if v then violate s2 c.num else s2
    | .hold s1 y => { s1 with rem.inbound := s1.rem.inbound ++ [y] }
  | _, _ => s

/-- Inbound requests that wait are tried again, oldest first. -/
def retryInbound (s : State) : State :=
  (s.rem.inbound).foldl (fun s x =>
    match s.rem.inbound.find? fun y => y.id == x.id with
    | some y => serve { s with rem.inbound := s.rem.inbound.filter fun z => z.id != x.id } y
    | none => s) s

/-- Inbound requests whose answers from another package have all come, or have failed with that package's record (R397), are answered. -/
def settleRelays : Nat → State → State
  | 0, s => s
  | n + 1, s => if s.rem.inbound.any fun x => x.sent && x.tags.isEmpty then settleRelays n (retryInbound s) else s

/-- The answer of a command whose effect may have ended requests that other packages' requests wait for. -/
def answerRelays (s0 s : State) : Result := answer s0 (settleRelays 2 s)

/-- A frame reaches a remote port: a half in Glow wakes and serves it by `serveIt`; while a brownout hold keeps the half in Glow the frame
waits in the port's receive queue (R475, R529). -/
def frameBeat (serveIt : State → RxFrame → State) (s : State) (f : RxFrame) : State :=
  if !remoteOn s f.half then s
  else
    let s1 := noteBusy (wakeHalf s f.half) f.half
    if s1.power.glow.get f.half then { s1 with rem.rxQueue := s1.rem.rxQueue ++ [f] } else serveIt s1 f

/-- A frame of TYPE HELLO. -/
def helloArrives (s : State) (f : RxFrame) : State :=
  match helloRecord s f with
  | none => s
  | some c =>
    match arrivalPath c f, getPartner s c.num with
    | some path, _ => settleRelays 2 (takeHello s c path f.bytes)
    | none, some p => if p.st == .fenced then countDrop s c.num else s
    | none, none => s

/-- HELLO. -/
def execHello (t : Mc) (f : RxFrame) (s : State) : Result :=
  let s1 := atTime s t
  answer s (if frameType f.bytes == 0xF0 then frameBeat helloArrives s1 f else s1)

/-- The same request, or the same SEQ, is already being served. -/
def alreadyHeld (s : State) (num : Nat) (f : Frame) : Bool :=
  s.rem.inbound.any fun x => x.num == num && (match parseFrame x.frame.bytes with
    | some g => g.tag == f.tag || (isWriteClass f.ty && isWriteClass g.ty && g.seq == f.seq)
    | none => false)

/-- A frame of a record that is Active or Slow. -/
def takeRequest (s : State) (c : PartnerCfg) (p : Partner) (x : RxFrame) : State :=
  match parseFrame x.bytes with
  | none => violate s c.num
  | some f =>
    if malformed s c p x f then violate s c.num
    else if isWriteClass f.ty && (seqPlace p f.seq == .below || p.rxAbove.contains f.seq) then
      match p.retained.find? fun r => r.1 == f.seq with
      | some r => { s with out.frames := (c.num, (arrivalPath c x).getD 0, r.2) :: s.out.frames }
      | none => s
    else if alreadyHeld s c.num f then s
    else
      serve { s with rem.nextIn := s.rem.nextIn + 1 }
        { id := s.rem.nextIn, num := c.num, frame := x, sent := false, tags := [], data := [], status := stOk, tried := false }

/-- A TYPE of the tables of this class other than `ty`. -/
def otherType (ty t : Nat) : Bool := t != ty && ((1 ≤ t && t ≤ 5) || (0x81 ≤ t && t ≤ 0x85) || t == 0xF0)

/-- An inbound request frame, or one of no known TYPE (R387, R394). -/
def requestFrame (s : State) (f : RxFrame) : State :=
  match recordOf s (fieldAt f.bytes 2 2 % 2 ^ 14) with
  | none => { s with rem.unknownSrc := s.rem.unknownSrc.set f.half (capAt 0xFFFFFFFF (s.rem.unknownSrc.get f.half + 1)) }
  | some c =>
    match getPartner s c.num with
    | none => s
    | some p =>
      match p.st with
      | .fenced => countDrop s c.num
      | .absent => s
      | .training => s
      | _ => settleRelays 2 (takeRequest s c p f)

/-- A frame that the row of TYPE `ty` brings. -/
def receive (t : Mc) (ty : Nat) (f : RxFrame) (s : State) : Result :=
  let s1 := atTime s t
  answer s (if otherType ty (frameType f.bytes) then s1 else frameBeat requestFrame s1 f)

/-- RREAD. -/
def execRread (t : Mc) (f : RxFrame) (s : State) : Result := receive t 1 f s

/-- RWRITE. -/
def execRwrite (t : Mc) (f : RxFrame) (s : State) : Result := receive t 2 f s

/-- RATOMIC. -/
def execRatomic (t : Mc) (f : RxFrame) (s : State) : Result := receive t 3 f s

/-- RREDUCE. -/
def execRreduce (t : Mc) (f : RxFrame) (s : State) : Result := receive t 4 f s

/-- RSIGNAL. -/
def execRsignal (t : Mc) (f : RxFrame) (s : State) : Result := receive t 5 f s

/-! ## Responses (R393) -/

/-- What every response must have, whatever it answers. -/
def responseForm (s : State) (c : PartnerCfg) (p : Partner) (x : RxFrame) (f : Frame) : Bool :=
  f.src == c.package && f.dst == s.cfg.pkg && (arrivalPath c x).isSome && f.rev == p.rev && 0x81 ≤ f.ty && f.ty ≤ 0x85 &&
    f.addr == 0 && fieldAt f.arg 2 6 == 0

/-- TYPE, LEN and SEQ agree with a request of TYPE `ty`. -/
def answersReq (ty rlen seq : Nat) (f : Frame) : Bool :=
  let ok := fieldAt f.arg 0 2 == stOk
  let len := if ty == 1 then (if ok then rlen else 0) else if ty == 3 then (if ok then 8 else 0) else 0
  f.ty == ty + 0x80 && f.data.length == len && f.seq == (if ty == 1 then 0 else seq)

/-- A transaction of a chunk has been accepted: with the last one of its 4 KiB the REDUCE may go on. -/
def chunkAnswered (r : Request) (tag : Nat) : Request :=
  let left := r.pass.sent.filter (· != tag)
  { r with pass := { r.pass with sent := left, done := if left.isEmpty then r.pass.done + 1 else r.pass.done } }

/-- A request's remote bytes arrive. -/
def readArrived (s : State) (id tag addr : Nat) (bs : List SByte) : State :=
  match getReq s id with
  | some r =>
    setReq s { r with rdata := r.rdata ++ (bs.zipIdx).map (fun x => (addr + x.2, x.1)), pass := { r.pass with sent := r.pass.sent.filter (· != tag) } }
  | none => s

/-- A request whose response is OK. -/
def outAnswered (s : State) (o : OutReq) (f : Frame) : State :=
  let s0 := dropOut s o.num o.tag
  let s1 := match o.req with
    | some id => noteActive s0 id
    | none => s0
  let data := markPayload f.spoil f.data
  match o.purpose, o.req with
  | .read addr _, some id => readArrived s1 id o.tag addr data
  | .atomic, some id =>
    (match getReq s1 id with
     | some r => setReq s1 { r with answer := some (stOk, f.data, anyMark data), pass := { r.pass with sent := [] } }
     | none => s1)
  | .reduce, some id =>
    (match getReq s1 id with
     | some r => setReq s1 (chunkAnswered r o.tag)
     | none => s1)
  | .write, some id => writeAnswered s1 id o.tag
  | .signal, some id => writeAnswered s1 id o.tag
  | .loopTest run w line, _ => if ofThisTest s run then groupAnswered s1 w line data else s1
  | .store id, _ => storeAnswered s1 id o.num o.tag
  | .relay id, _ => retryInbound (relayDone s1 id o.tag stOk ((data.zipIdx).map fun x => (o.addr + x.2, x.1)))
  | _, _ => s1

/-- A late chunk's PARTNER_TIMEOUT continues its request; every other failing status ends it (R392). -/
def outRefused (s : State) (o : OutReq) (status : Nat) : State :=
  match o.purpose, o.req, status == stPartnerTimeout with
  | .reduce, some id, true =>
    let s1 := dropOut s o.num o.tag
    (match getReq s1 id with
     | some r => setReq s1 (chunkAnswered (noteCause r stPartnerTimeout) o.tag)
     | none => s1)
  | .relay _, _, _ => retryInbound (outFailed s o status)
  | _, _, _ => outFailed s o status

/-- 256 consecutive responses return a Slow record to Active (R387). -/
def countOk (s : State) (num : Nat) : State :=
  match getPartner s num with
  | some p =>
    if p.st == .slow && p.okRun + 1 ≥ 256 then setPartner (updPartner s num fun p => { p with okRun := 0 }) num .active
    else updPartner s num fun p => { p with okRun := if p.st == .slow then p.okRun + 1 else 0 }
  | none => s

/-- A response of a record that is Active or Slow. -/
def takeResponse (s : State) (c : PartnerCfg) (p : Partner) (x : RxFrame) : State :=
  match parseFrame x.bytes with
  | none => violate s c.num
  | some f =>
    if !responseForm s c p x f then violate s c.num
    else match s.rem.outReqs.find? fun o => o.num == c.num && o.tag == f.tag && o.attempts > 0 with
      | some o =>
        if !answersReq o.ty o.rlen (o.seq.getD 0) f then violate s c.num
        else
          let s1 := countOk s c.num
          let st := fieldAt f.arg 0 2
          pump (if st == stOk then outAnswered s1 o f else outRefused s1 o st) c.num
      | none =>
        if p.recent.any fun r => r.tag == f.tag && s.time < r.ended + 2100000 && answersReq r.ty r.rlen r.seq f then
          updPartner s c.num fun p => { p with late := capAt 0xFFFF (p.late + 1) }
        else violate s c.num

/-- A frame of TYPE RESPONSE reaches a remote port (R387, R393). -/
def responseFrame (s : State) (f : RxFrame) : State :=
  let ty := frameType f.bytes
  if ty < 0x81 || ty > 0x85 then s
  else match recordOf s (fieldAt f.bytes 2 2 % 2 ^ 14) with
    | none => s
    | some c =>
      match getPartner s c.num with
      | none => s
      | some p =>
        match p.st with
        | .fenced => countDrop s c.num
        | .absent => s
        | .training => s
        | _ => settleRelays 2 (takeResponse s c p f)

/-- RESPONSE. -/
def execResponse (t : Mc) (f : RxFrame) (s : State) : Result :=
  let s1 := atTime s t
  answer s (if 0x81 ≤ frameType f.bytes && frameType f.bytes ≤ 0x85 then frameBeat responseFrame s1 f else s1)

/-- A frame of any TYPE is served. -/
def anyFrame (s : State) (f : RxFrame) : State :=
  let ty := frameType f.bytes
  if ty == 0xF0 then helloArrives s f
  else if 0x81 ≤ ty && ty ≤ 0x85 then responseFrame s f
  else requestFrame s f

/-- A half is in Run again after a brownout hold: the frames in its receive queues are served in order (R529). -/
def serveQueued (s : State) (h : Half) : State :=
  let mine := s.rem.rxQueue.filter (·.half == h)
  mine.foldl anyFrame { s with rem.rxQueue := s.rem.rxQueue.filter (·.half != h) }

/-! ## Timeouts, links, wake (R387 to R389, R407) -/

/-- A request without a valid response after four attempts (R392). -/
def outTimedOut (s : State) (o : OutReq) : State :=
  match o.purpose, o.req with
  | .read addr len, some id =>
    let s1 := dropOut s o.num o.tag
    let s2 := match getReq s1 id with
      | some r => setReq s1 (noteCause r stPartnerTimeout)
      | none => s1
    readArrived s2 id o.tag addr ((List.range len).map fun i => (Config.unreadByte s.time (addr + i), true))
  | .loopTest run _ line, _ =>
    let s1 := dropOut s o.num o.tag
    if ofThisTest s run then groupLost s1 line else s1
  | .relay _, _ => retryInbound (outFailed s o stPartnerTimeout)
  | _, _ => outFailed s o stPartnerTimeout

/-- ATTEMPT_TIMEOUT (R388). -/
def execAttemptTimeout (t : Mc) (rec : Fin 1088) (tag : BitVec 32) (s : State) : Result :=
  match partnerCfg s rec.val, outReq s rec.val tag.toNat with
  | some c, some o =>
    if !running s || o.waiting || o.attempts == 0 || s.halfReset.get c.half then answer s (atTime s t)
    else
      let s1 := atTime s (max t (o.sentAt + mcOf c.timeout))
      let s2 := updPartner s1 c.num fun p =>
        { p with timeouts := capAt 0xFFFF (p.timeouts + 1), okRun := 0, badPath := some o.path }
      let s3 := if ((getPartner s2 c.num).map fun p => p.st == .active).getD false then setPartner s2 c.num .slow else s2
      if o.attempts < 4 then answer s (retryOut s3 c.num o.tag) else answerRelays s (pump (outTimedOut s3 o) c.num)
  | _, _ => answer s (atTime s t)

def pathIndex (c : PartnerCfg) (h : Half) (l : LinkPort) : Option Nat :=
  if c.half == h then c.paths.findIdx? fun p => p.1 == l.lc.val && p.2 == l.port.val else none

/-- Absent records with a path over the link start Training. -/
def trainOver (h : Half) (l : LinkPort) (s : State) (c : PartnerCfg) : State :=
  match pathIndex c h l, getPartner s c.num with
  | some i, some p => if p.st == .absent then startTraining s c i else s
  | _, _ => s

/-- LINK_UP. -/
def execLinkUp (t : Mc) (half : Half) (link : LinkPort) (s : State) : Result :=
  let s1 := atTime s t
  if !running s1 || s1.fuses.grade == .c then answer s s1
  else
    let s2 := { s1 with rem.links := (s1.rem.links.filter (· != (half, link))) ++ [(half, link)] }
    if s2.halfReset.get half || s2.status.maint then answer s s2 else answer s (s2.cfg.partners.foldl (trainOver half link) s2)

def anyPathUp (s : State) (c : PartnerCfg) : Bool := c.paths.any (pathUp s c)

/-- LINK_DOWN: attempts avoid the path, and the 100 µs of a record without a path begin. -/
def execLinkDown (t : Mc) (half : Half) (link : LinkPort) (s : State) : Result :=
  let s1 := atTime s t
  if !running s1 || !s1.rem.links.contains (half, link) then answer s s1
  else
    let s2 := { s1 with rem.links := s1.rem.links.filter (· != (half, link)) }
    answer s (s2.cfg.partners.foldl (fun s c =>
      if (pathIndex c half link).isSome && !anyPathUp s c then updPartner s c.num fun p => { p with downAt := s.time } else s) s2)

/-- PATH_DOWN: every path has been down for 100 µs (R387). -/
def execPathDown (t : Mc) (rec : Fin 1088) (s : State) : Result :=
  match partnerCfg s rec.val, getPartner s rec.val with
  | some c, some p =>
    if running s && isUp p && !anyPathUp s c && !s.halfReset.get c.half then
      answer s (makeAbsent (atTime s (max t (p.downAt + 210000))) c.num)
    else answer s (atTime s t)
  | _, _ => answer s (atTime s t)

/-- TRAINING_TIMEOUT: 10 ms after the link up (R387). -/
def execTrainingTimeout (t : Mc) (rec : Fin 1088) (s : State) : Result :=
  match getPartner s rec.val with
  | some p =>
    if running s && p.st == .training then answer s (makeAbsent (atTime s (max t (p.trainAt + trainingTime))) rec.val)
    else answer s (atTime s t)
  | none => answer s (atTime s t)

/-- WAKE_ORDERED_SET: sent again every 10 µs while a request waits on an Absent record, up to the wake limit (R407). -/
def execWakeOrderedSet (t : Mc) (rec : Fin 1088) (s : State) : Result :=
  match getPartner s rec.val with
  | some p =>
    let due := max (max t s.time) (p.setAt + 21000)
    let waits := ((partnerCfg s rec.val).bind (·.wake)).isSome && p.wakeUntil.any fun u => due < u
    if running s && p.st == .absent && waits then answer s (sendWakeSet (atTime s due) rec.val) else answer s (atTime s t)
  | none => answer s (atTime s t)

/-- WAKE_LIMIT: what waits goes on as for an Absent record (R389). -/
def execWakeLimit (t : Mc) (rec : Fin 1088) (s : State) : Result :=
  match getPartner s rec.val with
  | some p =>
    (match p.wakeUntil with
     | some u =>
       if running s then
         let s1 := updPartner (atTime s (max t u)) rec.val fun p => { p with wakeUntil := none, bankWake := false }
         let ended := fun (o : OutReq) => if o.wakeWait == some true then { o with wakeWait := some false } else o
         let s2 := { s1 with rem.outReqs := updWhere (fun (o : OutReq) => o.num == rec.val) ended s1.rem.outReqs }
         answer s (pump s2 rec.val)
       else answer s (atTime s t)
     | none => answer s (atTime s t))
  | none => answer s (atTime s t)

/-! ## PARTNER_UNFENCE (R399) -/

def opPartner (e : List Byte) : Nat := fieldAt e 16 2

/-- PARTNER_UNFENCE: a Fenced record of the partition forgets its violations and becomes Absent. -/
def execPartnerUnfence (t : Mc) (p : Fin 16) (s : State) : Result :=
  withAdmin t p 0x0030 s noCtx
    (fun s e =>
      failIf (s.fuses.grade == .c) stUnitAbsent 0x4000 ++
      failIf (opBytes e 18 63) stBadProgram dtReserved ++
      failIf (((partnerCfg s (opPartner e)).map fun c => c.owner != p.val).getD true) stRights dtNotOwned ++
      failIf (((getPartner s (opPartner e)).map fun x => x.st != .fenced).getD true) stBadProgram 0x4020)
    (fun s e =>
      let s1 := updPartner s (opPartner e) fun x => { x with violations := 0, violTimes := [] }
      finishAdmin (makeAbsent s1 (opPartner e)) p.val e stOk 0)

end Sys2Proof.Machine
end

