-- ==== Sys2Proof/Machine/SegAdmin.lean ====
section
/-! DEFINITION. Segment commands, drains and block moves, fault batches and resolution timeouts (R328 to R332, R339 to R345, R349,
R350). -/

namespace Sys2Proof.Machine

/-! ## SEGMENT_CREATE (R330) -/

/-- The segment fields of 48 operand bytes (table "SEGMENT_CREATE operands"). -/
def parseSeg (o : List Byte) : SegCfg :=
  let a := fieldAt o 3 1
  { ctx := fieldAt o 0 1, index := fieldAt o 1 1
    kind := match fieldAt o 2 1 with
      | 1 => .host
      | 2 => .migratable
      | _ => .device
    r := bit a 0, w := bit a 1, a := bit a 2, enc := bit a 3, comp := bit a 4, led := bit a 5, half := halfOfBit (bit a 6)
    absent := bit a 7, start := fieldAt o 8 8, length := fieldAt o 16 8, backing := fieldAt o 24 8, pool := fieldAt o 32 8
    frames := fieldAt o 40 4 }

/-- A reserved byte is non-zero, KIND is reserved, INDEX exceeds 15, or a field of MIGRATABLE is set on another kind. -/
def segReserved (o : List Byte) : Bool :=
  anyNonZero ((o.drop 4).take 4) || anyNonZero ((o.drop 44).take 4) || fieldAt o 2 1 > 2 || fieldAt o 1 1 > 15 ||
    (fieldAt o 2 1 != 2 && (fieldAt o 32 8 != 0 || fieldAt o 40 4 != 0 || bit (fieldAt o 3 1) 7))

def segOverlap (a b : SegCfg) : Bool := a.start < b.start + b.length && b.start < a.start + a.length

/-- START, LENGTH or BACKING fails its alignment or range, or the virtual range meets another segment of the context (0x4012). -/
def segRangeBad (others : List SegCfg) (c : SegCfg) : Bool :=
  let u := if c.kind == .migratable then blockSize else 0x1_0000
  c.start % u != 0 || c.length % u != 0 || c.length < 0x1_0000 || c.length > 2 ^ 48 || c.start + c.length > 2 ^ 57 ||
    c.backing % 0x1_0000 != 0 || others.any fun o => o.ctx == c.ctx && segOverlap o c

def framesMeet (a b : SegCfg) : Bool :=
  a.kind == .migratable && b.kind == .migratable && a.pool < b.pool + b.frames * blockSize && b.pool < a.pool + a.frames * blockSize

/-- Both ends of a local range lie in one window. -/
def rangeWindow (g : Grade) (a n : Nat) : Option Window :=
  match windowOf g a, windowOf g (a + n - 1) with
  | some x, some y => if x == y then some x else none
  | _, _ => none

/-- What the checks read: own package, grade, staging areas, partner packages, partition of a context. -/
structure SegEnv where
  pkg      : Nat
  grade    : Grade
  staging  : List StagingCfg
  packages : List Nat
  part     : Nat
  ledgered : Bool

/-- BACKING, by its window: the failing row among 0x4013 and 0x401A. -/
def backingFails (e : SegEnv) (c : SegCfg) : List (Nat × Nat) :=
  let lo := localOf c.backing
  if pkgOf c.backing != e.pkg then
    failIf (c.kind != .device || lo + c.length > 2 ^ 48 || !e.packages.contains (pkgOf c.backing)) stSegmentBound 0x4013
  else match rangeWindow e.grade lo c.length with
    | none => [(stSegmentBound, 0x4013)]
    | some (.hbm _) => failIf (c.kind != .device) stSegmentBound 0x4013
    | some (.host p) =>
      if c.kind == .device then [(stSegmentBound, 0x4013)] else failIf (p != e.part) stRights 0x401A
    | some (.stock h) =>
      if c.kind != .device then [(stSegmentBound, 0x4013)]
      else match e.staging.find? (·.ctx == c.ctx) with
        | none => [(stRights, 0x401A)]
        | some g =>
          let base := stockBase g.half + g.offset
          failIf (g.half != h || lo < base + g.parking * 1024 || lo + c.length > base + g.length) stRights 0x401A

/-- POOL and the frames lie in the home half's HBM and meet no other segment's frames (0x4013). -/
def poolBad (e : SegEnv) (others : List SegCfg) (c : SegCfg) : Bool :=
  c.kind == .migratable &&
    (c.pool % blockSize != 0 || c.frames < 1 || c.frames > 262144 ||
      rangeWindow e.grade c.pool (c.frames * blockSize) != some (.hbm c.half) || others.any (framesMeet c))

/-- Residency entries that the segments of a half take (R331). -/
def storeUsed (others : List SegCfg) (h : Half) : Nat :=
  ((others.filter fun o => o.kind == .migratable && o.half == h).map segBlocks).foldl (· + ·) 0

/-- The table "Segment creation checks" after its second row, with R10, R37, R38 and R225 (detail 0x4000). -/
def segFails (e : SegEnv) (others : List SegCfg) (halves : Both HalfCfg) (c : SegCfg) : List (Nat × Nat) :=
  let lo := localOf c.backing
  let far := pkgOf c.backing != e.pkg
  failIf (segRangeBad others c) stSegmentBound 0x4012 ++ backingFails e c ++ failIf (poolBad e others c) stSegmentBound 0x4013 ++
  failIf ((c.kind == .host && c.a) || (c.led && !e.ledgered)) stRights 0x4014 ++
  failIf (c.enc && (c.kind == .migratable || far || lo ≥ hbmTop)) stProtectedRegion 0x4015 ++
  failIf (c.kind == .migratable && storeUsed others c.half + segBlocks c > (halves.get c.half).resLength / 8) stSegmentBound 0x4016 ++
  failIf (!far && e.grade == .b && lo < hbmTop && lo + c.length > 0x00C0_0000_0000) stUnitAbsent dtReserved ++
  failIf (bits c.backing 49 48 != 0) stSegmentBound dtReserved ++
  failIf (far && e.grade == .c) stUnitAbsent dtReserved ++
  failIf (c.enc && c.comp) stProtectedRegion dtReserved

def segEnv (s : State) (ctx : Nat) : SegEnv :=
  { pkg := s.cfg.pkg, grade := s.fuses.grade, staging := s.cfg.staging, packages := s.cfg.partners.map (·.package)
    part := partOfCtx s ctx, ledgered := ledgered s ctx }

def newSegment (c : SegCfg) (image : Bool) : Segment :=
  { cfg := c, image := image, blocks := [], holds := [], epoch := false, inflight0 := 0, inflight1 := 0, drains := [] }

/-- The operands of a segment command: CONTEXT and INDEX. -/
def opCtx (e : List Byte) : Nat := fieldAt e 16 1
def opSlot (e : List Byte) : Nat := fieldAt e 17 1
def namesCtx (e : List Byte) : Option Nat := some (opCtx e)

/-- SEGMENT_CREATE. -/
def execSegmentCreate (t : Mc) (p : Fin 16) (s : State) : Result :=
  withAdmin t p 0x0020 s namesCtx
    (fun s e =>
      let o := e.drop 16
      let c := parseSeg o
      failIf (segReserved o) stBadProgram 0x4010 ++ failIf (!ownsCtx s p.val c.ctx) stRights dtNotOwned ++
      failIf (getSeg s c.ctx c.index).isSome stBadProgram 0x4011 ++
      segFails (segEnv s c.ctx) (s.seg.segs.map (·.cfg)) s.cfg.halves c)
    (fun s e =>
      finishAdmin { s with seg.segs := s.seg.segs ++ [newSegment (parseSeg (e.drop 16)) false] } p.val e stOk 0)

/-- What waits for a held range or a moving block outside the haulers is tried again: inbound requests, stores and destination writes of
reductions. -/
def retryHeld (s : State) : State := retryEpochs (retryStores (retryInbound s))

/-! ## Drains as commands (R332, R350) -/

def isStaging (s : State) (ctx slot : Nat) : Bool := ((stagingCfg s ctx).map fun g => g.segment == slot).getD false

def segLen (s : State) (ctx slot : Nat) : Nat := ((getSeg s ctx slot).map fun g => segBlocks g.cfg).getD 0

/-- SEGMENT_DESTROY: the segment drains, then its slot empties. -/
def execSegmentDestroy (t : Mc) (p : Fin 16) (s : State) : Result :=
  withAdmin t p 0x0021 s namesCtx
    (fun s e =>
      failIf (opBytes e 18 63) stBadProgram dtReserved ++ failIf (!ownsCtx s p.val (opCtx e)) stRights dtNotOwned ++
      failIf (getSeg s (opCtx e) (opSlot e)).isNone stBadProgram 0x401B ++
      failIf (isStaging s (opCtx e) (opSlot e)) stRights 0x4014)
    (fun s e =>
      let o := newOp s p.val e (opCtx e) (opSlot e) 0 0 0 []
      acceptDrain (addOp s o) o.ctx o.slot .destroy 0 (segLen s o.ctx o.slot) (some o.id))

/-- The range of units that an INVALIDATE names; COUNT 0 is the whole segment. -/
def opRange (s : State) (e : List Byte) : Nat × Nat :=
  if fieldAt e 24 4 == 0 then (0, segLen s (opCtx e) (opSlot e)) else (fieldAt e 20 4, fieldAt e 24 4)

def rangeHeld (s : State) (e : List Byte) : Bool :=
  ((getSeg s (opCtx e) (opSlot e)).map fun g => g.holds.contains (opRange s e)).getD false

/-- INVALIDATE: DRAIN and HOLD drain the range; RELEASE frees a held range. -/
def execInvalidate (t : Mc) (p : Fin 16) (s : State) : Result :=
  withAdmin t p 0x0022 s namesCtx
    (fun s e =>
      let m := fieldAt e 18 1
      let r := opRange s e
      failIf (opBytes e 19 19 || opBytes e 28 63) stBadProgram dtReserved ++
      failIf (!ownsCtx s p.val (opCtx e)) stRights dtNotOwned ++
      failIf (m > 2 || (getSeg s (opCtx e) (opSlot e)).isNone || r.1 + r.2 > segLen s (opCtx e) (opSlot e) ||
        (m == 2 && !rangeHeld s e)) stBadProgram 0x4019)
    (fun s e =>
      let m := fieldAt e 18 1
      let r := opRange s e
      if m == 2 then
        retryHeld (finishAdmin (updSeg s (opCtx e) (opSlot e) fun g => { g with holds := g.holds.filter (· != r) }) p.val e stOk 0)
      else
        let o := newOp s p.val e (opCtx e) (opSlot e) r.1 r.2 m []
        acceptDrain (addOp s o) o.ctx o.slot (.invalidate (m == 1)) r.1 r.2 (some o.id))

/-! ## Waiters of blocks -/

/-- Waiters of a block's fault end with a status (R332, R344). -/
def endWaiters (s : State) (ctx slot : Nat) (b : Option Nat) (status : Nat) : State :=
  let hit := fun (r : Request) => r.ctx == ctx && r.fin.isNone && (match r.wait with
    | some (.absent sl k) => sl == slot && (b == none || b == some k)
    | _ => false)
  let joined := (s.seg.faults.filter fun o => o.ctx == ctx && o.slot == slot && (b == none || b == some o.block)).flatMap (·.waiters)
  let ids := dedup (joined ++ (s.run.reqs.filter hit).map (·.id))
  let waits := fun (id : Nat) => match getReq s id with
    | some r => (match r.wait with
      | some (.absent _ _) => true
      | some (.prefetch _ _ _) => true
      | _ => false)
    | none => false
  (ids.filter waits).foldl (fun s id =>
    match getReq s id with
    | some r => endHere s r status
    | none => s) s

/-- A fault fails: every waiter ends FAULT_UNRESOLVED, and the block stays ABSENT (R344). -/
def failFault (s : State) (ctx slot b : Nat) : State :=
  clearFault (endWaiters s ctx slot (some b) stFaultUnresolved) ctx slot b

/-! ## Moves of blocks (R339, R340, R345) -/

/-- The block's new state; leaving ABSENT resolves its fault. -/
def putBlock (s : State) (ctx slot b : Nat) (f : Block → Block) : State :=
  updSeg s ctx slot fun g => setBlock g (f (blockOf g b))

/-- Copy of a block's bytes and marks between host memory and a frame; a spoiled line raises COPY_SPOILED (R340). Lines of a half in
half reset are read spoiled, and not written (R32, R33). -/
def copyBlock (s : State) (g : Segment) (b src dst : Nat) : State :=
  let bs := readLocal s none src blockSize
  let s1 := writeLocal s none dst bs
  if spoiledLines s dst bs != 0 then blockRecord s1 kCopySpoiled g.cfg.ctx g.cfg.index b (g.cfg.start + b * blockSize) else s1

def hostSide (g : Segment) (b : Nat) : Nat := localOf g.cfg.backing + b * blockSize
def frameSide (g : Segment) (f : Nat) : Nat := g.cfg.pool + f * blockSize

/-- A copy of block `b` begins: its lines in frame `f` take the read or the write class at priority 0, with no reservation (R340). -/
def startCopy (s : State) (g : Segment) (b f : Nat) (into : Bool) : State :=
  let p : Piece :=
    { addr := frameSide g f, len := blockSize, pkg := none, slot := g.cfg.index, epoch := g.epoch, block := none, key := none, led := false }
  addOthers s (.copy g.cfg.ctx g.cfg.index b) 0 fun n => linesOfAsks s into (if into then .write else .read) none [] n (pieceAsks s p)

/-- Block `b` is done for operation `id`: the command completes when no block is left (R345). -/
def blockDone (s : State) (id b : Nat) (noFrame : Bool) : State :=
  match getOp s id with
  | none => s
  | some o =>
    let o1 := { o with left := o.left.filter (· != b)
                       status := if noFrame then stSegmentBound else o.status
                       detail := if noFrame then 0x4017 else o.detail }
    if o1.left.isEmpty then finishOp (updOp s id fun _ => o1) o1 o1.status o1.detail else updOp s id fun _ => o1

/-- Blocks of the operations that wait for a move of block `b` to end are acted on again (R345). -/
def drainFor (mode : Nat) (st : BlockSt) : Option DrainAct :=
  match mode, st with
  | 2, .inHost => some (.promote false)
  | 3, .inFrame _ => some .demote
  | 4, .inHost => some .drop
  | 4, .inFrame _ => some .drop
  | _, _ => none

/-- One block under a FAULT_RESOLVE: done at once, drained first, or left until its move ends. -/
def resolveBlock (s : State) (o : AdminOp) (b : Nat) : State :=
  match getSeg s o.ctx o.slot with
  | none => blockDone s o.id b false
  | some g =>
    let st := (blockOf g b).st
    if isMoving st then s
    else match o.mode, st with
      | 1, .absent => blockDone (clearFault (putBlock s o.ctx o.slot b fun x => { x with st := .inHost }) o.ctx o.slot b) o.id b false
      | 5, .absent => blockDone (failFault s o.ctx o.slot b) o.id b false
      | m, st =>
        match drainFor m st with
        | none => blockDone s o.id b false
        | some a => acceptDrain s o.ctx o.slot a b 1 (some o.id)

/-- The operation in progress that still waits for block `b`'s move, if any. -/
def waitingOp (s : State) (ctx slot b : Nat) : Option AdminOp :=
  s.q.ops.find? fun o => o.cmd == 0x0023 && o.ctx == ctx && o.slot == slot && o.left.contains b &&
    !((getSeg s ctx slot).map fun g => g.drains.any fun d => d.op == some o.id && d.first == b).getD false

/-- A block's move has ended: the FAULT_RESOLVE that waited for it acts on it. -/
def afterMove (s : State) (ctx slot b : Nat) : State :=
  match waitingOp s ctx slot b with
  | some o => resolveBlock s o b
  | none => s

/-- FAULT_RESOLVE (R345). -/
def execFaultResolve (t : Mc) (p : Fin 16) (s : State) : Result :=
  withAdmin t p 0x0023 s namesCtx
    (fun s e =>
      let a := fieldAt e 18 1
      let first := fieldAt e 20 4
      let n := fieldAt e 24 4
      let mig := ((getSeg s (opCtx e) (opSlot e)).map fun g => g.cfg.kind == .migratable).getD false
      failIf (opBytes e 19 19 || opBytes e 28 63) stBadProgram dtReserved ++
      failIf (!ownsCtx s p.val (opCtx e)) stRights dtNotOwned ++
      failIf (!mig || a < 1 || a > 5 || n < 1 || n > 65536 || first + n > segLen s (opCtx e) (opSlot e)) stBadProgram 0x4018)
    (fun s e =>
      let first := fieldAt e 20 4
      let n := fieldAt e 24 4
      let bs := (List.range n).map (first + ·)
      let o := newOp s p.val e (opCtx e) (opSlot e) first n (fieldAt e 18 1) bs
      retryHeld (bs.foldl (fun s b => match getOp s o.id with
        | some o => resolveBlock s o b
        | none => s) (addOp s o)))

/-! ## SEGMENT_DRAIN_COMPLETE (R336, R349) -/

/-- The front drain of a segment has no billet of the epoch that it replaced in flight. -/
def drainQuiet (s : State) (g : Segment) (d : SegDrain) : Bool := d.started && inflightOf s g (!g.epoch) == 0

/-- The segment has no drain, or its front drain is quiet. -/
def quietNow (ctx slot : Nat) (s : State) : Bool :=
  match getSeg s ctx slot with
  | none => true
  | some g => match g.drains with
    | [] => true
    | d :: _ => drainQuiet s g d

/-- The drain leaves the segment, and the next one starts. -/
def popDrain (s : State) (ctx slot : Nat) : State :=
  updSeg s ctx slot fun g => startDrain { g with drains := g.drains.drop 1 }

/-- The slot empties (R332): every wait on the segment's faults ends with SEGMENT_BOUND. -/
def destroySegment (s : State) (ctx slot : Nat) : State :=
  let s1 := endWaiters s ctx slot none stSegmentBound
  let s2 := { s1 with seg.segs := s1.seg.segs.filter fun g => !(g.cfg.ctx == ctx && g.cfg.index == slot)
                      seg.faults := s1.seg.faults.filter fun o => !(o.ctx == ctx && o.slot == slot) }
  { s2 with seg.hot := ⟨s2.seg.hot.east.filter fun x => !(x.ctx == ctx && x.seg == slot),
      s2.seg.hot.west.filter fun x => !(x.ctx == ctx && x.seg == slot)⟩ }

/-- An ATOMIC that waited for a promotion for which no frame was free ends (R347). -/
def failPromotion (s : State) (ctx slot b : Nat) : State :=
  (s.run.reqs.filter fun r => r.ctx == ctx && r.fin.isNone && r.wait == some (.promotion slot b)).foldl
    (fun s r => endHere s r stFaultUnresolved) s

/-- What a request that waits for the promotion of a block is: a PREFETCH with W = 1 whose span holds the block (true), or an ATOMIC
(false). -/
def frameWaiter (s : State) (ctx slot b : Nat) (r : Request) : Option Bool :=
  if r.ctx != ctx || r.fin.isSome then none
  else match r.wait, instrAt r.program r.pc with
    | some (.promotion sl k), _ => if sl == slot && k == b then some false else none
    | some _, some (.prefetch k true) => if ((shapeBlocks s ctx (shapeOf r k)).getD []).contains (slot, b) then some true else none
    | _, _ => none

/-- The NO_FRAME record of a block: the requests that wait for its promotion, and what they are (table "Fault record"). -/
def noFrameRecord (s : State) (g : Segment) (b : Nat) : FaultRec :=
  let ws := s.run.reqs.filterMap (frameWaiter s g.cfg.ctx g.cfg.index b)
  let atomic := ws.contains false
  { kind := kNoFrame, flags := faultFlags atomic (ws.contains true) atomic, waiters := ws.length, ctx := g.cfg.ctx, seg := g.cfg.index
    event := 0, object := b, value := g.cfg.start + b * blockSize, time := s.time, batch := 0 }

/-- A promotion at the end of its drain: into the lowest free frame, or left IN_HOST (R339). A block that is MOVING is acted on when its
move ends (R345). -/
def startCopyIn (s : State) (g : Segment) (d : SegDrain) : State :=
  let ctx := g.cfg.ctx
  let slot := g.cfg.index
  let b := d.first
  if isMoving (blockOf g b).st then s
  else if (blockOf g b).st != .inHost then
    match d.op with
    | some id => blockDone s id b false
    | none => s
  else match freeFrame g with
    | some f => startCopy (putBlock s ctx slot b fun x => { x with st := .movingIn f }) g b f true
    | none =>
      match d.op with
      | some id => blockDone (failPromotion s ctx slot b) id b true
      | none => failPromotion (pushNoFrame s (noFrameRecord s g b)) ctx slot b

/-- A demotion at the end of its drain: a WRITTEN block is copied first (R339). -/
def startCopyOut (s : State) (g : Segment) (d : SegDrain) : State :=
  match (blockOf g d.first).st, d.op with
  | .inFrame f, op =>
    if (blockOf g d.first).written then
      startCopy (putBlock s g.cfg.ctx g.cfg.index d.first fun x => { x with st := .movingOut f true }) g d.first f false
    else
      let s1 := putBlock s g.cfg.ctx g.cfg.index d.first fun x => { x with st := .inHost, written := false }
      (match op with
       | some id => blockDone s1 id d.first false
       | none => s1)
  | st, some id => if isMoving st then s else blockDone s id d.first false
  | _, none => s

/-- What a drain applies once its old epoch is quiet. -/
def applyDrain (s : State) (g : Segment) (d : SegDrain) : State :=
  let ctx := g.cfg.ctx
  let slot := g.cfg.index
  let s1 := popDrain s ctx slot
  let finish := fun (s : State) => match d.op.bind (getOp s) with
    | some o => finishOp s o stOk 0
    | none => s
  match d.act with
  | .destroy => finish (destroySegment s1 ctx slot)
  | .invalidate hold =>
    finish (if hold then updSeg s1 ctx slot fun g => { g with holds := g.holds ++ [(d.first, d.count)] } else s1)
  | .promote _ => startCopyIn s1 { g with drains := g.drains.drop 1 } d
  | .demote => startCopyOut s1 g d
  | .drop =>
    let gone := fun (x : Block) => { x with st := .absent, written := false, readMostly := false, preferDevice := false }
    if isMoving (blockOf g d.first).st then s1
    else
      let s2 := if (blockOf g d.first).st == .absent then s1 else putBlock s1 ctx slot d.first gone
      match d.op with
      | some id => blockDone s2 id d.first false
      | none => s2

/-- The mc from which the front drain of a segment can be complete: billets translated in the mc of its acceptance are waited for
(R349). -/
def drainFrom (s : State) (ctx slot : Nat) (t : Mc) : Mc :=
  match (getSeg s ctx slot).bind fun g => g.drains.head? with
  | some d => max t (d.taken + 1)
  | none => t

/-- SEGMENT_DRAIN_COMPLETE: the front drain of the segment, its old epoch's in-flight count being zero. -/
def execSegmentDrainComplete (t : Mc) (ctx : Fin 256) (slot : Fin 16) (s : State) : Result :=
  let s1 := whenReady s (drainFrom s ctx.val slot.val t) (quietNow ctx.val slot.val)
  match getSeg s1 ctx.val slot.val with
  | none => answer s s1
  | some g =>
    match g.drains with
    | [] => answer s s1
    | d :: _ => if running s1 && drainQuiet s1 g d then answer s (retryHeld (applyDrain s1 g d)) else answer s s1

/-! ## PROMOTION_COPY_DONE (R340) -/

/-- A copy between host and frame ends, in either direction, and the block leaves MOVING. -/
def execPromotionCopyDone (t : Mc) (ctx : Fin 256) (slot : Fin 16) (block : Nat) (s : State) : Result :=
  let s1 := whenReady s t fun x => !otherOpen x (.copy ctx.val slot.val block)
  match getSeg s1 ctx.val slot.val with
  | none => answer s s1
  | some g =>
    let op := (s1.q.ops.find? fun o => o.cmd == 0x0023 && o.ctx == ctx.val && o.slot == slot.val && o.left.contains block &&
      (o.mode == 2 || o.mode == 3)).map (·.id)
    let done := fun (s : State) (mode : Nat) =>
      match op.bind (getOp s) with
      | some o => if o.mode == mode then afterMove (blockDone s o.id block false) ctx.val slot.val block
                  else afterMove s ctx.val slot.val block
      | none => afterMove s ctx.val slot.val block
    if !running s1 then answer s s1
    else match (blockOf g block).st with
      | .movingIn f =>
        let s2 := copyBlock s1 g block (hostSide g block) (frameSide g f)
        answer s (retryHeld (done (putBlock s2 ctx.val slot.val block fun x => { x with st := .inFrame f, written := false }) 2))
      | .movingOut f _ =>
        let s2 := copyBlock s1 g block (frameSide g f) (hostSide g block)
        answer s (retryHeld (done (putBlock s2 ctx.val slot.val block fun x => { x with st := .inHost, written := false }) 3))
      | _ => answer s s1

/-! ## FAULT_BATCH_CLOSE, FAULT_RESOLUTION_TIMEOUT (R342 to R344) -/

/-- FAULT_BATCH_CLOSE: the window has passed since the open batch's first record; the batch closes when the closed one is written. -/
def execFaultBatchClose (t : Mc) (p : Fin 16) (s : State) : Result :=
  let q := getFaultQ s p.val
  match q.openB, partCfg s p.val with
  | r :: _, some c =>
    if running s && q.enabled && q.closedB.isEmpty then
      let s1 := atTime s (max t (r.time + mcOf c.batchWindow))
      answer s (flushFaults (updFaultQ s1 p.val closeBatch) p.val)
    else answer s (atTime s t)
  | _, _ => answer s (atTime s t)

/-- FAULT_RESOLUTION_TIMEOUT: counted from the record's creation. -/
def execFaultResolutionTimeout (t : Mc) (ctx : Fin 256) (slot : Fin 16) (block : Nat) (s : State) : Result :=
  match faultOn s ctx.val slot.val block, partCfg s (partOfCtx s ctx.val) with
  | some o, some c =>
    if running s && o.recorded && c.resTimeout != 0 then
      let s1 := atTime s (max t (o.created + mcOf c.resTimeout))
      answer s (failFault s1 ctx.val slot.val block)
    else answer s (atTime s t)
  | _, _ => answer s (atTime s t)

end Sys2Proof.Machine
end

