-- ==== Sys2Proof/Machine/Image.lean ====
section
/-! DEFINITION. The configuration image: its layout, the checks of the table "Image checks", and the settings that a valid image gives
(R426 to R433, R435; layout of the records: R430, assumption 14). -/

namespace Sys2Proof.Machine

/-! ## Layout (R428, R430) -/

/-- A field of a record: bytes, smallest and largest value. -/
structure FieldDef where
  size : Nat
  lo   : Nat
  hi   : Nat

def num1 (lo hi : Nat) : FieldDef := ⟨1, lo, hi⟩
def num2 (lo hi : Nat) : FieldDef := ⟨2, lo, hi⟩
def num4 (lo hi : Nat) : FieldDef := ⟨4, lo, hi⟩
def num8 (lo hi : Nat) : FieldDef := ⟨8, lo, hi⟩
def yesNo : FieldDef := num1 0 1
def byteField : FieldDef := num1 0 255
def fp32Field : FieldDef := num4 0 0xFFFFFFFF
def word8 : FieldDef := num8 0 (2 ^ 64 - 1)

/-- Zero bytes before a field of `n` bytes at position `pos`. -/
def padTo (n pos : Nat) : Nat := (n - pos % n) % n

/-- The values of a record's fields; none when a byte outside the fields is non-zero. -/
def readFields : List FieldDef → Nat → List Byte → Option (List Nat)
  | [], _, bs => if anyNonZero bs then none else some []
  | f :: fs, pos, bs =>
    let p := padTo f.size pos
    if anyNonZero (bs.take p) then none
    else (readFields fs (pos + p + f.size) (bs.drop (p + f.size))).map (leVal ((bs.drop p).take f.size) :: ·)

/-- Bytes that the fields take. -/
def encodedSize (fs : List FieldDef) : Nat := fs.foldl (fun pos f => pos + padTo f.size pos + f.size) 0

/-- A section type: smallest and largest number of records, and the record's fields. -/
structure SectionDef where
  ty     : Nat
  atLeast : Nat
  atMost : Nat
  fields : List FieldDef

/-- Sections 0x0001 to 0x0009 (table "Section types"). -/
def sectionsLow : List SectionDef :=
  [ ⟨0x01, 2, 2, [num4 0 0x1000_0000, num4 0 0x1000_0000, num1 1 32, num1 1 32, num1 0 32]⟩
  , ⟨0x02, 16, 16, [yesNo, word8, word8, yesNo, num8 1000 1000000, num8 0 60000000000, num2 1 65535, num2 0 2047]⟩
  , ⟨0x03, 0, 256, [byteField, num1 0 15, yesNo, byteField, num1 1 2, yesNo, num1 0 31, num1 0 31, yesNo, num2 0 4095]⟩
  , ⟨0x04, 0, 256, [byteField, yesNo, num2 0 4096, num8 0 0x1000_0000, num8 0 0x1000_0000, num1 0 15]⟩
  , ⟨0x05, 0, 4096, [byteField, byteField, byteField, byteField, word8, word8, word8, word8, fp32Field]⟩
  , ⟨0x06, 0, 8176, [num2 16 8191, byteField, yesNo, num2 16 2047, num1 0 7, num1 1 128, num4 16 65536]⟩
  , ⟨0x07, 0, 2048, [num2 16 2047, num1 0 15, num4 16 65536, num2 0 2047, num1 0 2, num2 0 256, num8 0 1000000]⟩
  , ⟨0x08, 0, 65536, [num2 0 65535, byteField, word8, yesNo]⟩
  , ⟨0x09, 0, 1048576, [byteField, num2 0 4095, num1 0 2, num2 0 65535, num2 0 1087, num2 0 1023, num1 0 3]⟩ ]

/-- Sections 0x000A to 0x000F. -/
def sectionsMid : List SectionDef :=
  [ ⟨0x0A, 0, 4096,
      [byteField, num2 0 2047, yesNo, num1 3 64, num4 4096 65536, num4 0 0x1000_0000, yesNo, num1 1 64, yesNo, yesNo, byteField
      , yesNo, byteField, num2 0 11000, num1 0 64]⟩
  , ⟨0x0B, 0, 2048, [byteField, num2 0 1023, yesNo, num2 4 256, num4 0 0x1000_0000]⟩
  , ⟨0x0C, 0, 512, [yesNo, byteField, byteField]⟩
  , ⟨0x0D, 0, 256, [byteField, byteField, num1 0 2, num8 0 (2 ^ 40 - 1)]⟩
  , ⟨0x0E, 0, 1048576,
      [byteField, num1 1 2, num2 1 4095, num1 0 16, fp32Field, fp32Field, fp32Field, fp32Field, num4 1 0xFFFFFFFF]⟩
  , ⟨0x0F, 0, 1024, [byteField, yesNo, num1 2 8] ++ List.replicate 8 (num1 0 15)⟩ ]

/-- Sections 0x0010 to 0x0015. -/
def sectionsHigh : List SectionDef :=
  [ ⟨0x10, 0, 1088,
      [num2 0 16383, yesNo, yesNo, num1 1 4] ++ List.replicate 4 (num1 0 31) ++
      [num1 0 15, num8 4000 10000000, num2 16 4096, yesNo, num8 0 10000000]⟩
  , ⟨0x11, 0, 1024,
      [num2 0 1023, num1 0 2, byteField, word8, num8 0 (2 ^ 38), num2 0 4095, num2 0 4095, num1 0 7, num1 0 7, yesNo, num1 0 16] ++
      List.replicate 16 (num2 0 16383)⟩
  , ⟨0x12, 0, 1048576,
      [byteField, num2 0 4095, num2 0 16383, num2 0 1023, num2 2 16384, num4 256 1048576, num1 0 3, num4 0 0x1000_0000, word8
      , yesNo, num2 0 4095, num8 10000 1000000000]⟩
  , ⟨0x13, 0, 1, [num8 10000 1000000000, num8 1000 8000, num8 10000000 1000000000, num1 1 16, num1 1 255]⟩
  , ⟨0x14, 0, 1, [num8 0 1000000, yesNo, num8 100000 3600000000000, num1 85 105, num8 1000 255000]⟩
  , ⟨0x15, 0, 8192, [word8]⟩ ]

def sectionDefs : List SectionDef := sectionsLow ++ sectionsMid ++ sectionsHigh

/-- A section as read: its type and the field values of its records. -/
abbrev Section := Nat × List (List Nat)

def readRecords (d : SectionDef) (size : Nat) (bs : List Byte) : Option (List (List Nat)) :=
  (chunksOf size bs).mapM fun r => readFields d.fields 0 r

/-- The section at the head of `bs`, whose TYPE must lie above `last`, and the bytes behind it. -/
def readSection (last : Nat) (bs : List Byte) : Option (Section × List Byte) :=
  let ty := fieldAt bs 0 2
  let size := fieldAt bs 2 2
  let count := fieldAt bs 4 4
  match sectionDefs.find? (·.ty == ty) with
  | none => none
  | some d =>
    if bs.length < 8 || ty ≤ last || size % 8 != 0 || size < encodedSize d.fields || count < d.atLeast || count > d.atMost ||
        bs.length < 8 + count * size then none
    else (readRecords d size ((bs.drop 8).take (count * size))).map fun rs => ((ty, rs), bs.drop (8 + count * size))

/-- The sections of the image, in ascending order and without a gap to the signature (R428). -/
def readSections : Nat → Nat → List Byte → Option (List Section)
  | 0, _, bs => if bs.isEmpty then some [] else none
  | f + 1, last, bs =>
    if bs.isEmpty then some []
    else match readSection last bs with
      | none => none
      | some (x, rest) => (readSections f x.1 rest).map (x :: ·)

/-- The records of a section; none present when the section is absent. -/
def recordsOf (xs : List Section) (ty : Nat) : List (List Nat) := ((xs.find? (·.1 == ty)).map Prod.snd).getD []

def fieldsInRange (fs : List FieldDef) (vs : List Nat) : Bool := (fs.zip vs).all fun x => x.1.lo ≤ x.2 && x.2 ≤ x.1.hi

/-- Every field of every record is in its range. -/
def rangesOk (xs : List Section) : Bool :=
  xs.all fun x => match sectionDefs.find? (·.ty == x.1) with
    | some d => x.2.all (fieldsInRange d.fields)
    | none => false

/-! ## Settings -/

/-- Field `i` of a record. -/
def at' (r : List Nat) (i : Nat) : Nat := r.getD i 0

def flag (r : List Nat) (i : Nat) : Bool := at' r i == 1

def optOf (r : List Nat) (i : Nat) : Option Nat := if flag r i then some (at' r (i + 1)) else none

def toHalf (r : List Nat) (i : Nat) : Half := halfOfBit (flag r i)

def toHalfCfg (r : List Nat) : HalfCfg :=
  { resOffset := at' r 0, resLength := at' r 1, r := at' r 2, w := at' r 3, x := at' r 4 }

def toPart (r : List Nat) : PartCfg :=
  { homePort := toHalf r 0, adminSqBase := at' r 1, adminCqBase := at' r 2, compat := flag r 3, batchWindow := at' r 4
    resTimeout := at' r 5, hotThreshold := at' r 6, adminVector := at' r 7 }

/-- A CONTEXTS record begins with the context's number. -/
def toCtx (r : List Nat) : CtxCfg :=
  { ctx := at' r 0, partition := at' r 1, homeHalf := toHalf r 2, profiles := at' r 3, initialProfile := at' r 4
    ledgered := flag r 5, seamEW := at' r 6, seamWE := at' r 7, drainCounter := optOf r 8 }

def toStaging (r : List Nat) : StagingCfg :=
  { ctx := at' r 0, half := toHalf r 1, parking := at' r 2, offset := at' r 3, length := at' r 4, segment := at' r 5 }

/-- The 48 operand bytes that a SEGMENTS record stands for. -/
def segBytes (r : List Nat) : List Byte :=
  leBytes 1 (at' r 0) ++ leBytes 1 (at' r 1) ++ leBytes 1 (at' r 2) ++ leBytes 1 (at' r 3) ++ zeros 4 ++ leBytes 8 (at' r 4) ++
    leBytes 8 (at' r 5) ++ leBytes 8 (at' r 6) ++ leBytes 8 (at' r 7) ++ leBytes 4 (at' r 8) ++ zeros 4

def toSq (r : List Nat) : SqCfg :=
  { qid := at' r 0, ctx := at' r 1, persistent := flag r 2, cq := at' r 3, priority := at' r 4, limit := at' r 5, depth := at' r 6 }

def toCq (r : List Nat) : CqCfg :=
  { qid := at' r 0, partition := at' r 1, depth := at' r 2, vector := at' r 3
    irq := match at' r 4 with
      | 0 => .none
      | 1 => .each
      | _ => .coalesce (at' r 5) (at' r 6) }

def toCtr (r : List Nat) : CtrCfg := { ctr := at' r 0, owner := at' r 1, initial := at' r 2, host := flag r 3 }

def toVctr (r : List Nat) : VctrCfg :=
  { ctx := at' r 0, vid := at' r 1
    entry := match at' r 2 with
      | 0 => .unmapped
      | 1 => .loc (at' r 3) (bit (at' r 6) 0) (bit (at' r 6) 1)
      | _ => .remote (at' r 4) (at' r 5) (bit (at' r 6) 0) }

def toRing (r : List Nat) : RingCfg :=
  { ctx := at' r 0, ring := at' r 1, half := toHalf r 2, slots := at' r 3, log := Nat.log2 (at' r 4) - 12, offset := at' r 5
    fixedAhead := at' r 6 == 0, ahead := at' r 7, prodSched := flag r 8, consHauler := flag r 9, format := at' r 10
    coded := optOf r 11, rate := at' r 13, firstFill := at' r 14 }

def toHandle (r : List Nat) : HandleCfg :=
  { ctx := at' r 0, queue := at' r 1, half := toHalf r 2, depth := at' r 3, offset := at' r 4 }

def toFeed (r : List Nat) : FeedCfg := { half := toHalf r 0, feed := at' r 1, ctx := at' r 2 }

def toPacing (r : List Nat) : PacingCfg :=
  { line := at' r 0, ctx := at' r 1
    source := match at' r 2 with
      | 0 => .timer
      | 1 => .host
      | _ => .schedule
    period := at' r 3 }

def toChannel (r : List Nat) : ChannelCfg :=
  { ctx := at' r 0, pinned := at' r 1 == 2, channel := at' r 2, w := at' r 3, margin := BitVec.ofNat 32 (at' r 4)
    a := BitVec.ofNat 32 (at' r 5), lo := BitVec.ofNat 32 (at' r 6), hi := BitVec.ofNat 32 (at' r 7), threshold := at' r 8 }

def toRelay (r : List Nat) : RelayCfg := { ctx := at' r 0, half := toHalf r 1, ports := (r.drop 3).take (at' r 2) }

/-- A PARTNERS record under number `n`; a path's byte holds 16 × chiplet + port. -/
def toPartner (n : Nat) (r : List Nat) : PartnerCfg :=
  { num := n, package := at' r 0, routed := flag r 1, half := toHalf r 2
    paths := ((r.drop 4).take (at' r 3)).map fun p => (p / 16, p % 16)
    owner := at' r 8, timeout := at' r 9, credit := at' r 10, wake := optOf r 11 }

/-- Direct records are numbered from 0 and routed records from 64, each in their order in the section (R381). -/
def toPartners : List (List Nat) → Nat → Nat → List PartnerCfg
  | [], _, _ => []
  | r :: rs, d, k =>
    if flag r 1 then toPartner (64 + k) r :: toPartners rs d (k + 1) else toPartner d r :: toPartners rs (d + 1) k

def toExport (r : List Nat) : ExportCfg :=
  { id := at' r 0, owner := at' r 2
    target := match at' r 1 with
      | 0 => .memory (at' r 3) (at' r 4)
      | 1 => .counter (at' r 5)
      | _ => .reduction (at' r 6)
    r := bit (at' r 7) 0, w := bit (at' r 7) 1, a := bit (at' r 7) 2, priority := at' r 8
    permitted := if flag r 9 then none else some ((r.drop 11).take (at' r 10)) }

/-- FMT of a reduction by its place in the list FP32, BF16, FP16, INT32. -/
def redFormat (n : Nat) : Nat := [1, 2, 3, 8].getD n 1

def toRed (r : List Nat) : RedCfg :=
  { ctx := at' r 0, red := at' r 1, home := at' r 2, exportId := at' r 3, members := at' r 4, length := at' r 5
    fmt := redFormat (at' r 6), buffer := at' r 7, dest := at' r 8, counter := optOf r 9, timeout := at' r 11 }

def toSafety (r : List Nat) : SafetyCfg :=
  { stallWindow := at' r 0, watchdog := at' r 1, escalation := at' r 2, quenchLimit := at' r 3, seamLimit := at' r 4 }

def toPower (r : List Nat) : PowerCfg :=
  { glowIdle := at' r 0, banked := flag r 1, bankIdle := at' r 2, thermal := at' r 3, scrub := at' r 4 }

/-- The settings that the sections of an image give. -/
def settingsOf (img : List Byte) (xs : List Section) (packed : Nat) : Settings :=
  let rs := recordsOf xs
  let halves := (rs 1).map toHalfCfg
  { pkg := fieldAt img 20 2 % 2 ^ 14, gen := fieldAt img 8 4, rollback := fieldAt img 6 2, keyEpoch := fieldAt img 24 4
    commitRollback := bit (fieldAt img 22 2) 0, patch := !(rs 0x15).isEmpty, packed := packed
    halves := ⟨halves.getD 0 HalfCfg.default, halves.getD 1 HalfCfg.default⟩
    parts := (rs 2).map toPart, ctxs := (rs 3).map toCtx, staging := (rs 4).map toStaging
    segs := (rs 5).map fun r => parseSeg (segBytes r)
    sqs := (rs 6).map toSq, cqs := (rs 7).map toCq, ctrs := (rs 8).map toCtr, vctrs := (rs 9).map toVctr
    rings := (rs 0x0A).map toRing, handles := (rs 0x0B).map toHandle, feeds := (rs 0x0C).map toFeed
    pacing := (rs 0x0D).map toPacing, channels := (rs 0x0E).map toChannel, relays := (rs 0x0F).map toRelay
    partners := toPartners (rs 0x10) 0 0, exports := (rs 0x11).map toExport, reds := (rs 0x12).map toRed
    safety := (rs 0x13).head?.elim SafetyCfg.default toSafety, power := (rs 0x14).head?.elim PowerCfg.default toPower }

/-! ## Rules (reason 0x07) -/

/-- No two elements share a key. -/
def noRepeat {α : Type} (key : α → Nat) (l : List α) : Bool :=
  let ks := sortBy id (l.map key)
  (ks.zip (ks.drop 1)).all fun x => x.1 != x.2

def isPow2 (n : Nat) : Bool := n == 2 ^ Nat.log2 n

/-- Two ranges given by start and length meet. -/
def rangesMeet (a b : Nat × Nat) : Bool := a.1 < b.1 + b.2 && b.1 < a.1 + a.2

def noneMeet : List (Nat × Nat) → Bool
  | [] => true
  | x :: xs => xs.all (fun y => !rangesMeet x y) && noneMeet xs

/-- Bytes of a half's Stockpile below the reserved 96 KiB (R459). -/
def stockUsable : Nat := 0x1000_0000 - 0x1_8000

def declared (c : Settings) (ctx : Nat) : Bool := c.ctxs.any (·.ctx == ctx)

def ctxOf (c : Settings) (ctx : Nat) : Option CtxCfg := c.ctxs.find? (·.ctx == ctx)

def stagingOf (c : Settings) (ctx : Nat) : Option StagingCfg := c.staging.find? (·.ctx == ctx)

/-- An entry of the context's virtual counter table that is LOCAL and grants S. -/
def localSig (c : Settings) (ctx vid : Nat) : Bool :=
  c.vctrs.any fun v => v.ctx == ctx && v.vid == vid && match v.entry with
    | .loc _ s _ => s
    | _ => false

/-- R307, R331, R459. -/
def halfOk (c : Settings) (h : Half) : Bool :=
  let x := c.halves.get h
  x.r + x.w + x.x == 32 && x.resOffset % 65536 == 0 && x.resLength % 65536 == 0 && x.resOffset + x.resLength ≤ stockUsable &&
    (c.staging.filter (·.half == h)).all fun g => !rangesMeet (x.resOffset, x.resLength) (g.offset, g.length)

/-- R276 for the admin queues, and the resolution timeout's range (R344). -/
def partOk (p : PartCfg) : Bool :=
  !baseBad p.adminSqBase (64 * 64) && !baseBad p.adminCqBase (64 * 32) && (p.resTimeout == 0 || 1000000 ≤ p.resTimeout)

/-- R264, R272, R412. -/
def ctxOk (c : Settings) (x : CtxCfg) : Bool :=
  x.profiles % 2 == 0 && x.profiles ≤ 6 && bit x.profiles x.initialProfile && x.drainCounter.all (localSig c x.ctx)

/-- Seam shares of a direction sum to at most 31 (R19). -/
def seamOk (c : Settings) : Bool :=
  (c.ctxs.map (·.seamEW)).foldl (· + ·) 0 ≤ 31 && (c.ctxs.map (·.seamWE)).foldl (· + ·) 0 ≤ 31

/-- The staging segment backs the rest of the area exactly, with R and W (R232). -/
def stagingSegOk (c : Settings) (g : StagingCfg) : Bool :=
  c.segs.any fun s =>
    let skip := parkingBytes g
    s.ctx == g.ctx && s.index == g.segment && s.kind == .device && s.r && s.w && s.half == g.half && pkgOf s.backing == c.pkg &&
      localOf s.backing == stockBase g.half + g.offset + skip && s.length == g.length - skip

/-- R231, R232, R459. -/
def stagingOk (c : Settings) (g : StagingCfg) : Bool :=
  (ctxOf c g.ctx).any (fun x => x.homeHalf == g.half) && g.offset % 65536 == 0 && g.length % 65536 == 0 &&
    g.length ≥ 65536 + parkingBytes g && g.offset + g.length ≤ stockUsable && stagingSegOk c g

def stagingApart (c : Settings) (h : Half) : Bool :=
  noneMeet ((c.staging.filter (·.half == h)).map fun g => (g.offset, g.length))

/-- Image segments pass the checks of SEGMENT_CREATE one after another (R330). -/
def segsOk (g : Grade) (c : Settings) (recs : List (List Nat)) : Bool :=
  let step := fun (acc : Bool × List SegCfg) (r : List Nat) =>
    let x := parseSeg (segBytes r)
    let env : SegEnv :=
      { pkg := c.pkg, grade := g, staging := c.staging, packages := c.partners.map (·.package)
        part := ((ctxOf c x.ctx).map (·.partition)).getD 0, ledgered := (ctxOf c x.ctx).any (·.ledgered) }
    (acc.1 && declared c x.ctx && !segReserved (segBytes r) && !(acc.2.any fun o => o.ctx == x.ctx && o.index == x.index) &&
      (segFails env acc.2 c.halves x).isEmpty, acc.2 ++ [x])
  (recs.foldl step (true, [])).1

/-- R270 and the table "Submission queue descriptor". -/
def sqOk (c : Settings) (q : SqCfg) : Bool :=
  isPow2 q.depth && (!q.persistent || q.limit == 1) &&
    match ctxOf c q.ctx, c.cqs.find? (·.qid == q.cq) with
    | some x, some k => x.partition == k.partition
    | _, _ => false

def cqOk (q : CqCfg) : Bool :=
  isPow2 q.depth && match q.irq with
    | .coalesce n t => 1 ≤ n && 1000 ≤ t
    | _ => true

/-- R359. -/
def vctrOk (c : Settings) (v : VctrCfg) : Bool :=
  declared c v.ctx && match v.entry with
    | .loc k _ _ =>
      match c.ctrs.find? (·.ctr == k) with
      | some d => ((ctxOf c d.owner).map (·.partition)) == ((ctxOf c v.ctx).map (·.partition))
      | none => true
    | _ => true

/-- A REMOTE entry grants no W (R359). -/
def vctrRecOk (r : List Nat) : Bool := at' r 2 != 2 || at' r 6 < 2

/-- A range of `n` bytes at a staging offset lies in the part that the staging segment backs (R233). -/
def inStaging (c : Settings) (ctx : Nat) (h : Option Half) (off n : Nat) : Bool :=
  (stagingOf c ctx).any fun g => parkingBytes g ≤ off && off + n ≤ g.length && h.all (· == g.half)

/-- R216, R233, R235, R236. -/
def ringOk (c : Settings) (x : RingCfg) : Bool :=
  inStaging c x.ctx (some x.half) x.offset (x.slots * ringBytes x) && x.offset % ringBytes x == 0 &&
    (if x.fixedAhead then x.ahead ≤ x.slots else x.ahead == x.slots) && x.firstFill ≤ x.ahead &&
    !(x.prodSched && !x.consHauler) && !(x.prodSched && (x.fixedAhead || x.rate != 0 || x.firstFill != 0)) &&
    !(x.consHauler && x.rate != 0) && !(x.coded.isSome && (x.prodSched || x.consHauler || x.log == 0)) &&
    x.coded.all (fun f => 1 ≤ f && f ≤ 5) && isFormat x.format

/-- R233, R242. -/
def handleOk (c : Settings) (x : HandleCfg) : Bool :=
  inStaging c x.ctx (some x.half) x.offset (x.depth * 8) && x.offset % 256 == 0 && isPow2 x.depth

/-- Rings and handle queues of a context do not meet (R233). -/
def buffersApart (c : Settings) (ctx : Nat) : Bool :=
  noneMeet (((c.rings.filter (·.ctx == ctx)).map fun x => (x.offset, x.slots * ringBytes x)) ++
    ((c.handles.filter (·.ctx == ctx)).map fun x => (x.offset, x.depth * 8)))

/-- A context's Seam share from half `h` toward the other. -/
def seamFrom (c : Settings) (ctx : Nat) (h : Half) : Nat :=
  ((ctxOf c ctx).map fun x => match h with
    | .east => x.seamEW
    | .west => x.seamWE).getD 0

/-- Read rates homed in a half plus its far sum, within r ÷ 32 of the half's read rate (R237, R314); in tenths of GB/s. -/
def ratesOk (g : Grade) (c : Settings) (h : Half) : Bool :=
  let home := ((c.rings.filter (·.half == h)).map fun x => 10 * x.rate).foldl (· + ·) 0
  let far := ((c.rings.filter (·.half == h.other)).map fun x => min (10 * x.rate) (336 * seamFrom c x.ctx h)).foldl (· + ·) 0
  let top := match g with
    | .b => 82500
    | _ => 110000
  32 * (home + far) ≤ (c.halves.get h).r * top

def fp32Finite (v : BitVec 32) : Bool := v.toNat / 2 ^ 23 % 256 != 255

/-- FP32 patterns in the order of their values. -/
def fp32Key (v : BitVec 32) : Int := if v.msb then -((v.toNat % 2 ^ 31 : Nat) : Int) else (v.toNat : Int)

/-- Table "Scale-channel record". -/
def channelOk (c : Settings) (x : ChannelCfg) : Bool :=
  declared c x.ctx &&
    if x.pinned then x.w == 0 && x.margin == 0 && fp32Finite x.a && 0 ≤ fp32Key x.a && fp32Finite x.lo && fp32Finite x.hi &&
      fp32Key x.lo ≤ fp32Key x.hi
    else 1 ≤ x.w && 0x3F800000 ≤ x.margin.toNat && x.margin.toNat ≤ 0x41800000 && x.a == 0 && x.lo == 0 && x.hi == 0

/-- Ports of consecutive dies; die d has ports 2 d and 2 d + 1 (R23, R267). -/
def chainOk : List Nat → Bool
  | p :: q :: rest => q / 2 == p / 2 + 1 && chainOk (q :: rest)
  | _ => true

def relayOk (c : Settings) (x : RelayCfg) : Bool :=
  declared c x.ctx && chainOk x.ports && (c.relays.filter fun y => y.ctx == x.ctx && y.half == x.half).length ≤ 2

/-- Link ports of a half that a record uses. -/
def usesPort (h : Half) (p : Nat × Nat) (x : PartnerCfg) : Bool := x.half == h && x.paths.contains p

/-- R381, R382. -/
def partnerOk (c : Settings) (x : PartnerCfg) : Bool :=
  x.package != c.pkg && x.wake.all (fun t => 20000 ≤ t) &&
    (x.routed || x.paths.all fun p => (c.partners.filter (usesPort x.half p)).length ≤ 1)

def creditOk (c : Settings) (h : Half) : Bool :=
  ((c.partners.filter (·.half == h)).map (·.credit)).foldl (· + ·) 0 ≤ 16384

/-- Table "Export entry". -/
def exportOk (c : Settings) (x : ExportCfg) : Bool :=
  declared c x.owner && match x.target with
    | .memory va n => va % 4096 == 0 && n % 4096 == 0
    | .counter v => localSig c x.owner v
    | .reduction _ => true

/-- Bytes of an element of a reduction. -/
def redElem (fmt : Nat) : Nat := if fmt == 2 || fmt == 3 then 2 else 4

/-- The context is the owner of a REDUCTION export that names the reduction: it declares the fields of the home (R400). -/
def ownsRed (c : Settings) (x : RedCfg) : Bool :=
  c.exports.any fun e => e.owner == x.ctx && e.target == .reduction x.red

/-- Table "Reduction descriptor", and the fields that the owner of its export declares. -/
def redOk (c : Settings) (x : RedCfg) : Bool :=
  declared c x.ctx && (x.home == c.pkg || c.partners.any (·.package == x.home)) && x.length % 256 == 0 &&
    (!(x.home == c.pkg && ownsRed c x) || (inStaging c x.ctx none x.buffer (x.members * x.length + 8 * (x.length / redElem x.fmt)) &&
      x.counter.all (localSig c x.ctx)))

/-- Unused entries of the lists of a section are zero (R430): `n` entries from field `i` on, their count in field `k`. -/
def unusedZero (xs : List Section) (ty k i n : Nat) : Bool :=
  (recordsOf xs ty).all fun r => (((r.drop i).take n).drop (at' r k)).all (· == 0)

/-- The lists of RELAY, PARTNERS and EXPORTS. -/
def listsOk (xs : List Section) : Bool :=
  unusedZero xs 0x0F 2 3 8 && unusedZero xs 0x10 3 4 4 && unusedZero xs 0x11 10 11 16

/-- What an image for L40-C may not declare (R11). -/
def gradeOk (g : Grade) (c : Settings) : Bool :=
  g != .c || (c.partners.isEmpty && c.exports.all (fun e => (match e.target with
    | .reduction _ => true
    | _ => false) && e.permitted.all (·.isEmpty)) && c.reds.all (·.home == c.pkg))

def safetyOk (x : SafetyCfg) : Bool := x.stallWindow % 10000 == 0

def powerOk (x : PowerCfg) : Bool := (x.glowIdle == 0 || 100 ≤ x.glowIdle) && x.scrub % 1000 == 0

/-- No object is declared twice. -/
def uniqueOk (c : Settings) : Bool :=
  noRepeat (·.ctx) c.ctxs && noRepeat (·.ctx) c.staging && noRepeat (·.qid) c.sqs && noRepeat (·.qid) c.cqs && noRepeat (·.ctr) c.ctrs &&
    noRepeat (fun v => v.ctx * 4096 + v.vid) c.vctrs && noRepeat (fun x => x.ctx * 2048 + x.ring) c.rings &&
    noRepeat (fun x => x.ctx * 1024 + x.queue) c.handles && noRepeat (fun x => x.half.num * 256 + x.feed) c.feeds &&
    noRepeat (·.line) c.pacing && noRepeat (fun x => x.ctx * 4096 + x.channel) c.channels && noRepeat (·.package) c.partners &&
    noRepeat (·.id) c.exports && noRepeat (fun x => x.ctx * 4096 + x.red) c.reds

/-- Every statement that calls an image invalid, and every range. -/
def rulesOk (g : Grade) (c : Settings) (xs : List Section) : Bool :=
  rangesOk xs && listsOk xs && uniqueOk c && halfOk c .east && halfOk c .west && c.parts.all partOk && c.ctxs.all (ctxOk c) && seamOk c &&
    c.staging.all (stagingOk c) && stagingApart c .east && stagingApart c .west && segsOk g c (recordsOf xs 5) &&
    c.sqs.all (sqOk c) && c.cqs.all cqOk && c.ctrs.all (fun k => declared c k.owner) && c.vctrs.all (vctrOk c) &&
    (recordsOf xs 9).all vctrRecOk && c.rings.all (ringOk c) && (recordsOf xs 0x0A).all (fun r => isPow2 (at' r 4)) &&
    c.handles.all (handleOk c) && c.ctxs.all (fun x => buffersApart c x.ctx) && ratesOk g c .east && ratesOk g c .west &&
    c.feeds.all (fun f => declared c f.ctx) && c.pacing.all (fun l => declared c l.ctx && (l.source != .timer || 1000 ≤ l.period)) &&
    c.channels.all (channelOk c) && c.relays.all (relayOk c) && c.partners.all (partnerOk c) &&
    (c.partners.filter (!·.routed)).length ≤ 64 && (c.partners.filter (·.routed)).length ≤ 1024 && creditOk c .east &&
    creditOk c .west && c.exports.all (exportOk c) && c.reds.all (redOk c) && gradeOk g c && safetyOk c.safety && powerOk c.power

/-! ## Image checks (R429, R432) -/

/-- A byte of the flash; an erased byte holds 0xFF. -/
def flashByte (_ : Nat) : Byte := 0xFF

def flashRead (s : State) (a n : Nat) : List Byte := sparseRead flashByte s.flash a n

/-- The header is wrong (reason 0x01). -/
def headerBad (h : List Byte) : Bool :=
  let len := fieldAt h 12 4
  fieldAt h 0 4 != 0x49435646 || fieldAt h 4 2 != 2 || len < 352 || len > 4194304 || len % 8 != 0 || fieldAt h 16 2 > 7 ||
    fieldAt h 20 2 ≥ 2 ^ 14 || fieldAt h 22 2 > 1 || anyNonZero ((h.drop 28).take 36) || anyNonZero ((h.drop 160).take 96)

def gradeBit : Grade → Nat
  | .a => 0
  | .b => 1
  | .c => 2

/-- The signature over all bytes but the last 96 verifies under PUBX and PUBY (R429). -/
def signatureOk (img : List Byte) : Bool :=
  let n := img.length - 96
  ecdsaVerify (beVal ((img.drop 64).take 48)) (beVal ((img.drop 112).take 48)) (img.take n) (beVal ((img.drop n).take 48))
    (beVal (img.drop (n + 48)))

/-- The sections of an image when they are well formed (reason 0x06 otherwise). -/
def sectionsOf (img : List Byte) : Option (List Section) :=
  match readSections 22 0 ((img.take (img.length - 96)).drop 256) with
  | none => none
  | some xs =>
    if xs.length == fieldAt img 18 2 && xs.any (·.1 == 1) && xs.any (·.1 == 2) then some xs else none

/-- The outcome of the image checks: a reason code, or the settings. -/
inductive ImageCheck where
  | fails (reason : Nat)
  | valid (c : Settings)
  deriving DecidableEq, Repr

/-- Checks 0x02 to 0x05. -/
def imageBarred (f : Fuses) (img : List Byte) : Option Nat :=
  if beVal (sha384 ((img.drop 64).take 96)) != f.keyHash then some 2
  else if !signatureOk img then some 3
  else if fieldAt img 6 2 < f.rollback then some 4
  else if !bit (fieldAt img 16 2) (gradeBit f.grade) then some 5
  else none

/-- Checks 0x06 to 0x08. -/
def imageContents (f : Fuses) (img : List Byte) : ImageCheck :=
  match sectionsOf img with
  | none => .fails 6
  | some xs =>
    let packed := Config.packedSize (fieldAt img 8 4) (beVal (sha384 img))
    let c := settingsOf img xs packed
    if !rulesOk f.grade c xs then .fails 7 else if packed > 262144 then .fails 8 else .valid c

/-- The table "Image checks", in its order, applied to the flash. -/
def checkImage (s : State) (answers : Bool) : ImageCheck :=
  let h := flashRead s 0 256
  if !answers then .fails 9
  else if headerBad h then .fails 1
  else
    let img := flashRead s 0 (fieldAt h 12 4)
    match imageBarred s.fuses img with
    | some r => .fails r
    | none => imageContents s.fuses img

end Sys2Proof.Machine
end

