-- ==== Sys2Proof/Machine/Ledger.lean ====
section
/-! DEFINITION. The ledger: entries joining a partition's chain, seals, resumes, chain breaks, and the ledger queue's registers (R417
to R425). -/

namespace Sys2Proof.Machine

/-! ## Entries -/

/-- PHASE of an entry: bit 7 of FLAGS. -/
def entryPhase (bs : List Byte) (on : Bool) : List Byte :=
  patchAt 2 (leBytes 1 (fieldAt bs 2 1 % 128 + (if on then 128 else 0))) bs

/-- SEQ of the chain's next entry. -/
def nextSeq (l : LedgerSt) : Nat := if l.chained then l.seq + 1 else 0

/-- SEQ, CHAIN and PREV of an entry; PHASE stays 0 (R419). REQUEST and INBOUND entries have their TIME from their closing. -/
def stampEntry (l : LedgerSt) (bs : List Byte) : List Byte :=
  patchAt 32 l.prev (patchAt 16 (leBytes 4 l.chain) (patchAt 8 (leBytes 8 (nextSeq l)) bs))

def isSealKind (kind : Nat) : Bool := kind == 3 || kind == 4

/-- The entry `bs`, PHASE 0, is written to the queue and becomes the chain's last. -/
def appendEntry (s : State) (p kind : Nat) (bs : List Byte) : State :=
  let l := getLedger s p
  let d := 2 ^ l.log
  let q := nextSeq l
  let s1 := hostWrite s p (l.base + l.records % d * 256) (entryPhase bs (phaseOf l.records d))
  let s2 := updLedger s1 p fun l =>
    { l with records := (l.records + 1) % 2 ^ 32, chained := true, seq := q, prev := sha256 bs
             sealSeq := if kind == 3 then q else l.sealSeq, lastMark := if isSealKind kind then q else l.lastMark
             sinceSeal := if isSealKind kind then 0 else if kind == 5 then l.sinceSeal else l.sinceSeal + 1 }
  if isSealKind kind then sendMsix s2 p l.vector else s2

/-- Bytes 0 to 31 of an entry of another kind than REQUEST and INBOUND. -/
def plainHead (s : State) (p kind flags : Nat) : List Byte :=
  leBytes 1 kind ++ zeros 1 ++ leBytes 1 flags ++ zeros 1 ++ leBytes 4 s.cfg.gen ++ zeros 13 ++ leBytes 1 p ++ zeros 10

def serialBytes (s : State) : List Byte := leBytes 8 s.fuses.serial0.toNat ++ leBytes 8 s.fuses.serial1.toNat

def deviceKey (s : State) : Nat := Config.deviceKey s.fuses.serial0 s.fuses.serial1

/-- The public key of the device. -/
def devicePublic (s : State) : Nat × Nat := (affine (pointMul 384 (deviceKey s) p384g)).getD (0, 0)

/-- A SEAL (R422), signed over the entry with its signature and PHASE zero. -/
def sealEntry (s : State) (p : Nat) : List Byte :=
  let l := getLedger s p
  let bare := stampEntry l (plainHead s p 3 0 ++ zeros 128 ++ serialBytes s ++ leBytes 8 l.lastMark ++ zeros 72)
  let sg := ecdsaSign (deviceKey s) (Config.sealNonce s.drawn) bare
  patchAt 64 (beBytes 48 sg.1 ++ beBytes 48 sg.2) bare

def writeSeal (s : State) (p : Nat) : State := { appendEntry s p 3 (sealEntry s p) with drawn := s.drawn + 1 }

/-- A RESUME (R423) that names how many requests the reset cut. -/
def resumeEntry (s : State) (p n : Nat) : List Byte :=
  stampEntry (getLedger s p) (plainHead s p 5 0 ++ zeros 32 ++ leBytes 4 n ++ zeros 188)

/-- A chain break (R424) that names the seal found. -/
def breakEntry (s : State) (p : Nat) (found : Option (List Byte)) : List Byte :=
  let l := getLedger s p
  let body := match found with
    | some e => sha256 e ++ (e.drop 8).take 8 ++ (e.drop 16).take 4 ++ zeros 84
    | none => zeros 128
  let bare := plainHead s p 4 (if found.isNone then 8 else 0) ++ body ++ serialBytes s ++ zeros 80
  patchAt 16 (leBytes 4 l.chain) bare

/-! ## LEDGER_SEAL and LEDGER_ENTRY_CLOSE -/

/-- The queue's room has changed: entries that it can take no more are held, and their requests park (R425). -/
def judgeRoom (s : State) (p : Nat) : State := parkHeld (judgeHeld s p) p

/-- LEDGER_SEAL (R421): it completes when its seal is written. -/
def execLedgerSeal (t : Mc) (p : Fin 16) (s : State) : Result :=
  withAdmin t p 0x0040 s noCtx
    (fun s e =>
      failIf (opBytes e 16 63) stBadProgram dtReserved ++ failIf (!(getLedger s p.val).enabled) stBadProgram 0x4030)
    (fun s e => judgeRoom (updLedger s p.val fun l => { l with seals := l.seals ++ [(entryTag e, entryIrq e)] }) p.val)

/-- A due seal: one for each LEDGER_SEAL, and one after every 4,096 entries. -/
def sealNext (s : State) (p : Nat) : State :=
  match (getLedger s p).seals with
  | x :: _ =>
    adminRecord (updLedger (writeSeal s p) p fun l => { l with seals := l.seals.drop 1 }) p x.1 x.2 stOk 0 0
  | [] => writeSeal s p

/-- A request's entry is written: the record's LEDGER field names it, and the request goes on (R417, R420). -/
def entryWritten (s : State) (e : LedEntry) (seq : Nat) : State :=
  match e.req with
  | none =>
    e.release.foldl (fun s u => sendUpdate s u.1 u.2.1 u.2.2.1 u.2.2.2 (s.time + releaseDelay u.1 u.2.2.2)) s
  | some id =>
    match getReq s id with
    | some r =>
      let w := if r.wait == some .entry && r.hauler.isSome && !entryHeld s r then none else r.wait
      settle (setReq s { r with lastSeq := some seq, wait := w }) id
    | none => s

/-- The closed entry that is written next, of those that have reached the ledger unit by `now`. -/
def firstClosed (now : Mc) (l : LedgerSt) : Option LedEntry := (closedEntries l).find? fun e => reachTime e ≤ now

/-- A closed entry is written. -/
def closeEntry (s : State) (p : Nat) : State :=
  let l := getLedger s p
  match firstClosed s.time l with
  | none => s
  | some e =>
    let s1 := updLedger s p fun l => { l with waiting := dropFirst (fun x => x == e) l.waiting }
    entryWritten (appendEntry s1 p e.kind (stampEntry l e.bytes)) e (nextSeq l)

/-- A SEAL is due: entries that close wait for it (R421). -/
def sealDue (l : LedgerSt) : Bool := !l.seals.isEmpty || decide (l.sinceSeal ≥ 4096)

/-- The partition's next entry is written: a RESUME, a due SEAL, or a closed entry. -/
def nextEntry (s : State) (p : Nat) : State :=
  let l := getLedger s p
  judgeRoom (match l.resume with
    | some n => appendEntry (updLedger s p fun l => { l with resume := none }) p 5 (resumeEntry s p n)
    | none => if sealDue l then sealNext s p else closeEntry s p) p

/-- There is an entry that `nextEntry` writes. -/
def entryDue (now : Mc) (l : LedgerSt) : Bool := l.resume.isSome || sealDue l || (firstClosed now l).isSome

/-- The partition's queue takes entries: it has room, and its chain a head. -/
def ledgerTakes (s : State) (p : Nat) : Bool := ledgerRoom s p && (getLedger s p).chained

/-- LEDGER_ENTRY_CLOSE: the partition's next entry is written, once one is due; then inbound requests that waited for it are tried
again. -/
def execLedgerEntryClose (t : Mc) (p : Fin 16) (s : State) : Result :=
  let s1 := whenReady s t fun x => (getLedger x p.val).waiting.isEmpty || entryDue x.time (getLedger x p.val)
  if !running s1 || !ledgerTakes s1 p.val || !entryDue s1.time (getLedger s1 p.val) then answer s s1 else answer s (retryInbound (nextEntry s1 p.val))

/-! ## The ledger queue's registers (R353, R424) -/

/-- An entry of the queue memory is a SEAL that verifies under the device key. -/
def sealVerifies (s : State) (e : List Byte) : Bool :=
  let k := devicePublic s
  let bare := patchAt 64 (zeros 96) (entryPhase e false)
  fieldAt e 0 1 == 3 && ecdsaVerify k.1 k.2 bare (beVal ((e.drop 64).take 48)) (beVal ((e.drop 112).take 48))

/-- The seal with the highest CHAIN, and of those the highest SEQ, PHASE taken as 0. -/
def bestSeal (es : List (List Byte)) : Option (List Byte) :=
  es.foldl (fun b e =>
    let key := fun (x : List Byte) => (fieldAt x 16 4) * 2 ^ 64 + fieldAt x 8 8
    match b with
    | none => some e
    | some x => if key x < key e then some e else some x) none

/-- A new chain begins (R424). -/
def newChain (s : State) (p : Nat) : State :=
  let l := getLedger s p
  let es := (List.range (2 ^ l.log)).map fun i => hostRead s p (l.base + i * 256) 256
  let found := (bestSeal (es.filter (sealVerifies s))).map fun e => entryPhase e false
  let c := match found with
    | some e => (fieldAt e 16 4 + 1) % 2 ^ 32
    | none => 0
  let s1 := updLedger s p fun l => { l with chain := c, sealSeq := 0, sinceSeal := 0, resume := none }
  appendEntry s1 p 4 (breakEntry s1 p found)

/-- LEDGER_QUEUE_ENABLE: a write of FV_LED_QCTL. LOG2DEPTH is taken while ENABLE is 0; ENABLE from 0 to 1 with LOG2DEPTH 6 to 16
zeroes the counts, and starts a chain when there is none. -/
def execLedgerQueueEnable (t : Mc) (w : RegWrite) (s : State) : Result :=
  let s1 := hostAt s t w.port
  if !regOpen s1 w .plain then answer s s1
  else
    let p := pagePart w.page
    let l := getLedger s1 p
    let log := if l.enabled then l.log else regBits w 8 4
    let s2 := updLedger s1 p fun l => { l with vector := regBits w 23 13, log := log }
    if !regBit w 0 then answer s (judgeRoom (updLedger s2 p fun l => { l with enabled := false }) p)
    else if l.enabled || log < 6 || log > 16 then answer s s2
    else
      let s3 := updLedger s2 p fun l => { l with enabled := true, head := 0, records := 0 }
      answer s (if l.chained then s3 else newChain s3 p)

/-- LEDGER_QUEUE_HEAD: a write of FV_LED_QHEAD; a HEAD above RECORDS is ignored and counted as one dropped record, in the partition's
DROPPED count (R353), the only one that the manual gives it (assumption 81, DEDUCED). -/
def execLedgerQueueHead (t : Mc) (w : RegWrite) (s : State) : Result :=
  let s1 := hostAt s t w.port
  if !regOpen s1 w .plain then answer s s1
  else
    let l := getLedger s1 (pagePart w.page)
    let v := regBits w 31 0
    if sub32b v l.head > sub32b l.records l.head then
      answer s (updFaultQ s1 (pagePart w.page) fun q => { q with dropped := capAt 0xFFFFFFFF (q.dropped + 1) })
    else answer s (updLedger s1 (pagePart w.page) fun l => { l with head := v })

end Sys2Proof.Machine
end

