-- ==== Sys2Proof/Machine/Startup.lean ====
section
/-! DEFINITION. What a start-up and a reset leave: the run-time state of a set of settings, memory retention, the fuse rollback value,
the two logs, cold start, warm reset and half reset (R272, R274, R433, R435, R438 to R443, R478, R497). -/

namespace Sys2Proof.Machine

/-! ## The Hearth's logs (R478, R497) -/

/-- An entry of a log, by its index, replacing the older record there. -/
def logPut (l : List (Nat × List Byte)) (i : Nat) (bs : List Byte) : List (Nat × List Byte) :=
  insertBy Prod.fst (i, bs) (l.filter fun x => x.1 != i)

/-- The state that a power log record names: 0 Run, 1 Glow, 2 Banked. -/
def powerStateOf (s : State) (h : Half) : Nat := if s.power.banked then 2 else if s.power.glow.get h then 1 else 0

/-- The 16 bytes of a power log record (table "Power log record"). -/
def powerBytes (s : State) (kind half stack measure state : Nat) : List Byte :=
  leBytes 1 kind ++ leBytes 1 state ++ leBytes 1 half ++ leBytes 1 stack ++ leBytes 2 measure ++ zeros 2 ++
    leBytes 8 (s.power.htime % 2 ^ 64)

/-- A power log record: record n since PWRGOOD, counted from 0, takes index n mod 64. -/
def powerRecord (s : State) (kind : Nat) (h : Half) (stack measure : Nat) : State :=
  let p := s.power
  let bs := powerBytes s kind h.num stack measure (powerStateOf s h)
  { s with power := { p with log := logPut p.log (p.logCount % 64) bs, logCount := p.logCount + 1 } }

def pwWarning : Nat := 1
def pwRecovered : Nat := 2
def pwReset : Nat := 3
def pwClock : Nat := 4
def pwThermal : Nat := 5
def pwSelfRefresh : Nat := 6
def pwScrub : Nat := 7
def pwStage : Nat := 8

def rxCounted : Nat := 0
def rxQuench : Nat := 1
def rxHalfReset : Nat := 2
def rxRetire : Nat := 3
def rxOverdue : Nat := 4
def rxWarmReset : Nat := 5

/-- What an integrity record says beside its times and its number (table "Integrity record"). -/
structure IntRec where
  kind      : Nat
  reaction  : Nat
  half      : Half
  unitClass : Nat
  unit      : Nat
  /-- Quenched contexts, first first. -/
  ctxs      : List Nat
  object    : Nat

/-- The 32 bytes of an integrity record. -/
def intBytes (r : IntRec) (detect react seq : Nat) : List Byte :=
  leBytes 1 r.kind ++ leBytes 1 r.reaction ++ leBytes 1 r.half.num ++ leBytes 1 r.unitClass ++ leBytes 2 r.unit ++
    leBytes 1 (r.ctxs.headD 0) ++ leBytes 1 (capAt 255 r.ctxs.length) ++ leBytes 8 r.object ++ leBytes 6 detect ++ leBytes 6 react ++
    leBytes 4 seq

/-- An integrity record (R497): record n since PWRGOOD, counted from 0, is SEQ n and takes index n mod 256. Reactions other than
COUNTED pull SAFETY_ALERT_N low (R496). -/
def intRecord (s : State) (r : IntRec) (react : Nat) : State :=
  let g := s.integ
  { s with integ := { g with log := logPut g.log (g.records % 256) (intBytes r s.time react g.records), records := g.records + 1
                             lastKind := r.kind, alert := g.alert || r.reaction != rxCounted
                             alertAt := if r.reaction != rxCounted then some s.time else g.alertAt
                             overdue := g.overdue || r.reaction == rxOverdue } }

/-! ## The run-time state of a set of settings -/

def CtxState.start (c : CtxCfg) : CtxState :=
  { ctx := c.ctx, st := .loaded, profile := c.initialProfile, ran := false, late := [], faulted := false, lateCount := 0, waitNo := 0
    lateKind := 0, lateId := 0, cw := none, resetOp := none, resetProfile := 0, quenchAfter := false, quenchedAt := 0 }

/-- A submission queue without entries. -/
def SubQueue.start (qid : Nat) (st : QState) (base prio : Nat) : SubQueue :=
  { qid := qid, st := st, base := base, tail := 0, head := 0, held := [], running := 0, active := false, shadow := none, run := none
    ended := none, endedAt := 0, left := [], stopped := false, stops := [], committed := prio, shadowPrio := prio
    prioUntil := none }

def CompQueue.start (qid : Nat) (st : QState) (base : Nat) : CompQueue :=
  { qid := qid, st := st, base := base, count := 0, head := 0, discards := 0, unsignalled := 0, oldest := 0 }

/-- The admin queues are ENABLED at their bases; their commands take priority 7 (R274). -/
def adminSqs (ps : List PartCfg) : List SubQueue := ps.zipIdx.map fun x => SubQueue.start x.2 .enabled x.1.adminSqBase 7

def adminCqs (ps : List PartCfg) : List CompQueue := ps.zipIdx.map fun x => CompQueue.start x.2 .enabled x.1.adminCqBase

/-- The queues after a start-up; `kept` gives the committed priority of a queue that keeps it. -/
def startQueues (c : Settings) (kept : Nat → Option Nat) : Queues :=
  { Queues.reset with
    sqs := adminSqs c.parts ++ c.sqs.map fun q => SubQueue.start q.qid .disabled 0 ((kept q.qid).getD q.priority)
    cqs := adminCqs c.parts ++ c.cqs.map fun q => CompQueue.start q.qid .disabled 0 }

def CtrSt.start (c : CtrCfg) : CtrSt :=
  { ctr := c.ctr, value := c.initial, gen := 0, abandoned := false, sat := false, discards := 0, copyValue := c.initial, copyGen := 0
    copyAbandoned := false }

def HandleSt.start (c : HandleCfg) : HandleSt := { ctx := c.ctx, queue := c.queue, entries := [], nextId := 0 }

def FeedSt.start (c : FeedCfg) : FeedSt := { half := c.half, feed := c.feed, entries := [] }

/-- A timer's first request is due a period after the end of start-up (table "Pacing sources"). -/
def PacingSt.start (c : PacingCfg) : PacingSt := { line := c.line, pending := 0, overruns := 0, coming := [], due := c.period }

def ChannelSt.start (c : ChannelCfg) : ChannelSt :=
  { ctx := c.ctx, channel := c.channel, history := [], sat := 0, raised := false, nonFinite := 0 }

/-- A partner record before any contact: Absent, counts 0 (table "Retention"). -/
def Partner.start (c : PartnerCfg) : Partner :=
  { num := c.num, st := .absent, rev := 0, profiles := 0, gen := 0, boot := none, credit := 0, violTimes := []
    violations := 0, late := 0, timeouts := 0, fencedDrops := 0, txSeq := 1, rxH := 0, rxAbove := [], retained := [], okRun := 0
    badPath := none, recent := [], nextTag := 0, wakeUntil := none, bankWake := false, setAt := 0
    trainAt := 0, downAt := 0 }

def startBuffers (c : Settings) : Buffers :=
  { Buffers.reset with
    rings := c.rings.map RingSt.empty, handles := c.handles.map HandleSt.start, feeds := c.feeds.map FeedSt.start
    pacing := c.pacing.map PacingSt.start }

/-- The settings of an image take effect, and the contexts are loaded (steps 6 and 7 of the table "Cold start"). -/
def applySettings (s : State) (c : Settings) (kept : Nat → Option Nat) : State :=
  { s with
    cfg := c, ctxs := c.ctxs.map CtxState.start, q := startQueues c kept, buf := startBuffers c
    ctr := { Counters.reset with ctrs := c.ctrs.map CtrSt.start }
    seg := { Segs.reset with segs := c.segs.map fun g => newSegment g true }
    channels := c.channels.map ChannelSt.start, rem := { Remote.reset with partners := c.partners.map Partner.start } }

/-- Everything that a package reset clears (class V and the items of the table "Retention"). The records that the log registers show, of
class H, are kept, with their selectors at 0 (R536). MV_RUN falls (R516). -/
def clearRun (s : State) : State :=
  let snap := fun (pg : Page) =>
    let x := getSel s pg
    { Selectors.reset pg with pwrSnap := x.pwrSnap, intSnap := x.intSnap }
  { State.reset with
    sels := allPages.map snap, out := { Outputs.reset with mvFalls := s.out.mvFalls + (if s.power.up then 1 else 0) }
    pending := s.pending, fuses := s.fuses, flash := s.flash, mem := s.mem, copy := s.copy, status := { s.status with maintBase := 0 }
    power := s.power, integ := s.integ, ledgers := s.ledgers, drawn := s.drawn }

/-! ## Memory -/

/-- The HBM stacks lost power: their bytes and poison are undefined (table "Retention"). -/
def loseHbm (m : Mem) : Mem :=
  { cells := m.cells.filter fun c => hbmTop ≤ c.1, marks := m.marks.filter fun c => hbmTop ≤ c.1 * 256, hbmEpoch := m.hbmEpoch + 1
    recent := m.recent }

/-! ## Fuses and status -/

/-- The fuse rollback value rises when a valid image with COMMIT_ROLLBACK brings the mover to Run, at most 64 times (R433). -/
def raiseFuse (s : State) (c : Settings) : State :=
  if c.commitRollback && s.fuses.rollback < c.rollback then
    if s.fuses.rises < 64 then { s with fuses := { s.fuses with rollback := c.rollback, rises := s.fuses.rises + 1 } }
    else { s with status := { s.status with fuseFull := true } }
  else s

/-- What follows reaches no fuse: only the end of a start-up from the flash does (R433). -/
def sameFuses (s s' : State) : State := { s' with fuses := s.fuses }

/-- Slices that were retired are tested again: those that fail stay retired, with a record each (R491). -/
def retestSlices (s : State) (failing : List Slice) : List Slice := s.integ.retired.filter failing.contains

def unitClassOf : SliceKind → Nat
  | .hauler => 2
  | .tongs => 3
  | .counterPath => 6
  | .translation => 7
  | .shaPipe => 9
  | .anvil => 0x0A

/-- A slice is retired, with its record (R491). -/
def retireSlice (s : State) (x : Slice) : State :=
  let s1 := { s with integ.retired := if s.integ.retired.contains x then s.integ.retired else s.integ.retired ++ [x] }
  intRecord s1 { kind := 0x0A, reaction := rxRetire, half := x.half, unitClass := unitClassOf x.kind, unit := x.idx, ctxs := []
                 object := x.idx } s1.time

/-- The counts and windows of class V in the integrity block return to zero; the log, its counts and the alert stay. -/
def clearInteg (g : IntegritySt) (retired : List Slice) : IntegritySt :=
  { IntegritySt.reset with
    records := g.records, lastKind := g.lastKind, overdue := g.overdue, alert := g.alert, log := g.log, retired := retired }

/-- Run is reached: TIME 0, a new BOOT, and the time that the start-up took added to HTIME as a free value (R438, R439). -/
def enterRun (s : State) : State :=
  let (v, s1) := draw s
  { s1 with
    time := 0, status := { s1.status with boot := (Config.bootValue s1.status.boots).toNat % 2 ^ 32, boots := s1.status.boots + 1 }
    power := bellows { s1.power with
      cold := false, up := true, glow := ⟨false, false⟩, busyAt := ⟨0, 0⟩, ran := ⟨0, 0⟩, glowAt := ⟨0, 0⟩, wakeHeld := ⟨false, false⟩
      banked := false, entry := none, bankReq := false, holdRun := false, ctrlAt := none, timerAt := none
      htime := s1.power.htime + v.toNat, hfrac := 0 } }

/-! ## A FLASH_WRITE that a reset cuts (R437) -/

/-- The record belongs to a FLASH_WRITE, which is in progress until it is written (assumption 69). -/
def isFlashWrite (x : PendingRec) : Bool := x.flash.isSome

/-- The range that a FLASH_WRITE in progress names holds free values. -/
def cutRange (boots : Nat) (f : List Host.Cell) (x : PendingRec) : List Host.Cell :=
  match x.flash with
  | some (off, n) => sparseWrite flashByte f off ((List.range n).map fun i => Config.flashCut boots (off + i))
  | none => f

/-- A FLASH_WRITE in progress ends without a record and leaves its range partly written. -/
def cutFlash (s : State) : State :=
  { s with flash := (s.q.records.filter isFlashWrite).foldl (cutRange s.status.boots) s.flash
           q.records := s.q.records.filter fun x => !isFlashWrite x }

/-- The answer of a command that may end in a start-up: the queue of waiting commands stays as it was, and the flash unless a
FLASH_WRITE has been cut. -/
def answerStart (s s' : State) : Result :=
  .next { s' with
    pending := s.pending
    flash := if s'.q.records.any isFlashWrite then s.flash else (cutFlash s).flash }

/-! ## Cold start (R438) -/

/-- What the image checks of a start-up from the flash leave: the settings and the Hearth copy, or maintenance configuration. -/
def takeImage (s : State) (chk : ImageCheck) (kept : Nat → Option Nat) : State :=
  match chk with
  | .valid c =>
    raiseFuse { applySettings s c kept with
      copy := some c, status := { s.status with reason := 0, fromCopy := false, maint := false } } c
  | .fails r => { s with status := { s.status with reason := r, fromCopy := false, maint := true } }

/-- A cold start from the present contents of the flash. -/
def coldStart (s0 : State) (env : StartEnv) : State :=
  let s := cutFlash s0
  let chk := checkImage s env.flashAnswers
  let kept := retestSlices s env.failing
  let m := zeroStocks (if env.stacksPowered then s.mem else loseHbm s.mem)
  let s1 := clearRun
    { s with mem := m, copy := none, ledgers := (List.range 16).map LedgerSt.reset, integ := clearInteg s.integ []
             status := { s.status with last := 1, copyFail := false, warm := 0 }
             power := { s.power with banks := 0, hold := ⟨false, false⟩, lowest := ⟨0, 0⟩, scrubLine := ⟨0, 0⟩
                                     scrubCorrected := ⟨0, 0⟩, scrubbed := [] } }
  kept.foldl retireSlice (enterRun (takeImage s1 chk fun _ => none))

/-- COLD_START: PWRGOOD rises. -/
def execColdStart (t : Mc) (env : StartEnv) (s : State) : Result :=
  if s.power.cold then answerStart s (coldStart s env) else answer s (atTime s t)

/-- PWRGOOD has fallen: only the fuses, the flash, the memories, the count of start-ups and the slices found faulty are left. -/
def losePower (s : State) : State :=
  { State.reset with
    pending := s.pending, fuses := s.fuses, flash := (cutFlash s).flash, mem := s.mem, drawn := s.drawn
    integ := { IntegritySt.reset with retired := s.integ.retired }, status := { CfgStatus.reset with boots := s.status.boots }
    out := { Outputs.reset with mvFalls := s.out.mvFalls + (if s.power.up then 1 else 0) } }

/-- POWER_LOSS. -/
def execPowerLoss (t : Mc) (s : State) : Result :=
  let s1 := atTime s t
  if s1.power.cold then answer s s1 else answerStart s (losePower s1)

/-! ## Warm reset (R439) -/

/-- LAST of a reset (FV_CFG_STATUS). -/
def lastWarmPin : Nat := 2
def lastWarmCmd : Nat := 3
def lastReload : Nat := 4

/-- Step 1: every request ends with CONTEXT_RESET. -/
def endAllRequests (s : State) : State :=
  (s.run.reqs.map (·.id)).foldl (fun s id => match getReq s id with
    | some r => endRequest s id stContextReset (wordDetail r) []
    | none => s) s

/-- Step 2: the entries that are due are written, seals among them in their places, while the queue has room. -/
def flushLedger : Nat → State → Nat → State
  | 0, s, _ => s
  | f + 1, s, p => if ledgerTakes s p && entryDue s.time (getLedger s p) then flushLedger f (nextEntry s p) p else s

/-- Step 2: completion records are written while their queues have room. -/
def flushRecords : Nat → State → Nat → State
  | 0, s, _ => s
  | f + 1, s, cq => if s.q.records.any (·.cq == cq) then flushRecords f (writeRecord s cq) cq else s

def flushAll (s : State) : State :=
  let s1 := (List.range 16).foldl (fun s p => flushLedger (2 * (getLedger s p).waiting.length + (getLedger s p).seals.length + 2) s p) s
  (dedup (s1.q.records.map (·.cq))).foldl (fun s cq => flushRecords s.q.records.length s cq) s1

/-- Requests of a partition that the reset ends before their last ledger entry closed (table of R422's RESUME entry). One whose last entry
had closed and could not be written is not among them. -/
def cutRequests (s : State) (p : Nat) : Nat :=
  (s.run.reqs.filter fun r => partOfCtx s r.ctx == p && ledgered s r.ctx &&
    (!r.lastPart || (getLedger s p).waiting.any fun e => e.req == some r.id && e.closed.isNone)).length

/-- A chain across a warm reset: kept with a RESUME due, or lost with a Hearth copy that fails its CRC (R423). -/
def resumeChain (s : State) (ok : Bool) (l : LedgerSt) : LedgerSt :=
  if ok && l.chained then
    { LedgerSt.reset l.part with
      chained := true, chain := l.chain, seq := l.seq, prev := l.prev, sealSeq := l.sealSeq, sinceSeal := l.sinceSeal
      lastMark := l.lastMark, resume := some (cutRequests s l.part) }
  else LedgerSt.reset l.part

/-- Steps 3 to 5, with LAST `last`; `fromFlash` skips the Hearth copy. -/
def restart (s : State) (env : StartEnv) (fromFlash : Bool) (last : Nat) : State :=
  let chk := checkImage s env.flashAnswers
  let fails := retestSlices s env.failing
  let prio := fun q => (getSq s q).map (·.committed)
  let useCopy := !fromFlash && env.copyCrcOk
  let s1 := clearRun
    { s with mem := zeroStocks s.mem, ledgers := s.ledgers.map (resumeChain s env.headCrcOk), integ := clearInteg s.integ []
             status := { s.status with last := last, warm := capAt 0xFFFF (s.status.warm + 1)
                                       copyFail := !fromFlash && !(env.copyCrcOk && s.copy.isSome) } }
  let s2 := match (if useCopy then s.copy else none) with
    | some c => { applySettings s1 c prio with status := { s1.status with fromCopy := true, maint := false } }
    | none => takeImage s1 chk prio
  fails.foldl retireSlice (enterRun s2)

/-- 50 µs in mc. -/
def resetGrace : Mc := 105000

/-- No ended request waits for its writes or effects any more. -/
def allAnswered (s : State) : Bool :=
  s.run.reqs.all fun r => r.writes.isEmpty && r.effects.isEmpty && !lineOpen s r (·.write)

/-- A response that arrives within step 2. -/
def graceResponse (last : Mc) (s : State) (r : Mc × RxFrame) : State :=
  if r.1 ≤ last && !s.halfReset.get r.2.half && s.fuses.grade != .c && !s.status.maint then responseFrame (atTime s r.1) r.2 else s

/-- Step 2: for 50 µs the writes that the ended requests have issued are answered, by partners too, and their effects done. -/
def graceTime (s : State) (env : StartEnv) : State :=
  let last := s.time + resetGrace
  let s1 := (sortBy Prod.fst env.responses).foldl (graceResponse last) s
  whenReady s1 s1.time fun x => allAnswered x || last ≤ x.time

/-- A warm reset. -/
def warmReset (s : State) (env : StartEnv) (fromFlash : Bool) (last : Nat) : State :=
  restart (sameFuses s (flushAll (graceTime (endAllRequests (cutFlash s)) env))) env fromFlash last

/-- A warm reset that the clock check or the integrity monitor starts; LAST names no such cause, and is a free value. -/
def monitorReset (s : State) (env : StartEnv) : State :=
  let (v, s1) := draw s
  warmReset s1 env false (v.toNat % 256)

/-! ## Half reset (R440, R441) -/

/-- A context of the resetting half enters QUENCHED; a CONTEXT_RESET under way completes with QUENCHED (R441, R493). It stays faulted until
its CONTEXT_RESET (R440, R515). -/
def resetCtx (s : State) (c : CtxCfg) : State :=
  let op := (getCtx s c.ctx).bind (·.resetOp)
  let s1 := updCtx s c.ctx fun x =>
    { x with st := .quenched, resetOp := none, quenchAfter := false, late := [], lateCount := 0, lateKind := 0, lateId := 0 }
  match op.bind (getOp s1) with
  | some o => finishOp s1 o stQuenched 0
  | none => s1

/-- A request of the resetting half ends with QUENCHED, and waits for no response. -/
def resetHalfRequest (s : State) (r : Request) : State :=
  let s1 := endRequest s r.id stQuenched (wordDetail r) r.writes
  let s2 := (s1.rem.outReqs.filter fun o => o.req == some r.id).foldl (fun s o => dropOut s o.num o.tag) s1
  releaseEffects s2 r.id

/-- Contexts homed in a half. -/
def ctxsOf (s : State) (h : Half) : List CtxCfg := s.cfg.ctxs.filter (·.homeHalf == h)

/-- The rings, handle queues, feeds and pacing counts of the half are cleared, with the DRAINs of its rings, and the code tables of its
Anvil ports; what else the ports and the store buffer hold is unchanged (R443). -/
def clearHalfBuffers (s : State) (h : Half) : State :=
  let ring := fun (x : RingSt) => match ringCfg s x.ctx x.ring with
    | some c => if c.half == h then RingSt.empty c else x
    | none => x
  let handle := fun (x : HandleSt) => match handleCfg s x.ctx x.queue with
    | some c => if c.half == h then HandleSt.start c else x
    | none => x
  let line := fun (x : PacingSt) => match pacingCfg s x.line with
    | some c => if homeOfCtx s c.ctx == h then { x with pending := 0, coming := [] } else x
    | none => x
  { s with buf.rings := s.buf.rings.map ring, buf.handles := s.buf.handles.map handle
           buf.feeds := updWhere (fun (x : FeedSt) => x.half == h) (fun x => { x with entries := [] }) s.buf.feeds
           buf.pacing := s.buf.pacing.map line, buf.drains := s.buf.drains.filter (·.half != h)
           buf.anvils := updWhere (fun (x : AnvilPort) => x.half == h) (fun x => { x with tables := [] }) s.buf.anvils }

/-- The other items of the table "Retention" that a half reset clears. -/
def clearHalf (s : State) (h : Half) : State :=
  let homed := fun ctx => homeOfCtx s ctx == h
  let s1 := clearHalfBuffers { s with mem := zeroStock h s.mem } h
  let s2 := { s1 with seg.hot := s1.seg.hot.set h []
                      channels := updWhere (fun (c : ChannelSt) => homed c.ctx)
                        (fun c => { c with history := [], sat := 0, raised := false, nonFinite := 0 }) s1.channels
                      q.sqs := updWhere (fun x => sqHome s x.qid == h) (fun x => { x with shadowPrio := x.committed }) s1.q.sqs
                      power := bellows { s1.power with glow := s1.power.glow.set h false, wakeHeld := s1.power.wakeHeld.set h false }
                      rem.rxQueue := s1.rem.rxQueue.filter (·.half != h) }
  unstall (fun m => homed m.ctx) s2

/-- Partner records of a half become Absent (R440, R442). -/
def dropPartners (s : State) (h : Half) : State :=
  ((s.cfg.partners.filter (·.half == h)).map (·.num)).foldl makeAbsent s

/-- A line that reads for a billet, and no part of a write. -/
def isSourceRead (l : Line) : Bool := !l.write && !l.merge

/-- The numbers of the line writes of billets of which a source line that meets `gone` has not been read: in stream order, the writes that
follow a lost read up to the reads of the next billet. -/
def spoiledByLoss (gone : Line → Bool) : Bool → Bool → List Line → List Nat
  | _, _, [] => []
  | lost, wrote, l :: ls =>
    if isSourceRead l then spoiledByLoss gone ((lost && !wrote) || gone l) false ls
    else if l.write && lost then l.seq :: spoiledByLoss gone lost true ls
    else spoiledByLoss gone lost true ls

/-- A line write carries every byte spoiled. -/
def taintLine (l : Line) : Line := { l with load := l.load.map fun w => { w with data := w.data.map fun b => (b.1, true) } }

/-- `n` lines of a request are spoiled; one that has run to HALT and waits for its writes completes with what then holds (R116). -/
def spoilMore (r : Request) (n : Nat) : Request :=
  let r1 := noteSpoiled r n
  if r.fin == some (haltEnd r) then { r1 with fin := some (haltEnd r1) } else r1

/-- A request's lines toward the half that are not issued: no write of them is made (R33), and no read of them comes back, so that what
its billet still has to write is written spoiled (R32). Lines not written, and lines written spoiled, or where a billet has none left to
write, lines not read, count as spoiled, and the request ends QUENCHED. The manual does not say which of a billet's destination lines a
lost source line spoils; the model spoils all that are not issued (assumption 76, DESIGN CHOICE). -/
def dropLines (h : Half) (r : Request) : Request :=
  let all := r.lines.buffers ++ r.lines.stream
  let keep := fun (l : Line) => l.half != h
  let lostReads := all.filter fun l => !keep l && isSourceRead l
  let lostWrites := all.filter fun l => !keep l && l.load.isSome
  let bad := spoiledByLoss (·.half == h) false false all
  let taint := fun (l : Line) => if bad.contains l.seq then taintLine l else l
  let tainted := all.filter fun l => keep l && bad.contains l.seq
  let strip := fun (ls : List Line) => (ls.filter keep).map taint
  let r1 := { r with lines := { r.lines with buffers := strip r.lines.buffers, stream := strip r.lines.stream } }
  if lostReads.isEmpty && lostWrites.isEmpty then dropSlot r1
  else
    let n := lostWrites.length + (if bad.isEmpty then lostReads.length else tainted.length)
    let r2 := noteSpoiled (noteCause { r1 with record := none } stQuenched) n
    dropSlot (if r.fin == some (haltEnd r) then { r2 with fin := some (haltEnd r2) } else r2)

/-- The memory ports of the half stop: no line toward it is issued or waited for any more (R32, R33). -/
def dropPorts (s : State) (h : Half) : State :=
  let keep := fun (l : Line) => l.half != h
  let strip := fun (x : StoreEntry) => { x with lines := x.lines.filter keep }
  let s1 := { s with
    run.reqs := s.run.reqs.map (dropLines h)
    buf.stores := s.buf.stores.map strip
    arb.others := s.arb.others.filter fun o => keep o.line
    arb.ports := updWhere (fun (p : MemPort) => p.half == h) (fun p => MemPort.reset h p.port) s.arb.ports }
  let s2 := (s1.buf.stores.map (·.id)).foldl closeStore s1
  (s2.run.reqs.map (·.id)).foldl releaseEffects s2

/-- Steps 1 to 3 of a half reset, which lasts until HALF_RESET_REJOIN. -/
def startHalfReset (s : State) (h : Half) : State :=
  let s1 := (ctxsOf s h).foldl resetCtx (abortLoop s)
  let s2 := (s1.run.reqs.filter (·.half == h)).foldl resetHalfRequest s1
  let s3 := dropPorts { resetEpochs s2 h with halfReset := s2.halfReset.set h true } h
  let s4 := ((s3.cfg.ctrs.filter fun c => homeOfCtr c.ctr == h).map (·.ctr)).foldl
    (fun s c => updCtr s c fun x => { x with abandoned := true }) s3
  let s5 := clearHalf (dropPartners s4 h) h
  let n := match h with
    | .east => { s5.status with halfE := capAt 0xFFFF (s5.status.halfE + 1) }
    | .west => { s5.status with halfW := capAt 0xFFFF (s5.status.halfW + 1) }
  sameFuses s (wakeContexts { s5 with status := n })

/-- A half reset; with the other half in half reset it is a warm reset (R441). -/
def halfReset (s : State) (h : Half) (env : StartEnv) : State :=
  if s.halfReset.get h then s
  else if s.halfReset.get h.other then monitorReset s env
  else startHalfReset s h

/-- HALF_RESET_REJOIN: the copies of both halves take every home value, and the halves rejoin (step 4 of R440). -/
def execHalfResetRejoin (t : Mc) (half : Half) (s : State) : Result :=
  let s1 := atTime s t
  if !s1.halfReset.get half then answer s s1
  else
    let sync := fun (c : CtrSt) => { c with copyValue := c.value, copyGen := c.gen, copyAbandoned := c.abandoned }
    let s2 := { s1 with halfReset := s1.halfReset.set half false, ctr.ctrs := s1.ctr.ctrs.map sync, ctr.copyMsgs := [] }
    answer s (retryHeld (wakeContexts s2))

end Sys2Proof.Machine
end

