-- ==== Sys2Proof/Machine/Resets.lean ====
section
/-! DEFINITION. The flash commands, RELOAD and WARM_RESET (R427, R437). -/

namespace Sys2Proof.Machine

/-- Operands of FLASH_WRITE: offset, length, source. -/
def flashOffset (e : List Byte) : Nat := fieldAt e 16 4
def flashLength (e : List Byte) : Nat := fieldAt e 20 4
def flashSource (e : List Byte) : Nat := fieldAt e 24 8

def flashSize : Nat := 4194304

/-- An operand of FLASH_WRITE is out of range (detail 0x4040). -/
def flashRangeBad (e : List Byte) : Bool :=
  flashOffset e % 4096 != 0 || flashLength e % 4096 != 0 || flashLength e < 4096 || flashOffset e + flashLength e > flashSize ||
    flashSource e % 4096 != 0 || flashSource e + flashLength e > 0x0800_0000_0000

/-- The answer of FLASH_WRITE: the fuses and the queue of waiting commands stay as they were. -/
def answerFlash (s s' : State) : Result := .next { s' with pending := s.pending, fuses := s.fuses }

/-- A command of the flash, RELOAD or WARM_RESET: they run one at a time. -/
def oneAtATime (fin : State → State → Result) (t : Mc) (p : Fin 16) (cmd : Nat) (s : State)
    (checks : State → List Byte → List (Nat × Nat)) (act : State → List Byte → State) : Result :=
  if (atTime s t).q.records.any isFlashWrite then answer s (atTime s t) else withAdminBy fin t p cmd s noCtx checks act

/-- FLASH_WRITE: the sectors are erased and programmed; after a failure only the first `programmed` bytes hold the source. -/
def execFlashWrite (t : Mc) (p : Fin 16) (programmed : Option Nat) (s : State) : Result :=
  oneAtATime answerFlash t p 0x0050 s
    (fun _ e => failIf (opBytes e 32 63) stBadProgram dtReserved ++ failIf (flashRangeBad e) stBadProgram 0x4040)
    (fun s e =>
      let n := flashLength e
      let src := hostRead s p.val (flashSource e) n
      let bs := match programmed with
        | none => src
        | some k => src.take k ++ List.replicate (n - k) 0xFF
      let s1 := { s with flash := sparseWrite flashByte s.flash (flashOffset e) (bs.take n) }
      readyRecord s1 { entryRecord s1 p.val (entryTag e) (entryIrq e) (if programmed.isNone then stOk else stBadProgram)
                         (if programmed.isNone then 0 else 0x4041) with flash := some (flashOffset e, n) })

/-- Operand bytes that FLASH_VERIFY, RELOAD and WARM_RESET reserve. -/
def noOperands (_ : State) (e : List Byte) : List (Nat × Nat) := failIf (opBytes e 16 63) stBadProgram dtReserved

def setReason (s : State) (r : Nat) : State := { s with status := { s.status with reason := r } }

/-- FLASH_VERIFY: the image checks, with nothing applied. -/
def execFlashVerify (t : Mc) (p : Fin 16) (answers : Bool) (s : State) : Result :=
  oneAtATime answer t p 0x0051 s noOperands
    (fun s e => match checkImage s answers with
      | .valid c => adminRecord (setReason s 0) p.val (entryTag e) (entryIrq e) stOk 0 c.packed
      | .fails r => finishAdmin (setReason s r) p.val e stBadProgram (0x4050 + r))

/-- RELOAD: the checks of FLASH_VERIFY, then its record and a warm reset from the flash. -/
def execReload (t : Mc) (p : Fin 16) (env : StartEnv) (s : State) : Result :=
  oneAtATime answerStart t p 0x0052 s noOperands
    (fun s e => match checkImage s env.flashAnswers with
      | .valid c =>
        warmReset (adminRecord (setReason s 0) p.val (entryTag e) (entryIrq e) stOk 0 c.packed) env true lastReload
      | .fails r => finishAdmin (setReason s r) p.val e stBadProgram (0x4050 + r))

/-- WARM_RESET: its record, then a warm reset. -/
def execWarmReset (t : Mc) (p : Fin 16) (env : StartEnv) (s : State) : Result :=
  oneAtATime answerStart t p 0x0060 s noOperands
    (fun s e => warmReset (finishAdmin s p.val e stOk 0) env false lastWarmCmd)

end Sys2Proof.Machine
end

