-- ==== Sys2Proof/Machine/Power.lean ====
section
/-! DEFINITION. Clocks, power states and the Hearth: Glow, Banked, the wake sources, supervision, the clock check, the power stages and
brownout (R447, R451 to R477, R524). -/

namespace Sys2Proof.Machine

/-! ## Glow (R453 to R456) -/

/-- mc at which the half has been idle for GLOW_IDLE (R453). -/
def glowDue (s : State) (h : Half) : Mc := s.power.busyAt.get h + mcOf s.cfg.power.glowIdle

/-- GLOW_ENTRY: the half has been idle for GLOW_IDLE without interruption. -/
def execGlowEntry (t : Mc) (half : Half) (seqIdle : Bool) (s : State) : Result :=
  let s1 := atTime s t
  if running s1 && seqIdle && s1.cfg.power.glowIdle != 0 && !s1.power.holdRun && !s1.halfReset.get half && !s1.power.glow.get half &&
      halfIdle s1 half && glowDue s1 half ≤ s1.time then
    answer s (setGlow s1 half true)
  else answer s s1

/-! ## Banked entry (R457, R458) -/

/-- 60 µs in mc and in HCLK. -/
def bankMargin : Nat := 126000
def bankMarginH : Nat := 6000

/-- A timer pacing request falls within 60 µs. -/
def pacingSoon (s : State) : Bool :=
  s.buf.pacing.any fun x => ((pacingCfg s x.line).any fun c => c.source == .timer) && x.due < s.time + bankMargin

def wakeSoon (s : State) : Bool :=
  s.power.wakeAt != 0 && s.power.wakeAt < s.power.htime + bankMarginH && s.power.htime ≤ s.power.wakeAt

/-- No fault record is outstanding and no batch is open. -/
def faultsQuiet (s : State) : Bool :=
  s.seg.faults.isEmpty && s.seg.faultQs.all fun q => q.openB.isEmpty && q.closedB.isEmpty && q.waiting.isEmpty

/-- Both halves have been in Glow for BANK_IDLE (R457). -/
def glowLasts (s : State) : Bool :=
  s.power.glow.east && s.power.glow.west &&
    decide (max s.power.glowAt.east s.power.glowAt.west + mcOf s.cfg.power.bankIdle ≤ s.time)

/-- The conditions of R457. -/
def mayBank (s : State) : Bool :=
  (glowLasts s || s.power.bankReq) && s.cfg.power.banked && !s.power.holdRun &&
    (s.run.reqs.all fun r => r.hauler.isNone && r.writes.isEmpty && (flightsOf s (.request r.id)).isEmpty) &&
    s.rem.outReqs.isEmpty && s.rem.inbound.isEmpty &&
    faultsQuiet s && !(s.rem.epochs.any (·.isOpen)) && !s.power.hold.east && !s.power.hold.west && !pacingSoon s && !wakeSoon s &&
    !s.halfReset.east && !s.halfReset.west

/-- Local address of table slot `i` of Anvil port `ap` in a half's save area (R459). -/
def saveSlot (h : Half) (ap i : Nat) : Nat := stockBase h + 0x1000_0000 - 32768 + (ap * 8 + i) * 256

/-- The code tables of an Anvil port are copied to the save area (step 2 of Banked entry). -/
def saveTables (s : State) (a : AnvilPort) : State :=
  (a.tables.zipIdx.filter fun x => x.2 < 8).foldl (fun s x => match x.1.table with
    | some bs => { s with mem := memWrite s.mem (saveSlot a.half a.ap x.2) (good bs) }
    | none => s) s

/-- BANKED_ENTRY, which clears BANK unless a write of this mc sets it (R534): step 1 stops the lanes of every link, and steps 2 and 3 are
made with it (assumption 71); ISO_N and the rails follow at their times. A stack that does not confirm self-refresh undoes the entry
(R468). -/
def execBankedEntry (t : Mc) (stuck : Option (Half × Fin 8)) (s : State) : Result :=
  let s1 := atTime s t
  if !(running s1 && mayBank s1) then answer s s1
  else match stuck with
    | some x => answer s (wakeBoth (powerRecord s1 pwSelfRefresh x.1 x.2.val 0))
    | none =>
      let s2 := s1.buf.anvils.foldl saveTables s1
      let p := s2.power
      answer s { s2 with
        rem.links := []
        power := bellows { p with banked := true, banks := capAt 0xFFFFFFFF (p.banks + 1), bankReq := p.bankReq && p.ctrlAt == some s2.time
                                  entry := some { age := 0, banks := p.banks, bankReq := p.bankReq, links := s2.rem.links } } }

/-! ## Wake (R460 to R466) -/

/-- After Banked a record that was Active or Slow is Absent, and its requests wait up to 10 ms (R462). -/
def rejoinPartner (s : State) (num : Nat) : State :=
  match getPartner s num with
  | some p =>
    if isUp p then
      updPartner (makeAbsent s num) num fun x => { x with wakeUntil := some (s.time + 21000000), bankWake := true, downAt := s.time }
    else s
  | none => s

/-- Integrity record of a SCRUB record made in Banked (R469). -/
def scrubRecord (s : State) (x : Half × Nat) : State :=
  intRecord s { kind := 6, reaction := rxCounted, half := x.1, unitClass := 4, unit := (stockBank (stockBase x.1 + x.2 * 256)).1
                ctxs := [], object := s.cfg.pkg * 2 ^ 50 + stockBase x.1 + x.2 * 256 } 0

def addCorr (s : State) (h : Half) (n : Nat) : State :=
  { s with integ := { s.integ with corr := s.integ.corr.set h (capAt 0xFFFFFFFF (s.integ.corr.get h + n)) } }

/-- A code table comes back from its place in the save area; one that the scrubbing has found faulty is none (R219, R460, R469;
assumption 83, DEDUCED). -/
def savedTable (s : State) (a : AnvilPort) (x : TableSlot × Nat) : TableSlot :=
  let bs := memReadS s.mem (saveSlot a.half a.ap x.2) 256
  if x.2 < 8 && x.1.table.isSome then { x.1 with table := if anyMark bs then none else some (bs.map Prod.fst) } else x.1

/-- The code tables return to the Anvil ports (step 6 of Banked wake). -/
def restoreTables (s : State) : State :=
  { s with buf.anvils := s.buf.anvils.map fun a => { a with tables := a.tables.zipIdx.map (savedTable s a) } }

/-- The mover leaves Banked with a wake code. The lanes restart, and their links come up again with LINK_UP. -/
def leaveBanked (s : State) (code : Nat) : State :=
  let p := s.power
  let s1 := { s with power := bellows { p with
    banked := false, entry := none, glow := ⟨false, false⟩, busyAt := ⟨s.time, s.time⟩, lastWake := code, wokeAt := some p.htime
    scrubCorrected := ⟨0, 0⟩, scrubbed := [] } }
  let s2 := addCorr (addCorr (restoreTables s1) .east p.scrubCorrected.east) .west p.scrubCorrected.west
  let s3 := p.scrubbed.foldl scrubRecord s2
  sameFuses s ((s3.cfg.partners.map (·.num)).foldl rejoinPartner s3)

/-- A wake event in Banked: before step 4 of the entry it undoes the entry; later the entry completes and the wake follows (R461). -/
def wakeBanked (s : State) (code : Nat) : State := if stillEntering s then undoEntry s else leaveBanked s code

/-- A wake source arrives: of several in the HCLK of a wake from Banked, LASTWAKE keeps the lowest code (R464). -/
def latchWake (s : State) (code : Nat) : State :=
  if !s.power.banked && s.power.wokeAt == some s.power.htime then
    { s with power := { s.power with lastWake := min code s.power.lastWake } }
  else s

/-- A partner record has its home in the half: a wake source of the remote ports can name it (codes 0x5 and 0x6). L40-C has none (R11). -/
def recordAt (s : State) (h : Half) : Bool := s.fuses.grade != .c && s.cfg.partners.any (·.half == h)

/-- A timer pacing request of the half falls within 120 ns (code 0x3 in Glow, R466). -/
def timerNear (s : State) (h : Half) : Bool := (timersOf s h).any fun d => s.time ≤ d && d ≤ s.time + glowWakeTime

/-- The wake event reaches the half in Glow (table "Wake sources"); code 0 stands for an event of R456 that the table does not list, codes
0x1 and 0x2 are those of both halves. -/
def wakesGlow (s : State) (e : WakeEvent) : Bool :=
  match e.code.val with
  | 3 => timerNear s e.half
  | 5 => recordAt s e.half
  | 6 => recordAt s e.half
  | 7 => false
  | 8 => false
  | _ => true

/-- GLOW_WAKE. -/
def execGlowWake (t : Mc) (event : WakeEvent) (s : State) : Result :=
  let s1 := atTime s t
  if !wakesGlow s1 event then answer s s1
  else if event.code.val == 1 || event.code.val == 2 then answer s (wakeEvent (wakeEvent s1 event.half) event.half.other)
  else answer s (wakeEvent s1 event.half)

/-- The code wakes the mover from Banked (table "Wake sources"). -/
def wakesBanked (s : State) (code : Nat) : Bool :=
  code != 0 && code != 3 && code != 5 && (code != 6 || recordAt s .east || recordAt s .west)

/-- The last HCLK edge at or before mc `t`. -/
def hclkBefore (s : State) (t : Mc) : Mc :=
  let off := ((t : Int) - ((s.time : Int) - (s.power.hfrac : Int))) % 21
  t - off.toNat

/-- The HCLK edge at which the Banked wake for the next timer pacing request starts: the last one at or before its due mc minus 81,900 mc
(R466). -/
def timerEdge (s : State) : Option Mc :=
  minBy id (((timersOf s .east ++ timersOf s .west).filter (s.time ≤ ·)).map fun d => hclkBefore s (d - 81900))

/-- BANKED_WAKE. Code 0x3 starts at its edge, whatever the command's time. -/
def execBankedWake (t : Mc) (code : Fin 9) (s : State) : Result :=
  let banked := fun (x : State) => !x.power.cold && x.power.banked
  if code.val == 3 then
    match (if banked s then timerEdge s else none) with
    | some e => answer s (wakeBanked (atTime s e) 3)
    | none => answer s (atTime s t)
  else
    let s1 := atTime s t
    answer s (if banked s1 && wakesBanked s1 code.val then wakeBanked s1 code.val
              else if s1.power.cold || !wakesBanked s1 code.val then s1 else latchWake s1 code.val)

/-- A source that wakes both halves from Glow, and the mover from Banked. -/
def wakeAll (s : State) (code : Nat) : State :=
  if s.power.cold then s else if s.power.banked then wakeBanked s code else wakeBoth (latchWake s code)

/-- A pin starts an event: its last one lies 1 µs of high and 1 µs of low behind (R524). -/
def pinFree (s : State) (last : Option Nat) : Bool := last.all fun h => decide (h + 200 ≤ s.power.htime)

/-- WAKE_N. -/
def execWakeN (t : Mc) (s : State) : Result :=
  let s1 := atTime s t
  if s1.power.cold || !pinFree s1 s1.power.wakePin then answer s s1
  else answer s (wakeAll { s1 with power := { s1.power with wakePin := some s1.power.htime } } 1)

/-- HOST_WAKE. -/
def execHostWake (t : Mc) (half : Half) (s : State) : Result :=
  let s1 := atTime s t
  answer s (if s1.power.cold then s1 else if s1.power.banked then wakeBanked s1 4 else wakeHalf (latchWake s1 4) half)

/-- mc until HTIME reaches a count. -/
def mcUntil (s : State) (h : Nat) : Nat := (h - s.power.htime) * 21 - s.power.hfrac

/-- WAKE_AT: FV_PWR_HTIME reaches WAKE_AT, which is cleared; a write of this mc stands (R534). -/
def execWakeAt (t : Mc) (s : State) : Result :=
  if s.power.cold || s.power.wakeAt == 0 then answer s (atTime s t)
  else
    let due := if s.power.wakeAt ≤ s.power.htime then s.time else s.time + mcUntil s s.power.wakeAt
    let s1 := atTime s (max t due)
    let left := if s1.power.timerAt == some s1.time then s1.power.wakeAt else 0
    answer s (wakeAll { s1 with power := { s1.power with wakeAt := left } } 2)

/-! ## The Hearth in Banked (R467, R469) -/

/-- HBM_SUPERVISION: one stack's reading. -/
def execHbmSupervision (t : Mc) (half : Half) (stack : Fin 8) (celsius : BitVec 16) (selfRefresh : Bool) (s : State) : Result :=
  let s1 := atTime s t
  let hot := s1.cfg.power.thermal ≤ celsius.toNat
  if s1.power.cold || !s1.power.banked || stillEntering s1 || (!hot && selfRefresh) then answer s s1
  else
    let s2 := if hot then powerRecord s1 pwThermal half stack.val celsius.toNat else s1
    let s3 := if selfRefresh then s2 else powerRecord s2 pwSelfRefresh half stack.val 0
    answer s (leaveBanked s3 7)

/-- Lines of a half's Stockpile. -/
def stockLines : Nat := 1048576

/-- A line of a half's Stockpile is marked spoiled. -/
def spoilStockLine (s : State) (h : Half) (line : Nat) : State :=
  { spoilReads s [stockBase h + line * 256] with mem := memSetMark s.mem (stockBase h / 256 + line) true }

/-- BANKED_SCRUB: the next line of a half's Stockpile. -/
def execBankedScrub (t : Mc) (half : Half) (ecc : Ecc) (s : State) : Result :=
  let s1 := atTime s t
  if s1.power.cold || !s1.power.banked || stillEntering s1 then answer s s1
  else
    let line := s1.power.scrubLine.get half
    let s2 := { s1 with power := { s1.power with scrubLine := s1.power.scrubLine.set half ((line + 1) % stockLines) } }
    match ecc with
    | .clean => answer s s2
    | .corrected =>
      answer s { s2 with power := { s2.power with
        scrubCorrected := s2.power.scrubCorrected.set half (s2.power.scrubCorrected.get half + 1) } }
    | .uncorrectable =>
      let s3 := powerRecord (spoilStockLine s2 half line) pwScrub half (stockBank (stockBase half + line * 256)).1 0
      answer s { s3 with power := { s3.power with scrubbed := s3.power.scrubbed ++ [(half, line)] } }

/-! ## Clock check (R447) and warm reset pin (R524) -/

/-- CLOCK: a sync edge after `count` mc. The record's HALF is a free value: the check belongs to no half. -/
def execClock (t : Mc) (count : Nat) (env : StartEnv) (s : State) : Result :=
  let s1 := atTime s t
  if s1.power.cold || s1.power.banked || count == 210 then answer s s1
  else
    let (v, s2) := draw s1
    answerStart s (monitorReset (powerRecord s2 pwClock (halfOfBit (bit v.toNat 0)) 0xFF 0) env)

/-- WARM_RST_N: low for 1 µs. In Banked it wakes the mover, and the reset starts in Run. -/
def execWarmRstN (t : Mc) (env : StartEnv) (s : State) : Result :=
  let s1 := atTime s t
  if s1.power.cold || !pinFree s1 s1.power.warmPin then answer s s1
  else
    let s2 := { s1 with power := { s1.power with warmPin := some s1.power.htime } }
    answerStart s (warmReset (if s2.power.banked then wakeBanked s2 8 else latchWake s2 8) env false lastWarmPin)

/-! ## Brownout (R474 to R477) -/

/-- Warning and recovery levels of a half's VDD_MV in mV. -/
def warnLevel (s : State) (h : Half) : Nat := if s.power.glow.get h then 640 else 690
def recoverLevel (s : State) (h : Half) : Nat := if s.power.glow.get h then 655 else 705

/-- A rail below its warning level: the half holds, or its episode's lowest reading falls. -/
def brownout (s : State) (h : Half) (mv : Nat) : State :=
  let p := s.power
  if p.hold.get h then { s with power := { p with lowest := p.lowest.set h (min mv (p.lowest.get h)) } }
  else
    let s1 := powerRecord s pwWarning h 0xFF mv
    { s1 with power := { s1.power with hold := s1.power.hold.set h true, lowest := s1.power.lowest.set h mv
                                       warnings := capAt 0xFFFF (s1.power.warnings + 1) } }

/-- BROWNOUT_WARNING; one that arrives before step 4 of Banked entry undoes the entry (R461). -/
def execBrownoutWarning (t : Mc) (half : Half) (millivolts : Nat) (s : State) : Result :=
  let s0 := atTime s t
  let s1 := if stillEntering s0 && millivolts < warnLevel s0 half then undoEntry s0 else s0
  if s1.power.cold || s1.power.banked || millivolts ≥ warnLevel s1 half then answer s s1
  else answer s (brownout s1 half millivolts)

/-- The rail of a half in hold is above its recovery level. -/
def railRecovers (s : State) (half : Half) (mv : Nat) : Bool := s.power.hold.get half && decide (recoverLevel s half < mv)

/-- The half leaves hold, with an event of partition 0 that names the RECOVERED record (R476); a wake that met it in hold takes effect. -/
def recoverHalf (s : State) (half : Half) : State :=
  let idx := s.power.logCount % 64
  let s2 := powerRecord s pwRecovered half 0xFF (s.power.lowest.get half)
  let woken := s2.power.wakeHeld.get half
  let s3 := { s2 with power := { s2.power with hold := s2.power.hold.set half false, lowest := s2.power.lowest.set half 0
                                               wakeHeld := s2.power.wakeHeld.set half false
                                               recoveries := capAt 0xFFFF (s2.power.recoveries + 1) } }
  let s4 := raiseEvent s3 0 0x0010 0 true idx pwRecovered
  if woken then serveQueued (wakeHalf s4 half) half else s4

/-- Reset level in mV: VDD_MV in Run and Glow, VDD_SP in Banked. -/
def resetLevel (s : State) : Nat := if s.power.banked && !stillEntering s then 500 else 620

/-- The rail has reached the reset level: the cold-start path with the sticky logs kept (R477). The RESET record carries the episode's
lowest reading. -/
def brownoutReset (s : State) (half : Half) (mv : Nat) (env : StartEnv) : State :=
  let low := if s.power.hold.get half then min mv (s.power.lowest.get half) else mv
  let s2 := powerRecord s pwReset half 0xFF low
  coldStart { s2 with power := { s2.power with resets := capAt 0xFFFF (s2.power.resets + 1) } } env

/-- BROWNOUT_RESET. -/
def execBrownoutReset (t : Mc) (half : Half) (millivolts : Nat) (env : StartEnv) (s : State) : Result :=
  let s1 := atTime s t
  if s1.power.cold || millivolts ≥ resetLevel s1 then answer s s1 else answerStart s (brownoutReset s1 half millivolts env)

end Sys2Proof.Machine
end

