-- ==== Sys2Proof/Machine/Integrity.lean ====
section
/-! DEFINITION. Integrity monitoring: contained and uncontained detections, quench, escalation, the watchdog, self-test and scrubbing
(R229, R483 to R496). -/

namespace Sys2Proof.Machine

/-! ## Quench (R492, R493) -/

/-- Lines that a request writes, issued and not answered. -/
def writesInFlight (s : State) (id : Nat) : List Nat := ((flightsOf s (.request id)).filter (·.line.write)).map (·.line.num)

/-- A ledger entry of a request of context `ctx` that has not closed closes with STATUS QUENCHED and SPOILED (R492, table "Ledger
entry"). -/
def quenchEntry (ctx : Nat) (e : LedEntry) : LedEntry :=
  if e.closed.isNone && fieldAt e.bytes 20 1 == ctx then
    { e with bytes := patchAt 28 (leBytes 2 stQuenched) (patchAt 2 (leBytes 1 (fieldAt e.bytes 2 1 ||| 1)) e.bytes) }
  else e

def quenchEntries (s : State) (ctx : Nat) : State :=
  updLedger s (partOfCtx s ctx) fun l => { l with waiting := l.waiting.map (quenchEntry ctx) }

/-- What is outstanding of a request's writes, in HBM or toward a partner, is committed spoiled (R492). -/
def spoilWrites (s : State) (id : Nat) : State :=
  let mark := fun (o : OutReq) => { o with spoil := 2 ^ ceilDiv o.payload.length 256 - 1 }
  { s with mem := (writesInFlight s id).foldl (fun m i => memSetMark m i true) s.mem
           rem.outReqs := updWhere (fun o => o.req == some id && o.purpose == .write) mark s.rem.outReqs }

/-- The request has run to HALT and is not complete: its last ledger entry is not closed, nor is its record ready. -/
def haltsStill (s : State) (r : Request) : Bool :=
  r.fin == some (haltEnd r) && !r.lastPart && !s.q.records.any fun x => x.req == some r.id

/-- A request of a quenched context ends with QUENCHED, also one that has run to HALT and waits for its writes, and its ledger entry is
SPOILED (R492). -/
def quenchRequest (s : State) (r : Request) : State :=
  let r1 := { r with fin := if haltsStill s r then none else r.fin, led := { r.led with spoiled := r.led.spoiled || ledgered s r.ctx } }
  endRequest (spoilWrites (setReq s r1) r.id) r.id stQuenched (wordDetail r) []

/-- An open INBOUND stream of a quenched context closes with STATUS QUENCHED and SPOILED (R492). -/
def quenchStream (s : State) (x : InStream) : State :=
  match partnerCfg s x.num with
  | none => s
  | some c => closeStream s c { x with spoiled := true } stQuenched []

/-- The slot of a billet takes the spoil mark in every line. -/
def spoilSlot (s : State) (c : RingCfg) (k : Nat) : State :=
  let a := stagingLocal s c.ctx (slotOffset c k) / 256
  { s with mem := (List.range (ringBytes c / 256)).foldl (fun m i => memSetMark m (a + i) true) s.mem }

/-- Published and unreleased billets of a ring (R492). -/
def liveBillets (x : RingSt) : List Nat :=
  ((List.range (x.published - x.released)).map (x.released + ·)).filter fun k => !x.early.contains k

def spoilRing (s : State) (c : RingCfg) : State :=
  match getRing s c.ctx c.ring with
  | some x => (liveBillets x).foldl (fun s k => spoilSlot s c k) s
  | none => s

/-- A quench of a LOADED context. -/
def quenchLoaded (s : State) (ctx : Nat) : State :=
  let s1 := quenchEntries (updCtx s ctx fun x => { x with st := .quenched, quenchedAt := s.time }) ctx
  let s2 := (s1.run.reqs.filter (·.ctx == ctx)).foldl quenchRequest s1
  let s3 := (s2.cfg.rings.filter (·.ctx == ctx)).foldl spoilRing s2
  let s4 := (s3.rem.inStreams.filter (·.ctx == ctx)).foldl quenchStream s3
  sameFuses s (dropEpochs s4 ctx)

/-- A quench that names a context: a context in RESETTING enters QUENCHED at the end of its reset, one already QUENCHED stays. -/
def quenchCtx (s : State) (ctx : Nat) : State :=
  match getCtx s ctx with
  | none => s
  | some x => match x.st with
    | .loaded => quenchLoaded s ctx
    | .resetting => updCtx s ctx fun x => { x with quenchAfter := true }
    | .quenched => s

/-- Contexts that a quench would change. -/
def quenchable (s : State) (ctx : Nat) : Bool :=
  match getCtx s ctx with
  | some x => x.st == .loaded || (x.st == .resetting && !x.quenchAfter)
  | none => false

/-- The quench events (R494): OBJECT the context, VALUE the record's SEQ. -/
def quenchEvents (s : State) (ctxs : List Nat) (seq : Nat) : State :=
  sameFuses s (ctxs.foldl (fun s c => ctxEvent s c 0x0011 c seq) s)

/-! ## Escalation (R495) -/

/-- An escalation's record, and the half reset or, with the other half already in half reset, the warm reset (R441). -/
def escalate (s : State) (r : IntRec) (env : StartEnv) : State :=
  if s.halfReset.get r.half.other then monitorReset (intRecord s { r with reaction := rxWarmReset } s.time) env
  else startHalfReset (intRecord s { r with reaction := rxHalfReset } s.time) r.half

/-- Times of a half's quenches within ESCALATION. -/
def recentQuenches (s : State) (h : Half) : List Mc :=
  (s.integ.quenchTimes.get h).filter fun t => s.time < t + mcOf s.cfg.safety.escalation

/-- REACT of a quench: at most 5 µs after the detection; which mc is a free value. -/
def quenchReact (s : State) : Nat × State :=
  let (v, s1) := draw s
  (s.time + v.toNat % 10501, s1)

/-- The reaction to an uncontained detection that names `ctxs`: a quench of each, its record and events; the QUENCH_LIMIT-th quench of
the half within ESCALATION resets the half instead. -/
def reactQuench (s : State) (r : IntRec) (env : StartEnv) : State :=
  let fresh := r.ctxs.filter (quenchable s)
  let times := fresh.map (fun _ => s.time) ++ recentQuenches s r.half
  let seq := s.integ.records
  let s1 := { r.ctxs.foldl quenchCtx s with integ := { s.integ with quenchTimes := s.integ.quenchTimes.set r.half times } }
  if !fresh.isEmpty && times.length ≥ s.cfg.safety.quenchLimit then escalate (quenchEvents s1 fresh seq) r env
  else
    let (react, s2) := quenchReact s1
    quenchEvents (intRecord s2 { r with reaction := rxQuench } react) fresh seq

/-- The monitor of a half reacts: not in Cold or Banked, and not while the half is in half reset (R486, R493). -/
def monitorOn (s : State) (h : Half) : Bool := running s && !s.halfReset.get h

/-- The machine that a detection in a half meets: a half in Glow wakes before it reacts, and a Banked entry that has not come to step 4 is
undone (R461, R486). -/
def wakeMonitor (s : State) (h : Half) : State := noteBusy (wakeEvent s h) h

/-- A detection and its reaction `react`: while a brownout hold keeps the half in Glow it waits, since the half reacts once it is in Run
(R475, R486). -/
def onDetection (react : State → Detection → StartEnv → State) (s : State) (d : Detection) (env : StartEnv) : State :=
  let s1 := wakeMonitor s d.half
  if !monitorOn s1 d.half then s
  else if s1.power.glow.get d.half then { s1 with integ.waiting := s1.integ.waiting ++ [(d, env)] }
  else react s1 d env

/-! ## Contained detections (R483) -/

/-- Mechanisms of the contained class. -/
def isContained (m : Nat) : Bool := m == 1 || m == 2 || m == 6 || m == 7

def recOf (d : Detection) (ctxs : List Nat) : IntRec :=
  { kind := d.mech.toNat, reaction := rxCounted, half := d.half, unitClass := d.unitClass.toNat, unit := d.unit.toNat, ctxs := ctxs
    object := d.object.toNat }

/-- Lines that a detection found faulty carry the spoil mark (R58, R122), also in the reads of schedule ports that have yet to reach their
banks. -/
def spoilLines (s : State) (lines : List Nat) : State :=
  { spoilReads s lines with mem := lines.foldl (fun m a => if (windowOf s.fuses.grade a).isSome then memSetMark m (a / 256) true else m) s.mem }

/-- The counts of the integrity block that a contained detection adds to. -/
def countContained (s : State) (d : Detection) : State :=
  let g := s.integ
  let up := fun n => capAt 0xFFFF (n + 1)
  { s with integ :=
      if d.mech == 2 then { g with miscompare := up g.miscompare }
      else if d.mech == 1 && d.unitClass == 5 then { g with seamCrc := up g.seamCrc }
      else if d.mech == 7 && d.corrected then { g with hbmCorr := up g.hbmCorr }
      else if d.mech == 7 then { g with hbmUncorr := up g.hbmUncorr }
      else if d.mech == 6 && d.corrected then { g with corr := g.corr.set d.half (capAt 0xFFFFFFFF (g.corr.get d.half + 1)) }
      else g }

/-- Seam CRC failures of the last 1 ms; at SEAM_LIMIT both halves reset, which makes a warm reset (R495). -/
def countSeam (s : State) (d : Detection) (env : StartEnv) : State :=
  if d.mech != 1 || d.unitClass != 5 then s
  else
    let ts := s.time :: s.integ.seamTimes.filter fun t => s.time < t + 2100000
    let s1 := { s with integ := { s.integ with seamTimes := ts } }
    if ts.length < s.cfg.safety.seamLimit then s1
    else monitorReset (intRecord s1 { recOf d [] with kind := 0x0C, reaction := rxWarmReset } s1.time) env

/-- A second Tongs miscompare of one unit within ESCALATION retires the unit (R495). -/
def countTongs (s : State) (d : Detection) : State :=
  if d.mech != 2 then s
  else
    let u := d.unit.toNat
    let old := s.integ.misTimes.filter fun x => s.time < x.2.2 + mcOf s.cfg.safety.escalation
    let s1 := { s with integ := { s.integ with misTimes := (d.half, u, s.time) :: old } }
    if old.any fun x => x.1 == d.half && x.2.1 == u then retireSlice s1 ⟨d.half, .tongs, u⟩ else s1

/-- The request that holds the slot of the Tongs unit (R138). -/
def holdsSlot (d : Detection) (r : Request) : Bool := r.half == d.half && r.tongs == some (d.unit.toNat, d.slot.val)

/-- A detection at a Tongs unit belongs to the slot's contents: a source line that entered it, or a destination line that it made
(R146, R147); none when it is no such detection. -/
def tongsHit (d : Detection) : Option Bool :=
  if d.mech == 2 then some true else if d.mech == 1 && d.unitClass == 3 then some false else none

/-- A destination line of a pass that is over, not yet issued, is written spoiled (R147). -/
def spoilUnissued (r : Request) (a : Nat) : Request :=
  let hit := fun (l : Line) => l.num == a / 256 && (l.load.map fun w => !anyMark w.data).getD false
  let mark := fun (l : Line) =>
    if hit l then { l with load := l.load.map fun w => { w with data := w.data.map fun b => (b.1, true) } } else l
  if (r.lines.buffers ++ r.lines.stream).any hit then
    noteSpoiled { r with lines := { r.lines with buffers := r.lines.buffers.map mark, stream := r.lines.stream.map mark } } 1
  else r

/-- Lines found faulty in the slot of a request: for the pass that is still to read or to write them, or for lines that its pass has made
and that are not issued. -/
def hitSlot (dest : Bool) (lines : List Nat) (r : Request) : Request :=
  if r.pass.started then { r with hits := r.hits ++ lines.map fun a => (dest, a) }
  else if dest then lines.foldl spoilUnissued r
  else r

/-- The line is among those at `lines`. -/
def lineAmong (lines : List Nat) (l : Line) : Bool := lines.any fun a => a / 256 == l.num

/-- A source line of the request among `lines` has been asked for and has not come. -/
def readsAmong (s : State) (lines : List Nat) (r : Request) : Bool :=
  ((flightsOf s (.request r.id)).map (·.line) ++ r.lines.buffers ++ r.lines.stream).any fun l => isSourceRead l && lineAmong lines l

/-- Lines under way of a request, found faulty: what a faulty source line's billet has still to write, and a faulty line write, are
written spoiled. They count, and where the billet has nothing left to write the source lines do, and so do writes in flight, in HBM and on
a host port (R116, R483; assumption 76). -/
def hitUnderWay (s : State) (lines : List Nat) (r : Request) : Request :=
  let out := (flightsOf s (.request r.id)).map (·.line)
  let waiting := r.lines.buffers ++ r.lines.stream
  let lost := fun (l : Line) => isSourceRead l && lineAmong lines l
  let bad := spoiledByLoss lost (out.any lost) false waiting ++
    (waiting.filter fun l => l.load.isSome && lineAmong lines l).map (·.seq)
  let taint := fun (l : Line) => if bad.contains l.seq then taintLine l else l
  let fresh := (waiting.filter fun l => bad.contains l.seq && !(l.load.map fun w => anyMark w.data).getD false).length
  let host := ((r.hostWrites.east ++ r.hostWrites.west).filter fun w => lines.any fun a => a / 256 * 256 < w.1 + w.2 && w.1 < a / 256 * 256 + 256).length
  let read := if bad.isEmpty then ((out ++ waiting).filter lost).length else 0
  let n := fresh + read + (out.filter fun l => l.write && lineAmong lines l).length + host
  let r1 := { r with lines := { r.lines with buffers := r.lines.buffers.map taint, stream := r.lines.stream.map taint }
                     led := { r.led with spoiled := r.led.spoiled || (n != 0 && ledgered s r.ctx) } }
  spoilMore r1 n

/-- SPOIL bits of a remote write for the lines among `lines` of its payload. -/
def egressBits (lines : List Nat) (o : OutReq) : Nat :=
  ((List.range (ceilDiv o.payload.length 256)).filter fun i => lines.any fun a => a / 256 == o.addr / 256 + i).foldl (fun n i => n ||| 2 ^ i) 0

/-- A remote write in which the check at egress finds lines faulty goes out with their SPOIL bits set, and its request counts them. -/
def spoilEgress (s : State) (unit : Nat) (lines : List Nat) : State :=
  (s.rem.outReqs.filter fun o => o.num == unit && !o.payload.isEmpty && egressBits lines o != 0).foldl (fun s o =>
    let b := egressBits lines o
    let n := ((List.range 16).filter fun i => bit b i && !bit o.spoil i).length
    let s1 := { s with rem.outReqs := updWhere (fun x => x.num == o.num && x.tag == o.tag) (fun x => { x with spoil := x.spoil ||| b })
                                        s.rem.outReqs }
    match o.req with
    | some id => { s1 with run.reqs := updWhere (·.id == id) (fun r => spoilMore r n) s1.run.reqs }
    | none => s1) s

/-- The affected lines are delivered spoiled (R58, R122): those of a Tongs slot by its pass (R146, R147), those that land in an Anvil port
in the port (R247), those that go out at a remote port with their SPOIL bits; other lines in memory, but for source lines that a
Seam crossing has spoiled on their way, and by the requests that have them under way. -/
def deliverContained (s : State) (d : Detection) : State :=
  match tongsHit d with
  | some dest => { s with run.reqs := updWhere (holdsSlot d) (hitSlot dest d.lines) s.run.reqs }
  | none =>
    if d.mech == 1 && d.unitClass == 0x0A then spoilLanding s d.half d.unit.toNat d.lines
    else if d.mech == 1 && d.unitClass == 0x0C then spoilEgress s d.unit.toNat d.lines
    else
      let kept := if d.mech == 1 && d.unitClass == 5 then d.lines.filter fun a => !(s.run.reqs.any (readsAmong s [a])) else d.lines
      { spoilLines s kept with run.reqs := s.run.reqs.map (hitUnderWay s d.lines) }

/-- The reaction to a contained detection. -/
def reactContained (s : State) (d : Detection) (env : StartEnv) : State :=
  let s2 := countContained s d
  if d.corrected then s2
  else
    let s3 := intRecord (deliverContained s2 d) (recOf d []) 0
    countSeam (countTongs s3 d) d env

/-- CONTAINED_DETECTION. -/
def execContainedDetection (t : Mc) (d : Detection) (env : StartEnv) (s : State) : Result :=
  let s1 := atTime s t
  answerStart s (if isContained d.mech.toNat then onDetection reactContained s1 d env else s1)

/-! ## Uncontained detections (R484) -/

/-- Ledgered contexts among some. -/
def ledgeredOf (s : State) (cs : List Nat) : List Nat := cs.filter (ledgered s)

/-- Contexts that map a counter LOCAL. -/
def mappers (s : State) (k : Nat) : List Nat :=
  (s.cfg.vctrs.filter fun v => match v.entry with
    | .loc c _ _ => c == k
    | _ => false).map (·.ctx)

/-- The table "Affected contexts"; a context is named once. -/
def affected (s : State) (d : Detection) : List Nat :=
  let owner := (d.owner.map (·.val)).toList
  let cs :=
    if d.mech == 5 then ((ctrCfg s d.counter).map (·.owner)).toList ++ mappers s d.counter
    else if d.mech == 0x0B then
      match d.chainHead with
      | some p => ledgeredOf s ((s.cfg.ctxs.filter (·.partition == p.val)).map (·.ctx))
      | none => ledgeredOf s (d.hashing.map (·.val))
    else if d.mech == 3 || d.mech == 4 || d.mech == 9 then owner
    else []
  dedup (cs.filter fun c => (ctxCfg s c).isSome)

/-- Mechanisms of the uncontained and the escalating class. -/
def isUncontained (m : Nat) : Bool := m == 3 || m == 4 || m == 5 || m == 8 || m == 9 || m == 0x0B

/-- The update path of a counter on which the two copies of an update differ does not apply it (mechanism 0x05, R482): the oldest update
under way to the counter is dropped. The manual does not say which update a detection names (assumption 84, DESIGN CHOICE). -/
def dropUpdate (s : State) (d : Detection) : State :=
  if d.mech != 5 then s
  else match minBy (·.due) (s.ctr.updates.filter (·.ctr == d.counter)) with
    | some u => { s with ctr.updates := dropFirst (fun x => x == u) s.ctr.updates }
    | none => s

/-- The reaction to an uncontained detection: a quench of the affected contexts; without a readable owner, and for the Foreman, a half
reset. -/
def reactUncontained (s0 : State) (d : Detection) (env : StartEnv) : State :=
  let s := dropUpdate s0 d
  let cs := affected s d
  if cs.isEmpty then escalate s (recOf d []) env else reactQuench s (recOf d cs) env

/-- UNCONTAINED_DETECTION. -/
def execUncontainedDetection (t : Mc) (d : Detection) (env : StartEnv) (s : State) : Result :=
  let s1 := atTime s t
  answerStart s (if isUncontained d.mech.toNat then onDetection reactUncontained s1 d env else s1)

/-! ## Recovery from a brownout, and the power stages (R471, R476) -/

/-- A detection that has waited is reacted to. -/
def reactWaited (s : State) (x : Detection × StartEnv) : State :=
  onDetection (if isContained x.1.mech.toNat then reactContained else reactUncontained) s x.1 x.2

/-- The half leaves its brownout hold; the detections that have waited for it are reacted to, oldest first. -/
def recovered (s : State) (h : Half) : State :=
  let s1 := recoverHalf s h
  let mine := s1.integ.waiting.filter (·.1.half == h)
  mine.foldl reactWaited { s1 with integ.waiting := s1.integ.waiting.filter (·.1.half != h) }

/-- BROWNOUT_RECOVERY. -/
def execBrownoutRecovery (t : Mc) (half : Half) (millivolts : Nat) (s : State) : Result :=
  let s1 := atTime s t
  if s1.power.cold || s1.power.banked || !railRecovers s1 half millivolts then answer s s1
  else answerStart s (recovered s1 half)

/-- The thresholds of R474, on a reading of VDD_MV that the power stage has taken. -/
def stageLevels (s : State) (half : Half) (mv : Nat) (env : StartEnv) : State :=
  if mv < resetLevel s then brownoutReset s half mv env
  else if mv < warnLevel s half then brownout s half mv
  else if railRecovers s half mv then recovered s half
  else s

/-- STAGE_POLL: a non-zero STATUS_WORD is a fault; on VDD_MV the thresholds of R474 apply to the reading too (R471). -/
def execStagePoll (t : Mc) (half : Half) (rail : Rail) (statusWord : BitVec 16) (reading : StageReading) (s : State) : Result :=
  let s1 := atTime s t
  if s1.power.cold || s1.power.banked || statusWord == 0 then answer s s1
  else
    let s2 := powerRecord s1 pwStage half 0xFF statusWord.toNat
    answerStart s (if rail == .vddMv then stageLevels s2 half reading.millivolts reading.env else s2)

/-- A wait of the request that counts for the watchdog is pending: one for a Tongs slot (R139), or lines of it stand in port buffers, so
that it waits for a beat, for space in a buffer or for a tag (R317, R319, R325). The wait for a bank's port (R230) takes no time in the
model. -/
def waitCounts (r : Request) : Bool := r.wait == some .tongs || !allIssued r

/-- The hauler has been without activity for WATCHDOG (R487). -/
def hung (s : State) (r : Request) : Bool := !waitCounts r && decide (r.active + mcOf s.cfg.safety.watchdog ≤ s.time)

/-- HAULER_WATCHDOG: the hauler runs a request that is not parked and is hung (R487). OBJECT of its record is a free value. -/
def execHaulerWatchdog (t : Mc) (h : HaulerId) (env : StartEnv) (s : State) : Result :=
  let s1 := atTime s t
  match (if monitorOn s1 h.half then reqOn s1 h else none) with
  | none => answer s s1
  | some r =>
    if !hung s1 r then answer s s1
    else
      let (v, s2) := draw s1
      answerStart s (reactQuench s2
        { kind := 9, reaction := rxQuench, half := h.half, unitClass := 2, unit := h.idx.val, ctxs := [r.ctx], object := v.toNat } env)

/-- The quench of some context of the half is not complete 5 µs after its detection: a request of it has no record yet (R495). -/
def quenchPending (s : State) (h : Half) : Bool :=
  s.run.reqs.any fun r => r.half == h && (getCtx s r.ctx).any fun x => x.st == .quenched && decide (x.quenchedAt + 10500 ≤ s.time)

/-- QUENCH_TIMEOUT: 5 µs after the detection (R495). The record repeats the newest record's KIND; its UNITCLASS, UNIT and OBJECT are
free values. -/
def execQuenchTimeout (t : Mc) (half : Half) (env : StartEnv) (s : State) : Result :=
  let s1 := atTime s t
  if !monitorOn s1 half || !quenchPending s1 half then answer s s1
  else
    let (u, s2) := draw s1
    let (v, s3) := draw s2
    answerStart s (escalate s3
      { kind := s1.integ.lastKind, reaction := rxHalfReset, half := half, unitClass := bits u.toNat 7 0, unit := bits u.toNat 23 8
        ctxs := [], object := v.toNat } env)

/-! ## Self-test and scrubbing (R488 to R491) -/

/-- The slice is idle. The manual does not say which SHA-256 pipeline hashes which stream nor which pair of paths carries which update: they
are taken in rising order (assumption 84, DESIGN CHOICE). A translation takes no time in the model, so that its replicas are idle between
commands. -/
def sliceIdle (s : State) (x : Slice) : Bool :=
  match x.kind with
  | .hauler => !(s.run.reqs.any fun r => r.half == x.half && r.hauler == some x.idx) && !loopHolds s x.half x.idx
  | .tongs => !(s.run.reqs.any fun r => r.half == x.half && (r.tongs.map Prod.fst) == some x.idx) &&
      ((loopSlot s x.half).map Prod.fst) != some x.idx
  | .anvil => (getAnvil s x.half x.idx).coming.isEmpty && (getAnvil s x.half x.idx).blocks.isEmpty
  | .shaPipe => (s.run.reqs.filter fun r => r.half == x.half && r.hauler.isSome && ledgered s r.ctx).length ≤ x.idx
  | .counterPath => (s.ctr.updates.filter (·.half == x.half)).length ≤ x.idx
  | .translation => true

/-- mc that a test takes (table "Self-test slices"). -/
def testTime : SliceKind → Nat
  | .tongs => 2048
  | .hauler => 1024
  | .shaPipe => 512
  | .translation => 512
  | .counterPath => 256
  | .anvil => 512

/-- SELF_TEST: the slice is under test for the time of the test (R148, R488); one that fails is retired (R491). -/
def execSelfTest (t : Mc) (slice : Slice) (passes : Bool) (s : State) : Result :=
  let s1 := atTime s t
  if !monitorOn s1 slice.half || s1.power.glow.get slice.half || slice.idx ≥ sliceCount slice.kind || !sliceIdle s1 slice ||
      s1.integ.retired.contains slice then answer s s1
  else
    let now := s1.integ.testing.filter fun x => s1.time < x.2 && x.1 != slice
    let done := s1.power.ran.get slice.half + testTime slice.kind
    let s2 := { s1 with integ := { s1.integ with
      testing := now ++ [(slice, s1.time + testTime slice.kind)]
      tested := s1.integ.tested.filter (fun x => x.1 != slice) ++ [(slice, done)], late := s1.integ.late.filter (· != slice) } }
    answer s (if passes then s2 else retireSlice s2 slice)

/-- Run time at the end of a slice's last test; a start-up is one (R491). -/
def testedAt (s : State) (x : Slice) : Mc := ((s.integ.tested.find? (·.1 == x)).map Prod.snd).getD 0

/-- The slice has gone 100 ms of Run time untested, and that has not been reported. -/
def overdue (s : State) (x : Slice) : Bool :=
  decide (testedAt s x + 210000000 ≤ s.power.ran.get x.half) && !s.integ.late.contains x

/-- LATENT_OVERDUE: an Anvil port has gone 100 ms of Run time untested (R489). -/
def execLatentOverdue (t : Mc) (half : Half) (ap : Fin 16) (s : State) : Result :=
  let s1 := atTime s t
  let slice : Slice := ⟨half, .anvil, ap.val⟩
  if !monitorOn s1 half || s1.power.glow.get half || !overdue s1 slice then answer s s1
  else
    let s2 := { s1 with integ.late := s1.integ.late ++ [slice] }
    answer s (intRecord s2 { kind := 0x0A, reaction := rxOverdue, half := half, unitClass := 0x0A, unit := ap.val, ctxs := []
                             object := ap.val } s1.time)

/-- PATROL_SCRUB: the next line of a half's Stockpile (R490). -/
def execPatrolScrub (t : Mc) (half : Half) (ecc : Ecc) (s : State) : Result :=
  let s1 := atTime s t
  if !monitorOn s1 half || s1.power.glow.get half then answer s s1
  else
    let line := s1.integ.patrol.get half
    let s2 := { s1 with integ := { s1.integ with patrol := s1.integ.patrol.set half ((line + 1) % stockLines) } }
    match ecc with
    | .clean => answer s s2
    | .corrected => answer s (addCorr s2 half 1)
    | .uncorrectable => answer s (scrubRecord (spoilStockLine s2 half line) (half, line))

end Sys2Proof.Machine
end

