-- ==== Sys2Proof/Machine/Schedule.lean ====
section
/-! DEFINITION. The schedule port: bundles, readiness and LATE, the eight operations, publication of stored billets, DRAIN and READY
(R22, R241, R244 to R269, R492, R512, R513). -/

namespace Sys2Proof.Machine

/-! ## Operations of a bundle (R244, R245, R512) -/

/-- An operation with its slot: Anvil-port slot `idx`, or place `idx` of the four-operation group. -/
structure SchedOp where
  anvil : Bool
  idx   : Nat
  word  : Word
  /-- More operations in one mc than R245 allows. -/
  excess : Bool
  deriving DecidableEq, Repr

def SchedOp.v (o : SchedOp) : Nat := o.word.toNat
def SchedOp.op (o : SchedOp) : Nat := bits o.v 63 60
def SchedOp.ap (o : SchedOp) : Nat := bits o.v 59 56
def SchedOp.ring (o : SchedOp) : Nat := bits o.v 55 45
def SchedOp.unit (o : SchedOp) : Nat := bits o.v 44 39
/-- REL of an RD, PUB of an STR. -/
def SchedOp.flag (o : SchedOp) : Bool := bit o.v 38
def SchedOp.land (o : SchedOp) : Nat := bits o.v 37 30
def SchedOp.feed (o : SchedOp) : Nat := bits o.v 59 52

def isNop (o : SchedOp) : Bool := o.word == 0

/-- Operations marked as excess: a second one of an Anvil port, and those beyond the fourth of the group. -/
def markExcess : List SchedOp → List SchedOp → List SchedOp
  | _, [] => []
  | seen, o :: os =>
    let e := !isNop o && (if o.anvil then seen.any fun x => x.anvil && x.idx == o.idx else 4 ≤ (seen.filter fun x => !x.anvil).length)
    { o with excess := e } :: markExcess (if isNop o then seen else seen ++ [o]) os

/-- The operations of a bundle: the Anvil-port slots in rising order, then the group. -/
def bundleOps (b : Bundle) : List SchedOp :=
  let a := (sortBy (fun (x : Fin 16 × Word) => x.1.val) b.aops).map fun x =>
    { anvil := true, idx := x.1.val, word := x.2, excess := false : SchedOp }
  let c := b.cops.zipIdx.map fun x => { anvil := false, idx := x.2, word := x.1, excess := false : SchedOp }
  markExcess [] (a ++ c)

/-! ## Faulty operations (R269) -/

def evUnitAbsent : Nat := 1
def evPlacement : Nat := 2
def evCoded : Nat := 5
def evScheduleOp : Nat := 8

/-- The reserved bits of an operation are zero. -/
def reservedClear (o : SchedOp) : Bool :=
  match o.op with
  | 0 => bits o.v 59 0 == 0
  | 1 => bits o.v 29 0 == 0
  | 2 => bits o.v 44 0 == 0
  | 3 => bits o.v 37 0 == 0
  | 4 => bits o.v 8 0 == 0
  | 5 => true
  | 6 => bits o.v 51 0 == 0
  | 7 => bits o.v 15 0 == 0
  | 8 => bits o.v 59 0 == 0
  | _ => false

/-- The operation stands in a slot that fits it (R512). -/
def slotFits (o : SchedOp) : Bool :=
  if o.op == 0 then true else if o.op ≤ 4 then o.anvil && o.ap == o.idx else !o.anvil

/-- The fault of an RD, TBL or STR that its ring gives, as an event code. -/
def ringFault (s : State) (h : Half) (ctx : Nat) (o : SchedOp) : Option Nat :=
  match ringCfg s ctx o.ring with
  | none => some evScheduleOp
  | some c =>
    if (if o.op == 3 then !c.prodSched else c.consHauler) || (o.op != 2 && o.unit ≥ ringBytes c / 1024) then some evScheduleOp
    else if c.half != h then some evPlacement
    else if o.op == 2 && c.coded.isNone then some evCoded
    else if o.op != 3 && c.coded.isSome && s.fuses.grade == .b then some evUnitAbsent
    else none

/-- A SIG's entry grants it (R361), and its amount is in range. -/
def sigAllowed (s : State) (ctx : Nat) (o : SchedOp) : Bool :=
  bits o.v 47 16 != 0 && (match vEntry s ctx (bits o.v 59 48) with
    | .loc _ sg _ => sg
    | .remote _ _ sg => sg
    | .unmapped => false)

/-- What makes an operation faulty whatever the rings hold, as an event code (table "Delivery-path outcomes", R22, R227, R434). -/
def staticFault (s : State) (h : Half) (ctx : Nat) (o : SchedOp) : Option Nat :=
  if s.status.maint || o.excess || !reservedClear o || !slotFits o then some evScheduleOp
  else match o.op with
    | 0 => none
    | 4 => none
    | 5 => if s.cfg.feeds.any fun f => f.half == h && f.feed == o.feed && f.ctx == ctx then none else some evScheduleOp
    | 6 =>
      if ((pacingCfg s o.feed).map fun c => c.ctx == ctx && c.source == .schedule).getD false then none else some evScheduleOp
    | 7 => if sigAllowed s ctx o then none else some evScheduleOp
    | 8 => none
    | _ => ringFault s h ctx o

/-- The head billet's slot in the Stockpile. -/
def headSlot (s : State) (c : RingCfg) (x : RingSt) : Nat := stagingLocal s c.ctx (slotOffset c x.released)

/-- The head billet is a table billet (R219). -/
def headIsTable (s : State) (c : RingCfg) (x : RingSt) : Bool := memRead s.mem (headSlot s c x) 4 == codeMagic

/-- A TBL or RD that the kind of the head billet makes faulty. -/
def headFault (s : State) (ctx : Nat) (o : SchedOp) : Option Nat :=
  match ringCfg s ctx o.ring, getRing s ctx o.ring with
  | some c, some x =>
    if c.coded.isSome && headIsTable s c x != (o.op == 2) then some evCoded else none
  | _, _ => none

/-! ## Readiness (R252) -/

def headReady (s : State) (ctx ring : Nat) : Bool :=
  match getRing s ctx ring with
  | some x => x.released < visibleP s x
  | none => false

def feedRoom (s : State) (h : Half) (feed : Nat) : Bool :=
  ((s.buf.feeds.find? fun f => f.half == h && f.feed == feed).map fun f => decide (f.entries.length < 1024)).getD false

/-- The table "Readiness", for an operation that is not faulty; `stm` store-buffer entries have been taken by earlier ones. -/
def opReady (s : State) (h : Half) (ctx stm : Nat) (o : SchedOp) : Bool :=
  match o.op with
  | 1 => headReady s ctx o.ring
  | 2 => headReady s ctx o.ring
  | 3 => match ringCfg s ctx o.ring, getRing s ctx o.ring with
    | some c, some x => x.openStr.isSome || x.claimed < claimableH s x + c.slots
    | _, _ => false
  | 4 => storesUsed s h + stm < 256
  | 5 => feedRoom s h o.feed
  | _ => true

/-- The billet that an STR writes: the open one, or billet C, which it claims and opens (R241). -/
def openBillet (s : State) (ctx ring : Nat) : State :=
  updRing s ctx ring fun x => if x.openStr.isSome then x else { x with openStr := some x.claimed, claimed := x.claimed + 1 }

/-- PUB closes the open billet. -/
def closeBillet (s : State) (ctx ring : Nat) : State :=
  updRing s ctx ring fun x => { x with openStr := none, closed := x.closed ++ x.openStr.toList }

def addFeed (s : State) (h : Half) (feed v : Nat) : State :=
  { s with buf.feeds := updWhere (fun (f : FeedSt) => f.half == h && f.feed == feed) (fun f => { f with entries := f.entries ++ [(v, s.time + 6)] }) s.buf.feeds }

/-- What an operation takes that a later one of the bundle then lacks. -/
def takeFor (s : State) (h : Half) (ctx : Nat) (o : SchedOp) : State :=
  match o.op with
  | 3 => if o.flag then closeBillet (openBillet s ctx o.ring) ctx o.ring else openBillet s ctx o.ring
  | 5 => addFeed s h o.feed (bits o.v 51 0)
  | _ => s

/-- An operation with the event code that makes it faulty, if any. -/
abbrev Judged := SchedOp × Option Nat

/-- The context's operations but RD and TBL are discarded, and those are always ready (R492). -/
def discards (quenched : Bool) (o : SchedOp) : Bool := quenched && !(o.op == 1 || o.op == 2)

/-- The operations of a bundle judged in order; the second list holds those that are not ready. An STM whose address no segment lets it
write counts as one that takes a store-buffer entry, although its store is discarded at once: R252 and R250 do not say (assumption 78,
DESIGN CHOICE). -/
def judge (h : Half) (ctx : Nat) (quenched : Bool) : State → Nat → List SchedOp → List Judged × List SchedOp
  | _, _, [] => ([], [])
  | s, stm, o :: os =>
    match staticFault s h ctx o with
    | some e =>
      let r := judge h ctx quenched s stm os
      ((o, some e) :: r.1, r.2)
    | none =>
      if isNop o || discards quenched o then judge h ctx quenched s stm os
      else if quenched || opReady s h ctx stm o then
        let r := judge h ctx quenched (takeFor s h ctx o) (if o.op == 4 then stm + 1 else stm) os
        ((o, if o.op ≤ 2 && headReady s ctx o.ring then headFault s ctx o else none) :: r.1, r.2)
      else
        let r := judge h ctx quenched s stm os
        ((o, none) :: r.1, o :: r.2)

/-! ## Carrying out (R246, R247) -/

/-- Everything of a bundle that its operations share. -/
structure Issue where
  half  : Half
  ctx   : Nat
  vcyc  : Nat
  /-- The state at acceptance: heads and earlier stores are those of this state. -/
  start : State
  quenched : Bool
  stData : List (Fin 16 × List Byte)

/-- Running results of a bundle: state, banks read so far with their Anvil port, and head billets to release. -/
structure Exec where
  s     : State
  banks : List (Nat × Nat)
  rel   : List (Nat × Nat)

/-- The port has accepted an operation (R352). -/
def noteIssuer (s : State) (i : Issue) (ap : Nat) : State :=
  updAnvil s i.half ap fun a => { a with issuer := some i.ctx, vcyc := i.vcyc }

/-- The ports that an RD or TBL delivers to, in chain order (R267). -/
def chainPorts (s : State) (i : Issue) (ap : Nat) : List Nat :=
  match s.cfg.relays.find? fun c => c.ctx == i.ctx && c.half == i.half && c.ports.head? == some ap with
  | some c => c.ports
  | none => [ap]

/-- An event of a faulty operation; a context that the image does not declare has no partition to name. -/
def opEvent (s : State) (i : Issue) (code object value : Nat) : State :=
  if (ctxCfg s i.ctx).isSome then ctxEvent s i.ctx code object value else s

/-- Data is on its way to a port, where it arrives at mc `due` (R246). -/
def sendPort (s : State) (i : Issue) (ap due : Nat) (bank : Option (Mc × Nat)) (d : PortData) : State :=
  updAnvil s i.half ap fun a => { a with coming := a.coming ++ [{ due := due, ctx := i.ctx, bank := bank, data := d }] }

/-- A faulty operation (R269). -/
def runFaulty (i : Issue) (x : Exec) (o : SchedOp) (code : Nat) : Exec :=
  let s1 := if o.anvil then noteIssuer x.s i o.idx else x.s
  let s2 := opEvent s1 i code (if code == evScheduleOp then o.op * 2 ^ 60 else o.ring) (if code == evCoded then 0 else i.vcyc)
  let l : Landing := { unit := o.land, data := spoiledBytes s2 1024, spoil := [true, true, true, true], ctx := i.ctx }
  { x with s := if o.op == 1 then sendPort s2 i o.ap (s2.time + 12) none (.unit l) else s2 }

/-- The lines of a bank read: those in a bank that an operation with a lower AP reads are spoiled, with an event each (R269). -/
def readLines (i : Issue) (ap : Nat) (x : Exec) (local' n : Nat) : Exec × List SByte :=
  (piecesOf local' (memReadS x.s.mem local' n)).foldl (fun (acc : Exec × List SByte) p =>
    let bank := (stockBank p.1).1
    let hit := acc.1.banks.any fun b => b.1 == bank && b.2 != ap
    let bs := if hit || i.quenched then p.2.map fun b => (b.1, true) else p.2
    let s1 := if hit then opEvent acc.1.s i 0x0009 bank i.vcyc else acc.1.s
    ({ acc.1 with s := s1, banks := if hit then acc.1.banks else acc.1.banks ++ [(bank, ap)] }, acc.2 ++ bs)) (x, [])

/-- Data of an RD or TBL goes to the ports of its chain. Its lines, from `a` on, are read from their banks one mc after acceptance, as the
billet stood at acceptance (R246, R247). -/
def sendData (i : Issue) (o : SchedOp) (c : RingCfg) (billet a : Nat) (bs : List SByte) (whole : Bool) (s : State) : State :=
  (chainPorts s i o.ap).zipIdx.foldl (fun s p =>
    let s1 := noteIssuer s i p.1
    let due := s.time + 12 + 2 * p.2
    let bank := some (s.time + 1, a)
    if o.op == 2 then sendPort s1 i p.1 due bank (.table c.ring bs)
    else if c.coded.isSome then (if bs.isEmpty then s1 else sendPort s1 i p.1 due bank (.stored c.ring billet bs whole))
    else
      sendPort s1 i p.1 due bank
        (.unit { unit := o.land, data := bs.map Prod.fst, spoil := (chunksOf 256 bs).map anyMark, ctx := i.ctx })) s

/-- RD and TBL (R247, R268). A QUENCHED context's read of a billet that is not ready changes no ring state. -/
def runRead (i : Issue) (x : Exec) (o : SchedOp) : Exec :=
  match ringCfg i.start i.ctx o.ring, getRing i.start i.ctx o.ring with
  | some c, some r =>
    let k := r.released
    let len := min (((r.lengths.find? (·.1 == k)).map Prod.snd).getD (ringBytes c)) (ringBytes c)
    let off := if o.op == 1 then o.unit * 1024 else 0
    let n := if o.op == 2 then len else if c.coded.isSome then min 1024 (len - off) else 1024
    let a := headSlot i.start c r + off
    let rd := readLines i o.ap x a n
    let s1 := sendData i o c k a rd.2 (off + 1024 ≥ len) rd.1.s
    let release := (o.op == 2 || o.flag) && headReady i.start i.ctx o.ring
    { rd.1 with s := s1, rel := if release then rd.1.rel ++ [(o.ring, k)] else rd.1.rel }
  | _, _ => x

/-- The 1 KiB of store data of a port; without ST_VALID it is spoiled, with a landing event (R517). -/
def storeData (i : Issue) (s : State) (ap : Nat) : State × List SByte :=
  match i.stData.find? fun d => d.1.val == ap with
  | some d => (s, fit 1024 (good d.2))
  | none => (opEvent s i 0x0006 (ap * 256) i.vcyc, (spoiledBytes s 1024).map fun b => (b, true))

/-- STR (R241). -/
def runStr (i : Issue) (s : State) (o : SchedOp) : State :=
  match ringCfg s i.ctx o.ring with
  | none => s
  | some c =>
    let d := storeData i (openBillet (noteIssuer s i o.ap) i.ctx o.ring) o.ap
    match (getRing d.1 i.ctx o.ring).bind (·.openStr) with
    | none => d.1
    | some k =>
      let s2 := newStr d.1 i.half i.ctx o.ring k (stagingLocal s i.ctx (slotOffset c k) + o.unit * 1024) d.2
      if o.flag then closeBillet s2 i.ctx o.ring else s2

/-- STM (R250). -/
def runStm (i : Issue) (s : State) (o : SchedOp) : State :=
  let d := storeData i (noteIssuer s i o.ap) o.ap
  newStore d.1 i.half i.ctx (bits o.v 55 9 * 1024) d.2

/-! ## DRAIN (R263, R264) -/

/-- A ring is drained: H rises to C0, and what was not released is discarded. -/
def drainRing (s : State) (ctx ring c0 : Nat) : State :=
  match getRing s ctx ring with
  | none => s
  | some x =>
    let n := c0 - x.released
    if n == 0 then s
    else
      let s1 := updRing s ctx ring fun x =>
        { x with released := c0, discards := capAt 0xFFFFFFFF (x.discards + n), lengths := x.lengths.filter fun l => l.1 ≥ c0
                 relTimes := List.replicate n s.time ++ x.relTimes.filter fun t => s.time < t + 4 }
      ctxEvent s1 ctx 0x0007 ring n

/-- The rings of a DRAIN whose P has reached C0 are drained; the others are left. -/
def drainRings (s : State) (d : DrainSt) : State × DrainSt :=
  let done := fun (r : Nat × Nat) => ((getRing s d.ctx r.1).map fun x => decide (r.2 ≤ x.published)).getD true
  ((d.rings.filter done).foldl (fun s r => drainRing s d.ctx r.1 r.2) s, { d with rings := d.rings.filter fun r => !done r })

/-- A DRAIN is accepted. Its update carries the drain counter's generation of this moment (R362). -/
def runDrain (i : Issue) (s : State) : State :=
  let rings := (s.cfg.rings.filter fun c => c.ctx == i.ctx && !c.fixedAhead && !c.consHauler).filterMap fun c =>
    (getRing s i.ctx c.ring).map fun x => (c.ring, x.claimed)
  let gen := match (ctxCfg s i.ctx).bind (·.drainCounter) with
    | some v => (match vEntry s i.ctx v with
      | .loc c _ _ => genOf s c
      | _ => 0)
    | none => 0
  let r := drainRings s { ctx := i.ctx, half := i.half, rings := rings, gen := gen }
  { r.1 with buf.drains := r.1.buf.drains ++ [r.2] }

/-- Every ring of a DRAIN is drained: the drain counter rises by 1. -/
def signalDrain (s : State) (d : DrainSt) : State :=
  match (ctxCfg s d.ctx).bind (·.drainCounter) with
  | some v =>
    (match vEntry s d.ctx v with
     | .loc c _ _ => sendUpdate s c 1 d.gen d.half (s.time + releaseDelay c d.half)
     | _ => s)
  | none => s

/-- DRAIN_COMPLETE: rings whose fills have been published are drained, and each DRAIN without a ring left signals. -/
def execDrainComplete (t : Mc) (ctx : Fin 256) (s : State) : Result :=
  let s1 := atTime s t
  if !running s1 then answer s s1
  else
    let mine := s1.buf.drains.filter (·.ctx == ctx.val)
    let s2 := { s1 with buf.drains := s1.buf.drains.filter (·.ctx != ctx.val) }
    answer s (mine.foldl (fun s d =>
      let r := drainRings s d
      if r.2.rings.isEmpty then signalDrain r.1 r.2 else { r.1 with buf.drains := r.1.buf.drains ++ [r.2] }) s2)

/-! ## Bundles -/

/-- One accepted operation. -/
def runOp (i : Issue) (x : Exec) (j : Judged) : Exec :=
  match j.2 with
  | some code => runFaulty i x j.1 code
  | none =>
    let o := j.1
    match o.op with
    | 1 => runRead i x o
    | 2 => runRead i x o
    | 3 => { x with s := runStr i x.s o }
    | 4 => { x with s := runStm i x.s o }
    | 5 => { x with s := addFeed x.s i.half o.feed (bits o.v 51 0) }
    | 6 => { x with s := addPacing x.s o.feed 2 }
    | 7 =>
      { x with s := newSig x.s i.half i.ctx (bits o.v 59 48) (bits o.v 47 16) (openStores i.start i.ctx) }
    | 8 => { x with s := runDrain i x.s }
    | _ => x

/-- The head billet is released one mc after the bundle (R246). -/
def freeHead (ctx : Nat) (s : State) (r : Nat × Nat) : State :=
  updRing s ctx r.1 fun x => { x with releasing := x.releasing ++ [(s.time + 1, r.2)] }

/-- KIND and ID of FV_FAULT_LATE for an operation that was not ready. -/
def lateRecord (h : Half) (o : SchedOp) : Nat × Nat :=
  if o.op == 5 then (2, o.feed) else if o.op == 4 then (3, if h == .west then 1 else 0) else (1, o.ring)

/-- LATE (R252, R253, R513): nothing of the bundle is accepted. The operations `ops` are kept in their order, each with whether it is
among those that were not ready, `late`. They take the place of those of an earlier LATE at the same half; those at the other half
stay, so that READY waits for both (R254). -/
def raiseLate (s : State) (h : Half) (ctx : Nat) (ops late : List SchedOp) : State :=
  let kept := ops.map fun o => (h, o.word, late.contains o)
  let s1 := updCtx s ctx fun x =>
    let y := { x with lateCount := capAt 0xFFFFFFFF (x.lateCount + 1), waitNo := x.waitNo + 1, late := x.late.filter (·.1 != h) ++ kept }
    match late.find? fun o => o.op ≤ 5 with
    | some o => { y with lateKind := (lateRecord h o).1, lateId := (lateRecord h o).2 }
    | none => y
  { s1 with out.late := s1.out.late.set h true, out.ready := s1.out.ready.filter (· != ctx) }

def ctxIsQuenched (s : State) (ctx : Nat) : Bool := ((getCtx s ctx).map fun x => x.st == .quenched).getD false

/-- A bundle at a half's schedule port. A half that it found asleep, in Glow, raises LATE (R456). -/
def takeBundle (asleep : Bool) (s : State) (b : Bundle) : State :=
  let ctx := b.ctx.val
  let quenched := ctxIsQuenched s ctx
  let ops := bundleOps b
  let j := judge b.half ctx quenched s 0 ops
  let sound := (j.1.filter fun x => x.2.isNone).map Prod.fst
  if asleep && ops.any (fun o => !isNop o) then raiseLate s b.half ctx sound sound
  else if !j.2.isEmpty then raiseLate s b.half ctx sound j.2
  else
    let i : Issue := { half := b.half, ctx := ctx, vcyc := b.vcyc.toNat, start := s, quenched := quenched, stData := b.stData }
    let x := j.1.foldl (runOp i) { s := s, banks := [], rel := [] }
    let s1 := (dedup x.rel).foldl (freeHead ctx) x.s
    let met := (ops.map (·.word))
    let s2 := updCtx s1 ctx fun y => { y with ran := true, late := y.late.filter fun l => l.1 != b.half || !met.contains l.2.1 }
    { s2 with out.late := s2.out.late.set b.half false }

def bundleHas (b : Bundle) (op : Nat) : Bool := (bundleOps b).any fun o => !isNop o && o.op == op

/-- A bundle issued under the row of operation `op`: it carries that operation, or none that has a row. Its operations wake a half in Glow,
and undo a Banked entry that has not come to step 4 (R456, R461). -/
def issueBundle (t : Mc) (op : Nat) (b : Bundle) (s : State) : Result :=
  let s1 := atTime s t
  let named := bundleHas b op || (List.range 8).all fun k => !bundleHas b (k + 1)
  let s2 := if (bundleOps b).any fun o => !isNop o then noteBusy (wakeEvent s1 b.half) b.half else s1
  if s1.halfReset.get b.half || !named || !running s2 then answer s s1 else answer s (takeBundle (s1.power.glow.get b.half) s2 b)

/-- RD. -/
def execRd (t : Mc) (b : Bundle) (s : State) : Result := issueBundle t 1 b s
/-- TBL. -/
def execTbl (t : Mc) (b : Bundle) (s : State) : Result := issueBundle t 2 b s
/-- STR. -/
def execStr (t : Mc) (b : Bundle) (s : State) : Result := issueBundle t 3 b s
/-- STM. -/
def execStm (t : Mc) (b : Bundle) (s : State) : Result := issueBundle t 4 b s
/-- FEED. -/
def execFeed (t : Mc) (b : Bundle) (s : State) : Result := issueBundle t 5 b s
/-- SCHEDULE_PACE. -/
def execSchedulePace (t : Mc) (b : Bundle) (s : State) : Result := issueBundle t 6 b s
/-- SIG. -/
def execSig (t : Mc) (b : Bundle) (s : State) : Result := issueBundle t 7 b s
/-- DRAIN. -/
def execDrain (t : Mc) (b : Bundle) (s : State) : Result := issueBundle t 8 b s

/-- The ring's next billet to be published has an STR without a response. -/
def strOpen (s : State) (ctx ring : Nat) : Bool :=
  match getRing s ctx ring with
  | some x => s.buf.strs.any fun y => y.ctx == ctx && y.ring == ring && y.billet == x.published
  | none => false

/-- STR_PUBLISH: the oldest billet that STR has closed is published once its stores have their responses (R241). -/
def execStrPublish (t : Mc) (ctx : Fin 256) (ring : Fin 2048) (s : State) : Result :=
  let s1 := whenReady s t fun x => !strOpen x ctx.val ring.val
  match getRing s1 ctx.val ring.val with
  | none => answer s s1
  | some x =>
    if running s1 && !strOpen s1 ctx.val ring.val && x.closed.head? == some x.published then
      answer s (publishBillet (updRing s1 ctx.val ring.val fun x => { x with closed := x.closed.drop 1 }) ctx.val ring.val)
    else answer s s1

/-! ## READY (R254, R261, R513, R515) -/

/-- Every ring of the context with a first fill has its billets, as the schedule port sees P (R261). -/
def firstFillMet (s : State) (ctx : Nat) : Bool :=
  (s.cfg.rings.filter fun c => c.ctx == ctx && c.firstFill > 0).all fun c =>
    ((getRing s ctx c.ring).map fun x => decide (c.firstFill ≤ visibleP s x)).getD false

/-- Operation `n` of a bundle that raised LATE, as the check of its readiness sees it. -/
def lateOp (x : (Half × Word × Bool) × Nat) : SchedOp :=
  let v := x.1.2.1.toNat
  { anvil := bits v 63 60 ≤ 4, idx := if bits v 63 60 ≤ 4 then bits v 59 56 else x.2, word := x.1.2.1, excess := false }

/-- Some operation of the bundle kept for half `h` that was not ready is still not ready, the bundle's operations taking one after the
other (R252, R254). -/
def lateAt (s : State) (ctx : Nat) (late : List (Half × Word × Bool)) (h : Half) : Bool :=
  let mine := (late.filter (·.1 == h)).zipIdx
  let unready := (judge h ctx (ctxIsQuenched s ctx) s 0 (mine.map lateOp)).2
  mine.any fun x => x.1.2.2 && (s.power.glow.get h || s.halfReset.get h || unready.contains (lateOp x))

/-- A LATE of the context, at either half, is not yet over. -/
def stillLate (s : State) (ctx : Nat) (late : List (Half × Word × Bool)) : Bool := lateAt s ctx late .east || lateAt s ctx late .west

/-- READY: SP_READY of the context rises. -/
def execReady (t : Mc) (ctx : Fin 256) (s : State) : Result :=
  let s1 := atTime s t
  match getCtx s1 ctx.val with
  | none => answer s s1
  | some x =>
    if !running s1 || x.faulted || !(x.ran || firstFillMet s1 ctx.val) || stillLate s1 ctx.val x.late then answer s s1
    else
      let s2 := updCtx s1 ctx.val fun y => { y with late := [] }
      answer s { s2 with out.ready := insertBy id ctx.val (s2.out.ready.filter (· != ctx.val)) }

end Sys2Proof.Machine
end

