-- ==== Sys2Proof/Machine/Stalls.lean ====
section
/-! DEFINITION. The stall detector: members, their waits and advancers, the stall set, and reports (R375 to R380). -/

namespace Sys2Proof.Machine

/-! ## Members and waits (R375) -/

/-- A member: a request by its identity, or a context's processor context. -/
abbrev StallKey := Option Nat × Nat

def StallMember.key (m : StallMember) : StallKey := (m.req, m.ctx)

def requestMember (r : Request) (code object target : Nat) : StallMember :=
  { req := some r.id, ctx := r.ctx, qid := r.qid, tag := r.tag, code := code, object := object, target := target, wait := r.waitSeq
    rounds := 0, reported := false }

def contextMember (ctx wait code object target : Nat) : StallMember :=
  { req := none, ctx := ctx, qid := 0, tag := 0, code := code, object := object, target := target, wait := wait, rounds := 0, reported := false }

/-- A request that waits in one of the ways of the table "Stall waits". -/
def blockedRequest (s : State) (r : Request) : Option StallMember :=
  if r.fin.isSome || waitOver s r then none
  else match r.wait with
    | some (.counter vid _ target _) => some (requestMember r 1 vid target)
    | some (.ringClaim ring) => some (requestMember r 2 ring 0)
    | some (.ringAcquire ring) => some (requestMember r 3 ring 0)
    | some (.handlePut q) => some (requestMember r 4 q 0)
    | some (.handleTake q) => some (requestMember r 5 q 0)
    | _ => none

/-- The first operation of the bundle that raised LATE that was not ready. -/
def firstLate (x : CtxState) : Option SchedOp := (x.late.zipIdx.find? fun l => l.1.2.2).map lateOp

/-- A processor context that waits: on a counter, or suspended by LATE on a ring or a feed. -/
def blockedContext (x : CtxState) : Option StallMember :=
  match x.cw with
  | some w => some (contextMember x.ctx x.waitNo 1 w.vid w.target)
  | none =>
    match firstLate x with
    | none => none
    | some o =>
      if 1 ≤ o.op && o.op ≤ 3 then some (contextMember x.ctx x.waitNo 6 o.ring 0)
      else if o.op == 5 then some (contextMember x.ctx x.waitNo 7 o.feed 0)
      else none

def blockedMembers (s : State) : List StallMember :=
  s.run.reqs.filterMap (blockedRequest s) ++ s.ctxs.filterMap blockedContext

/-! ## Advancers (R375, R376) -/

/-- The instructions of a program from word `pc` on. -/
def instrsFrom (prog : List Word) : Nat → Nat → List HInstr
  | 0, _ => []
  | f + 1, pc =>
    match instrAt prog pc with
    | some i => i :: instrsFrom prog f (pc + instrWords prog pc)
    | none => []

def programHas (p : HInstr → Bool) (r : Request) : Bool := (instrsFrom r.program r.program.length 0).any p

/-- The request holds a SIGNAL through a current-generation binding to a counter. -/
def signalsTo (s : State) (ctr : Nat) (r : Request) : Bool :=
  programHas (fun i => match i with
    | .signal b _ => (match r.binds[b]? with
      | some x => x.supplied && x.gen == genOf s ctr && (match vEntry s r.ctx x.vid with
        | .loc c _ _ => c == ctr
        | _ => false)
      | none => false)
    | _ => false) r

/-- Contexts that map a counter with S. -/
def mapsWithS (s : State) (ctr : Nat) : List Nat :=
  dedup ((s.cfg.vctrs.filter fun v => match v.entry with
    | .loc c sg _ => c == ctr && sg
    | _ => false).map (·.ctx))

/-- The context has an ENABLED queue holding entries not yet dispatched. -/
def holdsEntries (s : State) (ctx : Nat) : Bool :=
  s.cfg.sqs.any fun c => c.ctx == ctx && ((getSq s c.qid).map fun x => x.st == .enabled && (x.tail != x.head || !x.held.isEmpty)).getD false

/-- The counter is HOST, or exported to partners. -/
def externalCounter (s : State) (ctr : Nat) : Bool :=
  ((ctrCfg s ctr).map (·.host)).getD false || s.cfg.exports.any fun e => match e.target with
    | .counter vid => (match vEntry s e.owner vid with
      | .loc c _ _ => c == ctr
      | _ => false)
    | _ => false

def requestsWith (s : State) (ctx : Nat) (p : HInstr → Bool) : List StallKey :=
  (s.run.reqs.filter fun r => r.ctx == ctx && programHas p r).map fun r => (some r.id, r.ctx)

def fillsRing (ring : Nat) : HInstr → Bool
  | .fill g _ _ _ _ _ => g == ring
  | _ => false

def freesRing (ring : Nat) : HInstr → Bool
  | .release g => g == ring
  | _ => false

def takesFrom (q : Nat) : HInstr → Bool
  | .takeHandle k _ => k == q
  | _ => false

def putsTo (q : Nat) : HInstr → Bool
  | .putHandle k _ => k == q
  | _ => false

def gathersFeed (feed : Nat) : HInstr → Bool
  | .gather _ _ _ _ fd k _ _ => fd && k == feed
  | _ => false

/-- The physical counter of a member's counter wait. -/
def waitCounter (s : State) (m : StallMember) : Option Nat :=
  match vEntry s m.ctx m.object with
  | .loc c _ _ => some c
  | _ => none

def lateStr (s : State) (m : StallMember) : Bool :=
  (((getCtx s m.ctx).bind firstLate).map fun o => o.op == 3).getD false

/-- The members that can end a member's wait; a ring that the processor context fills is ended by it (assumption 26). -/
def advancers (s : State) (m : StallMember) : List StallKey :=
  let me : StallKey := (none, m.ctx)
  match m.code with
  | 1 => (match waitCounter s m with
    | some c => (s.run.reqs.filter (signalsTo s c)).map (fun r => (some r.id, r.ctx)) ++ (mapsWithS s c).map fun k => (none, k)
    | none => [])
  | 2 => (match ringCfg s m.ctx m.object with
    | some c => if c.consHauler then requestsWith s m.ctx (freesRing m.object) else [me]
    | none => [])
  | 3 => (match ringCfg s m.ctx m.object with
    | some c => if c.prodSched then [me] else requestsWith s m.ctx (fillsRing m.object)
    | none => [])
  | 4 => requestsWith s m.ctx (takesFrom m.object)
  | 5 => requestsWith s m.ctx (putsTo m.object)
  | 6 => if lateStr s m then requestsWith s m.ctx (freesRing m.object) else requestsWith s m.ctx (fillsRing m.object)
  | 7 => requestsWith s m.ctx (gathersFeed m.object)
  | _ => []

/-- Something outside every stall can end the wait: an external advancer, or a context with entries not yet dispatched. -/
def hasOutside (s : State) (m : StallMember) : Bool :=
  if m.code == 1 then
    match waitCounter s m with
    | some c => externalCounter s c || (mapsWithS s c).any (holdsEntries s)
    | none => false
  else holdsEntries s m.ctx

/-- Pseudocode "Stall set", one pass. -/
def stallPass (s : State) (l : List StallMember) : List StallMember :=
  let keys := l.map StallMember.key
  l.filter fun m => !hasOutside s m && (advancers s m).all keys.contains

/-- Passes until none removes a member. -/
def stallSet (s : State) : Nat → List StallMember → List StallMember
  | 0, l => l
  | f + 1, l =>
    let l' := stallPass s l
    if l'.length == l.length then l else stallSet s f l'

/-! ## Reports (R378, R379) -/

/-- The member with the evaluations that it has stayed in the set on one wait, and whether that wait has been reported. -/
def carryMember (told : List (StallKey × Nat)) (old : List StallMember) (m : StallMember) : StallMember :=
  let m1 := { m with reported := told.contains (m.key, m.wait) }
  match old.find? fun x => x.key == m.key && x.wait == m.wait with
  | some x => { m1 with rounds := x.rounds + 1 }
  | none => m1

/-- A reported wait goes on. -/
def stillWaits (s : State) (x : StallKey × Nat) : Bool :=
  match x.1.1 with
  | some id => ((getReq s id).map fun r => r.wait.isSome && r.waitSeq == x.2).getD false
  | none => ((getCtx s x.1.2).map fun c => c.waitNo == x.2).getD false

def getStallRegs (s : State) (p : Nat) : StallRegs := (s.ctr.stallRegs.find? (·.part == p)).getD (StallRegs.reset p)

def updStallRegs (s : State) (p : Nat) (f : StallRegs → StallRegs) : State :=
  { s with ctr.stallRegs := updWhere (fun (x : StallRegs) => x.part == p) f s.ctr.stallRegs }

/-- A report is shown, with PENDING set and the message of the partition's fault-queue vector. -/
def showReport (s : State) (p : Nat) (r : StallReport) : State :=
  sendMsix (updStallRegs s p fun x => { x with shown := r, pending := true, shownAt := some s.time, reports := capAt 0xFFFFFFFF (x.reports + 1) })
    p (getFaultQ s p).vector

/-- One partition's view of a report, shown or held. -/
def giveReport (ms : List StallMember) (s : State) (p : Nat) : State :=
  let own := ms.filter fun m => partOfCtx s m.ctx == p
  let r : StallReport := { members := own.take 64, foreign := capAt 255 (ms.length - own.length), overflow := decide (own.length > 64) }
  if (getStallRegs s p).pending then updStallRegs s p fun x => { x with held := x.held ++ [r] } else showReport s p r

/-- STALL_EVALUATION: a set all of whose members have stayed in it for the window is reported (R377, R378). -/
def execStallEvaluation (t : Mc) (s : State) : Result :=
  let s1 := atTime s t
  if !running s1 || s1.halfReset.east then answer s s1
  else
    let all := blockedMembers s1
    let now := (stallSet s1 all.length all).map (carryMember s1.ctr.told s1.ctr.stalls)
    let due := !now.isEmpty && now.all fun m => m.rounds * 10000 ≥ s1.cfg.safety.stallWindow
    let fresh := if due then now.filter fun m => !m.reported else []
    let told := (s1.ctr.told ++ fresh.map fun m => (m.key, m.wait)).filter (stillWaits s1)
    let s2 := { s1 with ctr.stalls := if due then now.map (fun m => { m with reported := true }) else now, ctr.told := told
                        run.stalled := s1.run.stalled ++ fresh.filterMap (·.req) }
    answer s ((dedup (fresh.map fun m => partOfCtx s1 m.ctx)).foldl (giveReport fresh) s2)

/-- PENDING: a write of 1 to PENDING of FV_CTR_STALL delivers the oldest held report, or clears PENDING; in the mc in which the mover has
set PENDING its setting stands (R534). -/
def execStallPending (t : Mc) (w : RegWrite) (s : State) : Result :=
  let s1 := hostAt s t w.port
  if !regOpen s1 w .plain || !regBit w 0 then answer s s1
  else
    let p := pagePart w.page
    if (getStallRegs s1 p).shownAt == some s1.time then answer s s1
    else match (getStallRegs s1 p).held with
    | r :: rest => answer s (showReport (updStallRegs s1 p fun x => { x with held := rest }) p r)
    | [] => answer s (updStallRegs s1 p fun x => { x with pending := false })

end Sys2Proof.Machine
end

