-- ==== Sys2Proof/Machine/TestBlock.lean ====
section
/-! DEFINITION. The test block beside the loop engine: Stockpile memory BIST, logic self-test on demand, and access through the TAP
(R507 to R510). -/

namespace Sys2Proof.Machine

/-- Host writes reach the test block: partition 0's page, and TAP_OWN is 0 (R510). -/
def testOpen (s : State) (w : RegWrite) : Bool := regOpen s w .test && pagePart w.page == 0 && !s.test.tapOwn

def updTest (s : State) (f : TestSt → TestSt) : State := { s with test := f s.test }

/-! ## Memory BIST (R507) -/

def mbIdle : Nat := 0
def mbRunning : Nat := 1

/-- mc that a memory test takes: R507 gives them as an upper bound (assumption 86, DESIGN CHOICE). -/
def mbistTime : Mc := 100000

/-- The March C− test of a half's Stockpile starts; `endMbist` ends it. -/
def runMbist (s : State) (h : Half) (failing : List (Fin 128)) : State :=
  updTest s fun x =>
    { x with mbState := mbRunning, mbFail := [], mbist := some { half := h, ends := s.time + mbistTime, failing := failing } }

/-- A write of FV_TEST_MBIST: HALF, and START in maintenance configuration, while no test runs. -/
def writeMbist (s : State) (v : Nat) (failing : List (Fin 128)) : State :=
  let s1 := updTest s fun x => { x with mbHalf := bit01 (bit v 1) }
  if bit v 0 && s1.status.maint && s1.test.mbist.isNone then runMbist s1 (halfOfBit (bit v 1)) failing else s1

/-- MBIST_START. -/
def execMbistStart (t : Mc) (w : RegWrite) (failing : List (Fin 128)) (s : State) : Result :=
  let s1 := hostAt s t w.port
  answer s (if testOpen s1 w then writeMbist s1 w.value.toNat failing else s1)

/-! ## Returned lines of a loop test (R502, R506) -/

/-- A line of an L3 or L4 test that fails address parity or Seam CRC is counted by the integrity monitor under its class: no context is
quenched, since a test line carries none, and Seam failures escalate as others do (R495, R506). The parity record's reaction is COUNTED:
R497 names none for a quench of no context (assumption 85, DESIGN CHOICE). -/
def monitorLine (s : State) (bad : Bool) (env : StartEnv) : State :=
  let l := s.test.loop
  let d : Detection :=
    { half := l.half, mech := if l.depth == 4 then 1#8 else 3#8, unitClass := if l.depth == 4 then 5#8 else 1#8
      unit := if l.depth == 4 then 0#16 else BitVec.ofNat 16 l.unit, slot := 0, object := 0#64, lines := [], corrected := false
      owner := none, counter := 0, hashing := [], chainHead := none }
  if !bad then s
  else if l.depth == 4 then reactContained s d env
  else if l.depth == 3 then intRecord s (recOf d []) 0
  else s

/-- LOOP_LINE_RETURN: a line of the half's running test returns; in L7 lines return in the partner's responses. -/
def execLoopLineReturn (t : Mc) (half : Half) (line : Nat) (flips : List Byte) (check : LineCheck) (s : State) : Result :=
  let s1 := engage (atTime s t)
  if s1.test.loop.half == half && s1.test.loop.depth != 7 && canReturn s1 line then
    answerStart s (loopReturn (monitorLine s1 check.bad check.env) line flips check.bad)
  else answer s s1

/-! ## Logic self-test (R508) -/

/-- A write of FV_TEST_LBIST: with START in maintenance configuration every failing slice is retired. -/
def writeLbist (s : State) (v : Nat) (failing : List Slice) : State :=
  if bit v 0 && s.status.maint then
    let new := dedup (failing.filter fun x => x.idx < sliceCount x.kind && !s.integ.retired.contains x)
    updTest (new.foldl retireSlice s) fun x => { x with lbDone := true }
  else s

/-- LBIST_START. -/
def execLbistStart (t : Mc) (w : RegWrite) (failing : List Slice) (s : State) : Result :=
  let s1 := hostAt s t w.port
  answer s (if testOpen s1 w then writeLbist s1 w.value.toNat failing else s1)

/-! ## Writes of the block's registers by offset -/

/-- `n` free bits, from free values. -/
def drawBits (n : Nat) (s : State) : List Bool × State :=
  ((List.range n).map fun i => bit (Config.freeValue (s.drawn + i / 64)).toNat (i % 64), { s with drawn := s.drawn + n / 64 + 1 })

/-- Every slice of both halves. -/
def allSlices : List Slice :=
  [Half.east, Half.west].flatMap fun h =>
    [SliceKind.tongs, .hauler, .shaPipe, .translation, .counterPath, .anvil].flatMap fun k =>
      (List.range (sliceCount k)).map fun i => ⟨h, k, i⟩

/-- The elements whose free bit is 1. -/
def drawSome {α : Type} (l : List α) (s : State) : List α × State :=
  let (bs, s1) := drawBits l.length s
  (((l.zip bs).filter Prod.snd).map Prod.fst, s1)

/-- A write of `v` at page offset `r` of the test block. What a self-test finds when its command does not say it is a free value. -/
def writeTest (s : State) (r v : Nat) : State :=
  if r == 0xD000 then startLoop s v (bit v 0)
  else if r == 0xD008 then updTest s fun x => { x with seed := bits v 30 0 }
  else if r == 0xD010 then
    updTest s fun x => { x with record := bits v 52 42, exportId := bits v 41 32, offset := bits v 31 0 }
  else if r == 0xD018 then updTest s fun x => { x with hostBase := bits v 42 12 * 4096 }
  else if r == 0xD038 then
    let (failing, s1) := drawSome (List.finRange 128) s
    writeMbist s1 v failing
  else if r == 0xD050 then
    let (failing, s1) := drawSome allSlices s
    writeLbist s1 v failing
  else s

/-! ## TAP (R509, R510) -/

def setTapOwn (s : State) (v : Bool) : State := updTest s fun x => { x with tapOwn := v }

/-- RELEASE: a TAP write of FV_TEST_TAP; without RELEASE it takes ownership as any TAP write to the block does. -/
def execRelease (t : Mc) (value : Word) (s : State) : Result :=
  let s1 := atTime s t
  answer s (if running s1 then setTapOwn s1 (!bit value.toNat 1) else s1)

/-- TAP_ACCESS: a TAP write to offset `off` of the test block. -/
def execTapAccess (t : Mc) (off : Nat) (value : Word) (s : State) : Result :=
  let s1 := atTime s t
  if !running s1 || off ≥ 0x1000 then answer s s1
  else if off == 0x58 then answer s (setTapOwn s1 (!bit value.toNat 1))
  else answer s (writeTest (setTapOwn s1 true) (0xD000 + off) value.toNat)

/-- TAP_TEST_LOGIC_RESET: the TAP leaves the Test-Logic-Reset state. -/
def execTapTestLogicReset (t : Mc) (s : State) : Result := answer s (setTapOwn (atTime s t) false)

end Sys2Proof.Machine
end

