-- ==== Sys2Proof/Machine/Registers.lean ====
section
/-! DEFINITION. Register writes with a behaviour of their own, and the write of any register by its aperture offset (R275, R321, R322,
R342, R353, R436, R496, R530 to R538). -/

namespace Sys2Proof.Machine

/-! ## Arbitration (R321, R322) -/

/-- Submission queues of a partition's contexts. -/
def partQueues (s : State) (p : Nat) : List SubQueue := s.q.sqs.filter fun q => 16 ≤ q.qid && sqOwner s q.qid == some p

def compatMode (s : State) (p : Nat) : Bool := ((partCfg s p).map (·.compat)).getD false

/-- Every shadow of a partition is set to its committed priority. -/
def discardShadows (s : State) (p : Nat) : State :=
  let own := fun (q : SubQueue) => 16 ≤ q.qid && sqOwner s q.qid == some p
  let back := fun (q : SubQueue) => { q with shadowPrio := q.committed }
  { s with q.sqs := updWhere own back s.q.sqs }

/-- The shadow priorities of a partition, as a COMMIT takes them. -/
def snapshot (s : State) (p : Nat) : List (Nat × Nat) := (partQueues s p).map fun q => (q.qid, q.shadowPrio)

/-- A write of FV_ARB_COMMIT; with both bits it discards, and in compatibility mode it is ignored. -/
def writeCommit (s : State) (w : RegWrite) : State :=
  let p := pagePart w.page
  if !regOpen s w .plain || compatMode s p then s
  else if regBit w 1 then discardShadows s p
  else if regBit w 0 then updPartRegs s p fun x => { x with commits := x.commits ++ [snapshot s p] }
  else s

/-- COMMIT. -/
def execCommit (t : Mc) (w : RegWrite) (s : State) : Result := answer s (writeCommit (hostAt s t w.port) w)

/-- DISCARD. -/
def execDiscard (t : Mc) (w : RegWrite) (s : State) : Result := answer s (writeCommit (hostAt s t w.port) w)

/-- A queue takes its snapshotted priority. -/
def commitQueue (snap : List (Nat × Nat)) (q : SubQueue) : SubQueue :=
  match snap.find? fun x => x.1 == q.qid with
  | some x => { q with committed := x.2 }
  | none => q

/-- PRIORITY_COMMIT_APPLY: the oldest pending commit takes effect. -/
def execPriorityCommitApply (t : Mc) (p : Fin 16) (s : State) : Result :=
  let s1 := atTime s t
  match (getPartRegs s1 p.val).commits with
  | snap :: rest =>
    if running s1 then
      answer s { updPartRegs s1 p.val (fun x => { x with commits := rest }) with q.sqs := s1.q.sqs.map (commitQueue snap) }
    else answer s s1
  | [] => answer s s1

/-- SHADOW: a write of FV_ARB_PRIO; in compatibility mode the committed priority follows, from the next mc on (R322). -/
def execShadow (t : Mc) (w : RegWrite) (s : State) : Result :=
  let s1 := hostAt s t w.port
  let p := pagePart w.page
  let q := (getSel s1 w.page).arb
  if !regOpen s1 w .plain || q < 16 || sqOwner s1 q != some p then answer s s1
  else
    let v := regBits w 2 0
    let set := fun (x : SubQueue) => { x with shadowPrio := v, committed := v, prioUntil := some (s1.time, prioNow s1 x) }
    answer s (updSq s1 q fun x => if compatMode s1 p then set x else { x with shadowPrio := v })

/-! ## Faults block (R179, R342, R353) -/

/-- The open and the closed batch count from 0 again. -/
def renumber (q : FaultQ) : FaultQ :=
  let n := if q.closedB.isEmpty then 0 else 1
  { q with batchNo := n, closedB := q.closedB.map (fun r => { r with batch := 0 }), openB := q.openB.map fun r => { r with batch := n } }

/-- FAULT_QUEUE_ENABLE: a write of FV_FAULT_QCTL. -/
def execFaultQueueEnable (t : Mc) (w : RegWrite) (s : State) : Result :=
  let s1 := hostAt s t w.port
  if !regOpen s1 w .plain then answer s s1
  else
    let p := pagePart w.page
    let q := getFaultQ s1 p
    let log := if q.enabled then q.log else regBits w 8 4
    let s2 := updFaultQ s1 p fun q => { q with vector := regBits w 23 13, log := log }
    if !regBit w 0 then answer s (updFaultQ s2 p fun q => { q with enabled := false })
    else if q.enabled || log < 6 || log > 12 then answer s s2
    else answer s (flushFaults (updFaultQ s2 p fun q => renumber { q with enabled := true, head := 0, records := 0 }) p)

/-- FAULT_QUEUE_HEAD: a write of FV_FAULT_QHEAD; a HEAD above RECORDS is ignored and counted as a dropped record. -/
def execFaultQueueHead (t : Mc) (w : RegWrite) (s : State) : Result :=
  let s1 := hostAt s t w.port
  if !regOpen s1 w .plain then answer s s1
  else
    let p := pagePart w.page
    let q := getFaultQ s1 p
    let v := regBits w 31 0
    if sub32b v q.head > sub32b q.records q.head then
      answer s (updFaultQ s1 p fun q => { q with dropped := capAt 0xFFFFFFFF (q.dropped + 1) })
    else answer s (flushFaults (updFaultQ s1 p fun q => { q with head := v }) p)

/-- CLEAR: a write of FV_FAULT_SATCLR. -/
def execClear (t : Mc) (w : RegWrite) (s : State) : Result :=
  let s1 := hostAt s t w.port
  let sel := (getSel s1 w.page).fault
  let ctx := bits sel 19 12
  if !regOpen s1 w .plain || !regBit w 0 || (ctxCfg s1 ctx).isNone || partOfCtx s1 ctx != pagePart w.page then answer s s1
  else answer s (updChannel s1 ctx (bits sel 11 0) fun c => { c with sat := 0, raised := false })

/-! ## Power and integrity blocks -/

/-- A write of FV_PWR_CTRL, in partition 0 only (R480). -/
def writePwrCtrl (s : State) (w : RegWrite) : State :=
  if !regOpen s w .plain || pagePart w.page != 0 then s
  else
    let s1 := { s with power := { s.power with bankReq := regBit w 1, holdRun := regBit w 0, ctrlAt := some s.time } }
    if regBit w 0 then wakeBoth s1 else s1

/-- BANK. -/
def execBank (t : Mc) (w : RegWrite) (s : State) : Result := answer s (writePwrCtrl (hostAt s t w.port) w)

/-- HOLD_RUN; it wakes a half that is in Glow. -/
def execHoldRun (t : Mc) (w : RegWrite) (s : State) : Result := answer s (writePwrCtrl (hostAt s t w.port) w)

/-- The bytes of a log's record; zero where no record stands. -/
def logBytes (l : List (Nat × List Byte)) (i n : Nat) : List Byte :=
  ((l.find? fun x => x.1 == i).map Prod.snd).getD (zeros n)

/-- POWER_LOG_SELECT: a write of FV_PWR_LOGSEL takes a snapshot of the record (R536). -/
def execPowerLogSelect (t : Mc) (w : RegWrite) (s : State) : Result :=
  let s1 := hostAt s t w.port
  let i := regBits w 5 0
  if !regOpen s1 w .selector then answer s s1
  else answer s (updSel s1 w.page fun x => { x with pwrLog := i, pwrSnap := logBytes s1.power.log i 16 })

/-- INTEGRITY_LOG_SELECT: a write of FV_INT_LOGSEL, on partition 0's page or the global page. -/
def execIntegrityLogSelect (t : Mc) (w : RegWrite) (s : State) : Result :=
  let s1 := hostAt s t w.port
  let i := regBits w 7 0
  if !regOpen s1 w .selector || pagePart w.page != 0 then answer s s1
  else answer s (updSel s1 w.page fun x => { x with intLog := i, intSnap := logBytes s1.integ.log i 32 })

/-- ALERT: a write of 1 to ALERT of FV_INT_STATUS by partition 0 releases the pin; in the mc of a new record that pulls it low it stays low
(R496, R534). -/
def execAlert (t : Mc) (w : RegWrite) (s : State) : Result :=
  let s1 := hostAt s t w.port
  if !regOpen s1 w .intStatus || pagePart w.page != 0 || !regBit w 0 then answer s s1
  else answer s (if s1.integ.alertAt == some s1.time then s1 else { s1 with integ := { s1.integ with alert := false } })

/-! ## Admin queues (R275, R436) -/

/-- The admin queues of maintenance configuration, ENABLED at a base with zero counts. -/
def maintQueues (s : State) (base : Nat) : State :=
  { s with q.sqs := SubQueue.start 0 .enabled base 7 :: s.q.sqs.filter (·.qid != 0)
           q.cqs := CompQueue.start 0 .enabled (base + 4096) :: s.q.cqs.filter (·.qid != 0) }

/-- Both admin queues of partition 0 are ENABLED. -/
def maintEnabled (s : State) : Bool :=
  ((getSq s 0).any fun q => q.st == .enabled) && ((getCq s 0).any fun q => q.st == .enabled)

/-- GO: a write of FV_CFG_MAINTBASE, in maintenance configuration only. -/
def execGo (t : Mc) (w : RegWrite) (s : State) : Result :=
  let s1 := hostAt s t w.port
  if !regOpen s1 w .maintBase || pagePart w.page != 0 || !s1.status.maint || (regBit w 0 && maintEnabled s1) then answer s s1
  else
    let base := regBits w 42 12 * 4096
    let s2 := { s1 with status := { s1.status with maintBase := base } }
    answer s (if regBit w 0 then maintQueues s2 base else s2)

/-- The admin queue is ENABLED at its base with zero counts; entries read and not started go without a record. -/
def recoverSq (s : State) (p : Nat) : State :=
  updSq s p fun q => { q with st := .enabled, base := ((partCfg s p).map (·.adminSqBase)).getD q.base, tail := 0, head := 0, held := [] }

def recoverCq (s : State) (p : Nat) : State :=
  updCq s p fun q =>
    { q with st := .enabled, base := ((partCfg s p).map (·.adminCqBase)).getD q.base, count := 0, head := 0, unsignalled := 0 }

/-- A write of FV_QUEUES_ADMINCTL. -/
def writeAdminCtl (s : State) (w : RegWrite) : State :=
  let p := pagePart w.page
  if !regOpen s w .plain then s
  else
    let s1 := if regBit w 0 then recoverSq s p else s
    if regBit w 1 then recoverCq s1 p else s1

/-- ADMIN_SQ_RECOVER. -/
def execAdminSqRecover (t : Mc) (w : RegWrite) (s : State) : Result := answer s (writeAdminCtl (hostAt s t w.port) w)

/-- ADMIN_CQ_RECOVER. -/
def execAdminCqRecover (t : Mc) (w : RegWrite) (s : State) : Result := answer s (writeAdminCtl (hostAt s t w.port) w)

/-! ## Any register by its offset (R530, R532, R535, R537, R539) -/

/-- A selector's write: its writable bits. -/
def writeSelector (r v : Nat) (pg : Page) (x : Selectors) : Selectors :=
  if r == 0x0048 then (if pg == .global then { x with part := bits v 19 16 } else x)
  else if r == 0x1010 then { x with arb := bits v 12 0 }
  else if r == 0x2000 then { x with queues := bits v 13 0 }
  else if r == 0x2030 then { x with pace := bits v 7 0 }
  else if r == 0x4000 then { x with seg := bits v 11 0 }
  else if r == 0x4030 then { x with blk := bits v 26 0 }
  else if r == 0x6000 then { x with ctr := bits v 19 0 }
  else if r == 0x6030 then { x with stall := bits v 5 0 }
  else if r == 0x8028 then { x with fault := bits v 19 0 }
  else if r == 0x8050 then { x with ring := bits v 10 0 }
  else if r == 0x9000 then { x with rem := bits v 10 0 }
  else if r == 0xA030 then { x with key := bits v 3 0 }
  else x

def isSelector (r : Nat) : Bool :=
  [0x0048, 0x1010, 0x2000, 0x2030, 0x4000, 0x4030, 0x6000, 0x6030, 0x8028, 0x8050, 0x9000, 0xA030].contains r

/-- FV_FAULT_QBASE and FV_LED_QBASE, ignored while the queue's ENABLE is 1. -/
def writeQBase (s : State) (p r base : Nat) : State :=
  if r == 0x8000 then updFaultQ s p fun q => if q.enabled then q else { q with base := base }
  else updLedger s p fun l => if l.enabled then l else { l with base := base }

/-- A write of a register that has no command of its own. -/
def writePlain (s : State) (w : RegWrite) (r : Nat) : State :=
  let v := w.value.toNat
  let p := pagePart w.page
  if isSelector r then (if regOpen s w .selector then updSel s w.page (writeSelector r v w.page) else s)
  else if r == 0x8000 || r == 0xA000 then (if regOpen s w .plain then writeQBase s p r (bits v 42 12 * 4096) else s)
  else if r == 0xB010 then
    (if regOpen s w .plain && p == 0 then { s with power := { s.power with wakeAt := v, timerAt := some s.time } } else s)
  else if 0xD000 ≤ r && r < 0xE000 then (if testOpen s w && r != 0xD058 then writeTest s r v else s)
  else s

/-- The page of an aperture offset below the doorbell regions. -/
def pageOf (off : Nat) : Option Page :=
  if h : off / 0x1_0000 < 16 then some (.part ⟨off / 0x1_0000, h⟩) else if off / 0x1_0000 == 16 then some .global else none

/-- A write of page offset `r`: registers that commands name act as those commands do. -/
def writePage (t : Mc) (w : RegWrite) (r : Nat) (s : State) : Result :=
  if r == 0x1018 then execShadow t w s
  else if r == 0x1020 then execCommit t w s
  else if r == 0x2040 then execAdminSqRecover t w s
  else if r == 0x6018 then execHostAdd t w s
  else if r == 0x6028 then execStallPending t w s
  else if r == 0x8008 then execFaultQueueEnable t w s
  else if r == 0x8010 then execFaultQueueHead t w s
  else if r == 0x8038 then execClear t w s
  else if r == 0xA008 then execLedgerQueueEnable t w s
  else if r == 0xA010 then execLedgerQueueHead t w s
  else if r == 0xB008 then execBank t w s
  else if r == 0xB028 then execPowerLogSelect t w s
  else if r == 0xC000 then execAlert t w s
  else if r == 0xC028 then execIntegrityLogSelect t w s
  else if r == 0xE020 then execGo t w s
  else answer s (writePlain (hostAt s t w.port) w r)

/-- A write in a doorbell region: word `j` of the region of partition `p` (table "Doorbell region"). -/
def writeBell (t : Mc) (j : Nat) (w : BellWrite) (s : State) : Result :=
  if h : j < 8192 then execSqDoorbell t ⟨j, h⟩ w s
  else if h : j - 8192 < 2048 then execCqDoorbell t ⟨j - 8192, h⟩ w s
  else execPacingDoorbell t (j - 10240) w s

/-- REGISTER_WRITE: a write access anywhere in the aperture. Doorbell regions begin at 0x20_0000; a doorbell access that is not on the
low half of its word counts as one of a wrong size (R280). -/
def execRegisterWrite (t : Mc) (port : Half) (off : Nat) (size : Nat) (value : Word) (s : State) : Result :=
  if off < 0x20_0000 then
    match pageOf off with
    | some pg => if off % 8 == 0 then writePage t { port := port, page := pg, size := size, value := value } (off % 0x1_0000) s
                 else answer s (hostAt s t port)
    | none => answer s (hostAt s t port)
  else
    let o := off - 0x20_0000
    if h : o / 0x2_0000 < 16 then
      writeBell t (o % 0x2_0000 / 8)
        { port := port, part := ⟨o / 0x2_0000, h⟩, size := if off % 8 == 0 then size else 0, value := value } s
    else answer s (hostAt s t port)

end Sys2Proof.Machine
end

