-- ==== Sys2Proof/Machine/Dispatch.lean ====
section
/-! DEFINITION. The dispatch: one arm per command, each one call of that command's meaning. -/

namespace Sys2Proof.Machine

def exec (i : Instr) (s : State) : Host.Outcome State Fault Refusal :=
  match i with
  | .nop t h => Sys2Proof.Machine.execNop t h s
  | .halt t h => Sys2Proof.Machine.execHalt t h s
  | .shape t h => Sys2Proof.Machine.execShape t h s
  | .move t h => Sys2Proof.Machine.execMove t h s
  | .gather t h => Sys2Proof.Machine.execGather t h s
  | .loop t h => Sys2Proof.Machine.execLoop t h s
  | .stepBase t h => Sys2Proof.Machine.execStepBase t h s
  | .xform t h => Sys2Proof.Machine.execXform t h s
  | .quant t h => Sys2Proof.Machine.execQuant t h s
  | .sums t h => Sys2Proof.Machine.execSums t h s
  | .code t h => Sys2Proof.Machine.execCode t h s
  | .expand t h => Sys2Proof.Machine.execExpand t h s
  | .putRingFill t h => Sys2Proof.Machine.execPutRingFill t h s
  | .putHandle t h => Sys2Proof.Machine.execPutHandle t h s
  | .takeRingAcquire t h => Sys2Proof.Machine.execTakeRingAcquire t h s
  | .takeRingRelease t h => Sys2Proof.Machine.execTakeRingRelease t h s
  | .takeHandle t h => Sys2Proof.Machine.execTakeHandle t h s
  | .wait t h => Sys2Proof.Machine.execWait t h s
  | .signal t h => Sys2Proof.Machine.execSignal t h s
  | .fence t h => Sys2Proof.Machine.execFence t h s
  | .pace t h => Sys2Proof.Machine.execPace t h s
  | .prefetch t h => Sys2Proof.Machine.execPrefetch t h s
  | .advise t h => Sys2Proof.Machine.execAdvise t h s
  | .atomic t h => Sys2Proof.Machine.execAtomic t h s
  | .reduce t h => Sys2Proof.Machine.execReduce t h s
  | .ledgerSplit t h => Sys2Proof.Machine.execLedgerSplit t h s
  | .ledgerMark t h => Sys2Proof.Machine.execLedgerMark t h s
  | .report t h => Sys2Proof.Machine.execReport t h s
  | .setp t h => Sys2Proof.Machine.execSetp t h s
  | .parkedResume t h => Sys2Proof.Machine.execParkedResume t h s
  | .tongsSlotGrant t half => Sys2Proof.Machine.execTongsSlotGrant t half s
  | .ringPublish t ctx ring => Sys2Proof.Machine.execRingPublish t ctx ring s
  | .handlePublish t ctx queue => Sys2Proof.Machine.execHandlePublish t ctx queue s
  | .completionRecord t cq => Sys2Proof.Machine.execCompletionRecord t cq s
  | .msixCoalesceTimeout t cq => Sys2Proof.Machine.execMsixCoalesceTimeout t cq s
  | .rd t b => Sys2Proof.Machine.execRd t b s
  | .tbl t b => Sys2Proof.Machine.execTbl t b s
  | .str t b => Sys2Proof.Machine.execStr t b s
  | .strPublish t ctx ring => Sys2Proof.Machine.execStrPublish t ctx ring s
  | .stm t b => Sys2Proof.Machine.execStm t b s
  | .feed t b => Sys2Proof.Machine.execFeed t b s
  | .schedulePace t b => Sys2Proof.Machine.execSchedulePace t b s
  | .sig t b => Sys2Proof.Machine.execSig t b s
  | .drain t b => Sys2Proof.Machine.execDrain t b s
  | .drainComplete t ctx => Sys2Proof.Machine.execDrainComplete t ctx s
  | .ready t ctx => Sys2Proof.Machine.execReady t ctx s
  | .operandRead t half ap fields => Sys2Proof.Machine.execOperandRead t half ap fields s
  | .counterUpdate t ctr => Sys2Proof.Machine.execCounterUpdate t ctr s
  | .counterWait t half ctx vid target => Sys2Proof.Machine.execCounterWait t half ctx vid target s
  | .hostAdd t w => Sys2Proof.Machine.execHostAdd t w s
  | .stallEvaluation t => Sys2Proof.Machine.execStallEvaluation t s
  | .stallPending t w => Sys2Proof.Machine.execStallPending t w s
  | .sqDoorbell t q w => Sys2Proof.Machine.execSqDoorbell t q w s
  | .cqDoorbell t q w => Sys2Proof.Machine.execCqDoorbell t q w s
  | .pacingDoorbell t word w => Sys2Proof.Machine.execPacingDoorbell t word w s
  | .pacingTimer t line => Sys2Proof.Machine.execPacingTimer t line s
  | .entryFetch t q => Sys2Proof.Machine.execEntryFetch t q s
  | .haul t h => Sys2Proof.Machine.execHaul t h s
  | .arm t h q => Sys2Proof.Machine.execArm t h q s
  | .rearm t h q => Sys2Proof.Machine.execRearm t h q s
  | .stop t q => Sys2Proof.Machine.execStop t q s
  | .persistentNextRun t h q => Sys2Proof.Machine.execPersistentNextRun t h q s
  | .sqEnable t p => Sys2Proof.Machine.execSqEnable t p s
  | .sqDisable t p => Sys2Proof.Machine.execSqDisable t p s
  | .cqEnable t p => Sys2Proof.Machine.execCqEnable t p s
  | .cqDisable t p => Sys2Proof.Machine.execCqDisable t p s
  | .queueReset t p => Sys2Proof.Machine.execQueueReset t p s
  | .contextReset t p => Sys2Proof.Machine.execContextReset t p s
  | .contextResetComplete t ctx => Sys2Proof.Machine.execContextResetComplete t ctx s
  | .segmentCreate t p => Sys2Proof.Machine.execSegmentCreate t p s
  | .segmentDestroy t p => Sys2Proof.Machine.execSegmentDestroy t p s
  | .invalidate t p => Sys2Proof.Machine.execInvalidate t p s
  | .segmentDrainComplete t ctx slot => Sys2Proof.Machine.execSegmentDrainComplete t ctx slot s
  | .faultResolve t p => Sys2Proof.Machine.execFaultResolve t p s
  | .promotionCopyDone t ctx slot block => Sys2Proof.Machine.execPromotionCopyDone t ctx slot block s
  | .faultBatchClose t p => Sys2Proof.Machine.execFaultBatchClose t p s
  | .faultResolutionTimeout t ctx slot block => Sys2Proof.Machine.execFaultResolutionTimeout t ctx slot block s
  | .partnerUnfence t p => Sys2Proof.Machine.execPartnerUnfence t p s
  | .ledgerSeal t p => Sys2Proof.Machine.execLedgerSeal t p s
  | .ledgerEntryClose t p => Sys2Proof.Machine.execLedgerEntryClose t p s
  | .flashWrite t p programmed => Sys2Proof.Machine.execFlashWrite t p programmed s
  | .flashVerify t p answers => Sys2Proof.Machine.execFlashVerify t p answers s
  | .reload t p env => Sys2Proof.Machine.execReload t p env s
  | .warmReset t p env => Sys2Proof.Machine.execWarmReset t p env s
  | .warmRstN t env => Sys2Proof.Machine.execWarmRstN t env s
  | .coldStart t env => Sys2Proof.Machine.execColdStart t env s
  | .powerLoss t => Sys2Proof.Machine.execPowerLoss t s
  | .halfResetRejoin t half => Sys2Proof.Machine.execHalfResetRejoin t half s
  | .rread t f => Sys2Proof.Machine.execRread t f s
  | .rwrite t f => Sys2Proof.Machine.execRwrite t f s
  | .ratomic t f => Sys2Proof.Machine.execRatomic t f s
  | .rreduce t f => Sys2Proof.Machine.execRreduce t f s
  | .rsignal t f => Sys2Proof.Machine.execRsignal t f s
  | .hello t f => Sys2Proof.Machine.execHello t f s
  | .response t f => Sys2Proof.Machine.execResponse t f s
  | .attemptTimeout t rec tag => Sys2Proof.Machine.execAttemptTimeout t rec tag s
  | .linkUp t half link => Sys2Proof.Machine.execLinkUp t half link s
  | .pathDown t rec => Sys2Proof.Machine.execPathDown t rec s
  | .trainingTimeout t rec => Sys2Proof.Machine.execTrainingTimeout t rec s
  | .wakeOrderedSet t rec => Sys2Proof.Machine.execWakeOrderedSet t rec s
  | .wakeLimit t rec => Sys2Proof.Machine.execWakeLimit t rec s
  | .epochComplete t ctx red => Sys2Proof.Machine.execEpochComplete t ctx red s
  | .epochTimeout t ctx red => Sys2Proof.Machine.execEpochTimeout t ctx red s
  | .glowEntry t half seqIdle => Sys2Proof.Machine.execGlowEntry t half seqIdle s
  | .glowWake t event => Sys2Proof.Machine.execGlowWake t event s
  | .bankedEntry t stuck => Sys2Proof.Machine.execBankedEntry t stuck s
  | .bankedWake t code => Sys2Proof.Machine.execBankedWake t code s
  | .wakeN t => Sys2Proof.Machine.execWakeN t s
  | .hostWake t half => Sys2Proof.Machine.execHostWake t half s
  | .hbmSupervision t half stack celsius selfRefresh => Sys2Proof.Machine.execHbmSupervision t half stack celsius selfRefresh s
  | .bankedScrub t half ecc => Sys2Proof.Machine.execBankedScrub t half ecc s
  | .clock t count env => Sys2Proof.Machine.execClock t count env s
  | .stagePoll t half rail statusWord reading => Sys2Proof.Machine.execStagePoll t half rail statusWord reading s
  | .brownoutWarning t half millivolts => Sys2Proof.Machine.execBrownoutWarning t half millivolts s
  | .brownoutRecovery t half millivolts => Sys2Proof.Machine.execBrownoutRecovery t half millivolts s
  | .brownoutReset t half millivolts env => Sys2Proof.Machine.execBrownoutReset t half millivolts env s
  | .containedDetection t d env => Sys2Proof.Machine.execContainedDetection t d env s
  | .uncontainedDetection t d env => Sys2Proof.Machine.execUncontainedDetection t d env s
  | .haulerWatchdog t h env => Sys2Proof.Machine.execHaulerWatchdog t h env s
  | .selfTest t slice passes => Sys2Proof.Machine.execSelfTest t slice passes s
  | .latentOverdue t half ap => Sys2Proof.Machine.execLatentOverdue t half ap s
  | .patrolScrub t half ecc => Sys2Proof.Machine.execPatrolScrub t half ecc s
  | .commit t w => Sys2Proof.Machine.execCommit t w s
  | .priorityCommitApply t p => Sys2Proof.Machine.execPriorityCommitApply t p s
  | .discard t w => Sys2Proof.Machine.execDiscard t w s
  | .shadow t w => Sys2Proof.Machine.execShadow t w s
  | .faultQueueEnable t w => Sys2Proof.Machine.execFaultQueueEnable t w s
  | .faultQueueHead t w => Sys2Proof.Machine.execFaultQueueHead t w s
  | .clear t w => Sys2Proof.Machine.execClear t w s
  | .ledgerQueueEnable t w => Sys2Proof.Machine.execLedgerQueueEnable t w s
  | .ledgerQueueHead t w => Sys2Proof.Machine.execLedgerQueueHead t w s
  | .bank t w => Sys2Proof.Machine.execBank t w s
  | .holdRun t w => Sys2Proof.Machine.execHoldRun t w s
  | .wakeAt t => Sys2Proof.Machine.execWakeAt t s
  | .powerLogSelect t w => Sys2Proof.Machine.execPowerLogSelect t w s
  | .integrityLogSelect t w => Sys2Proof.Machine.execIntegrityLogSelect t w s
  | .alert t w => Sys2Proof.Machine.execAlert t w s
  | .loopStart t w => Sys2Proof.Machine.execLoopStart t w s
  | .loopLineReturn t half line flips check => Sys2Proof.Machine.execLoopLineReturn t half line flips check s
  | .loopLineLost t half line => Sys2Proof.Machine.execLoopLineLost t half line s
  | .mbistStart t w failing => Sys2Proof.Machine.execMbistStart t w failing s
  | .lbistStart t w failing => Sys2Proof.Machine.execLbistStart t w failing s
  | .release t value => Sys2Proof.Machine.execRelease t value s
  | .tapAccess t off value => Sys2Proof.Machine.execTapAccess t off value s
  | .go t w => Sys2Proof.Machine.execGo t w s
  | .adminSqRecover t w => Sys2Proof.Machine.execAdminSqRecover t w s
  | .adminCqRecover t w => Sys2Proof.Machine.execAdminCqRecover t w s
  | .registerWrite t port off size value => Sys2Proof.Machine.execRegisterWrite t port off size value s
  | .linkDown t half link => Sys2Proof.Machine.execLinkDown t half link s
  | .quenchTimeout t half env => Sys2Proof.Machine.execQuenchTimeout t half env s
  | .tapTestLogicReset t => Sys2Proof.Machine.execTapTestLogicReset t s

end Sys2Proof.Machine
end

