-- ==== Sys2Proof/Machine/RegisterRead.lean ====
section
/-! DEFINITION. What a host read of a register returns (R280, R531, R532, R535 to R542). No command stands for a read: it changes
nothing, and this function says what it shows. -/

namespace Sys2Proof.Machine

/-! ## Whose objects a page shows (R537, R542) -/

/-- The partition whose partition-scoped registers a page shows. -/
def shownPart (s : State) (pg : Page) : Nat :=
  match pg with
  | .part p => p.val
  | .global => (getSel s pg).part

/-- A page shows the objects of partition `p`. -/
def shows (pg : Page) (p : Nat) : Bool :=
  match pg with
  | .part q => q.val == p
  | .global => true

/-- A page shows an object of context `ctx` with its home in half `h`, unless that half is in half reset (R538). -/
def showsIn (s : State) (pg : Page) (ctx : Nat) (h : Half) : Bool :=
  (ctxCfg s ctx).isSome && shows pg (partOfCtx s ctx) && !s.halfReset.get h

/-- A page shows an object with its home in the half of its context. -/
def showsCtx (s : State) (pg : Page) (ctx : Nat) : Bool := showsIn s pg ctx (homeOfCtx s ctx)

def ifShown (b : Bool) (v : Nat) : Nat := if b then v else 0

/-! ## Identity (R541) -/

def gradeReg : Grade → Nat
  | .a => 0x0000_0000_FFFF_0700
  | .b => 0x0000_0000_3F3F_0601
  | .c => 0x0000_0000_FFFF_0502

def cap0Reg : Grade → Nat
  | .b => 0x0100_1020_8000_0300
  | _ => 0x0100_1020_8000_0400

def cap1Reg : Grade → Nat
  | .b => 0x6000_1800_2000_0800
  | _ => 0x8000_2000_2000_0800

/-- The identity block. -/
def idReg (s : State) (pg : Page) (r : Nat) : Nat :=
  if r == 0x0000 then 0x0000_0000_4F52_0F02
  else if r == 0x0008 then 0x03_0200 + s.fuses.stepping % 256
  else if r == 0x0010 then gradeReg s.fuses.grade
  else if r == 0x0018 then 6
  else if r == 0x0038 then s.fuses.serial0.toNat
  else if r == 0x0040 then s.fuses.serial1.toNat
  else if r == 0x0048 then shownPart s pg * 2 ^ 16 + s.cfg.pkg
  else if r == 0x0050 then cap0Reg s.fuses.grade
  else if r == 0x0058 then cap1Reg s.fuses.grade
  else 0

/-! ## Arbitration and queues -/

def splitReg (h : HalfCfg) : Nat := h.r + h.w * 2 ^ 6 + h.x * 2 ^ 12

/-- A queue that a page shows. -/
def showsSq (s : State) (pg : Page) (q : Nat) : Bool :=
  (sqOwner s q).any (shows pg) && !s.halfReset.get (sqHome s q)

def showsCq (s : State) (pg : Page) (q : Nat) : Bool :=
  (cqOwner s q).any fun p => shows pg p && !s.halfReset.get (homePort s p)

def arbReg (s : State) (pg : Page) (r : Nat) : Nat :=
  let p := shownPart s pg
  let q := (getSel s pg).arb
  if r == 0x1000 then splitReg s.cfg.halves.east + splitReg s.cfg.halves.west * 2 ^ 32
  else if r == 0x1008 then bit01 (compatMode s p)
  else if r == 0x1010 then q
  else if r == 0x1018 then
    ifShown (showsSq s pg q) (((getSq s q).map fun x => x.committed * 2 ^ 8 + x.shadowPrio).getD 0)
  else if r == 0x1028 then
    bit01 ((partQueues s p).any fun x => x.shadowPrio != x.committed) * 2 + bit01 (!(getPartRegs s p).commits.isEmpty)
  else 0

def qstCode : QState → Nat
  | .disabled => 0
  | .enabled => 1
  | .error => 2

def queuesReg (s : State) (pg : Page) (r : Nat) : Nat :=
  let p := shownPart s pg
  let sel := (getSel s pg).queues
  let q := bits sel 12 0
  let cq := bit sel 13
  let line := (getSel s pg).pace
  if r == 0x2000 then sel
  else if r == 0x2008 then
    (if cq then ifShown (showsCq s pg q) (((getCq s q).map fun x => x.count * 2 ^ 32 + x.head).getD 0)
     else ifShown (showsSq s pg q) (((getSq s q).map fun x => x.tail * 2 ^ 32 + x.head).getD 0))
  else if r == 0x2010 then
    (if cq then ifShown (showsCq s pg q) (((getCq s q).map fun x => qstCode x.st).getD 0)
     else ifShown (showsSq s pg q) (((getSq s q).map fun x =>
       x.running * 2 ^ 16 + bit01 x.shadow.isSome * 16 + bit01 x.active * 8 + qstCode x.st).getD 0))
  else if r == 0x2018 then ((partCfg s p).map (·.adminSqBase)).getD 0
  else if r == 0x2020 then ((partCfg s p).map (·.adminCqBase)).getD 0
  else if r == 0x2028 then
    (getPartRegs s p).bellDiscards * 2 ^ 32 +
      ifShown (cq && showsCq s pg q) (((getCq s q).map (·.discards)).getD 0)
  else if r == 0x2030 then line
  else if r == 0x2038 then
    (match pacingCfg s line, getPacing s line with
     | some c, some x => ifShown (showsCtx s pg c.ctx) (pacePending s x * 2 ^ 32 + x.overruns)
     | _, _ => 0)
  else 0

/-! ## Segments -/

def kindCode : SegKind → Nat
  | .device => 0
  | .host => 1
  | .migratable => 2

/-- SEGMENT_CREATE byte 19 of a segment. -/
def attrByte (c : SegCfg) : Nat :=
  bit01 c.r + bit01 c.w * 2 + bit01 c.a * 4 + bit01 c.enc * 8 + bit01 c.comp * 16 + bit01 c.led * 32 + c.half.num * 64 +
    bit01 c.absent * 128

def stateCode : BlockSt → Nat
  | .inHost => 1
  | .inFrame _ => 2
  | .movingIn _ => 3
  | .movingOut _ _ => 3
  | .absent => 4

def inHold (g : Segment) (b : Nat) : Bool := g.holds.any fun h => h.1 ≤ b && b < h.1 + h.2

/-- The block as a read in mc `now` sees it: in the mc of a transition as it was before (R542). -/
def seenBlock (now : Mc) (g : Segment) (b : Nat) : Block :=
  let x := blockOf g b
  match x.was with
  | some w =>
    if w.at' == now then
      { x with st := w.st, written := w.written, readMostly := w.readMostly, preferDevice := w.preferDevice }
    else x
  | none => x

/-- FV_SEG_BLOCK of a block. -/
def blockReg (now : Mc) (g : Segment) (b : Nat) : Nat :=
  if g.cfg.kind != .migratable || b ≥ segBlocks g.cfg then bit01 (inHold g b) * 128
  else
    let x := seenBlock now g b
    let f := match x.st with
      | .inFrame f => f
      | _ => 0
    f * 2 ^ 32 + bit01 (inHold g b) * 128 + bit01 x.preferDevice * 64 + bit01 x.readMostly * 32 + bit01 x.written * 16 + stateCode x.st

def segReg (s : State) (pg : Page) (r : Nat) : Nat :=
  let sel := (getSel s pg).seg
  let ctx := bits sel 11 4
  let b := (getSel s pg).blk
  if r == 0x4000 then sel
  else if r == 0x4030 then b
  else match (getSeg s ctx (bits sel 3 0)).filter fun g => showsIn s pg ctx g.cfg.half with
    | none => 0
    | some g =>
      let mig := g.cfg.kind == .migratable
      if r == 0x4008 then g.cfg.start
      else if r == 0x4010 then g.cfg.length
      else if r == 0x4018 then g.cfg.backing
      else if r == 0x4020 then ifShown mig g.cfg.pool
      else if r == 0x4028 then
        ifShown mig g.cfg.frames * 2 ^ 32 + attrByte g.cfg * 2 ^ 16 + kindCode g.cfg.kind * 2 ^ 8 +
          bit01 (!g.holds.isEmpty) * 4 + (if g.image then 1 else 2)
      else if r == 0x4038 then blockReg s.time g b
      else 0

/-! ## Counters -/

/-- FV_CTR_STATUS of a virtual counter table's entry. -/
def ctrStatus (s : State) (v : VEntry) : Nat :=
  match v with
  | .unmapped => 0
  | .remote _ _ sig => bit01 sig * 32 + 3
  | .loc c sig w =>
    let x := getCtr s c
    ((x.map (·.gen)).getD 0) * 2 ^ 32 + c * 2 ^ 16 + bit01 sig * 32 + bit01 w * 16 + bit01 (x.any (·.sat)) * 8 +
      bit01 ((ctrCfg s c).any (·.host)) * 4 + (if x.any (·.abandoned) then 2 else 1)

def localCtr (v : VEntry) : Option Nat :=
  match v with
  | .loc c _ _ => some c
  | _ => none

/-- The words of a stall report's member. -/
def memberReg (m : StallMember) (k : Nat) : Nat :=
  if k == 0 then
    bit01 m.req.isNone * 2 ^ 60 + m.code * 2 ^ 56 + m.ctx * 2 ^ 48 + ifShown m.req.isSome m.qid * 2 ^ 32 + ifShown m.req.isSome m.tag
  else if k == 1 then m.object
  else m.target

def ctrReg (s : State) (pg : Page) (r : Nat) : Nat :=
  let p := shownPart s pg
  let sel := (getSel s pg).ctr
  let ctx := bits sel 19 12
  let st := getStallRegs s p
  let i := (getSel s pg).stall
  let shown := fun (v : VEntry) => match localCtr v with
    | some c => showsIn s pg ctx (homeOfCtr c)
    | none => showsCtx s pg ctx
  let e := vEntry s ctx (bits sel 11 0)
  let v := if shown e then e else .unmapped
  let x := (localCtr v).bind (getCtr s)
  if r == 0x6000 then sel
  else if r == 0x6008 then (x.map (·.value)).getD 0
  else if r == 0x6010 then ctrStatus s v
  else if r == 0x6020 then (getPartRegs s p).addDiscards * 2 ^ 32 + (x.map (·.discards)).getD 0
  else if r == 0x6028 then
    st.reports * 2 ^ 32 + st.shown.foreign * 2 ^ 24 + st.shown.members.length * 2 ^ 16 + bit01 st.shown.overflow * 2 +
      bit01 st.pending
  else if r == 0x6030 then i
  else if 0x6038 ≤ r && r ≤ 0x6048 then ((st.shown.members[i]?).map fun m => memberReg m ((r - 0x6038) / 8)).getD 0
  else 0

/-! ## Faults, remote, ledger -/

def faultReg (s : State) (pg : Page) (r : Nat) : Nat :=
  let q := getFaultQ s (shownPart s pg)
  let sel := (getSel s pg).fault
  let ctx := bits sel 19 12
  let ring := (getSel s pg).ring
  let ok := showsCtx s pg ctx
  if r == 0x8000 then q.base
  else if r == 0x8008 then q.vector * 2 ^ 13 + q.log * 16 + bit01 q.enabled
  else if r == 0x8010 then q.head
  else if r == 0x8018 then q.records
  else if r == 0x8020 then q.dropped
  else if r == 0x8028 then sel
  else if r == 0x8030 then ifShown ok (((getChannel s ctx (bits sel 11 0)).map (·.sat)).getD 0)
  else if r == 0x8040 then ifShown ok (((getCtx s ctx).map fun x => x.lateKind * 2 ^ 14 + x.lateId).getD 0)
  else if r == 0x8048 then ifShown ok (((getCtx s ctx).map (·.lateCount)).getD 0)
  else if r == 0x8050 then ring
  else if r == 0x8058 then
    ifShown ((ringCfg s ctx ring).any fun c => showsIn s pg ctx c.half) (((getRing s ctx ring).map fun x =>
      x.discards * 2 ^ 32 + (x.claimed - x.released) % 256 * 2 ^ 8 + (x.published - x.released) % 256).getD 0)
  else 0

def remReg (s : State) (pg : Page) (r : Nat) : Nat :=
  let n := (getSel s pg).rem
  if r == 0x9000 then n
  else if r == 0x9018 then ifShown (pagePart pg == 0) (s.rem.unknownSrc.west * 2 ^ 32 + s.rem.unknownSrc.east)
  else match partnerCfg s n, getPartner s n with
    | some c, some p =>
      let ok := shows pg c.owner && !s.halfReset.get c.half
      if r == 0x9008 then
        ifShown ok (p.gen * 2 ^ 32 + c.package * 2 ^ 16 + p.profiles % 256 * 2 ^ 8 + p.rev % 4 * 16 + partnerCode p.st)
      else if r == 0x9010 then
        ifShown ok (p.violations * 2 ^ 48 + capAt 0xFFFF p.late * 2 ^ 32 + capAt 0xFFFF p.timeouts * 2 ^ 16 + capAt 0xFFFF p.fencedDrops)
      else 0
    | _, _ => 0

/-- A word of the device's public key (FV_LED_KEY). -/
def keyWord (s : State) (w : Nat) : Nat :=
  let k := devicePublic s
  if w < 6 then beVal ((beBytes 48 k.1).drop (w * 8) |>.take 8)
  else if w < 12 then beVal ((beBytes 48 k.2).drop ((w - 6) * 8) |>.take 8)
  else 0

def ledReg (s : State) (pg : Page) (r : Nat) : Nat :=
  let l := getLedger s (shownPart s pg)
  let k := (getSel s pg).key
  if r == 0xA000 then l.base
  else if r == 0xA008 then l.vector * 2 ^ 13 + l.log * 16 + bit01 l.enabled
  else if r == 0xA010 then l.head
  else if r == 0xA018 then l.records
  else if r == 0xA020 then l.seq
  else if r == 0xA028 then l.sealSeq % 2 ^ 32 * 2 ^ 32 + l.chain
  else if r == 0xA030 then k
  else if r == 0xA038 then keyWord s k
  else 0

/-! ## Power, integrity, test, configuration -/

def pwrReg (s : State) (pg : Page) (r : Nat) : Nat :=
  let p := s.power
  let x := getSel s pg
  if r == 0xB000 then p.banks * 2 ^ 32 + p.lastWake * 2 ^ 28 + bit01 p.glow.west * 4 + bit01 p.glow.east
  else if r == 0xB008 then ifShown (pagePart pg == 0) (bit01 p.bankReq * 2 + bit01 p.holdRun)
  else if r == 0xB010 then ifShown (pagePart pg == 0) p.wakeAt
  else if r == 0xB018 then p.htime
  else if r == 0xB020 then p.warnings * 2 ^ 48 + p.recoveries * 2 ^ 32 + p.resets * 2 ^ 16
  else if r == 0xB028 then x.pwrLog
  else if r == 0xB030 then capAt 0xFFFFFFFF p.logCount
  else if r == 0xB038 then fieldAt x.pwrSnap 0 8
  else if r == 0xB040 then fieldAt x.pwrSnap 8 8
  else 0

/-- One bit for each retired slice of a kind. -/
def retiredBits (s : State) (h : Half) (k : SliceKind) : Nat :=
  ((s.integ.retired.filter fun x => x.half == h && x.kind == k).map fun x => 2 ^ x.idx).foldl (· + ·) 0

def retiredCount (s : State) (h : Half) (k : SliceKind) : Nat :=
  (s.integ.retired.filter fun x => x.half == h && x.kind == k).length

def intReg (s : State) (pg : Page) (r : Nat) : Nat :=
  let g := s.integ
  let x := getSel s pg
  if r == 0xC000 then capAt 0xFFFFFFFF g.records * 2 ^ 32 + g.lastKind * 2 ^ 8 + bit01 g.overdue * 2 + bit01 g.alert
  else if r == 0xC008 then g.corr.west * 2 ^ 32 + g.corr.east
  else if r == 0xC010 then g.seamCrc * 2 ^ 48 + g.miscompare * 2 ^ 32 + g.hbmUncorr * 2 ^ 16 + g.hbmCorr
  else if r == 0xC018 then retiredBits s .west .tongs * 2 ^ 32 + retiredBits s .east .tongs
  else if r == 0xC020 then
    retiredBits s .west .anvil * 2 ^ 48 + retiredBits s .east .anvil * 2 ^ 32 + retiredCount s .west .hauler * 2 ^ 8 +
      retiredCount s .east .hauler
  else if r == 0xC028 then x.intLog
  else if 0xC030 ≤ r && r ≤ 0xC048 then fieldAt x.intSnap (r - 0xC030) 8
  else 0

/-- Sum of 2^i over the failing banks from `lo` to `lo` + 63. -/
def bankBits (l : List (Fin 128)) (lo : Nat) : Nat :=
  ((l.filter fun b => lo ≤ b.val && b.val < lo + 64).map fun b => 2 ^ (b.val - lo)).foldl (· + ·) 0

def testReg (s : State) (r : Nat) : Nat :=
  let t := s.test
  if r == 0xD000 then t.lines * 2 ^ 32 + t.unit * 2 ^ 16 + t.depth * 2 ^ 8 + t.half * 16 + bit01 t.inject * 8
  else if r == 0xD008 then t.seed
  else if r == 0xD010 then t.record * 2 ^ 42 + t.exportId * 2 ^ 32 + t.offset
  else if r == 0xD018 then t.hostBase
  else if r == 0xD020 then t.state * 2 ^ 60 + t.status * 2 ^ 32 + t.errBits
  else if r == 0xD028 then t.done * 2 ^ 32 + t.spoiled * 2 ^ 16 + t.lost
  else if r == 0xD030 then t.first.getD 0xFFFF_FFFF_FFFF_FFFF
  else if r == 0xD038 then t.mbState * 4 + t.mbHalf * 2
  else if r == 0xD040 then bankBits t.mbFail 0
  else if r == 0xD048 then bankBits t.mbFail 64
  else if r == 0xD050 then bit01 t.lbDone * 2
  else if r == 0xD058 then bit01 t.tapOwn
  else 0

def cfgReg (s : State) (pg : Page) (r : Nat) : Nat :=
  let x := s.status
  if r == 0xE000 then
    x.reason * 2 ^ 32 + x.last * 2 ^ 16 + bit01 x.fuseFull * 16 + bit01 x.copyFail * 8 + bit01 s.cfg.patch * 4 + bit01 x.fromCopy * 2 +
      bit01 x.maint
  else if r == 0xE008 then s.fuses.rollback * 2 ^ 48 + s.cfg.rollback * 2 ^ 32 + s.cfg.gen
  else if r == 0xE010 then s.cfg.packed
  else if r == 0xE018 then x.warm * 2 ^ 48 + x.halfW * 2 ^ 32 + x.halfE * 2 ^ 16
  else if r == 0xE020 then ifShown (x.maint && pagePart pg == 0) x.maintBase
  else 0

/-! ## A read -/

/-- The value of the register at page offset `r` (table "Register blocks"). -/
def regValue (s : State) (pg : Page) (r : Nat) : Nat :=
  if r < 0x1000 then idReg s pg r
  else if s.status.maint && pg != .part 0 then 0
  else if r < 0x2000 then arbReg s pg r
  else if r < 0x4000 then queuesReg s pg r
  else if r < 0x6000 then segReg s pg r
  else if r < 0x8000 then ctrReg s pg r
  else if r < 0x9000 then faultReg s pg r
  else if r < 0xA000 then remReg s pg r
  else if r < 0xB000 then ledReg s pg r
  else if r < 0xC000 then pwrReg s pg r
  else if r < 0xD000 then ifShown (pagePart pg == 0) (intReg s pg r)
  else if r < 0xE000 then ifShown (pagePart pg == 0) (testReg s r)
  else cfgReg s pg r

/-! ## The TAP's segment (R509) -/

/-- What the IEEE 1687 segment of each half holds: the test block by offset, FV_CFG_STATUS, FV_CFG_IMAGE, and the records of the power log
and of the integrity log. -/
inductive TapItem where
  | test (off : Nat)
  | cfgStatus
  | cfgImage
  | powerLog (i : Fin 64)
  | integrityLog (i : Fin 256)
  deriving DecidableEq, Repr

/-- A TAP read: the value, or the bytes of a log record as a number. It reaches nothing else; the segments of both halves hold the same
block and logs. -/
def tapRead (s : State) (x : TapItem) : Nat :=
  match x with
  | .test off => if off < 0x1000 then testReg s (0xD000 + off) else 0
  | .cfgStatus => cfgReg s (.part 0) 0xE000
  | .cfgImage => cfgReg s (.part 0) 0xE008
  | .powerLog i => leVal (((s.power.log.find? fun r => r.1 == i.val).map Prod.snd).getD (zeros 16))
  | .integrityLog i => leVal (((s.integ.log.find? fun r => r.1 == i.val).map Prod.snd).getD (zeros 32))

/-- A read of `size` bytes at offset `off` of the aperture, on host port `port`: 8 B, or 4 B of the addressed half. A doorbell region
reads zero. -/
def readRegister (s : State) (port : Half) (off size : Nat) : Nat :=
  match (if off < 0x20_0000 then pageOf off else none) with
  | none => 0
  | some pg =>
    if !regsServed s || port != homePort s (pagePart pg) then 0
    else if size == 8 && off % 8 == 0 then regValue s pg (off % 0x1_0000)
    else if size == 4 && off % 4 == 0 then
      let v := regValue s pg (off % 0x1_0000 / 8 * 8)
      if off % 8 == 0 then v % 2 ^ 32 else v / 2 ^ 32
    else 0

end Sys2Proof.Machine
end

