-- ==== Sys2Proof/Safety.lean ====
section
/-! DEFINITION. What counts as a safe step and a sound state, in the terms that the statements use. -/

namespace Sys2Proof

/-- A step that ends in a next state. -/
def Completes (o : Machine.Result) : Prop := ∃ t, o = .next t

/-- The canonical form of the flash: strictly rising addresses, no entry 0xFF (assumption 6). -/
abbrev flashWf (s : Machine.State) : Prop := Machine.sparseWf (fun _ => (0xFF : Byte)) s.flash

/-- The memories and the flash have their canonical form. -/
structure MemSound (s : Machine.State) : Prop where
  mem   : s.mem.wf
  flash : flashWf s

/-- What manufacture fixes, and what only rises (R433, R541). -/
structure FusesFrom (a b : Machine.Fuses) : Prop where
  grade    : b.grade = a.grade
  stepping : b.stepping = a.stepping
  serial0  : b.serial0 = a.serial0
  serial1  : b.serial1 = a.serial1
  keyHash  : b.keyHash = a.keyHash
  rollback : a.rollback ≤ b.rollback
  rises    : a.rises ≤ b.rises

/-! ## Where commands complete: hypotheses that several statements share -/

/-- A write of partition `p`'s page that R531, R532 and R538 let through: 8 B, on the partition's home host port, with the mover in Run
and outside maintenance configuration. -/
structure PageWrite (s : Machine.State) (p : Fin 16) (w : RegWrite) : Prop where
  page  : w.page = .part p
  size  : w.size = 8
  port  : w.port = Machine.homePort s p.val
  run   : Machine.running s = true
  maint : s.status.maint = false

/-- The commands that write a register of a page whose writes maintenance configuration ignores (R538). -/
def pageWrites (t : Mc) (w : RegWrite) : List Instr :=
  [.hostAdd t w, .stallPending t w, .commit t w, .discard t w, .shadow t w, .faultQueueEnable t w, .faultQueueHead t w, .clear t w,
   .ledgerQueueEnable t w, .ledgerQueueHead t w, .bank t w, .holdRun t w, .powerLogSelect t w, .integrityLogSelect t w,
   .adminSqRecover t w, .adminCqRecover t w]

/-- The commands that write a register which maintenance configuration leaves writable (R538). -/
def maintWrites (t : Mc) (w : RegWrite) (banks : List (Fin 128)) (slices : List Slice) : List Instr :=
  [.loopStart t w, .mbistStart t w banks, .lbistStart t w slices, .go t w]

/-- The offset of a selector register in a page, the highest bit of its field, and where its page keeps it (R535). -/
def selectorTable : List (Nat × Nat × (Machine.Selectors → Nat)) :=
  [(0x1010, 12, (·.arb)), (0x2000, 13, (·.queues)), (0x2030, 7, (·.pace)), (0x4000, 11, (·.seg)), (0x4030, 26, (·.blk)),
   (0x6000, 19, (·.ctr)), (0x6030, 5, (·.stall)), (0x8028, 19, (·.fault)), (0x8050, 10, (·.ring)), (0x9000, 10, (·.rem)),
   (0xA030, 3, (·.key))]

/-! ## Logs, batches, admin queues and haulers: what several statements share -/

/-- One record was added to the power log (R478, table "Power log record"): its kind, half, stack and measure, and the present HTIME; the
record that stood at its index is gone, the others stay. -/
def PowerLogged (s u : Machine.State) (kind : Nat) (h : Half) (stack measure : Nat) : Prop :=
  let i := s.power.logCount % 64
  u.power.logCount = s.power.logCount + 1 ∧
  (∃ bs, u.power.log.find? (·.1 == i) = some (i, bs) ∧ bs.length = 16 ∧ Machine.fieldAt bs 0 1 = kind ∧
    Machine.fieldAt bs 2 1 = h.num ∧ Machine.fieldAt bs 3 1 = stack ∧ Machine.fieldAt bs 4 2 = measure % 65536 ∧
    Machine.fieldAt bs 8 8 = u.power.htime % 2 ^ 64) ∧
  ∀ j, j ≠ i → u.power.log.find? (·.1 == j) = s.power.log.find? (·.1 == j)

/-- One record was added to the integrity log (R497, table "Integrity record"): KIND, REACTION, HALF, UNITCLASS, UNIT, OBJECT, DETECT and
SEQ; LASTKIND follows, and every reaction but COUNTED pulls the alert (R496). -/
def IntegrityLogged (s u : Machine.State) (kind reaction : Nat) (h : Half) (unitClass unit object : Nat) : Prop :=
  let i := s.integ.records % 256
  u.integ.records = s.integ.records + 1 ∧ u.integ.lastKind = kind ∧ u.integ.alert = (s.integ.alert || reaction != 0) ∧
  (∃ bs, u.integ.log.find? (·.1 == i) = some (i, bs) ∧ bs.length = 32 ∧ Machine.fieldAt bs 0 1 = kind ∧
    Machine.fieldAt bs 1 1 = reaction ∧ Machine.fieldAt bs 2 1 = h.num ∧ Machine.fieldAt bs 3 1 = unitClass ∧
    Machine.fieldAt bs 4 2 = unit % 65536 ∧ Machine.fieldAt bs 8 8 = object % 2 ^ 64 ∧
    Machine.fieldAt bs 16 6 = s.time % 2 ^ 48 ∧ Machine.fieldAt bs 28 4 = s.integ.records % 2 ^ 32) ∧
  ∀ j, j ≠ i → u.integ.log.find? (·.1 == j) = s.integ.log.find? (·.1 == j)

/-- The rails of both halves outside Banked (table "Rails by state"), with the halves of `glow` in Glow. -/
def railsIn (glow : Both Bool) : Both Machine.Rails :=
  ⟨if glow.east then Machine.glowRails else Machine.runRails, if glow.west then Machine.glowRails else Machine.runRails⟩

/-- The power state once the halves of `glow`, and no others, are in Glow. -/
def withGlow (p : Machine.PowerSt) (glow : Both Bool) : Machine.PowerSt := { p with glow := glow, rails := railsIn glow }

/-- The power state once the halves of `hs` have met a wake event in mc `now`: those in Glow are in Run, but for those that a brownout
holds, for which the event waits (R456, R475, R476). -/
def woken (p : Machine.PowerSt) (now : Mc) (hs : Both Bool) : Machine.PowerSt :=
  let meets := fun (h : Half) => hs.get h && p.glow.get h
  let wakes := fun (h : Half) => meets h && !p.hold.get h
  let p1 := { p with wakeHeld := ⟨p.wakeHeld.east || (meets .east && p.hold.east), p.wakeHeld.west || (meets .west && p.hold.west)⟩ }
  if wakes .east || wakes .west then
    { withGlow p1 ⟨p.glow.east && !wakes .east, p.glow.west && !wakes .west⟩ with
      busyAt := ⟨if wakes .east then now else p.busyAt.east, if wakes .west then now else p.busyAt.west⟩ }
  else p1

/-- LASTWAKE once a wake source with code `code` has arrived: of several in the HCLK of a wake from Banked, the lowest (R464). -/
def latched (p : Machine.PowerSt) (code : Nat) : Machine.PowerSt :=
  if p.wokeAt = some p.htime then { p with lastWake := min code p.lastWake } else p

/-- An event can start on a pin: its last one lies 200 HCLK behind (R524). -/
def pinRested (p : Machine.PowerSt) (last : Option Nat) : Prop := ∀ h, last = some h → h + 200 ≤ p.htime

/-- A GLOW_WAKE with code `code` that names no wake source of half `h`: codes 7 and 8, a timer pacing request that does not fall within
120 ns, and a remote port without a partner record or in L40-C (table "Wake sources", R11, R466). -/
def deafGlow (s : Machine.State) (h : Half) (code : Fin 9) : Prop :=
  code = 7 ∨ code = 8 ∨ (code = 3 ∧ ∀ d ∈ Machine.timersOf s h, d < s.time ∨ s.time + 252 < d) ∨
    ((code = 5 ∨ code = 6) ∧ (s.fuses.grade = .c ∨ ∀ c ∈ s.cfg.partners, c.half ≠ h))

/-- Local address of table slot `i` of Anvil port `ap` in the save area at the top of a half's Stockpile (R459). -/
def savePlace (h : Half) (ap i : Nat) : Nat := Machine.stockBase h + 0x0FFF_8000 + (ap * 8 + i) * 256

/-- The Anvil ports with the code tables that the save area holds; a table that the scrubbing has found faulty is none (R460, R469;
assumption 83). -/
def tablesBack (s : Machine.State) : List Machine.AnvilPort :=
  s.buf.anvils.map fun a => { a with tables := a.tables.zipIdx.map fun x =>
    let at' := savePlace a.half a.ap x.2
    if x.2 < 8 ∧ x.1.table.isSome = true then
      { x.1 with table := if Machine.memMark s.mem (at' / 256) then none else some (Machine.memRead s.mem at' 256) }
    else x.1 }

/-- The power state in Run once Banked is left or its entry undone in mc `now`. -/
def inRun (p : Machine.PowerSt) (now : Mc) : Machine.PowerSt :=
  { withGlow p ⟨false, false⟩ with banked := false, entry := none, busyAt := ⟨now, now⟩ }

/-- The machine once a Banked entry has been undone (R461). -/
def entryUndone (s : Machine.State) (e : Machine.BankEntry) : Machine.State :=
  { s with rem := { s.rem with links := e.links }, power := { inRun s.power s.time with banks := e.banks, bankReq := e.bankReq } }

/-- The machine once it has left Banked with the wake code `code`, with no partner that was Active or Slow and nothing scrubbed (R460, R462,
R464, R469). -/
def leftBanked (s : Machine.State) (code : Nat) : Machine.State :=
  { s with
    power := { inRun s.power s.time with lastWake := code, wokeAt := some s.power.htime, scrubCorrected := ⟨0, 0⟩ }
    buf := { s.buf with anvils := tablesBack s }
    integ := { s.integ with corr := ⟨min 0xFFFFFFFF (s.integ.corr.east + s.power.scrubCorrected.east),
                                     min 0xFFFFFFFF (s.integ.corr.west + s.power.scrubCorrected.west)⟩ } }

/-- The machine once the scrubbing has found line `line` of a half's Stockpile faulty: it is marked, also in the reads of schedule ports
that have yet to reach their banks (R58, R229). -/
def scrubMarked (s : Machine.State) (h : Half) (line : Nat) : Machine.State :=
  { s with
    mem := Machine.memSetMark s.mem (Machine.stockBase h / 256 + line) true
    buf := { s.buf with anvils := s.buf.anvils.map fun p =>
      { p with coming := p.coming.map (Machine.spoilComing s.time [Machine.stockBase h + line * 256]) } } }

/-- Records that have become ready join those that wait: in the order of their mc, the lower hauler number first within one (R291). -/
def joinRecords (old new : List Machine.PendingRec) : List Machine.PendingRec :=
  new.foldl (fun l r => Machine.insertBy (fun x => x.ready * 256 + x.haul) r l) old

/-- The submission queues kept for the present mc once a command changes the state of queue `x` (R304). -/
def keptSqs (s : Machine.State) (x : Machine.SubQueue) : List (Mc × Machine.SubQueue) :=
  let now := s.q.oldSqs.filter fun o => o.1 == s.time
  if now.any (·.2.qid == x.qid) then now else (s.time, x) :: now

/-- The completion queues kept for the present mc once a command changes the state of queue `x` (R304). -/
def keptCqs (s : Machine.State) (x : Machine.CompQueue) : List (Mc × Machine.CompQueue) :=
  let now := s.q.oldCqs.filter fun o => o.1 == s.time
  if now.any (·.2.qid == x.qid) then now else (s.time, x) :: now

/-- Partition `p`'s open batch takes one more record and stays open, and no earlier record waits (R342, R343). -/
structure BatchOpen (s : Machine.State) (p : Nat) (q : Machine.FaultQ) : Prop where
  mem     : q ∈ s.seg.faultQs
  part    : q.part = p
  only    : ∀ x ∈ s.seg.faultQs, x.part = p → x = q
  room    : q.openB.length < 63
  closed  : q.closedB = []
  waiting : q.waiting = []

/-- Partition `p`'s fault queues with a record behind the open batch's others. -/
def withRecord (qs : List Machine.FaultQ) (p : Nat) (r : Machine.FaultRec) : List Machine.FaultQ :=
  qs.map fun q => if q.part == p then { q with openB := q.openB ++ [{ r with batch := q.batchNo % 65536 }] } else q

/-- The segments and fault queues of a state, with a record behind the others of partition `p`'s open batch. -/
def withEvent (s : Machine.State) (p : Nat) (r : Machine.FaultRec) : Machine.Segs :=
  { s.seg with faultQs := withRecord s.seg.faultQs p r }

/-- The record of an event at mc `time` (table "Fault record", R352). -/
def eventRec (code ctx : Nat) (noCtx : Bool) (object value time : Nat) : Machine.FaultRec :=
  { kind := 0x10, flags := if noCtx then 8 else 0, waiters := 0, ctx := if noCtx then 0 else ctx, seg := 0, event := code
    object := object, value := value, time := time, batch := 0 }

/-- The front entry `e` of partition `p`'s admin queue is a command `cmd` that may start (R299, R302, R303), outside maintenance
configuration, and no command has changed that queue's state; commands from 0x50 on are partition 0's. -/
structure AdminEntry (s : Machine.State) (p : Fin 16) (cmd : Nat) (e : List Byte) (rest : List (List Byte)) : Prop where
  run   : Machine.running s = true
  queue : ∃ q, Machine.getSq s p.val = some q ∧ q.st = .enabled ∧ q.held = e :: rest
  named : Machine.fieldAt e 8 2 = cmd
  half  : s.halfReset.get (Machine.homePort s p.val) = false
  room  : Machine.adminBusy s p.val < 16
  maint : s.status.maint = false
  owner : cmd < 0x50 ∨ p = 0
  kept  : ∀ o ∈ s.q.oldSqs, o.2.qid ≠ p.val

/-- Partition `p`'s admin queue without its front entry. -/
def popAdmin (qs : List Machine.SubQueue) (p : Nat) : List Machine.SubQueue :=
  qs.map fun q => if q.qid == p then { q with held := q.held.drop 1 } else q

/-- The record of an admin command of partition `p` that becomes ready in mc `now` (R287, R299). -/
def adminAnswer (now : Mc) (p : Nat) (e : List Byte) (status detail bytes : Nat) : Machine.PendingRec :=
  { cq := p, qid := p, tag := Machine.fieldAt e 4 4, status := status, bytes := bytes, spoiled := 0, ledger := 0, detail := detail
    irq := decide (Machine.fieldAt e 1 1 / 2 % 2 = 1), req := none, admin := some p, rep := none, ready := now, haul := 128
    flash := none }

/-- Hauler `h` runs request `r`, whose next instruction is `i`, in a half that runs (R73, R82); no ledger entry of it is held up (R425). -/
structure RunsInstr (s : Machine.State) (h : HaulerId) (r : Machine.Request) (i : Machine.HInstr) : Prop where
  half  : Machine.halfRuns s h.half = true
  req   : Machine.reqOn s h = some r
  fin   : r.fin = none
  told  : Machine.recordWaits s r = false
  free  : r.wait = some .ledger ∨ Machine.entryHeld s r = false
  instr : Machine.instrAt r.program r.pc = some i

/-- A partition's ledger queue has room for `n` entries more than those that wait, with the RESUME and the SEALs before them, and holds none
up (R425). -/
structure LedgerRoom (l : Machine.LedgerSt) (n : Nat) : Prop where
  enabled : l.enabled = true
  free    : ∀ e ∈ l.waiting, e.held = false
  room    : (l.records + 2 ^ 32 - l.head) % 2 ^ 32 + 1 + l.seals.length + (l.sinceSeal + (l.waiting.length + n)) / 4096 +
    (l.waiting.length + n) < 2 ^ l.log

/-- The answer `o` is the next state `x`, but for the entries of a LEDGERED context `ctx` that have their responses and close (R416), for
which the ledger queue has room. -/
def UpToLedger (s : Machine.State) (ctx : Nat) (o : Machine.Result) (x : Machine.State) : Prop :=
  (Machine.ledgered s ctx = true → LedgerRoom (Machine.getLedger s (Machine.partOfCtx s ctx)) 0) →
  ∃ l, o = .next { x with ledgers := l } ∧ (Machine.ledgered s ctx = false → l = s.ledgers)

/-- The machine once request `r`, which waited for its host writes, goes on as `y`: a zero-length read has been made on each host port that
holds some of them (R107). -/
def hostAsked (s : Machine.State) (r y : Machine.Request) : Machine.State :=
  let n := fun h => s.out.zeroReads.get h + (if (r.hostWrites.get h).isEmpty then 0 else 1)
  { Machine.setReq s (Machine.hostAnswered y) with out.zeroReads := ⟨n .east, n .west⟩ }

/-- The machine `u` once request `r` has passed an instruction word: its hauler has been active in this mc (R487). -/
def passed (u : Machine.State) (r : Machine.Request) : Machine.State := Machine.noteActive u r.id

/-- Address `a` lies in no Stockpile write of the present mc, which a bank may grant again after another's (R230). -/
def offRecent (s : Machine.State) (a : Nat) : Prop := ∀ w ∈ s.mem.recent, w.at' = s.time → a < w.addr ∨ w.addr + w.data.length ≤ a

/-- A partition's queue can take every entry that waits for it, and holds none up (R425). -/
def NothingHeldUp (l : Machine.LedgerSt) : Prop :=
  (∀ e ∈ l.waiting, e.held = false) ∧ ∀ i, i < (Machine.closedEntries l).length → Machine.placeFits l i = true

/-- Every relayed request has an answer from its package to come (R396, R397). -/
def RelaysOpen (s : Machine.State) : Prop := ∀ x ∈ s.rem.inbound, x.sent = true → x.tags ≠ []

/-- Request `r` waits for `w` in the next state of `o`. A wait that parks takes the lowest free parking record, whose 1 KiB is written, and
frees the hauler and its Tongs slot (R75, R143, R320); with none free, or a wait that does not park, it stays on its hauler (R76). Counters
and queues are as they were. -/
def Waits (s : Machine.State) (o : Machine.Result) (r : Machine.Request) (w : Machine.Wait) (parks : Bool) : Prop :=
  let began := { r with wait := some w, waitAt := s.time, waitHaul := r.hauler.getD 128, waitSeq := s.run.nextWait, latched := none
                        stays := false }
  ∃ u, o = .next u ∧ u.ctr = s.ctr ∧ u.q = s.q ∧
    match if parks then Machine.freeParking s r.ctx else none with
    | none => Machine.getReq u r.id = some { began with stays := parks } ∧ u.mem = s.mem
    | some i =>
      Machine.getReq u r.id = some { began with
        hauler := none, tongs := none, parkedIn := some i, lines := Machine.emptyBuffers r.lines, kept := []
        pass := { r.pass with slot := [] } } ∧
      (s.mem.wf → ∀ a, a < Machine.parkingLocal s r.ctx i ∨ Machine.parkingLocal s r.ctx i + 1024 ≤ a →
        offRecent s a → Machine.memByte u.mem a = Machine.memByte s.mem a)

/-- Every request has its own number. -/
def OneRequestPerId (s : Machine.State) : Prop := (s.run.reqs.map (·.id)).Nodup

/-- The program at virtual address `a` of a context (R71 to R73), where one 256 B line of plain device memory of the own package, in a half
that is not in Glow, holds it: its words end with the first HALT. -/
structure LineProgram (s : Machine.State) (ctx a : Nat) (prog : List Word) (g : Machine.Segment) : Prop where
  aligned : a % 8 = 0
  space   : a < 2 ^ 57
  seg     : Machine.segAt s ctx a = some g
  kind    : g.cfg.kind = .device
  right   : g.cfg.r = true
  plain   : g.cfg.enc = false
  own     : Machine.pkgOf g.cfg.backing = s.cfg.pkg
  quiet   : g.holds = [] ∧ g.drains = []
  room    : a - a % 256 + 256 ≤ g.cfg.start + g.cfg.length
  mapped  : ∃ w, Machine.windowOf s.fuses.grade (Machine.localOf (g.cfg.backing + (a - g.cfg.start))) = some w ∧
    Machine.windowOf s.fuses.grade (Machine.localOf (g.cfg.backing + (a - g.cfg.start)) + (256 - a % 256) - 1) = some w
  near    : Machine.unreachable s (Machine.localOf (g.cfg.backing + (a - g.cfg.start))) = false
  awake   : ∀ h, Machine.homeOfAddr s (Machine.localOf (g.cfg.backing + (a - g.cfg.start))) = some h → s.power.glow.get h = false
  sound   : Machine.memMark s.mem (Machine.localOf (g.cfg.backing + (a - g.cfg.start)) / 256) = false
  words   : let ws := Machine.bytesToWords ((256 - a % 256) / 8)
              (Machine.memRead s.mem (Machine.localOf (g.cfg.backing + (a - g.cfg.start))) (256 - a % 256))
    ∃ n, Machine.haltAt ws.length 0 ws = some n ∧ prog = ws.take (n + 1)

/-- A queue entry of a TYPE with no flag, no argument block, no parameter and no binding (R277). -/
structure BareEntry (e : List Byte) (ty : Nat) : Prop where
  type  : Machine.fieldAt e 0 1 = ty
  zero1 : ∀ i, 1 ≤ i → i < 4 → Machine.fieldAt e i 1 = 0
  zero2 : ∀ i, 16 ≤ i → i < 64 → Machine.fieldAt e i 1 = 0

/-- Hauler `h` has begun the entry `e` of queue `q` with the program `prog` (R68, R285). -/
def Began (s u : Machine.State) (h : HaulerId) (q ctx : Nat) (e : List Byte) (prog : List Word) : Prop :=
  ∃ r, u.run.reqs = s.run.reqs ++ [r] ∧ r.id = s.run.nextReq ∧ u.run.nextReq = s.run.nextReq + 1 ∧ r.qid = q ∧ r.ctx = ctx ∧
    r.half = h.half ∧ r.hauler = some h.idx.val ∧ r.tag = Machine.fieldAt e 4 4 ∧ r.irq = false ∧ r.program = prog ∧ r.pc = 0 ∧
    r.fin = none ∧ r.wait = none ∧ r.params = List.replicate 16 0 ∧ r.loops = [] ∧ r.bytes = 0 ∧ r.spoiled = 0

/-- The record of an operation that has ended in mc `now` (R302). -/
def opAnswer (now : Mc) (o : Machine.AdminOp) (status detail : Nat) : Machine.PendingRec :=
  { cq := o.part, qid := o.part, tag := o.tag, status := status, bytes := 0, spoiled := 0, ledger := 0, detail := detail, irq := o.irq
    req := none, admin := some o.part, rep := none, ready := now, haul := 128, flash := none }

/-- Nothing outside the haulers waits for a held range or a moving block: no inbound request, no store and no sum of an epoch (R334, R396,
R403). -/
def NothingHeld (s : Machine.State) : Prop :=
  s.rem.inbound = [] ∧ (∀ x ∈ s.buf.stores, x.held = false) ∧
  ∀ x ∈ s.rem.epochs, x.ending = none ∧ (x.summed = true ∨ ∀ d, Machine.redCfg s x.ctx x.red = some d → Machine.allRanks d x = false)

/-- The segments of a state with the one in slot `slot` of context `ctx` changed. -/
def withSegment (s : Machine.State) (ctx slot : Nat) (f : Machine.Segment → Machine.Segment) : List Machine.Segment :=
  s.seg.segs.map fun x => if x.cfg.ctx == ctx && x.cfg.index == slot then f x else x

/-- A request frame `f`, parsed as `fr`, that record `c`'s partner `p` may make and that has not been seen: it arrives on path `path`, is
well formed (R394), and its SEQ is new when it has one (R391). -/
structure Received (s : Machine.State) (f : RxFrame) (fr : Machine.Frame) (c : Machine.PartnerCfg) (p : Machine.Partner) (path : Nat) :
    Prop where
  on      : Machine.remoteOn s f.half = true
  awake   : s.power.glow.get f.half = false
  parsed  : Machine.parseFrame f.bytes = some fr
  record  : Machine.recordOf s (fr.src % 2 ^ 14) = some c
  config  : Machine.partnerCfg s c.num = some c
  partner : Machine.getPartner s c.num = some p
  only    : ∀ y ∈ s.rem.partners, y.num = c.num → y = p
  up      : Machine.isUp p = true
  path    : Machine.arrivalPath c f = some path
  formed  : Machine.malformed s c p f fr = false
  fresh   : Machine.isWriteClass fr.ty = true → Machine.seqPlace p fr.seq = .inside ∧ fr.seq ∉ p.rxAbove
  alone   : s.rem.inbound = []

/-- The export that a request names lets it through to `e`'s target (R395). -/
structure Exported (s : Machine.State) (c : Machine.PartnerCfg) (fr : Machine.Frame) (e : Machine.ExportCfg) : Prop where
  exportRow : Machine.exportCfg s (fr.addr / 2 ^ 38) = some e
  owner   : ∀ y, Machine.getCtx s e.owner = some y → y.st ≠ .quenched
  checks  : Machine.exportFails s c e fr = none

/-- A translated range that is one plain piece of the own package's memory, in a half that answers and is not in Glow. -/
structure PlainPiece (s : Machine.State) (q : Machine.Piece) : Prop where
  pkg   : q.pkg = none
  key   : q.key = none
  block : q.block = none
  near  : Machine.unreachable s q.addr = false
  awake : ∀ h, Machine.pieceHome s q = some h → s.power.glow.get h = false

/-- `n` bytes at virtual address `va` of a context that lie, with the right `right`, in one device segment of the own package that is not
encrypted, is not held and has no drain under way, in a half that answers and is not in Glow; `q` is the piece that they translate to. -/
structure PlainRange (s : Machine.State) (ctx va n : Nat) (right : Machine.Right) (q : Machine.Piece) : Prop where
  size   : 0 < n
  seg    : ∃ g, Machine.segOf s ctx va n = some g ∧ g.cfg.kind = .device ∧ Machine.hasRight g.cfg right = true ∧ g.cfg.enc = false ∧
    Machine.pkgOf g.cfg.backing = s.cfg.pkg ∧ g.holds = [] ∧ g.drains = [] ∧ q = Machine.backingPiece s g va n
  mapped : ∃ w, Machine.windowOf s.fuses.grade q.addr = some w ∧ Machine.windowOf s.fuses.grade (q.addr + n - 1) = some w
  near   : Machine.unreachable s q.addr = false
  awake  : ∀ h, Machine.pieceHome s q = some h → s.power.glow.get h = false

/-- The same for a range that request `r` reads, over which it has no write without a response (R112). -/
structure ReadRange (s : Machine.State) (r : Machine.Request) (va n : Nat) (q : Machine.Piece) : Prop extends
    PlainRange s r.ctx va n .r q where
  clear : Machine.ownLineOver s r q = false
  host  : Machine.ownHostOver s r q = false

/-- The memory once a local piece takes bytes from `w`: the Stockpile in the order of its banks (R230), the host's memory at once; HBM when
the piece's lines are issued (assumption 8). -/
def memAfter (s : Machine.State) (w : Machine.Writer) (q : Machine.Piece) (bs : List (Byte × Bool)) : Machine.Mem :=
  if Machine.inHbm s q then s.mem
  else if Machine.inStockpile q.addr then Machine.bankWrite s.mem s.time w.rank q.addr bs
  else Machine.memWrite s.mem q.addr bs

/-- Request `r` stands at a pass, with no modifier, no effect that waits, no record to append and no hit of a Tongs slot, in a context
without a ledger, and its hauler holds nothing of the pass's source from an iteration before (R52). -/
structure PassReady (s : Machine.State) (r : Machine.Request) : Prop where
  mods    : r.mods = []
  effects : r.effects = []
  hits    : r.hits = []
  kept    : r.kept = []
  record  : r.record = none
  plain   : Machine.ledgered s r.ctx = false

/-- The request once a pass of it has begun: it has no Tongs slot yet. -/
def begun (r : Machine.Request) : Machine.Request :=
  { r with
    tongs := none
    pass := { Machine.PassState.start with
      started := true, base := r.lines.next, hostBase := ⟨r.hostWrites.east.length, r.hostWrites.west.length⟩ } }

/-- The request's pass has begun, and has been granted the slot `slot` (R139). -/
def Granted (r : Machine.Request) (slot : Nat × Nat) : Prop := r.pass = (begun r).pass ∧ r.tongs = some slot

/-- A shape set of one line of `n` bytes whose base the program gave. -/
structure OneLine (sh : Machine.ShapeSet) (n : Nat) : Prop where
  len    : sh.len = n
  count  : sh.count = 1
  given  : sh.handle = false

/-- The request once a billet has moved from the pieces `src` to the piece `q` as the bytes `bs`, with the continuing cause `cause` (R116,
R145): its lines have joined its stream (R319), its counts have risen, and its earliest cause stays. `ring` is the ring that it fills. -/
def billetDone (s : Machine.State) (r : Machine.Request) (ring : Option (Nat × Nat)) (src : List Machine.Piece) (q : Machine.Piece)
    (bs : List (Byte × Bool)) (cause : Option Nat) : Machine.Request :=
  let spoil := Machine.spoiledPieces q.addr bs
  { r with bytes := (r.bytes + bs.length) % 2 ^ 64
           spoiled := if spoil = 0 then r.spoiled else min 0xFFFFFFFF (r.spoiled + spoil)
           cause := match r.cause, cause with
             | some c, _ => some c
             | none, some st => some (st, r.pc % 8192)
             | none, none => if spoil = 0 then none else some (0x0001, r.pc % 8192)
           lines := (Machine.billetLines s r ring src [q] bs).lines
           hostWrites := Machine.hostPorts s [q] r.hostWrites }

/-- The request once its pass is over, with `elems` elements numbered (R164) and the slot `tongs`, which it keeps until its lines are
issued (R138): it goes on to its next instruction, and its hauler holds `kept` for the iterations that repeat a source (R52). -/
def passDone (r : Machine.Request) (elems : Nat) (tongs : Option (Nat × Nat)) (kept : List (Nat × Nat × Machine.Held)) : Machine.Request :=
  Machine.advance { r with
    kept := kept, rdata := [], elems := Machine.addElems r elems, pass := Machine.PassState.start
    tongs := if Machine.allIssued r then none else tongs, hits := [], mods := [], wait := none }

/-- No 256 B line is shared by `n` bytes at `a` and `k` bytes at `b`. -/
def LinesApart (a n b k : Nat) : Prop := ∀ i j, i < n → j < k → (a + i) / 256 ≠ (b + j) / 256

/-- Bundle `b` carries the one operation `o`, which stands where it may (R244, R245, R512), from a context that is not QUENCHED, at the
schedule port of a half that runs. -/
structure OneOp (s : Machine.State) (b : Bundle) (o : Machine.SchedOp) : Prop where
  run   : Machine.running s = true
  half  : s.halfReset.get b.half = false
  glow  : s.power.glow.get b.half = false
  ops   : Machine.bundleOps b = [o]
  real  : Machine.isNop o = false
  open' : Machine.ctxIsQuenched s b.ctx.val = false
  sound : Machine.staticFault s b.half b.ctx.val o = none

/-- What every accepted bundle leaves (R252, R254): the context has run, the operations are late no more, and LATE is low. -/
def accepted (b : Bundle) (s : Machine.State) : Machine.State :=
  let met := (Machine.bundleOps b).map (·.word)
  let u := Machine.updCtx s b.ctx.val fun y => { y with
    ran := true, late := y.late.filter fun l => l.1 != b.half || !met.contains l.2.1 }
  { u with out.late := u.out.late.set b.half false }

/-- Counter update `x` is on its way, and nothing else is under way. -/
structure OnlyUpdate (s : Machine.State) (x : Machine.Update) : Prop where
  only  : s.ctr.updates = [x]
  later : s.time < x.due
  quiet : Machine.nextEvent { s with ctr.updates := [] } = none

/-- `x` is the one record of its ring. -/
def TheRing (s : Machine.State) (ctx ring : Nat) (x : Machine.RingSt) : Prop :=
  Machine.getRing s ctx ring = some x ∧ ∀ y ∈ s.buf.rings, y.ctx = ctx → y.ring = ring → y = x

end Sys2Proof
end

