-- ==== Sys2Proof/Certificates/Slice0/Obligations.lean ====
section
/-! DEFINITION. The statements for the provers. `atTime s0 t` is the state at a command's TIME: what time alone does has happened, and
nothing else (assumption 1). Where the mover itself waits for an event, `whenReady s0 t p` is the state at the first mc from TIME on at
which `p` holds, and `atInstr s0 t h row` the one at which the lines of the hauler's earlier instructions have been issued. -/

open Sys2Proof Sys2Proof.Machine

/-! ## The queue, time, and what no command reaches -/

/-- A step runs the command at the front of the queue on the state with the queue's rest. Clauses that rest on the model's own choices or
readings: assumptions 1 and 2. -/
def Obligations.StepRunsTheFrontCommand : Prop :=
  ∀ (c : Instr) (rest : List Instr) (s : State), s.pending = c :: rest → step s = exec c { s with pending := rest }

/-- With an empty queue one mc passes: TIME and the Hearth's clock count it, and only what time alone can change changes; where nothing is
under way, the clocks and the wheels of the memory ports alone. The model's choice (assumption 2). HTIME counts one for each 21 mc, whatever
the steps in which time passes. Of the power state time moves the clocks, the idle and Run times, a Banked entry that is under way, and with
them the rails; a half can leave Glow but not enter it. Clauses that rest on the model's own choices or readings: assumptions 1 and 2. -/
def Obligations.TimePassesAndTheHearthCountsIt : Prop :=
  (∀ s : State, s.pending = [] → ∃ u, step s = .next u ∧ u.time = s.time + 1 ∧
     u = { s with time := u.time, power := u.power, mem := u.mem, ctxs := u.ctxs, q := u.q, run := u.run, buf := u.buf, ctr := u.ctr
                  arb := u.arb, seg := u.seg, rem := u.rem, ledgers := u.ledgers, drawn := u.drawn, out := u.out
                  test := { s.test with mbist := u.test.mbist, mbState := u.test.mbState, mbFail := u.test.mbFail } } ∧
     (nextEvent s = none → u = { s with time := u.time, power := u.power, arb := u.arb })) ∧
  (∀ (s : State) (t : Mc), s.power.hfrac < 21 →
     (atTime s t).power.hfrac < 21 ∧
     21 * (atTime s t).power.htime + (atTime s t).power.hfrac = 21 * s.power.htime + s.power.hfrac + (t - s.time) ∧
     (atTime s t).time = max s.time t ∧
     (let p := (atTime s t).power
      p = { s.power with htime := p.htime, hfrac := p.hfrac, busyAt := p.busyAt, ran := p.ran, wakeHeld := p.wakeHeld, glow := p.glow
                         rails := p.rails, entry := p.entry } ∧
      p.entry.isSome = s.power.entry.isSome ∧ ∀ h, p.glow.get h = true → s.power.glow.get h = true) ∧
     ∀ t', t ≤ t' → (atTime (atTime s t) t').power.htime = (atTime s t').power.htime ∧
       (atTime (atTime s t) t').power.hfrac = (atTime s t').power.hfrac)

/-- No command adds to the queue of waiting commands or takes from it: what waits behind a command is run after it, in order. Clauses that
rest on the model's own choices or readings: assumption 2. -/
def Obligations.NoCommandReachesTheQueue : Prop :=
  ∀ (c : Instr) (s u : State), exec c s = .next u → u.pending = s.pending

/-- What manufacture fixes never changes, and the rollback value only rises, at most 64 times. Clauses that rest on the model's own choices
or readings: assumption 4. -/
def Obligations.FuseRollbackOnlyRises : Prop :=
  ∀ (c : Instr) (s u : State), exec c s = .next u →
    FusesFrom s.fuses u.fuses ∧ (s.fuses.rises ≤ 64 → u.fuses.rises ≤ 64) ∧
    (u.fuses.rollback ≠ s.fuses.rollback → u.fuses.rises = s.fuses.rises + 1)

/-- The flash changes by FLASH_WRITE alone, while no FLASH_WRITE is in progress that a reset could cut (R437). Clauses that rest on the
model's own choices or readings: assumption 69. -/
def Obligations.OnlyFlashWriteChangesTheFlash : Prop :=
  ∀ (c : Instr) (s u : State), (∀ t p n, c ≠ .flashWrite t p n) → (∀ x ∈ s.q.records, x.flash = none) → exec c s = .next u →
    u.flash = s.flash

/-- Every step keeps the flash in its canonical form and the fuse rises within their 64. Clauses that rest on the model's own choices or
readings: assumption 6. -/
def Obligations.StepKeepsFlashAndFusesSound : Prop :=
  ∀ s u : State, flashWf s ∧ s.fuses.rises ≤ 64 → step s = .next u → flashWf u ∧ u.fuses.rises ≤ 64

/-- Reset meets what the invariants of the memories, the flash and the fuses ask. Clauses that rest on the model's own choices or readings:
assumptions 4 and 6. -/
def Obligations.ResetIsSound : Prop :=
  MemSound State.reset ∧ State.reset.fuses.rises ≤ 64 ∧ State.reset.pending = []

/-! ## Register access (chapter "Register map") -/

/-- A write that is not 8 B, or that arrives on the other host port, changes no register; like every access it wakes a half in Glow
(R529). Outside Run only ALERT is writable; in maintenance configuration the test block, FV_CFG_MAINTBASE and ALERT are; on the global
page only selectors are. Clauses that rest on the model's own choices or readings: assumption 30. -/
def Obligations.ClosedRegistersIgnoreWrites : Prop :=
  (∀ (s0 : State) (t : Mc) (w : RegWrite) (banks : List (Fin 128)) (slices : List Slice),
     let s := hostAt s0 t w.port
     w.size ≠ 8 ∨ w.port ≠ homePort s (pagePart w.page) →
     ∀ c ∈ Instr.alert t w :: (pageWrites t w ++ maintWrites t w banks slices), exec c s0 = .next s) ∧
  (∀ (s0 : State) (t : Mc) (w : RegWrite) (banks : List (Fin 128)) (slices : List Slice),
     let s := hostAt s0 t w.port
     (s.power.up = false →
       ∀ c ∈ pageWrites t w ++ maintWrites t w banks slices, exec c s0 = .next s) ∧
     (s.status.maint = true → ∀ c ∈ pageWrites t w, exec c s0 = .next s) ∧
     (w.page = .global →
       ∀ c ∈ Instr.alert t w :: (pageWrites t w ++ maintWrites t w banks slices),
         c ≠ .powerLogSelect t w → c ≠ .integrityLogSelect t w → exec c s0 = .next s))

/-- Each page keeps its own copy of every selector register: a write of one by its aperture offset, on a partition's page or on the global
page, sets it on that page, and changes nothing on another page (R535). FV_ID_PKG.PART is a selector on the global page alone, and
FV_INT_LOGSEL stands on partition 0's page and the global page. -/
def Obligations.SelectorsBelongToTheirPage : Prop :=
  ∀ (s0 : State) (t : Mc) (pg : Page) (v : Word),
    let s := hostAt s0 t (homePort s0 (pagePart pg))
    running s = true → s.status.maint = false → (∃ x ∈ s.sels, x.page = pg) →
    let base := match pg with | .part p => p.val * 0x1_0000 | .global => 0x10_0000
    let sets := fun (r : Nat) (field : Selectors → Nat) (n : Nat) =>
      ∃ u, exec (.registerWrite t (homePort s (pagePart pg)) (base + r) 8 v) s0 = .next u ∧ field (getSel u pg) = n ∧
        (∀ other, other ≠ pg → getSel u other = getSel s other) ∧ u = { s with sels := u.sels }
    (∀ row ∈ selectorTable, sets row.1 row.2.2 (bits v.toNat row.2.1 0)) ∧
    sets 0xB028 (·.pwrLog) (bits v.toNat 5 0) ∧
    (pagePart pg = 0 → sets 0xC028 (·.intLog) (bits v.toNat 7 0)) ∧
    (pg = .global → sets 0x0048 (·.part) (bits v.toNat 19 16)) ∧
    (∀ p, pg = .part p → exec (.registerWrite t (homePort s p.val) (base + 0x0048) 8 v) s0 = .next s)

/-- A register write by its aperture offset is the command of that register; what a self-test started so finds is a free value. Clauses
that rest on the model's own choices or readings: assumption 13. -/
def Obligations.RegisterWriteIsTheNamedCommand : Prop :=
  ∀ (s : State) (t : Mc) (port : Half) (p : Fin 16) (v : Word),
    let w : RegWrite := { port := port, page := .part p, size := 8, value := v }
    let at' := fun r => exec (.registerWrite t port (p.val * 0x1_0000 + r) 8 v) s
    at' 0x1018 = exec (.shadow t w) s ∧ at' 0x1020 = exec (.commit t w) s ∧ at' 0x1020 = exec (.discard t w) s ∧
    at' 0x2040 = exec (.adminSqRecover t w) s ∧ at' 0x2040 = exec (.adminCqRecover t w) s ∧ at' 0x6018 = exec (.hostAdd t w) s ∧
    at' 0x6028 = exec (.stallPending t w) s ∧ at' 0x8008 = exec (.faultQueueEnable t w) s ∧
    at' 0x8010 = exec (.faultQueueHead t w) s ∧ at' 0x8038 = exec (.clear t w) s ∧ at' 0xA008 = exec (.ledgerQueueEnable t w) s ∧
    at' 0xA010 = exec (.ledgerQueueHead t w) s ∧ at' 0xB008 = exec (.bank t w) s ∧ at' 0xB008 = exec (.holdRun t w) s ∧
    at' 0xB028 = exec (.powerLogSelect t w) s ∧ at' 0xC000 = exec (.alert t w) s ∧ at' 0xC028 = exec (.integrityLogSelect t w) s ∧
    at' 0xD000 = exec (.loopStart t w) s ∧ at' 0xE020 = exec (.go t w) s ∧
    (∃ banks u v, exec (.mbistStart t w banks) s = .next u ∧ at' 0xD038 = .next v ∧ v = { u with drawn := v.drawn }) ∧
    (∃ slices u v, exec (.lbistStart t w slices) s = .next u ∧ at' 0xD050 = .next v ∧ v = { u with drawn := v.drawn }) ∧
    (∀ j, j < 0x4000 → exec (.registerWrite t port (0x20_0000 + p.val * 0x2_0000 + j * 8) 4 v) s =
      let b : BellWrite := { port := port, part := p, size := 4, value := v }
      if h : j < 8192 then exec (.sqDoorbell t ⟨j, h⟩ b) s
      else if h : j - 8192 < 2048 then exec (.cqDoorbell t ⟨j - 8192, h⟩ b) s
      else exec (.pacingDoorbell t (j - 10240) b) s)

/-- COLD_START takes the mover from Cold to Run: TIME 0, no request, record or outstanding remote request, Stockpiles of zero with good
ECC, LAST 1, no warm reset counted, and what manufacture fixes kept; a mover that is not Cold has no edge of PWRGOOD to start on. A
start-up without an answering flash ends in maintenance configuration (FV_CFG_STATUS: reason 0x09, LAST 1) with the registers listed at
their values after a cold start, as partition 0's page shows them; the write-only ones read as zero. Clauses that rest on the model's own
choices or readings: assumptions 4, 27 and 46. -/
def Obligations.ColdStartGivesTheResetValues : Prop :=
  (∀ (s : State) (t : Mc) (env : StartEnv), s.power.cold = true →
    ∃ u, exec (.coldStart t env) s = .next u ∧ u.power.cold = false ∧ u.power.up = true ∧ u.power.banked = false ∧
      u.power.glow = ⟨false, false⟩ ∧ u.time = 0 ∧ u.status.last = 1 ∧ u.status.warm = 0 ∧ u.status.boots = s.status.boots + 1 ∧
      u.run.reqs = [] ∧ u.q.records = [] ∧ u.rem.outReqs = [] ∧ u.halfReset = ⟨false, false⟩ ∧
      (∀ a, inStock .east a = true ∨ inStock .west a = true → memByte u.mem a = 0 ∧ memMark u.mem (a / 256) = false) ∧
      FusesFrom s.fuses u.fuses ∧ u.pending = s.pending) ∧
  (∀ (s : State) (t : Mc) (env : StartEnv), s.power.cold = false → exec (.coldStart t env) s = .next (atTime s t)) ∧
  (∀ (t : Mc) (env : StartEnv), env.flashAnswers = false →
    ∃ u, exec (.coldStart t env) State.reset = .next u ∧ u.status.maint = true ∧ u.power.up = true ∧ u.time = 0 ∧
      (∀ x ∈ [(0x0000, 0x4F52_0F02), (0x0018, 6), (0x0020, 0), (0x0028, 0), (0x0030, 0), (0x1010, 0), (0x1020, 0), (0x1028, 0),
              (0x2000, 0), (0x2030, 0), (0x2040, 0), (0x4000, 0), (0x4030, 0), (0x6000, 0), (0x6018, 0), (0x6028, 0), (0x6030, 0),
              (0x8000, 0), (0x8008, 0x60), (0x8010, 0), (0x8018, 0), (0x8020, 0), (0x8028, 0), (0x8038, 0),
              (0x8050, 0), (0x9000, 0), (0x9018, 0), (0xA000, 0), (0xA008, 0x60), (0xA010, 0), (0xA018, 0), (0xA020, 0), (0xA028, 0),
              (0xA030, 0), (0xB000, 0), (0xB008, 0), (0xB010, 0), (0xB020, 0), (0xB028, 0), (0xB030, 0), (0xC000, 0), (0xC008, 0), (0xC010, 0),
              (0xC018, 0), (0xC020, 0), (0xC028, 0), (0xD000, 0), (0xD008, 0x7FFF_FFFF), (0xD010, 0), (0xD018, 0), (0xD020, 0), (0xD028, 0),
              (0xD030, 0xFFFF_FFFF_FFFF_FFFF), (0xD038, 0), (0xD040, 0), (0xD048, 0), (0xD050, 0), (0xD058, 0), (0xE000, 0x9_0001_0001), (0xE018, 0), (0xE020, 0)],
        readRegister u .east x.1 8 = x.2) ∧
      ∀ q r : Nat, 0 < q → q < 16 → 0x1000 ≤ r → r < 0x1_0000 → readRegister u .east (q * 0x1_0000 + r) 8 = 0)

/-! ## Register writes with a behaviour of their own -/

/-- COMMIT snapshots the shadow priorities of the partition's queues, DISCARD sets every shadow to its committed value, and with both bits
set the mover discards; in compatibility mode neither acts. A queue belongs to the partition of its context. A commit that takes effect
makes the priorities of its snapshot committed, whatever shadows were written since; later commits wait. A write of SHADOW sets the shadow
priority of the selected queue, and in compatibility mode the committed priority too, from the next mc on. At a memory port, of the wheel's
32 positions r are read, w write and x remote positions (R308), and a class's beat goes to the line that first became reserved-eligible, to
an STM line among writes, else to the requester of the highest priority. Clauses that rest on the model's own choices or readings:
assumptions 13, 30 and 60. -/
def Obligations.PrioritiesAreShadowedAndCommitted : Prop :=
  (∀ (s0 : State) (t : Mc) (p : Fin 16) (w : RegWrite),
     let s := hostAt s0 t w.port
     PageWrite s p w →
     let own := fun (q : SubQueue) => 16 ≤ q.qid ∧ (sqCfg s q.qid).map (fun c => partOfCtx s c.ctx) = some p.val
     ∀ c ∈ [Instr.commit t w, Instr.discard t w],
       (compatMode s p.val = true → exec c s0 = .next s) ∧
       (compatMode s p.val = false → w.value.toNat % 2 = 0 → w.value.toNat / 2 % 2 = 0 → exec c s0 = .next s) ∧
       (compatMode s p.val = false → w.value.toNat / 2 % 2 = 1 →
         exec c s0 = .next { s with q.sqs := s.q.sqs.map fun q => if own q then { q with shadowPrio := q.committed } else q }) ∧
       (compatMode s p.val = false → w.value.toNat % 2 = 1 → w.value.toNat / 2 % 2 = 0 →
         exec c s0 = .next (updPartRegs s p.val fun x =>
           { x with commits := x.commits ++ [(s.q.sqs.filter fun q => decide (own q)).map fun q => (q.qid, q.shadowPrio)] }))) ∧
  (∀ (s0 : State) (t : Mc) (p : Fin 16) (snap : List (Nat × Nat)) (rest : List (List (Nat × Nat))),
     let s := atTime s0 t
     running s = true → (getPartRegs s p.val).commits = snap :: rest →
     ∃ u, exec (.priorityCommitApply t p) s0 = .next u ∧
       u.q.sqs = s.q.sqs.map (fun q => match snap.find? fun x => x.1 == q.qid with
         | some x => { q with committed := x.2 }
         | none => q) ∧
       u.partRegs = s.partRegs.map (fun x => if x.part == p.val then { x with commits := rest } else x) ∧
       u = { s with q := { s.q with sqs := u.q.sqs }, partRegs := u.partRegs }) ∧
  (∀ (s0 : State) (t : Mc) (p : Fin 16) (w : RegWrite),
     let s := hostAt s0 t w.port
     PageWrite s p w →
     let q := (getSel s (.part p)).arb
     let v := w.value.toNat % 8
     let before := fun (x : SubQueue) => match x.prioUntil with
       | some (m, old) => if s.time ≤ m then old else x.committed
       | none => x.committed
     let set := fun (x : SubQueue) =>
       if compatMode s p.val then { x with shadowPrio := v, committed := v, prioUntil := some (s.time, before x) }
       else { x with shadowPrio := v }
     (16 ≤ q → (sqCfg s q).map (fun c => partOfCtx s c.ctx) = some p.val →
       exec (.shadow t w) s0 = .next { s with q.sqs := s.q.sqs.map fun x => if x.qid == q then set x else x }) ∧
     (16 ≤ q → (sqCfg s q).map (fun c => partOfCtx s c.ctx) ≠ some p.val → exec (.shadow t w) s0 = .next s) ∧
     (q < 16 → exec (.shadow t w) s0 = .next s)) ∧
  (∀ c : HalfCfg, c.r + c.w + c.x = 32 → c.r ≠ 0 → c.w ≠ 0 →
     let positions := fun (k : LineClass) => ((List.range 32).filter fun i => positionClass c i == k).length
     positions .read = c.r ∧ positions .write = c.w ∧ positions .remote = c.x) ∧
  (∀ (s : State) (p : MemPort) (as : List Asker) (a : Asker),
     let free := fun (b : Asker) => b.line.cls = a.line.cls ∧ tagFree s p b = true
     a ∈ as → free a → (∀ b ∈ as, b.who = a.who → b = a) →
     (∀ k rest, a.line.cls = .read → p.eligible = (a.who, a.line.seq, k) :: rest → winner s p as .read = some a) ∧
     (a.line.cls = .write → isStoreAsker a = true → (∀ b ∈ as, isStoreAsker b = true → b = a) → winner s p as .write = some a) ∧
     ((a.line.cls = .read → p.eligible = []) → (a.line.cls = .write → ∀ b ∈ as, isStoreAsker b = false) →
       (a.line.cls = .remote → s.fuses.grade ≠ .c) → (∀ b ∈ as, free b → b = a ∨ b.prio < a.prio) →
       winner s p as a.line.cls = some a))

/-- FV_FAULT_QCTL: VECTOR follows every write, LOG2DEPTH only while ENABLE is 0; ENABLE from 0 to 1 with a depth of 2⁶ to 2¹² zeroes the
counts. Stated with no record waiting: then nothing else happens. FV_FAULT_QHEAD: a HEAD that exceeds RECORDS modulo 2³² is ignored and
counted as one dropped record; any other becomes the HEAD. FV_LED_QCTL and FV_LED_QHEAD of a partition whose chain has a head and no entry
that waits: the same rules with depths of 2⁶ to 2¹⁶, no chain begins, and a dropped HEAD counts in the DROPPED of the partition's fault
queue, the only such count (assumption 81). FV_FAULT_QBASE and FV_LED_QBASE take a base of 4 KiB pages while their queue's ENABLE is 0, and
are ignored while it is 1. Clauses that rest on the model's own choices or readings: assumptions 20, 38 and 81. -/
def Obligations.QueueRegistersKeepTheirCounts : Prop :=
  (∀ (s0 : State) (t : Mc) (p : Fin 16) (w : RegWrite) (q : FaultQ),
     let s := hostAt s0 t w.port
     PageWrite s p w →
     s.seg.faultQs.find? (·.part == p.val) = some q → q.openB = [] → q.closedB = [] → q.waiting = [] →
     let log := if q.enabled then q.log else bits w.value.toNat 8 4
     let taken := { q with vector := bits w.value.toNat 23 13, log := log }
     ∃ u, exec (.faultQueueEnable t w) s0 = .next u ∧
       getFaultQ u p.val =
         (if w.value.toNat % 2 = 0 then { taken with enabled := false }
          else if q.enabled = true ∨ log < 6 ∨ 12 < log then taken
          else { taken with enabled := true, head := 0, records := 0, batchNo := 0 }) ∧
       (∀ r, r ≠ p.val → getFaultQ u r = getFaultQ s r) ∧
       u = { s with seg := { s.seg with faultQs := u.seg.faultQs } }) ∧
  (∀ (s0 : State) (t : Mc) (p : Fin 16) (w : RegWrite) (q : FaultQ),
     let s := hostAt s0 t w.port
     PageWrite s p w →
     s.seg.faultQs.find? (·.part == p.val) = some q → q.openB = [] → q.closedB = [] → q.waiting = [] → q.head < 2 ^ 32 →
     q.records < 2 ^ 32 →
     let v := w.value.toNat % 2 ^ 32
     let beyond := (v + 2 ^ 32 - q.head) % 2 ^ 32 > (q.records + 2 ^ 32 - q.head) % 2 ^ 32
     ∃ u, exec (.faultQueueHead t w) s0 = .next u ∧
       getFaultQ u p.val = (if beyond then { q with dropped := min 0xFFFFFFFF (q.dropped + 1) } else { q with head := v }) ∧
       (∀ r, r ≠ p.val → getFaultQ u r = getFaultQ s r) ∧
       u = { s with seg := { s.seg with faultQs := u.seg.faultQs } }) ∧
  (∀ (s0 : State) (t : Mc) (p : Fin 16) (w : RegWrite) (l : LedgerSt),
     let s := hostAt s0 t w.port
     PageWrite s p w →
     s.ledgers.find? (·.part == p.val) = some l → l.chained = true → l.waiting = [] → l.head < 2 ^ 32 →
     l.records < 2 ^ 32 →
     let v := w.value.toNat
     let log := if l.enabled then l.log else bits v 8 4
     let taken := { l with vector := bits v 23 13, log := log }
     let put := fun (x : LedgerSt) => s.ledgers.map fun y => if y.part == p.val then x else y
     (∃ u, exec (.ledgerQueueEnable t w) s0 = .next u ∧
       getLedger u p.val =
         (if v % 2 = 0 then { taken with enabled := false }
          else if l.enabled = true ∨ log < 6 ∨ 16 < log then taken
          else { taken with enabled := true, head := 0, records := 0 }) ∧
       (∀ r, r ≠ p.val → getLedger u r = getLedger s r) ∧ u = { s with ledgers := u.ledgers }) ∧
     ((∀ y ∈ s.ledgers, y.part = p.val → y = l) →
       exec (.ledgerQueueHead t w) s0 = .next (
         if (v % 2 ^ 32 + 2 ^ 32 - l.head) % 2 ^ 32 > (l.records + 2 ^ 32 - l.head) % 2 ^ 32 then
           { s with seg := { s.seg with faultQs := s.seg.faultQs.map fun q =>
               if q.part == p.val then { q with dropped := min 0xFFFFFFFF (q.dropped + 1) } else q } }
         else { s with ledgers := put { l with head := v % 2 ^ 32 } }))) ∧
  (∀ (s0 : State) (t : Mc) (p : Fin 16) (w : RegWrite),
     let s := hostAt s0 t w.port
     PageWrite s p w →
     let base := w.value.toNat / 4096 % 2 ^ 31 * 4096
     (∀ q, s.seg.faultQs.find? (·.part == p.val) = some q →
       ∃ u, exec (.registerWrite t w.port (p.val * 0x1_0000 + 0x8000) 8 w.value) s0 = .next u ∧
         getFaultQ u p.val = (if q.enabled then q else { q with base := base }) ∧
         (∀ r, r ≠ p.val → getFaultQ u r = getFaultQ s r) ∧ u = { s with seg := { s.seg with faultQs := u.seg.faultQs } }) ∧
     (∀ l, s.ledgers.find? (·.part == p.val) = some l →
       ∃ u, exec (.registerWrite t w.port (p.val * 0x1_0000 + 0xA000) 8 w.value) s0 = .next u ∧
         getLedger u p.val = (if l.enabled then l else { l with base := base }) ∧
         (∀ r, r ≠ p.val → getLedger u r = getLedger s r) ∧ u = { s with ledgers := u.ledgers }))

/-- A write of 1 to CLEAR zeroes the saturation count of the selected channel of a context of the partition, and lets it raise its event
again. -/
def Obligations.SaturationClearRearmsTheChannel : Prop :=
  ∀ (s0 : State) (t : Mc) (p : Fin 16) (w : RegWrite),
    let s := hostAt s0 t w.port
    PageWrite s p w → w.value.toNat % 2 = 1 →
    let sel := (getSel s (.part p)).fault
    let ctx := sel / 4096 % 256
    let ch := sel % 4096
    (ctxCfg s ctx).isSome = true → partOfCtx s ctx = p.val →
    exec (.clear t w) s0 = .next { s with channels := s.channels.map fun c =>
      if c.ctx == ctx && c.channel == ch then { c with sat := 0, raised := false } else c }

/-- A host addition, with a context of the partition or an undeclared one selected, applies only when the selected entry is LOCAL, the
counter is HOST, ACTIVE, and the amount is non-zero; otherwise it is discarded, and the partition's host-add discard count rises by 1. While
the counter's home is in half reset, an addition from the other half's port is discarded as every update toward it (R34). An addition while
the selection names another partition's context is ignored (table "Counter registers"). Clauses that rest on the model's own choices or
readings: assumption 39 (an undeclared context counts as a discard, a dropped update toward a half in half reset and an ignored write do
not). -/
def Obligations.HostAddAppliesOrIsCounted : Prop :=
  ∀ (s0 : State) (t : Mc) (p : Fin 16) (w : RegWrite),
    let s := hostAt s0 t w.port
    PageWrite s p w →
    let sel := (getSel s (.part p)).ctr
    let ctx := sel / 4096 % 256
    let n := w.value.toNat % 2 ^ 32
    let applies := fun (c : Nat) (x : CtrSt) => (∃ a b, vEntry s ctx (sel % 4096) = .loc c a b) ∧ getCtr s c = some x ∧
      (∃ d, ctrCfg s c = some d ∧ d.host = true) ∧ x.abandoned = false ∧ n ≠ 0
    ((ctxCfg s ctx).isSome = true → partOfCtx s ctx ≠ p.val → exec (.hostAdd t w) s0 = .next s) ∧
    (((ctxCfg s ctx).isSome = true → partOfCtx s ctx = p.val) →
    (∀ c x, applies c x → (s.halfReset.get (homeOfCtr c) = true → homeOfCtr c = w.port) →
      exec (.hostAdd t w) s0 = .next { s with ctr.updates := s.ctr.updates ++
        [{ ctr := c, amount := n, gen := x.gen, half := w.port, due := s.time + releaseDelay c w.port }] }) ∧
    (∀ c x, applies c x → s.halfReset.get (homeOfCtr c) = true → homeOfCtr c ≠ w.port → exec (.hostAdd t w) s0 = .next s) ∧
    ((¬ ∃ c x, applies c x) →
      exec (.hostAdd t w) s0 = .next { s with partRegs := s.partRegs.map fun r =>
        if r.part == p.val then { r with addDiscards := min 0xFFFFFFFF (r.addDiscards + 1) } else r }))

/-- Every step keeps the memories and the flash in their canonical form, which several statements assume of the state before it; reset meets
it (`ResetIsSound`). The form is the model's own: no two equal memories are different data. Clauses that rest on the model's own choices or
readings: assumption 6. -/
def Obligations.StepKeepsTheMemoriesCanonical : Prop := ∀ s u : State, MemSound s → step s = .next u → MemSound u

/-- A write of 1 to PENDING delivers the oldest held report, with PENDING still set and the partition's message, or clears PENDING when none
is held; in the mc in which the mover has set PENDING its setting stands, and the write changes nothing (R534). Clauses that rest on the
model's own choices or readings: assumption 26 (PENDING is cleared when nothing is held). -/
def Obligations.PendingDeliversTheOldestHeldReport : Prop :=
  ∀ (s0 : State) (t : Mc) (p : Fin 16) (w : RegWrite) (r : StallRegs),
    let s := hostAt s0 t w.port
    PageWrite s p w → w.value.toNat % 2 = 1 →
    s.ctr.stallRegs.find? (·.part == p.val) = some r →
    (r.shownAt = some s.time → exec (.stallPending t w) s0 = .next s) ∧
    (r.shownAt ≠ some s.time →
      ∃ u, exec (.stallPending t w) s0 = .next u ∧
        getStallRegs u p.val = (match r.held with
          | x :: rest =>
            { r with shown := x, pending := true, shownAt := some s.time, reports := min 0xFFFFFFFF (r.reports + 1), held := rest }
          | [] => { r with pending := false }) ∧
        u.out.msix = (if r.held = [] then s.out.msix else (p.val, (getFaultQ s p.val).vector) :: s.out.msix) ∧
        (∀ q, q ≠ p.val → getStallRegs u q = getStallRegs s q) ∧
        u = { s with ctr := { s.ctr with stallRegs := u.ctr.stallRegs }, out := { s.out with msix := u.out.msix } })

/-- FV_QUEUES_ADMINCTL makes the partition's admin queue, or its admin completion queue, ENABLED at the image's base with zero counts,
whatever state it is in; entries read and not started are discarded. In maintenance configuration a write of FV_CFG_MAINTBASE with GO
enables both admin queues of partition 0, depth 64, the completion queue at BASE + 4 KiB, with zero counts; while both are ENABLED it is
ignored. Clauses that rest on the model's own choices or readings: assumption 30. -/
def Obligations.AdminQueuesAreRecoveredAndEnabled : Prop :=
  (∀ (s0 : State) (t : Mc) (p : Fin 16) (w : RegWrite) (c : PartCfg),
     let s := hostAt s0 t w.port
     PageWrite s p w → partCfg s p.val = some c →
     let sqs := s.q.sqs.map fun q =>
       if q.qid == p.val then { q with st := .enabled, base := c.adminSqBase, tail := 0, head := 0, held := [] } else q
     let cqs := s.q.cqs.map fun q =>
       if q.qid == p.val then { q with st := .enabled, base := c.adminCqBase, count := 0, head := 0, unsignalled := 0 } else q
     ∀ i ∈ [Instr.adminSqRecover t w, Instr.adminCqRecover t w],
       exec i s0 = .next { s with q := { s.q with
         sqs := if w.value.toNat % 2 = 1 then sqs else s.q.sqs
         cqs := if w.value.toNat / 2 % 2 = 1 then cqs else s.q.cqs } }) ∧
  (∀ (s0 : State) (t : Mc) (w : RegWrite),
     let s := hostAt s0 t w.port
     w.page = .part 0 → w.size = 8 → w.port = homePort s 0 → running s = true →
     s.status.maint = true → w.value.toNat % 2 = 1 →
     let base := w.value.toNat / 4096 % 2 ^ 31 * 4096
     let both := (∃ q, getSq s 0 = some q ∧ q.st = .enabled) ∧ (∃ q, getCq s 0 = some q ∧ q.st = .enabled)
     (both → exec (.go t w) s0 = .next s) ∧
     (¬ both → ∃ u, exec (.go t w) s0 = .next u ∧ u.status = { s.status with maintBase := base } ∧
       (∃ q, getSq u 0 = some q ∧ q.st = .enabled ∧ q.base = base ∧ q.tail = 0 ∧ q.head = 0 ∧ q.held = []) ∧
       (∃ q, getCq u 0 = some q ∧ q.st = .enabled ∧ q.base = base + 4096 ∧ q.count = 0 ∧ q.head = 0) ∧
       u.q.ops = s.q.ops ∧
       u = { s with status := u.status, q := { s.q with sqs := u.q.sqs, cqs := u.q.cqs } }))

/-- FV_PWR_CTRL, in partition 0 alone: BANK and HOLD_RUN take the written bits, and HOLD_RUN wakes every half that no brownout holds, its
rails with it. FV_PWR_TIMER, in partition 0 alone, takes WAKE_AT: when HTIME reaches it, the field is cleared, unless it is written in that
mc (R534), and both halves, unless a brownout holds them, are in Run.
Clauses that rest on the model's own choices or readings: assumption 28. -/
def Obligations.PowerControlHoldsAndWakes : Prop :=
  (∀ (s0 : State) (t : Mc) (p : Fin 16) (w : RegWrite),
     let s := hostAt s0 t w.port
     PageWrite s p w →
     let hold := decide (w.value.toNat % 2 = 1)
     let set := { s.power with bankReq := decide (w.value.toNat / 2 % 2 = 1), holdRun := hold, ctrlAt := some s.time }
     ∀ c ∈ [Instr.bank t w, Instr.holdRun t w],
       (p ≠ 0 → exec c s0 = .next s) ∧
       (p = 0 → exec c s0 = .next { s with power := if hold then woken set s.time ⟨true, true⟩ else set })) ∧
  (∀ (s0 : State) (t : Mc) (p : Fin 16) (w : RegWrite),
     let s := hostAt s0 t w.port
     PageWrite s p w →
     let o := exec (.registerWrite t w.port (p.val * 0x1_0000 + 0xB010) 8 w.value) s0
     (p ≠ 0 → o = .next s) ∧
     (p = 0 → o = .next { s with power := { s.power with wakeAt := w.value.toNat, timerAt := some s.time } })) ∧
  (∀ (s : State) (t : Mc), running s = true → s.power.wakeAt ≠ 0 → s.power.hfrac < 21 →
     ∃ u, exec (.wakeAt t) s = .next u ∧ s.power.wakeAt ≤ u.power.htime ∧ max s.time t ≤ u.time ∧
       (let p := (atTime s u.time).power
        u.power = woken { p with
          wakeAt := if p.timerAt = some u.time then s.power.wakeAt else 0
          lastWake := if p.wokeAt = some p.htime then min 2 p.lastWake else p.lastWake } u.time ⟨true, true⟩) ∧
       u = { atTime s u.time with power := u.power })

/-- A write of a log selector takes a snapshot of the selected record, and the log registers of the page show it; a record that does not
stand reads zero. Partition 0's write of 1 to ALERT releases the alert, in maintenance configuration and during a reset too, but not in the
mc of a record that has pulled it low (R496, R534); another partition's write does not. -/
def Obligations.LogsAreShownAndTheAlertReleased : Prop :=
  (∀ (s0 : State) (t : Mc) (p : Fin 16) (w : RegWrite),
     let s := hostAt s0 t w.port
     PageWrite s p w → (∃ x ∈ s.sels, x.page = .part p) →
     let record := fun (l : List (Nat × List Byte)) i n => ((l.find? fun x => x.1 == i).map Prod.snd).getD (zeros n)
     (∃ u, exec (.powerLogSelect t w) s0 = .next u ∧
       (∀ k : Nat, k < 2 → readRegister u w.port (p.val * 0x1_0000 + 0xB038 + 8 * k) 8 =
         fieldAt (record s.power.log (w.value.toNat % 64) 16) (8 * k) 8) ∧
       (∀ pg, pg ≠ .part p → getSel u pg = getSel s pg) ∧ u = { s with sels := u.sels }) ∧
     (p = 0 → ∃ u, exec (.integrityLogSelect t w) s0 = .next u ∧
       (∀ k : Nat, k < 4 → readRegister u w.port (0xC030 + 8 * k) 8 =
         fieldAt (record s.integ.log (w.value.toNat % 256) 32) (8 * k) 8) ∧
       (∀ pg, pg ≠ .part p → getSel u pg = getSel s pg) ∧ u = { s with sels := u.sels }) ∧
     (p ≠ 0 → exec (.integrityLogSelect t w) s0 = .next s)) ∧
  (∀ (s0 : State) (t : Mc) (p : Fin 16) (w : RegWrite),
     let s := hostAt s0 t w.port
     w.page = .part p → w.size = 8 → w.port = homePort s p.val →
     s.power.cold = false → s.power.banked = false → w.value.toNat % 2 = 1 →
     (p = 0 → s.integ.alertAt ≠ some s.time → exec (.alert t w) s0 = .next { s with integ := { s.integ with alert := false } }) ∧
     (p = 0 → s.integ.alertAt = some s.time → exec (.alert t w) s0 = .next s) ∧
     (p ≠ 0 → exec (.alert t w) s0 = .next s))

/-! ## Loop-backs and production test -/

/-- A write of partition 0's test block while the TAP does not own it: START is refused with the first reason that holds, or the test
runs. In a loop of depth 7 the partner record that the block names must be up on the half. The test keeps the settings of its START. At
depths 2 to 6 it sends one line in each mc from now on, at 0 and 8 once it has taken the lowest free hauler of its half (R499); at depth 6
the records whose paths all lie on its chiplet have no path from now on (R505). Clauses that rest on the model's own choices or readings:
assumption 50. -/
def Obligations.LoopStartRunsOrRefuses : Prop :=
  ∀ (s0 : State) (t : Mc) (w : RegWrite),
    let s := hostAt s0 t w.port
    w.page = .part 0 → w.size = 8 → w.port = homePort s 0 → running s = true →
    s.test.tapOwn = false → s.test.state ≠ 1 → w.value.toNat % 2 = 1 →
    let v := w.value.toNat
    let depth := v / 2 ^ 8 % 16
    let unit := v / 2 ^ 16 % 256
    let lines := v / 2 ^ 32
    let half : Half := if v / 16 % 2 = 1 then .west else .east
    let units := if depth = 3 then 8 else if depth = 5 then 16 else if depth = 6 then 2 else 1
    let absent := (depth = 3 ∧ s.fuses.grade = .b ∧ (unit = 6 ∨ unit = 7)) ∨ ((depth = 6 ∨ depth = 7) ∧ s.fuses.grade = .c)
    let bad := 8 < depth ∨ lines = 0 ∨ units ≤ unit ∨ ((depth = 3 ∨ depth = 5 ∨ depth = 6) ∧ s.status.maint = false)
    let beyond := depth = 8 ∧ 0x0800_0000_0000 < s.test.hostBase + 0x1_0000
    let partner := match partnerCfg s s.test.record, getPartner s s.test.record with
      | some c, some p => if c.half = half then some p.st else none
      | _, _ => none
    let fenced := depth = 7 ∧ partner = some .fenced
    let away := depth = 7 ∧ partner ≠ some .fenced ∧ partner ≠ some .active ∧ partner ≠ some .slow
    ∃ u, exec (.loopStart t w) s0 = .next u ∧
      u.test.depth = depth ∧ u.test.unit = unit ∧ u.test.lines = lines ∧ u.test.errBits = 0 ∧ u.test.done = 0 ∧ u.test.spoiled = 0 ∧
      u.test.lost = 0 ∧ u.test.first = none ∧
      (u.test.state, u.test.status) =
        (if absent then (4, stUnitAbsent) else if bad then (4, stBadProgram) else if fenced then (4, stPartnerFenced)
         else if away then (4, stPartnerTimeout) else if beyond then (4, stSegmentBound) else (1, 0)) ∧
      (u.test.state = 1 → u.test.loop.running = true ∧ u.test.loop.depth = depth ∧ u.test.loop.lines = lines ∧
        u.test.loop.seed = s.test.seed ∧ u.test.loop.hostBase = s.test.hostBase ∧ u.test.loop.record = s.test.record ∧
        u.test.loop.exportId = s.test.exportId ∧ u.test.loop.offset = s.test.offset ∧ u.test.loop.seen = [] ∧
        u.test.loop.inject = decide (v / 8 % 2 = 1) ∧ u.test.loop.half = half) ∧
      (u.test.state = 1 → 2 ≤ depth → depth ≤ 6 → u.test.loop.sentAt = [(0, s.time)]) ∧
      (u.test.state = 1 → depth = 0 ∨ depth = 8 → s.test.loop.running = false → ∀ i : Fin 128, mayStart s half = true →
        haulerFree s ⟨half, i⟩ = true → (∀ j : Fin 128, j < i → haulerFree s ⟨half, j⟩ = false) →
        u.test.loop.hauler = some i.val ∧ u.test.loop.sentAt = [(0, s.time)]) ∧
      (u.test.state = 1 → depth = 6 → u.rem.partners = s.rem.partners.map (fun x =>
          if s.cfg.partners.any fun c => c.num == x.num && c.half == half && c.paths.all (fun p => p.1 == unit) then
            { x with downAt := s.time }
          else x) ∧
        u = { s with test := u.test, rem := { s.rem with partners := u.rem.partners } }) ∧
      (depth ≠ 6 ∧ depth ≠ 7 ∨ u.test.state = 4 → u = { s with test := u.test })

/-- A line returns in its order once it has been sent, with the bits that its path inverts: it counts as done, with the bits in which it
differs from the line generated; one that returns bad, or that is read back spoiled, counts as spoiled; one that has not returned 1 ms
after it was sent counts as lost. The last line ends the test: PASS only without an error bit, spoiled or lost line. A line of a half that
runs no test, beyond the test's lines, not yet sent, or that has returned or been counted lost changes nothing. In the loops of depth 2
and 8 a line is written to the half's loop area or the host's 64 KiB and read back, unless its half is in half reset. A line of depth 3
that fails address parity is recorded as COUNTED, and one of depth 4 that fails Seam CRC counts as such a failure (R506). In a loop of
depth 7 lines return in the partner's responses. Clauses that rest on the model's own choices or readings: assumptions 50 and 85. -/
def Obligations.LoopLinesAreCounted : Prop :=
  ∀ (s0 : State) (t : Mc) (half : Half) (j : Nat) (flips : List Byte) (bad : Bool) (env : StartEnv),
    let s := engage (atTime s0 t)
    let l := s.test.loop
    let out := l.running = true ∧ l.half = half ∧ j < l.lines ∧ j ∉ l.seen ∧ ∃ m, sentAt l j = some m ∧ m ≤ s.time
    let last := decide (l.lines ≤ l.seen.length + 1)
    let place := j % 256 * 256
    let away := (l.depth = 2 ∧ s.halfReset.get half = true) ∨ (l.depth = 8 ∧ s.halfReset.get (homePort s 0) = true)
    let left := if away then s.mem
      else if l.depth = 2 then memWrite s.mem (stockBase half + 0x1000_0000 - 0x1_8000 + place) (good (sentLine l j))
      else if l.depth = 8 then memWrite s.mem (hostAddr 0 (l.hostBase + place)) (good (sentLine l j))
      else s.mem
    let data := List.zipWith (· ^^^ ·) (sentLine l j) flips
    let parity := bad = true ∧ (l.depth = 3 ∨ l.depth = 4)
    (¬ out ∨ j < l.checked ∨ l.depth = 7 → exec (.loopLineReturn t half j flips ⟨bad, env⟩) s0 = .next s) ∧
    (¬ out ∨ (∀ m, sentAt l j = some m → s.time < m + 2100000) → exec (.loopLineLost t half j) s0 = .next s) ∧
    (out → l.checked ≤ j → l.depth ≠ 7 → flips.length = 256 → l.hostBase % 256 = 0 → l.hostBase + 0x1_0000 ≤ 0x0800_0000_0000 →
      s.mem.wf →
      (parity → s.integ.seamTimes = [] ∧ 1 < s.cfg.safety.seamLimit) →
      ∃ u, exec (.loopLineReturn t half j flips ⟨bad, env⟩) s0 = .next u ∧
        u.mem = left ∧ u.test.loop.seen = j :: l.seen ∧ u.test.loop.checked = j + 1 ∧ u.test.done = min 0xFFFFFFFF (s.test.done + 1) ∧
        u.test.lost = s.test.lost ∧
        u.test.spoiled = (if bad = true ∨ away then min 0xFFFF (s.test.spoiled + 1) else s.test.spoiled) ∧
        (bad = true ∨ away → u.test.errBits = s.test.errBits ∧ u.test.first = s.test.first) ∧
        (bad = false → ¬ away → u.test.errBits = min 0xFFFFFFFF (s.test.errBits + bitDiff (loopLine l.seed j) data) ∧
          u.test.first = (if bitDiff (loopLine l.seed j) data = 0 then s.test.first else some ((s.test.first.getD j).min j))) ∧
        u.test.loop.running = !last ∧
        u.test.state = (if last then
            if u.test.errBits = 0 ∧ u.test.spoiled = 0 ∧ u.test.lost = 0 ∧ s.test.status = 0 then 2 else 3 else s.test.state) ∧
        (¬ parity → u = { s with test := u.test, mem := u.mem }) ∧
        (parity → l.depth = 3 → IntegrityLogged s u 3 0 half 1 (l.unit % 65536) 0 ∧ u.integ.seamCrc = s.integ.seamCrc) ∧
        (parity → l.depth = 4 → IntegrityLogged s u 1 0 half 5 0 0 ∧ u.integ.seamCrc = min 0xFFFF (s.integ.seamCrc + 1))) ∧
    (out → (∃ m, sentAt l j = some m ∧ m + 2100000 ≤ s.time) → ∃ u, exec (.loopLineLost t half j) s0 = .next u ∧
      u.test.loop.seen = j :: l.seen ∧ u.test.done = min 0xFFFFFFFF (s.test.done + 1) ∧
      u.test.lost = min 0xFFFF (s.test.lost + 1) ∧ u.test.errBits = s.test.errBits ∧ u.test.spoiled = s.test.spoiled ∧
      u.test.loop.running = !last ∧ u.test.state = (if last then 3 else s.test.state) ∧
      u = { s with test := u.test })

/-- In maintenance configuration START of FV_TEST_MBIST runs the test of a half's Stockpile, and is ignored while a test runs; a test that
is over leaves every byte of it zero and good and shows the failing banks. START of FV_TEST_LBIST retires the slices that fail. Outside
maintenance configuration neither runs. A write of the block's other registers by their offsets sets their fields. The TAP: a write to the
test block takes ownership, RELEASE and the Test-Logic-Reset state give it back, and while the TAP owns the block host writes to it are
ignored. Clauses that rest on the model's own choices or readings: assumptions 30, 43 and 86. -/
def Obligations.SelfTestsAndTheTapAreGated : Prop :=
  (∀ (s0 : State) (t : Mc) (w : RegWrite) (banks : List (Fin 128)) (slices : List Slice),
     let s := hostAt s0 t w.port
     w.page = .part 0 → w.size = 8 → w.port = homePort s 0 → running s = true → s.test.tapOwn = false → w.value.toNat % 2 = 1 →
     let h : Half := if w.value.toNat / 2 % 2 = 1 then .west else .east
     (exec (.mbistStart t w banks) s0 = .next { s with test :=
       if s.status.maint = true ∧ s.test.mbist = none then
         { s.test with mbHalf := h.num, mbState := 1, mbFail := [], mbist := some { half := h, ends := s.time + 100000, failing := banks } }
       else { s.test with mbHalf := h.num } }) ∧
     (∃ u, exec (.lbistStart t w slices) s0 = .next u ∧
       (s.status.maint = true → u.test.lbDone = true ∧
         (∀ x, x ∈ u.integ.retired ↔ x ∈ s.integ.retired ∨ (x ∈ slices ∧ x.idx < sliceCount x.kind))) ∧
       (s.status.maint = false → u = s) ∧
       u = { s with integ := u.integ, test := u.test })) ∧
  (∀ (s : State) (m : MbistRun), s.test.mbist = some m → s.mem.wf →
     let inside := fun (a : Nat) => stockBase m.half ≤ a ∧ a < stockBase m.half + 0x1000_0000
     (s.time < m.ends → endMbist s = s) ∧
     (m.ends ≤ s.time →
       (endMbist s).test.mbState = (if m.failing = [] then 2 else 3) ∧ (∀ b, b ∈ (endMbist s).test.mbFail ↔ b ∈ m.failing) ∧
       (endMbist s).test.mbist = none ∧
       (∀ a, inside a → memByte (endMbist s).mem a = 0 ∧ memMark (endMbist s).mem (a / 256) = false) ∧
       (∀ a, ¬ inside a → memByte (endMbist s).mem a = memByte s.mem a) ∧
       endMbist s = { s with mem := (endMbist s).mem, test := (endMbist s).test })) ∧
  (∀ (s0 : State) (t : Mc) (value : Word),
     let s := hostAt s0 t (homePort s0 0)
     let set := fun (r : Nat) (x : TestSt) => exec (.registerWrite t (homePort s0 0) r 8 value) s0 = .next { s with test := x }
     let v := value.toNat
     running s = true → s.test.tapOwn = false →
     set 0xD008 { s.test with seed := v % 2 ^ 31 } ∧
     set 0xD010 { s.test with record := v / 2 ^ 42 % 2 ^ 11, exportId := v / 2 ^ 32 % 2 ^ 10, offset := v % 2 ^ 32 } ∧
     set 0xD018 { s.test with hostBase := v / 4096 % 2 ^ 31 * 4096 } ∧ set 0xD058 s.test) ∧
  (∀ (s0 : State) (t : Mc) (value : Word) (w : RegWrite) (banks : List (Fin 128)) (slices : List Slice),
     let s := atTime s0 t
     let own := fun b => Host.Outcome.next (φ := Fault) (ρ := Refusal) { s with test := { s.test with tapOwn := b } }
     exec (.tapTestLogicReset t) s0 = own false ∧
     (running s = true → exec (.release t value) s0 = own (decide (value.toNat / 2 % 2 = 0)) ∧
       exec (.tapAccess t 0x58 value) s0 = own (decide (value.toNat / 2 % 2 = 0)) ∧
       exec (.tapAccess t 0x08 value) s0 =
         .next { s with test := { s.test with tapOwn := true, seed := value.toNat % 2 ^ 31 } } ∧
       exec (.tapAccess t 0x18 value) s0 =
         .next { s with test := { s.test with tapOwn := true, hostBase := value.toNat / 4096 % 2 ^ 31 * 4096 } }) ∧
     (s.test.tapOwn = true →
       ∀ c ∈ [Instr.loopStart t w, .mbistStart t w banks, .lbistStart t w slices], exec c s0 = .next (hostAt s0 t w.port)))

/-! ## Clocks, power states and the Hearth -/

/-- A half that has been idle for GLOW_IDLE enters Glow, unless HOLD_RUN, a GLOW_IDLE of 0 or a half reset keeps it in Run; a wake returns
it to Run, or waits for the recovery where a brownout holds it. The rails follow (table "Rails by state"), and nothing else changes. A pin
acts again only 200 HCLK after its last event. In L40-C remote lane activity and the wake ordered set wake nothing. Clauses that rest on the
model's own choices or readings: assumptions 28 and 43. -/
def Obligations.GlowIsEnteredAndLeft : Prop :=
  ∀ (s0 : State) (t : Mc) (h : Half) (code : Fin 9),
    let s := atTime s0 t
    running s = true →
    let idle := halfIdle s h = true ∧ s.cfg.power.glowIdle ≠ 0 ∧ s.power.holdRun = false ∧ s.halfReset.get h = false ∧
      s.power.glow.get h = false ∧ s.power.busyAt.get h + (s.cfg.power.glowIdle * 21 + 9) / 10 ≤ s.time
    let set := fun (p : PowerSt) => Host.Outcome.next (φ := Fault) (ρ := Refusal) { s with power := p }
    let one := (Both.mk false false).set h true
    (idle → exec (.glowEntry t h true) s0 =
      set { withGlow s.power (s.power.glow.set h true) with glowAt := s.power.glowAt.set h s.time }) ∧
    (¬ idle → exec (.glowEntry t h true) s0 = .next s) ∧
    exec (.glowEntry t h false) s0 = .next s ∧
    (∀ r ∈ s.run.reqs, r.half = h → r.hauler ≠ none → halfIdle s h = false) ∧
    (∀ r ∈ s.q.records, sqHome s r.qid = h → halfIdle s h = false) ∧
    (∀ p ∈ s.arb.ports, p.half = h → p.flight ≠ [] → halfIdle s h = false) ∧
    (deafGlow s h code → exec (.glowWake t ⟨h, code⟩) s0 = .next s) ∧
    (¬ deafGlow s h code →
      exec (.glowWake t ⟨h, code⟩) s0 = set (woken s.power s.time (if code = 1 ∨ code = 2 then ⟨true, true⟩ else one))) ∧
    exec (.hostWake t h) s0 = set (woken (latched s.power 4) s.time one) ∧
    (pinRested s.power s.power.wakePin →
      exec (.wakeN t) s0 = set (woken (latched { s.power with wakePin := some s.power.htime } 1) s.time ⟨true, true⟩)) ∧
    (¬ pinRested s.power s.power.wakePin → exec (.wakeN t) s0 = .next s)

/-- Banked entry copies the code tables to the save area at the top of each half's Stockpile, stops the lanes of every link and changes no
other byte; BANK is cleared, unless it is written in that mc (R534). 7 µs after its begin ISO_N is low, and after 12 µs the rails are those
of Banked. A stack that does not confirm self-refresh is logged and undoes the entry. Clauses that rest on the model's own choices or
readings: assumptions 28 and 71. -/
def Obligations.BankedEntrySavesTheCodeTables : Prop :=
  (∀ (s0 : State) (t : Mc),
    let s := atTime s0 t
    running s = true → mayBank s = true → s.mem.wf →
    let save := fun h => stockBase h + 0x0FFF_8000
    ((∀ a ∈ s.buf.anvils, a.ap < 16 ∧ ∀ x ∈ a.tables, ∀ bs, x.table = some bs → bs.length = 256) →
      (∀ a ∈ s.buf.anvils, ∀ b ∈ s.buf.anvils, a.half = b.half → a.ap = b.ap → a = b) →
      ∃ u, exec (.bankedEntry t none) s0 = .next u ∧
        u.power = { s.power with
          banked := true, banks := min 0xFFFFFFFF (s.power.banks + 1), rails := railsIn s.power.glow
          bankReq := s.power.bankReq && decide (s.power.ctrlAt = some s.time)
          entry := some { age := 0, banks := s.power.banks, bankReq := s.power.bankReq, links := s.rem.links } } ∧
        (∀ a ∈ s.buf.anvils, ∀ i x bs, i < 8 → a.tables[i]? = some x → x.table = some bs →
          memRead u.mem (savePlace a.half a.ap i) 256 = bs) ∧
        (∀ b, (∀ h, b < save h ∨ save h + 0x8000 ≤ b) → memByte u.mem b = memByte s.mem b) ∧
        u = { s with mem := u.mem, power := u.power, rem := { s.rem with links := [] } }) ∧
    (∀ (h : Half) (k : Fin 8), ∃ u, exec (.bankedEntry t (some (h, k))) s0 = .next u ∧ u.power.banked = false ∧
      PowerLogged s u 6 h k.val 0 ∧
      u = { s with power := woken { s.power with log := u.power.log, logCount := u.power.logCount } s.time ⟨true, true⟩ })) ∧
  (∀ (p : PowerSt) (e : BankEntry) (mc : Nat), p.banked = true → p.entry = some e →
    let gated := decide (e.age + mc < 14700)
    let rails := fun (h : Half) => if 25200 ≤ e.age + mc then bankedRails else { (railsIn p.glow).get h with isoN := gated }
    (tickHearth p mc).entry = some { e with age := e.age + mc } ∧ (tickHearth p mc).rails = ⟨rails .east, rails .west⟩)

/-- A wake source takes the mover from Banked to Run with its code latched and the code tables read back. Records that were Active or Slow
excepted (R462), which have none here, nothing is lost; codes that wake nothing, code 6 without a remote port among them, change nothing.
The timer's wake, code 3, comes at the last HCLK edge at or before the request's mc minus 81,900 (R466). A wake before the clocks stop,
10,500 mc after the entry began, undoes the entry, with the links, the count of entries and the request for it as they were (R461).
Clauses that rest on the model's own choices or readings: assumptions 28, 58, 71 and 83. -/
def Obligations.WakeSourcesLeaveBanked : Prop :=
  ∀ (s0 : State) (t : Mc) (code : Fin 9) (h : Half),
    let s := atTime s0 t
    s.power.banked = true → s.power.cold = false →
    let deaf := code = 0 ∨ code = 5 ∨ (code = 6 ∧ (s.fuses.grade = .c ∨ s.cfg.partners = []))
    let timers := fun (x : State) => (timersOf x .east ++ timersOf x .west).filter (x.time ≤ ·)
    let edge := fun (x : State) (d : Mc) => d - 81900 - (((d - 81900 : Nat) : Int) - ((x.time : Int) - x.power.hfrac)).toNat % 21
    let early := ∃ e, s.power.entry = some e ∧ e.age < 10500
    let pin := { s with power := { s.power with wakePin := some s.power.htime } }
    let quiet := fun (x : State) => (∀ p ∈ x.rem.partners, isUp p = false) ∧ x.power.scrubbed = []
    (deaf → exec (.bankedWake t code) s0 = .next s) ∧
    (timers s0 = [] → exec (.bankedWake t 3) s0 = .next s) ∧
    (∀ d, timers s0 = [d] → s0.power.hfrac < 21 → s0.time + 81921 ≤ d → let x := atTime s0 (edge s0 d)
      (∀ e, x.power.entry = some e → 10500 ≤ e.age) → quiet x → x.power.banked = true →
      exec (.bankedWake t 3) s0 = .next (leftBanked x 3)) ∧
    (∀ e, s.power.entry = some e → e.age < 10500 →
      (¬ deaf → code ≠ 3 → exec (.bankedWake t code) s0 = .next (entryUndone s e)) ∧
      exec (.hostWake t h) s0 = .next (entryUndone s e) ∧
      (pinRested s.power s.power.wakePin → exec (.wakeN t) s0 = .next (entryUndone pin e)) ∧
      (deafGlow s h code → exec (.glowWake t ⟨h, code⟩) s0 = .next s) ∧
      (¬ deafGlow s h code → exec (.glowWake t ⟨h, code⟩) s0 = .next (entryUndone s e))) ∧
    (¬ early →
      exec (.glowWake t ⟨h, code⟩) s0 = .next s ∧
      (quiet s →
        (¬ deaf → code ≠ 3 → exec (.bankedWake t code) s0 = .next (leftBanked s code.val)) ∧
        exec (.hostWake t h) s0 = .next (leftBanked s 4) ∧
        (pinRested s.power s.power.wakePin → exec (.wakeN t) s0 = .next (leftBanked pin 1)))) ∧
    (¬ pinRested s.power s.power.wakePin → exec (.wakeN t) s0 = .next s)

/-- In Banked the Hearth reads each stack: one at or above the thermal threshold, or out of self-refresh, is logged and wakes the mover with
code 7; any other changes nothing. In Banked the Hearth scrubs each Stockpile line by line: a corrected line counts, an uncorrectable one is
marked spoiled and logged. No byte changes. Before the clocks stop it does neither. Clauses that rest on the model's own choices or
readings: assumptions 28, 71 and 83. -/
def Obligations.HearthSupervisesTheStacks : Prop :=
  (∀ (s0 : State) (t : Mc) (h : Half) (k : Fin 8) (celsius : BitVec 16) (refresh : Bool) (ecc : Ecc),
     let s := atTime s0 t
     s.power.banked = false ∨ s.power.cold = true ∨ (∃ e, s.power.entry = some e ∧ e.age < 10500) →
     exec (.hbmSupervision t h k celsius refresh) s0 = .next s ∧ exec (.bankedScrub t h ecc) s0 = .next s) ∧
  (∀ (s0 : State) (t : Mc) (h : Half) (k : Fin 8) (celsius : BitVec 16) (refresh : Bool),
     let s := atTime s0 t
     s.power.banked = true → s.power.cold = false → (∀ e, s.power.entry = some e → 10500 ≤ e.age) →
     (∀ p ∈ s.rem.partners, isUp p = false) → s.power.scrubbed = [] →
     let hot := s.cfg.power.thermal ≤ celsius.toNat
     (¬ hot → refresh = true → exec (.hbmSupervision t h k celsius refresh) s0 = .next s) ∧
     (hot ∨ refresh = false → ∃ u, exec (.hbmSupervision t h k celsius refresh) s0 = .next u ∧
       (hot → refresh = true → PowerLogged s u 5 h k.val celsius.toNat) ∧
       (¬ hot → PowerLogged s u 6 h k.val 0) ∧
       (hot → refresh = false → u.power.logCount = s.power.logCount + 2) ∧
       u = { leftBanked s 7 with
         power := { (leftBanked s 7).power with log := u.power.log, logCount := u.power.logCount } })) ∧
  (∀ (s0 : State) (t : Mc) (h : Half),
     let s := atTime s0 t
     s.power.banked = true → s.power.cold = false → (∀ e, s.power.entry = some e → 10500 ≤ e.age) → s.mem.wf →
     let line := s.power.scrubLine.get h
     let next := { s.power with scrubLine := s.power.scrubLine.set h ((line + 1) % 0x10_0000) }
     exec (.bankedScrub t h .clean) s0 = .next { s with power := next } ∧
     exec (.bankedScrub t h .corrected) s0 = .next { s with power := { next with
       scrubCorrected := s.power.scrubCorrected.set h (s.power.scrubCorrected.get h + 1) } } ∧
     ∃ u, exec (.bankedScrub t h .uncorrectable) s0 = .next u ∧
       memMark u.mem (stockBase h / 256 + line) = true ∧
       (∀ k, k ≠ stockBase h / 256 + line → memMark u.mem k = memMark s.mem k) ∧ (∀ a, memByte u.mem a = memByte s.mem a) ∧
       PowerLogged s u 7 h (stockBank (stockBase h + line * 256)).1 0 ∧
       u.power.scrubbed = s.power.scrubbed ++ [(h, line)] ∧
       u = { scrubMarked s h line with
         power := { next with log := u.power.log, logCount := u.power.logCount, scrubbed := u.power.scrubbed } })

/-- VDD_MV below its warning level (690 mV in Run, 640 mV in Glow) holds the half and is logged once an episode; the recovery level (705
and 655 mV) ends the hold, with the episode's lowest reading in its record, an event of partition 0, and the wake that met the half in
hold. A power stage's status that is not 0 is logged, and on VDD_MV these levels apply to the reading that comes with it (R471). A warning
before the clocks of a Banked entry stop undoes the entry first (R461). Clauses that rest on the model's own choices or readings:
assumptions 28, 44 and 71. -/
def Obligations.BrownoutHoldsAndRecovers : Prop :=
  (∀ (s0 : State) (t : Mc) (h : Half) (mv : Nat) (env : StartEnv),
     let s := atTime s0 t
     s.power.banked = false → s.power.cold = false →
     let glow := s.power.glow.get h
     let warn := if glow then 640 else 690
     let back := if glow then 655 else 705
     let held := fun (p : PowerSt) => { p with hold := s.power.hold.set h true, lowest := s.power.lowest.set h mv
                                               warnings := min 0xFFFF (s.power.warnings + 1) }
     let free := fun (p : PowerSt) =>
       let q := { p with hold := s.power.hold.set h false, lowest := s.power.lowest.set h 0, wakeHeld := s.power.wakeHeld.set h false
                         recoveries := min 0xFFFF (s.power.recoveries + 1) }
       if s.power.wakeHeld.get h then woken q s.time ((Both.mk false false).set h true) else q
     let staged := fun (u : State) (p : PowerSt) => { p with log := u.power.log, logCount := u.power.logCount }
     (warn ≤ mv → exec (.brownoutWarning t h mv) s0 = .next s) ∧
     (mv < warn → s.power.hold.get h = true →
       exec (.brownoutWarning t h mv) s0 = .next { s with power := { s.power with
         lowest := s.power.lowest.set h (min mv (s.power.lowest.get h)) } }) ∧
     (mv < warn → s.power.hold.get h = false → ∃ u, exec (.brownoutWarning t h mv) s0 = .next u ∧
       PowerLogged s u 1 h 0xFF mv ∧ u = { s with power := held (staged u s.power) }) ∧
     (mv ≤ back ∨ s.power.hold.get h = false → exec (.brownoutRecovery t h mv) s0 = .next s) ∧
     (∀ q, back < mv → s.power.hold.get h = true → s.power.up = true → BatchOpen s 0 q → (∀ f ∈ s.rem.rxQueue, f.half ≠ h) →
       (∀ x ∈ s.integ.waiting, x.1.half ≠ h) →
       ∃ u, exec (.brownoutRecovery t h mv) s0 = .next u ∧
         PowerLogged s u 2 h 0xFF (s.power.lowest.get h) ∧
         u = { s with
           power := free (staged u s.power)
           seg := withEvent s 0 (eventRec 0x0010 0 true (s.power.logCount % 64) 2 s.time) }) ∧
     (∀ (rail : Rail) (status : BitVec 16), exec (.stagePoll t h rail 0 ⟨mv, env⟩) s0 = .next s ∧
       (status ≠ 0 → rail = .vddSp ∨ (warn ≤ mv ∧ (s.power.hold.get h = false ∨ mv ≤ back)) →
         ∃ u, exec (.stagePoll t h rail status ⟨mv, env⟩) s0 = .next u ∧
           PowerLogged s u 8 h 0xFF status.toNat ∧ u = { s with power := staged u s.power }) ∧
       (status ≠ 0 → 620 ≤ mv → mv < warn → s.power.hold.get h = false →
         ∃ u, exec (.stagePoll t h .vddMv status ⟨mv, env⟩) s0 = .next u ∧ u.power.logCount = s.power.logCount + 2 ∧
           u = { s with power := held (staged u s.power) }) ∧
       (∀ q, status ≠ 0 → back < mv → s.power.hold.get h = true → s.power.up = true → BatchOpen s 0 q →
         (∀ f ∈ s.rem.rxQueue, f.half ≠ h) → (∀ x ∈ s.integ.waiting, x.1.half ≠ h) →
         ∃ u, exec (.stagePoll t h .vddMv status ⟨mv, env⟩) s0 = .next u ∧ u.power.logCount = s.power.logCount + 2 ∧
           u = { s with power := free (staged u s.power)
                        seg := withEvent s 0 (eventRec 0x0010 0 true ((s.power.logCount + 1) % 64) 2 s.time) }))) ∧
  (∀ (s0 : State) (t : Mc) (h : Half) (mv : Nat) (e : BankEntry),
     let s := atTime s0 t
     s.power.banked = true → s.power.cold = false → s.power.entry = some e → s.power.hold.get h = false →
     let warn := if s.power.glow.get h then 640 else 690
     (10500 ≤ e.age ∨ warn ≤ mv → exec (.brownoutWarning t h mv) s0 = .next s) ∧
     (e.age < 10500 → mv < warn → mv < 690 → ∃ u, exec (.brownoutWarning t h mv) s0 = .next u ∧
       PowerLogged s u 1 h 0xFF mv ∧
       u = { entryUndone s e with power := { (entryUndone s e).power with
         log := u.power.log, logCount := u.power.logCount, hold := s.power.hold.set h true, lowest := s.power.lowest.set h mv
         warnings := min 0xFFFF (s.power.warnings + 1) } }))

/-! ## Resets -/

/-- A reset's answer, whatever its cause: Run reached with TIME 0, no request, queue entry, record or outstanding remote request, Stockpiles
of zero with good ECC, both halves in the machine, and what manufacture fixes and the flash kept. A FLASH_WRITE that a reset cuts leaves
its range partly written, and every other byte of the flash (R437). Clauses that rest on the model's own choices or readings: assumptions
27, 45 and 69. -/
def Obligations.EveryResetReachesRun : Prop :=
  ∀ (s0 : State) (t : Mc) (env : StartEnv) (n mv : Nat) (h : Half) (p : Fin 16) (e : List Byte) (rest : List (List Byte)),
    let s := atTime s0 t
    s.power.cold = false → s.mem.wf →
    let whole := (∀ x ∈ s0.q.records, x.flash = none) ∧ ∀ x ∈ s.q.records, x.flash = none
    let cut := fun (a : Nat) => ∃ x ∈ s.q.records, ∃ off len, x.flash = some (off, len) ∧ off ≤ a ∧ a < off + len
    let reached := fun (c : Instr) (last : Option Nat) (warm : Nat) => ∃ u, exec c s0 = .next u ∧
      u.power.up = true ∧ u.power.cold = false ∧ u.power.banked = false ∧ u.power.glow = ⟨false, false⟩ ∧ u.time = 0 ∧
      u.run.reqs = [] ∧ u.q.records = [] ∧ (∀ q ∈ u.q.sqs, q.held = []) ∧ u.rem.outReqs = [] ∧ u.rem.inbound = [] ∧
      u.halfReset = ⟨false, false⟩ ∧
      (∀ x, last = some x → u.status.last = x) ∧ u.status.warm = warm ∧ u.status.boots = s.status.boots + 1 ∧
      (∀ a, inStock .east a = true ∨ inStock .west a = true → memByte u.mem a = 0 ∧ memMark u.mem (a / 256) = false) ∧
      FusesFrom s.fuses u.fuses ∧ (whole → u.flash = s.flash) ∧
      (flashWf s → s0.q.records.filter isFlashWrite = s.q.records.filter isFlashWrite →
        ∀ a, ¬ cut a → flashRead u a 1 = flashRead s a 1) ∧
      u.pending = s.pending
    let warm := min 0xFFFF (s.status.warm + 1)
    (pinRested s.power s.power.warmPin → reached (.warmRstN t env) (some 2) warm) ∧
    (¬ pinRested s.power s.power.warmPin → exec (.warmRstN t env) s0 = .next s) ∧
    (s.power.banked = false → n ≠ 210 → reached (.clock t n env) none warm) ∧
    (s.power.banked = false ∨ (∃ x, s.power.entry = some x ∧ x.age < 10500) → mv < 620 →
      reached (.brownoutReset t h mv env) (some 1) 0) ∧
    (s.power.banked = false → mv < 620 → n % 65536 ≠ 0 → reached (.stagePoll t h .vddMv (BitVec.ofNat 16 n) ⟨mv, env⟩) (some 1) 0) ∧
    (s.power.banked = true → mv < 500 → reached (.brownoutReset t h mv env) (some 1) 0) ∧
    (AdminEntry s p 0x0060 e rest → whole → (∀ i, 16 ≤ i → i < 64 → fieldAt e i 1 = 0) → reached (.warmReset t p env) (some 3) warm) ∧
    (∀ c, AdminEntry s p 0x0052 e rest → whole → (∀ i, 16 ≤ i → i < 64 → fieldAt e i 1 = 0) →
      checkImage s env.flashAnswers = .valid c → reached (.reload t p env) (some 4) warm)

/-- When PWRGOOD falls the mover is Cold: only the fuses, the flash, the memories and the slices found faulty are left. A half reset ends
with both halves' copies of every counter equal to their homes. Clauses that rest on the model's own choices or readings: assumptions 27,
31 and 69. -/
def Obligations.PowerLossAndRejoin : Prop :=
  ∀ (s0 : State) (t : Mc) (h : Half),
    let s := atTime s0 t
    (s.power.cold = false → ∃ u, exec (.powerLoss t) s0 = .next u ∧ u.power = State.reset.power ∧ u.cfg = State.reset.cfg ∧
      u.copy = none ∧ u.run = State.reset.run ∧ u.q = State.reset.q ∧ u.ctr = State.reset.ctr ∧ u.integ.log = [] ∧
      u.integ.retired = s.integ.retired ∧ u.fuses = s.fuses ∧ ((∀ x ∈ s0.q.records, x.flash = none) → u.flash = s.flash) ∧
      u.mem = s.mem ∧ u.pending = s.pending) ∧
    (s.power.cold = true → exec (.powerLoss t) s0 = .next s) ∧
    (s.halfReset.get h = false → exec (.halfResetRejoin t h) s0 = .next s) ∧
    (s.halfReset.get h = true → NothingHeld s → (∀ x ∈ s.ctxs, x.cw = none) →
      exec (.halfResetRejoin t h) s0 = .next { s with
        halfReset := s.halfReset.set h false
        ctr := { s.ctr with
          copyMsgs := []
          ctrs := s.ctr.ctrs.map fun c => { c with copyValue := c.value, copyGen := c.gen, copyAbandoned := c.abandoned } } })

/-! ## Integrity monitoring -/

/-- A corrected error only counts. A contained detection counts and is logged, and no byte changes: its lines carry the spoil mark in
memory, in the requests that have them to write, at the remote port where they go out (R483), or, at a Tongs unit, in the slot it names
(R146, R147), where memory keeps its marks. A test that is overdue, a slice that fails and an uncorrectable line are logged with the
reactions OVERDUE, RETIRE and COUNTED; a slice under test is kept from requests for the test's time. Stated away from the limits at which
seam failures reset and miscompares retire (R495). Clauses that rest on the model's own choices or readings: assumptions 29, 64 and 76. -/
def Obligations.ContainedDetectionsOnlyCount : Prop :=
  ∀ (s0 : State) (t : Mc) (d : Detection) (env : StartEnv) (h : Half) (ap : Fin 16) (x : Slice) (passes : Bool),
    let s := atTime s0 t
    running s = true → s.halfReset = ⟨false, false⟩ → s.power.glow = ⟨false, false⟩ → s.mem.wf →
    let m := noteBusy s d.half
    let stock := fun h => stockBase h / 256 + s.integ.patrol.get h
    let walk := { s.integ with patrol := s.integ.patrol.set h ((s.integ.patrol.get h + 1) % 0x10_0000) }
    let logged := fun u => IntegrityLogged s u d.mech.toNat 0 d.half d.unitClass.toNat d.unit.toNat d.object.toNat
    let held := fun (r : Request) => r.half = d.half ∧ r.tongs = some (d.unit.toNat, d.slot.val)
    let memory := d.mech = 6 ∨ d.mech = 7 ∨ (d.mech = 1 ∧ d.unitClass ≠ 3 ∧ d.unitClass ≠ 5 ∧ d.unitClass ≠ 0x0A ∧ d.unitClass ≠ 0x0C)
    let testable := x.idx < sliceCount x.kind ∧ sliceIdle s x = true ∧ x ∉ s.integ.retired
    let testing := (s.integ.testing.filter fun y => s.time < y.2 && y.1 != x) ++ [(x, s.time + testTime x.kind)]
    let tested := (s.integ.tested.filter fun y => y.1 != x) ++ [(x, s.power.ran.get x.half + testTime x.kind)]
    let late := s.integ.late.filter (· != x)
    let port : Slice := ⟨h, .anvil, ap.val⟩
    let overdue := ((s.integ.tested.find? (·.1 == port)).map Prod.snd).getD 0 + 210000000 ≤ s.power.ran.get h ∧ port ∉ s.integ.late
    (d.mech = 6 → d.corrected = true →
      exec (.containedDetection t d env) s0 = .next { m with integ := { s.integ with
        corr := s.integ.corr.set d.half (min 0xFFFFFFFF (s.integ.corr.get d.half + 1)) } }) ∧
    (d.mech = 7 → d.corrected = true →
      exec (.containedDetection t d env) s0 = .next { m with integ := { s.integ with hbmCorr := min 0xFFFF (s.integ.hbmCorr + 1) } }) ∧
    (memory → d.corrected = false →
      ∃ u, exec (.containedDetection t d env) s0 = .next u ∧ logged u ∧
        (∀ a ∈ d.lines, (windowOf s.fuses.grade a).isSome = true → memMark u.mem (a / 256) = true) ∧
        (∀ a, memByte u.mem a = memByte s.mem a) ∧
        (∀ r ∈ s.run.reqs, ∃ y ∈ u.run.reqs, y.id = r.id ∧ ∀ l ∈ r.lines.stream, l.load.isSome = true → (∃ a ∈ d.lines, a / 256 = l.num) →
          ∃ k ∈ y.lines.stream, k.seq = l.seq ∧ ∀ w, k.load = some w → ∀ b ∈ w.data, b.2 = true) ∧
        u.integ.hbmUncorr = (if d.mech = 7 then min 0xFFFF (s.integ.hbmUncorr + 1) else s.integ.hbmUncorr) ∧
        u = { m with mem := u.mem, integ := u.integ, run := { s.run with reqs := u.run.reqs }
                     buf := { s.buf with anvils := u.buf.anvils } } ∧
        ((∀ r ∈ s.run.reqs, allIssued r = true ∧ flightsOf s (.request r.id) = [] ∧ r.hostWrites = ⟨[], []⟩) →
          u.run.reqs = s.run.reqs)) ∧
    (d.mech = 1 → d.unitClass = 0x0C → d.corrected = false →
      ∃ u, exec (.containedDetection t d env) s0 = .next u ∧ logged u ∧ u.mem = s.mem ∧
        (∀ o ∈ s.rem.outReqs, o.num = d.unit.toNat → ∃ y ∈ u.rem.outReqs, y.num = o.num ∧ y.tag = o.tag ∧
          ∀ i, i * 256 < o.payload.length → (∃ a ∈ d.lines, a / 256 = o.addr / 256 + i) → y.spoil.testBit i = true)) ∧
    ((d.mech = 1 ∧ d.unitClass = 3) ∨
        (d.mech = 2 ∧ ∀ y ∈ s.integ.misTimes, ¬ (y.1 = d.half ∧ y.2.1 = d.unit.toNat)) → d.corrected = false →
      ∃ u, exec (.containedDetection t d env) s0 = .next u ∧ logged u ∧ u.integ.retired = s.integ.retired ∧
        u.integ.miscompare = (if d.mech = 2 then min 0xFFFF (s.integ.miscompare + 1) else s.integ.miscompare) ∧
        u = { m with
          integ := u.integ
          run := { s.run with reqs := s.run.reqs.map fun r =>
            (if held r then
               if r.pass.started then { r with hits := r.hits ++ d.lines.map fun a => (decide (d.mech = 2), a) }
               else if d.mech = 2 then d.lines.foldl spoilUnissued r else r
             else r) } }) ∧
    (overdue → ∃ u, exec (.latentOverdue t h ap) s0 = .next u ∧ IntegrityLogged s u 0x0A 4 h 0x0A ap.val ap.val ∧
      u.integ.overdue = true ∧ u.integ.late = s.integ.late ++ [port] ∧ u = { s with integ := u.integ }) ∧
    (¬ overdue → exec (.latentOverdue t h ap) s0 = .next s) ∧
    (¬ testable → exec (.selfTest t x passes) s0 = .next s) ∧
    (testable → exec (.selfTest t x true) s0 = .next { s with integ := { s.integ with
      testing := testing, tested := tested, late := late } }) ∧
    (testable → ∃ u, exec (.selfTest t x false) s0 = .next u ∧ (∃ c, IntegrityLogged s u 0x0A 3 x.half c x.idx x.idx) ∧
      u.integ.retired = s.integ.retired ++ [x] ∧ u.integ.testing = testing ∧ u.integ.tested = tested ∧ u.integ.late = late ∧
      u = { s with integ := u.integ }) ∧
    exec (.patrolScrub t h .clean) s0 = .next { s with integ := walk } ∧
    exec (.patrolScrub t h .corrected) s0 = .next { s with integ := { walk with
      corr := s.integ.corr.set h (min 0xFFFFFFFF (s.integ.corr.get h + 1)) } } ∧
    (∃ u, exec (.patrolScrub t h .uncorrectable) s0 = .next u ∧ memMark u.mem (stock h) = true ∧
      (∀ k, k ≠ stock h → memMark u.mem k = memMark s.mem k) ∧ (∀ a, memByte u.mem a = memByte s.mem a) ∧
      u.integ.patrol = walk.patrol ∧ (∃ c n o, IntegrityLogged s u 6 0 h c n o) ∧
      u = { scrubMarked s h (s.integ.patrol.get h) with integ := u.integ })

/-- An uncontained detection quenches the contexts it affects; without a readable owner it resets the half. In a half that a brownout hold
keeps in Glow it waits for the half to be in Run (R486). The watchdog quenches the context of a request whose hauler has shown no activity
for WATCHDOG and which waits for no Tongs slot, beat, buffer or tag (R487). A quench that does not end in 5 µs resets the half. Stated with
the other half in the machine and QUENCH_LIMIT not reached. Clauses that rest on the model's own choices or readings: assumptions 16, 29 and
45. -/
def Obligations.UncontainedDetectionsQuenchOrReset : Prop :=
  ∀ (s0 : State) (t : Mc) (d : Detection) (env : StartEnv) (h : HaulerId) (r : Request),
    let s := atTime s0 t
    running s = true → s.halfReset = ⟨false, false⟩ → OneRequestPerId s →
    let quenched := fun (u : State) (ctx : Nat) => ∀ x, getCtx u ctx = some x →
      x.st = .quenched ∨ (x.st = .resetting ∧ x.quenchAfter = true)
    let ended := fun (u : State) (ctx : Nat) => ∀ r ∈ u.run.reqs, r.ctx = ctx → r.fin ≠ none
    let few := fun half => (recentQuenches s half).length + 2 ≤ s.cfg.safety.quenchLimit
    let waits := s.power.glow.get d.half = true ∧ s.power.hold.get d.half = true
    let hung := r.wait ≠ some .tongs ∧ allIssued r = true ∧ r.active + (s.cfg.safety.watchdog * 21 + 9) / 10 ≤ s.time
    let pending := ∃ y ∈ s.run.reqs, y.half = h.half ∧ ∃ x, getCtx s y.ctx = some x ∧ x.st = .quenched ∧ x.quenchedAt + 10500 ≤ s.time
    (d.mech = 3 ∨ d.mech = 4 ∨ d.mech = 5 ∨ d.mech = 8 ∨ d.mech = 9 ∨ d.mech = 0x0B → waits →
      ∃ u, exec (.uncontainedDetection t d env) s0 = .next u ∧ u.integ = { s.integ with waiting := s.integ.waiting ++ [(d, env)] } ∧
        u = { s with integ := u.integ, power := u.power } ∧ u.power.glow = s.power.glow) ∧
    (∀ c : Fin 256, d.mech = 3 ∨ d.mech = 4 ∨ d.mech = 9 → d.owner = some c → (ctxCfg s c.val).isSome = true → few d.half → ¬ waits →
      ∃ u, exec (.uncontainedDetection t d env) s0 = .next u ∧ quenched u c.val ∧
        ((∃ x, getCtx s c.val = some x ∧ x.st = .loaded) → ended u c.val) ∧
        (∃ k, IntegrityLogged s u d.mech.toNat 1 d.half d.unitClass.toNat d.unit.toNat k) ∧
        u.halfReset = s.halfReset ∧ u.power.glow.get d.half = false) ∧
    (∀ c, d.mech = 5 → ctrCfg s d.counter = some c → (ctxCfg s c.owner).isSome = true →
      (affected s d).length + (recentQuenches s d.half).length + 1 ≤ s.cfg.safety.quenchLimit → ¬ waits →
      ∃ u, exec (.uncontainedDetection t d env) s0 = .next u ∧ quenched u c.owner ∧ u.halfReset = s.halfReset) ∧
    (∀ x, s.ctr.updates = [x] → d.mech = 5 → (dropUpdate s d).ctr.updates = if x.ctr = d.counter then [] else [x]) ∧
    (d.mech = 8 ∨ ((d.mech = 3 ∨ d.mech = 4 ∨ d.mech = 9) ∧ d.owner = none) → ¬ waits →
      ∃ u, exec (.uncontainedDetection t d env) s0 = .next u ∧ u.halfReset = s.halfReset.set d.half true ∧
        (∀ c ∈ s.cfg.ctxs, c.homeHalf = d.half → ∀ x, getCtx u c.ctx = some x → x.st = .quenched) ∧
        (∀ a, inStock d.half a = true → memByte u.mem a = 0)) ∧
    (reqOn s h = some r → r.fin = none → hung → few h.half →
      ∃ u, exec (.haulerWatchdog t h env) s0 = .next u ∧ quenched u r.ctx ∧ u.halfReset = s.halfReset ∧
        (∃ k, IntegrityLogged s u 9 1 h.half 2 h.idx.val k)) ∧
    (reqOn s h = some r → ¬ hung → exec (.haulerWatchdog t h env) s0 = .next s) ∧
    (¬ pending → exec (.quenchTimeout t h.half env) s0 = .next s) ∧
    (pending →
      ∃ u, exec (.quenchTimeout t h.half env) s0 = .next u ∧ u.halfReset = s.halfReset.set h.half true)

/-! ## Queues -/

/-- A doorbell write that is well formed, on the home host port and of a queue of the partition moves the queue's tail, or head, unless the
new count leaves the queue's window: then the queue enters ERROR, with an event for a submission queue. Any other doorbell write is
discarded and counted. In the mc of a command that changes the queue's state the doorbell meets the queue as it stood before that command
(R304). A queue that it meets DISABLED or in ERROR takes no doorbell. Clauses that rest on the model's own choices or readings: assumption
36. -/
def Obligations.DoorbellsMoveTailAndHead : Prop :=
  ∀ (s0 : State) (t : Mc) (q : Fin 8192) (c : Fin 2048) (w : BellWrite),
    let s := hostAt s0 t w.port
    running s = true →
    let p := w.part.val
    let v := w.value.toNat % 2 ^ 32
    let above := fun (a b : Nat) => (a + 2 ^ 32 - b % 2 ^ 32) % 2 ^ 32
    let ok := w.port = homePort s p ∧ (w.size = 4 ∨ (w.size = 8 ∧ w.value.toNat < 2 ^ 32))
    let counted := { s with partRegs := s.partRegs.map fun r =>
      if r.part == p then { r with bellDiscards := min 0xFFFFFFFF (r.bellDiscards + 1) } else r }
    let sqMet := match s.q.oldSqs.find? fun o => o.1 == s.time && o.2.qid == q.val with
      | some o => some o.2
      | none => getSq s q.val
    let cqMet := match s.q.oldCqs.find? fun o => o.1 == s.time && o.2.qid == c.val with
      | some o => some o.2
      | none => getCq s c.val
    let sqs := fun (f : SubQueue → SubQueue) => { s.q with
      sqs := s.q.sqs.map fun y => if y.qid == q.val then f y else y
      oldSqs := s.q.oldSqs.map fun o => if o.2.qid == q.val then (o.1, f o.2) else o }
    let cqs := fun (f : CompQueue → CompQueue) => { s.q with
      cqs := s.q.cqs.map fun y => if y.qid == c.val then f y else y
      oldCqs := s.q.oldCqs.map fun o => if o.2.qid == c.val then (o.1, f o.2) else o }
    (¬ ok ∨ sqOwner s q.val ≠ some p → exec (.sqDoorbell t q w) s0 = .next counted) ∧
    (¬ ok ∨ cqOwner s c.val ≠ some p → exec (.cqDoorbell t c w) s0 = .next counted) ∧
    (∀ x, ok → sqOwner s q.val = some p → sqMet = some x →
      (x.st ≠ .enabled → exec (.sqDoorbell t q w) s0 = .next s) ∧
      (x.st = .enabled → above v x.tail ≤ sqDepth s q.val → above v x.head ≤ sqDepth s q.val →
        exec (.sqDoorbell t q w) s0 = .next { s with q := sqs fun y => { y with tail := v } }) ∧
      (∀ fq, x.st = .enabled → sqDepth s q.val < above v x.tail ∨ sqDepth s q.val < above v x.head → BatchOpen s p fq →
        exec (.sqDoorbell t q w) s0 = .next { s with
          q := sqs fun y => if y.st = .enabled then { y with st := .error, held := [] } else y
          seg := withEvent s p
            (eventRec 0x000B (((sqCfg s q.val).map (·.ctx)).getD 0) (decide (q.val < 16)) q.val (x.tail * 2 ^ 32 + v) s.time) })) ∧
    (∀ x, ok → cqOwner s c.val = some p → cqMet = some x →
      (x.st ≠ .enabled → exec (.cqDoorbell t c w) s0 = .next s) ∧
      (x.st = .enabled → exec (.cqDoorbell t c w) s0 = .next { s with q := cqs fun y =>
        (if above v x.head ≤ above x.count x.head then { y with head := v }
         else if y.st = .enabled then { y with st := .error } else y) }))

/-- A pacing request adds 1 to its line's pending count and wakes the home half of the line's context from Glow (R113, R456), and at 65,535
is lost, counted and reported; a timer's next request is due a period later. -/
def Obligations.PacingRequestsAreCounted : Prop :=
  (∀ (s0 : State) (t : Mc) (line : Fin 256) (w : BellWrite) (x : PacingSt) (c : PacingCfg),
     let s := hostAt s0 t w.port
     running s = true → pacingCfg s line.val = some c → getPacing s line.val = some x → x.coming = [] →
     (∀ y ∈ s.buf.pacing, y.line = line.val → y = x) →
     let put := fun (y : PacingSt) => { s.buf with pacing := s.buf.pacing.map fun z => if z.line == line.val then y else z }
     let counted := { s with partRegs := s.partRegs.map fun r =>
       if r.part == w.part.val then { r with bellDiscards := min 0xFFFFFFFF (r.bellDiscards + 1) } else r }
     let ok := w.port = homePort s w.part.val ∧ w.size = 4 ∧ w.value.toNat % 2 ^ 32 = line.val ∧ c.source = .host ∧
       partOfCtx s c.ctx = w.part.val
     (ok → x.pending < 65535 → exec (.pacingDoorbell t 0 w) s0 = .next { s with
       buf := put { x with pending := x.pending + 1 }
       power := woken s.power s.time ((Both.mk false false).set (homeOfCtx s c.ctx) true) }) ∧
     (∀ fq, ok → 65535 ≤ x.pending → BatchOpen s w.part.val fq → exec (.pacingDoorbell t 0 w) s0 = .next { s with
       buf := put { x with overruns := min 0xFFFFFFFF (x.overruns + 1) }
       seg := withEvent s w.part.val (eventRec 0x0003 c.ctx false line.val (min 0xFFFFFFFF (x.overruns + 1)) s.time) }) ∧
     (w.size = 4 → w.value.toNat % 2 ^ 32 = line.val → ¬ ok → exec (.pacingDoorbell t 0 w) s0 = .next counted) ∧
     (∀ k, k ≠ 0 → exec (.pacingDoorbell t k w) s0 = .next counted)) ∧
  (∀ (s0 : State) (t : Mc) (line : Fin 256) (x0 x : PacingSt) (c : PacingCfg),
     running s0 = true → pacingCfg s0 line.val = some c → getPacing s0 line.val = some x0 →
     let s := atTime s0 (max t x0.due)
     getPacing s line.val = some x → x.coming = [] → (∀ y ∈ s.buf.pacing, y.line = line.val → y = x) →
     let put := fun (y : PacingSt) => { s.buf with pacing := s.buf.pacing.map fun z => if z.line == line.val then y else z }
     (c.source = .timer → x.pending < 65535 → exec (.pacingTimer t line) s0 = .next { s with
       buf := put { x with pending := x.pending + 1, due := x.due + c.period }
       power := woken s.power s.time ((Both.mk false false).set (homeOfCtx s c.ctx) true) }) ∧
     (∀ fq, c.source = .timer → 65535 ≤ x.pending → BatchOpen s (partOfCtx s c.ctx) fq →
       exec (.pacingTimer t line) s0 = .next { s with
         buf := put { x with overruns := min 0xFFFFFFFF (x.overruns + 1), due := x.due + c.period }
         seg := withEvent s (partOfCtx s c.ctx)
           (eventRec 0x0003 c.ctx false line.val (min 0xFFFFFFFF (x.overruns + 1)) s.time) }) ∧
     (c.source ≠ .timer → exec (.pacingTimer t line) s0 = .next (atTime s0 t)))

/-- The next entry of an ENABLED queue is read from host memory and held, and the head counts it. An admin entry of another TYPE completes
at once with BAD_PROGRAM and detail 0x2001. Clauses that rest on the model's own choices or readings: assumptions 11 and 36. -/
def Obligations.EntryFetchHoldsTheNextEntry : Prop :=
  ∀ (s0 : State) (t : Mc) (q : Fin 8192) (x : SubQueue) (p : Nat),
    let s := atTime s0 t
    running s = true → getSq s q.val = some x → x.st = .enabled →
    sqOwner s q.val = some p → s.halfReset.get (sqHome s q.val) = false →
    let e := hostRead s p (x.base + x.head % sqDepth s q.val * 64) 64
    let moved := fun (f : SubQueue → SubQueue) =>
      s.q.sqs.map fun y => if y.qid == q.val then f { y with head := (y.head + 1) % 2 ^ 32 } else y
    (x.tail = x.head ∨ 8 ≤ x.held.length → exec (.entryFetch t q) s0 = .next s) ∧
    (x.tail ≠ x.head → x.held.length < 8 → 16 ≤ q.val ∨
        (fieldAt e 0 1 = 0x10 ∧ (fieldAt e 1 1 = 0 ∨ fieldAt e 1 1 = 2) ∧ fieldAt e 2 2 = 0 ∧ fieldAt e 10 6 = 0 ∧
          fieldAt e 8 2 ∈ [1, 2, 3, 4, 5, 0x10, 0x20, 0x21, 0x22, 0x23, 0x30, 0x40, 0x50, 0x51, 0x52, 0x60]) →
      exec (.entryFetch t q) s0 = .next { s with q := { s.q with sqs := moved fun y => { y with held := y.held ++ [e] } } }) ∧
    (x.tail ≠ x.head → x.held.length < 8 → q.val < 16 → fieldAt e 0 1 ≠ 0x10 →
      exec (.entryFetch t q) s0 = .next { s with q := { s.q with
        sqs := moved id, records := joinRecords s.q.records [adminAnswer s.time q.val e 0x0011 0x2001 0] } })

/-- The oldest record of an ENABLED completion queue with room is written, with the table's fields, PHASE and the present TIME, at the place
of its count, and its request is gone. A full queue waits, and the request that has ended there parks; a queue that is not ENABLED discards,
counts and reports. The coalescing time after the oldest unsignalled record, one message follows and none is unsignalled. Clauses that rest
on the model's own choices or readings: assumptions 10 and 59. -/
def Obligations.CompletionRecordsAreWrittenAndSignalled : Prop :=
  (∀ (s0 : State) (t : Mc) (cq : Fin 2048) (r : PendingRec) (x : CompQueue) (p : Nat),
     let s := whenReady s0 t fun y => !recordComing y cq.val
     running s = true → s.mem.wf →
     s.q.records.find? (·.cq == cq.val) = some r → getCq s cq.val = some x → cqOwner s cq.val = some p →
     (∀ o ∈ s.q.oldCqs, o.2.qid ≠ cq.val) → r.rep = none →
     let d := cqDepth s cq.val
     let used := (x.count + 2 ^ 32 - x.head % 2 ^ 32) % 2 ^ 32
     let place := x.base + x.count % d * 32
     let at' := hostAddr p place
     (x.st = .enabled → used < d → used + 1 < d ∨ (∀ y ∈ dropFirst (·.cq == cq.val) s.q.records, y.cq ≠ cq.val) →
       place + 32 ≤ 0x0800_0000_0000 → ∃ u, exec (.completionRecord t cq) s0 = .next u ∧
       (let b := memRead u.mem at' 32
        fieldAt b 0 2 = r.qid % 8192 + (if x.count / d % 2 = 0 then 0x8000 else 0) ∧ fieldAt b 2 2 = r.status % 2 ^ 16 ∧
        fieldAt b 4 4 = r.tag % 2 ^ 32 ∧ fieldAt b 8 8 = r.bytes % 2 ^ 64 ∧ fieldAt b 16 4 = r.spoiled % 2 ^ 32 ∧
        fieldAt b 20 4 = r.ledger % 2 ^ 32 ∧ fieldAt b 24 6 = s.time % 2 ^ 48 ∧ fieldAt b 30 2 = r.detail % 2 ^ 16) ∧
       (∀ a, a < at' ∨ at' + 32 ≤ a → memByte u.mem a = memByte s.mem a) ∧
       (∃ y, getCq u cq.val = some y ∧ y.count = (x.count + 1) % 2 ^ 32 ∧ y.head = x.head ∧ y.st = .enabled) ∧
       u.q.records = dropFirst (·.cq == cq.val) s.q.records ∧
       (r.irq = true → u.out.msix = (p, (cqIrq s cq.val).2) :: s.out.msix) ∧
       ((cqIrq s cq.val).1 = .none → r.irq = false → u.out.msix = s.out.msix) ∧
       u.run.reqs = (match r.req with
         | some id => s.run.reqs.filter (·.id != id)
         | none => s.run.reqs) ∧
       (r.req = none → u.q.sqs = s.q.sqs) ∧
       u = { s with mem := u.mem, q := { s.q with sqs := u.q.sqs, cqs := u.q.cqs, records := u.q.records }
                    run := { s.run with reqs := u.run.reqs, stalled := u.run.stalled }, out := { s.out with msix := u.out.msix } }) ∧
     (x.st = .enabled → d ≤ used → (∀ y ∈ s.q.records, y.cq = cq.val → y.req = none ∧ y.rep = none) →
       exec (.completionRecord t cq) s0 = .next s) ∧
     (∀ id g i, x.st = .enabled → d ≤ used → s.q.records.filter (·.cq == cq.val) = [r] → r.req = some id → getReq s id = some g →
       g.hauler ≠ none → g.stays = false → freeParking s g.ctx = some i →
       ∃ u, exec (.completionRecord t cq) s0 = .next u ∧ u.q = s.q ∧
         (∀ y, getReq u id = some y → y.hauler = none ∧ y.parkedIn = some i ∧ y.fin = g.fin ∧
           y.tongs = if g.fin.isSome then g.tongs else none)) ∧
     (∀ fq, x.st ≠ .enabled → r.req = none → BatchOpen s p fq →
       let n := min 0xFFFFFFFF (x.discards + 1)
       exec (.completionRecord t cq) s0 = .next { s with
         q := { s.q with
           records := dropFirst (·.cq == cq.val) s.q.records
           cqs := s.q.cqs.map fun y => if y.qid == cq.val then { y with discards := n } else y }
         seg := withEvent s p (eventRec 0x000C 0 true cq.val n s.time) })) ∧
  (∀ (s : State) (t : Mc) (cq : Fin 2048) (x : CompQueue) (p n time vector : Nat),
     running s = true → getCq s cq.val = some x →
     cqOwner s cq.val = some p → cqIrq s cq.val = (.coalesce n time, vector) →
     (x.unsignalled = 0 → exec (.msixCoalesceTimeout t cq) s = .next (atTime s t)) ∧
     (0 < x.unsignalled →
       let m := atTime s (max t (x.oldest + mcOf time))
       exec (.msixCoalesceTimeout t cq) s = .next { m with
         q := { m.q with cqs := m.q.cqs.map fun y => if y.qid == cq.val then { y with unsignalled := 0 } else y }
         out := { m.out with msix := (p, vector) :: m.out.msix } }))

/-- HAUL, ARM and REARM on an IDLE channel start the front entry of the queue that R285 picks on a free hauler, and NEXT_RUN starts the
entry of the channel's run again: the program is read up to its HALT, and runs from its first word when pre-validation refuses nothing.
Clauses that rest on the model's own choices or readings: assumptions 12 and 48. -/
def Obligations.EntriesStartTheirPrograms : Prop :=
  ∀ (s0 : State) (t : Mc) (h : HaulerId) (q : Fin 8192) (c : SqCfg) (x : SubQueue) (e : List Byte) (rest : List (List Byte))
    (prog : List Word) (g : Segment) (ty : Nat),
    let s := atTime s0 t
    running s = true → sqCfg s q.val = some c → getSq s q.val = some x → x.st = .enabled →
    (∀ y ∈ s.q.sqs, y.qid = q.val → y = x) → (∀ o ∈ s.q.oldSqs, o.2.qid ≠ q.val) → BareEntry e ty →
    LineProgram s c.ctx (fieldAt e 8 8) prog g →
    (∃ y, getCtx s c.ctx = some y ∧ y.st = .loaded) → (∀ r ∈ s.run.reqs, r.id < s.run.nextReq) →
    (∀ q' run', prevalidate { s with q := q', run := run' } c.ctx h.half prog (List.replicate 16 0)
      (List.replicate 8 none) = none) →
    haulerReady s h = true →
    let began := fun (i : Instr) (y : SubQueue) => ∃ u, exec i s0 = .next u ∧ Began s u h q.val c.ctx e prog ∧
      getSq u q.val = some { y with running := x.running + 1 } ∧
      (∀ k, k ≠ q.val → getSq u k = getSq s k) ∧
      u = { s with q := { s.q with sqs := u.q.sqs, lastPick := u.q.lastPick }, run := u.run }
    (pickQueue s h.half = some q.val → x.held = e :: rest →
      (c.persistent = false → ty = 1 → began (.haul t h) { x with held := rest }) ∧
      (c.persistent = true → x.active = false → s.halfReset.get (sqHome s q.val) = false →
        let armed := { x with held := rest, active := true, run := some e, left := [], stopped := false, ended := none }
        (ty = 2 → began (.arm t h q) armed) ∧ (ty = 3 → began (.rearm t h q) armed))) ∧
    (c.persistent = true → ty = 2 ∨ ty = 3 → x.active = true → x.running < c.limit → x.ended = some 0 → x.stopped = false →
      x.shadow = none → x.run = some e → x.held = [] → x.endedAt < s.time → sqHome s q.val = h.half →
      began (.persistentNextRun t h q) { x with ended := none })

/-- The other commands of a persistent channel: ARM on an ACTIVE channel is refused, REARM fills the empty shadow and is overrun when it is
full, STOP waits for an ACTIVE channel to become IDLE and completes at once on an IDLE one, and a run that ended with a cause, or was
stopped, leaves the channel IDLE with its STOPs completed. Clauses that rest on the model's own choices or readings: assumptions 12 and 36.
-/
def Obligations.ChannelCommandsFollowTheChannel : Prop :=
  ∀ (s0 : State) (t : Mc) (h : HaulerId) (q : Fin 8192) (c : SqCfg) (x : SubQueue) (e : List Byte) (rest : List (List Byte)),
    let s := atTime s0 t
    running s = true → sqCfg s q.val = some c → c.persistent = true → getSq s q.val = some x → x.st = .enabled → x.held = e :: rest →
    (∀ y ∈ s.q.sqs, y.qid = q.val → y = x) → (∀ o ∈ s.q.oldSqs, o.2.qid ≠ q.val) →
    s.halfReset.get (sqHome s q.val) = false → reqOn s h = none → 16 ≤ q.val →
    let record := fun status detail : Nat => entryRecord s q.val (fieldAt e 4 4) (decide (fieldAt e 1 1 / 2 % 2 = 1)) status detail
    let put := fun (y : SubQueue) (rs : List PendingRec) => Host.Outcome.next (φ := Fault) (ρ := Refusal) { s with
      q := { s.q with sqs := s.q.sqs.map (fun z => if z.qid == q.val then y else z), records := joinRecords s.q.records rs } }
    let next := { x with held := rest }
    (fieldAt e 0 1 = 2 → x.active = true → exec (.arm t h q) s0 = put next [record 0x0011 0]) ∧
    (fieldAt e 0 1 = 3 → x.active = true →
      (x.shadow = none → exec (.rearm t h q) s0 = put { next with shadow := some e } []) ∧
      (x.shadow ≠ none → exec (.rearm t h q) s0 = put next [record 0x0040 0])) ∧
    (fieldAt e 0 1 = 4 → (∀ i, (1 ≤ i ∧ i < 4) ∨ (8 ≤ i ∧ i < e.length) → fieldAt e i 1 = 0) →
      (x.active = false → exec (.stop t q) s0 = put next [record 0 0]) ∧
      (x.active = true → exec (.stop t q) s0 = put { next with stopped := true, stops := x.stops ++ [(fieldAt e 4 4, false)] } [])) ∧
    (∀ st, x.active = true → x.running < c.limit → x.ended = some st → x.endedAt < s.time → x.shadow = none →
      (∀ e' ∈ x.held, fieldAt e' 0 1 ≠ 3) → x.stopped = true ∨ (st ≠ 0 ∧ st ≠ 1) →
      exec (.persistentNextRun t h q) s0 =
        put { x with active := false, ended := none, stopped := false, stops := [], left := [] }
          (x.stops.map fun st => entryRecord s q.val st.1 st.2 0 0))

/-! ## Administrative commands -/

/-- ENABLE makes a DISABLED queue ENABLED at its base with zero counts; DISABLE and QUEUE_RESET make a queue DISABLED, the entries read and
the shadow of a submission queue completing with CONTEXT_RESET; each answers OK, and the queue as it stood is kept for the mc (R304).
Clauses that rest on the model's own choices or readings: assumption 11. -/
def Obligations.QueueCommandsEnableAndDisable : Prop :=
  ∀ (s0 : State) (t : Mc) (p : Fin 16) (e : List Byte) (rest : List (List Byte)),
    let s := atTime s0 t
    let q := fieldAt e 16 2
    let base := fieldAt e 24 8
    let sqs := popAdmin s.q.sqs p.val
    let zero := fun lo hi => ∀ i, lo ≤ i → i < hi → fieldAt e i 1 = 0
    let fits := fun bytes => base % 4096 = 0 ∧ base + bytes ≤ 0x0800_0000_0000
    let okSq := fun (x : SubQueue) sqs (rs : List PendingRec) => Host.Outcome.next (φ := Fault) (ρ := Refusal) { s with
      q := { s.q with sqs := sqs, oldSqs := keptSqs s x, records := joinRecords s.q.records (rs ++ [adminAnswer s.time p.val e 0 0 0]) } }
    let okCq := fun (x : CompQueue) cqs => Host.Outcome.next (φ := Fault) (ρ := Refusal) { s with
      q := { s.q with sqs := sqs, cqs := cqs, oldCqs := keptCqs s x
                      records := joinRecords s.q.records [adminAnswer s.time p.val e 0 0 0] } }
    let offSq := fun (y : SubQueue) =>
      { y with st := .disabled, held := [], shadow := none, stopped := y.stopped || y.active : SubQueue }
    let gone := fun (x : SubQueue) => (x.held ++ x.shadow.toList).map fun e' =>
      entryRecord s q (fieldAt e' 4 4) (decide (fieldAt e' 1 1 / 2 % 2 = 1)) 0x0031 0
    (∀ x, AdminEntry s p 0x0001 e rest → zero 18 24 → zero 32 64 → sqOwner s q = some p.val → getSq s q = some x → x.st = .disabled →
      fits (sqDepth s q * 64) → exec (.sqEnable t p) s0 =
        okSq x (sqs.map fun y => if y.qid == q then { y with st := .enabled, base := base, tail := 0, head := 0, held := [] } else y)
          []) ∧
    (∀ x, AdminEntry s p 0x0003 e rest → zero 18 24 → zero 32 64 → cqOwner s q = some p.val → getCq s q = some x → x.st = .disabled →
      fits (cqDepth s q * 32) → exec (.cqEnable t p) s0 = okCq x
        (s.q.cqs.map fun y => if y.qid == q then { y with st := .enabled, base := base, count := 0, head := 0, unsignalled := 0 }
          else y)) ∧
    (∀ x, AdminEntry s p 0x0002 e rest → zero 18 64 → sqOwner s q = some p.val → 16 ≤ q → getSq s q = some x → x.st = .enabled →
      exec (.sqDisable t p) s0 = okSq x (sqs.map fun y => if y.qid == q then offSq y else y) (gone x)) ∧
    (∀ x, AdminEntry s p 0x0004 e rest → zero 18 64 → cqOwner s q = some p.val → 16 ≤ q → getCq s q = some x → x.st ≠ .error →
      exec (.cqDisable t p) s0 = okCq x (s.q.cqs.map fun y => if y.qid == q then { y with st := .disabled } else y)) ∧
    (∀ x, AdminEntry s p 0x0005 e rest → zero 18 64 → sqOwner s q = some p.val → 16 ≤ q → getSq s q = some x →
      exec (.queueReset t p) s0 = okSq x (sqs.map fun y => if y.qid == q then offSq y else y) (gone x)) ∧
    (∀ x, AdminEntry s p 0x0005 e rest → fieldAt e 18 1 = 1 → zero 19 64 → cqOwner s q = some p.val → 16 ≤ q → getCq s q = some x →
      exec (.queueReset t p) s0 = okCq x (s.q.cqs.map fun y => if y.qid == q then { y with st := .disabled } else y))

/-- An admin command whose checks fail answers with the failing check's status and detail, and has none of its effects: a reserved operand
byte, a DISABLED queue of another partition, an issuer other than partition 0, a mover in maintenance configuration. Clauses that rest on
the model's own choices or readings: assumptions 11, 36 and 69. -/
def Obligations.RefusedAdminCommandsHaveNoEffect : Prop :=
  ∀ (s0 : State) (t : Mc) (p : Fin 16) (e : List Byte) (rest : List (List Byte)) (env : StartEnv) (done : Option Nat) (b : Bool),
    let s := atTime s0 t
    running s = true → (∃ q, getSq s p.val = some q ∧ q.st = .enabled ∧ q.held = e :: rest) → (∀ o ∈ s.q.oldSqs, o.2.qid ≠ p.val) →
    s.halfReset.get (homePort s p.val) = false → adminBusy s p.val < 16 →
    let cmd := fieldAt e 8 2
    let refused := fun status detail : Nat => Host.Outcome.next (φ := Fault) (ρ := Refusal) { s with
      q := { s.q with sqs := popAdmin s.q.sqs p.val
                      records := joinRecords s.q.records [adminAnswer s.time p.val e status detail 0] } }
    (∀ x ∈ [(0x0001, Instr.sqEnable t p), (0x0002, .sqDisable t p), (0x0003, .cqEnable t p), (0x0004, .cqDisable t p),
            (0x0005, .queueReset t p), (0x0030, .partnerUnfence t p), (0x0040, .ledgerSeal t p)],
      cmd = x.1 → s.status.maint = true → exec x.2 s0 = refused 0x0011 0x4005) ∧
    ((∀ x ∈ s.q.records, x.flash = none) →
      ∀ x ∈ [(0x0050, Instr.flashWrite t p done), (0x0051, .flashVerify t p b), (0x0052, .reload t p env), (0x0060, .warmReset t p env)],
        cmd = x.1 → p ≠ 0 → (s.status.maint = false ∨ x.1 ≠ 0x0060) → exec x.2 s0 = refused 0x0021 0x4006) ∧
    (∀ x ∈ [(0x0001, Instr.sqEnable t p), (0x0003, .cqEnable t p)],
      cmd = x.1 → s.status.maint = false → fieldAt e 40 1 ≠ 0 → exec x.2 s0 = refused 0x0011 0x4000) ∧
    (∀ x, cmd = 0x0001 → s.status.maint = false → (∀ i, (18 ≤ i ∧ i < 24) ∨ (32 ≤ i ∧ i < 64) → fieldAt e i 1 = 0) →
      sqOwner s (fieldAt e 16 2) ≠ some p.val → getSq s (fieldAt e 16 2) = some x → x.st = .disabled → fieldAt e 24 8 % 4096 = 0 →
      fieldAt e 24 8 + sqDepth s (fieldAt e 16 2) * 64 ≤ 0x0800_0000_0000 → exec (.sqEnable t p) s0 = refused 0x0021 0x4006)

/-- CONTEXT_RESET: the context is RESETTING, its queues are DISABLED, its requests have ended, its counters are ABANDONED, and no byte of
memory changes, but where an ended request parks. When every record is written it is complete: the context is as after load, and its
counters have their initial values in a new generation. A half in half reset absorbs the reset of its context, whose record says QUENCHED.
Clauses that rest on the model's own choices or readings: assumptions 11, 22 and 59. -/
def Obligations.ContextResetRestoresTheContext : Prop :=
  ∀ (s0 : State) (t : Mc) (p : Fin 16) (e : List Byte) (rest : List (List Byte)) (ctx : Fin 256) (x : CtxState),
    let s := atTime s0 t
    s.power.cold = false →
    (AdminEntry s p 0x0010 e rest → fieldAt e 16 1 = ctx.val → ownsCtx s p.val ctx.val = true → fieldAt e 17 1 = 0 →
      (∀ i, 18 ≤ i → i < 64 → fieldAt e i 1 = 0) → ctxBusy s p.val ctx.val = false → s.halfReset.get (homeOfCtx s ctx.val) = true →
      exec (.contextReset t p) s0 = .next { s with q := { s.q with
        sqs := popAdmin s.q.sqs p.val, records := joinRecords s.q.records [adminAnswer s.time p.val e 0x0070 0 0] } }) ∧
    (AdminEntry s p 0x0010 e rest → fieldAt e 16 1 = ctx.val → ownsCtx s p.val ctx.val = true → fieldAt e 17 1 = 0 →
      (∀ i, 18 ≤ i → i < 64 → fieldAt e i 1 = 0) → ctxBusy s p.val ctx.val = false → s.halfReset.get (homeOfCtx s ctx.val) = false →
      OneRequestPerId s →
      ∃ u, exec (.contextReset t p) s0 = .next u ∧ (∀ y, getCtx u ctx.val = some y → y.st = .resetting ∧ y.resetProfile = 0) ∧
        (∀ q ∈ u.q.sqs, q.qid ∈ queuesOf s ctx.val → q.st = .disabled ∧ q.held = [] ∧ q.shadow = none) ∧
        (∀ r ∈ u.run.reqs, r.ctx = ctx.val → r.fin ≠ none) ∧
        (∀ d ∈ s.cfg.ctrs, d.owner = ctx.val → ∀ c, getCtr u d.ctr = some c → c.abandoned = true) ∧
        (∀ d ∈ u.ctr.ctrs, (∀ k ∈ s.cfg.ctrs, k.ctr = d.ctr → k.owner ≠ ctx.val) → getCtr u d.ctr = getCtr s d.ctr) ∧
        ((∀ q, cqFull s q = false) → u.mem = s.mem) ∧ u.cfg = s.cfg ∧ u.halfReset = s.halfReset) ∧
    (running s = true → getCtx s ctx.val = some x → x.st = .resetting → resetDone s ctx.val = true →
      ∃ u, exec (.contextResetComplete t ctx) s0 = .next u ∧
        (∀ y, getCtx u ctx.val = some y → (y.st = .loaded ∨ y.st = .quenched) ∧ y.ran = false ∧ y.late = [] ∧ y.lateCount = 0 ∧
          y.resetOp = none) ∧
        (∀ d ∈ s.cfg.ctrs, d.owner = ctx.val → (∀ k ∈ s.cfg.ctrs, k.ctr = d.ctr → k = d) →
          s.cfg.ctrs.Nodup → ∀ c, getCtr s d.ctr = some c → ∃ c', getCtr u d.ctr = some c' ∧ c'.value = d.initial ∧
            c'.gen = (c.gen + 1) % 2 ^ 32 ∧ c'.abandoned = false ∧ c'.sat = false) ∧
        (∀ r ∈ u.buf.rings, r.ctx = ctx.val → ringCfg s ctx.val r.ring ≠ none → r.claimed = 0 ∧ r.published = 0 ∧ r.acquired = 0 ∧
          r.released = 0) ∧
        u.mem = s.mem ∧ u.run = { s.run with reqs := u.run.reqs } ∧ u.cfg = s.cfg ∧
        u.run.reqs.map (fun r => { r with latched := none }) = s.run.reqs.map fun r => { r with latched := none }) ∧
    (running s = true → getCtx s ctx.val = some x → x.st ≠ .resetting ∨ resetDone s ctx.val = false →
      exec (.contextResetComplete t ctx) s0 = .next s)

/-! ## Segments and faults -/

/-- SEGMENT_CREATE fills the empty slot with the operands' segment; SEGMENT_DESTROY and INVALIDATE become a drain of the segment behind its
earlier ones, and a RELEASE frees a held range, however often it was held. Clauses that rest on the model's own choices or readings:
assumptions 19 and 37. -/
def Obligations.SegmentCommandsCreateAndDrain : Prop :=
  ∀ (s0 : State) (t : Mc) (p : Fin 16) (e : List Byte) (rest : List (List Byte)) (g : Segment),
    let s := atTime s0 t
    let ctx := fieldAt e 16 1
    let slot := fieldAt e 17 1
    let range := (fieldAt e 20 4, fieldAt e 24 4)
    let zero := fun lo hi => ∀ i, lo ≤ i → i < hi → fieldAt e i 1 = 0
    let entry := fun cmd => AdminEntry s p cmd e rest ∧ ownsCtx s p.val ctx = true ∧ ctxBusy s p.val ctx = false
    let q := { s.q with sqs := popAdmin s.q.sqs p.val }
    let done := { q with records := joinRecords s.q.records [adminAnswer s.time p.val e 0 0 0] }
    let drained := fun (act : DrainAct) (first count mode of : Nat) => Host.Outcome.next (φ := Fault) (ρ := Refusal) { s with
      q := { q with
        nextOp := s.q.nextOp + 1
        ops := s.q.ops ++ [{ id := s.q.nextOp, part := p.val, tag := fieldAt e 4 4, irq := decide (fieldAt e 1 1 / 2 % 2 = 1)
                             cmd := fieldAt e 8 2, ctx := ctx, slot := slot, first := first, count := of, mode := mode, left := []
                             status := 0, detail := 0 }] }
      seg := { s.seg with segs := withSegment s ctx slot fun x => startDrain { x with
        drains := x.drains ++
          [{ act := act, first := first, count := count, started := false, op := some s.q.nextOp, taken := s.time }] } } }
    let c := parseSeg (e.drop 16)
    (entry 0x0020 → segReserved (e.drop 16) = false → getSeg s ctx slot = none →
      segFails (segEnv s ctx) (s.seg.segs.map (·.cfg)) s.cfg.halves c = [] →
      c.ctx = ctx ∧ c.index = slot ∧ c.start = fieldAt e 24 8 ∧ c.length = fieldAt e 32 8 ∧ c.backing = fieldAt e 40 8 ∧
      exec (.segmentCreate t p) s0 = .next { s with q := done, seg := { s.seg with segs := s.seg.segs ++ [newSegment c false] } }) ∧
    (entry 0x0021 → zero 18 64 → getSeg s ctx slot = some g → isStaging s ctx slot = false → exec (.segmentDestroy t p) s0 =
      drained .destroy 0 (segBlocks g.cfg) 0 0) ∧
    (entry 0x0022 → zero 19 20 → zero 28 64 → getSeg s ctx slot = some g → range.2 ≠ 0 → range.1 + range.2 ≤ segBlocks g.cfg →
      (fieldAt e 18 1 < 2 → exec (.invalidate t p) s0 =
        drained (.invalidate (fieldAt e 18 1 == 1)) range.1 range.2 (fieldAt e 18 1) range.2) ∧
      (fieldAt e 18 1 = 2 → range ∈ g.holds → NothingHeld s → exec (.invalidate t p) s0 = .next { s with
        q := done
        seg := { s.seg with segs := withSegment s ctx slot fun x => { x with holds := x.holds.filter (· != range) } } }))

/-- A segment's front drain applies once the billets of the epoch before it are done: a destroyed segment leaves its slot, an invalidated
range is held when it asked so, and the operation answers OK. While a billet of the old epoch is in flight nothing happens. The drain waits
for the billets translated in the mc of its acceptance too (R349). Clauses that rest on the model's own choices or readings: assumptions 1
and 8. -/
def Obligations.DrainsApplyWhenQuiet : Prop :=
  ∀ (s0 : State) (t : Mc) (ctx : Fin 256) (slot : Fin 16) (g : Segment) (d : SegDrain) (ds : List SegDrain) (o : AdminOp),
    let from' := match (getSeg s0 ctx.val slot.val).bind fun g => g.drains.head? with
      | some d => max t (d.taken + 1)
      | none => t
    let s := whenReady s0 from' (quietNow ctx.val slot.val)
    running s = true → getSeg s ctx.val slot.val = some g → g.drains = d :: ds →
    let ended := { s.q with
      ops := s.q.ops.filter (·.id != o.id), records := joinRecords s.q.records [opAnswer s.time o 0 0] }
    let next := fun (x : Segment) => startDrain { x with drains := x.drains.drop 1 }
    (d.started = false ∨ inflightOf s g (!g.epoch) ≠ 0 →
      exec (.segmentDrainComplete t ctx slot) s0 = .next s) ∧
    (d.started = true → inflightOf s g (!g.epoch) = 0 → NothingHeld s → d.op = some o.id →
      getOp s o.id = some o → o.part < 16 →
      (∀ hold, d.act = .invalidate hold → exec (.segmentDrainComplete t ctx slot) s0 = .next { s with
        q := ended
        seg := { s.seg with segs := withSegment s ctx.val slot.val fun x =>
          if hold then { next x with holds := x.holds ++ [(d.first, d.count)] } else next x } }) ∧
      (d.act = .destroy → (∀ f ∈ s.seg.faults, ¬ (f.ctx = ctx.val ∧ f.slot = slot.val)) →
        (∀ r ∈ s.run.reqs, r.ctx = ctx.val → ∀ b, r.wait ≠ some (.absent slot.val b)) →
        ∃ u, exec (.segmentDrainComplete t ctx slot) s0 = .next u ∧ getSeg u ctx.val slot.val = none ∧
          (∀ c i, (c, i) ≠ (ctx.val, slot.val) → getSeg u c i = getSeg s c i) ∧
          u = { s with q := ended, seg := { s.seg with segs := u.seg.segs, hot := u.seg.hot } }))

/-- FAULT_RESOLVE with action 1 makes an ABSENT block IN_HOST and its fault outstanding no more, with action 2 promotes an IN_HOST block
through a drain; a finished copy holds the block's bytes with their marks where the block now lies. A block that changes its state keeps
what it was for the reads of that mc (R542). Stated for one block, with nothing else waiting and no half in half reset. Clauses that rest
on the model's own choices or readings: assumptions 19 and 37. -/
def Obligations.FaultsResolveAndBlocksMove : Prop :=
  (∀ (s0 : State) (t : Mc) (p : Fin 16) (e : List Byte) (rest : List (List Byte)) (g : Segment) (ctx : Fin 256) (slot : Fin 16)
     (b : Nat),
     let s := atTime s0 t
     running s = true → getSeg s ctx.val slot.val = some g → g.cfg.kind = .migratable → NothingHeld s → s.q.ops = [] →
     (∀ x ∈ s.seg.segs, x.cfg.ctx = ctx.val → x.cfg.index = slot.val → x = g) →
     let q := { s.q with sqs := popAdmin s.q.sqs p.val, nextOp := s.q.nextOp + 1 }
     AdminEntry s p 0x0023 e rest → ownsCtx s p.val ctx.val = true → fieldAt e 16 1 = ctx.val → fieldAt e 17 1 = slot.val →
     fieldAt e 19 1 = 0 → (∀ i, 28 ≤ i → i < 64 → fieldAt e i 1 = 0) → fieldAt e 20 4 = b → fieldAt e 24 4 = 1 →
     b < segBlocks g.cfg →
     (fieldAt e 18 1 = 1 → (blockOf g b).st = .absent → exec (.faultResolve t p) s0 = .next { s with
       q := { q with records := joinRecords s.q.records [adminAnswer s.time p.val e 0 0 0] }
       seg := { s.seg with
         segs := withSegment s ctx.val slot.val (changeSeg s.time fun g => setBlock g { blockOf g b with st := .inHost })
         faults := s.seg.faults.filter fun o => !(o.ctx == ctx.val && o.slot == slot.val && o.block == b) } }) ∧
     (fieldAt e 18 1 = 2 → (blockOf g b).st = .inHost → ∃ u, exec (.faultResolve t p) s0 = .next u ∧
       u.q.records = s.q.records ∧ (∃ o, u.q.ops = [o] ∧ o.left = [b] ∧ o.tag = fieldAt e 4 4) ∧
       u.seg.segs = withSegment s ctx.val slot.val (fun x => startDrain { x with drains := x.drains ++
         [{ act := .promote false, first := b, count := 1, started := false, op := some s.q.nextOp, taken := s.time }] }) ∧
       u = { s with q := { q with ops := u.q.ops }, seg := { s.seg with segs := u.seg.segs } })) ∧
  (∀ (s0 : State) (t : Mc) (g : Segment) (ctx : Fin 256) (slot : Fin 16) (b : Nat),
     let s := whenReady s0 t fun x => !otherOpen x (.copy ctx.val slot.val b)
     running s = true → getSeg s ctx.val slot.val = some g → g.cfg.kind = .migratable → NothingHeld s → s.q.ops = [] →
     s.halfReset = ⟨false, false⟩ →
     let put := fun (x : Block) => withSegment s ctx.val slot.val (changeSeg s.time fun g => setBlock g x)
     let host := localOf g.cfg.backing + b * 0x20_0000
     let frame := fun f => g.cfg.pool + f * 0x20_0000
     (∀ f, (blockOf g b).st = .movingIn f → (memReadS s.mem host 0x20_0000).any Prod.snd = false →
       exec (.promotionCopyDone t ctx slot b) s0 = .next { s with
         mem := memWrite s.mem (frame f) (memReadS s.mem host 0x20_0000)
         seg := { s.seg with segs := put { blockOf g b with st := .inFrame f, written := false } } }) ∧
     (∀ f c, (blockOf g b).st = .movingOut f c → (memReadS s.mem (frame f) 0x20_0000).any Prod.snd = false →
       exec (.promotionCopyDone t ctx slot b) s0 = .next { s with
         mem := memWrite s.mem host (memReadS s.mem (frame f) 0x20_0000)
         seg := { s.seg with segs := put { blockOf g b with st := .inHost, written := false } } }))

/-- The open batch closes a window after its first record: its records are written in their order to the fault queue, one message follows,
and the next batch opens. A fault's resolution timeout ends the requests that wait for it with FAULT_UNRESOLVED. Clauses that rest on the
model's own choices or readings: assumptions 38 and 59. -/
def Obligations.FaultBatchesCloseAndFaultsTimeOut : Prop :=
  (∀ (s0 : State) (t : Mc) (p : Fin 16) (q : FaultQ) (c : PartCfg) (r : FaultRec) (rs : List FaultRec),
     running s0 = true → getFaultQ s0 p.val = q → partCfg s0 p.val = some c → q.openB = r :: rs →
     let s := atTime s0 (max t (r.time + mcOf c.batchWindow))
     s.seg.faultQs.find? (·.part == p.val) = some q → (∀ x ∈ s.seg.faultQs, x.part = p.val → x = q) →
     q.closedB = [] → q.waiting = [] → q.enabled = true → q.openB.length ≤ faultRoom q → q.openB.length < 64 →
     q.base + 2 ^ q.log * 32 ≤ 0x0800_0000_0000 → s.mem.wf →
     let place := fun i => hostAddr p.val (q.base + (q.records + i) % 2 ^ q.log * 32)
     ∃ u, exec (.faultBatchClose t p) s0 = .next u ∧
       getFaultQ u p.val = { q with
         openB := [], records := (q.records + (rs.length + 1)) % 2 ^ 32, batchNo := q.batchNo + 1 } ∧
       u.out.msix = (p.val, q.vector) :: s.out.msix ∧
       (∀ i x, q.openB[i]? = some x → memRead u.mem (place i) 32 = faultBytes x (decide ((q.records + i) / 2 ^ q.log % 2 = 0))) ∧
       (∀ a, (∀ i, i < q.openB.length → a < place i ∨ place i + 32 ≤ a) → memByte u.mem a = memByte s.mem a) ∧
       (∀ k, k ≠ p.val → getFaultQ u k = getFaultQ s k) ∧
       u = { s with mem := u.mem, seg := { s.seg with faultQs := u.seg.faultQs, faults := u.seg.faults }, out := u.out }) ∧
  (∀ (s0 : State) (t : Mc) (c : PartCfg) (ctx : Fin 256) (slot : Fin 16) (b : Nat) (o : Outstanding),
     running s0 = true → faultOn s0 ctx.val slot.val b = some o → partCfg s0 (partOfCtx s0 ctx.val) = some c → o.recorded = true →
     c.resTimeout ≠ 0 →
     let s := atTime s0 (max t (o.created + mcOf c.resTimeout))
     OneRequestPerId s →
     ∃ u, exec (.faultResolutionTimeout t ctx slot b) s0 = .next u ∧ u.time = s.time ∧
       faultOn u ctx.val slot.val b = none ∧
       (∀ x ∈ s.run.reqs, x.ctx = ctx.val → x.fin = none → x.wait = some (.absent slot.val b) →
         ∃ y ∈ u.run.reqs, y.id = x.id ∧ y.fin = some (0x0022, x.pc % 8192)) ∧
       u.seg.segs = s.seg.segs ∧ ((∀ q, cqFull s q = false) → u.mem = s.mem))

/-! ## The ledger, the flash and partners -/

/-- PARTNER_UNFENCE makes a Fenced record Absent without violations, LEDGER_SEAL waits for its seal, FLASH_WRITE programs the named sectors
from host memory and no other byte, and FLASH_VERIFY answers with the image's packed size or its first failing check. Until its record is
written a FLASH_WRITE is in progress, and no other of these commands starts. Clauses that rest on the model's own choices or readings:
assumptions 19, 20, 41 and 69. -/
def Obligations.MaintenanceCommandsAnswer : Prop :=
  ∀ (s0 : State) (t : Mc) (p : Fin 16) (e : List Byte) (rest : List (List Byte)) (env : StartEnv),
    let s := atTime s0 t
    let zero := fun lo hi => ∀ i, lo ≤ i → i < hi → fieldAt e i 1 = 0
    let q := { s.q with sqs := popAdmin s.q.sqs p.val }
    let answer' := fun status detail bytes => adminAnswer s.time p.val e status detail bytes
    let ended := fun (r : PendingRec) => { q with records := joinRecords s.q.records [r] }
    let num := fieldAt e 16 2
    let off := fieldAt e 16 4
    let len := fieldAt e 20 4
    let src := fieldAt e 24 8
    let idle := ∀ x ∈ s.q.records, x.flash = none
    (∀ c x fq, AdminEntry s p 0x0030 e rest → zero 18 64 → s.fuses.grade ≠ .c → partnerCfg s num = some c → c.owner = p.val →
      getPartner s num = some x → x.st = .fenced → BatchOpen s p.val fq →
      exec (.partnerUnfence t p) s0 = .next { s with
        q := ended (answer' 0 0 0)
        seg := withEvent s p.val (eventRec 0x000D 0 true num 0x40 s.time)
        rem := { s.rem with
          inbound := s.rem.inbound.filter (·.num != num)
          partners := s.rem.partners.map fun y =>
            if y.num == num then { y with violations := 0, violTimes := [], st := .absent } else y } }) ∧
    (AdminEntry s p 0x0040 e rest → zero 16 64 → (getLedger s p.val).enabled = true →
      exec (.ledgerSeal t p) s0 = .next { s with
        q := q
        ledgers := s.ledgers.map fun l => if l.part == p.val then
          { l with seals := l.seals ++ [(fieldAt e 4 4, decide (fieldAt e 1 1 / 2 % 2 = 1))] } else l }) ∧
    (AdminEntry s p 0x0050 e rest → idle → zero 32 64 → off % 4096 = 0 → len % 4096 = 0 → 4096 ≤ len → off + len ≤ 4194304 →
      src % 4096 = 0 → src + len ≤ 0x0800_0000_0000 → flashWf s →
      ∀ done : Option Nat, ∃ u, exec (.flashWrite t p done) s0 = .next u ∧
        (∀ a, a < off ∨ off + len ≤ a → flashRead u a 1 = flashRead s a 1) ∧
        (done = none → flashRead u off len = hostRead s p.val src len ∧
          u.q = ended { answer' 0 0 0 with flash := some (off, len) }) ∧
        (∀ k, done = some k → k ≤ len → flashRead u off k = hostRead s p.val src k ∧
          u.q = ended { answer' 0x0011 0x4041 0 with flash := some (off, len) }) ∧
        u = { s with q := u.q, flash := u.flash }) ∧
    (AdminEntry s p 0x0051 e rest → idle → zero 16 64 → ∀ answers : Bool,
      (∀ c, checkImage s answers = .valid c →
        exec (.flashVerify t p answers) s0 = .next { s with q := ended (answer' 0 0 c.packed), status := { s.status with reason := 0 } }) ∧
      (∀ r, checkImage s answers = .fails r →
        exec (.flashVerify t p answers) s0 = .next { s with
          q := ended (answer' 0x0011 (0x4050 + r) 0), status := { s.status with reason := r } })) ∧
    (¬ idle → ∀ c ∈ [Instr.flashWrite t p none, .flashVerify t p true, .reload t p env, .warmReset t p env], exec c s0 = .next s)

/-- A partition's next ledger entry: a RESUME that is due, else a due SEAL, else the first closed entry, by mc, half and hauler. It is
written at the place of the queue's count with the chain's number, the next SEQ and PREV, and the digest of its bytes with PHASE 0 is the
next PREV. An entry counts from the mc in which it reaches the East ledger unit (R419). A REQUEST or INBOUND entry keeps the TIME of its
closing, and a SEAL or RESUME has none. An INBOUND entry's RSIGNALs take effect once it is written; a request whose last entry is written
names it in its record. Without room or without a chain nothing is written. Clauses that rest on the model's own choices or readings:
assumptions 20 and 42. -/
def Obligations.LedgerEntriesExtendTheChain : Prop :=
  ∀ (s0 : State) (t : Mc) (p : Fin 16) (l : LedgerSt),
    let s := whenReady s0 t fun x => (getLedger x p.val).waiting.isEmpty || entryDue x.time (getLedger x p.val)
    running s = true → s.ledgers.find? (·.part == p.val) = some l → s.rem.inbound = [] →
    let due := l.resume ≠ none ∨ l.seals ≠ [] ∨ 4096 ≤ l.sinceSeal ∨ ∃ e ∈ closedEntries l, reachTime e ≤ s.time
    let takes := l.enabled = true ∧ l.chained = true ∧ (l.records + 2 ^ 32 - l.head) % 2 ^ 32 < 2 ^ l.log
    (¬ due ∨ ¬ takes → exec (.ledgerEntryClose t p) s0 = .next s) ∧
    (due → takes → ∃ u, exec (.ledgerEntryClose t p) s0 = .next u ∧ (getLedger u p.val).seq = l.seq + 1 ∧
      (getLedger u p.val).records = (l.records + 1) % 2 ^ 32 ∧ (getLedger u p.val).chain = l.chain) ∧
    (takes → NothingHeldUp l → s.mem.wf → (∀ x ∈ s.ledgers, x.part = p.val → x = l) → l.prev.length = 32 →
      l.base + 2 ^ l.log * 256 ≤ 0x0800_0000_0000 →
      let place := hostAddr p.val (l.base + l.records % 2 ^ l.log * 256)
      let written := fun (u : State) (kind flags time : Nat) =>
        let b := memRead u.mem place 256
        let phase := if l.records / 2 ^ l.log % 2 = 0 then 128 else 0
        let x := getLedger u p.val
        fieldAt b 0 1 = kind ∧ fieldAt b 2 1 = flags + phase ∧ fieldAt b 8 8 = (l.seq + 1) % 2 ^ 64 ∧ fieldAt b 16 4 = l.chain % 2 ^ 32 ∧
          (b.drop 32).take 32 = l.prev ∧ fieldAt b 240 6 = time ∧
          x.prev = sha256 (entryPhase b false) ∧ x.seq = l.seq + 1 ∧ x.records = (l.records + 1) % 2 ^ 32 ∧
          x.chain = l.chain ∧ x.head = l.head ∧
          (∀ a, a < place ∨ place + 256 ≤ a → memByte u.mem a = memByte s.mem a) ∧
          (∀ k, k ≠ p.val → getLedger u k = getLedger s k)
      (∀ n, l.resume = some n → ∃ u, exec (.ledgerEntryClose t p) s0 = .next u ∧ written u 5 0 0 ∧
        fieldAt (memRead u.mem place 256) 64 4 = n % 2 ^ 32 ∧ (getLedger u p.val).resume = none ∧
        u = { s with mem := u.mem, ledgers := u.ledgers }) ∧
      (l.resume = none → l.seals = [] → 4096 ≤ l.sinceSeal → ∃ u, exec (.ledgerEntryClose t p) s0 = .next u ∧
        (getLedger u p.val).sealSeq = l.seq + 1 ∧ (getLedger u p.val).sinceSeal = 0 ∧ (getLedger u p.val).seq = l.seq + 1 ∧
        u.out.msix = (p.val, l.vector) :: s.out.msix ∧
        u = { s with mem := u.mem, ledgers := u.ledgers, out := u.out, drawn := s.drawn + 1 }) ∧
      (∀ e, l.resume = none → l.seals = [] → l.sinceSeal < 4096 →
        firstClosed s.time l = some e → e.bytes.length = 256 → e.kind = 1 ∨ e.kind = 2 →
        fieldAt e.bytes 0 1 = e.kind → fieldAt e.bytes 2 1 < 128 →
        (e.req = none → ∃ u, exec (.ledgerEntryClose t p) s0 = .next u ∧
          written u e.kind (fieldAt e.bytes 2 1) (fieldAt e.bytes 240 6) ∧
          (memRead u.mem place 256).drop 64 = e.bytes.drop 64 ∧
          (getLedger u p.val).waiting = dropFirst (fun x => x == e) l.waiting ∧ (getLedger u p.val).sinceSeal = l.sinceSeal + 1 ∧
          (let sent := e.release.foldl (fun s x => sendUpdate s x.1 x.2.1 x.2.2.1 x.2.2.2 (s.time + releaseDelay x.1 x.2.2.2)) s
           u = { sent with mem := u.mem, ledgers := u.ledgers })) ∧
        (∀ id r, e.req = some id → getReq s id = some r → r.fin = none → ∃ u, exec (.ledgerEntryClose t p) s0 = .next u ∧
          written u e.kind (fieldAt e.bytes 2 1) (fieldAt e.bytes 240 6) ∧
          (memRead u.mem place 256).drop 64 = e.bytes.drop 64 ∧
          u = { setReq s { r with lastSeq := some (l.seq + 1)
                                  wait := if r.wait = some .entry ∧ r.hauler.isSome then none else r.wait } with mem := u.mem, ledgers := u.ledgers })))

/-! ## Remote class -/

/-- A well-formed request of a partner that is Active or Slow is carried out once on its export's target and answered on the path on which
it came: RREAD with the bytes, RWRITE after writing them, RATOMIC with the old value, RSIGNAL after the counter's update is on its way,
RREDUCE after its chunk is stored in the reduction's buffer, beside whose contribution only the accumulator may change. Its lines in HBM
go to the memory ports as lines of the remote class (R306). Clauses that rest on the model's own choices or readings: assumptions 8, 13,
23, 77 and 80. -/
def Obligations.RequestsAreCarriedOutAndAnswered : Prop :=
  ∀ (s0 : State) (t : Mc) (f : RxFrame) (fr : Frame) (c : PartnerCfg) (p : Partner) (path : Nat) (e : ExportCfg) (q : Piece),
    let s := hostAt s0 t f.half
    Received s f fr c p path → Exported s c fr e → ledgered s e.owner = false →
    let off := fr.addr % 2 ^ 38
    let answered := fun (u : State) (status : Nat) (data : List SByte) => Host.Outcome.next (φ := Fault) (ρ := Refusal) { u with
      rem := { u.rem with
        nextIn := s.rem.nextIn + 1
        partners := if isWriteClass fr.ty then
            s.rem.partners.map fun y => if y.num == c.num then keepResponse fr.seq (responseBytes s c p fr status data) y else y
          else s.rem.partners }
      out := { s.out with frames := (c.num, path, responseBytes s c p fr status data) :: s.out.frames } }
    let queued := fun (k : Arbiters → Prop) => ∃ a, a.ports = s.arb.ports ∧ (inHbm s q = false → a = s.arb) ∧
      (inHbm s q = true → ∃ ls, a.others = s.arb.others ++ ls ∧ ls ≠ [] ∧
        ∀ l ∈ ls, l.who = .partner c.num ∧ l.prio = e.priority ∧ l.line.cls = .remote) ∧ k a
    let put := fun (m : Mem) (bs : List SByte) =>
      if inStockpile q.addr then bankWrite m s.time Writer.remote.rank q.addr bs else memWrite m q.addr bs
    (∀ va len, e.target = .memory va len → PlainPiece s q → 0 < q.len →
      (fr.ty = 1 → translate s e.owner [(va + off, fieldAt fr.arg 0 4, .r)] = .ok [q] → queued fun a =>
        exec (.rread t f) s0 = answered { s with arb := a } 0 (memReadS s.mem q.addr q.len)) ∧
      (fr.ty = 2 → translate s e.owner [(va + off, fr.data.length, .w)] = .ok [q] → queued fun a =>
        exec (.rwrite t f) s0 =
          answered { s with arb := a, mem := put s.mem ((markPayload fr.spoil fr.data).take q.len) } 0 []) ∧
      (fr.ty = 3 → translate s e.owner [(va + off, q.len, .a)] = .ok [q] → q.len = (if bit (fieldAt fr.arg 1 1) 0 then 8 else 4) →
        let old := memReadS s.mem q.addr q.len
        let mark := old.any Prod.snd
        let new := atomicValue (fieldAt fr.arg 0 1) q.len (bit (fieldAt fr.arg 1 1) 1) (leVal (old.map Prod.fst))
          (fieldAt fr.data 0 8 % 2 ^ (8 * q.len)) (fieldAt fr.data 8 8 % 2 ^ (8 * q.len))
        queued fun a => exec (.ratomic t f) s0 = answered { s with arb := a, mem := match new with
          | some v => memWrite (bankSettle s.mem q.addr q.len) q.addr ((leBytes q.len v).map fun b => (b, mark))
          | none => s.mem } 0 (old ++ (zeros (8 - q.len)).map fun b => (b, mark)))) ∧
    (∀ vid ctr a b, e.target = .counter vid → fr.ty = 5 → vEntry s e.owner vid = .loc ctr a b → s.rem.inStreams = [] →
      (∀ l ∈ s.ledgers, l.part = partOfCtx s e.owner → ∀ w ∈ l.waiting, w.inbound ≠ some (c.num, e.owner)) →
      s.halfReset = ⟨false, false⟩ →
      exec (.rsignal t f) s0 = answered { s with ctr := { s.ctr with updates := s.ctr.updates ++
        [{ ctr := ctr, amount := fieldAt fr.arg 0 4, gen := genOf s ctr, half := f.half, due := s.time + releaseDelay ctr f.half }] } }
        0 []) ∧
    (∀ red d, e.target = .reduction red → fr.ty = 4 → redCfg s e.owner red = some d → fieldAt fr.arg 4 2 < d.members →
      fieldAt fr.arg 6 1 = d.fmt → fieldAt fr.arg 7 1 = profileOf s d.ctx →
      let x := getEpoch s d.ctx d.red
      let y := { x with
        isOpen := true, opened := if x.isOpen then x.opened else s.time
        bound := x.bound ++ [(fieldAt fr.arg 4 2, c.package)]
        chunks := x.chunks ++ [(fieldAt fr.arg 4 2, off, fr.data.length)] }
      let place := redBuffer s d (fieldAt fr.arg 4 2 * d.length + off)
      let acc := redBuffer s d (d.members * d.length)
      let epochs := (s.rem.epochs.filter fun z => !(z.ctx == x.ctx && z.red == x.red)) ++ [y]
      fieldAt fr.arg 0 4 = x.e → x.ending = none → (∀ b ∈ x.bound, b.1 ≠ fieldAt fr.arg 4 2) →
      (∀ k ∈ x.chunks, k.1 ≠ fieldAt fr.arg 4 2) → allRanks d y = false → inStockpile place = true → unreachable s place = false →
      ∃ m n, exec (.rreduce t f) s0 = answered { s with mem := m, drawn := n, rem := { s.rem with epochs := epochs } } 0 [] ∧
        (leadingRanks d y = leadingRanks d x →
          m = bankWrite s.mem s.time Writer.remote.rank place (markPayload fr.spoil fr.data) ∧ n = s.drawn) ∧
        (s.mem.wf → ∀ a, a < place ∨ place + fr.data.length ≤ a → a < acc ∨ acc + 8 * (d.length / (fmtBits d.fmt / 8)) ≤ a →
          offRecent s a → memByte m a = memByte s.mem a))

/-- What a partner may not ask, and what it asks again: a frame of no record is counted and dropped, as is one of a Fenced record; an Absent
or Training record's requests are dropped; a request that was applied is answered with its retained response and not carried out again.
Clauses that rest on the model's own choices or readings: assumptions 13 and 55. -/
def Obligations.UnheardRequestsAreDropped : Prop :=
  ∀ (s0 : State) (t : Mc) (f : RxFrame),
    let s := hostAt s0 t f.half
    remoteOn s f.half = true → s.power.glow.get f.half = false → RelaysOpen s →
    let src := fieldAt f.bytes 2 2 % 2 ^ 14
    ∀ x ∈ [(1, Instr.rread t f), (2, .rwrite t f), (3, .ratomic t f), (4, .rreduce t f), (5, .rsignal t f)],
      frameType f.bytes = x.1 →
      (recordOf s src = none → exec x.2 s0 = .next { s with rem := { s.rem with
        unknownSrc := s.rem.unknownSrc.set f.half (min 0xFFFFFFFF (s.rem.unknownSrc.get f.half + 1)) } }) ∧
      (∀ c p, recordOf s src = some c → getPartner s c.num = some p →
        (p.st = .fenced → exec x.2 s0 = .next { s with rem := { s.rem with partners := s.rem.partners.map fun y =>
          if y.num == c.num then { y with fencedDrops := min 0xFFFF (y.fencedDrops + 1) } else y } }) ∧
        (p.st = .absent ∨ p.st = .training → exec x.2 s0 = .next s) ∧
        (∀ fr path bs, isUp p = true → parseFrame f.bytes = some fr → arrivalPath c f = some path → malformed s c p f fr = false →
          isWriteClass fr.ty = true → seqPlace p fr.seq = .below → (p.retained.find? fun r => r.1 == fr.seq) = some (fr.seq, bs) →
          exec x.2 s0 = .next { s with out := { s.out with frames := (c.num, path, bs) :: s.out.frames } }))

/-- Partner records follow their links and HELLOs: an Absent record enters Training with a HELLO when a link of a path comes up, becomes
Active with the partner's values on a valid HELLO within 10 ms, and becomes Absent when Training takes 10 ms, when every path has been down
for 100 µs, or when the partner's MAXREV is below 2. A HELLO whose CRC fails is not acted on, and one of a Fenced record is counted. While
requests wait on an Absent record it sends ordered sets, 10 µs apart, until the limit. Clauses that rest on the model's own choices or
readings: assumptions 18 and 23. -/
def Obligations.PartnersTrainAndDrop : Prop :=
  (∀ (s0 : State) (t : Mc) (num : Fin 1088) (c : PartnerCfg) (p : Partner) (h : Half) (k : LinkPort) (f : RxFrame) (fr : Frame)
     (path : Nat),
     let s := atTime s0 t
     let m := hostAt s0 t f.half
     running s = true → s.fuses.grade ≠ .c → s.status.maint = false → s.halfReset = ⟨false, false⟩ → m.power.glow.get f.half = false →
     RelaysOpen s → partnerCfg s num.val = some c → getPartner s num.val = some p → (∀ y ∈ s.rem.partners, y.num = num.val → y = p) →
     (∀ a ∈ s.cfg.partners, ∀ b ∈ s.cfg.partners, a.num = b.num → a = b) → s.cfg.partners.Nodup →
     let now := fun u => getPartner u num.val
     (∃ u, exec (.linkUp t h k) s0 = .next u ∧ (h, k) ∈ u.rem.links ∧
       (p.st = .absent → (pathIndex c h k).isSome = true → ∃ y i, now u = some y ∧ y.st = .training ∧ y.trainAt = s.time ∧
         (num.val, i, helloFrame s c) ∈ u.out.frames) ∧
       (p.st ≠ .absent ∨ pathIndex c h k = none → now u = some p) ∧ u.run = s.run ∧ u.rem.outReqs = s.rem.outReqs) ∧
     ((h, k) ∈ s.rem.links → ∃ u, exec (.linkDown t h k) s0 = .next u ∧ u.rem.links = s.rem.links.filter (· != (h, k)) ∧
       (∃ y, now u = some y ∧ y = { p with downAt := y.downAt } ∧ (y.downAt = p.downAt ∨ y.downAt = s.time)) ∧
       u = { s with rem := { s.rem with links := u.rem.links, partners := u.rem.partners } }) ∧
     (frameType f.bytes = 0xF0 → helloRecord s f = some c →
       (p.st = .fenced → exec (.hello t f) s0 = .next { m with rem := { m.rem with partners := s.rem.partners.map fun y =>
         if y.num == num.val then { y with fencedDrops := min 0xFFFF (y.fencedDrops + 1) } else y } }) ∧
       (p.st ≠ .fenced → parseFrame f.bytes = none → exec (.hello t f) s0 = .next m)) ∧
     (parseFrame f.bytes = some fr → frameType f.bytes = 0xF0 → helloRecord s f = some c → arrivalPath c f = some path →
       p.st = .training → s.time ≤ p.trainAt + 21000000 → helloForm s c fr = true →
       (fieldAt fr.data 0 2 = c.package → 2 ≤ fieldAt fr.data 2 1 → s.rem.outReqs = [] →
         ∃ u, exec (.hello t f) s0 = .next u ∧ (∃ y, now u = some y ∧ y.st = .active ∧ y.rev = min 3 (fieldAt fr.data 2 1) ∧
           y.profiles = fieldAt fr.data 3 1 ∧ y.gen = fieldAt fr.data 4 4 ∧ y.boot = some (fieldAt fr.data 8 4) ∧
           y.credit = fieldAt fr.data 12 2 ∧ y.txSeq = 1 ∧ y.rxH = 0 ∧ y.rxAbove = [] ∧ y.retained = []) ∧
           (∀ j, j ≠ num.val → getPartner u j = getPartner s j) ∧ u.run = s.run) ∧
       (fieldAt fr.data 0 2 ≠ c.package ∨ fieldAt fr.data 2 1 < 2 → (∀ o ∈ s.rem.outReqs, o.num = num.val → o.waiting = false) →
         ∃ u, exec (.hello t f) s0 = .next u ∧ now u = some { p with st := .absent } ∧
           (∀ j, j ≠ num.val → getPartner u j = getPartner s j) ∧ u.rem.inbound = s.rem.inbound.filter (·.num != num.val) ∧
           u.rem.outReqs = s.rem.outReqs ∧ u.run = s.run))) ∧
  (∀ (s0 : State) (t : Mc) (num : Fin 1088) (c : PartnerCfg) (p0 p : Partner) (due : Mc),
     running s0 = true → partnerCfg s0 num.val = some c → getPartner s0 num.val = some p0 →
     let s := atTime s0 due
     getPartner s num.val = some p → (∀ y ∈ s.rem.partners, y.num = num.val → y = p) →
     (∀ o ∈ s.rem.outReqs, o.num = num.val → o.waiting = false ∧ o.wakeWait ≠ some true) →
     let put := fun (f : Partner → Partner) => { s.rem with partners := s.rem.partners.map fun y => if y.num == num.val then f y else y }
     let gone := fun (u : State) => u.time = s.time ∧ getPartner u num.val = some { p with st := .absent } ∧
       (∀ j, j ≠ num.val → getPartner u j = getPartner s j) ∧ u.rem.inbound = s.rem.inbound.filter (·.num != num.val) ∧
       u.rem.outReqs = s.rem.outReqs ∧ u.run = s.run
     (due = max t (p0.trainAt + 21000000) → p0.st = .training → ∃ u, exec (.trainingTimeout t num) s0 = .next u ∧ gone u) ∧
     (due = max t (p0.downAt + 210000) → isUp p0 = true → anyPathUp s0 c = false → s0.halfReset.get c.half = false →
       ∃ u, exec (.pathDown t num) s0 = .next u ∧ gone u) ∧
     (∀ limit w, due = max (max t s0.time) (p0.setAt + 21000) → c.wake = some limit → p0.st = .absent → p0.wakeUntil = some w → due < w →
       let count := fun (x : State) path => ((x.out.wakeSets.find? fun y => y.1 == num.val && y.2.1 == path).map (·.2.2)).getD 0
       ∃ u, exec (.wakeOrderedSet t num) s0 = .next u ∧
         (c.paths.Nodup → ∀ path ∈ c.paths, count u path = count s path + 1) ∧
         u = { s with rem := put fun y => { y with setAt := s.time }, out := { s.out with wakeSets := u.out.wakeSets } }) ∧
     (∀ w, p0.wakeUntil = some w → due = max t w →
       exec (.wakeLimit t num) s0 = .next { s with rem := put fun y => { y with wakeUntil := none, bankWake := false } }))

/-- A valid response ends the request that it answers, a read's with the bytes and a write's for its requester's effects; one that answers a
request ended within the last 1 ms counts as late, and one that answers nothing is a violation. A request whose attempt times out is sent
again under its tag, at most four times; then a read's bytes are delivered spoiled with PARTNER_TIMEOUT. Stated for a record that is Active
with nothing else waiting. Clauses that rest on the model's own choices or readings: assumptions 18 and 55. -/
def Obligations.ResponsesAndTimeoutsEndRequests : Prop :=
  (∀ (s0 : State) (t : Mc) (num : Fin 1088) (c : PartnerCfg) (p : Partner) (o : OutReq) (f : RxFrame) (fr : Frame) (path : Nat)
     (r : Request),
     let s := hostAt s0 t f.half
     remoteOn s f.half = true → s.power.glow.get f.half = false → RelaysOpen s →
      parseFrame f.bytes = some fr → recordOf s (fr.src % 2 ^ 14) = some c → c.num = num.val →
     partnerCfg s num.val = some c → getPartner s num.val = some p → (∀ y ∈ s.rem.partners, y.num = num.val → y = p) → p.st = .active →
     arrivalPath c f = some path → responseForm s c p f fr = true → (∀ x ∈ s.rem.outReqs, x.num = num.val → x.waiting = false) →
     getReq s r.id = some r → r.fin = none → r.effects = [] → OneRequestPerId s →
     (ledgered s r.ctx = true → LedgerRoom (getLedger s (partOfCtx s r.ctx)) 0) →
     let rest := s.rem.outReqs.filter fun x => !(x.num == num.val && x.tag == fr.tag)
     let bytes := fun addr (bs : List SByte) => (bs.zipIdx).map fun x => (addr + x.2, x.1)
     (s.rem.outReqs.find? (fun x => x.num == num.val && x.tag == fr.tag) = some o → 0 < o.attempts →
       answersReq o.ty o.rlen (o.seq.getD 0) fr = true → fieldAt fr.arg 0 2 = 0 → o.req = some r.id →
       (∀ x ∈ s.rem.outReqs, x.num = num.val → x.tag = fr.tag → x = o) →
       (∀ addr len, o.purpose = .read addr len → ∃ u, exec (.response t f) s0 = .next u ∧ u.rem.outReqs = rest ∧
         getReq u r.id = some { r with active := s.time
                                       rdata := r.rdata ++ bytes addr (markPayload fr.spoil fr.data)
                                       pass := { r.pass with sent := r.pass.sent.filter (· != fr.tag) } } ∧
         u = { s with rem := { s.rem with outReqs := rest, partners := u.rem.partners }, run := u.run
                      seg := { s.seg with segs := u.seg.segs } }) ∧
       (o.purpose = .write → ∃ u, exec (.response t f) s0 = .next u ∧ u.rem.outReqs = rest ∧
         getReq u r.id = some { r with active := s.time, writes := r.writes.filter (· != fr.tag) } ∧
         u = { s with rem := { s.rem with outReqs := rest, partners := u.rem.partners }, run := u.run
                      seg := { s.seg with segs := u.seg.segs }, ledgers := u.ledgers })) ∧
     ((∀ x ∈ s.rem.outReqs, x.num = num.val → x.tag ≠ fr.tag) →
       (∀ x ∈ p.recent, x.tag = fr.tag → s.time < x.ended + 2100000 → answersReq x.ty x.rlen x.seq fr = true →
         exec (.response t f) s0 = .next { s with rem := { s.rem with partners := s.rem.partners.map fun y =>
           if y.num == num.val then { y with late := min 0xFFFF (y.late + 1) } else y } }) ∧
       ((∀ x ∈ p.recent, x.tag = fr.tag → x.ended + 2100000 ≤ s.time ∨ answersReq x.ty x.rlen x.seq fr = false) → p.violTimes = [] →
         exec (.response t f) s0 = .next { s with rem := { s.rem with partners := s.rem.partners.map fun y =>
           if y.num == num.val then { y with violTimes := [s.time], violations := min 0xFFFF (y.violations + 1) } else y } }))) ∧
  (∀ (s0 : State) (t : Mc) (num : Fin 1088) (tag : BitVec 32) (c : PartnerCfg) (p : Partner) (o : OutReq) (r : Request),
     running s0 = true → partnerCfg s0 num.val = some c → outReq s0 num.val tag.toNat = some o → s0.halfReset = ⟨false, false⟩ →
     c.num = num.val →
     let s := atTime s0 (max t (o.sentAt + mcOf c.timeout))
     getPartner s num.val = some p → (∀ y ∈ s.rem.partners, y.num = num.val → y = p) → p.st = .active →
     outReq s num.val tag.toNat = some o → (∀ x ∈ s.rem.outReqs, x.num = num.val → x.waiting = false) → 0 < o.attempts → RelaysOpen s →
     getReq s r.id = some r → r.fin = none →
     (o.attempts < 4 → o.seq ≠ none ∨ isWriteClass o.ty = false → o.onWire = true → ∃ u y, exec (.attemptTimeout t num tag) s0 = .next u ∧
       u.time = s.time ∧
       outReq u num.val tag.toNat = some { o with attempts := o.attempts + 1, path := y, sentAt := u.time } ∧
       (∃ z, getPartner u num.val = some z ∧ z.st = .slow ∧ z.timeouts = min 0xFFFF (p.timeouts + 1)) ∧ u.run = s.run) ∧
     (∀ addr len, 4 ≤ o.attempts → o.purpose = .read addr len → o.req = some r.id → r.cause = none →
       ∃ u, exec (.attemptTimeout t num tag) s0 = .next u ∧ outReq u num.val tag.toNat = none ∧
         ∃ y, getReq u r.id = some y ∧ y.cause = some (0x0050, r.pc % 8192) ∧ y.rdata.length = r.rdata.length + len ∧
           ∀ x ∈ y.rdata.drop r.rdata.length, x.2.2 = true))

/-- A summed epoch whose destination write is answered signals its counter and gives way to the next; one that stays open for its timeout is
written as zeros with every line spoiled, signals and reports the lowest rank that is missing. Clauses that rest on the model's own choices
or readings: assumptions 8 and 23. -/
def Obligations.EpochsCloseOnce : Prop :=
  ∀ (s0 : State) (t : Mc) (ctx : Fin 256) (red : Fin 4096) (d : RedCfg) (v k : Nat) (a b : Bool),
    running s0 = true →
    redCfg s0 ctx.val red.val = some d → d.ctx = ctx.val → d.red = red.val → d.counter = some v → vEntry s0 ctx.val v = .loc k a b →
    s0.halfReset = ⟨false, false⟩ →
    let closed := fun (s : State) (y : EpochSt) => (s.rem.epochs.filter fun z => !(z.ctx == ctx.val && z.red == red.val)) ++ [y]
    let next := fun (x : EpochSt) =>
      { x with e := (x.e + 1) % 2 ^ 32, isOpen := false, bound := [], chunks := [], summed := false, failed := false, ending := none : EpochSt }
    let signal := fun (m : State) => { m.ctr with updates := m.ctr.updates ++
      [{ ctr := k, amount := 1, gen := genOf m k, half := redHome m ctx.val, due := m.time + releaseDelay k (redHome m ctx.val) }] }
    (let s := whenReady s0 t fun x => !otherOpen x (.epoch ctx.val red.val)
     let x := getEpoch s ctx.val red.val
     x.ctx = ctx.val → x.red = red.val → x.summed = true → x.failed = false → destOutstanding s x = false →
     exec (.epochComplete t ctx red) s0 = .next { s with ctr := signal s, rem := { s.rem with epochs := closed s (next x) } }) ∧
    (let x := getEpoch s0 ctx.val red.val
     let s := atTime s0 (max t (x.opened + mcOf d.timeout))
     x.ctx = ctx.val → x.red = red.val → x.isOpen = true → x.ending = none → allRanks d x = false →
     ∀ q fq, translate s ctx.val [(d.dest, d.length, .w)] = .ok [q] → PlainPiece s q → q.len = d.length →
       BatchOpen s (partOfCtx s ctx.val) fq →
       ∃ u, exec (.epochTimeout t ctx red) s0 = .next u ∧
         (inHbm s q = false → u.arb = s.arb) ∧ u.arb.ports = s.arb.ports ∧
         (inHbm s q = true → ∀ l, l ∈ u.arb.others → l ∉ s.arb.others → l.who = .epoch ctx.val red.val ∧ l.line.write = true ∧
           ∀ m, l.line.load = some m → ∀ y ∈ m.data, y = (0, true)) ∧
         u = { s with
           arb := u.arb
           mem := memAfter s .remote q ((zeros d.length).map fun b => (b, true))
           ctr := signal s
           seg := withEvent s (partOfCtx s ctx.val)
             (eventRec 0x000F ctx.val false (red.val + x.e * 2 ^ 32) (missingRank d x) s.time)
           rem := { s.rem with
             epochs := closed s { next x with timedOut := x.timedOut ++ [(x.e, x.chunks.map fun c => (c.1, c.2.1))] } } })

/-! ## Haul instructions -/

/-- The words that move no data: NOP, STEP and the modifiers go on, SHAPE and SETP set their register, LOOP opens a level, MARK joins the
ledger entry; HALT ends the request, and its record becomes ready. The last word of a loop body begins the next iteration, its STEPs made,
or ends the loop, the bases given back. Clauses that rest on the model's own choices or readings: assumptions 10 and 49. -/
def Obligations.PlainWordsAdvanceTheirRequest : Prop :=
  ∀ (s0 : State) (t : Mc) (h : HaulerId) (r : Request) (i : HInstr),
    let s := atInstr s0 t h (isRow i)
    RunsInstr s h r i →
    let goes := fun (o : Host.Outcome State Fault Refusal) (y : Request) => o = .next (passed (setReq s (advance y)) r)
    let kept := { r with mods := r.mods ++ [r.program.getD r.pc 0] }
    (i = .nop → goes (exec (.nop t h) s0) r) ∧
    (∀ k d, i = .step k d → goes (exec (.stepBase t h) s0) r) ∧
    (∀ a b c, i = .xform a b c → goes (exec (.xform t h) s0) kept) ∧
    (∀ a b c d e, i = .quant a b c d e → goes (exec (.quant t h) s0) kept) ∧
    (∀ a b c, i = .sums a b c → goes (exec (.sums t h) s0) kept) ∧
    (∀ k pb pi len cnt off stride, i = .shape k pb pi len cnt off stride →
      let b := if pb then ((r.params.getD pi 0).toNat + off) % 2 ^ 64 else off
      let sh : ShapeSet := { base := b % 2 ^ 57, len := len, stride := stride, count := cnt, loaded := true, handle := false }
      goes (exec (.shape t h) s0) { r with shapes := r.shapes.set k sh }) ∧
    (∀ pd mode ps imm ext, i = .setp pd mode ps imm ext →
      let v := if mode = 0 then BitVec.ofInt 64 imm else if mode = 1 then r.params.getD ps 0 + BitVec.ofInt 64 imm
        else if mode = 2 then r.params.getD ps 0 * BitVec.ofInt 64 imm else ext
      goes (exec (.setp t h) s0) { r with params := r.params.set pd v }) ∧
    (∀ l body pc pi cnt, i = .loop l body pc pi cnt →
      exec (.loop t h) s0 = .next (passed (setReq s { r with
        pc := r.pc + 1, wait := none
        loops := { ctr := l, start := r.pc + 1, body := body, count := if pc then (r.params.getD pi 0).toNat else cnt, index := 0
                   bases := r.shapes.map (·.base) } :: r.loops }) r)) ∧
    (∀ pi, i = .mark pi →
      (ledgered s r.ctx = false → goes (exec (.ledgerMark t h) s0) r) ∧
      (ledgered s r.ctx = true → r.led.marks.length < 4 → r.wait ≠ some .ledger →
        goes (exec (.ledgerMark t h) s0) { r with led := { r.led with marks := r.led.marks ++ [r.params.getD pi 0] } })) ∧
    (i = .halt → r.writes = [] → r.effects = [] → lineOpen s r (·.write) = false → ledgered s r.ctx = false →
      (∀ x ∈ s.q.records, x.req ≠ some r.id) → OneRequestPerId s →
      (∀ x ∈ (getLedger s (partOfCtx s r.ctx)).waiting, x.req ≠ some r.id) →
      let records := joinRecords s.q.records
        [{ cq := cqOf s r.qid, qid := r.qid, tag := r.tag, status := (r.cause.getD (0, 0)).1, bytes := r.bytes
           spoiled := r.spoiled, ledger := (r.lastSeq.getD 0) % 2 ^ 32, detail := (r.cause.getD (0, 0)).2, irq := r.irq
           req := some r.id, admin := none, rep := none, ready := s.time, haul := r.hauler.getD 128, flash := none }]
      (∃ u, exec (.halt t h) s0 = .next u ∧ u.q = { s.q with records := records } ∧
        ∃ z, getReq u r.id = some z ∧ z.fin = some (r.cause.getD (0, 0)) ∧ z.tongs = none) ∧
      (cqFull s (cqOf s r.qid) = false → exec (.halt t h) s0 = .next (passed
        { hostAsked s r { r with fin := some (r.cause.getD (0, 0)), wait := none, stays := false, tongs := none } with
          q.records := records } r))) ∧
    (∀ l ls, i = .nop → r.loops = l :: ls → r.pc + 1 = l.start + l.body →
      let st := directSteps r.program l.body l.start (l.start + l.body)
      (l.index + 1 < l.count → exec (.nop t h) s0 = .next (passed (setReq s { r with
        pc := l.start, wait := none, latched := none, shapes := applySteps r.shapes st, loops := { l with index := l.index + 1 } :: ls })
        r)) ∧
      (l.count ≤ l.index + 1 → ls = [] → exec (.nop t h) s0 = .next (passed (setReq s { r with
        pc := r.pc + 1, wait := none, latched := none, shapes := restoreBases r.shapes l.bases st, loops := []
        kept := r.kept.filter fun x => x.2.1 ≤ 0 }) r)))

/-- WAIT goes on once its counter has reached the target, ends with OWNER_RESET, or waits and parks; a wait that its counter has ended keeps
that outcome. SIGNAL's update is due at the counter's home after the release delay; FENCE waits for the answers of the request's lines and
remote writes; REPORT makes a record with the totals so far, and waits with it for a full completion queue; SPLIT closes the ledger entry,
and waits while the ledger queue is full. Clauses that rest on the model's own choices or readings: assumptions 8, 10, 54 and 59. -/
def Obligations.OrderWordsWaitOrGoOn : Prop :=
  ∀ (s0 : State) (t : Mc) (h : HaulerId) (r : Request) (i : HInstr),
    let s := atInstr s0 t h (isRow i)
    RunsInstr s h r i → OneRequestPerId s →
    let goes := fun (o : Host.Outcome State Fault Refusal) (y : Request) => o = .next (passed (setReq s (advance y)) r)
    let ends := fun (o : Host.Outcome State Fault Refusal) (status : Nat) => ∃ u z, o = .next u ∧ getReq u r.id = some z ∧
      z.fin = some (status, r.pc % 8192)
    (∀ b abs pi n x k a c, i = .wait b abs pi n → (∀ v p q g, r.wait ≠ some (.counter v p q g)) → r.binds[b]? = some x →
      vEntry s r.ctx x.vid = .loc k a c →
      let target := ((if abs then (r.params.getD pi 0).toNat else x.target) + n) % 2 ^ 64
      let y := if abs then r else { r with binds := r.binds.set b { x with target := target } }
      (evalWait s k r.half target x.gen = .met → goes (exec (.wait t h) s0) y) ∧
      (evalWait s k r.half target x.gen = .ownerReset → ends (exec (.wait t h) s0) 0x0030) ∧
      (evalWait s k r.half target x.gen = .notMet → Waits s (exec (.wait t h) s0) y (.counter x.vid k target x.gen) true)) ∧
    (∀ b abs pi n v k target gen, i = .wait b abs pi n → r.wait = some (.counter v k target gen) →
      (r.latched = some true ∨ (r.latched = none ∧ evalWait s k r.half target gen = .met) → goes (exec (.wait t h) s0) r) ∧
      (r.latched = some false ∨ (r.latched = none ∧ evalWait s k r.half target gen = .ownerReset) →
        ends (exec (.wait t h) s0) 0x0030)) ∧
    (∀ b n x k a c, i = .signal b n → r.binds[b]? = some x → vEntry s r.ctx x.vid = .loc k a c → r.writes = [] → r.effects = [] →
      lineOpen s r (·.write) = false → s.halfReset = ⟨false, false⟩ →
      let due := max (s.time + releaseDelay k r.half) r.lastDue
      UpToLedger s r.ctx (exec (.signal t h) s0) (passed
        { hostAsked s r { advance r with lastDue := due, effects := [.sent due] } with
          ctr := { s.ctr with updates := s.ctr.updates ++ [{ ctr := k, amount := n, gen := x.gen, half := r.half, due := due }] } } r)) ∧
    (∀ all, i = .fence all →
      let m := whenReady s s.time fun x => !fenceOpen all r.id x
      ∀ y, getReq m r.id = some y →
        (fenceOpen all r.id m = false → y.writes = [] →
          exec (.fence t h) s0 = .next (passed (hostAsked m y (advance y)) r)) ∧
        (fenceOpen all r.id m = true ∨ y.writes ≠ [] → y.wait ≠ some .fence → Waits m (exec (.fence t h) s0) y .fence false)) ∧
    (∀ irq code, i = .report irq code → r.effects = [] → (∀ x ∈ s.q.records, x.rep ≠ some r.id) →
      let y := { advance r with effects := [.report code irq r.bytes r.spoiled r.writes] }
      let records := joinRecords s.q.records
        [{ cq := cqOf s r.qid, qid := r.qid, tag := r.tag, status := if r.spoiled > 0 then 1 else 0, bytes := r.bytes
           spoiled := r.spoiled, ledger := (r.lastSeq.getD 0) % 2 ^ 32, detail := 0x8000 + code % 0x8000, irq := irq, req := none
           admin := none, rep := some r.id, ready := s.time, haul := r.hauler.getD 128, flash := none }]
      (cqFull s (cqOf s r.qid) = false →
        UpToLedger s r.ctx (exec (.report t h) s0) (passed { setReq s y with q.records := records } r)) ∧
      (cqFull s (cqOf s r.qid) = true → ∃ u, exec (.report t h) s0 = .next u ∧ u.q = { s.q with records := records } ∧
        ∃ z, getReq u r.id = some z ∧ z.wait = some (.record (cqOf s r.qid)) ∧ z.effects = y.effects ∧ z.pc = y.pc)) ∧
    (i = .split →
      (ledgered s r.ctx = false → goes (exec (.ledgerSplit t h) s0) r) ∧
      (∀ l, ledgered s r.ctx = true → r.wait ≠ some .ledger → s.ledgers.find? (·.part == partOfCtx s r.ctx) = some l →
        let y := { r with led := { input := [], output := [], marks := [], spoiled := false, part := r.led.part + 1 } }
        ∃ u e ws, exec (.ledgerSplit t h) s0 = .next u ∧
          getLedger u (partOfCtx s r.ctx) = { l with waiting := ws ++ [e] } ∧ ws.length = l.waiting.length ∧
          (e.kind = 1 ∧ e.req = some r.id ∧ e.needs = r.writes ∧ e.half = r.half ∧ e.inbound = none ∧
            e.bytes.take 240 = (requestEntry s r false 0).take 240) ∧
          (∀ k, k ≠ partOfCtx s r.ctx → getLedger u k = getLedger s k) ∧
          (LedgerRoom l 1 → ∀ x ∈ ws ++ [e], x.held = false) ∧ (l.enabled = false → e.closed ≠ none → e.held = true) ∧
          ((∀ x ∈ ws ++ [e], x.req = some r.id → x.held = false) →
            u = { passed (setReq s (advance y)) r with ledgers := u.ledgers }) ∧
          ((∃ x ∈ ws ++ [e], x.req = some r.id ∧ x.held = true) → ∃ z, getReq u r.id = some z ∧ z.wait = some .ledger ∧ z.led = y.led ∧ z.pc = r.pc)))

/-- Rings and handle queues hand over in order: a reserved entry is filled and then taken, a published billet acquired and then released in
billet order; publications follow the filling request's writes. Of parked requests, and of those that wait for a Tongs slot, the one whose
wait began first goes on, the lower hauler number first within one mc. Clauses that rest on the model's own choices or readings:
assumptions 7, 10, 53 and 64. -/
def Obligations.BuffersPassBetweenStages : Prop :=
  (∀ (s0 : State) (t : Mc) (h : HaulerId) (r : Request) (i : HInstr),
     let s := atInstr s0 t h (isRow i)
     RunsInstr s h r i →
     (∀ q sh x c, i = .putHandle q sh → getHandle s r.ctx q = some x → handleCfg s r.ctx q = some c → x.entries.length < c.depth →
       aheadOf s r (.handlePut q) = 0 → r.effects = [] →
       UpToLedger s r.ctx (exec (.putHandle t h) s0) (passed (setReq
         (updHandle s r.ctx q fun y =>
           { y with entries := y.entries ++ [{ id := y.nextId, req := r.id, val := none }], nextId := y.nextId + 1 })
         { advance r with effects := [.handlePublish q x.nextId (shapeOf r sh).base r.writes r.lines.next] }) r)) ∧
     (∀ q k x e v rest, i = .takeHandle q k → getHandle s r.ctx q = some x → x.entries = e :: rest → e.val = some v →
       aheadOf s r (.handleTake q) = 0 →
       exec (.takeHandle t h) s0 = .next (passed (setReq (updHandle s r.ctx q fun y => { y with entries := y.entries.drop 1 })
         (advance { r with shapes := r.shapes.set k { shapeOf r k with base := v % 2 ^ 57, handle := true } })) r)) ∧
     (∀ g k x c, i = .acquire g k → getRing s r.ctx g = some x → ringCfg s r.ctx g = some c → x.acquired < x.published →
       aheadOf s r (.ringAcquire g) = 0 →
       exec (.takeRingAcquire t h) s0 = .next (passed (setReq (updRing s r.ctx g fun y => { y with acquired := y.acquired + 1 })
         (advance { r with
           held := r.held ++ [(g, x.acquired)]
           shapes := r.shapes.set k
             { base := stagingVa s r.ctx (slotOffset c x.acquired), len := ringBytes c, stride := ringBytes c, count := 1, loaded := true
               handle := true } })) r)) ∧
     (∀ g b x, i = .release g → r.held.find? (fun y => y.1 == g) = some (g, b) → TheRing s r.ctx g x → x.early = [] →
       exec (.takeRingRelease t h) s0 = .next (passed (setReq
         (updRing s r.ctx g fun _ =>
           if b = x.released then
             { x with released := x.released + 1, relTimes := s.time :: x.relTimes.filter fun e => s.time < e + 4 }
           else { x with early := [b], relTimes := x.relTimes.filter fun e => s.time < e + 4 })
         (advance { r with held := r.held.filter (· != (g, b)) })) r))) ∧
  (∀ (s0 : State) (t : Mc) (ctx : Fin 256) (g : Fin 2048) (q : Request) (k upto : Nat),
     let s := whenReady s0 t fun x =>
       (publisher x ctx.val g.val false).isSome || (publisher x ctx.val g.val true).isNone
     publisher s ctx.val g.val false = some q → q.effects = [.ringPublish g.val k [] upto] → q.fin = none → OneRequestPerId s →
     UpToLedger s q.ctx (exec (.ringPublish t ctx g) s0) (updRing (hostAsked s q { q with effects := [] }) ctx.val g.val fun y =>
       { y with published := y.published + 1, pubTimes := s.time :: y.pubTimes.filter fun e => s.time < e + 3 })) ∧
  (∀ (s0 : State) (t : Mc) (ctx : Fin 256) (k : Fin 1024) (c : HandleCfg) (e : HandleEntry) (q : Request) (base upto : Nat),
     let s := whenReady s0 t fun x =>
       (handleFiller x ctx.val k.val false).isSome || (handleFiller x ctx.val k.val true).isNone
     handleFiller s ctx.val k.val false = some (e, q, base) → handleCfg s ctx.val k.val = some c → c.ctx = ctx.val →
     q.effects = [.handlePublish k.val e.id base [] upto] → q.fin = none → OneRequestPerId s →
     let place := stagingLocal s ctx.val c.offset + e.id % c.depth * 8
     unreachable s place = false →
     UpToLedger s q.ctx (exec (.handlePublish t ctx k) s0)
       (updHandle { hostAsked s q { q with effects := [] } with
           mem := if inStockpile place then bankWrite s.mem s.time (Writer.hauler (q.hauler.getD 128)).rank place (good (leBytes 8 base))
             else memWrite s.mem place (good (leBytes 8 base)) } ctx.val k.val
         fun y => { y with entries := y.entries.map fun z => if z.id == e.id then { z with val := some base } else z })) ∧
  (∀ (s0 : State) (t : Mc) (h : HaulerId) (q : Request),
     let s := atTime s0 t
     let ready := fun (x : Request) => x.half = h.half ∧ x.hauler = none ∧ x.fin = none ∧ x.wait.isSome = true ∧ waitOver s x = true ∧
       entryHeld s x = false
     let key := fun (x : Request) => (x.waitAt * 256 + x.waitHaul) * 2 ^ 48 + x.waitSeq
     q ∈ s.run.reqs → mayStart s h.half = true → haulerFree s h = true → ready q →
     (∀ x ∈ s.run.reqs, ready x → x = q ∨ key q < key x) →
     exec (.parkedResume t h) s0 = .next (setReq s { q with hauler := some h.idx.val, parkedIn := none, active := s.time })) ∧
  (∀ (s0 : State) (t : Mc) (h : Half) (q : Request) (x : Nat × Nat),
     let s := whenReady (endUnitTest (atTime s0 t) h) t fun x => (tongsWaiters x h).isEmpty || (freeSlot x h).isSome
     let asks := fun (y : Request) => y.half = h ∧ y.wait = some .tongs ∧ y.tongs = none
     let key := fun (x : Request) => (x.waitAt * 256 + x.waitHaul) * 2 ^ 48 + x.waitSeq
     q ∈ s.run.reqs → asks q → (∀ y ∈ s.run.reqs, asks y → y = q ∨ key q < key y) → freeSlot s h = some x →
     (q.waitAt < s.time → exec (.tongsSlotGrant t h) s0 = .next (setReq s { q with tongs := some x, wait := none })) ∧
     (s.time ≤ q.waitAt → exec (.tongsSlotGrant t h) s0 = .next s))

/-- The passes write their destination streams: a copy as it is, a conversion through the Tongs, PACE one burst for each pending request,
a ring fill with zeros to the end of its slot, GATHER the rows that its indices name or spoiled zeros, CODE the three streams of the
coder, and EXPAND the blocks, or spoiled zeros with SIZE_MISMATCH. A conversion, CODE and EXPAND wait for a Tongs slot first. Bytes for
the Stockpile are there at once, bytes for HBM when their lines are issued; the lines join the request's stream. Stated for streams of one
billet in plain memory; nothing else changes but the request, whose hauler goes on holding a source that an open loop repeats. Clauses
that rest on the model's own choices or readings: assumptions 8, 15, 35, 49, 64 and 65. -/
def Obligations.PassesWriteTheirStreams : Prop :=
  ∀ (s0 : State) (t : Mc) (h : HaulerId) (r : Request) (i : HInstr),
    let s := atInstr s0 t h (isRow i)
    RunsInstr s h r i → PassReady s r →
    let by' := writerOf s r.id
    let fresh := r.pass = PassState.start
    let read := fun (p : Piece) => memReadS s.mem p.addr p.len
    let clean := fun (bs : List SByte) => ∀ b ∈ bs, b.2 = false
    let raw := fun (bs : List SByte) => bs.map Prod.fst
    let once := fun (ks : List Nat) => ∀ a ∈ ks, repeatDepth r a = none
    let wrote := fun (o : Host.Outcome State Fault Refusal) (u : State) (ks : List Nat) (src : List Piece) (q : Piece) (bs : List SByte)
        (elems : Nat) (tongs : Option (Nat × Nat)) (cause : Option Nat) =>
      ∃ kept, (once ks → kept = []) ∧
        o = .next (passed (setReq { u with mem := memAfter s by' q bs } (passDone (billetDone s r none src q bs cause) elems tongs kept)) r)
    (∀ src dst f g sr srp bil n k p q, i = .move src dst f g sr srp bil →
      let x := shapeOf r src
      let y := shapeOf r dst
      OneLine x n → OneLine y k → k ≤ 4096 * 2 ^ bil → ReadRange s r x.base n p → PlainRange s r.ctx y.base k .w q →
      (f = g → n = k → fresh → wrote (exec (.move t h) s0) s [src] [p] q (read p) 0 none none) ∧
      (f ≠ g → fresh → Waits s (exec (.move t h) s0) (begun r) .tongs false) ∧
      (∀ slot, f ≠ g → Granted r slot →
        let c := chainOf s r (modsOf []) f g (srOf r sr srp) x 1 k
        rowsFor c 0 k = [0] → rowBad c (read p) = false →
        wrote (exec (.move t h) s0) s [src] [p] q (fit k ((runChain c [some (read p)]).stream.take k))
          ((finalDims c).1 * (finalDims c).2) (some slot) none)) ∧
    (∀ line src dst f sr srp bil n p q z, i = .pace line src dst f f sr srp bil →
      let x := shapeOf r src
      let y := shapeOf r dst
      OneLine x n → OneLine y n → n ≤ 4096 * 2 ^ bil → ReadRange s r x.base n p → PlainRange s r.ctx y.base n .w q → fresh →
      getPacing s line = some z → aheadOf s r (.pace line) < pacePending s z →
      wrote (exec (.pace t h) s0) (updPacing s line fun z => { z with pending := z.pending - 1 }) [src] [p] q (read p) 0 none none) ∧
    (∀ g src f sr srp n p q c x, i = .fill g src f f sr srp →
      let sh := shapeOf r src
      let size := ringBytes c
      let bs := read p ++ good (zeros (size - n))
      OneLine sh n → n ≤ size → ringCfg s r.ctx g = some c → c.coded = none → getRing s r.ctx g = some x → mayClaim s c x = true →
      aheadOf s r (.ringClaim g) = 0 → r.filling = none → fresh → ReadRange s r sh.base n p →
      PlainRange s r.ctx (stagingVa s r.ctx (slotOffset c x.claimed)) size .w q →
      let y := billetDone s r (some (r.ctx, g)) [p] q bs none
      ∃ kept, (once [src] → kept = []) ∧ exec (.putRingFill t h) s0 = .next (passed (setReq
        (updRing { s with mem := memAfter s by' q bs } r.ctx g fun y => { y with claimed := y.claimed + 1 })
        { passDone y 0 none kept with filling := none, effects := [.ringPublish g x.claimed r.writes y.lines.next] }) r)) ∧
    (∀ tbl dst idx iw feed f bil n pz p q, i = .gather tbl dst idx iw false feed f bil →
      let x := shapeOf r tbl
      let y := shapeOf r dst
      let z := shapeOf r idx
      let w := indexBytes iw
      let v := leVal (raw (read pz))
      isTq f = false → x.len = n → x.handle = false → OneLine y n → OneLine z w → n ≤ 4096 * 2 ^ bil → fresh →
      ReadRange s r z.base w pz → PlainRange s r.ctx y.base n .w q →
      (clean (read pz) → v < x.count → (lineAddr x v, n) ≠ (z.base, w) → ReadRange s r (lineAddr x v) n p →
        wrote (exec (.gather t h) s0) s [tbl, idx] [pz, p] q (read p) 0 none none) ∧
      (¬ clean (read pz) ∨ x.count ≤ v →
        wrote (exec (.gather t h) s0) s [tbl, idx] [pz] q (List.replicate n (0, true)) 0 none none)) ∧
    (∀ src dst idx tab f c n kd ki kt p qd qi qt, i = .code src dst idx tab f → codable f = some c →
      let x := shapeOf r src
      let out := codeGroup f c (raw (read p))
      OneLine x n → OneLine (shapeOf r dst) kd → OneLine (shapeOf r idx) ki → OneLine (shapeOf r tab) kt → kd ≤ 65536 → ki ≤ 65536 →
      kt ≤ 65536 → ReadRange s r x.base n p → PlainRange s r.ctx (shapeOf r dst).base kd .w qd →
      PlainRange s r.ctx (shapeOf r idx).base ki .w qi → PlainRange s r.ctx (shapeOf r tab).base kt .w qt → clean (read p) →
      (fresh → Waits s (exec (.code t h) s0) (begun r) .tongs false) ∧
      (∀ slot, Granted r slot →
        let put := fun (k : Nat) (bs : List Byte) => fit k (good (bs.take k))
        let m1 := memAfter s by' qd (put kd out.dst)
        let m2 := memAfter { s with mem := m1 } by' qi (put ki out.idx)
        let m3 := memAfter { s with mem := m2 } by' qt (put kt out.tab)
        let y1 := billetDone s r none [p, p] qd (put kd out.dst) none
        let y2 := billetDone s y1 none [] qi (put ki out.idx) none
        let y3 := billetDone s y2 none [] qt (put kt out.tab) none
        ∃ kept, (once [src] → kept = []) ∧
          exec (.code t h) s0 = .next (passed (setReq { s with mem := m3 } (passDone y3 0 (some slot) kept)) r))) ∧
    (∀ src dst idx tab f fb c n pt ph pe q, i = .expand src dst idx tab f fb → codable f = some c →
      let x := shapeOf r src
      let z := shapeOf r idx
      let b := (r.params.getD fb 0).toNat
      let plan : ExpandPlan := { fmt := f, x := x, z := z, w := shapeOf r tab, fb := b, total := n }
      let e := leVal (raw (read pe))
      OneLine (shapeOf r dst) n → n ≤ 4096 → OneLine (shapeOf r tab) 256 → OneLine z z.len → 72 + 8 * b ≤ z.len →
      x.handle = false → x.count = 1 → ReadRange s r (shapeOf r tab).base 256 pt → ReadRange s r z.base 64 ph →
      ReadRange s r (z.base + (64 + 8 * b)) 8 pe → PlainRange s r.ctx (shapeOf r dst).base n .w q →
      let zeros := List.replicate n ((0 : Byte), true)
      let all := [src, idx, tab]
      (fresh → Waits s (exec (.expand t h) s0) (begun r) .tongs false) ∧
      (∀ slot, Granted r slot →
        (tablesOf plan (read pt) (read ph) = none →
          wrote (exec (.expand t h) s0) s all [pt, ph, pe] q zeros 0 (some slot) (some 0x0060)) ∧
        (∀ tb o k p, tablesOf plan (read pt) (read ph) = some tb → b < tb.nb → blockPlace e x.len = some (o, k) →
          (x.base + o, k) ≠ ((shapeOf r tab).base, 256) → (x.base + o, k) ≠ (z.base, 64) →
          ReadRange s r (x.base + o) k p → clean (read pt) → clean (read ph) → clean (read pe) → clean (read p) →
          (∀ out, expandBlock c tb b n e (raw (read p)) = some out → out.length = n →
            wrote (exec (.expand t h) s0) s all [pt, ph, pe, p] q (good out) 0 (some slot) none) ∧
          (expandBlock c tb b n e (raw (read p)) = none →
            wrote (exec (.expand t h) s0) s all [pt, ph, pe, p] q zeros 0 (some slot) (some 0x0060)))))

/-- PREFETCH and WILL_NEED start the promotion of an IN_HOST block, and with W = 1 the request waits; the hints READ_MOSTLY and
PREFER_DEVICE mark their block. ATOMIC changes its target and returns the old value. REDUCE stores its chunk at its home, in the reduction's
buffer. Clauses that rest on the model's own choices or readings: assumptions 8, 19, 37, 66, 67, 77 and 80. -/
def Obligations.MemorySideWordsAct : Prop :=
  ∀ (s0 : State) (t : Mc) (h : HaulerId) (r : Request) (i : HInstr),
    let s := atInstr s0 t h (isRow i)
    RunsInstr s h r i → PassReady s r → r.pass = PassState.start → OneRequestPerId s → r.wait = none →
    let goes := fun (o : Host.Outcome State Fault Refusal) (u : State) (y : Request) => o = .next (passed (setReq u (advance y)) r)
    let clean := fun (bs : List SByte) => ∀ b ∈ bs, b.2 = false
    (∀ k w, (i = .prefetch k w ∨ i = .advise k 0 ∧ w = false) →
      let c := if i = .advise k 0 then Instr.advise t h else .prefetch t h
      (∀ bs, shapeBlocks s r.ctx (shapeOf r k) = some bs →
        (∀ x ∈ bs, ∃ g f, getSeg s r.ctx x.1 = some g ∧ isHeld s.time g x.2 = false ∧ (blockOf g x.2).st = .inFrame f) →
        goes (exec c s0) s r) ∧
      (∀ slot b g, shapeBlocks s r.ctx (shapeOf r k) = some [(slot, b)] → getSeg s r.ctx slot = some g → g.cfg.kind = .migratable →
        (∀ y ∈ s.seg.segs, y.cfg.ctx = r.ctx → y.cfg.index = slot → y = g) → (blockOf g b).st = .inHost → g.drains = [] →
        isHeld s.time g b = false →
        let g' := { g with
          epoch := !g.epoch
          drains := [{ act := .promote true, first := b, count := 1, started := true, op := none, taken := s.time }] }
        let seg := { s.seg with segs := withSegment s r.ctx slot fun _ => g' }
        (w = false → goes (exec c s0) { s with seg := seg } r) ∧
        (w = true → Waits s (exec c s0) { r with pass := { r.pass with taken := [blockKey (slot, b)] } } (.prefetch slot b 1) true ∧
          ∃ u, exec c s0 = .next u ∧ u.seg = seg))) ∧
    (∀ k hint slot b g, i = .advise k hint → (hint = 2 ∨ hint = 3) → shapeBlocks s r.ctx (shapeOf r k) = some [(slot, b)] →
      getSeg s r.ctx slot = some g → (∀ y ∈ s.seg.segs, y.cfg.ctx = r.ctx → y.cfg.index = slot → y = g) →
      isHeld s.time g b = false → isMoving (blockOf g b).st = false →
      let mark := fun (y : Segment) => setBlock y { blockOf y b with readMostly := decide (hint = 2), preferDevice := decide (hint = 3) }
      goes (exec (.advise t h) s0) { s with seg := { s.seg with segs := withSegment s r.ctx slot (changeSeg s.time mark) } } r) ∧
    (∀ op wide sg tg opd cmp ret rs p q, i = .atomic op wide sg tg opd cmp ret rs → r.answer = none →
      let x := shapeOf r tg
      let y := shapeOf r rs
      let n := if wide then 8 else 4
      let val := fun k => (r.params.getD k 0).toNat % 2 ^ (8 * n)
      let old := memReadS s.mem p.addr n
      let mem' := match atomicValue op n sg (leVal (old.map Prod.fst)) (val opd) (if op = 4 then val cmp else 0) with
        | some v => memWrite (bankSettle s.mem p.addr n) p.addr (good (leBytes n v))
        | none => s.mem
      let done := fun (dst : List Piece) (bs : List SByte) => billetAsks s
        { r with hostWrites := hostPorts s (p :: dst) r.hostWrites } none [] (p :: dst) (targetAsks s p ++ writeAsks s dst bs)
      x.handle = false → PlainRange s r.ctx x.base n .a p → ownLineOver s r p = false → ownHostOver s r p = false → clean old →
      (ret = false → goes (exec (.atomic t h) s0) { s with mem := mem' } (done [] [])) ∧
      (ret = true → OneLine y n → PlainRange s r.ctx y.base n .w q →
        goes (exec (.atomic t h) s0) { s with mem := memAfter { s with mem := mem' } (writerOf s r.id) q old } (done [q] old))) ∧
    (∀ src rid pe f d e red d2 n p, i = .reduce src rid pe f → redCfg s r.ctx rid = some d → d.home = s.cfg.pkg →
      exportCfg s d.exportId = some e → e.target = .reduction red → redCfg s e.owner red = some d2 → ownerQuenched s e.owner = false →
      exportBars s s.cfg.pkg e 4 0 n = none → d.fmt = d2.fmt →
      let sh := shapeOf r src
      let v := (r.params.getD pe 0).toNat
      let x := getEpoch s d2.ctx d2.red
      let bs := memReadS s.mem p.addr n
      let y := { x with
        isOpen := true, opened := if x.isOpen then x.opened else s.time
        bound := x.bound ++ [(bits v 13 0, s.cfg.pkg)], chunks := x.chunks ++ [(bits v 13 0, 0, n)] }
      OneLine sh n → n ≤ 4096 → ReadRange s r sh.base n p → clean bs → bits v 63 32 = x.e → bits v 13 0 < d2.members →
      x.ending = none → (∀ b ∈ x.bound, b.1 ≠ bits v 13 0) → (∀ k ∈ x.chunks, k.1 ≠ bits v 13 0) →
      profileOf s r.ctx = profileOf s d2.ctx → allRanks d2 y = false →
      let place := redBuffer s d2 (bits v 13 0 * d2.length)
      let acc := redBuffer s d2 (d2.members * d2.length)
      inStockpile place = true → unreachable s place = false →
      let es := (s.rem.epochs.filter fun z => !(z.ctx == x.ctx && z.red == x.red)) ++ [y]
      let lines := linesOfAsks s false .read none (touched r.ctx [p]) r.lines.next (pieceAsks s p)
      ∃ m k, goes (exec (.reduce t h) s0) { s with mem := m, drawn := k, rem := { s.rem with epochs := es } }
          (addLines { r with rdata := [] } lines) ∧
        (leadingRanks d2 y = leadingRanks d2 x → m = bankWrite s.mem s.time Writer.remote.rank place bs ∧ k = s.drawn) ∧
        (s.mem.wf → ∀ a, a < place ∨ place + n ≤ a → a < acc ∨ acc + 8 * (d2.length / (fmtBits d2.fmt / 8)) ≤ a →
          offRecent s a → memByte m a = memByte s.mem a))

/-! ## Schedule port -/

/-- An accepted RD sends 1,024 bytes of the ring's head billet to its port, read from their banks one mc after it, where they land 12 mc
later, and frees the billet in the next mc when REL is set; TBL sends the head billet, whose table the port then holds; STR stores the
port's data in the open billet 2 mc later, and its response comes 2 to 10 mc later; STM writes to memory; STR_PUBLISH publishes what PUB
closed once it has its responses; an operand read delivers what has landed. Clauses that rest on the model's own choices or readings:
assumptions 7, 8, 13, 24, 25 and 52. -/
def Obligations.BundlesReadAndStore : Prop :=
  (∀ (s0 : State) (t : Mc) (b : Bundle) (o : SchedOp),
    let s := atTime s0 t
    let m := noteBusy s b.half
    let ctx := b.ctx.val
    let noted := fun (a : AnvilPort) => { a with issuer := some ctx, vcyc := b.vcyc.toNat }
    (OneOp s b o →
      (∀ c x, ringCfg s ctx o.ring = some c → TheRing s ctx o.ring x → headReady s ctx o.ring = true →
        (∀ r ∈ s.cfg.relays, r.ctx = ctx → r.half = b.half → r.ports.head? ≠ some o.ap) →
        let freed := { x with releasing := x.releasing ++ [(s.time + 1, x.released)] }
        let sent := fun (from' : Nat) (d : PortData) (y : RingSt) => accepted b (updRing
          (updAnvil m b.half o.ap fun a => { noted a with
            coming := a.coming ++ [{ due := s.time + 12, ctx := ctx, bank := some (s.time + 1, from'), data := d }] })
          ctx o.ring fun _ => y)
        (o.op = 1 → c.coded = none →
          let bs := memReadS s.mem (headSlot s c x + o.unit * 1024) 1024
          let l : Landing := { unit := o.land, data := bs.map Prod.fst, spoil := (chunksOf 256 bs).map anyMark, ctx := ctx }
          exec (.rd t b) s0 = .next (sent (headSlot s c x + o.unit * 1024) (.unit l) (if o.flag then freed else x))) ∧
        (∀ f, o.op = 2 → c.coded = some f → headIsTable s c x = true →
          let len := min (((x.lengths.find? (·.1 == x.released)).map Prod.snd).getD (ringBytes c)) (ringBytes c)
          exec (.tbl t b) s0 = .next (sent (headSlot s c x) (.table c.ring (memReadS s.mem (headSlot s c x) len)) freed))) ∧
      (∀ c x d a, o.op = 3 → ringCfg s ctx o.ring = some c → TheRing s ctx o.ring x → x.openStr = none →
        x.claimed < claimableH s x + c.slots → b.stData.find? (fun d => d.1.val == o.ap) = some (d, a) →
        let u := updAnvil m b.half o.ap noted
        let w : StrWrite :=
          { id := s.buf.nextStore, half := b.half, ctx := ctx, ring := o.ring, billet := x.claimed
            due := s.time + 2 + (Config.freeValue s.drawn).toNat % 9
            load := some (s.time + 2, stagingLocal s ctx (slotOffset c x.claimed) + o.unit * 1024, fit 1024 (good a)) }
        exec (.str t b) s0 = .next (accepted b (updRing
          { u with
            drawn := s.drawn + 1
            buf := { u.buf with strs := s.buf.strs ++ [w], nextStore := s.buf.nextStore + 1 } } ctx o.ring fun _ =>
          { x with
            claimed := x.claimed + 1, openStr := if o.flag then none else some x.claimed
            closed := if o.flag then x.closed ++ [x.claimed] else x.closed }))) ∧
      (∀ d a q, o.op = 4 → b.stData.find? (fun d => d.1.val == o.ap) = some (d, a) →
        PlainRange s ctx (bits o.word.toNat 55 9 * 1024) 1024 .w q → storesUsed s b.half < 256 → s.buf.sigs = [] →
        (∀ y ∈ s.buf.stores, y.id ≠ s.buf.nextStore ∧ y.held = false) → flightsOf s (.store s.buf.nextStore) = [] →
        let u := updAnvil m b.half o.ap noted
        let bs := fit 1024 (good a)
        let entry : StoreEntry :=
          { id := s.buf.nextStore, half := b.half, ctx := ctx, va := bits o.word.toNat 55 9 * 1024, data := bs, tags := []
            lines := linesOfAsks s true .write none (touched ctx [q]) 0 (writeAsks s [q] bs), held := false, failed := false }
        let stores := if inHbm s q then s.buf.stores ++ [entry] else s.buf.stores
        exec (.stm t b) s0 = .next (accepted b { u with
          mem := memAfter s .schedule q bs, buf := { u.buf with stores := stores, nextStore := s.buf.nextStore + 1 } }))) ∧
    (∀ (c : Fin 256) (g : Fin 2048) (x : RingSt) (rest : List Nat), running s = true → TheRing s c.val g.val x →
      x.closed = x.published :: rest → strOpen s c.val g.val = false →
      exec (.strPublish t c g) s0 = .next (updRing s c.val g.val fun _ => { x with
        closed := rest, published := x.published + 1, pubTimes := s.time :: x.pubTimes.filter fun e => s.time < e + 3 })) ∧
    (∀ (ap : Fin 16) (fields : BitVec 57), running s = true → s.halfReset.get b.half = false → s.power.glow.get b.half = false →
      portRetired s b.half ap.val = false →
      let a := getAnvil s b.half ap.val
      let f := opRead fields
      let bs := landBytes a (f.base + f.first) f.count
      f.path = 0 → pathDefined f = true → fmtBits f.sfmt = 8 → f.base + f.first + f.count ≤ 262144 →
      pendingIn a s.time (f.base + f.first) f.count = none →
      exec (.operandRead t b.half ap fields) s0 = .next { s with out := { s.out with
        opd := some { half := b.half, ap := ap.val, data := bs.map Prod.fst, spoil := spoilMask bs, scales := [] } } })) ∧
  (∀ (s : State) (a : AnvilPort) (m : PortMsg), a ∈ s.buf.anvils → (∀ y ∈ s.buf.anvils, y.half = a.half → y.ap = a.ap → y = a) →
    a.coming = [m] → s.time < m.due → a.blocks = [] →
    (let still := s.buf.anvils.map fun y => if y.half == a.half && y.ap == a.ap then { y with coming := [] } else y
     nextEvent { s with buf := { s.buf with anvils := still } } = none) →
    let lands := fun (y : AnvilPort) => (atTime s m.due).buf = (updAnvil s a.half a.ap fun _ => { y with coming := [] }).buf
    (∀ l, m.data = .unit l → lands { a with landing := a.landing.filter (·.unit != l.unit) ++ [l] }) ∧
    (∀ ring bs c f, m.data = .table ring bs → ringCfg s m.ctx ring = some c → c.coded = some f → a.tables.length < 8 →
      let tab := (bs.take 256).map Prod.fst
      let valid := !anyMark bs && ((codable f).bind fun k => readCodeTable f k tab).isSome
      let slot : TableSlot := { ctx := c.ctx, ring := c.ring, table := if valid then some tab else none }
      lands { a with tables := (a.tables.filter fun y => !(y.ctx == c.ctx && y.ring == c.ring)) ++ [slot] })) ∧
  (∀ (s : State) (w : StrWrite) (due : Mc) (a : Nat) (bs : List SByte), s.buf.strs = [w] → w.load = some (due, a, bs) → s.time < due →
    due ≤ w.due → inStockpile a = true → unreachable s a = false → nextEvent { s with buf := { s.buf with strs := [] } } = none →
    (atTime s due).mem = bankWrite s.mem due Writer.schedule.rank a bs) ∧
  (∀ (s : State) (ctx g : Nat) (x : RingSt) (due : Mc), TheRing s ctx g x → x.releasing = [(due, x.released)] → s.time < due →
    nextEvent (updRing s ctx g fun y => { y with releasing := [] }) = none →
    (atTime s due).buf = (updRing s ctx g fun _ => { x with
      releasing := [], released := x.released + 1, relTimes := due :: x.relTimes.filter fun e => due < e + 4
      lengths := x.lengths.filter fun l => l.1 > x.released }).buf)

/-- A bundle with an operation that is not ready raises LATE and is not accepted. Accepted, FEED puts its entry in the feed, PACE adds a
pending request, SIG's update waits for the responses of the context's earlier stores and then starts, and DRAIN takes the rings' claims;
DRAIN_COMPLETE discards what is left of a ring once its fills are published, and signals. READY rises once nothing holds the context back.
Clauses that rest on the model's own choices or readings: assumptions 7, 8 and 25. -/
def Obligations.BundlesPaceSignalAndDrain : Prop :=
  ∀ (s0 : State) (t : Mc) (b : Bundle) (o : SchedOp),
    let s := atTime s0 t
    let m := noteBusy s b.half
    let ctx := b.ctx.val
    (OneOp s b o →
      (∀ c ∈ [(1, Instr.rd t b), (2, .tbl t b), (3, .str t b), (4, .stm t b), (5, .feed t b)], o.op = c.1 →
        opReady s b.half ctx 0 o = false →
        let u := updCtx m ctx fun x => { x with
          lateCount := min 0xFFFFFFFF (x.lateCount + 1), waitNo := x.waitNo + 1
          late := x.late.filter (·.1 != b.half) ++ [(b.half, o.word, true)]
          lateKind := (lateRecord b.half o).1, lateId := (lateRecord b.half o).2 }
        exec c.2 s0 = .next { u with out := { s.out with late := s.out.late.set b.half true, ready := s.out.ready.filter (· != ctx) } }) ∧
      (o.op = 5 → feedRoom s b.half o.feed = true →
        let fs := s.buf.feeds.map fun f => if f.half == b.half && f.feed == o.feed then
          { f with entries := f.entries ++ [(bits o.word.toNat 51 0, s.time + 6)] } else f
        exec (.feed t b) s0 = .next (accepted b { m with buf := { s.buf with feeds := fs } })) ∧
      (∀ x c, o.op = 6 → pacingCfg s o.feed = some c → getPacing s o.feed = some x → x.pending < 65535 →
        (∀ y ∈ s.buf.pacing, y.line = o.feed → y = x) →
        exec (.schedulePace t b) s0 = .next (accepted b { updPacing m o.feed fun y => { y with
          pending := y.pending + 1, coming := (s.time + 2) :: x.coming.filter fun e => s.time < e } with
          power := woken m.power s.time ((Both.mk false false).set (homeOfCtx s c.ctx) true) })) ∧
      (∀ k a c, o.op = 7 → vEntry s ctx (bits o.word.toNat 59 48) = .loc k a c → s.halfReset = ⟨false, false⟩ →
        let open' := (s.buf.stores.filter (·.ctx == ctx)).map (·.id) ++ (s.buf.strs.filter (·.ctx == ctx)).map (·.id)
        let n := bits o.word.toNat 47 16
        let up : Update := { ctr := k, amount := n, gen := genOf s k, half := b.half, due := s.time + releaseDelay k b.half }
        let held : StoreSig :=
          { half := b.half, ctx := ctx, vid := bits o.word.toNat 59 48, n := n, gen := genOf s k, needs := open' }
        exec (.sig t b) s0 = .next (accepted b (
          if open' = [] then { m with ctr := { s.ctr with updates := s.ctr.updates ++ [up] } }
          else { m with buf := { s.buf with sigs := s.buf.sigs ++ [held] } }))) ∧
      (∀ v k a c, o.op = 8 → (ctxCfg s ctx).bind (·.drainCounter) = some v → vEntry s ctx v = .loc k a c →
        (∀ x ∈ s.buf.rings, x.ctx = ctx → x.published < x.claimed) →
        let rings := (s.cfg.rings.filter fun g => g.ctx == ctx && !g.fixedAhead && !g.consHauler).filterMap fun g =>
          (getRing s ctx g.ring).map fun x => (g.ring, x.claimed)
        let d : DrainSt := { ctx := ctx, half := b.half, rings := rings, gen := genOf s k }
        exec (.drain t b) s0 = .next (accepted b { m with buf := { s.buf with drains := s.buf.drains ++ [d] } }))) ∧
    (∀ (d : DrainSt) (g c0 v k : Nat) (x : RingSt) (fq : FaultQ) (a c : Bool), running s = true → s.buf.drains = [d] → d.ctx = ctx →
      d.rings = [(g, c0)] → TheRing s ctx g x → s.halfReset = ⟨false, false⟩ →
      (ctxCfg s ctx).bind (·.drainCounter) = some v → vEntry s ctx v = .loc k a c → BatchOpen s (partOfCtx s ctx) fq →
      let n := c0 - x.released
      (x.published < c0 → exec (.drainComplete t b.ctx) s0 = .next s) ∧
      (c0 ≤ x.published → 0 < n →
        let u := updRing s ctx g fun _ => { x with
          released := c0, discards := min 0xFFFFFFFF (x.discards + n), lengths := x.lengths.filter fun l => l.1 ≥ c0
          relTimes := List.replicate n s.time ++ x.relTimes.filter fun e => s.time < e + 4 }
        let up : Update := { ctr := k, amount := 1, gen := d.gen, half := d.half, due := s.time + releaseDelay k d.half }
        exec (.drainComplete t b.ctx) s0 = .next { u with
          buf := { u.buf with drains := [] }
          seg := withEvent s (partOfCtx s ctx) (eventRec 0x0007 ctx false g n s.time)
          ctr := { s.ctr with updates := s.ctr.updates ++ [up] } })) ∧
    (∀ x, running s = true → getCtx s ctx = some x → x.late = [] →
      (x.faulted = false → x.ran = true ∨ firstFillMet s ctx = true →
        ∃ u, exec (.ready t b.ctx) s0 = .next u ∧ ctx ∈ u.out.ready ∧ (∀ y, y ≠ ctx → (y ∈ u.out.ready ↔ y ∈ s.out.ready)) ∧
          getCtx u ctx = some x ∧ u = { s with ctxs := u.ctxs, out := { s.out with ready := u.out.ready } }) ∧
      (x.faulted = true ∨ x.ran = false ∧ firstFillMet s ctx = false → exec (.ready t b.ctx) s0 = .next s)) ∧
    (∀ (u : State) (w : StrWrite) (x : StoreSig) (k : Nat) (a c : Bool), u.buf.strs = [w] → u.buf.sigs = [x] → x.needs = [w.id] →
      (∀ y ∈ u.buf.stores, y.id ≠ w.id) → u.time < w.due → nextEvent { u with buf := { u.buf with strs := [] } } = none →
      vEntry u x.ctx x.vid = .loc k a c → u.halfReset = ⟨false, false⟩ →
      (atTime u w.due).ctr.updates =
        [{ ctr := k, amount := x.n, gen := x.gen, half := x.half, due := w.due + releaseDelay k x.half }])

/-! ## Counters -/

/-- An update that reaches its counter's home adds its amount up to 2⁶⁴ − 1, where SAT is set, or is discarded and counted when the counter
is ABANDONED or of a later generation; a request's wait that it ends keeps its outcome. A context's wait is answered MET, PARKED or FAULTY.
A wait that nothing can end is reported once it has lasted for the window. Clauses that rest on the model's own choices or readings:
assumptions 7, 17 and 26. -/
def Obligations.CountersChangeAtTheirHome : Prop :=
  ∀ (s0 : State) (t : Mc),
    (∀ (k : Fin 65536) (x : Update),
      let s := whenReady s0 t fun y => !signalWaits y k.val
      running s = true →
      (minBy (·.due) (s.ctr.updates.filter (·.ctr == k.val)) = some x → exec (.counterUpdate t k) s0 = .next (atTime s x.due)) ∧
      (∀ c : CtrSt, OnlyUpdate s x → x.ctr = k.val → getCtr s k.val = some c → (∀ y ∈ s.ctr.ctrs, y.ctr = k.val → y = c) →
        (∀ y ∈ s.ctxs, y.cw = none) → s.halfReset = ⟨false, false⟩ →
        let v := min (2 ^ 64 - 1) (c.value + x.amount)
        let put := fun (power : PowerSt) (d : CtrSt) (msgs : List CopyMsg) =>
          let m := { s with
            time := x.due, power := power
            ctr := { s.ctr with ctrs := s.ctr.ctrs.map (fun (y : CtrSt) => if y.ctr == k.val then d else y), updates := [], copyMsgs := msgs } }
          { m with run := { s.run with reqs := s.run.reqs.map (latchWait m) }, arb := (syncPorts m).arb }
        let lost := { c with discards := min 0xFFFFFFFF (c.discards + 1) }
        let taken := { c with value := v, sat := c.sat || decide (2 ^ 64 - 1 < c.value + x.amount) }
        let msg : CopyMsg := { ctr := k.val, due := x.due + 24, value := v, gen := c.gen, abandoned := false }
        let passes := fun (power : PowerSt) => power.htime = (tickHearth s.power (x.due - s.time)).htime ∧
          ∀ h, power.glow.get h = true → s.power.glow.get h = true
        (c.abandoned = true ∨ x.gen < c.gen → ∃ power, passes power ∧ exec (.counterUpdate t k) s0 = .next (put power lost [])) ∧
        (c.abandoned = false → c.gen ≤ x.gen →
          (∃ power, passes power ∧ exec (.counterUpdate t k) s0 = .next (put power taken (if v = c.value then [] else [msg]))) ∧
          ∀ r ∈ s.run.reqs, ∀ vid target, r.wait = some (.counter vid k.val target c.gen) → r.latched = none → r.half = homeOfCtr k.val →
            target ≤ v → ∃ u, exec (.counterUpdate t k) s0 = .next u ∧ { r with latched := some true } ∈ u.run.reqs))) ∧
    (∀ (h : Half) (ctx : Fin 256) (vid : BitVec 12) (target : Word),
      let s := atTime s0 t
      running s = true → s.halfReset = ⟨false, false⟩ →
      let ans := fun (u : State) (n : Nat) => { u with out := { u.out with cwAns := u.out.cwAns.set h n } }
      let drop := updCtx s ctx.val fun x => { x with cw := none }
      (∀ k a, vEntry s ctx.val vid.toNat = .loc k a true →
        (evalWait s k h target.toNat (genOf s k) = .met → exec (.counterWait t h ctx vid target) s0 = .next (ans drop 1)) ∧
        (evalWait s k h target.toNat (genOf s k) = .notMet → (∀ y ∈ s.ctxs, y.ctx ≠ ctx.val → y.cw = none) →
          let w : CwWait := { half := h, vid := vid.toNat, ctr := k, target := target.toNat, gen := genOf s k }
          exec (.counterWait t h ctx vid target) s0 =
            .next (ans (updCtx s ctx.val fun x => { x with cw := some w, waitNo := x.waitNo + 1 }) 2))) ∧
      (∀ fq, (∀ k a, vEntry s ctx.val vid.toNat ≠ .loc k a true) → BatchOpen s (partOfCtx s ctx.val) fq →
        exec (.counterWait t h ctx vid target) s0 = .next { ans drop 3 with
          seg := withEvent s (partOfCtx s ctx.val) (eventRec 0x0008 ctx.val false (2 ^ 59 + vid.toNat) target.toNat s.time) })) ∧
    (let s := atTime s0 t
     running s = true → s.halfReset = ⟨false, false⟩ →
     (blockedMembers s = [] → exec (.stallEvaluation t) s0 = .next { s with
       ctr := { s.ctr with stalls := [], told := s.ctr.told.filter (stillWaits s) } }) ∧
     (∀ k old, blockedMembers s = [k] → advancers s k = [] → hasOutside s k = false → s.ctr.stalls = [old] → old.key = k.key →
       old.wait = k.wait → (k.key, k.wait) ∉ s.ctr.told →
       let p := partOfCtx s k.ctx
       let now := { k with rounds := old.rounds + 1 }
       s.cfg.safety.stallWindow ≤ (old.rounds + 1) * 10000 → k.reported = false → (getStallRegs s p).pending = false →
       ∃ u, exec (.stallEvaluation t) s0 = .next u ∧ u.ctr.stalls = [{ now with reported := true }] ∧
         u.ctr.told = (s.ctr.told ++ [(k.key, k.wait)]).filter (stillWaits s) ∧
         u.run.stalled = s.run.stalled ++ k.req.toList ∧
         u.ctr.stallRegs = s.ctr.stallRegs.map (fun x => if x.part == p then
           { x with shown := { members := [now], foreign := 0, overflow := false }, pending := true
                    shownAt := some s.time, reports := min 0xFFFFFFFF (x.reports + 1) } else x) ∧
         u.out.msix = (p, (getFaultQ s p).vector) :: s.out.msix ∧
         u = { s with ctr := { s.ctr with stalls := u.ctr.stalls, stallRegs := u.ctr.stallRegs, told := u.ctr.told }
                      run := { s.run with stalled := u.run.stalled }, out := { s.out with msix := u.out.msix } }))
end

