-- ==== Sys2Proof/Laws/State.lean ====
section
/-! SUPPORT. What each update of a table of the state leaves as it was, one lemma for each field, true by unfolding. -/

namespace Sys2Proof.Machine

/-! ## setReq -/

@[simp] theorem setReq_pending (s : State) (r : Request) : (setReq s r).pending = s.pending := rfl
@[simp] theorem setReq_time (s : State) (r : Request) : (setReq s r).time = s.time := rfl
@[simp] theorem setReq_fuses (s : State) (r : Request) : (setReq s r).fuses = s.fuses := rfl
@[simp] theorem setReq_flash (s : State) (r : Request) : (setReq s r).flash = s.flash := rfl
@[simp] theorem setReq_mem (s : State) (r : Request) : (setReq s r).mem = s.mem := rfl
@[simp] theorem setReq_cfg (s : State) (r : Request) : (setReq s r).cfg = s.cfg := rfl
@[simp] theorem setReq_copy (s : State) (r : Request) : (setReq s r).copy = s.copy := rfl
@[simp] theorem setReq_status (s : State) (r : Request) : (setReq s r).status = s.status := rfl
@[simp] theorem setReq_power (s : State) (r : Request) : (setReq s r).power = s.power := rfl
@[simp] theorem setReq_integ (s : State) (r : Request) : (setReq s r).integ = s.integ := rfl
@[simp] theorem setReq_test (s : State) (r : Request) : (setReq s r).test = s.test := rfl
@[simp] theorem setReq_halfReset (s : State) (r : Request) : (setReq s r).halfReset = s.halfReset := rfl
@[simp] theorem setReq_ctxs (s : State) (r : Request) : (setReq s r).ctxs = s.ctxs := rfl
@[simp] theorem setReq_q (s : State) (r : Request) : (setReq s r).q = s.q := rfl
@[simp] theorem setReq_buf (s : State) (r : Request) : (setReq s r).buf = s.buf := rfl
@[simp] theorem setReq_ctr (s : State) (r : Request) : (setReq s r).ctr = s.ctr := rfl
@[simp] theorem setReq_seg (s : State) (r : Request) : (setReq s r).seg = s.seg := rfl
@[simp] theorem setReq_channels (s : State) (r : Request) : (setReq s r).channels = s.channels := rfl
@[simp] theorem setReq_rem (s : State) (r : Request) : (setReq s r).rem = s.rem := rfl
@[simp] theorem setReq_ledgers (s : State) (r : Request) : (setReq s r).ledgers = s.ledgers := rfl
@[simp] theorem setReq_partRegs (s : State) (r : Request) : (setReq s r).partRegs = s.partRegs := rfl
@[simp] theorem setReq_sels (s : State) (r : Request) : (setReq s r).sels = s.sels := rfl
@[simp] theorem setReq_drawn (s : State) (r : Request) : (setReq s r).drawn = s.drawn := rfl
@[simp] theorem setReq_out (s : State) (r : Request) : (setReq s r).out = s.out := rfl

/-! ## removeReq -/

@[simp] theorem removeReq_pending (s : State) (id : Nat) : (removeReq s id).pending = s.pending := rfl
@[simp] theorem removeReq_time (s : State) (id : Nat) : (removeReq s id).time = s.time := rfl
@[simp] theorem removeReq_fuses (s : State) (id : Nat) : (removeReq s id).fuses = s.fuses := rfl
@[simp] theorem removeReq_flash (s : State) (id : Nat) : (removeReq s id).flash = s.flash := rfl
@[simp] theorem removeReq_mem (s : State) (id : Nat) : (removeReq s id).mem = s.mem := rfl
@[simp] theorem removeReq_cfg (s : State) (id : Nat) : (removeReq s id).cfg = s.cfg := rfl
@[simp] theorem removeReq_copy (s : State) (id : Nat) : (removeReq s id).copy = s.copy := rfl
@[simp] theorem removeReq_status (s : State) (id : Nat) : (removeReq s id).status = s.status := rfl
@[simp] theorem removeReq_power (s : State) (id : Nat) : (removeReq s id).power = s.power := rfl
@[simp] theorem removeReq_integ (s : State) (id : Nat) : (removeReq s id).integ = s.integ := rfl
@[simp] theorem removeReq_test (s : State) (id : Nat) : (removeReq s id).test = s.test := rfl
@[simp] theorem removeReq_halfReset (s : State) (id : Nat) : (removeReq s id).halfReset = s.halfReset := rfl
@[simp] theorem removeReq_ctxs (s : State) (id : Nat) : (removeReq s id).ctxs = s.ctxs := rfl
@[simp] theorem removeReq_q (s : State) (id : Nat) : (removeReq s id).q = s.q := rfl
@[simp] theorem removeReq_buf (s : State) (id : Nat) : (removeReq s id).buf = s.buf := rfl
@[simp] theorem removeReq_ctr (s : State) (id : Nat) : (removeReq s id).ctr = s.ctr := rfl
@[simp] theorem removeReq_seg (s : State) (id : Nat) : (removeReq s id).seg = s.seg := rfl
@[simp] theorem removeReq_channels (s : State) (id : Nat) : (removeReq s id).channels = s.channels := rfl
@[simp] theorem removeReq_rem (s : State) (id : Nat) : (removeReq s id).rem = s.rem := rfl
@[simp] theorem removeReq_ledgers (s : State) (id : Nat) : (removeReq s id).ledgers = s.ledgers := rfl
@[simp] theorem removeReq_partRegs (s : State) (id : Nat) : (removeReq s id).partRegs = s.partRegs := rfl
@[simp] theorem removeReq_sels (s : State) (id : Nat) : (removeReq s id).sels = s.sels := rfl
@[simp] theorem removeReq_drawn (s : State) (id : Nat) : (removeReq s id).drawn = s.drawn := rfl
@[simp] theorem removeReq_out (s : State) (id : Nat) : (removeReq s id).out = s.out := rfl

/-! ## updCtx -/

@[simp] theorem updCtx_pending (s : State) (c : Nat) (f : CtxState → CtxState) : (updCtx s c f).pending = s.pending := rfl
@[simp] theorem updCtx_time (s : State) (c : Nat) (f : CtxState → CtxState) : (updCtx s c f).time = s.time := rfl
@[simp] theorem updCtx_fuses (s : State) (c : Nat) (f : CtxState → CtxState) : (updCtx s c f).fuses = s.fuses := rfl
@[simp] theorem updCtx_flash (s : State) (c : Nat) (f : CtxState → CtxState) : (updCtx s c f).flash = s.flash := rfl
@[simp] theorem updCtx_mem (s : State) (c : Nat) (f : CtxState → CtxState) : (updCtx s c f).mem = s.mem := rfl
@[simp] theorem updCtx_cfg (s : State) (c : Nat) (f : CtxState → CtxState) : (updCtx s c f).cfg = s.cfg := rfl
@[simp] theorem updCtx_copy (s : State) (c : Nat) (f : CtxState → CtxState) : (updCtx s c f).copy = s.copy := rfl
@[simp] theorem updCtx_status (s : State) (c : Nat) (f : CtxState → CtxState) : (updCtx s c f).status = s.status := rfl
@[simp] theorem updCtx_power (s : State) (c : Nat) (f : CtxState → CtxState) : (updCtx s c f).power = s.power := rfl
@[simp] theorem updCtx_integ (s : State) (c : Nat) (f : CtxState → CtxState) : (updCtx s c f).integ = s.integ := rfl
@[simp] theorem updCtx_test (s : State) (c : Nat) (f : CtxState → CtxState) : (updCtx s c f).test = s.test := rfl
@[simp] theorem updCtx_halfReset (s : State) (c : Nat) (f : CtxState → CtxState) : (updCtx s c f).halfReset = s.halfReset := rfl
@[simp] theorem updCtx_q (s : State) (c : Nat) (f : CtxState → CtxState) : (updCtx s c f).q = s.q := rfl
@[simp] theorem updCtx_run (s : State) (c : Nat) (f : CtxState → CtxState) : (updCtx s c f).run = s.run := rfl
@[simp] theorem updCtx_buf (s : State) (c : Nat) (f : CtxState → CtxState) : (updCtx s c f).buf = s.buf := rfl
@[simp] theorem updCtx_ctr (s : State) (c : Nat) (f : CtxState → CtxState) : (updCtx s c f).ctr = s.ctr := rfl
@[simp] theorem updCtx_seg (s : State) (c : Nat) (f : CtxState → CtxState) : (updCtx s c f).seg = s.seg := rfl
@[simp] theorem updCtx_channels (s : State) (c : Nat) (f : CtxState → CtxState) : (updCtx s c f).channels = s.channels := rfl
@[simp] theorem updCtx_rem (s : State) (c : Nat) (f : CtxState → CtxState) : (updCtx s c f).rem = s.rem := rfl
@[simp] theorem updCtx_ledgers (s : State) (c : Nat) (f : CtxState → CtxState) : (updCtx s c f).ledgers = s.ledgers := rfl
@[simp] theorem updCtx_partRegs (s : State) (c : Nat) (f : CtxState → CtxState) : (updCtx s c f).partRegs = s.partRegs := rfl
@[simp] theorem updCtx_sels (s : State) (c : Nat) (f : CtxState → CtxState) : (updCtx s c f).sels = s.sels := rfl
@[simp] theorem updCtx_drawn (s : State) (c : Nat) (f : CtxState → CtxState) : (updCtx s c f).drawn = s.drawn := rfl
@[simp] theorem updCtx_out (s : State) (c : Nat) (f : CtxState → CtxState) : (updCtx s c f).out = s.out := rfl

/-! ## updSq -/

@[simp] theorem updSq_pending (s : State) (q : Nat) (f : SubQueue → SubQueue) : (updSq s q f).pending = s.pending := rfl
@[simp] theorem updSq_time (s : State) (q : Nat) (f : SubQueue → SubQueue) : (updSq s q f).time = s.time := rfl
@[simp] theorem updSq_fuses (s : State) (q : Nat) (f : SubQueue → SubQueue) : (updSq s q f).fuses = s.fuses := rfl
@[simp] theorem updSq_flash (s : State) (q : Nat) (f : SubQueue → SubQueue) : (updSq s q f).flash = s.flash := rfl
@[simp] theorem updSq_mem (s : State) (q : Nat) (f : SubQueue → SubQueue) : (updSq s q f).mem = s.mem := rfl
@[simp] theorem updSq_cfg (s : State) (q : Nat) (f : SubQueue → SubQueue) : (updSq s q f).cfg = s.cfg := rfl
@[simp] theorem updSq_copy (s : State) (q : Nat) (f : SubQueue → SubQueue) : (updSq s q f).copy = s.copy := rfl
@[simp] theorem updSq_status (s : State) (q : Nat) (f : SubQueue → SubQueue) : (updSq s q f).status = s.status := rfl
@[simp] theorem updSq_power (s : State) (q : Nat) (f : SubQueue → SubQueue) : (updSq s q f).power = s.power := rfl
@[simp] theorem updSq_integ (s : State) (q : Nat) (f : SubQueue → SubQueue) : (updSq s q f).integ = s.integ := rfl
@[simp] theorem updSq_test (s : State) (q : Nat) (f : SubQueue → SubQueue) : (updSq s q f).test = s.test := rfl
@[simp] theorem updSq_halfReset (s : State) (q : Nat) (f : SubQueue → SubQueue) : (updSq s q f).halfReset = s.halfReset := rfl
@[simp] theorem updSq_ctxs (s : State) (q : Nat) (f : SubQueue → SubQueue) : (updSq s q f).ctxs = s.ctxs := rfl
@[simp] theorem updSq_run (s : State) (q : Nat) (f : SubQueue → SubQueue) : (updSq s q f).run = s.run := rfl
@[simp] theorem updSq_buf (s : State) (q : Nat) (f : SubQueue → SubQueue) : (updSq s q f).buf = s.buf := rfl
@[simp] theorem updSq_ctr (s : State) (q : Nat) (f : SubQueue → SubQueue) : (updSq s q f).ctr = s.ctr := rfl
@[simp] theorem updSq_seg (s : State) (q : Nat) (f : SubQueue → SubQueue) : (updSq s q f).seg = s.seg := rfl
@[simp] theorem updSq_channels (s : State) (q : Nat) (f : SubQueue → SubQueue) : (updSq s q f).channels = s.channels := rfl
@[simp] theorem updSq_rem (s : State) (q : Nat) (f : SubQueue → SubQueue) : (updSq s q f).rem = s.rem := rfl
@[simp] theorem updSq_ledgers (s : State) (q : Nat) (f : SubQueue → SubQueue) : (updSq s q f).ledgers = s.ledgers := rfl
@[simp] theorem updSq_partRegs (s : State) (q : Nat) (f : SubQueue → SubQueue) : (updSq s q f).partRegs = s.partRegs := rfl
@[simp] theorem updSq_sels (s : State) (q : Nat) (f : SubQueue → SubQueue) : (updSq s q f).sels = s.sels := rfl
@[simp] theorem updSq_drawn (s : State) (q : Nat) (f : SubQueue → SubQueue) : (updSq s q f).drawn = s.drawn := rfl
@[simp] theorem updSq_out (s : State) (q : Nat) (f : SubQueue → SubQueue) : (updSq s q f).out = s.out := rfl

/-! ## updCq -/

@[simp] theorem updCq_pending (s : State) (q : Nat) (f : CompQueue → CompQueue) : (updCq s q f).pending = s.pending := rfl
@[simp] theorem updCq_time (s : State) (q : Nat) (f : CompQueue → CompQueue) : (updCq s q f).time = s.time := rfl
@[simp] theorem updCq_fuses (s : State) (q : Nat) (f : CompQueue → CompQueue) : (updCq s q f).fuses = s.fuses := rfl
@[simp] theorem updCq_flash (s : State) (q : Nat) (f : CompQueue → CompQueue) : (updCq s q f).flash = s.flash := rfl
@[simp] theorem updCq_mem (s : State) (q : Nat) (f : CompQueue → CompQueue) : (updCq s q f).mem = s.mem := rfl
@[simp] theorem updCq_cfg (s : State) (q : Nat) (f : CompQueue → CompQueue) : (updCq s q f).cfg = s.cfg := rfl
@[simp] theorem updCq_copy (s : State) (q : Nat) (f : CompQueue → CompQueue) : (updCq s q f).copy = s.copy := rfl
@[simp] theorem updCq_status (s : State) (q : Nat) (f : CompQueue → CompQueue) : (updCq s q f).status = s.status := rfl
@[simp] theorem updCq_power (s : State) (q : Nat) (f : CompQueue → CompQueue) : (updCq s q f).power = s.power := rfl
@[simp] theorem updCq_integ (s : State) (q : Nat) (f : CompQueue → CompQueue) : (updCq s q f).integ = s.integ := rfl
@[simp] theorem updCq_test (s : State) (q : Nat) (f : CompQueue → CompQueue) : (updCq s q f).test = s.test := rfl
@[simp] theorem updCq_halfReset (s : State) (q : Nat) (f : CompQueue → CompQueue) : (updCq s q f).halfReset = s.halfReset := rfl
@[simp] theorem updCq_ctxs (s : State) (q : Nat) (f : CompQueue → CompQueue) : (updCq s q f).ctxs = s.ctxs := rfl
@[simp] theorem updCq_run (s : State) (q : Nat) (f : CompQueue → CompQueue) : (updCq s q f).run = s.run := rfl
@[simp] theorem updCq_buf (s : State) (q : Nat) (f : CompQueue → CompQueue) : (updCq s q f).buf = s.buf := rfl
@[simp] theorem updCq_ctr (s : State) (q : Nat) (f : CompQueue → CompQueue) : (updCq s q f).ctr = s.ctr := rfl
@[simp] theorem updCq_seg (s : State) (q : Nat) (f : CompQueue → CompQueue) : (updCq s q f).seg = s.seg := rfl
@[simp] theorem updCq_channels (s : State) (q : Nat) (f : CompQueue → CompQueue) : (updCq s q f).channels = s.channels := rfl
@[simp] theorem updCq_rem (s : State) (q : Nat) (f : CompQueue → CompQueue) : (updCq s q f).rem = s.rem := rfl
@[simp] theorem updCq_ledgers (s : State) (q : Nat) (f : CompQueue → CompQueue) : (updCq s q f).ledgers = s.ledgers := rfl
@[simp] theorem updCq_partRegs (s : State) (q : Nat) (f : CompQueue → CompQueue) : (updCq s q f).partRegs = s.partRegs := rfl
@[simp] theorem updCq_sels (s : State) (q : Nat) (f : CompQueue → CompQueue) : (updCq s q f).sels = s.sels := rfl
@[simp] theorem updCq_drawn (s : State) (q : Nat) (f : CompQueue → CompQueue) : (updCq s q f).drawn = s.drawn := rfl
@[simp] theorem updCq_out (s : State) (q : Nat) (f : CompQueue → CompQueue) : (updCq s q f).out = s.out := rfl

/-! ## updOp -/

@[simp] theorem updOp_pending (s : State) (id : Nat) (f : AdminOp → AdminOp) : (updOp s id f).pending = s.pending := rfl
@[simp] theorem updOp_time (s : State) (id : Nat) (f : AdminOp → AdminOp) : (updOp s id f).time = s.time := rfl
@[simp] theorem updOp_fuses (s : State) (id : Nat) (f : AdminOp → AdminOp) : (updOp s id f).fuses = s.fuses := rfl
@[simp] theorem updOp_flash (s : State) (id : Nat) (f : AdminOp → AdminOp) : (updOp s id f).flash = s.flash := rfl
@[simp] theorem updOp_mem (s : State) (id : Nat) (f : AdminOp → AdminOp) : (updOp s id f).mem = s.mem := rfl
@[simp] theorem updOp_cfg (s : State) (id : Nat) (f : AdminOp → AdminOp) : (updOp s id f).cfg = s.cfg := rfl
@[simp] theorem updOp_copy (s : State) (id : Nat) (f : AdminOp → AdminOp) : (updOp s id f).copy = s.copy := rfl
@[simp] theorem updOp_status (s : State) (id : Nat) (f : AdminOp → AdminOp) : (updOp s id f).status = s.status := rfl
@[simp] theorem updOp_power (s : State) (id : Nat) (f : AdminOp → AdminOp) : (updOp s id f).power = s.power := rfl
@[simp] theorem updOp_integ (s : State) (id : Nat) (f : AdminOp → AdminOp) : (updOp s id f).integ = s.integ := rfl
@[simp] theorem updOp_test (s : State) (id : Nat) (f : AdminOp → AdminOp) : (updOp s id f).test = s.test := rfl
@[simp] theorem updOp_halfReset (s : State) (id : Nat) (f : AdminOp → AdminOp) : (updOp s id f).halfReset = s.halfReset := rfl
@[simp] theorem updOp_ctxs (s : State) (id : Nat) (f : AdminOp → AdminOp) : (updOp s id f).ctxs = s.ctxs := rfl
@[simp] theorem updOp_run (s : State) (id : Nat) (f : AdminOp → AdminOp) : (updOp s id f).run = s.run := rfl
@[simp] theorem updOp_buf (s : State) (id : Nat) (f : AdminOp → AdminOp) : (updOp s id f).buf = s.buf := rfl
@[simp] theorem updOp_ctr (s : State) (id : Nat) (f : AdminOp → AdminOp) : (updOp s id f).ctr = s.ctr := rfl
@[simp] theorem updOp_seg (s : State) (id : Nat) (f : AdminOp → AdminOp) : (updOp s id f).seg = s.seg := rfl
@[simp] theorem updOp_channels (s : State) (id : Nat) (f : AdminOp → AdminOp) : (updOp s id f).channels = s.channels := rfl
@[simp] theorem updOp_rem (s : State) (id : Nat) (f : AdminOp → AdminOp) : (updOp s id f).rem = s.rem := rfl
@[simp] theorem updOp_ledgers (s : State) (id : Nat) (f : AdminOp → AdminOp) : (updOp s id f).ledgers = s.ledgers := rfl
@[simp] theorem updOp_partRegs (s : State) (id : Nat) (f : AdminOp → AdminOp) : (updOp s id f).partRegs = s.partRegs := rfl
@[simp] theorem updOp_sels (s : State) (id : Nat) (f : AdminOp → AdminOp) : (updOp s id f).sels = s.sels := rfl
@[simp] theorem updOp_drawn (s : State) (id : Nat) (f : AdminOp → AdminOp) : (updOp s id f).drawn = s.drawn := rfl
@[simp] theorem updOp_out (s : State) (id : Nat) (f : AdminOp → AdminOp) : (updOp s id f).out = s.out := rfl

/-! ## removeOp -/

@[simp] theorem removeOp_pending (s : State) (id : Nat) : (removeOp s id).pending = s.pending := rfl
@[simp] theorem removeOp_time (s : State) (id : Nat) : (removeOp s id).time = s.time := rfl
@[simp] theorem removeOp_fuses (s : State) (id : Nat) : (removeOp s id).fuses = s.fuses := rfl
@[simp] theorem removeOp_flash (s : State) (id : Nat) : (removeOp s id).flash = s.flash := rfl
@[simp] theorem removeOp_mem (s : State) (id : Nat) : (removeOp s id).mem = s.mem := rfl
@[simp] theorem removeOp_cfg (s : State) (id : Nat) : (removeOp s id).cfg = s.cfg := rfl
@[simp] theorem removeOp_copy (s : State) (id : Nat) : (removeOp s id).copy = s.copy := rfl
@[simp] theorem removeOp_status (s : State) (id : Nat) : (removeOp s id).status = s.status := rfl
@[simp] theorem removeOp_power (s : State) (id : Nat) : (removeOp s id).power = s.power := rfl
@[simp] theorem removeOp_integ (s : State) (id : Nat) : (removeOp s id).integ = s.integ := rfl
@[simp] theorem removeOp_test (s : State) (id : Nat) : (removeOp s id).test = s.test := rfl
@[simp] theorem removeOp_halfReset (s : State) (id : Nat) : (removeOp s id).halfReset = s.halfReset := rfl
@[simp] theorem removeOp_ctxs (s : State) (id : Nat) : (removeOp s id).ctxs = s.ctxs := rfl
@[simp] theorem removeOp_run (s : State) (id : Nat) : (removeOp s id).run = s.run := rfl
@[simp] theorem removeOp_buf (s : State) (id : Nat) : (removeOp s id).buf = s.buf := rfl
@[simp] theorem removeOp_ctr (s : State) (id : Nat) : (removeOp s id).ctr = s.ctr := rfl
@[simp] theorem removeOp_seg (s : State) (id : Nat) : (removeOp s id).seg = s.seg := rfl
@[simp] theorem removeOp_channels (s : State) (id : Nat) : (removeOp s id).channels = s.channels := rfl
@[simp] theorem removeOp_rem (s : State) (id : Nat) : (removeOp s id).rem = s.rem := rfl
@[simp] theorem removeOp_ledgers (s : State) (id : Nat) : (removeOp s id).ledgers = s.ledgers := rfl
@[simp] theorem removeOp_partRegs (s : State) (id : Nat) : (removeOp s id).partRegs = s.partRegs := rfl
@[simp] theorem removeOp_sels (s : State) (id : Nat) : (removeOp s id).sels = s.sels := rfl
@[simp] theorem removeOp_drawn (s : State) (id : Nat) : (removeOp s id).drawn = s.drawn := rfl
@[simp] theorem removeOp_out (s : State) (id : Nat) : (removeOp s id).out = s.out := rfl

/-! ## updRing -/

@[simp] theorem updRing_pending (s : State) (c r : Nat) (f : RingSt → RingSt) : (updRing s c r f).pending = s.pending := rfl
@[simp] theorem updRing_time (s : State) (c r : Nat) (f : RingSt → RingSt) : (updRing s c r f).time = s.time := rfl
@[simp] theorem updRing_fuses (s : State) (c r : Nat) (f : RingSt → RingSt) : (updRing s c r f).fuses = s.fuses := rfl
@[simp] theorem updRing_flash (s : State) (c r : Nat) (f : RingSt → RingSt) : (updRing s c r f).flash = s.flash := rfl
@[simp] theorem updRing_mem (s : State) (c r : Nat) (f : RingSt → RingSt) : (updRing s c r f).mem = s.mem := rfl
@[simp] theorem updRing_cfg (s : State) (c r : Nat) (f : RingSt → RingSt) : (updRing s c r f).cfg = s.cfg := rfl
@[simp] theorem updRing_copy (s : State) (c r : Nat) (f : RingSt → RingSt) : (updRing s c r f).copy = s.copy := rfl
@[simp] theorem updRing_status (s : State) (c r : Nat) (f : RingSt → RingSt) : (updRing s c r f).status = s.status := rfl
@[simp] theorem updRing_power (s : State) (c r : Nat) (f : RingSt → RingSt) : (updRing s c r f).power = s.power := rfl
@[simp] theorem updRing_integ (s : State) (c r : Nat) (f : RingSt → RingSt) : (updRing s c r f).integ = s.integ := rfl
@[simp] theorem updRing_test (s : State) (c r : Nat) (f : RingSt → RingSt) : (updRing s c r f).test = s.test := rfl
@[simp] theorem updRing_halfReset (s : State) (c r : Nat) (f : RingSt → RingSt) : (updRing s c r f).halfReset = s.halfReset := rfl
@[simp] theorem updRing_ctxs (s : State) (c r : Nat) (f : RingSt → RingSt) : (updRing s c r f).ctxs = s.ctxs := rfl
@[simp] theorem updRing_q (s : State) (c r : Nat) (f : RingSt → RingSt) : (updRing s c r f).q = s.q := rfl
@[simp] theorem updRing_run (s : State) (c r : Nat) (f : RingSt → RingSt) : (updRing s c r f).run = s.run := rfl
@[simp] theorem updRing_ctr (s : State) (c r : Nat) (f : RingSt → RingSt) : (updRing s c r f).ctr = s.ctr := rfl
@[simp] theorem updRing_seg (s : State) (c r : Nat) (f : RingSt → RingSt) : (updRing s c r f).seg = s.seg := rfl
@[simp] theorem updRing_channels (s : State) (c r : Nat) (f : RingSt → RingSt) : (updRing s c r f).channels = s.channels := rfl
@[simp] theorem updRing_rem (s : State) (c r : Nat) (f : RingSt → RingSt) : (updRing s c r f).rem = s.rem := rfl
@[simp] theorem updRing_ledgers (s : State) (c r : Nat) (f : RingSt → RingSt) : (updRing s c r f).ledgers = s.ledgers := rfl
@[simp] theorem updRing_partRegs (s : State) (c r : Nat) (f : RingSt → RingSt) : (updRing s c r f).partRegs = s.partRegs := rfl
@[simp] theorem updRing_sels (s : State) (c r : Nat) (f : RingSt → RingSt) : (updRing s c r f).sels = s.sels := rfl
@[simp] theorem updRing_drawn (s : State) (c r : Nat) (f : RingSt → RingSt) : (updRing s c r f).drawn = s.drawn := rfl
@[simp] theorem updRing_out (s : State) (c r : Nat) (f : RingSt → RingSt) : (updRing s c r f).out = s.out := rfl

/-! ## updHandle -/

@[simp] theorem updHandle_pending (s : State) (c q : Nat) (f : HandleSt → HandleSt) : (updHandle s c q f).pending = s.pending := rfl
@[simp] theorem updHandle_time (s : State) (c q : Nat) (f : HandleSt → HandleSt) : (updHandle s c q f).time = s.time := rfl
@[simp] theorem updHandle_fuses (s : State) (c q : Nat) (f : HandleSt → HandleSt) : (updHandle s c q f).fuses = s.fuses := rfl
@[simp] theorem updHandle_flash (s : State) (c q : Nat) (f : HandleSt → HandleSt) : (updHandle s c q f).flash = s.flash := rfl
@[simp] theorem updHandle_mem (s : State) (c q : Nat) (f : HandleSt → HandleSt) : (updHandle s c q f).mem = s.mem := rfl
@[simp] theorem updHandle_cfg (s : State) (c q : Nat) (f : HandleSt → HandleSt) : (updHandle s c q f).cfg = s.cfg := rfl
@[simp] theorem updHandle_copy (s : State) (c q : Nat) (f : HandleSt → HandleSt) : (updHandle s c q f).copy = s.copy := rfl
@[simp] theorem updHandle_status (s : State) (c q : Nat) (f : HandleSt → HandleSt) : (updHandle s c q f).status = s.status := rfl
@[simp] theorem updHandle_power (s : State) (c q : Nat) (f : HandleSt → HandleSt) : (updHandle s c q f).power = s.power := rfl
@[simp] theorem updHandle_integ (s : State) (c q : Nat) (f : HandleSt → HandleSt) : (updHandle s c q f).integ = s.integ := rfl
@[simp] theorem updHandle_test (s : State) (c q : Nat) (f : HandleSt → HandleSt) : (updHandle s c q f).test = s.test := rfl
@[simp] theorem updHandle_halfReset (s : State) (c q : Nat) (f : HandleSt → HandleSt) : (updHandle s c q f).halfReset = s.halfReset := rfl
@[simp] theorem updHandle_ctxs (s : State) (c q : Nat) (f : HandleSt → HandleSt) : (updHandle s c q f).ctxs = s.ctxs := rfl
@[simp] theorem updHandle_q (s : State) (c q : Nat) (f : HandleSt → HandleSt) : (updHandle s c q f).q = s.q := rfl
@[simp] theorem updHandle_run (s : State) (c q : Nat) (f : HandleSt → HandleSt) : (updHandle s c q f).run = s.run := rfl
@[simp] theorem updHandle_ctr (s : State) (c q : Nat) (f : HandleSt → HandleSt) : (updHandle s c q f).ctr = s.ctr := rfl
@[simp] theorem updHandle_seg (s : State) (c q : Nat) (f : HandleSt → HandleSt) : (updHandle s c q f).seg = s.seg := rfl
@[simp] theorem updHandle_channels (s : State) (c q : Nat) (f : HandleSt → HandleSt) : (updHandle s c q f).channels = s.channels := rfl
@[simp] theorem updHandle_rem (s : State) (c q : Nat) (f : HandleSt → HandleSt) : (updHandle s c q f).rem = s.rem := rfl
@[simp] theorem updHandle_ledgers (s : State) (c q : Nat) (f : HandleSt → HandleSt) : (updHandle s c q f).ledgers = s.ledgers := rfl
@[simp] theorem updHandle_partRegs (s : State) (c q : Nat) (f : HandleSt → HandleSt) : (updHandle s c q f).partRegs = s.partRegs := rfl
@[simp] theorem updHandle_sels (s : State) (c q : Nat) (f : HandleSt → HandleSt) : (updHandle s c q f).sels = s.sels := rfl
@[simp] theorem updHandle_drawn (s : State) (c q : Nat) (f : HandleSt → HandleSt) : (updHandle s c q f).drawn = s.drawn := rfl
@[simp] theorem updHandle_out (s : State) (c q : Nat) (f : HandleSt → HandleSt) : (updHandle s c q f).out = s.out := rfl

/-! ## updPacing -/

@[simp] theorem updPacing_pending (s : State) (l : Nat) (f : PacingSt → PacingSt) : (updPacing s l f).pending = s.pending := rfl
@[simp] theorem updPacing_time (s : State) (l : Nat) (f : PacingSt → PacingSt) : (updPacing s l f).time = s.time := rfl
@[simp] theorem updPacing_fuses (s : State) (l : Nat) (f : PacingSt → PacingSt) : (updPacing s l f).fuses = s.fuses := rfl
@[simp] theorem updPacing_flash (s : State) (l : Nat) (f : PacingSt → PacingSt) : (updPacing s l f).flash = s.flash := rfl
@[simp] theorem updPacing_mem (s : State) (l : Nat) (f : PacingSt → PacingSt) : (updPacing s l f).mem = s.mem := rfl
@[simp] theorem updPacing_cfg (s : State) (l : Nat) (f : PacingSt → PacingSt) : (updPacing s l f).cfg = s.cfg := rfl
@[simp] theorem updPacing_copy (s : State) (l : Nat) (f : PacingSt → PacingSt) : (updPacing s l f).copy = s.copy := rfl
@[simp] theorem updPacing_status (s : State) (l : Nat) (f : PacingSt → PacingSt) : (updPacing s l f).status = s.status := rfl
@[simp] theorem updPacing_power (s : State) (l : Nat) (f : PacingSt → PacingSt) : (updPacing s l f).power = s.power := rfl
@[simp] theorem updPacing_integ (s : State) (l : Nat) (f : PacingSt → PacingSt) : (updPacing s l f).integ = s.integ := rfl
@[simp] theorem updPacing_test (s : State) (l : Nat) (f : PacingSt → PacingSt) : (updPacing s l f).test = s.test := rfl
@[simp] theorem updPacing_halfReset (s : State) (l : Nat) (f : PacingSt → PacingSt) : (updPacing s l f).halfReset = s.halfReset := rfl
@[simp] theorem updPacing_ctxs (s : State) (l : Nat) (f : PacingSt → PacingSt) : (updPacing s l f).ctxs = s.ctxs := rfl
@[simp] theorem updPacing_q (s : State) (l : Nat) (f : PacingSt → PacingSt) : (updPacing s l f).q = s.q := rfl
@[simp] theorem updPacing_run (s : State) (l : Nat) (f : PacingSt → PacingSt) : (updPacing s l f).run = s.run := rfl
@[simp] theorem updPacing_ctr (s : State) (l : Nat) (f : PacingSt → PacingSt) : (updPacing s l f).ctr = s.ctr := rfl
@[simp] theorem updPacing_seg (s : State) (l : Nat) (f : PacingSt → PacingSt) : (updPacing s l f).seg = s.seg := rfl
@[simp] theorem updPacing_channels (s : State) (l : Nat) (f : PacingSt → PacingSt) : (updPacing s l f).channels = s.channels := rfl
@[simp] theorem updPacing_rem (s : State) (l : Nat) (f : PacingSt → PacingSt) : (updPacing s l f).rem = s.rem := rfl
@[simp] theorem updPacing_ledgers (s : State) (l : Nat) (f : PacingSt → PacingSt) : (updPacing s l f).ledgers = s.ledgers := rfl
@[simp] theorem updPacing_partRegs (s : State) (l : Nat) (f : PacingSt → PacingSt) : (updPacing s l f).partRegs = s.partRegs := rfl
@[simp] theorem updPacing_sels (s : State) (l : Nat) (f : PacingSt → PacingSt) : (updPacing s l f).sels = s.sels := rfl
@[simp] theorem updPacing_drawn (s : State) (l : Nat) (f : PacingSt → PacingSt) : (updPacing s l f).drawn = s.drawn := rfl
@[simp] theorem updPacing_out (s : State) (l : Nat) (f : PacingSt → PacingSt) : (updPacing s l f).out = s.out := rfl

/-! ## updAnvil -/

@[simp] theorem updAnvil_pending (s : State) (h : Half) (ap : Nat) (f : AnvilPort → AnvilPort) : (updAnvil s h ap f).pending = s.pending := rfl
@[simp] theorem updAnvil_time (s : State) (h : Half) (ap : Nat) (f : AnvilPort → AnvilPort) : (updAnvil s h ap f).time = s.time := rfl
@[simp] theorem updAnvil_fuses (s : State) (h : Half) (ap : Nat) (f : AnvilPort → AnvilPort) : (updAnvil s h ap f).fuses = s.fuses := rfl
@[simp] theorem updAnvil_flash (s : State) (h : Half) (ap : Nat) (f : AnvilPort → AnvilPort) : (updAnvil s h ap f).flash = s.flash := rfl
@[simp] theorem updAnvil_mem (s : State) (h : Half) (ap : Nat) (f : AnvilPort → AnvilPort) : (updAnvil s h ap f).mem = s.mem := rfl
@[simp] theorem updAnvil_cfg (s : State) (h : Half) (ap : Nat) (f : AnvilPort → AnvilPort) : (updAnvil s h ap f).cfg = s.cfg := rfl
@[simp] theorem updAnvil_copy (s : State) (h : Half) (ap : Nat) (f : AnvilPort → AnvilPort) : (updAnvil s h ap f).copy = s.copy := rfl
@[simp] theorem updAnvil_status (s : State) (h : Half) (ap : Nat) (f : AnvilPort → AnvilPort) : (updAnvil s h ap f).status = s.status := rfl
@[simp] theorem updAnvil_power (s : State) (h : Half) (ap : Nat) (f : AnvilPort → AnvilPort) : (updAnvil s h ap f).power = s.power := rfl
@[simp] theorem updAnvil_integ (s : State) (h : Half) (ap : Nat) (f : AnvilPort → AnvilPort) : (updAnvil s h ap f).integ = s.integ := rfl
@[simp] theorem updAnvil_test (s : State) (h : Half) (ap : Nat) (f : AnvilPort → AnvilPort) : (updAnvil s h ap f).test = s.test := rfl
@[simp] theorem updAnvil_halfReset (s : State) (h : Half) (ap : Nat) (f : AnvilPort → AnvilPort) : (updAnvil s h ap f).halfReset = s.halfReset := rfl
@[simp] theorem updAnvil_ctxs (s : State) (h : Half) (ap : Nat) (f : AnvilPort → AnvilPort) : (updAnvil s h ap f).ctxs = s.ctxs := rfl
@[simp] theorem updAnvil_q (s : State) (h : Half) (ap : Nat) (f : AnvilPort → AnvilPort) : (updAnvil s h ap f).q = s.q := rfl
@[simp] theorem updAnvil_run (s : State) (h : Half) (ap : Nat) (f : AnvilPort → AnvilPort) : (updAnvil s h ap f).run = s.run := rfl
@[simp] theorem updAnvil_ctr (s : State) (h : Half) (ap : Nat) (f : AnvilPort → AnvilPort) : (updAnvil s h ap f).ctr = s.ctr := rfl
@[simp] theorem updAnvil_seg (s : State) (h : Half) (ap : Nat) (f : AnvilPort → AnvilPort) : (updAnvil s h ap f).seg = s.seg := rfl
@[simp] theorem updAnvil_channels (s : State) (h : Half) (ap : Nat) (f : AnvilPort → AnvilPort) : (updAnvil s h ap f).channels = s.channels := rfl
@[simp] theorem updAnvil_rem (s : State) (h : Half) (ap : Nat) (f : AnvilPort → AnvilPort) : (updAnvil s h ap f).rem = s.rem := rfl
@[simp] theorem updAnvil_ledgers (s : State) (h : Half) (ap : Nat) (f : AnvilPort → AnvilPort) : (updAnvil s h ap f).ledgers = s.ledgers := rfl
@[simp] theorem updAnvil_partRegs (s : State) (h : Half) (ap : Nat) (f : AnvilPort → AnvilPort) : (updAnvil s h ap f).partRegs = s.partRegs := rfl
@[simp] theorem updAnvil_sels (s : State) (h : Half) (ap : Nat) (f : AnvilPort → AnvilPort) : (updAnvil s h ap f).sels = s.sels := rfl
@[simp] theorem updAnvil_drawn (s : State) (h : Half) (ap : Nat) (f : AnvilPort → AnvilPort) : (updAnvil s h ap f).drawn = s.drawn := rfl
@[simp] theorem updAnvil_out (s : State) (h : Half) (ap : Nat) (f : AnvilPort → AnvilPort) : (updAnvil s h ap f).out = s.out := rfl

/-! ## updCtr -/

@[simp] theorem updCtr_pending (s : State) (c : Nat) (f : CtrSt → CtrSt) : (updCtr s c f).pending = s.pending := rfl
@[simp] theorem updCtr_time (s : State) (c : Nat) (f : CtrSt → CtrSt) : (updCtr s c f).time = s.time := rfl
@[simp] theorem updCtr_fuses (s : State) (c : Nat) (f : CtrSt → CtrSt) : (updCtr s c f).fuses = s.fuses := rfl
@[simp] theorem updCtr_flash (s : State) (c : Nat) (f : CtrSt → CtrSt) : (updCtr s c f).flash = s.flash := rfl
@[simp] theorem updCtr_mem (s : State) (c : Nat) (f : CtrSt → CtrSt) : (updCtr s c f).mem = s.mem := rfl
@[simp] theorem updCtr_cfg (s : State) (c : Nat) (f : CtrSt → CtrSt) : (updCtr s c f).cfg = s.cfg := rfl
@[simp] theorem updCtr_copy (s : State) (c : Nat) (f : CtrSt → CtrSt) : (updCtr s c f).copy = s.copy := rfl
@[simp] theorem updCtr_status (s : State) (c : Nat) (f : CtrSt → CtrSt) : (updCtr s c f).status = s.status := rfl
@[simp] theorem updCtr_power (s : State) (c : Nat) (f : CtrSt → CtrSt) : (updCtr s c f).power = s.power := rfl
@[simp] theorem updCtr_integ (s : State) (c : Nat) (f : CtrSt → CtrSt) : (updCtr s c f).integ = s.integ := rfl
@[simp] theorem updCtr_test (s : State) (c : Nat) (f : CtrSt → CtrSt) : (updCtr s c f).test = s.test := rfl
@[simp] theorem updCtr_halfReset (s : State) (c : Nat) (f : CtrSt → CtrSt) : (updCtr s c f).halfReset = s.halfReset := rfl
@[simp] theorem updCtr_ctxs (s : State) (c : Nat) (f : CtrSt → CtrSt) : (updCtr s c f).ctxs = s.ctxs := rfl
@[simp] theorem updCtr_q (s : State) (c : Nat) (f : CtrSt → CtrSt) : (updCtr s c f).q = s.q := rfl
@[simp] theorem updCtr_run (s : State) (c : Nat) (f : CtrSt → CtrSt) : (updCtr s c f).run = s.run := rfl
@[simp] theorem updCtr_buf (s : State) (c : Nat) (f : CtrSt → CtrSt) : (updCtr s c f).buf = s.buf := rfl
@[simp] theorem updCtr_seg (s : State) (c : Nat) (f : CtrSt → CtrSt) : (updCtr s c f).seg = s.seg := rfl
@[simp] theorem updCtr_channels (s : State) (c : Nat) (f : CtrSt → CtrSt) : (updCtr s c f).channels = s.channels := rfl
@[simp] theorem updCtr_rem (s : State) (c : Nat) (f : CtrSt → CtrSt) : (updCtr s c f).rem = s.rem := rfl
@[simp] theorem updCtr_ledgers (s : State) (c : Nat) (f : CtrSt → CtrSt) : (updCtr s c f).ledgers = s.ledgers := rfl
@[simp] theorem updCtr_partRegs (s : State) (c : Nat) (f : CtrSt → CtrSt) : (updCtr s c f).partRegs = s.partRegs := rfl
@[simp] theorem updCtr_sels (s : State) (c : Nat) (f : CtrSt → CtrSt) : (updCtr s c f).sels = s.sels := rfl
@[simp] theorem updCtr_drawn (s : State) (c : Nat) (f : CtrSt → CtrSt) : (updCtr s c f).drawn = s.drawn := rfl
@[simp] theorem updCtr_out (s : State) (c : Nat) (f : CtrSt → CtrSt) : (updCtr s c f).out = s.out := rfl

/-! ## updSeg -/

@[simp] theorem updSeg_pending (s : State) (c slot : Nat) (f : Segment → Segment) : (updSeg s c slot f).pending = s.pending := rfl
@[simp] theorem updSeg_time (s : State) (c slot : Nat) (f : Segment → Segment) : (updSeg s c slot f).time = s.time := rfl
@[simp] theorem updSeg_fuses (s : State) (c slot : Nat) (f : Segment → Segment) : (updSeg s c slot f).fuses = s.fuses := rfl
@[simp] theorem updSeg_flash (s : State) (c slot : Nat) (f : Segment → Segment) : (updSeg s c slot f).flash = s.flash := rfl
@[simp] theorem updSeg_mem (s : State) (c slot : Nat) (f : Segment → Segment) : (updSeg s c slot f).mem = s.mem := rfl
@[simp] theorem updSeg_cfg (s : State) (c slot : Nat) (f : Segment → Segment) : (updSeg s c slot f).cfg = s.cfg := rfl
@[simp] theorem updSeg_copy (s : State) (c slot : Nat) (f : Segment → Segment) : (updSeg s c slot f).copy = s.copy := rfl
@[simp] theorem updSeg_status (s : State) (c slot : Nat) (f : Segment → Segment) : (updSeg s c slot f).status = s.status := rfl
@[simp] theorem updSeg_power (s : State) (c slot : Nat) (f : Segment → Segment) : (updSeg s c slot f).power = s.power := rfl
@[simp] theorem updSeg_integ (s : State) (c slot : Nat) (f : Segment → Segment) : (updSeg s c slot f).integ = s.integ := rfl
@[simp] theorem updSeg_test (s : State) (c slot : Nat) (f : Segment → Segment) : (updSeg s c slot f).test = s.test := rfl
@[simp] theorem updSeg_halfReset (s : State) (c slot : Nat) (f : Segment → Segment) : (updSeg s c slot f).halfReset = s.halfReset := rfl
@[simp] theorem updSeg_ctxs (s : State) (c slot : Nat) (f : Segment → Segment) : (updSeg s c slot f).ctxs = s.ctxs := rfl
@[simp] theorem updSeg_q (s : State) (c slot : Nat) (f : Segment → Segment) : (updSeg s c slot f).q = s.q := rfl
@[simp] theorem updSeg_run (s : State) (c slot : Nat) (f : Segment → Segment) : (updSeg s c slot f).run = s.run := rfl
@[simp] theorem updSeg_buf (s : State) (c slot : Nat) (f : Segment → Segment) : (updSeg s c slot f).buf = s.buf := rfl
@[simp] theorem updSeg_ctr (s : State) (c slot : Nat) (f : Segment → Segment) : (updSeg s c slot f).ctr = s.ctr := rfl
@[simp] theorem updSeg_channels (s : State) (c slot : Nat) (f : Segment → Segment) : (updSeg s c slot f).channels = s.channels := rfl
@[simp] theorem updSeg_rem (s : State) (c slot : Nat) (f : Segment → Segment) : (updSeg s c slot f).rem = s.rem := rfl
@[simp] theorem updSeg_ledgers (s : State) (c slot : Nat) (f : Segment → Segment) : (updSeg s c slot f).ledgers = s.ledgers := rfl
@[simp] theorem updSeg_partRegs (s : State) (c slot : Nat) (f : Segment → Segment) : (updSeg s c slot f).partRegs = s.partRegs := rfl
@[simp] theorem updSeg_sels (s : State) (c slot : Nat) (f : Segment → Segment) : (updSeg s c slot f).sels = s.sels := rfl
@[simp] theorem updSeg_drawn (s : State) (c slot : Nat) (f : Segment → Segment) : (updSeg s c slot f).drawn = s.drawn := rfl
@[simp] theorem updSeg_out (s : State) (c slot : Nat) (f : Segment → Segment) : (updSeg s c slot f).out = s.out := rfl

/-! ## updFaultQ -/

@[simp] theorem updFaultQ_pending (s : State) (p : Nat) (f : FaultQ → FaultQ) : (updFaultQ s p f).pending = s.pending := rfl
@[simp] theorem updFaultQ_time (s : State) (p : Nat) (f : FaultQ → FaultQ) : (updFaultQ s p f).time = s.time := rfl
@[simp] theorem updFaultQ_fuses (s : State) (p : Nat) (f : FaultQ → FaultQ) : (updFaultQ s p f).fuses = s.fuses := rfl
@[simp] theorem updFaultQ_flash (s : State) (p : Nat) (f : FaultQ → FaultQ) : (updFaultQ s p f).flash = s.flash := rfl
@[simp] theorem updFaultQ_mem (s : State) (p : Nat) (f : FaultQ → FaultQ) : (updFaultQ s p f).mem = s.mem := rfl
@[simp] theorem updFaultQ_cfg (s : State) (p : Nat) (f : FaultQ → FaultQ) : (updFaultQ s p f).cfg = s.cfg := rfl
@[simp] theorem updFaultQ_copy (s : State) (p : Nat) (f : FaultQ → FaultQ) : (updFaultQ s p f).copy = s.copy := rfl
@[simp] theorem updFaultQ_status (s : State) (p : Nat) (f : FaultQ → FaultQ) : (updFaultQ s p f).status = s.status := rfl
@[simp] theorem updFaultQ_power (s : State) (p : Nat) (f : FaultQ → FaultQ) : (updFaultQ s p f).power = s.power := rfl
@[simp] theorem updFaultQ_integ (s : State) (p : Nat) (f : FaultQ → FaultQ) : (updFaultQ s p f).integ = s.integ := rfl
@[simp] theorem updFaultQ_test (s : State) (p : Nat) (f : FaultQ → FaultQ) : (updFaultQ s p f).test = s.test := rfl
@[simp] theorem updFaultQ_halfReset (s : State) (p : Nat) (f : FaultQ → FaultQ) : (updFaultQ s p f).halfReset = s.halfReset := rfl
@[simp] theorem updFaultQ_ctxs (s : State) (p : Nat) (f : FaultQ → FaultQ) : (updFaultQ s p f).ctxs = s.ctxs := rfl
@[simp] theorem updFaultQ_q (s : State) (p : Nat) (f : FaultQ → FaultQ) : (updFaultQ s p f).q = s.q := rfl
@[simp] theorem updFaultQ_run (s : State) (p : Nat) (f : FaultQ → FaultQ) : (updFaultQ s p f).run = s.run := rfl
@[simp] theorem updFaultQ_buf (s : State) (p : Nat) (f : FaultQ → FaultQ) : (updFaultQ s p f).buf = s.buf := rfl
@[simp] theorem updFaultQ_ctr (s : State) (p : Nat) (f : FaultQ → FaultQ) : (updFaultQ s p f).ctr = s.ctr := rfl
@[simp] theorem updFaultQ_channels (s : State) (p : Nat) (f : FaultQ → FaultQ) : (updFaultQ s p f).channels = s.channels := rfl
@[simp] theorem updFaultQ_rem (s : State) (p : Nat) (f : FaultQ → FaultQ) : (updFaultQ s p f).rem = s.rem := rfl
@[simp] theorem updFaultQ_ledgers (s : State) (p : Nat) (f : FaultQ → FaultQ) : (updFaultQ s p f).ledgers = s.ledgers := rfl
@[simp] theorem updFaultQ_partRegs (s : State) (p : Nat) (f : FaultQ → FaultQ) : (updFaultQ s p f).partRegs = s.partRegs := rfl
@[simp] theorem updFaultQ_sels (s : State) (p : Nat) (f : FaultQ → FaultQ) : (updFaultQ s p f).sels = s.sels := rfl
@[simp] theorem updFaultQ_drawn (s : State) (p : Nat) (f : FaultQ → FaultQ) : (updFaultQ s p f).drawn = s.drawn := rfl
@[simp] theorem updFaultQ_out (s : State) (p : Nat) (f : FaultQ → FaultQ) : (updFaultQ s p f).out = s.out := rfl

/-! ## updPartner -/

@[simp] theorem updPartner_pending (s : State) (r : Nat) (f : Partner → Partner) : (updPartner s r f).pending = s.pending := rfl
@[simp] theorem updPartner_time (s : State) (r : Nat) (f : Partner → Partner) : (updPartner s r f).time = s.time := rfl
@[simp] theorem updPartner_fuses (s : State) (r : Nat) (f : Partner → Partner) : (updPartner s r f).fuses = s.fuses := rfl
@[simp] theorem updPartner_flash (s : State) (r : Nat) (f : Partner → Partner) : (updPartner s r f).flash = s.flash := rfl
@[simp] theorem updPartner_mem (s : State) (r : Nat) (f : Partner → Partner) : (updPartner s r f).mem = s.mem := rfl
@[simp] theorem updPartner_cfg (s : State) (r : Nat) (f : Partner → Partner) : (updPartner s r f).cfg = s.cfg := rfl
@[simp] theorem updPartner_copy (s : State) (r : Nat) (f : Partner → Partner) : (updPartner s r f).copy = s.copy := rfl
@[simp] theorem updPartner_status (s : State) (r : Nat) (f : Partner → Partner) : (updPartner s r f).status = s.status := rfl
@[simp] theorem updPartner_power (s : State) (r : Nat) (f : Partner → Partner) : (updPartner s r f).power = s.power := rfl
@[simp] theorem updPartner_integ (s : State) (r : Nat) (f : Partner → Partner) : (updPartner s r f).integ = s.integ := rfl
@[simp] theorem updPartner_test (s : State) (r : Nat) (f : Partner → Partner) : (updPartner s r f).test = s.test := rfl
@[simp] theorem updPartner_halfReset (s : State) (r : Nat) (f : Partner → Partner) : (updPartner s r f).halfReset = s.halfReset := rfl
@[simp] theorem updPartner_ctxs (s : State) (r : Nat) (f : Partner → Partner) : (updPartner s r f).ctxs = s.ctxs := rfl
@[simp] theorem updPartner_q (s : State) (r : Nat) (f : Partner → Partner) : (updPartner s r f).q = s.q := rfl
@[simp] theorem updPartner_run (s : State) (r : Nat) (f : Partner → Partner) : (updPartner s r f).run = s.run := rfl
@[simp] theorem updPartner_buf (s : State) (r : Nat) (f : Partner → Partner) : (updPartner s r f).buf = s.buf := rfl
@[simp] theorem updPartner_ctr (s : State) (r : Nat) (f : Partner → Partner) : (updPartner s r f).ctr = s.ctr := rfl
@[simp] theorem updPartner_seg (s : State) (r : Nat) (f : Partner → Partner) : (updPartner s r f).seg = s.seg := rfl
@[simp] theorem updPartner_channels (s : State) (r : Nat) (f : Partner → Partner) : (updPartner s r f).channels = s.channels := rfl
@[simp] theorem updPartner_ledgers (s : State) (r : Nat) (f : Partner → Partner) : (updPartner s r f).ledgers = s.ledgers := rfl
@[simp] theorem updPartner_partRegs (s : State) (r : Nat) (f : Partner → Partner) : (updPartner s r f).partRegs = s.partRegs := rfl
@[simp] theorem updPartner_sels (s : State) (r : Nat) (f : Partner → Partner) : (updPartner s r f).sels = s.sels := rfl
@[simp] theorem updPartner_drawn (s : State) (r : Nat) (f : Partner → Partner) : (updPartner s r f).drawn = s.drawn := rfl
@[simp] theorem updPartner_out (s : State) (r : Nat) (f : Partner → Partner) : (updPartner s r f).out = s.out := rfl

/-! ## updLedger -/

@[simp] theorem updLedger_pending (s : State) (p : Nat) (f : LedgerSt → LedgerSt) : (updLedger s p f).pending = s.pending := rfl
@[simp] theorem updLedger_time (s : State) (p : Nat) (f : LedgerSt → LedgerSt) : (updLedger s p f).time = s.time := rfl
@[simp] theorem updLedger_fuses (s : State) (p : Nat) (f : LedgerSt → LedgerSt) : (updLedger s p f).fuses = s.fuses := rfl
@[simp] theorem updLedger_flash (s : State) (p : Nat) (f : LedgerSt → LedgerSt) : (updLedger s p f).flash = s.flash := rfl
@[simp] theorem updLedger_mem (s : State) (p : Nat) (f : LedgerSt → LedgerSt) : (updLedger s p f).mem = s.mem := rfl
@[simp] theorem updLedger_cfg (s : State) (p : Nat) (f : LedgerSt → LedgerSt) : (updLedger s p f).cfg = s.cfg := rfl
@[simp] theorem updLedger_copy (s : State) (p : Nat) (f : LedgerSt → LedgerSt) : (updLedger s p f).copy = s.copy := rfl
@[simp] theorem updLedger_status (s : State) (p : Nat) (f : LedgerSt → LedgerSt) : (updLedger s p f).status = s.status := rfl
@[simp] theorem updLedger_power (s : State) (p : Nat) (f : LedgerSt → LedgerSt) : (updLedger s p f).power = s.power := rfl
@[simp] theorem updLedger_integ (s : State) (p : Nat) (f : LedgerSt → LedgerSt) : (updLedger s p f).integ = s.integ := rfl
@[simp] theorem updLedger_test (s : State) (p : Nat) (f : LedgerSt → LedgerSt) : (updLedger s p f).test = s.test := rfl
@[simp] theorem updLedger_halfReset (s : State) (p : Nat) (f : LedgerSt → LedgerSt) : (updLedger s p f).halfReset = s.halfReset := rfl
@[simp] theorem updLedger_ctxs (s : State) (p : Nat) (f : LedgerSt → LedgerSt) : (updLedger s p f).ctxs = s.ctxs := rfl
@[simp] theorem updLedger_q (s : State) (p : Nat) (f : LedgerSt → LedgerSt) : (updLedger s p f).q = s.q := rfl
@[simp] theorem updLedger_run (s : State) (p : Nat) (f : LedgerSt → LedgerSt) : (updLedger s p f).run = s.run := rfl
@[simp] theorem updLedger_buf (s : State) (p : Nat) (f : LedgerSt → LedgerSt) : (updLedger s p f).buf = s.buf := rfl
@[simp] theorem updLedger_ctr (s : State) (p : Nat) (f : LedgerSt → LedgerSt) : (updLedger s p f).ctr = s.ctr := rfl
@[simp] theorem updLedger_seg (s : State) (p : Nat) (f : LedgerSt → LedgerSt) : (updLedger s p f).seg = s.seg := rfl
@[simp] theorem updLedger_channels (s : State) (p : Nat) (f : LedgerSt → LedgerSt) : (updLedger s p f).channels = s.channels := rfl
@[simp] theorem updLedger_rem (s : State) (p : Nat) (f : LedgerSt → LedgerSt) : (updLedger s p f).rem = s.rem := rfl
@[simp] theorem updLedger_partRegs (s : State) (p : Nat) (f : LedgerSt → LedgerSt) : (updLedger s p f).partRegs = s.partRegs := rfl
@[simp] theorem updLedger_sels (s : State) (p : Nat) (f : LedgerSt → LedgerSt) : (updLedger s p f).sels = s.sels := rfl
@[simp] theorem updLedger_drawn (s : State) (p : Nat) (f : LedgerSt → LedgerSt) : (updLedger s p f).drawn = s.drawn := rfl
@[simp] theorem updLedger_out (s : State) (p : Nat) (f : LedgerSt → LedgerSt) : (updLedger s p f).out = s.out := rfl

/-! ## updPartRegs -/

@[simp] theorem updPartRegs_pending (s : State) (p : Nat) (f : PartRegs → PartRegs) : (updPartRegs s p f).pending = s.pending := rfl
@[simp] theorem updPartRegs_time (s : State) (p : Nat) (f : PartRegs → PartRegs) : (updPartRegs s p f).time = s.time := rfl
@[simp] theorem updPartRegs_fuses (s : State) (p : Nat) (f : PartRegs → PartRegs) : (updPartRegs s p f).fuses = s.fuses := rfl
@[simp] theorem updPartRegs_flash (s : State) (p : Nat) (f : PartRegs → PartRegs) : (updPartRegs s p f).flash = s.flash := rfl
@[simp] theorem updPartRegs_mem (s : State) (p : Nat) (f : PartRegs → PartRegs) : (updPartRegs s p f).mem = s.mem := rfl
@[simp] theorem updPartRegs_cfg (s : State) (p : Nat) (f : PartRegs → PartRegs) : (updPartRegs s p f).cfg = s.cfg := rfl
@[simp] theorem updPartRegs_copy (s : State) (p : Nat) (f : PartRegs → PartRegs) : (updPartRegs s p f).copy = s.copy := rfl
@[simp] theorem updPartRegs_status (s : State) (p : Nat) (f : PartRegs → PartRegs) : (updPartRegs s p f).status = s.status := rfl
@[simp] theorem updPartRegs_power (s : State) (p : Nat) (f : PartRegs → PartRegs) : (updPartRegs s p f).power = s.power := rfl
@[simp] theorem updPartRegs_integ (s : State) (p : Nat) (f : PartRegs → PartRegs) : (updPartRegs s p f).integ = s.integ := rfl
@[simp] theorem updPartRegs_test (s : State) (p : Nat) (f : PartRegs → PartRegs) : (updPartRegs s p f).test = s.test := rfl
@[simp] theorem updPartRegs_halfReset (s : State) (p : Nat) (f : PartRegs → PartRegs) : (updPartRegs s p f).halfReset = s.halfReset := rfl
@[simp] theorem updPartRegs_ctxs (s : State) (p : Nat) (f : PartRegs → PartRegs) : (updPartRegs s p f).ctxs = s.ctxs := rfl
@[simp] theorem updPartRegs_q (s : State) (p : Nat) (f : PartRegs → PartRegs) : (updPartRegs s p f).q = s.q := rfl
@[simp] theorem updPartRegs_run (s : State) (p : Nat) (f : PartRegs → PartRegs) : (updPartRegs s p f).run = s.run := rfl
@[simp] theorem updPartRegs_buf (s : State) (p : Nat) (f : PartRegs → PartRegs) : (updPartRegs s p f).buf = s.buf := rfl
@[simp] theorem updPartRegs_ctr (s : State) (p : Nat) (f : PartRegs → PartRegs) : (updPartRegs s p f).ctr = s.ctr := rfl
@[simp] theorem updPartRegs_seg (s : State) (p : Nat) (f : PartRegs → PartRegs) : (updPartRegs s p f).seg = s.seg := rfl
@[simp] theorem updPartRegs_channels (s : State) (p : Nat) (f : PartRegs → PartRegs) : (updPartRegs s p f).channels = s.channels := rfl
@[simp] theorem updPartRegs_rem (s : State) (p : Nat) (f : PartRegs → PartRegs) : (updPartRegs s p f).rem = s.rem := rfl
@[simp] theorem updPartRegs_ledgers (s : State) (p : Nat) (f : PartRegs → PartRegs) : (updPartRegs s p f).ledgers = s.ledgers := rfl
@[simp] theorem updPartRegs_sels (s : State) (p : Nat) (f : PartRegs → PartRegs) : (updPartRegs s p f).sels = s.sels := rfl
@[simp] theorem updPartRegs_drawn (s : State) (p : Nat) (f : PartRegs → PartRegs) : (updPartRegs s p f).drawn = s.drawn := rfl
@[simp] theorem updPartRegs_out (s : State) (p : Nat) (f : PartRegs → PartRegs) : (updPartRegs s p f).out = s.out := rfl

/-! ## updChannel -/

@[simp] theorem updChannel_pending (s : State) (c ch : Nat) (f : ChannelSt → ChannelSt) : (updChannel s c ch f).pending = s.pending := rfl
@[simp] theorem updChannel_time (s : State) (c ch : Nat) (f : ChannelSt → ChannelSt) : (updChannel s c ch f).time = s.time := rfl
@[simp] theorem updChannel_fuses (s : State) (c ch : Nat) (f : ChannelSt → ChannelSt) : (updChannel s c ch f).fuses = s.fuses := rfl
@[simp] theorem updChannel_flash (s : State) (c ch : Nat) (f : ChannelSt → ChannelSt) : (updChannel s c ch f).flash = s.flash := rfl
@[simp] theorem updChannel_mem (s : State) (c ch : Nat) (f : ChannelSt → ChannelSt) : (updChannel s c ch f).mem = s.mem := rfl
@[simp] theorem updChannel_cfg (s : State) (c ch : Nat) (f : ChannelSt → ChannelSt) : (updChannel s c ch f).cfg = s.cfg := rfl
@[simp] theorem updChannel_copy (s : State) (c ch : Nat) (f : ChannelSt → ChannelSt) : (updChannel s c ch f).copy = s.copy := rfl
@[simp] theorem updChannel_status (s : State) (c ch : Nat) (f : ChannelSt → ChannelSt) : (updChannel s c ch f).status = s.status := rfl
@[simp] theorem updChannel_power (s : State) (c ch : Nat) (f : ChannelSt → ChannelSt) : (updChannel s c ch f).power = s.power := rfl
@[simp] theorem updChannel_integ (s : State) (c ch : Nat) (f : ChannelSt → ChannelSt) : (updChannel s c ch f).integ = s.integ := rfl
@[simp] theorem updChannel_test (s : State) (c ch : Nat) (f : ChannelSt → ChannelSt) : (updChannel s c ch f).test = s.test := rfl
@[simp] theorem updChannel_halfReset (s : State) (c ch : Nat) (f : ChannelSt → ChannelSt) : (updChannel s c ch f).halfReset = s.halfReset := rfl
@[simp] theorem updChannel_ctxs (s : State) (c ch : Nat) (f : ChannelSt → ChannelSt) : (updChannel s c ch f).ctxs = s.ctxs := rfl
@[simp] theorem updChannel_q (s : State) (c ch : Nat) (f : ChannelSt → ChannelSt) : (updChannel s c ch f).q = s.q := rfl
@[simp] theorem updChannel_run (s : State) (c ch : Nat) (f : ChannelSt → ChannelSt) : (updChannel s c ch f).run = s.run := rfl
@[simp] theorem updChannel_buf (s : State) (c ch : Nat) (f : ChannelSt → ChannelSt) : (updChannel s c ch f).buf = s.buf := rfl
@[simp] theorem updChannel_ctr (s : State) (c ch : Nat) (f : ChannelSt → ChannelSt) : (updChannel s c ch f).ctr = s.ctr := rfl
@[simp] theorem updChannel_seg (s : State) (c ch : Nat) (f : ChannelSt → ChannelSt) : (updChannel s c ch f).seg = s.seg := rfl
@[simp] theorem updChannel_rem (s : State) (c ch : Nat) (f : ChannelSt → ChannelSt) : (updChannel s c ch f).rem = s.rem := rfl
@[simp] theorem updChannel_ledgers (s : State) (c ch : Nat) (f : ChannelSt → ChannelSt) : (updChannel s c ch f).ledgers = s.ledgers := rfl
@[simp] theorem updChannel_partRegs (s : State) (c ch : Nat) (f : ChannelSt → ChannelSt) : (updChannel s c ch f).partRegs = s.partRegs := rfl
@[simp] theorem updChannel_sels (s : State) (c ch : Nat) (f : ChannelSt → ChannelSt) : (updChannel s c ch f).sels = s.sels := rfl
@[simp] theorem updChannel_drawn (s : State) (c ch : Nat) (f : ChannelSt → ChannelSt) : (updChannel s c ch f).drawn = s.drawn := rfl
@[simp] theorem updChannel_out (s : State) (c ch : Nat) (f : ChannelSt → ChannelSt) : (updChannel s c ch f).out = s.out := rfl

/-! ## updSel -/

@[simp] theorem updSel_pending (s : State) (pg : Page) (f : Selectors → Selectors) : (updSel s pg f).pending = s.pending := rfl
@[simp] theorem updSel_time (s : State) (pg : Page) (f : Selectors → Selectors) : (updSel s pg f).time = s.time := rfl
@[simp] theorem updSel_fuses (s : State) (pg : Page) (f : Selectors → Selectors) : (updSel s pg f).fuses = s.fuses := rfl
@[simp] theorem updSel_flash (s : State) (pg : Page) (f : Selectors → Selectors) : (updSel s pg f).flash = s.flash := rfl
@[simp] theorem updSel_mem (s : State) (pg : Page) (f : Selectors → Selectors) : (updSel s pg f).mem = s.mem := rfl
@[simp] theorem updSel_cfg (s : State) (pg : Page) (f : Selectors → Selectors) : (updSel s pg f).cfg = s.cfg := rfl
@[simp] theorem updSel_copy (s : State) (pg : Page) (f : Selectors → Selectors) : (updSel s pg f).copy = s.copy := rfl
@[simp] theorem updSel_status (s : State) (pg : Page) (f : Selectors → Selectors) : (updSel s pg f).status = s.status := rfl
@[simp] theorem updSel_power (s : State) (pg : Page) (f : Selectors → Selectors) : (updSel s pg f).power = s.power := rfl
@[simp] theorem updSel_integ (s : State) (pg : Page) (f : Selectors → Selectors) : (updSel s pg f).integ = s.integ := rfl
@[simp] theorem updSel_test (s : State) (pg : Page) (f : Selectors → Selectors) : (updSel s pg f).test = s.test := rfl
@[simp] theorem updSel_halfReset (s : State) (pg : Page) (f : Selectors → Selectors) : (updSel s pg f).halfReset = s.halfReset := rfl
@[simp] theorem updSel_ctxs (s : State) (pg : Page) (f : Selectors → Selectors) : (updSel s pg f).ctxs = s.ctxs := rfl
@[simp] theorem updSel_q (s : State) (pg : Page) (f : Selectors → Selectors) : (updSel s pg f).q = s.q := rfl
@[simp] theorem updSel_run (s : State) (pg : Page) (f : Selectors → Selectors) : (updSel s pg f).run = s.run := rfl
@[simp] theorem updSel_buf (s : State) (pg : Page) (f : Selectors → Selectors) : (updSel s pg f).buf = s.buf := rfl
@[simp] theorem updSel_ctr (s : State) (pg : Page) (f : Selectors → Selectors) : (updSel s pg f).ctr = s.ctr := rfl
@[simp] theorem updSel_seg (s : State) (pg : Page) (f : Selectors → Selectors) : (updSel s pg f).seg = s.seg := rfl
@[simp] theorem updSel_channels (s : State) (pg : Page) (f : Selectors → Selectors) : (updSel s pg f).channels = s.channels := rfl
@[simp] theorem updSel_rem (s : State) (pg : Page) (f : Selectors → Selectors) : (updSel s pg f).rem = s.rem := rfl
@[simp] theorem updSel_ledgers (s : State) (pg : Page) (f : Selectors → Selectors) : (updSel s pg f).ledgers = s.ledgers := rfl
@[simp] theorem updSel_partRegs (s : State) (pg : Page) (f : Selectors → Selectors) : (updSel s pg f).partRegs = s.partRegs := rfl
@[simp] theorem updSel_drawn (s : State) (pg : Page) (f : Selectors → Selectors) : (updSel s pg f).drawn = s.drawn := rfl
@[simp] theorem updSel_out (s : State) (pg : Page) (f : Selectors → Selectors) : (updSel s pg f).out = s.out := rfl

/-! ## updTest -/

@[simp] theorem updTest_pending (s : State) (f : TestSt → TestSt) : (updTest s f).pending = s.pending := rfl
@[simp] theorem updTest_time (s : State) (f : TestSt → TestSt) : (updTest s f).time = s.time := rfl
@[simp] theorem updTest_fuses (s : State) (f : TestSt → TestSt) : (updTest s f).fuses = s.fuses := rfl
@[simp] theorem updTest_flash (s : State) (f : TestSt → TestSt) : (updTest s f).flash = s.flash := rfl
@[simp] theorem updTest_mem (s : State) (f : TestSt → TestSt) : (updTest s f).mem = s.mem := rfl
@[simp] theorem updTest_cfg (s : State) (f : TestSt → TestSt) : (updTest s f).cfg = s.cfg := rfl
@[simp] theorem updTest_copy (s : State) (f : TestSt → TestSt) : (updTest s f).copy = s.copy := rfl
@[simp] theorem updTest_status (s : State) (f : TestSt → TestSt) : (updTest s f).status = s.status := rfl
@[simp] theorem updTest_power (s : State) (f : TestSt → TestSt) : (updTest s f).power = s.power := rfl
@[simp] theorem updTest_integ (s : State) (f : TestSt → TestSt) : (updTest s f).integ = s.integ := rfl
@[simp] theorem updTest_halfReset (s : State) (f : TestSt → TestSt) : (updTest s f).halfReset = s.halfReset := rfl
@[simp] theorem updTest_ctxs (s : State) (f : TestSt → TestSt) : (updTest s f).ctxs = s.ctxs := rfl
@[simp] theorem updTest_q (s : State) (f : TestSt → TestSt) : (updTest s f).q = s.q := rfl
@[simp] theorem updTest_run (s : State) (f : TestSt → TestSt) : (updTest s f).run = s.run := rfl
@[simp] theorem updTest_buf (s : State) (f : TestSt → TestSt) : (updTest s f).buf = s.buf := rfl
@[simp] theorem updTest_ctr (s : State) (f : TestSt → TestSt) : (updTest s f).ctr = s.ctr := rfl
@[simp] theorem updTest_seg (s : State) (f : TestSt → TestSt) : (updTest s f).seg = s.seg := rfl
@[simp] theorem updTest_channels (s : State) (f : TestSt → TestSt) : (updTest s f).channels = s.channels := rfl
@[simp] theorem updTest_rem (s : State) (f : TestSt → TestSt) : (updTest s f).rem = s.rem := rfl
@[simp] theorem updTest_ledgers (s : State) (f : TestSt → TestSt) : (updTest s f).ledgers = s.ledgers := rfl
@[simp] theorem updTest_partRegs (s : State) (f : TestSt → TestSt) : (updTest s f).partRegs = s.partRegs := rfl
@[simp] theorem updTest_sels (s : State) (f : TestSt → TestSt) : (updTest s f).sels = s.sels := rfl
@[simp] theorem updTest_drawn (s : State) (f : TestSt → TestSt) : (updTest s f).drawn = s.drawn := rfl
@[simp] theorem updTest_out (s : State) (f : TestSt → TestSt) : (updTest s f).out = s.out := rfl

/-! ## sendMsix -/

@[simp] theorem sendMsix_pending (s : State) (p v : Nat) : (sendMsix s p v).pending = s.pending := rfl
@[simp] theorem sendMsix_time (s : State) (p v : Nat) : (sendMsix s p v).time = s.time := rfl
@[simp] theorem sendMsix_fuses (s : State) (p v : Nat) : (sendMsix s p v).fuses = s.fuses := rfl
@[simp] theorem sendMsix_flash (s : State) (p v : Nat) : (sendMsix s p v).flash = s.flash := rfl
@[simp] theorem sendMsix_mem (s : State) (p v : Nat) : (sendMsix s p v).mem = s.mem := rfl
@[simp] theorem sendMsix_cfg (s : State) (p v : Nat) : (sendMsix s p v).cfg = s.cfg := rfl
@[simp] theorem sendMsix_copy (s : State) (p v : Nat) : (sendMsix s p v).copy = s.copy := rfl
@[simp] theorem sendMsix_status (s : State) (p v : Nat) : (sendMsix s p v).status = s.status := rfl
@[simp] theorem sendMsix_power (s : State) (p v : Nat) : (sendMsix s p v).power = s.power := rfl
@[simp] theorem sendMsix_integ (s : State) (p v : Nat) : (sendMsix s p v).integ = s.integ := rfl
@[simp] theorem sendMsix_test (s : State) (p v : Nat) : (sendMsix s p v).test = s.test := rfl
@[simp] theorem sendMsix_halfReset (s : State) (p v : Nat) : (sendMsix s p v).halfReset = s.halfReset := rfl
@[simp] theorem sendMsix_ctxs (s : State) (p v : Nat) : (sendMsix s p v).ctxs = s.ctxs := rfl
@[simp] theorem sendMsix_q (s : State) (p v : Nat) : (sendMsix s p v).q = s.q := rfl
@[simp] theorem sendMsix_run (s : State) (p v : Nat) : (sendMsix s p v).run = s.run := rfl
@[simp] theorem sendMsix_buf (s : State) (p v : Nat) : (sendMsix s p v).buf = s.buf := rfl
@[simp] theorem sendMsix_ctr (s : State) (p v : Nat) : (sendMsix s p v).ctr = s.ctr := rfl
@[simp] theorem sendMsix_seg (s : State) (p v : Nat) : (sendMsix s p v).seg = s.seg := rfl
@[simp] theorem sendMsix_channels (s : State) (p v : Nat) : (sendMsix s p v).channels = s.channels := rfl
@[simp] theorem sendMsix_rem (s : State) (p v : Nat) : (sendMsix s p v).rem = s.rem := rfl
@[simp] theorem sendMsix_ledgers (s : State) (p v : Nat) : (sendMsix s p v).ledgers = s.ledgers := rfl
@[simp] theorem sendMsix_partRegs (s : State) (p v : Nat) : (sendMsix s p v).partRegs = s.partRegs := rfl
@[simp] theorem sendMsix_sels (s : State) (p v : Nat) : (sendMsix s p v).sels = s.sels := rfl
@[simp] theorem sendMsix_drawn (s : State) (p v : Nat) : (sendMsix s p v).drawn = s.drawn := rfl

/-! ## hostWrite -/

@[simp] theorem hostWrite_pending (s : State) (p x : Nat) (bs : List Byte) : (hostWrite s p x bs).pending = s.pending := rfl
@[simp] theorem hostWrite_time (s : State) (p x : Nat) (bs : List Byte) : (hostWrite s p x bs).time = s.time := rfl
@[simp] theorem hostWrite_fuses (s : State) (p x : Nat) (bs : List Byte) : (hostWrite s p x bs).fuses = s.fuses := rfl
@[simp] theorem hostWrite_flash (s : State) (p x : Nat) (bs : List Byte) : (hostWrite s p x bs).flash = s.flash := rfl
@[simp] theorem hostWrite_cfg (s : State) (p x : Nat) (bs : List Byte) : (hostWrite s p x bs).cfg = s.cfg := rfl
@[simp] theorem hostWrite_copy (s : State) (p x : Nat) (bs : List Byte) : (hostWrite s p x bs).copy = s.copy := rfl
@[simp] theorem hostWrite_status (s : State) (p x : Nat) (bs : List Byte) : (hostWrite s p x bs).status = s.status := rfl
@[simp] theorem hostWrite_power (s : State) (p x : Nat) (bs : List Byte) : (hostWrite s p x bs).power = s.power := rfl
@[simp] theorem hostWrite_integ (s : State) (p x : Nat) (bs : List Byte) : (hostWrite s p x bs).integ = s.integ := rfl
@[simp] theorem hostWrite_test (s : State) (p x : Nat) (bs : List Byte) : (hostWrite s p x bs).test = s.test := rfl
@[simp] theorem hostWrite_halfReset (s : State) (p x : Nat) (bs : List Byte) : (hostWrite s p x bs).halfReset = s.halfReset := rfl
@[simp] theorem hostWrite_ctxs (s : State) (p x : Nat) (bs : List Byte) : (hostWrite s p x bs).ctxs = s.ctxs := rfl
@[simp] theorem hostWrite_q (s : State) (p x : Nat) (bs : List Byte) : (hostWrite s p x bs).q = s.q := rfl
@[simp] theorem hostWrite_run (s : State) (p x : Nat) (bs : List Byte) : (hostWrite s p x bs).run = s.run := rfl
@[simp] theorem hostWrite_buf (s : State) (p x : Nat) (bs : List Byte) : (hostWrite s p x bs).buf = s.buf := rfl
@[simp] theorem hostWrite_ctr (s : State) (p x : Nat) (bs : List Byte) : (hostWrite s p x bs).ctr = s.ctr := rfl
@[simp] theorem hostWrite_seg (s : State) (p x : Nat) (bs : List Byte) : (hostWrite s p x bs).seg = s.seg := rfl
@[simp] theorem hostWrite_channels (s : State) (p x : Nat) (bs : List Byte) : (hostWrite s p x bs).channels = s.channels := rfl
@[simp] theorem hostWrite_rem (s : State) (p x : Nat) (bs : List Byte) : (hostWrite s p x bs).rem = s.rem := rfl
@[simp] theorem hostWrite_ledgers (s : State) (p x : Nat) (bs : List Byte) : (hostWrite s p x bs).ledgers = s.ledgers := rfl
@[simp] theorem hostWrite_partRegs (s : State) (p x : Nat) (bs : List Byte) : (hostWrite s p x bs).partRegs = s.partRegs := rfl
@[simp] theorem hostWrite_sels (s : State) (p x : Nat) (bs : List Byte) : (hostWrite s p x bs).sels = s.sels := rfl
@[simp] theorem hostWrite_drawn (s : State) (p x : Nat) (bs : List Byte) : (hostWrite s p x bs).drawn = s.drawn := rfl
@[simp] theorem hostWrite_out (s : State) (p x : Nat) (bs : List Byte) : (hostWrite s p x bs).out = s.out := rfl

end Sys2Proof.Machine
end

