-- ==== Sys2Proof/Laws/Time.lean ====
section
/-! SUPPORT. What the passing of time can change (`timePart`), and what it leaves: the queue of commands, fuses, flash, settings, status,
integrity and test blocks, channels and registers; and that a machine with nothing under way only gets older. -/

namespace Sys2Proof.Machine

/-! ## How far time passes -/

/-- Letting time pass up to mc `t` ends at mc `t`, whatever happens on the way. -/
theorem advanceTo_time : ∀ (f : Nat) (s : State) (t : Mc), (advanceTo f s t).time = t
  | 0, _, _ => rfl
  | f + 1, s, t => by
    unfold advanceTo
    split
    · split
      · exact advanceTo_time f _ t
      · rfl
    · rfl

/-- The state at an mc that lies ahead: the part that time can change, from the machine to which everything up to it has happened. -/
theorem atTime_ahead {s : State} {t : Mc} (h : s.time < t) :
    atTime s t = timePart s (syncPorts (advanceTo (t - s.time) s t)) := if_neg (Nat.not_le_of_lt h)

/-- Everything that the passing of time can do. -/
theorem atTime_frame (s : State) (t : Mc) :
    (t ≤ s.time ∧ atTime s t = s) ∨ (s.time < t ∧ ∃ x : State, x.time = t ∧ atTime s t = timePart s x) := by
  rcases Nat.lt_or_ge s.time t with h | h
  · exact .inr ⟨h, syncPorts (advanceTo (t - s.time) s t), advanceTo_time _ s t, atTime_ahead h⟩
  · exact .inl ⟨h, if_pos h⟩

/-- A time that does not lie ahead changes nothing. -/
theorem atTime_past {s : State} {t : Mc} (h : t ≤ s.time) : atTime s t = s := if_pos h

/-- A machine in which nothing is under way only gets older: TIME, HTIME, and the wheels and credits of its ports. -/
theorem atTime_quiet {s : State} {t : Mc} (h : nextEvent s = none) (ht : s.time < t) : atTime s t = syncPorts (jumpTo s t) := by
  rw [atTime_ahead ht]
  have e : advanceTo (t - s.time) s t = jumpTo s t := by
    unfold advanceTo
    split
    · rfl
    · rw [h]
  rw [e]
  have keeps : (tickHearth s.power (t - s.time)).glow = s.power.glow := by
    unfold tickHearth bellows
    cases s.power.entry <;> rfl
  simp [timePart, syncPorts, passPclk, jumpTo, powerPart, keeps]

@[simp] theorem atTime_pending (s : State) (t : Mc) : (atTime s t).pending = s.pending := by
  rcases atTime_frame s t with ⟨_, h⟩ | ⟨_, _, _, h⟩ <;> rw [h]; rfl
@[simp] theorem atTime_fuses (s : State) (t : Mc) : (atTime s t).fuses = s.fuses := by
  rcases atTime_frame s t with ⟨_, h⟩ | ⟨_, _, _, h⟩ <;> rw [h]; rfl
@[simp] theorem atTime_flash (s : State) (t : Mc) : (atTime s t).flash = s.flash := by
  rcases atTime_frame s t with ⟨_, h⟩ | ⟨_, _, _, h⟩ <;> rw [h]; rfl
@[simp] theorem atTime_cfg (s : State) (t : Mc) : (atTime s t).cfg = s.cfg := by
  rcases atTime_frame s t with ⟨_, h⟩ | ⟨_, _, _, h⟩ <;> rw [h]; rfl
@[simp] theorem atTime_copy (s : State) (t : Mc) : (atTime s t).copy = s.copy := by
  rcases atTime_frame s t with ⟨_, h⟩ | ⟨_, _, _, h⟩ <;> rw [h]; rfl
@[simp] theorem atTime_status (s : State) (t : Mc) : (atTime s t).status = s.status := by
  rcases atTime_frame s t with ⟨_, h⟩ | ⟨_, _, _, h⟩ <;> rw [h]; rfl
@[simp] theorem atTime_integ (s : State) (t : Mc) : (atTime s t).integ = s.integ := by
  rcases atTime_frame s t with ⟨_, h⟩ | ⟨_, _, _, h⟩ <;> rw [h]; rfl
@[simp] theorem atTime_halfReset (s : State) (t : Mc) : (atTime s t).halfReset = s.halfReset := by
  rcases atTime_frame s t with ⟨_, h⟩ | ⟨_, _, _, h⟩ <;> rw [h]; rfl
@[simp] theorem atTime_channels (s : State) (t : Mc) : (atTime s t).channels = s.channels := by
  rcases atTime_frame s t with ⟨_, h⟩ | ⟨_, _, _, h⟩ <;> rw [h]; rfl
@[simp] theorem atTime_partRegs (s : State) (t : Mc) : (atTime s t).partRegs = s.partRegs := by
  rcases atTime_frame s t with ⟨_, h⟩ | ⟨_, _, _, h⟩ <;> rw [h]; rfl
@[simp] theorem atTime_sels (s : State) (t : Mc) : (atTime s t).sels = s.sels := by
  rcases atTime_frame s t with ⟨_, h⟩ | ⟨_, _, _, h⟩ <;> rw [h]; rfl

@[simp] theorem atTime_time (s : State) (t : Mc) : (atTime s t).time = max s.time t := by
  rcases atTime_frame s t with ⟨l, h⟩ | ⟨l, x, e, h⟩
  · rw [h, Nat.max_eq_left l]
  · rw [h, Nat.max_eq_right l.le]; exact e

/-- The steps of a Banked entry go on; none begins or ends by itself. -/
theorem powerPart_frame (p q : PowerSt) (mc : Nat) :
    ∃ a b busy ran held glow rails entry, powerPart p q mc =
      { p with htime := a, hfrac := b, busyAt := busy, ran := ran, wakeHeld := held, glow := glow, rails := rails, entry := entry } ∧
      entry.isSome = p.entry.isSome ∧ ∀ h, glow.get h = true → p.glow.get h = true := by
  have down : ∀ h, (⟨p.glow.east && q.glow.east, p.glow.west && q.glow.west⟩ : Both Bool).get h = true → p.glow.get h = true := by
    intro h hg
    cases h <;> simp only [Both.get, Bool.and_eq_true] at hg ⊢ <;> exact hg.1
  unfold powerPart tickHearth bellows
  cases he : p.entry with
  | none =>
    simp only
    split
    · exact ⟨_, _, _, _, _, _, _, _, rfl, rfl, fun _ hg => hg⟩
    · exact ⟨_, _, _, _, _, _, _, _, rfl, by simp, down⟩
  | some e =>
    simp only
    split
    · exact ⟨_, _, _, _, _, _, _, _, rfl, rfl, fun _ hg => hg⟩
    · exact ⟨_, _, _, _, _, _, _, _, rfl, rfl, down⟩

/-- What the passing of time can do to the power state: the Hearth's clock goes on, and with it a Banked entry that is under way; a half
can leave Glow but not enter it. -/
theorem atTime_power (s : State) (t : Mc) :
    ∃ a b busy ran held glow rails entry, (atTime s t).power =
      { s.power with
        htime := a, hfrac := b, busyAt := busy, ran := ran, wakeHeld := held, glow := glow, rails := rails, entry := entry } ∧
      entry.isSome = s.power.entry.isSome ∧ ∀ h, glow.get h = true → s.power.glow.get h = true := by
  rcases atTime_frame s t with ⟨_, h⟩ | ⟨_, x, _, h⟩
  · rw [h]; exact ⟨_, _, _, _, _, _, _, _, rfl, rfl, fun _ hg => hg⟩
  · rw [h]; exact powerPart_frame s.power x.power (x.time - s.time)

/-- A half that is not in Glow does not enter it by itself. -/
theorem atTime_glow {s : State} {t : Mc} {h : Half} (hg : s.power.glow.get h = false) : (atTime s t).power.glow.get h = false := by
  obtain ⟨_, _, _, _, _, _, _, _, e, _, down⟩ := atTime_power s t
  rw [e]
  exact Bool.eq_false_iff.mpr fun hx => Bool.eq_false_iff.mp hg (down h hx)

@[simp] theorem atTime_power_entry (s : State) (t : Mc) : (atTime s t).power.entry.isSome = s.power.entry.isSome := by
  obtain ⟨_, _, _, _, _, _, _, _, e, i, _⟩ := atTime_power s t
  rw [e]
  exact i

/-- What the passing of time can do to the test block: a memory test ends (R507). -/
theorem atTime_test (s : State) (t : Mc) :
    ∃ a b c, (atTime s t).test = { s.test with mbist := a, mbState := b, mbFail := c } := by
  rcases atTime_frame s t with ⟨_, h⟩ | ⟨_, x, _, h⟩ <;> rw [h] <;> exact ⟨_, _, _, rfl⟩

@[simp] theorem atTime_power_cold (s : State) (t : Mc) : (atTime s t).power.cold = s.power.cold := by
  obtain ⟨_, _, _, _, _, _, _, _, h, _⟩ := atTime_power s t; rw [h]
@[simp] theorem atTime_power_up (s : State) (t : Mc) : (atTime s t).power.up = s.power.up := by
  obtain ⟨_, _, _, _, _, _, _, _, h, _⟩ := atTime_power s t; rw [h]
@[simp] theorem atTime_power_glowAt (s : State) (t : Mc) : (atTime s t).power.glowAt = s.power.glowAt := by
  obtain ⟨_, _, _, _, _, _, _, _, h, _⟩ := atTime_power s t; rw [h]
@[simp] theorem atTime_power_banked (s : State) (t : Mc) : (atTime s t).power.banked = s.power.banked := by
  obtain ⟨_, _, _, _, _, _, _, _, h, _⟩ := atTime_power s t; rw [h]
@[simp] theorem atTime_power_hold (s : State) (t : Mc) : (atTime s t).power.hold = s.power.hold := by
  obtain ⟨_, _, _, _, _, _, _, _, h, _⟩ := atTime_power s t; rw [h]
@[simp] theorem atTime_power_lowest (s : State) (t : Mc) : (atTime s t).power.lowest = s.power.lowest := by
  obtain ⟨_, _, _, _, _, _, _, _, h, _⟩ := atTime_power s t; rw [h]
@[simp] theorem atTime_power_banks (s : State) (t : Mc) : (atTime s t).power.banks = s.power.banks := by
  obtain ⟨_, _, _, _, _, _, _, _, h, _⟩ := atTime_power s t; rw [h]
@[simp] theorem atTime_power_lastWake (s : State) (t : Mc) : (atTime s t).power.lastWake = s.power.lastWake := by
  obtain ⟨_, _, _, _, _, _, _, _, h, _⟩ := atTime_power s t; rw [h]
@[simp] theorem atTime_power_wokeAt (s : State) (t : Mc) : (atTime s t).power.wokeAt = s.power.wokeAt := by
  obtain ⟨_, _, _, _, _, _, _, _, h, _⟩ := atTime_power s t; rw [h]
@[simp] theorem atTime_power_wakePin (s : State) (t : Mc) : (atTime s t).power.wakePin = s.power.wakePin := by
  obtain ⟨_, _, _, _, _, _, _, _, h, _⟩ := atTime_power s t; rw [h]
@[simp] theorem atTime_power_warmPin (s : State) (t : Mc) : (atTime s t).power.warmPin = s.power.warmPin := by
  obtain ⟨_, _, _, _, _, _, _, _, h, _⟩ := atTime_power s t; rw [h]
@[simp] theorem atTime_power_bankReq (s : State) (t : Mc) : (atTime s t).power.bankReq = s.power.bankReq := by
  obtain ⟨_, _, _, _, _, _, _, _, h, _⟩ := atTime_power s t; rw [h]
@[simp] theorem atTime_power_holdRun (s : State) (t : Mc) : (atTime s t).power.holdRun = s.power.holdRun := by
  obtain ⟨_, _, _, _, _, _, _, _, h, _⟩ := atTime_power s t; rw [h]
@[simp] theorem atTime_power_ctrlAt (s : State) (t : Mc) : (atTime s t).power.ctrlAt = s.power.ctrlAt := by
  obtain ⟨_, _, _, _, _, _, _, _, h, _⟩ := atTime_power s t; rw [h]
@[simp] theorem atTime_power_timerAt (s : State) (t : Mc) : (atTime s t).power.timerAt = s.power.timerAt := by
  obtain ⟨_, _, _, _, _, _, _, _, h, _⟩ := atTime_power s t; rw [h]
@[simp] theorem atTime_power_wakeAt (s : State) (t : Mc) : (atTime s t).power.wakeAt = s.power.wakeAt := by
  obtain ⟨_, _, _, _, _, _, _, _, h, _⟩ := atTime_power s t; rw [h]
@[simp] theorem atTime_power_warnings (s : State) (t : Mc) : (atTime s t).power.warnings = s.power.warnings := by
  obtain ⟨_, _, _, _, _, _, _, _, h, _⟩ := atTime_power s t; rw [h]
@[simp] theorem atTime_power_recoveries (s : State) (t : Mc) : (atTime s t).power.recoveries = s.power.recoveries := by
  obtain ⟨_, _, _, _, _, _, _, _, h, _⟩ := atTime_power s t; rw [h]
@[simp] theorem atTime_power_resets (s : State) (t : Mc) : (atTime s t).power.resets = s.power.resets := by
  obtain ⟨_, _, _, _, _, _, _, _, h, _⟩ := atTime_power s t; rw [h]
@[simp] theorem atTime_power_log (s : State) (t : Mc) : (atTime s t).power.log = s.power.log := by
  obtain ⟨_, _, _, _, _, _, _, _, h, _⟩ := atTime_power s t; rw [h]
@[simp] theorem atTime_power_logCount (s : State) (t : Mc) : (atTime s t).power.logCount = s.power.logCount := by
  obtain ⟨_, _, _, _, _, _, _, _, h, _⟩ := atTime_power s t; rw [h]
@[simp] theorem atTime_power_scrubLine (s : State) (t : Mc) : (atTime s t).power.scrubLine = s.power.scrubLine := by
  obtain ⟨_, _, _, _, _, _, _, _, h, _⟩ := atTime_power s t; rw [h]
@[simp] theorem atTime_power_scrubCorrected (s : State) (t : Mc) : (atTime s t).power.scrubCorrected = s.power.scrubCorrected := by
  obtain ⟨_, _, _, _, _, _, _, _, h, _⟩ := atTime_power s t; rw [h]
@[simp] theorem atTime_power_scrubbed (s : State) (t : Mc) : (atTime s t).power.scrubbed = s.power.scrubbed := by
  obtain ⟨_, _, _, _, _, _, _, _, h, _⟩ := atTime_power s t; rw [h]

@[simp] theorem atTime_test_lines (s : State) (t : Mc) : (atTime s t).test.lines = s.test.lines := by
  obtain ⟨_, _, _, h⟩ := atTime_test s t; rw [h]
@[simp] theorem atTime_test_unit (s : State) (t : Mc) : (atTime s t).test.unit = s.test.unit := by
  obtain ⟨_, _, _, h⟩ := atTime_test s t; rw [h]
@[simp] theorem atTime_test_depth (s : State) (t : Mc) : (atTime s t).test.depth = s.test.depth := by
  obtain ⟨_, _, _, h⟩ := atTime_test s t; rw [h]
@[simp] theorem atTime_test_half (s : State) (t : Mc) : (atTime s t).test.half = s.test.half := by
  obtain ⟨_, _, _, h⟩ := atTime_test s t; rw [h]
@[simp] theorem atTime_test_inject (s : State) (t : Mc) : (atTime s t).test.inject = s.test.inject := by
  obtain ⟨_, _, _, h⟩ := atTime_test s t; rw [h]
@[simp] theorem atTime_test_seed (s : State) (t : Mc) : (atTime s t).test.seed = s.test.seed := by
  obtain ⟨_, _, _, h⟩ := atTime_test s t; rw [h]
@[simp] theorem atTime_test_record (s : State) (t : Mc) : (atTime s t).test.record = s.test.record := by
  obtain ⟨_, _, _, h⟩ := atTime_test s t; rw [h]
@[simp] theorem atTime_test_exportId (s : State) (t : Mc) : (atTime s t).test.exportId = s.test.exportId := by
  obtain ⟨_, _, _, h⟩ := atTime_test s t; rw [h]
@[simp] theorem atTime_test_offset (s : State) (t : Mc) : (atTime s t).test.offset = s.test.offset := by
  obtain ⟨_, _, _, h⟩ := atTime_test s t; rw [h]
@[simp] theorem atTime_test_hostBase (s : State) (t : Mc) : (atTime s t).test.hostBase = s.test.hostBase := by
  obtain ⟨_, _, _, h⟩ := atTime_test s t; rw [h]
@[simp] theorem atTime_test_loop (s : State) (t : Mc) : (atTime s t).test.loop = s.test.loop := by
  obtain ⟨_, _, _, h⟩ := atTime_test s t; rw [h]
@[simp] theorem atTime_test_state (s : State) (t : Mc) : (atTime s t).test.state = s.test.state := by
  obtain ⟨_, _, _, h⟩ := atTime_test s t; rw [h]
@[simp] theorem atTime_test_status (s : State) (t : Mc) : (atTime s t).test.status = s.test.status := by
  obtain ⟨_, _, _, h⟩ := atTime_test s t; rw [h]
@[simp] theorem atTime_test_errBits (s : State) (t : Mc) : (atTime s t).test.errBits = s.test.errBits := by
  obtain ⟨_, _, _, h⟩ := atTime_test s t; rw [h]
@[simp] theorem atTime_test_done (s : State) (t : Mc) : (atTime s t).test.done = s.test.done := by
  obtain ⟨_, _, _, h⟩ := atTime_test s t; rw [h]
@[simp] theorem atTime_test_spoiled (s : State) (t : Mc) : (atTime s t).test.spoiled = s.test.spoiled := by
  obtain ⟨_, _, _, h⟩ := atTime_test s t; rw [h]
@[simp] theorem atTime_test_lost (s : State) (t : Mc) : (atTime s t).test.lost = s.test.lost := by
  obtain ⟨_, _, _, h⟩ := atTime_test s t; rw [h]
@[simp] theorem atTime_test_first (s : State) (t : Mc) : (atTime s t).test.first = s.test.first := by
  obtain ⟨_, _, _, h⟩ := atTime_test s t; rw [h]
@[simp] theorem atTime_test_mbHalf (s : State) (t : Mc) : (atTime s t).test.mbHalf = s.test.mbHalf := by
  obtain ⟨_, _, _, h⟩ := atTime_test s t; rw [h]
@[simp] theorem atTime_test_lbDone (s : State) (t : Mc) : (atTime s t).test.lbDone = s.test.lbDone := by
  obtain ⟨_, _, _, h⟩ := atTime_test s t; rw [h]
@[simp] theorem atTime_test_tapOwn (s : State) (t : Mc) : (atTime s t).test.tapOwn = s.test.tapOwn := by
  obtain ⟨_, _, _, h⟩ := atTime_test s t; rw [h]

/-! ## Events that the mover makes by itself -/

/-- What holds already is not waited for. -/
theorem passUntil_holds {p : State → Bool} {s : State} (h : p s = true) : ∀ f, passUntil p f s = s
  | 0 => rfl
  | _ + 1 => if_pos h

/-- An event whose condition holds happens at its TIME. -/
theorem whenReady_now {s : State} {t : Mc} {p : State → Bool} (h : p (atTime s t) = true) : whenReady s t p = atTime s t := by
  simp only [whenReady, passUntil_holds h, ite_self]

/-- An event at a TIME that does not lie ahead, whose condition holds, or which nothing under way brings about. -/
theorem whenReady_past {s : State} {t : Mc} {p : State → Bool} (ht : t ≤ s.time) (h : p s = true ∨ nextEvent s = none) :
    whenReady s t p = s := by
  rcases h with h | h
  · rw [whenReady_now (by rwa [atTime_past ht]), atTime_past ht]
  · have stays : ∀ f, passUntil p f s = s := by
      intro f
      cases f with
      | zero => rfl
      | succ f => simp only [passUntil, h, ite_self]
    simp only [whenReady, atTime_past ht, stays, ite_self]

/-- A hauler whose lines have been issued, or whose lines nothing under way issues, comes to its next instruction at once. -/
theorem atInstr_past {s : State} {t : Mc} {h : HaulerId} (row : String) (ht : t ≤ s.time)
    (hl : linesIssued h s = true ∨ nextEvent s = none) : atInstr s t h row = s := by
  simp only [atInstr, whenReady_past ht hl, atTime_past ht, ite_self]

/-! ## What is looked up in the settings and the tables -/

@[simp] theorem partCfg_atTime (s : State) (t : Mc) (p : Nat) : partCfg (atTime s t) p = partCfg s p := by
  simp [partCfg]
@[simp] theorem ctxCfg_atTime (s : State) (t : Mc) (c : Nat) : ctxCfg (atTime s t) c = ctxCfg s c := by
  simp [ctxCfg]
@[simp] theorem homePort_atTime (s : State) (t : Mc) (p : Nat) : homePort (atTime s t) p = homePort s p := by
  simp [homePort]
@[simp] theorem partOfCtx_atTime (s : State) (t : Mc) (c : Nat) : partOfCtx (atTime s t) c = partOfCtx s c := by
  simp [partOfCtx]
@[simp] theorem homeOfCtx_atTime (s : State) (t : Mc) (c : Nat) : homeOfCtx (atTime s t) c = homeOfCtx s c := by
  simp [homeOfCtx]
@[simp] theorem sqCfg_atTime (s : State) (t : Mc) (q : Nat) : sqCfg (atTime s t) q = sqCfg s q := by
  simp [sqCfg]
@[simp] theorem cqCfg_atTime (s : State) (t : Mc) (q : Nat) : cqCfg (atTime s t) q = cqCfg s q := by
  simp [cqCfg]
@[simp] theorem ctrCfg_atTime (s : State) (t : Mc) (c : Nat) : ctrCfg (atTime s t) c = ctrCfg s c := by
  simp [ctrCfg]
@[simp] theorem ringCfg_atTime (s : State) (t : Mc) (c r : Nat) : ringCfg (atTime s t) c r = ringCfg s c r := by
  simp [ringCfg]
@[simp] theorem handleCfg_atTime (s : State) (t : Mc) (c q : Nat) : handleCfg (atTime s t) c q = handleCfg s c q := by
  simp [handleCfg]
@[simp] theorem pacingCfg_atTime (s : State) (t : Mc) (l : Nat) : pacingCfg (atTime s t) l = pacingCfg s l := by
  simp [pacingCfg]
@[simp] theorem channelCfg_atTime (s : State) (t : Mc) (c h : Nat) : channelCfg (atTime s t) c h = channelCfg s c h := by
  simp [channelCfg]
@[simp] theorem stagingCfg_atTime (s : State) (t : Mc) (c : Nat) : stagingCfg (atTime s t) c = stagingCfg s c := by
  simp [stagingCfg]
@[simp] theorem partnerCfg_atTime (s : State) (t : Mc) (r : Nat) : partnerCfg (atTime s t) r = partnerCfg s r := by
  simp [partnerCfg]
@[simp] theorem exportCfg_atTime (s : State) (t : Mc) (e : Nat) : exportCfg (atTime s t) e = exportCfg s e := by
  simp [exportCfg]
@[simp] theorem redCfg_atTime (s : State) (t : Mc) (c r : Nat) : redCfg (atTime s t) c r = redCfg s c r := by
  simp [redCfg]
@[simp] theorem vEntry_atTime (s : State) (t : Mc) (c v : Nat) : vEntry (atTime s t) c v = vEntry s c v := by
  simp [vEntry]
@[simp] theorem getPartRegs_atTime (s : State) (t : Mc) (p : Nat) : getPartRegs (atTime s t) p = getPartRegs s p := by
  simp [getPartRegs]
@[simp] theorem getChannel_atTime (s : State) (t : Mc) (c h : Nat) : getChannel (atTime s t) c h = getChannel s c h := by
  simp [getChannel]
@[simp] theorem getSel_atTime (s : State) (t : Mc) (pg : Page) : getSel (atTime s t) pg = getSel s pg := by
  simp [getSel]
@[simp] theorem regOpen_atTime (s : State) (t : Mc) (w : RegWrite) (k : RegKind) : regOpen (atTime s t) w k = regOpen s w k := by
  simp [regOpen, regsServed]

/-- The mover runs commands at a later TIME as before. -/
@[simp] theorem running_atTime (s : State) (t : Mc) : running (atTime s t) = running s := by
  simp [running]

/-- An answer whose effect left the queue, the fuses and the flash alone is that effect. -/
theorem answer_eq {s u : State} (hp : u.pending = s.pending) (hf : u.fuses = s.fuses) (hl : u.flash = s.flash) :
    answer s u = .next u := by
  unfold answer
  rw [← hp, ← hf, ← hl]

/-- The same over the state at the command's TIME. -/
theorem answer_atTime_eq {s u : State} {t : Mc} (hp : u.pending = (atTime s t).pending) (hf : u.fuses = (atTime s t).fuses)
    (hl : u.flash = (atTime s t).flash) : answer s u = .next u :=
  answer_eq (by simpa using hp) (by simpa using hf) (by simpa using hl)

/-- A command that changes nothing is answered with the state at its TIME. -/
@[simp] theorem answer_atTime (s : State) (t : Mc) : answer s (atTime s t) = .next (atTime s t) := answer_atTime_eq rfl rfl rfl

/-- What every answer keeps. -/
theorem answer_keeps (s u v : State) (h : answer s u = .next v) : v.pending = s.pending ∧ v.fuses = s.fuses ∧ v.flash = s.flash := by
  unfold answer at h
  cases h
  exact ⟨rfl, rfl, rfl⟩

/-- An answer is a next state. -/
theorem answer_completes (s u : State) : Completes (answer s u) := ⟨_, rfl⟩

end Sys2Proof.Machine
end

