-- ==== Sys2Proof/Laws/Fuses.lean ====
section
/-! SUPPORT. The fuses under the operations that a start-up, a reset or a reaction of the integrity monitor is made of: none of them
reaches the fuses, but for the rise of the rollback value (R433). -/

namespace Sys2Proof.Machine

@[simp] theorem sameFuses_fuses (s s' : State) : (sameFuses s s').fuses = s.fuses := rfl

/-- An operation repeated over a list reaches no fuse when one application does not. -/
theorem repeated_fuses {β : Type} {f : State → β → State} (step : ∀ u x, (f u x).fuses = u.fuses) :
    ∀ (l : List β) (s : State), (l.foldl f s).fuses = s.fuses
  | [], _ => rfl
  | x :: l, s => (repeated_fuses step l (f s x)).trans (step s x)

@[simp] theorem idle_fuses (s : State) : (idle s).fuses = s.fuses := atTime_fuses s _
@[simp] theorem draw_fuses (s : State) : (draw s).2.fuses = s.fuses := rfl
@[simp] theorem powerRecord_fuses (s : State) (kind : Nat) (h : Half) (stack measure : Nat) :
    (powerRecord s kind h stack measure).fuses = s.fuses := rfl
@[simp] theorem intRecord_fuses (s : State) (r : IntRec) (react : Nat) : (intRecord s r react).fuses = s.fuses := rfl
@[simp] theorem retireSlice_fuses (s : State) (x : Slice) : (retireSlice s x).fuses = s.fuses := rfl
@[simp] theorem cutFlash_fuses (s : State) : (cutFlash s).fuses = s.fuses := rfl
@[simp] theorem clearRun_fuses (s : State) : (clearRun s).fuses = s.fuses := rfl
@[simp] theorem applySettings_fuses (s : State) (c : Settings) (kept : Nat → Option Nat) : (applySettings s c kept).fuses = s.fuses := rfl
@[simp] theorem enterRun_fuses (s : State) : (enterRun s).fuses = s.fuses := rfl
@[simp] theorem losePower_fuses (s : State) : (losePower s).fuses = s.fuses := rfl

/-- The fuse values rise alone, and at most 64 times (R433). -/
theorem raiseFuse_from (s : State) (c : Settings) :
    FusesFrom s.fuses (raiseFuse s c).fuses ∧ (s.fuses.rises ≤ 64 → (raiseFuse s c).fuses.rises ≤ 64) := by
  unfold raiseFuse
  split
  · rename_i h
    have hr : s.fuses.rollback < c.rollback := by simpa using (Bool.and_eq_true_iff.mp h).2
    split
    · rename_i h64
      exact ⟨⟨rfl, rfl, rfl, rfl, rfl, hr.le, Nat.le_succ _⟩, fun _ => h64⟩
    · exact ⟨⟨rfl, rfl, rfl, rfl, rfl, le_rfl, le_rfl⟩, id⟩
  · exact ⟨⟨rfl, rfl, rfl, rfl, rfl, le_rfl, le_rfl⟩, id⟩

/-- A half reset reaches no fuse. -/
@[simp] theorem startHalfReset_fuses (s : State) (h : Half) : (startHalfReset s h).fuses = s.fuses := by
  unfold startHalfReset; exact sameFuses_fuses _ _
@[simp] theorem setGlow_fuses (s : State) (h : Half) (v : Bool) : (setGlow s h v).fuses = s.fuses := rfl
@[simp] theorem wakeHalf_fuses (s : State) (h : Half) : (wakeHalf s h).fuses = s.fuses := by
  unfold wakeHalf
  split
  · split <;> rfl
  · rfl
@[simp] theorem leaveBanked_fuses (s : State) (code : Nat) : (leaveBanked s code).fuses = s.fuses := by
  unfold leaveBanked; exact sameFuses_fuses _ _
@[simp] theorem undoEntry_fuses (s : State) : (undoEntry s).fuses = s.fuses := rfl
@[simp] theorem wakeBanked_fuses (s : State) (code : Nat) : (wakeBanked s code).fuses = s.fuses := by
  unfold wakeBanked; split <;> rfl
@[simp] theorem wakeEvent_fuses (s : State) (h : Half) : (wakeEvent s h).fuses = s.fuses := by
  unfold wakeEvent
  split
  · rfl
  · exact wakeHalf_fuses s h
@[simp] theorem noteBusy_fuses (s : State) (h : Half) : (noteBusy s h).fuses = s.fuses := rfl
@[simp] theorem hostBeat_fuses (s : State) (h : Half) : (hostBeat s h).fuses = s.fuses := by
  unfold hostBeat
  split
  · exact wakeHalf_fuses s h
  · rfl
@[simp] theorem wakeMonitor_fuses (s : State) (h : Half) : (wakeMonitor s h).fuses = s.fuses := wakeEvent_fuses s h
@[simp] theorem quenchLoaded_fuses (s : State) (ctx : Nat) : (quenchLoaded s ctx).fuses = s.fuses := rfl
@[simp] theorem quenchCtx_fuses (s : State) (ctx : Nat) : (quenchCtx s ctx).fuses = s.fuses := by
  unfold quenchCtx
  split
  · rfl
  · split <;> rfl
@[simp] theorem quenchEvents_fuses (s : State) (ctxs : List Nat) (seq : Nat) : (quenchEvents s ctxs seq).fuses = s.fuses := rfl
@[simp] theorem quenchReact_fuses (s : State) : (quenchReact s).2.fuses = s.fuses := rfl
@[simp] theorem spoilLines_fuses (s : State) (lines : List Nat) : (spoilLines s lines).fuses = s.fuses := rfl
@[simp] theorem spoilLanding_fuses (s : State) (h : Half) (ap : Nat) (lines : List Nat) : (spoilLanding s h ap lines).fuses = s.fuses := rfl
@[simp] theorem spoilEgress_fuses (s : State) (unit : Nat) (lines : List Nat) : (spoilEgress s unit lines).fuses = s.fuses :=
  repeated_fuses (fun u o => by dsimp only; split <;> rfl) _ s
@[simp] theorem deliverContained_fuses (s : State) (d : Detection) : (deliverContained s d).fuses = s.fuses := by
  unfold deliverContained
  split
  · rfl
  · split
    · exact spoilLanding_fuses s _ _ _
    · split
      · exact spoilEgress_fuses s _ _
      · rfl
@[simp] theorem countContained_fuses (s : State) (d : Detection) : (countContained s d).fuses = s.fuses := rfl
@[simp] theorem countTongs_fuses (s : State) (d : Detection) : (countTongs s d).fuses = s.fuses := by
  unfold countTongs
  split
  · rfl
  · dsimp only; split <;> rfl

end Sys2Proof.Machine
end

