-- ==== Sys2Proof/Laws/Memory.lean ====
section
/-! SUPPORT. The sparse maps behind memory and flash: every operation keeps the canonical form, a read gives what was last written, and
a write leaves every other key alone. -/

namespace Sys2Proof.Machine

variable {α : Type} [DecidableEq α]

/-! ## Canonical form -/

theorem sparseNew_bounds (d : Nat → α) : ∀ (vs : List α) (a : Nat), ∀ c ∈ sparseNew d a vs, a ≤ c.1 ∧ c.1 < a + vs.length
  | [], _, c, h => by simp [sparseNew] at h
  | v :: vs, a, c, h => by
    have ih := sparseNew_bounds d vs (a + 1)
    unfold sparseNew at h
    split at h
    · have := ih c h; simp; omega
    · rcases List.mem_cons.mp h with rfl | h
      · simp
      · have := ih c h; simp; omega

theorem sparseNew_wf (d : Nat → α) : ∀ (vs : List α) (a : Nat), sparseWf d (sparseNew d a vs)
  | [], _ => by simp [sparseNew, sparseWf]
  | v :: vs, a => by
    have ih := sparseNew_wf d vs (a + 1)
    unfold sparseNew
    split
    · exact ih
    · rename_i hv
      refine ⟨List.pairwise_cons.mpr ⟨fun c hc => ?_, ih.1⟩, fun c hc => ?_⟩
      · have := (sparseNew_bounds d vs (a + 1) c hc).1; simp; omega
      · rcases List.mem_cons.mp hc with rfl | hc
        · exact hv
        · exact ih.2 c hc

theorem mem_dropWhile_lt {cells : List (Nat × α)} (h : cells.Pairwise (fun a b => a.1 < b.1)) (k : Nat) :
    ∀ c ∈ cells.dropWhile (fun c => c.1 < k), k ≤ c.1 := by
  induction cells with
  | nil => simp
  | cons x xs ih =>
    intro c hc
    rw [List.dropWhile_cons] at hc
    split at hc
    · exact ih (List.pairwise_cons.mp h).2 c hc
    · rename_i hx
      rcases List.mem_cons.mp hc with rfl | hc
      · simpa using hx
      · have := (List.pairwise_cons.mp h).1 c hc; simp at hx; omega

/-- A write keeps the canonical form. -/
theorem sparseWrite_wf (d : Nat → α) {cells : List (Nat × α)} (h : sparseWf d cells) (a : Nat) (vs : List α) :
    sparseWf d (sparseWrite d cells a vs) := by
  have hn := sparseNew_wf d vs a
  have hb := sparseNew_bounds d vs a
  have ht : ∀ c ∈ cells.takeWhile (fun c => c.1 < a), c.1 < a := fun c hc => by
    simpa using List.mem_takeWhile_imp hc
  have hd := mem_dropWhile_lt h.1 (a + vs.length)
  refine ⟨?_, fun c hc => ?_⟩
  · unfold sparseWrite
    rw [List.pairwise_append, List.pairwise_append]
    refine ⟨⟨h.1.sublist (List.takeWhile_sublist _), hn.1, fun x hx y hy => ?_⟩, h.1.sublist (List.dropWhile_sublist _),
      fun x hx y hy => ?_⟩
    · have := ht x hx; have := (hb y hy).1; omega
    · have h2 := hd y hy
      rcases List.mem_append.mp hx with hx | hx
      · have := ht x hx; omega
      · have := (hb x hx).2; omega
  · unfold sparseWrite at hc
    rcases List.mem_append.mp hc with hc | hc
    · rcases List.mem_append.mp hc with hc | hc
      · exact h.2 c ((List.takeWhile_sublist _).subset hc)
      · exact hn.2 c hc
    · exact h.2 c ((List.dropWhile_sublist _).subset hc)

theorem sparseWf_filter (d : Nat → α) {cells : List (Nat × α)} (h : sparseWf d cells) (p : Nat × α → Bool) :
    sparseWf d (cells.filter p) :=
  ⟨h.1.sublist List.filter_sublist, fun c hc => h.2 c (List.mem_of_mem_filter hc)⟩

theorem memStore_wf {m : Mem} (h : m.wf) (a : Nat) (bs : List Byte) : (memStore m a bs).wf :=
  ⟨sparseWrite_wf _ h.1 a bs, h.2⟩

theorem memSetMark_wf {m : Mem} (h : m.wf) (line : Nat) (v : Bool) : (memSetMark m line v).wf :=
  ⟨h.1, sparseWrite_wf _ h.2 line [v]⟩

theorem memWriteLine_wf {m : Mem} (h : m.wf) (a : Nat) (bs : List SByte) : (memWriteLine m a bs).wf := by
  unfold memWriteLine
  have h1 := memStore_wf h a (bs.map Prod.fst)
  dsimp only
  split
  · exact memSetMark_wf h1 _ _
  · split
    · exact memSetMark_wf h1 _ _
    · exact h1

theorem foldl_wf {β : Type} (f : Mem → β → Mem) (hf : ∀ m b, m.wf → (f m b).wf) :
    ∀ (l : List β) (m : Mem), m.wf → (l.foldl f m).wf
  | [], _, h => h
  | x :: xs, m, h => foldl_wf f hf xs (f m x) (hf m x h)

theorem memWrite_wf {m : Mem} (h : m.wf) (a : Nat) (bs : List SByte) : (memWrite m a bs).wf :=
  foldl_wf _ (fun _ _ h => memWriteLine_wf h _ _) _ m h

theorem hostWrite_wf {s : State} (h : s.mem.wf) (p x : Nat) (bs : List Byte) : (hostWrite s p x bs).mem.wf :=
  memStore_wf h _ _

theorem writeKeyed_wf {s : State} (h : s.mem.wf) (part a : Nat) (bs : List SByte) : (writeKeyed s part a bs).wf := by
  unfold writeKeyed
  have h1 := fun x => memStore_wf h (a / 256 * 256) x
  dsimp only
  split
  · exact memSetMark_wf (h1 _) _ _
  · split
    · exact memSetMark_wf (h1 _) _ _
    · exact h1 _

theorem foldl_keyed_wf (part : Nat) : ∀ (l : List (Nat × List SByte)) (s : State), s.mem.wf →
    (l.foldl (fun s x => { s with mem := writeKeyed s part x.1 x.2 }) s).mem.wf
  | [], _, h => h
  | x :: xs, s, h => foldl_keyed_wf part xs _ (writeKeyed_wf h part x.1 x.2)

/-- A write through a segment keeps the canonical form. -/
theorem writeLocal_wf {s : State} (h : s.mem.wf) (key : Option Nat) (a : Nat) (bs : List SByte) : (writeLocal s key a bs).mem.wf := by
  unfold writeLocal
  split
  · exact h
  · split
    · split
      · exact foldl_keyed_wf _ _ _ h
      · exact memWrite_wf h _ _
    · exact memWrite_wf h _ _

/-- A bank's order leaves the memory canonical: whatever it writes again on top is a write. -/
theorem bankWrite_wf {m : Mem} (h : m.wf) (now : Mc) (rank a : Nat) (bs : List SByte) : (bankWrite m now rank a bs).wf := by
  have after : ∀ l : List BankWrite, (l.foldl (fun m w => memWrite m w.addr w.data) (memWrite m a bs)).wf := fun l =>
    foldl_wf _ (fun _ w hm => memWrite_wf hm w.addr w.data) l _ (memWrite_wf h a bs)
  exact after _

theorem bankSettle_wf {m : Mem} (h : m.wf) (a n : Nat) : (bankSettle m a n).wf := h

theorem writeBank_wf {s : State} (h : s.mem.wf) (w : Writer) (key : Option Nat) (a : Nat) (bs : List SByte) :
    (writeBank s w key a bs).mem.wf := by
  unfold writeBank
  split
  · exact bankWrite_wf h _ _ _ _
  · exact writeLocal_wf h _ _ _

@[simp] theorem markBlockWritten_mem (s : State) (ctx : Nat) (p : Piece) : (markBlockWritten s ctx p).mem = s.mem := by
  unfold markBlockWritten; split <;> rfl

@[simp] theorem wakeHalf_mem (s : State) (h : Half) : (wakeHalf s h).mem = s.mem := by
  unfold wakeHalf
  split
  · split <;> rfl
  · rfl

@[simp] theorem wakePiece_mem (s : State) (p : Piece) : (wakePiece s p).mem = s.mem := by
  unfold wakePiece
  split
  · exact wakeHalf_mem s _
  · rfl

theorem writePiece_wf {s : State} (h : s.mem.wf) (w : Writer) (ctx : Nat) (p : Piece) (bs : List SByte) :
    (writePiece s w ctx p bs).mem.wf := by
  unfold writePiece
  rw [markBlockWritten_mem]
  exact writeBank_wf h _ _ _ _

theorem writeAtomic_wf {s : State} (h : s.mem.wf) (ctx : Nat) (p : Piece) (bs : List SByte) : (writeAtomic s ctx p bs).mem.wf := by
  unfold writeAtomic
  rw [markBlockWritten_mem]
  exact writeLocal_wf (s := { s with mem := bankSettle s.mem p.addr p.len }) (bankSettle_wf h _ _) _ _ _

theorem storePiece_wf {s : State} (h : s.mem.wf) (w : Writer) (ctx : Nat) (p : Piece) (bs : List SByte) :
    (storePiece s w ctx p bs).mem.wf := by
  unfold storePiece
  dsimp only
  split
  · rw [markBlockWritten_mem, wakePiece_mem]; exact h
  · exact writePiece_wf (by rw [wakePiece_mem]; exact h) _ _ _ _

theorem zeroStock_wf {m : Mem} (h : m.wf) (half : Half) : (zeroStock half m).wf :=
  ⟨sparseWf_filter _ h.1 _, sparseWf_filter _ h.2 _⟩

theorem memDefault_high (e a : Nat) (h : hbmTop ≤ a) : memDefault e a = 0 := by
  unfold memDefault; rw [if_neg (by omega)]

theorem markDefault_high (e line : Nat) (h : hbmTop ≤ line * 256) : markDefault e line = false := by
  unfold markDefault; rw [if_neg (by simp only [hbmTop] at h ⊢; omega)]

/-- Memory whose HBM lost power is canonical over its new defaults. -/
theorem loseHbm_wf {m : Mem} (h : m.wf) : (loseHbm m).wf := by
  refine ⟨⟨h.1.1.sublist List.filter_sublist, fun c hc => ?_⟩, ⟨h.2.1.sublist List.filter_sublist, fun c hc => ?_⟩⟩
  · have hm := List.mem_filter.mp hc
    have hi : hbmTop ≤ c.1 := by simpa using hm.2
    have h0 := h.1.2 c hm.1
    rw [memDefault_high _ _ hi] at h0 ⊢
    exact h0
  · have hm := List.mem_filter.mp hc
    have hi : hbmTop ≤ c.1 * 256 := by simpa using hm.2
    have h0 := h.2.2 c hm.1
    rw [markDefault_high _ _ hi] at h0 ⊢
    exact h0

/-- The machine's memories are canonical at reset. -/
theorem reset_memSound : MemSound State.reset := by
  refine ⟨⟨⟨?_, ?_⟩, ⟨?_, ?_⟩⟩, ⟨?_, ?_⟩⟩ <;> simp [State.reset]

/-! ## Reading what was written -/

/-- The value of a key. -/
def lookup (d : Nat → α) (cells : List (Nat × α)) (k : Nat) : α := ((cells.find? fun c => c.1 == k).map Prod.snd).getD (d k)

theorem lookup_cons (d : Nat → α) (c : Nat × α) (cells : List (Nat × α)) (k : Nat) :
    lookup d (c :: cells) k = if c.1 = k then c.2 else lookup d cells k := by
  unfold lookup
  by_cases h : c.1 = k
  · simp [h]
  · rw [List.find?_cons_of_neg (by simpa using h), if_neg h]

theorem lookup_none (d : Nat → α) (cells : List (Nat × α)) (k : Nat) (h : ∀ c ∈ cells, c.1 ≠ k) : lookup d cells k = d k := by
  unfold lookup
  rw [List.find?_eq_none.mpr (fun c hc => by simpa using h c hc)]
  rfl

theorem lookup_append (d : Nat → α) (xs ys : List (Nat × α)) (k : Nat) :
    lookup d (xs ++ ys) k = if ∃ c ∈ xs, c.1 = k then lookup d xs k else lookup d ys k := by
  induction xs with
  | nil => simp
  | cons x xs ih =>
    rw [List.cons_append, lookup_cons, lookup_cons, ih]
    by_cases h : x.1 = k
    · simp [h]
    · have e : (∃ c ∈ x :: xs, c.1 = k) ↔ ∃ c ∈ xs, c.1 = k := by simp [h]
      by_cases h2 : ∃ c ∈ xs, c.1 = k
      · simp [if_neg h, if_pos h2, if_pos (e.mpr h2)]
      · simp [if_neg h, if_neg h2, if_neg (fun hc => h2 (e.mp hc))]

/-- A run of values is read key by key. -/
theorem sparseFill_eq (d : Nat → α) : ∀ (n a : Nat) (cells : List (Nat × α)), cells.Pairwise (fun a b => a.1 < b.1) →
    (∀ c ∈ cells, a ≤ c.1) → sparseFill d n a cells = (List.range n).map fun i => lookup d cells (a + i)
  | 0, _, _, _, _ => by simp [sparseFill]
  | n + 1, a, [], h, hb => by
    rw [sparseFill, sparseFill_eq d n (a + 1) [] h (by simp), List.range_succ_eq_map]
    simp only [List.map_cons, List.map_map, Nat.add_zero]
    refine congrArg₂ _ (lookup_none d [] a (by simp)).symm (List.map_congr_left fun i _ => ?_)
    simp only [Function.comp_apply]; congr 1; omega
  | n + 1, a, (b, v) :: cs, h, hb => by
    have hp := List.pairwise_cons.mp h
    have hab : a ≤ b := hb (b, v) (by simp)
    unfold sparseFill
    split
    · rename_i hba
      subst hba
      rw [sparseFill_eq d n (b + 1) cs hp.2 (fun c hc => hp.1 c hc), List.range_succ_eq_map]
      simp only [List.map_cons, List.map_map, Nat.add_zero]
      refine congrArg₂ _ (by rw [lookup_cons, if_pos rfl]) (List.map_congr_left fun i _ => ?_)
      simp only [Function.comp_apply]
      rw [lookup_cons, if_neg (by simp)]; congr 1; omega
    · rename_i hba
      rw [sparseFill_eq d n (a + 1) ((b, v) :: cs) h (fun c hc => ?_), List.range_succ_eq_map]
      · simp only [List.map_cons, List.map_map, Nat.add_zero]
        refine congrArg₂ _ (lookup_none d _ a fun c hc => ?_).symm (List.map_congr_left fun i _ => ?_)
        · rcases List.mem_cons.mp hc with rfl | hc
          · exact hba
          · have h1 : b < c.1 := hp.1 c hc
            omega
        · simp only [Function.comp_apply]; congr 1; omega
      · rcases List.mem_cons.mp hc with rfl | hc
        · show a + 1 ≤ b; omega
        · have h1 : b < c.1 := hp.1 c hc
          omega

theorem lookup_dropWhile (d : Nat → α) {cells : List (Nat × α)} (h : cells.Pairwise (fun a b => a.1 < b.1)) (a k : Nat) (hk : a ≤ k) :
    lookup d (cells.dropWhile fun c => c.1 < a) k = lookup d cells k := by
  conv_rhs => rw [← List.takeWhile_append_dropWhile (p := fun c : Nat × α => decide (c.1 < a)) (l := cells)]
  rw [lookup_append, if_neg]
  rintro ⟨c, hc, rfl⟩
  have : c.1 < a := by simpa using List.mem_takeWhile_imp hc
  omega

theorem sparseRead_eq (d : Nat → α) {cells : List (Nat × α)} (h : cells.Pairwise (fun a b => a.1 < b.1)) (a n : Nat) :
    sparseRead d cells a n = (List.range n).map fun i => lookup d cells (a + i) := by
  unfold sparseRead
  rw [sparseFill_eq d n a _ (h.sublist (List.dropWhile_sublist _)) (mem_dropWhile_lt h a)]
  exact List.map_congr_left fun i _ => lookup_dropWhile d h a (a + i) (by omega)

theorem lookup_sparseNew (d : Nat → α) : ∀ (vs : List α) (a k : Nat), (ha : a ≤ k) → (hk : k < a + vs.length) →
    lookup d (sparseNew d a vs) k = vs[k - a]'(by omega)
  | [], a, k, h1, h2 => by simp at h2; omega
  | v :: vs, a, k, h1, h2 => by
    have hn := sparseNew_bounds d vs (a + 1)
    unfold sparseNew
    by_cases hka : k = a
    · subst hka
      split
      · rename_i hv
        rw [lookup_none d _ _ (fun c hc => by have := (hn c hc).1; omega)]
        simp [hv]
      · rw [lookup_cons, if_pos rfl]; simp
    · have ih := lookup_sparseNew d vs (a + 1) k (by omega) (by simp at h2; omega)
      have e : (v :: vs)[k - a]'(by simp at h2 ⊢; omega) = vs[k - (a + 1)]'(by simp at h2; omega) := by
        have : k - a = (k - (a + 1)) + 1 := by omega
        simp [this]
      split
      · rw [ih, e]
      · rw [lookup_cons, if_neg (fun hc => hka hc.symm), ih, e]

/-- A key outside the run written keeps its value. -/
theorem lookup_write_other (d : Nat → α) {cells : List (Nat × α)} (h : sparseWf d cells) (a k : Nat) (vs : List α)
    (hk : k < a ∨ a + vs.length ≤ k) : lookup d (sparseWrite d cells a vs) k = lookup d cells k := by
  have hb := sparseNew_bounds d vs a
  have ht : ∀ c ∈ cells.takeWhile (fun c => c.1 < a), c.1 < a := fun c hc => by
    simpa using List.mem_takeWhile_imp hc
  unfold sparseWrite
  rw [List.append_assoc, lookup_append, lookup_append]
  have hnew : ¬ ∃ c ∈ sparseNew d a vs, c.1 = k := by
    rintro ⟨c, hc, rfl⟩; have := hb c hc; omega
  rw [if_neg hnew]
  rcases hk with hk | hk
  · have hd := mem_dropWhile_lt h.1 (a + vs.length)
    have e : lookup d cells k = lookup d (cells.takeWhile fun c => c.1 < a) k := by
      conv_lhs => rw [← List.takeWhile_append_dropWhile (p := fun c : Nat × α => decide (c.1 < a)) (l := cells)]
      rw [lookup_append]
      split
      · rfl
      · rename_i hno
        rw [lookup_none d _ _ (fun c hc => by have := mem_dropWhile_lt h.1 a c hc; omega),
          lookup_none d _ _ (fun c hc hck => hno ⟨c, hc, hck⟩)]
    split
    · exact e.symm
    · rename_i hno
      rw [lookup_none d _ _ (fun c hc => by have := hd c hc; omega), e,
        lookup_none d _ _ (fun c hc hck => hno ⟨c, hc, hck⟩)]
  · rw [if_neg (by rintro ⟨c, hc, rfl⟩; have := ht c hc; omega), lookup_dropWhile d h.1 _ _ hk]

/-- A key inside the run written has the value written. -/
theorem lookup_write_same (d : Nat → α) (cells : List (Nat × α)) (a k : Nat) (vs : List α) (h : sparseWf d cells) (h1 : a ≤ k)
    (h2 : k < a + vs.length) : lookup d (sparseWrite d cells a vs) k = vs[k - a]'(by omega) := by
  have ht : ∀ c ∈ cells.takeWhile (fun c => c.1 < a), c.1 < a := fun c hc => by
    simpa using List.mem_takeWhile_imp hc
  unfold sparseWrite
  rw [List.append_assoc, lookup_append, if_neg (by rintro ⟨c, hc, rfl⟩; have := ht c hc; omega), lookup_append]
  split
  · exact lookup_sparseNew d vs a k h1 h2
  · rename_i hno
    have e := lookup_sparseNew d vs a k h1 h2
    rw [lookup_none d _ _ (fun c hc hck => hno ⟨c, hc, hck⟩)] at e
    rw [← e]
    exact lookup_none d _ _ (fun c hc => by have := mem_dropWhile_lt h.1 _ c hc; omega)

theorem memByte_eq {m : Mem} (h : m.wf) (a : Nat) : memByte m a = lookup (memDefault m.hbmEpoch) m.cells a := by
  unfold memByte memRead
  rw [sparseRead_eq _ h.1.1]
  simp

/-- A byte outside a store reads as before. -/
theorem memByte_store_other {m : Mem} (h : m.wf) (a b : Nat) (bs : List Byte) (hb : b < a ∨ a + bs.length ≤ b) :
    memByte (memStore m a bs) b = memByte m b := by
  rw [memByte_eq (memStore_wf h a bs), memByte_eq h]
  exact lookup_write_other _ h.1 a b bs hb

/-- What was stored is read. -/
theorem memRead_store_same {m : Mem} (h : m.wf) (a : Nat) (bs : List Byte) : memRead (memStore m a bs) a bs.length = bs := by
  unfold memRead
  rw [sparseRead_eq _ (memStore_wf h a bs).1.1]
  refine List.ext_getElem (by simp) fun i h1 h2 => ?_
  simp only [List.getElem_map, List.getElem_range]
  exact (lookup_write_same _ m.cells a (a + i) bs h.1 (by omega) (by omega)).trans (by simp)

end Sys2Proof.Machine
end

