-- ==== Sys2Proof/WellFormed.lean ====
section
/-! DEFINITION. Which commands can be sent at all: the bounds of the signals and pages that a command's operands stand for. The machine
is total and does not rely on them. -/

namespace Sys2Proof

/-- A list without repeats. -/
def noRepeats {α : Type} [BEq α] (l : List α) : Bool := (Machine.dedup l).length == l.length

/-- A bundle has one operation per Anvil port, at most four others, and 1 KiB of store data per port (R244, R512, R517). -/
def Bundle.wf (b : Bundle) : Bool :=
  noRepeats (b.aops.map Prod.fst) && b.cops.length ≤ 4 && noRepeats (b.stData.map Prod.fst) &&
    b.stData.all fun x => x.2.length == 1024

/-- An access has some bytes. -/
def RegWrite.wf (w : RegWrite) : Bool := 0 < w.size

def BellWrite.wf (w : BellWrite) : Bool := 0 < w.size

/-- A frame is at most a header, 4 KiB and a CRC (R384). -/
def RxFrame.wf (f : RxFrame) : Bool := 0 < f.bytes.length && f.bytes.length ≤ 4132

def Slice.wf (x : Slice) : Bool := x.idx < Machine.sliceCount x.kind

def StartEnv.wf (e : StartEnv) : Bool := e.failing.all Slice.wf && e.responses.all fun x => x.2.wf

/-- The lines of a detection are local addresses (R39). -/
def Detection.wf (d : Detection) : Bool := d.lines.all (· < 2 ^ 48) && d.counter < 65536

/-- Well-formed commands. -/
def Instr.wf : Instr → Bool
  | .rd _ b | .tbl _ b | .str _ b | .stm _ b | .feed _ b | .schedulePace _ b | .sig _ b | .drain _ b => b.wf
  | .hostAdd _ w | .stallPending _ w | .commit _ w | .discard _ w | .shadow _ w | .faultQueueEnable _ w | .faultQueueHead _ w
  | .clear _ w | .ledgerQueueEnable _ w | .ledgerQueueHead _ w | .bank _ w | .holdRun _ w | .powerLogSelect _ w
  | .integrityLogSelect _ w | .alert _ w | .loopStart _ w | .go _ w | .adminSqRecover _ w | .adminCqRecover _ w
  | .mbistStart _ w _ => w.wf
  | .lbistStart _ w failing => w.wf && failing.all Slice.wf
  | .sqDoorbell _ _ w | .cqDoorbell _ _ w => w.wf
  | .pacingDoorbell _ word w => word < 6144 && w.wf
  | .promotionCopyDone _ _ _ block | .faultResolutionTimeout _ _ _ block => block < 2 ^ 27
  | .flashWrite _ _ programmed => programmed.all (· ≤ 4194304)
  | .reload _ _ env | .warmReset _ _ env | .warmRstN _ env | .coldStart _ env | .clock _ _ env => env.wf
  | .rread _ f | .rwrite _ f | .ratomic _ f | .rreduce _ f | .rsignal _ f | .hello _ f | .response _ f => f.wf
  | .bankedWake _ c => c.val != 0
  | .brownoutWarning _ _ mv | .brownoutRecovery _ _ mv => mv < 65536
  | .brownoutReset _ _ mv env => mv < 65536 && env.wf
  | .stagePoll _ _ _ _ reading => reading.millivolts < 65536 && reading.env.wf
  | .containedDetection _ d env | .uncontainedDetection _ d env => d.wf && env.wf
  | .haulerWatchdog _ _ env | .quenchTimeout _ _ env => env.wf
  | .selfTest _ slice _ => slice.wf
  | .loopLineReturn _ _ line flips check => line < 2 ^ 32 && flips.length == 256 && check.env.wf
  | .loopLineLost _ _ line => line < 2 ^ 32
  | .tapAccess _ off _ => off < 0x1000 && off % 8 == 0
  | .registerWrite _ _ off size _ => off < 0x40_0000 && 0 < size
  | .nop _ _ | .halt _ _ | .shape _ _ | .move _ _ | .gather _ _ | .loop _ _ | .stepBase _ _ | .xform _ _ | .quant _ _
  | .sums _ _ | .code _ _ | .expand _ _ | .putRingFill _ _ | .putHandle _ _ | .takeRingAcquire _ _ | .takeRingRelease _ _
  | .takeHandle _ _ | .wait _ _ | .signal _ _ | .fence _ _ | .pace _ _ | .prefetch _ _ | .advise _ _ | .atomic _ _
  | .reduce _ _ | .ledgerSplit _ _ | .ledgerMark _ _ | .report _ _ | .setp _ _ | .parkedResume _ _ | .tongsSlotGrant _ _
  | .ringPublish _ _ _ | .handlePublish _ _ _ | .completionRecord _ _ | .msixCoalesceTimeout _ _ | .strPublish _ _ _
  | .drainComplete _ _ | .ready _ _ | .operandRead _ _ _ _ | .counterUpdate _ _ | .counterWait _ _ _ _ _ | .stallEvaluation _
  | .pacingTimer _ _ | .entryFetch _ _ | .haul _ _ | .arm _ _ _ | .rearm _ _ _ | .stop _ _ | .persistentNextRun _ _ _
  | .sqEnable _ _ | .sqDisable _ _ | .cqEnable _ _ | .cqDisable _ _ | .queueReset _ _ | .contextReset _ _
  | .contextResetComplete _ _ | .segmentCreate _ _ | .segmentDestroy _ _ | .invalidate _ _ | .segmentDrainComplete _ _ _
  | .faultResolve _ _ | .faultBatchClose _ _ | .partnerUnfence _ _ | .ledgerSeal _ _ | .ledgerEntryClose _ _
  | .flashVerify _ _ _ | .powerLoss _ | .halfResetRejoin _ _ | .attemptTimeout _ _ _ | .linkUp _ _ _ | .pathDown _ _
  | .trainingTimeout _ _ | .wakeOrderedSet _ _ | .wakeLimit _ _ | .epochComplete _ _ _ | .epochTimeout _ _ _
  | .glowEntry _ _ _ | .glowWake _ _ | .bankedEntry _ _ | .wakeN _ | .hostWake _ _ | .hbmSupervision _ _ _ _ _
  | .bankedScrub _ _ _ | .latentOverdue _ _ _ | .patrolScrub _ _ _ | .priorityCommitApply _ _ | .wakeAt _ | .release _ _
  | .linkDown _ _ _ | .tapTestLogicReset _ => true

end Sys2Proof
end

