-- ==== Sys2Proof/Tests/Slice0.lean ====
section
/-! SUPPORT. Tests of the model: ill-formed commands are refused, values of the manual's worked examples and of the standards that it
cites come out, and every statement of Certificates/Slice0/Obligations.lean has states that meet its hypotheses (`witness_…`). -/

namespace Sys2Proof.Tests

open Sys2Proof.Machine

set_option Elab.async false
/-! ## A small machine -/

/-- A machine in Run without settings. -/
def run : State := { State.reset with power := { PowerSt.reset with cold := false, up := true } }

/-- A machine in maintenance configuration. -/
def maint : State := { run with status := { run.status with maint := true } }

def part : PartCfg :=
  { homePort := .east, adminSqBase := 0, adminCqBase := 4096, compat := false, batchWindow := 1000, resTimeout := 1000000
    hotThreshold := 1, adminVector := 9 }

def context (c p : Nat) (led : Bool) : CtxCfg :=
  { ctx := c, partition := p, homeHalf := .east, profiles := 2, initialProfile := 1, ledgered := led, seamEW := 0, seamWE := 0
    drainCounter := some 0 }

/-- A device segment of context 0 of `n` bytes at virtual address `va`, on local address `a`. -/
def device (slot va n a : Nat) : SegCfg :=
  { ctx := 0, index := slot, kind := .device, r := true, w := true, a := true, enc := false, comp := false, led := false, half := .east
    absent := false, start := va, length := n, backing := 5 * 2 ^ 50 + a, pool := 0, frames := 0 }

/-- A migratable segment of two blocks, backed by host memory, with frames at the top of the East HBM window. -/
def migratable : SegCfg :=
  { device 1 0x1000_0000 0x40_0000 0x8000_0000_0000 with kind := .migratable, pool := 0x7F_FFC0_0000, frames := 2 }

def ring (n : Nat) (prodSched consHauler : Bool) (coded : Option Nat) : RingCfg :=
  { ctx := 0, ring := n, half := .east, slots := 4, log := 0, offset := 0x1_0000 + n * 0x1_0000, fixedAhead := false, ahead := 4
    prodSched := prodSched, consHauler := consHauler, format := 6, coded := coded, rate := 0, firstFill := 0 }

def pacingLine (n : Nat) (src : PaceSource) : PacingCfg := { line := n, ctx := 0, source := src, period := 1000 }

def exportRow (n : Nat) (target : ExportTarget) : ExportCfg :=
  { id := n, owner := 0, target := target, r := true, w := true, a := true, priority := 0, permitted := none }

/-- Two partners' packages are 9 (direct, on port 0 of chiplet 0 of the East half). -/
def partner9 : PartnerCfg :=
  { num := 0, package := 9, routed := false, half := .east, paths := [(0, 0)], owner := 0, timeout := 4000, credit := 16, wake := some 20000 }

def reduction : RedCfg :=
  { ctx := 0, red := 0, home := 5, exportId := 2, members := 2, length := 256, fmt := 1, buffer := 0x8_0000, dest := 0x2000
    counter := some 0, timeout := 10000 }

/-- Settings with one object of most kinds, owned by context 0 of partition 0; context 1 of partition 1 is ledgered. -/
def settings : Settings :=
  { Settings.none with
    pkg := 5, parts := List.replicate 16 part, ctxs := [context 0 0 false, context 1 1 true]
    staging := [{ ctx := 0, half := .east, parking := 0, offset := 0, length := 0x10_0000, segment := 15 }]
    segs := [device 0 0 0x1_0000 0, migratable, device 15 0x4000_0000 0x10_0000 0x4000_0000_0000]
    sqs := [{ qid := 16, ctx := 0, persistent := false, cq := 16, priority := 3, limit := 128, depth := 16 },
            { qid := 17, ctx := 0, persistent := true, cq := 16, priority := 3, limit := 1, depth := 16 }]
    cqs := [{ qid := 16, partition := 0, depth := 16, vector := 3, irq := .coalesce 2 1000 }]
    ctrs := [{ ctr := 0, owner := 0, initial := 0, host := true }]
    vctrs := [{ ctx := 0, vid := 0, entry := .loc 0 true true }]
    rings := [ring 0 false false none, ring 1 false true none, ring 2 false false (some 2), ring 3 true true none]
    handles := [{ ctx := 0, queue := 0, half := .east, depth := 4, offset := 0xF_0000 }]
    feeds := [{ half := .east, feed := 0, ctx := 0 }]
    pacing := [pacingLine 0 .host, pacingLine 1 .timer, pacingLine 2 .schedule]
    channels := [{ ctx := 0, pinned := false, channel := 0, w := 1, margin := 0x3F800000#32, a := 0, lo := 0, hi := 0, threshold := 1 }]
    partners := [partner9]
    exports := [exportRow 0 (.memory 0 0x1000), exportRow 1 (.counter 0), exportRow 2 (.reduction 0)]
    reds := [reduction] }

/-- A machine in Run with these settings. -/
def m0 : State := applySettings run settings fun _ => none

/-- An 8 B write of `v` on partition `p`'s page. -/
def pageW (p : Fin 16) (v : Word) : RegWrite := { port := .east, page := .part p, size := 8, value := v }

def bellW (p : Fin 16) (v : Word) : BellWrite := { port := .east, part := p, size := 4, value := v }

def env : StartEnv := { stacksPowered := true, flashAnswers := true, copyCrcOk := true, headCrcOk := true, failing := [], responses := [] }

def hauler0 : HaulerId := ⟨.east, 0⟩

theorem pageWrite (p : Fin 16) (v : Word) : PageWrite m0 p (pageW p v) :=
  ⟨rfl, rfl, ((by decide +kernel : ∀ q : Fin 16, homePort m0 q.val = .east) p).symm, by decide +kernel, by decide +kernel⟩

/-! ## Bounded facts -/

theorem zeroBytes {e : List Byte} {lo hi : Nat} (h : (List.range hi).all (fun i => i < lo || fieldAt e i 1 == 0) = true) :
    ∀ i, lo ≤ i → i < hi → fieldAt e i 1 = 0 := by
  intro i h1 h2
  have := List.all_eq_true.mp h i (List.mem_range.mpr h2)
  simp at this
  omega

theorem ofSome {α : Type} {o : Option α} {p : α → Bool} (h : o.all p = true) : ∀ y, o = some y → p y = true := by
  intro y hy
  subst hy
  simpa using h

/-! ## Ill-formed commands -/

def emptyBundle : Bundle := { half := .east, ctx := 0, vcyc := 0, aops := [], cops := [], stData := [] }

def noDetection : Detection :=
  { half := .east, mech := 6, unitClass := 5, unit := 0, slot := 0, object := 0, lines := [], corrected := false, owner := none, counter := 0
    hashing := [], chainHead := none }

def badSlice : Slice := ⟨.east, .translation, 4⟩

theorem test_wf_two_operations_on_a_port : (Instr.rd 0 { emptyBundle with aops := [(3, 0), (3, 1)] }).wf = false := by decide +kernel
theorem test_wf_five_other_operations : (Instr.sig 0 { emptyBundle with cops := [1, 2, 3, 4, 5] }).wf = false := by decide +kernel
theorem test_wf_store_data_twice :
    (Instr.str 0 { emptyBundle with stData := [(0, zeros 1024), (0, zeros 1024)] }).wf = false := by decide +kernel
theorem test_wf_short_store_data : (Instr.stm 0 { emptyBundle with stData := [(0, zeros 1023)] }).wf = false := by decide +kernel
theorem test_wf_empty_access : (Instr.commit 0 { pageW 0 0 with size := 0 }).wf = false := by decide +kernel
theorem test_wf_empty_doorbell : (Instr.sqDoorbell 0 16 { bellW 0 0 with size := 0 }).wf = false := by decide +kernel
theorem test_wf_doorbell_word : (Instr.pacingDoorbell 0 6144 (bellW 0 0)).wf = false := by decide +kernel
theorem test_wf_empty_frame : (Instr.rread 0 ⟨.east, 0, 0, []⟩).wf = false := by decide +kernel
theorem test_wf_long_frame : (Instr.rwrite 0 ⟨.east, 0, 0, zeros 4133⟩).wf = false := by decide +kernel
theorem test_wf_slice : (Instr.selfTest 0 badSlice true).wf = false := by decide +kernel
theorem test_wf_environment : (Instr.coldStart 0 { env with failing := [badSlice] }).wf = false := by decide +kernel
theorem test_wf_lbist_slice : (Instr.lbistStart 0 (pageW 0 1) [badSlice]).wf = false := by decide +kernel
theorem test_wf_detected_line :
    (Instr.containedDetection 0 { noDetection with lines := [2 ^ 48] } env).wf = false := by decide +kernel
theorem test_wf_detected_counter :
    (Instr.uncontainedDetection 0 { noDetection with counter := 65536 } env).wf = false := by decide +kernel
theorem test_wf_block : (Instr.promotionCopyDone 0 0 0 (2 ^ 27)).wf = false := by decide +kernel
theorem test_wf_programmed_bytes : (Instr.flashWrite 0 0 (some 4194305)).wf = false := by decide +kernel
theorem test_wf_wake_code : (Instr.bankedWake 0 0).wf = false := by decide +kernel
theorem test_wf_reading : (Instr.brownoutWarning 0 .east 65536).wf = false := by decide +kernel
theorem test_wf_loop_line : (Instr.loopLineReturn 0 .east 0 (zeros 255) ⟨false, env⟩).wf = false := by decide +kernel
theorem test_wf_lost_line : (Instr.loopLineLost 0 .east (2 ^ 32)).wf = false := by decide +kernel
theorem test_wf_tap_offset : (Instr.tapAccess 0 4 0).wf = false := by decide +kernel
theorem test_wf_aperture : (Instr.registerWrite 0 .east 0x40_0000 8 0).wf = false := by decide +kernel
theorem test_wf_good : (Instr.rd 0 { emptyBundle with aops := [(3, 0), (4, 1)], stData := [(0, zeros 1024)] }).wf = true := by
  decide +kernel

/-! ## Values of the manual's examples, and of the standards that it cites -/

/-- "With SEED 0x7FFF_FFFF, the first eight bytes of line 0 are 00 00 00 70 00 00 00 3F" (chapter 17). -/
theorem test_prbs : (loopLine 0x7FFFFFFF 0).take 8 = [0, 0, 0, 0x70, 0, 0, 0, 0x3F] := by decide +kernel

/-- The generator test vector of chapter 05, under NP1 and NP2. -/
theorem test_generator : genValue 1 1 7 3 16 = 0xC222E376#32 ∧ genValue 2 1 7 3 16 = 0xA0350F1F#32 := by decide +kernel

/-- Rows of the table "Cast test vectors". -/
theorem test_casts :
    convertElem 1 1 2 none 0x3F808000 = 0x3F80 ∧ convertElem 2 1 2 none 0x3F818000 = 0x3F82 ∧ convertElem 1 1 3 none 0x38000000 = 0 ∧
      convertElem 2 1 3 none 0x33800000 = 1 ∧ convertElem 1 3 1 none 1 = 0 ∧ convertElem 2 1 4 none 0x43FA0000 = 0x7E := by
  decide +kernel

/-- The zero point of a constant TQ8Z block reaches FP32 unchanged, and NP1 flushes a subnormal one (R151, R156, R159). -/
theorem test_constant_block :
    convertElem 2 0x19 1 none 0x7F800001 = 0x7F800001 ∧ convertElem 2 0x19 1 none 0x80000001 = 0x80000001 ∧
      convertElem 1 0x19 1 none 0x80000001 = 0x80000000 := by decide +kernel

/-- The code lengths and codes of the worked example of chapter 06. -/
theorem test_code_lengths :
    let lens := buildLengths [(0x78, 16), (0x79, 16), (0x7A, 32), (0x7B, 128), (0x7C, 256), (0x7D, 1024), (0x7E, 2048), (0x7F, 512),
      (0x80, 64)]
    assignCodes (lens.map fun x => (x.1, x.2.2)) =
      [(0x7E, 1, 0), (0x7D, 2, 0b10), (0x7F, 3, 0b110), (0x7C, 4, 0b1110), (0x7B, 5, 0b11110), (0x80, 6, 0b111110), (0x7A, 7, 0b1111110),
       (0x78, 8, 0b11111110), (0x79, 8, 0b11111111)] := by decide +kernel

/-- Program words of the worked examples of chapters 05 and 11. -/
theorem test_program_words :
    decodeHaul 0x20FF_0000_0000_0000#64 0 0 = some (.quant 255 0 0 0 0) ∧
      decodeHaul 0x0C10_E290_0000_0000#64 0 0 = some (.move 0 1 1 0x18 true 4 4) ∧
      decodeHaul 0x3880_0000_0000_0001#64 0 0 = some (.wait 1 false 0 1) ∧
      decodeHaul 0x3C00_0000_0000_0001#64 0 0 = some (.signal 0 1) := by decide +kernel

/-- The identity registers of the example of chapter 19: an L40-B, partition 3, package 18. -/
theorem test_identity_registers :
    let s := { run with fuses := { Fuses.reset with grade := .b }, cfg := { Settings.none with pkg := 18 } }
    readRegister s .east 0x3_0000 8 = 0x4F520F02 ∧ readRegister s .east 0x3_0010 8 = 0x3F3F0601 ∧
      readRegister s .east 0x3_0048 8 = 0x30012 := by decide +kernel

/-- "With the default split in both halves, FV_ARB_SPLIT reads 0x0000_8210_0000_8210" (chapter 09). -/
theorem test_default_split : readRegister m0 .east 0x1000 8 = 0x0000_8210_0000_8210 := by decide +kernel

/-- The member registers of the stall example of chapter 11. -/
theorem test_stall_member :
    let m : StallMember :=
      { req := some 0, ctx := 20, qid := 0x140, tag := 7, code := 1, object := 11, target := 1, wait := 0, rounds := 0, reported := false }
    memberReg m 0 = 0x0114_0140_0000_0007 ∧ memberReg m 1 = 11 ∧ memberReg m 2 = 1 := by decide +kernel

/-- The check value of CRC-32C over the nine digits "123456789". -/
theorem test_crc32c : crc32c [0x31, 0x32, 0x33, 0x34, 0x35, 0x36, 0x37, 0x38, 0x39] = 0xE3069283#32 := by decide +kernel

/-- SHA-256 and SHA-384 of "abc" (FIPS 180-4). -/
theorem test_sha :
    (sha256 [0x61, 0x62, 0x63]).take 8 = [0xBA, 0x78, 0x16, 0xBF, 0x8F, 0x01, 0xCF, 0xEA] ∧
      (sha384 [0x61, 0x62, 0x63]).take 8 = [0xCB, 0x00, 0x75, 0x3F, 0x45, 0xA3, 0x5E, 0x8B] := by decide +kernel

/-- The block of FIPS 197, appendix C.3: AES-256 of 00112233…FF under the key 000102…1F. -/
theorem test_aes :
    (aesEncrypt (aesKeys ((List.range 32).map (BitVec.ofNat 8))) ((List.range 16).map fun i => BitVec.ofNat 8 (17 * i))).take 4 =
      [0x8E, 0xA2, 0xB7, 0xCA] := by decide +kernel

/-- The fuse value rises for the last time at 63 rises, and no more at 64 (R433). -/
theorem test_fuse_rises :
    let c := { Settings.none with rollback := 3, commitRollback := true }
    let s := fun n => { run with fuses := { Fuses.reset with rises := n } }
    (raiseFuse (s 63) c).fuses.rollback = 3 ∧ (raiseFuse (s 63) c).fuses.rises = 64 ∧ (raiseFuse (s 64) c).fuses = (s 64).fuses ∧
      (raiseFuse (s 64) c).status.fuseFull = true := by decide +kernel

/-- Twice and thrice the base point of P-384 by the addition law agree with each other, and the group order gives infinity. -/
theorem test_p384 :
    affine (pointAdd (pointAdd p384g p384g) p384g) = affine (pointMul 384 3 p384g) ∧ affine (pointMul 384 p384n p384g) = none := by
  decide +kernel

/-! ## Witnesses: queue, time, registers -/

/-- A machine with the selectors of partition `p`'s page changed. -/
def select (s : State) (p : Fin 16) (f : Selectors → Selectors) : State := { s with sels := updWhere (·.page == .part p) f s.sels }

/-- The machine with other settings, its run-time state as it stands. -/
def withSettings (s : State) (f : Settings → Settings) : State := { s with cfg := f s.cfg }

theorem witness_StepRunsTheFrontCommand : { run with pending := [.powerLoss 0] }.pending = .powerLoss 0 :: [] := rfl

theorem witness_TimePassesAndTheHearthCountsIt :
    run.pending = [] ∧ nextEvent run = none ∧ { run with power := { run.power with hfrac := 20 } }.power.hfrac < 21 ∧
      (0 : Nat) ≤ 1 := by decide +kernel

theorem witness_NoCommandReachesTheQueue : ∃ u, exec (.powerLoss 5) { run with pending := [.powerLoss 0] } = .next u := ⟨_, rfl⟩

theorem witness_FuseRollbackOnlyRises :
    let s := { run with fuses := { Fuses.reset with rises := 64 } }
    (∃ u, exec (.powerLoss 5) s = .next u) ∧ s.fuses.rises ≤ 64 := ⟨⟨_, rfl⟩, by decide +kernel⟩

theorem witness_OnlyFlashWriteChangesTheFlash :
    (∀ t p n, Instr.powerLoss 5 ≠ .flashWrite t p n) ∧ (∀ x ∈ run.q.records, x.flash = none) ∧ ∃ u, exec (.powerLoss 5) run = .next u :=
  ⟨by intros; simp, by decide +kernel, ⟨_, rfl⟩⟩

theorem witness_StepKeepsFlashAndFusesSound :
    let s := { run with pending := [.powerLoss 5], flash := [(0, 0), (5, 1)], fuses := { Fuses.reset with rises := 64 } }
    (flashWf s ∧ s.fuses.rises ≤ 64) ∧ ∃ u, step s = .next u := ⟨by decide +kernel, ⟨_, rfl⟩⟩

theorem witness_ClosedRegistersIgnoreWrites :
    ({ pageW 0 1 with size := 4 }.size ≠ 8 ∧ { pageW 0 1 with port := .west }.port ≠ homePort m0 (pagePart (pageW 0 1).page)) ∧
      State.reset.power.up = false ∧ maint.status.maint = true ∧ { pageW 0 1 with page := .global }.page = .global ∧
      Instr.alert 0 (pageW 0 1) ≠ .powerLogSelect 0 (pageW 0 1) ∧ Instr.alert 0 (pageW 0 1) ≠ .integrityLogSelect 0 (pageW 0 1) := by
  decide +kernel

theorem witness_SelectorsBelongToTheirPage :
    (running m0 = true ∧ m0.status.maint = false) ∧ (∀ pg ∈ [Page.part 0, Page.part 15, Page.global], ∃ x ∈ m0.sels, x.page = pg) ∧
      (0xA030, 3, fun x : Selectors => x.key) ∈ selectorTable ∧ pagePart (.part 0) = 0 ∧ pagePart .global = 0 ∧
      pagePart (.part 15) ≠ 0 := ⟨by decide +kernel, by decide +kernel, by simp [selectorTable], rfl, rfl, by decide⟩

theorem witness_RegisterWriteIsTheNamedCommand : (0x3FFF : Nat) < 0x4000 := by decide

theorem witness_ColdStartGivesTheResetValues : { env with flashAnswers := false }.flashAnswers = false ∧ (0 : Nat) < 15 ∧ 15 < 16 ∧
    0x1000 ≤ 0xFFF8 ∧ 0xFFF8 < 0x1_0000 := by decide

/-- The machine with every partition in compatibility mode. -/
def compat : State := withSettings m0 fun c => { c with parts := List.replicate 16 { part with compat := true } }

theorem compatWrite (v : Word) : PageWrite compat 0 (pageW 0 v) :=
  ⟨rfl, rfl, (by decide +kernel : Half.east = homePort compat 0), by decide +kernel, by decide +kernel⟩

theorem witness_PrioritiesAreShadowedAndCommitted :
    (PageWrite compat 0 (pageW 0 1) ∧ compatMode compat 0 = true) ∧
      (∀ v ∈ [0, 1, 2, 3], PageWrite m0 0 (pageW 0 v)) ∧ compatMode m0 0 = false ∧
      (∃ s, running s = true ∧ (getPartRegs s 15).commits = [[(16, 7)]]) ∧
      (PageWrite (select m0 0 fun x => { x with arb := 16 }) 0 (pageW 0 7) ∧ (sqCfg m0 16).map (fun c => partOfCtx m0 c.ctx) = some 0) ∧
      (PageWrite (select m0 0 fun x => { x with arb := 18 }) 0 (pageW 0 7) ∧ (sqCfg m0 18).map (fun c => partOfCtx m0 c.ctx) ≠ some 0) ∧
      (getSel (select m0 0 fun x => { x with arb := 15 }) (.part 0)).arb = 15 :=
  ⟨⟨compatWrite 1, by decide +kernel⟩, fun v _ => pageWrite 0 v, by decide +kernel,
    ⟨updPartRegs m0 15 fun x => { x with commits := [[(16, 7)]] }, by decide +kernel⟩, ⟨⟨rfl, rfl, rfl, rfl, rfl⟩, by decide +kernel⟩,
    ⟨⟨rfl, rfl, rfl, rfl, rfl⟩, by decide +kernel⟩, by decide +kernel⟩

/-- A hauler's line of a class at port 0, and its request's priority. -/
def asks (id prio : Nat) (write : Bool) (cls : LineClass) (who : Requester) : Asker :=
  { who := who, prio := prio, num := id, haul := none
    line := { half := .east, port := 0, num := 0, write := write, load := none, cls := cls, ring := none, seq := id, merge := false
              segs := [] } }

/-- Two haulers at a port in each class, with a line that is reserved-eligible and with none; and an STM before a hauler. -/
theorem witness_PrioritiesAreShadowedAndCommitted_beats :
    (let c : HalfCfg := { resOffset := 0, resLength := 0, r := 31, w := 1, x := 0 }
     c.r + c.w + c.x = 32 ∧ c.r ≠ 0 ∧ c.w ≠ 0) ∧
      (∀ cls ∈ [LineClass.read, .write, .remote], ∀ e ∈ [[], [(Requester.request 2, 2, 0)]],
        let s := m0
        let p : MemPort := { half := .east, port := 0, credits := [], eligible := e, holders := [], raised := [], flight := [] }
        let as := [asks 1 0 (cls == .write) cls (.request 1), asks 2 7 (cls == .write) cls (.request 2)]
        s.fuses.grade ≠ .c ∧ ∀ b ∈ as, b.line.cls = cls ∧ tagFree s p b = true ∧ isStoreAsker b = false ∧
          (b.who = .request 2 → b.prio = 7 ∧ b.line.seq = 2) ∧ (b.who ≠ .request 2 → b.prio < 7)) ∧
      (let p : MemPort := { half := .east, port := 0, credits := [], eligible := [], holders := [], raised := [], flight := [] }
       let as := [asks 1 7 true .write (.request 1), asks 128 8 true .write (.store 0)]
       ∀ b ∈ as, b.line.cls = .write ∧ tagFree m0 p b = true ∧ (isStoreAsker b = true ↔ b.who = .store 0)) := by
  decide +kernel

theorem witness_QueueRegistersKeepTheirCounts :
    let s := { m0 with seg := { m0.seg with faultQs := [{ FaultQ.reset 0 with head := 2 ^ 32 - 1, records := 2 ^ 32 - 1 }] }
                       ledgers := [{ LedgerSt.reset 0 with chained := true, head := 2 ^ 32 - 1, records := 2 ^ 32 - 1 }] }
    PageWrite s 0 (pageW 0 0xC61) ∧
      (∃ q, s.seg.faultQs.find? (·.part == 0) = some q ∧ q.openB = [] ∧ q.closedB = [] ∧ q.waiting = [] ∧ q.head < 2 ^ 32 ∧
        q.records < 2 ^ 32) ∧
      ∃ l, s.ledgers.find? (·.part == 0) = some l ∧ l.chained = true ∧ l.head < 2 ^ 32 ∧ l.records < 2 ^ 32 ∧
        ∀ y ∈ s.ledgers, y.part = 0 → y = l :=
  ⟨⟨rfl, rfl, rfl, rfl, rfl⟩, ⟨_, rfl, by decide +kernel⟩, ⟨_, rfl, by decide +kernel⟩⟩

theorem witness_SaturationClearRearmsTheChannel :
    PageWrite m0 0 (pageW 0 1) ∧ (pageW 0 1).value.toNat % 2 = 1 ∧ (ctxCfg m0 0).isSome = true ∧ partOfCtx m0 0 = 0 :=
  ⟨pageWrite 0 1, by decide +kernel⟩

/-- Counter 32768, at home in the West, in half reset there. -/
def westHome : State :=
  { applySettings run { settings with ctrs := [{ ctr := 32768, owner := 0, initial := 0, host := true }]
                                      vctrs := [{ ctx := 0, vid := 0, entry := .loc 32768 true true }] } (fun _ => none) with
    halfReset := ⟨false, true⟩ }

theorem witness_HostAddAppliesOrIsCounted :
      (let s := select m0 0 fun x => { x with ctr := 4096 }
       PageWrite s 0 (pageW 0 1) ∧ (getSel s (.part 0)).ctr / 4096 % 256 = 1 ∧ (ctxCfg s 1).isSome = true ∧ partOfCtx s 1 ≠ 0) ∧
      (PageWrite m0 0 (pageW 0 0xFFFF_FFFF) ∧ partOfCtx m0 0 = 0 ∧ vEntry m0 0 0 = .loc 0 true true ∧
        (∃ x, getCtr m0 0 = some x ∧ x.abandoned = false) ∧ (∃ d, ctrCfg m0 0 = some d ∧ d.host = true) ∧
        (pageW 0 0xFFFF_FFFF).value.toNat % 2 ^ 32 ≠ 0) ∧
      (PageWrite m0 0 (pageW 0 0x1_0000_0000) ∧ (pageW 0 0x1_0000_0000).value.toNat % 2 ^ 32 = 0) ∧
      (let s := { m0 with halfReset := ⟨true, false⟩ }
       PageWrite s 0 (pageW 0 1) ∧ s.halfReset.get (homeOfCtr 0) = true ∧ homeOfCtr 0 = (pageW 0 1).port) ∧
      (PageWrite westHome 0 (pageW 0 1) ∧ partOfCtx westHome 0 = 0 ∧ vEntry westHome 0 0 = .loc 32768 true true ∧
        (∃ x, getCtr westHome 32768 = some x ∧ x.abandoned = false) ∧ (∃ d, ctrCfg westHome 32768 = some d ∧ d.host = true) ∧
        westHome.halfReset.get (homeOfCtr 32768) = true ∧ homeOfCtr 32768 ≠ (pageW 0 1).port) :=
  ⟨⟨⟨rfl, rfl, rfl, rfl, rfl⟩, by decide +kernel⟩,
    ⟨pageWrite 0 _, by decide +kernel, by decide +kernel, ⟨_, rfl, by decide +kernel⟩, ⟨_, rfl, by decide +kernel⟩, by decide +kernel⟩,
    ⟨pageWrite 0 _, by decide +kernel⟩, ⟨⟨rfl, rfl, rfl, rfl, rfl⟩, by decide +kernel⟩,
    ⟨⟨rfl, rfl, rfl, rfl, rfl⟩, by decide +kernel, by decide +kernel, ⟨_, rfl, by decide +kernel⟩, ⟨_, rfl, by decide +kernel⟩,
      by decide +kernel, by decide +kernel⟩⟩

theorem witness_StepKeepsTheMemoriesCanonical :
    let s := { run with pending := [.powerLoss 5], mem := memStore run.mem 0x1000 [1, 0, 2], flash := [(0, 0), (5, 1)] }
    MemSound s ∧ ∃ u, step s = .next u := ⟨⟨by decide +kernel, by decide +kernel⟩, ⟨_, rfl⟩⟩

/-! ## Witnesses: reports, tests, power, resets, integrity -/

def noReport : StallReport := { members := [], foreign := 0, overflow := false }

/-- A request of context 0 on hauler 0 of the East half that runs `prog`. -/
def request (prog : List Word) : Request :=
  { id := 0, qid := 16, isRun := false, ctx := 0, half := .east, hauler := some 0, wait := none, waitAt := 0, waitHaul := 0, waitSeq := 0
    stays := false, latched := none, parkedIn := none, tag := 0, irq := false, pmask := 0, entry := [], active := 0, kept := [], record := none
    argBlk := none, program := prog, pc := 0, shapes := List.replicate 8 ⟨0, 0, 0, 0, false, false⟩, loops := []
    params := List.replicate 16 0, params0 := List.replicate 16 0, binds := [], held := [], mods := [], bytes := 0, spoiled := 0
    cause := none, fin := none, pass := PassState.start, tongs := none, hits := [], elems := [], writes := []
    lines := { buffers := [], stream := [], next := 0 }, hostWrites := ⟨[], []⟩, lastDue := 0, rdata := []
    answer := none, effects := [], filling := none, led := { input := [], output := [], marks := [], spoiled := false, part := 0 }
    lastPart := false, lastSeq := none }

/-- A machine with requests. -/
def withReqs (s : State) (rs : List Request) : State := { s with run := { s.run with reqs := rs, nextReq := rs.length } }

theorem batchOpen (s : State) (p : Nat) (hp : p < 16) (h : s.seg.faultQs = m0.seg.faultQs) : BatchOpen s p (FaultQ.reset p) := by
  have hs : m0.seg.faultQs = (List.range 16).map FaultQ.reset := rfl
  refine ⟨?_, rfl, ?_, (by decide : 0 < 63), rfl, rfl⟩
  · rw [h, hs]
    exact List.mem_map.mpr ⟨p, List.mem_range.mpr hp, rfl⟩
  · intro x hx hq
    rw [h, hs] at hx
    obtain ⟨k, -, rfl⟩ := List.mem_map.mp hx
    rw [show k = p from hq]

theorem witness_PendingDeliversTheOldestHeldReport :
    (PageWrite m0 0 (pageW 0 1) ∧ (pageW 0 1).value.toNat % 2 = 1 ∧
        (atTime m0 0).ctr.stallRegs.find? (·.part == 0) = some (StallRegs.reset 0)) ∧
      (let r := { StallRegs.reset 0 with pending := true, held := [noReport] }
       let s := { m0 with ctr := { m0.ctr with stallRegs := [r] } }
       PageWrite s 0 (pageW 0 1) ∧ (atTime s 0).ctr.stallRegs.find? (·.part == 0) = some r ∧ r.shownAt ≠ some s.time) ∧
      (let r := { StallRegs.reset 0 with pending := true, shownAt := some 0, held := [noReport] }
       let s := { m0 with ctr := { m0.ctr with stallRegs := [r] } }
       PageWrite s 0 (pageW 0 1) ∧ (atTime s 0).ctr.stallRegs.find? (·.part == 0) = some r ∧ r.shownAt = some s.time) :=
  ⟨⟨pageWrite 0 1, by decide +kernel⟩, ⟨⟨rfl, rfl, rfl, rfl, rfl⟩, by decide +kernel⟩, ⟨rfl, rfl, rfl, rfl, rfl⟩, by decide +kernel⟩

theorem witness_AdminQueuesAreRecoveredAndEnabled :
    (PageWrite m0 15 (pageW 15 3) ∧ partCfg m0 (15 : Fin 16).val = some part) ∧
      (let w := pageW 0 (2 ^ 43 - 4096 + 1)
       w.page = .part 0 ∧ w.size = 8 ∧ w.port = homePort maint 0 ∧ running maint = true ∧ maint.status.maint = true ∧
         w.value.toNat % 2 = 1 ∧ getSq maint 0 = none) ∧
      (let s := { maint with q := { maint.q with sqs := [SubQueue.start 0 .enabled 0 7], cqs := [CompQueue.start 0 .enabled 4096] } }
       Half.east = homePort s 0 ∧ running s = true ∧ s.status.maint = true ∧ (getSq s 0).map (·.st) = some .enabled ∧
         (getCq s 0).map (·.st) = some .enabled) :=
  ⟨⟨pageWrite 15 3, by decide +kernel⟩, by decide +kernel, by decide +kernel⟩

theorem witness_PowerControlHoldsAndWakes :
    (∀ v ∈ [0, 1, 2, 3], PageWrite m0 0 (pageW 0 v)) ∧ PageWrite m0 1 (pageW 1 3) ∧
      (let s := { run with power := { run.power with wakeAt := 1, hfrac := 20 } }
       running s = true ∧ s.power.wakeAt ≠ 0 ∧ s.power.hfrac < 21) := ⟨fun v _ => pageWrite 0 v, pageWrite 1 3, by decide +kernel⟩

theorem witness_LogsAreShownAndTheAlertReleased :
    (PageWrite m0 0 (pageW 0 255) ∧ PageWrite m0 15 (pageW 15 63) ∧ ∃ x ∈ m0.sels, x.page = .part 15) ∧
      (pageW 0 1).port = homePort State.reset 0 ∧ { run with power := { run.power with up := false } }.power.cold = false ∧
      run.power.banked = false ∧ (pageW 15 1).value.toNat % 2 = 1 ∧ run.integ.alertAt ≠ some run.time ∧
      { run with integ := { run.integ with alertAt := some 0, alert := true } }.integ.alertAt = some run.time :=
  ⟨⟨pageWrite 0 255, pageWrite 15 63, by decide +kernel⟩, by decide +kernel⟩

/-- Each outcome of a start: running, at depths 3, 9, 8, 0 and 6, a memory port that an L40-B has not, no line, a host window too high,
and a loop to a partner that is up, fenced and away. -/
theorem witness_LoopStartRunsOrRefuses :
    (∀ v ∈ [0x0010_0000_0003_0309, 0x0010_0000_0000_0009, 0xFFFF_FFFF_0000_0809, 0x9, 0x1_0000_0001, 0x1_0001_0601],
      (pageW 0 (BitVec.ofNat 64 v)).value.toNat % 2 = 1 ∧ v / 2 ^ 8 % 16 ≠ 7) ∧
      (∀ s ∈ [maint, { maint with fuses := { Fuses.reset with grade := .b } },
              { maint with test := { TestSt.reset with hostBase := 0x0800_0000_0000 } }],
        Half.east = homePort s 0 ∧ running s = true ∧ s.test.tapOwn = false ∧ s.test.state ≠ 1) ∧
      (maint.test.loop.running = false ∧ mayStart maint .east = true ∧ haulerFree maint hauler0 = true) ∧
      (pageW 0 0x1_0000_0701).value.toNat % 2 = 1 ∧ 0x1_0000_0701 / 2 ^ 8 % 16 = 7 ∧
      (∀ st ∈ [PartnerSt.active, .fenced, .absent],
        let s := updPartner m0 0 fun p => { p with st := st }
        Half.east = homePort s 0 ∧ running s = true ∧ s.test.tapOwn = false ∧ s.test.state ≠ 1 ∧
          partnerCfg s s.test.record = some partner9 ∧ partner9.half = .east ∧ (getPartner s s.test.record).map (·.st) = some st) := by
  decide +kernel

/-- The last line of a test, and one before it, in each loop that writes memory, in those of which bad lines are logged and in one that
writes none, in the first mc after the line was sent and 1 ms after it, with the half that it would write in the machine and in half
reset; a line already counted; a loop to a partner; and no test. -/
theorem witness_LoopLinesAreCounted :
    let s := fun now d n => { run with time := now, test := { TestSt.reset with
      state := 1, loop := { LoopTest.idle with running := true, depth := d, lines := n, seed := 1, seen := [0], checked := 1
                                               sentAt := [(0, 0)] } } }
    (∀ now ∈ [1, 2100000, 2100001], ∀ d ∈ [0, 2, 3, 4, 8], ∀ n ∈ [2, 3],
      let u := engage (s now d n)
      let l := u.test.loop
      l.running = true ∧ l.half = .east ∧ l.depth ≠ 7 ∧ 1 < l.lines ∧ 1 ∉ l.seen ∧ 0 ∈ l.seen ∧ sentAt l 1 = some 1 ∧ l.checked ≤ 1 ∧
        l.hostBase % 256 = 0 ∧ l.hostBase + 0x1_0000 ≤ 0x0800_0000_0000 ∧ u.mem.wf ∧ u.integ.seamTimes = [] ∧
        1 < u.cfg.safety.seamLimit ∧ { u with halfReset := ⟨true, false⟩ }.halfReset.get .east = true) ∧
      ¬ (1 + 2100000 ≤ 2100000) ∧ (s 1 7 2).test.loop.depth = 7 ∧ TestSt.reset.loop.running = false ∧ (zeros 256).length = 256 := by
  decide +kernel

theorem witness_SelfTestsAndTheTapAreGated :
    (∀ s ∈ [maint, run], Half.east = homePort s 0 ∧ running s = true ∧ s.test.tapOwn = false ∧ s.mem.wf) ∧
      (pageW 0 3).value.toNat % 2 = 1 ∧ (15 < sliceCount .anvil) ∧ maint.test.mbist = none ∧
      (∀ failing ∈ [[], [3]], ∀ now ∈ [99999, 100000],
        let s := { maint with time := now, test := { TestSt.reset with mbState := 1, mbist := some { half := .west, ends := 100000, failing := failing } } }
        s.test.mbist = some { half := .west, ends := 100000, failing := failing } ∧ s.mem.wf) ∧
        { run with test := { TestSt.reset with tapOwn := true } }.test.tapOwn = true := by
  decide +kernel

/-- A half idle for GLOW_IDLE, and one mc less; every reason why a half is not idle; a wake code that names a source and one that names
none; and a pin that may act again, and one that may not. -/
theorem witness_GlowIsEnteredAndLeft :
    (∀ g ∈ [Grade.a, .c], running { run with fuses := { Fuses.reset with grade := g } } = true) ∧
      (let s := { run with time := 4200 }
       running s = true ∧ halfIdle s .east = true ∧ s.cfg.power.glowIdle ≠ 0 ∧ s.power.holdRun = false ∧ s.halfReset.get .east = false ∧
         s.power.glow.get .east = false ∧ s.power.busyAt.get .east + (s.cfg.power.glowIdle * 21 + 9) / 10 ≤ s.time) ∧
      ¬ (run.power.busyAt.get .east + (run.cfg.power.glowIdle * 21 + 9) / 10 ≤ 4199) ∧
      (deafGlow m0 .east 7 ∧ ¬ deafGlow m0 .east 6 ∧ ¬ deafGlow m0 .east 1) ∧
      (pinRested run.power run.power.wakePin ∧ pinRested { run.power with htime := 200, wakePin := some 0 } (some 0) ∧
        ¬ pinRested { run.power with htime := 199, wakePin := some 0 } (some 0)) ∧
      (let s := withReqs m0 [request [0]]
       running s = true ∧ halfIdle s .east = false ∧ ∃ r ∈ s.run.reqs, r.half = .east ∧ r.hauler ≠ none) ∧
      (let s := { m0 with q := { m0.q with records := [entryRecord m0 16 0 false 0 0] } }
       running s = true ∧ ∃ r ∈ s.q.records, sqHome s r.qid = .east) ∧
      (let a := asks 1 0 false .read (.request 0)
       let port : MemPort := { half := .east, port := 0, credits := [], eligible := [], holders := [], raised := []
                               flight := [{ who := a.who, line := a.line, haul := a.haul, due := 16 }] }
       let s := { run with arb := { run.arb with ports := [port] } }
       running s = true ∧ ∃ p ∈ s.arb.ports, p.half = .east ∧ p.flight ≠ []) := by
  unfold deafGlow pinRested
  decide +kernel

/-- A machine whose both halves glow and whose image enables Banked, with a table in the first slot of the last port. -/
def glowing : State :=
  { run with
    cfg := { Settings.none with power := { PowerCfg.default with banked := true } }
    power := { run.power with glow := ⟨true, true⟩, bankReq := true }
    buf := { run.buf with anvils := [{ AnvilPort.reset .west 15 with tables := [{ ctx := 0, ring := 0, table := some (zeros 256) }] }] } }

/-- A banked machine whose entry has begun, and the same machine once the clocks have stopped. -/
def entering : State := { run with power := { run.power with banked := true, entry := some { age := 0, banks := 0, bankReq := true, links := [] } } }

/-- The power state of a banked machine whose entry is `n` mc old. -/
def aged (n : Nat) : PowerSt :=
  { run.power with banked := true, entry := some { age := n, banks := 0, bankReq := true, links := [] } }

def banked : State := { run with power := aged 10500 }

theorem witness_BankedEntrySavesTheCodeTables :
    running glowing = true ∧ mayBank (atTime glowing 0) = true ∧ glowing.mem.wf ∧
      (∀ a ∈ glowing.buf.anvils, a.ap < 16 ∧ ∀ x ∈ a.tables, x.table.all (fun bs => bs.length == 256) = true) ∧
      (∀ a ∈ glowing.buf.anvils, ∀ b ∈ glowing.buf.anvils, a.half = b.half → a.ap = b.ap → a = b) ∧
      (∃ a ∈ glowing.buf.anvils, a.tables[0]? = some { ctx := 0, ring := 0, table := some (zeros 256) }) ∧
      ∃ e, entering.power.banked = true ∧ entering.power.entry = some e := ⟨by decide +kernel, by decide +kernel, by decide +kernel,
        by decide +kernel, by decide +kernel, by decide +kernel, ⟨_, rfl, rfl⟩⟩

/-- A banked machine with one timer pacing request, at mc `d`. -/
def timed (d : Mc) : State :=
  { banked with cfg := { banked.cfg with ctxs := settings.ctxs, pacing := [pacingLine 1 .timer] }
                buf := { banked.buf with pacing := [{ line := 1, pending := 0, overruns := 0, coming := [], due := d }] } }

/-- A banked machine whose clocks have stopped, one whose entry can be undone, wakes by a pin that rests and by one that does not, and the
last HCLK edge 81,900 mc before a timer's request. -/
theorem witness_WakeSourcesLeaveBanked :
    banked.power.banked = true ∧ banked.power.cold = false ∧ (∀ p ∈ banked.rem.partners, isUp p = false) ∧ banked.power.scrubbed = [] ∧
      { banked with fuses := { Fuses.reset with grade := .c } }.fuses.grade = .c ∧ banked.fuses.grade ≠ .c ∧
      (banked.power.entry.map fun e => decide (10500 ≤ e.age)) = some true ∧
      (∀ n ∈ [0, 10499], let s := { run with power := aged n }
        s.power.banked = true ∧ s.power.cold = false ∧ (s.power.entry.map fun e => decide (e.age < 10500)) = some true) ∧
      (timersOf banked .east = [] ∧ timersOf banked .west = []) ∧
      (∀ d ∈ [81921, 81942],
        let s := timed d
        let x := atTime s (d - 81900 - (d - 81900) % 21)
        (timersOf s .east ++ timersOf s .west).filter (s.time ≤ ·) = [d] ∧ s.power.hfrac = 0 ∧ s.time + 81921 ≤ d ∧
          (x.power.entry.map fun e => decide (10500 ≤ e.age)) = some true ∧ (∀ p ∈ x.rem.partners, isUp p = false) ∧
          x.power.scrubbed = [] ∧ x.power.banked = true) ∧
      (deafGlow m0 .east 8 ∧ ¬ deafGlow m0 .east 2) ∧ pinRested banked.power banked.power.wakePin ∧
      ¬ pinRested { banked.power with htime := 199, wakePin := some 0 } (some 0) := by
  unfold deafGlow pinRested
  decide +kernel

/-- A stack at the threshold is hot, one below it is not. -/
theorem witness_HearthSupervisesTheStacks :
    banked.power.banked = true ∧ banked.power.cold = false ∧ (∀ p ∈ banked.rem.partners, isUp p = false) ∧ banked.power.scrubbed = [] ∧
      banked.mem.wf ∧ banked.cfg.power.thermal ≤ (95#16).toNat ∧ ¬ banked.cfg.power.thermal ≤ (94#16).toNat ∧
      (banked.power.entry.map fun e => decide (10500 ≤ e.age)) = some true ∧ run.power.banked = false ∧
      (entering.power.entry.map fun e => decide (e.age < 10500)) = some true := by decide +kernel

/-- The levels on both sides, in Run and in Glow, held and not. -/
theorem witness_BrownoutHoldsAndRecovers :
    let held := { m0 with power := { m0.power with hold := ⟨true, false⟩, glow := ⟨true, false⟩ } }
    (m0.power.banked = false ∧ m0.power.cold = false ∧ held.power.hold.get .east = true ∧ held.power.glow.get .east = true ∧
      held.power.hold.get .west = false ∧ held.power.glow.get .west = false ∧ 689 < 690 ∧ 690 ≤ 690 ∧ 639 < 640 ∧ 655 ≤ 655 ∧ 655 < 656) ∧
      BatchOpen held 0 (FaultQ.reset 0) ∧ (1#16) ≠ 0 ∧
      (∀ s ∈ [entering, banked], s.power.banked = true ∧ s.power.cold = false ∧ s.power.entry.isSome = true ∧ s.power.hold.get .east = false ∧
        s.power.glow.get .east = false) ∧
      (held.power.up = true ∧ held.rem.rxQueue = [] ∧ held.integ.waiting = [] ∧
        (held.power.hold.get .west = false ∧ 620 ≤ 620 ∧ 620 < 690 ∧ ¬ 705 < 705 ∧ 655 < 656)) :=
  ⟨by decide +kernel, batchOpen _ 0 (by decide) rfl, by decide, by decide +kernel, by decide +kernel⟩

/-- An admin entry of a command. -/
def adminBytes (cmd : Nat) (ops : List Byte) : List Byte := [0x10, 0] ++ zeros 6 ++ leBytes 2 cmd ++ zeros 6 ++ ops ++ zeros (48 - ops.length)

/-- The machine with an admin entry held by partition `p`. -/
def holding (s : State) (p : Nat) (e : List Byte) : State := updSq s p fun q => { q with held := [e] }

/-- A half that is in half reset. -/
def halved : State := { m0 with halfReset := ⟨true, false⟩ }

theorem nothingHeld {s : State} (h : s.rem.inbound = [] ∧ (∀ x ∈ s.buf.stores, x.held = false) ∧
    ∀ x ∈ s.rem.epochs, x.ending = none ∧ (x.summed = true ∨ (redCfg s x.ctx x.red).all (fun d => !allRanks d x) = true)) : NothingHeld s :=
  ⟨h.1, h.2.1, fun x hx => ⟨(h.2.2 x hx).1, (h.2.2 x hx).2.imp_right fun hr d hd => by simpa using ofSome hr d hd⟩⟩

theorem witness_PowerLossAndRejoin :
    NothingHeld halved ∧ (∀ x ∈ run.q.records, x.flash = none) ∧ run.power.cold = false ∧ State.reset.power.cold = true ∧
      m0.halfReset.get .east = false ∧ halved.halfReset.get .east = true ∧
      (∀ x ∈ halved.ctxs, x.cw = none) :=
  ⟨nothingHeld (by decide +kernel), by decide +kernel⟩

/-- Among them a request whose pass holds unit 5 and one that holds none, a unit that has miscompared before, a slice under test, and a
hauler that is busy. -/
theorem witness_ContainedDetectionsOnlyCount :
    (let q := { request [0] with pass := { PassState.start with started := true }, tongs := some (5, 1) }
     let s := withReqs m0 [q, { request [0] with id := 1, hauler := some 1, tongs := some (5, 1) }]
     running s = true ∧ s.halfReset = ⟨false, false⟩ ∧ s.power.glow = ⟨false, false⟩ ∧ s.mem.wf ∧ q.half = .east ∧
       q.pass.started = true ∧ q.tongs.map Prod.fst = some 5 ∧ sliceIdle s ⟨.east, .hauler, 1⟩ = false) ∧
      (let s := { m0 with integ := { m0.integ with misTimes := [(.east, 6, 0)], testing := [(⟨.east, .hauler, 127⟩, 1024)] } }
       (∀ y ∈ s.integ.misTimes, ¬ (y.1 = .east ∧ y.2.1 = 5)) ∧ sliceIdle s ⟨.east, .hauler, 127⟩ = true) ∧
      { noDetection with mech := 2, unit := 5, lines := [0x1000] }.mech = 2 ∧ { noDetection with mech := 1, unitClass := 3 }.unitClass = 3 ∧
      { noDetection with mech := 1 }.unitClass ≠ 3 ∧ running m0 = true ∧ m0.halfReset = ⟨false, false⟩ ∧ m0.power.glow = ⟨false, false⟩ ∧
        m0.mem.wf ∧
      { noDetection with corrected := true }.corrected = true ∧ { noDetection with mech := 7 }.mech = 7 ∧ noDetection.mech = 6 ∧
      (let x : Slice := ⟨.east, .hauler, 127⟩
       x.idx < sliceCount x.kind ∧ sliceIdle m0 x = true ∧ x ∉ m0.integ.retired) ∧
      (∃ a ∈ [0x4000_0000_0000], (windowOf m0.fuses.grade a).isSome = true) ∧
      (allIssued (request [0]) = true ∧ (request [0]).hostWrites = ⟨[], []⟩ ∧ flightsOf m0 (.request 0) = []) ∧
      (let port : Slice := ⟨.east, .anvil, 15⟩
       let old := fun n => { m0 with power := { m0.power with ran := ⟨n, 0⟩ } }
       ((m0.integ.tested.find? (·.1 == port)).map Prod.snd).getD 0 + 210000000 ≤ (old 210000000).power.ran.get .east ∧
         ¬ ((m0.integ.tested.find? (·.1 == port)).map Prod.snd).getD 0 + 210000000 ≤ (old 209999999).power.ran.get .east ∧
         port ∉ m0.integ.late ∧ running (old 210000000) = true) := by decide +kernel

/-- A half in Run and one that a hold keeps in Glow; a request without activity for WATCHDOG, and one whose hauler was active an mc later or
that waits for a Tongs slot; and a quench that is 5 µs old, and one that is an mc younger. -/
theorem witness_UncontainedDetectionsQuenchOrReset :
    let s := { withReqs m0 [request [0]] with time := 10500 }
    let few := fun half => (recentQuenches (atTime s 0) half).length + 2 ≤ s.cfg.safety.quenchLimit
    running s = true ∧ s.halfReset = ⟨false, false⟩ ∧ OneRequestPerId s ∧ (ctxCfg s 0).isSome = true ∧ few .east ∧
      ((getCtx s 0).map (·.st) = some .loaded) ∧ reqOn s hauler0 = some (request [0]) ∧ (request [0]).wait ≠ some .tongs ∧
      allIssued (request [0]) = true ∧ (request [0]).active + (s.cfg.safety.watchdog * 21 + 9) / 10 ≤ 4200 ∧
      ¬ ({ request [0] with active := 6301 }.active + (s.cfg.safety.watchdog * 21 + 9) / 10 ≤ s.time) ∧
      { request [0] with wait := some .tongs }.wait = some .tongs ∧
      (let u := { s with power := { s.power with glow := ⟨true, false⟩, hold := ⟨true, false⟩ } }
       running u = true ∧ u.halfReset = ⟨false, false⟩ ∧ u.power.glow.get .east = true ∧ u.power.hold.get .east = true) ∧
      (m0.ctr.updates = [] ∧ ctrCfg s 0 = some { ctr := 0, owner := 0, initial := 0, host := true } ∧
        (affected s { noDetection with mech := 5 }).length + (recentQuenches s .east).length + 1 ≤ s.cfg.safety.quenchLimit) ∧
      (∀ at' ∈ [0, 1],
        let u := updCtx s 0 fun x => { x with st := .quenched, quenchedAt := at' }
        running u = true ∧ u.halfReset = ⟨false, false⟩ ∧ OneRequestPerId u ∧
          (at' = 0 ↔ ∃ y ∈ u.run.reqs, y.half = .east ∧ (getCtx u y.ctx).any (fun x => x.st == .quenched && decide (x.quenchedAt + 10500 ≤ u.time)) = true)) := by
  unfold OneRequestPerId
  decide +kernel

/-! ## A valid image, and the resets -/

def imageHead : List Byte :=
  leBytes 4 0x49435646 ++ leBytes 2 2 ++ zeros 2 ++ leBytes 4 7 ++ leBytes 4 1296 ++ leBytes 2 7 ++ leBytes 2 2 ++ leBytes 2 5 ++ zeros 42 ++
    beBytes 48 p384gx ++ beBytes 48 p384gy ++ zeros 96

/-- A HALVES section with the default wheels and a PARTITIONS section with the smallest values. -/
def imageSections : List Byte :=
  leBytes 2 1 ++ leBytes 2 16 ++ leBytes 4 2 ++ (List.replicate 2 (zeros 8 ++ [16, 8, 8] ++ zeros 5)).flatten ++
    leBytes 2 2 ++ leBytes 2 56 ++ leBytes 4 16 ++ (List.replicate 16 (zeros 32 ++ leBytes 8 1000 ++ zeros 8 ++ leBytes 4 1 ++ zeros 4)).flatten

/-- An image of package 5 and generation 7, signed by the private key 1 (the public key is the curve's base point) outside Lean. -/
def image : List Byte :=
  imageHead ++ imageSections ++
    beBytes 48 0x8d999057ba3d2d969260045c55b97f089025959a6f434d651d207d19fb96e9e4fe0e86ebe0e64f85b96a9c75295df61 ++
    beBytes 48 0xb6851c5d730847b1141a32704892cc5544de85483aaa6f5efc705dc98e5f3fccebbcd11ad51beb9bd7529b51daba0a92

def imageFuses : Fuses :=
  { Fuses.reset with
    keyHash := 0xa19d4db171b582eb8052b0cfe555e17894aa22d1c8a9770950697dd8f796d2fa4bf0a56ad80006b7ea08e1191f814b65 }

def flashed (s : State) : State := { s with flash := sparseNew flashByte 0 image, fuses := imageFuses }

theorem flash_holds_the_image : flashRead (flashed run) 0 256 = image.take 256 ∧ flashRead (flashed run) 0 1296 = image := by decide +kernel

theorem image_length : headerBad (image.take 256) = false ∧ fieldAt (image.take 256) 12 4 = 1296 := by decide +kernel

/-- The signature of the image verifies, its key is the fuses', its rollback value and grade are accepted. -/
theorem test_image_is_accepted : imageBarred imageFuses image = none := by decide +kernel

theorem rulesOk_packed (g : Grade) (img : List Byte) (xs : List Section) (p : Nat) :
    rulesOk g (settingsOf img xs p) xs = rulesOk g (settingsOf img xs 0) xs := by
  have h : ∀ c : Settings, rulesOk g { c with packed := p } xs = rulesOk g c xs := by
    intro c
    cases c
    rfl
  exact h (settingsOf img xs 0)

theorem test_image_sections : ((sectionsOf image).map fun xs => rulesOk .a (settingsOf image xs 0) xs) = some true := by decide +kernel

theorem checkImage_valid {s : State} {head img : List Byte} {n p : Nat} {xs : List Section} (h0 : flashRead s 0 256 = head)
    (h1 : headerBad head = false) (h2 : fieldAt head 12 4 = n) (h3 : flashRead s 0 n = img) (h4 : imageBarred s.fuses img = none)
    (h5 : sectionsOf img = some xs) (h6 : rulesOk s.fuses.grade (settingsOf img xs 0) xs = true)
    (h7 : Config.packedSize (fieldAt img 8 4) (beVal (sha384 img)) = p) (h8 : p ≤ 262144) :
    checkImage s true = .valid (settingsOf img xs p) := by
  unfold checkImage imageContents
  simp [h0, h1, h2, h3, h4, h5, h7, rulesOk_packed, h6, Nat.not_lt.mpr h8]

/-- The image is valid unless the free value of the packed size (R435) exceeds what the Hearth copy holds. -/
theorem image_is_valid (s : State) (hf : s.flash = (flashed run).flash) (hk : s.fuses = imageFuses)
    (hp : Config.packedSize (fieldAt image 8 4) (beVal (sha384 image)) ≤ 262144) : ∃ c, checkImage s true = .valid c := by
  have hr : ∀ a n, flashRead s a n = flashRead (flashed run) a n := by
    intro a n
    unfold flashRead
    rw [hf]
  obtain ⟨xs, hx⟩ := Option.map_eq_some_iff.mp test_image_sections
  exact ⟨_, checkImage_valid ((hr _ _).trans flash_holds_the_image.1) image_length.1 image_length.2 ((hr _ _).trans flash_holds_the_image.2)
    (hk ▸ test_image_is_accepted) hx.1 (hk ▸ hx.2) rfl hp⟩

/-- A machine whose FLASH_WRITE of the last 4 KiB has ended and whose record has not been written. -/
def programming : State :=
  { run with q := { run.q with records := [{ entryRecord m0 0 0 false 0 0 with req := none, flash := some (4190208, 4096) }] } }

/-- Among them a machine with a FLASH_WRITE to cut, and a Banked entry whose clocks have not stopped. -/
theorem witness_EveryResetReachesRun :
    (programming.power.cold = false ∧ programming.mem.wf ∧ flashWf programming ∧ (∀ x ∈ run.q.records, x.flash = none) ∧
        entering.power.banked = true ∧ (entering.power.entry.map fun e => decide (e.age < 10500)) = some true ∧
        ∃ x ∈ programming.q.records, x.flash = some (4190208, 4096)) ∧
    (run.power.cold = false ∧ run.mem.wf ∧ run.power.banked = false ∧ (209 ≠ 210) ∧ (619 < 620) ∧ (499 < 500) ∧ run.power.warmPin = none ∧
        { run with power := { run.power with htime := 199, warmPin := some 0 } }.power.warmPin = some 0 ∧ banked.power.banked = true ∧
        banked.power.cold = false ∧ ∀ x ∈ (holding m0 0 (adminBytes 0x60 [])).q.records, x.flash = none) ∧
      AdminEntry (holding m0 0 (adminBytes 0x60 [])) 0 0x0060 (adminBytes 0x60 []) [] ∧
      (∀ i, 16 ≤ i → i < 64 → fieldAt (adminBytes 0x60 []) i 1 = 0) ∧
      (let s := flashed (holding m0 0 (adminBytes 0x52 []))
       AdminEntry s 0 0x0052 (adminBytes 0x52 []) [] ∧ (∀ i, 16 ≤ i → i < 64 → fieldAt (adminBytes 0x52 []) i 1 = 0) ∧
         (Config.packedSize (fieldAt image 8 4) (beVal (sha384 image)) ≤ 262144 → ∃ c, checkImage s env.flashAnswers = .valid c)) :=
  ⟨by decide +kernel, by decide +kernel,
    ⟨by decide +kernel, ⟨_, rfl, rfl, rfl⟩, by decide +kernel, by decide +kernel, by decide +kernel, rfl, .inr rfl, by decide +kernel⟩,
    zeroBytes (by decide +kernel),
    ⟨by decide +kernel, ⟨_, rfl, rfl, rfl⟩, by decide +kernel, by decide +kernel, by decide +kernel, rfl, .inr rfl, by decide +kernel⟩,
    zeroBytes (by decide +kernel), image_is_valid _ rfl rfl⟩

/-! ## Witnesses: queues and channels -/

/-- The machine with every queue ENABLED, the queues of context 0 at 0x1_0000 of the host's memory. -/
def ready : State :=
  { m0 with q := { m0.q with
      sqs := m0.q.sqs.map fun q => { q with st := .enabled, base := if q.qid < 16 then 0 else 0x1_0000 }
      cqs := m0.q.cqs.map fun q => { q with st := .enabled, base := if q.qid < 16 then 4096 else 0x2_0000 } } }

/-- The machine with the queue `q` changed. -/
def withSq (q : Nat) (f : SubQueue → SubQueue) : State := updSq ready q f

def withCq (q : Nat) (f : CompQueue → CompQueue) : State := updCq ready q f

def haltWord : Word := 0x0400_0000_0000_0000#64

/-- A tail one window ahead is taken, one more is not; writes on the other port, of a longer value and of a foreign queue; and queues that a
command of the same mc has enabled. -/
theorem witness_DoorbellsMoveTailAndHead :
    let w := bellW 0 16
    (running ready = true ∧ (w.port = homePort ready w.part.val ∧ w.size = 4) ∧
      (let long := { w with size := 8, value := 0xFFFF_FFFF }; long.size = 8 ∧ long.value.toNat < 2 ^ 32) ∧
      { w with port := .west }.port ≠ homePort ready 0 ∧ sqOwner ready (16 : Fin 8192).val = some 0 ∧
      sqOwner ready (18 : Fin 8192).val ≠ some 0 ∧ cqOwner ready (16 : Fin 2048).val = some 0 ∧ cqOwner ready (17 : Fin 2048).val ≠ some 0 ∧
      ((getSq ready 16).map fun x => (x.st, x.tail, x.head)) = some (.enabled, 0, 0) ∧ sqDepth ready 16 = 16 ∧
      ((getCq ready 16).map (·.st)) = some .enabled) ∧ BatchOpen ready 0 (FaultQ.reset 0) ∧
      (ready.q.oldSqs = [] ∧ ready.q.oldCqs = []) ∧
      (let s := { ready with q := { ready.q with
         oldSqs := [(0, SubQueue.start 16 .disabled 0 3)], oldCqs := [(0, CompQueue.start 16 .disabled 0)] } }
       running s = true ∧ (s.q.oldSqs.find? fun o => o.1 == s.time && o.2.qid == 16) = some (0, SubQueue.start 16 .disabled 0 3) ∧
         (s.q.oldCqs.find? fun o => o.1 == s.time && o.2.qid == 16) = some (0, CompQueue.start 16 .disabled 0)) :=
  ⟨by decide +kernel, batchOpen _ 0 (by decide) rfl, ⟨rfl, rfl⟩, by decide +kernel⟩

theorem witness_PacingRequestsAreCounted :
    (∀ n ∈ [65534, 65535],
      let s := updPacing m0 0 fun x => { x with pending := n }
      running s = true ∧ (pacingCfg s 0).map (·.source) = some .host ∧ (pacingCfg s 0).map (fun c => partOfCtx s c.ctx) = some 0 ∧
        ((getPacing s 0).map fun x => (x.pending, x.coming)) = some (n, []) ∧ (∀ y ∈ s.buf.pacing, y.line = 0 → some y = getPacing s 0)) ∧
      BatchOpen (updPacing m0 0 fun x => { x with pending := 65535 }) 0 (FaultQ.reset 0) ∧
      (bellW 0 0).port = homePort m0 0 ∧ (bellW 0 0).value.toNat % 2 ^ 32 = 0 ∧
      (let s := updPacing m0 1 fun x => { x with pending := 65534 }
       running s = true ∧ (pacingCfg s 1).map (·.source) = some .timer ∧ ((getPacing s 1).map fun x => (x.pending, x.coming)) = some (65534, []) ∧
         ∀ y ∈ s.buf.pacing, y.line = 1 → some y = getPacing s 1) ∧
      (let s := updPacing m0 1 fun x => { x with pending := 65535 }
       running s = true ∧ (pacingCfg s 1).map (fun c => (c.source, partOfCtx s c.ctx)) = some (.timer, 0) ∧
         ((getPacing s 1).map fun x => (x.pending, x.coming)) = some (65535, []) ∧ ∀ y ∈ s.buf.pacing, y.line = 1 → some y = getPacing s 1) ∧
      BatchOpen (updPacing m0 1 fun x => { x with pending := 65535 }) 0 (FaultQ.reset 0) ∧
      (pacingCfg m0 2).map (·.source) = some .schedule :=
  ⟨by decide +kernel, batchOpen _ 0 (by decide) rfl, by decide +kernel, by decide +kernel, by decide +kernel, by decide +kernel,
    batchOpen _ 0 (by decide) rfl, by decide +kernel⟩

/-- An empty queue, eight entries held, room for the last one, and admin entries of the right and of a wrong TYPE in host memory. -/
theorem witness_EntryFetchHoldsTheNextEntry :
    (∀ s ∈ [withSq 16 id, withSq 16 fun x => { x with tail := 1, held := List.replicate 8 [] },
            withSq 16 fun x => { x with tail := 1, held := List.replicate 7 [] }, withSq 16 fun x => { x with tail := 0, head := 2 ^ 32 - 1 }],
      running s = true ∧ (getSq s 16).map (·.st) = some .enabled ∧ sqOwner s 16 = some 0 ∧ s.halfReset.get (sqHome s 16) = false) ∧
      (∀ e ∈ [adminBytes 0x60 [], zeros 64],
        let s := { withSq 0 fun x => { x with tail := 1 } with mem := memStore ready.mem (hostAddr 0 0) e }
        running s = true ∧ (getSq s 0).map (fun x => (x.st, x.tail, x.head)) = some (.enabled, 1, 0) ∧ sqOwner s 0 = some 0 ∧
          s.halfReset.get (sqHome s 0) = false ∧ hostRead s 0 0 64 = e) ∧
      (let e := adminBytes 0x60 []
       fieldAt e 0 1 = 0x10 ∧ fieldAt e 1 1 = 0 ∧ fieldAt e 2 2 = 0 ∧ fieldAt e 10 6 = 0 ∧ fieldAt e 8 2 = 0x60) ∧
         fieldAt (zeros 64) 0 1 ≠ 0x10 := by
  decide +kernel

/-- The last free place and a full queue, a queue that is not ENABLED, a request's record, a request that may park at a full queue, and
messages that wait or do not. -/
theorem witness_CompletionRecordsAreWrittenAndSignalled :
    let rec' := entryRecord ready 16 7 true 0 0
    let put := fun (s : State) => { s with q := { s.q with records := [rec'] } }
    (∀ s ∈ [put (withCq 16 fun x => { x with count := 15 }), put (withCq 16 fun x => { x with count := 16 }),
            put (withCq 16 fun x => { x with st := .disabled })],
      running s = true ∧ s.mem.wf ∧ s.q.records.find? (·.cq == 16) = some rec' ∧ cqOwner s 16 = some 0 ∧ (getCq s 16).isSome = true ∧
        cqDepth s 16 = 16 ∧ s.q.oldCqs = [] ∧ whenReady s 0 (fun y => !recordComing y 16) = s) ∧
      (let g := { request [haltWord] with fin := some (0, 0) }
       let s := withReqs (withSettings (put (withCq 16 fun x => { x with count := 16 })) fun c =>
         { c with staging := c.staging.map fun a => { a with parking := 1 } }) [g]
       let u := { s with q := { s.q with records := [{ rec' with req := some 0 }] } }
       u.q.records.filter (·.cq == 16) = [{ rec' with req := some 0 }] ∧ getReq u 0 = some g ∧ g.hauler ≠ none ∧ g.stays = false ∧
         freeParking u g.ctx = some 0 ∧ running u = true ∧ u.mem.wf ∧ whenReady u 0 (fun y => !recordComing y 16) = u) ∧
      (rec'.rep = none ∧ rec'.req = none ∧ rec'.irq = true ∧ { rec' with req := some 0, irq := false }.req ≠ none) ∧
      BatchOpen (put (withCq 16 fun x => { x with st := .disabled })) 0 (FaultQ.reset 0) ∧
      (cqIrq (withSettings ready fun c => { c with cqs := [{ qid := 16, partition := 0, depth := 16, vector := 3, irq := .none }] }) 16).1 = .none ∧
      (running ready = true ∧ cqIrq ready 16 = (.coalesce 2 1000, 3) ∧ (getCq ready 16).map (·.unsignalled) = some 0 ∧
        (getCq (withCq 16 fun x => { x with unsignalled := 1 }) 16).map (·.unsignalled) = some 1) :=
  ⟨by decide +kernel, by decide +kernel, by decide +kernel, batchOpen _ 0 (by decide) rfl, by decide +kernel⟩

/-- Memory with the program HALT at virtual address 0 of context 0. -/
def haltMem : Mem := memStore m0.mem 0 (leBytes 8 haltWord.toNat)

def entry (ty tag : Nat) : List Byte := [BitVec.ofNat 8 ty, 0, 0, 0] ++ leBytes 4 tag ++ zeros 56

theorem bareEntry (ty : Nat) (h : ty ∈ [1, 2, 3]) : BareEntry (entry ty 5) ty := by
  have : ∀ n ∈ [1, 2, 3], fieldAt (entry n 5) 0 1 = n ∧ (List.range 4).all (fun i => i < 1 || fieldAt (entry n 5) i 1 == 0) = true ∧
      (List.range 64).all (fun i => i < 16 || fieldAt (entry n 5) i 1 == 0) = true := by decide +kernel
  exact ⟨(this ty h).1, zeroBytes (this ty h).2.1, zeroBytes (this ty h).2.2⟩

/-- A queue of context 0 that holds one entry, with the program in memory. -/
def oneEntry (q : Nat) (f : SubQueue → SubQueue) : State := { withSq q f with mem := haltMem }

theorem halt_words :
    let ws := bytesToWords 32 (memRead haltMem 0 256)
    haltAt ws.length 0 ws = some 0 ∧ [haltWord] = ws.take 1 := by decide +kernel

theorem lineProgram (q : Nat) (f : SubQueue → SubQueue) :
    LineProgram (oneEntry q f) 0 0 [haltWord] (newSegment (device 0 0 0x1_0000 0) true) :=
  ⟨by decide, by decide, rfl, rfl, rfl, rfl, (by decide +kernel : pkgOf (5 * 2 ^ 50 + 0) = 5), ⟨rfl, rfl⟩, by decide +kernel,
    ⟨.hbm .east, (by decide +kernel : windowOf .a 0 = some (.hbm .east)), (by decide +kernel : windowOf .a 255 = some (.hbm .east))⟩,
    (by decide +kernel : unreachable m0 0 = false), fun h _ => by cases h <;> rfl, (by decide +kernel : memMark haltMem 0 = false),
    ⟨0, halt_words.1, halt_words.2⟩⟩

theorem prevalidate_halt (q : Nat) (f : SubQueue → SubQueue) :
    ∀ q' run', prevalidate { atTime (oneEntry q f) 0 with q := q', run := run' } 0 .east [haltWord] (List.replicate 16 0)
      (List.replicate 8 none) = none := by
  intro _ _
  rfl

def toStart (s : State) (q : Nat) : Bool :=
  running s && s.q.sqs.all (fun y => y.qid != q || some y == getSq s q) && (getCtx s 0).map (·.st) == some .loaded &&
    s.run.reqs.all (fun r => r.id < s.run.nextReq) && haulerReady (atTime s 0) hauler0 && !s.halfReset.get (sqHome s q) &&
    sqHome s q == .east && reqOn s hauler0 == none && (getSq s q).map (·.st) == some .enabled && s.q.oldSqs.isEmpty

/-- The states of the three ways to start: a plain queue, an IDLE persistent channel, and a run that ended with OK. -/
theorem witness_EntriesStartTheirPrograms :
    (let s := oneEntry 16 fun x => { x with held := [entry 1 5] }
     toStart s 16 = true ∧ (sqCfg s 16).map (·.persistent) = some false ∧ pickQueue (atTime s 0) .east = some 16) ∧
      (∀ ty ∈ [2, 3],
        let s := oneEntry 17 fun x => { x with held := [entry ty 5] }
        toStart s 17 = true ∧ (getSq s 17).map (·.active) = some false ∧ pickQueue (atTime s 0) .east = some 17) ∧
      (let s := { oneEntry 17 fun x => { x with active := true, ended := some 0, run := some (entry 2 5) } with time := 1 }
       toStart s 17 = true ∧ (getSq s 17).map (fun x => decide (x.endedAt < s.time)) = some true ∧ (getSq s 17).map (·.held) = some [] ∧ (sqCfg s 17).map (fun c => (c.persistent, c.ctx)) = some (true, 0) ∧
         (getSq s 17).map (fun x => (x.active, x.running, x.ended)) = some (true, 0, some 0) ∧
         (getSq s 17).map (fun x => (x.stopped, x.shadow, x.run)) = some (false, none, some (entry 2 5))) ∧
      fieldAt (entry 1 5) 8 8 = 0 ∧ fieldAt (entry 2 5) 8 8 = 0 ∧ fieldAt (entry 3 5) 8 8 = 0 :=
  ⟨by decide +kernel, by decide +kernel, by decide +kernel, by decide +kernel⟩

theorem witness_ChannelCommandsFollowTheChannel :
    (∀ x ∈ [(2, true, none), (3, true, none), (3, true, some (entry 3 6)), (4, false, none), (4, true, none)],
      let s := withSq 17 fun y => { y with held := [entry x.1 5], active := x.2.1, shadow := x.2.2 }
      toStart s 17 = true ∧ (sqCfg s 17).map (·.persistent) = some true ∧ (getSq s 17).map (·.active) = some x.2.1 ∧
        (getSq s 17).map (·.shadow) = some x.2.2 ∧ (getSq s 17).map (·.held) = some [entry x.1 5] ∧ fieldAt (entry x.1 5) 0 1 = x.1) ∧
      (∀ i < (entry 4 5).length, (1 ≤ i ∧ i < 4) ∨ 8 ≤ i → fieldAt (entry 4 5) i 1 = 0) ∧
      (∀ x ∈ [(0, true), (2, false)],
        let s := { withSq 17 fun y =>
          { y with held := [entry 4 5], active := true, ended := some x.1, stopped := x.2, stops := [(9, true)] } with time := 1 }
        (getSq s 17).map (fun y => decide (y.endedAt < s.time ∧ ∀ e' ∈ y.held, fieldAt e' 0 1 ≠ 3)) = some true ∧
        (getSq s 17).map (fun y => (y.active, y.running, y.ended)) = some (true, 0, some x.1) ∧
          (getSq s 17).map (fun y => (y.shadow, y.stopped)) = some (none, x.2)) :=
  ⟨by decide +kernel, by decide +kernel, by decide +kernel⟩

/-! ## Witnesses: administrative commands, segments, faults -/

/-- What is to be shown of a state in which the entry `e` alone is held, and may start. -/
abbrev HoldsEntry (s : State) (p : Fin 16) (cmd : Nat) (e : List Byte) : Prop :=
  running s = true ∧ (getSq s p.val).map (fun q => (q.st, q.held)) = some (.enabled, [e]) ∧ fieldAt e 8 2 = cmd ∧
    s.halfReset.get (homePort s p.val) = false ∧ adminBusy s p.val < 16 ∧ s.status.maint = false ∧ (cmd < 0x50 ∨ p = 0) ∧
    ∀ o ∈ s.q.oldSqs, o.2.qid ≠ p.val

theorem adminEntry {s : State} {p : Fin 16} {cmd : Nat} {e : List Byte} (h : HoldsEntry s p cmd e) : AdminEntry s p cmd e [] :=
  let ⟨run, held, named, half, room, maint, owner, kept⟩ := h
  let ⟨q, hq, hv⟩ := Option.map_eq_some_iff.mp held
  { run, named, half, room, maint, owner, kept, queue := ⟨q, hq, congrArg Prod.fst hv, congrArg Prod.snd hv⟩ }

/-- Queue operands: the queue, its kind byte and the base. -/
def queueOps (q kind base : Nat) : List Byte := leBytes 2 q ++ leBytes 1 kind ++ zeros 5 ++ leBytes 8 base

def lastBase : Nat := 0x07FF_FFFF_F000

theorem witness_QueueCommandsEnableAndDisable :
    (∀ k ∈ [1, 3],
      let e := adminBytes k (queueOps 16 0 lastBase)
      (List.range 24).all (fun i => i < 18 || fieldAt e i 1 == 0) = true ∧ (List.range 64).all (fun i => i < 32 || fieldAt e i 1 == 0) = true ∧
        fieldAt e 16 2 = 16 ∧ fieldAt e 24 8 = lastBase ∧ lastBase % 4096 = 0 ∧ lastBase + 4096 ≤ 0x0800_0000_0000) ∧
      AdminEntry (holding m0 0 (adminBytes 1 (queueOps 16 0 lastBase))) 0 1 (adminBytes 1 (queueOps 16 0 lastBase)) [] ∧
      AdminEntry (holding m0 0 (adminBytes 3 (queueOps 16 0 lastBase))) 0 3 (adminBytes 3 (queueOps 16 0 lastBase)) [] ∧
      (sqOwner m0 16 = some 0 ∧ (getSq m0 16).map (·.st) = some .disabled ∧ cqOwner m0 16 = some 0 ∧ (getCq m0 16).map (·.st) = some .disabled) ∧
      (∀ k ∈ [2, 4, 5],
        (List.range 64).all (fun i => i < 18 || fieldAt (adminBytes k (queueOps 16 0 0)) i 1 == 0) = true) ∧
      AdminEntry (holding ready 0 (adminBytes 2 (queueOps 16 0 0))) 0 2 (adminBytes 2 (queueOps 16 0 0)) [] ∧
      AdminEntry (holding ready 0 (adminBytes 4 (queueOps 16 0 0))) 0 4 (adminBytes 4 (queueOps 16 0 0)) [] ∧
      AdminEntry (holding ready 0 (adminBytes 5 (queueOps 16 0 0))) 0 5 (adminBytes 5 (queueOps 16 0 0)) [] ∧
      AdminEntry (holding ready 0 (adminBytes 5 (queueOps 16 1 0))) 0 5 (adminBytes 5 (queueOps 16 1 0)) [] ∧
      ((getSq ready 16).map (·.st) = some .enabled ∧ (getCq ready 16).map (·.st) = some .enabled ∧
        fieldAt (adminBytes 5 (queueOps 16 1 0)) 18 1 = 1) :=
  ⟨by decide +kernel, adminEntry (by decide +kernel), adminEntry (by decide +kernel), by decide +kernel, by decide +kernel,
    adminEntry (by decide +kernel), adminEntry (by decide +kernel), adminEntry (by decide +kernel), adminEntry (by decide +kernel),
    by decide +kernel⟩

/-- The premises that every refusal shares. -/
def mayAsk (s : State) (p : Nat) (e : List Byte) : Bool :=
  running s && (getSq s p).any (fun q => q.st == .enabled && q.held == [e]) && !s.halfReset.get (homePort s p) && adminBusy s p < 16 &&
    s.q.oldSqs.isEmpty && s.q.records.isEmpty

theorem witness_RefusedAdminCommandsHaveNoEffect :
    (let e := adminBytes 0x40 []
     let s := holding { m0 with status := { m0.status with maint := true } } 1 e
     mayAsk s 1 e = true ∧ fieldAt e 8 2 = 0x40 ∧ s.status.maint = true) ∧
      (∀ cmd ∈ [0x50, 0x51, 0x52, 0x60], mayAsk (holding m0 15 (adminBytes cmd [])) 15 (adminBytes cmd []) = true ∧
        fieldAt (adminBytes cmd []) 8 2 = cmd) ∧
      (let e := adminBytes 3 (zeros 24 ++ [1])
       mayAsk (holding m0 0 e) 0 e = true ∧ fieldAt e 8 2 = 3 ∧ fieldAt e 40 1 ≠ 0) ∧
      (let e := adminBytes 1 (leBytes 2 8191)
       mayAsk (holding m0 0 e) 0 e = true ∧ (List.range 64).all (fun i => i < 18 || fieldAt e i 1 == 0) = true ∧ sqOwner m0 8191 ≠ some 0 ∧
         getSq (holding m0 0 e) 8191 = none ∧ sqDepth m0 8191 * 64 ≤ 0x0800_0000_0000) ∧
      (let e := adminBytes 1 (leBytes 2 16)
       mayAsk (holding m0 1 e) 1 e = true ∧ (List.range 64).all (fun i => i < 18 || fieldAt e i 1 == 0) = true ∧ sqOwner m0 16 = some 0 ∧
         (getSq (holding m0 1 e) 16).map (·.st) = some .disabled ∧ sqDepth m0 16 * 64 ≤ 0x0800_0000_0000) ∧ (1 : Fin 16) ≠ 0 ∧ m0.status.maint = false := by
  decide +kernel

theorem noneFull {s : State} (h : (s.q.cqs.all fun c => !(c.st == .enabled && decide (cqDepth s c.qid ≤ (c.count + 2 ^ 32 - c.head) % 2 ^ 32))) = true)
    (q : Nat) : cqFull s q = false := by
  unfold cqFull getCq
  cases hc : s.q.cqs.find? (·.qid == q) with
  | none => rfl
  | some c =>
    have hq : c.qid = q := by simpa using List.find?_some hc
    simpa [hq, imp_iff_not_or] using List.all_eq_true.mp h c (List.mem_of_find?_eq_some hc)

/-- The machine with the pages of every partition on the West host port. -/
def westPage : State := withSettings m0 fun c => { c with parts := List.replicate 16 { part with homePort := .west } }

theorem witness_ContextResetRestoresTheContext :
    (∀ q, cqFull (holding (withReqs m0 [request [0]]) 0 (adminBytes 0x10 [])) q = false) ∧
    (let e := adminBytes 0x10 []
     let s := holding (withReqs m0 [request [0]]) 0 e
     s.power.cold = false ∧ AdminEntry s 0 0x0010 e [] ∧ fieldAt e 16 1 = 0 ∧ ownsCtx s 0 0 = true ∧ fieldAt e 17 1 = 0 ∧
       (∀ i, 18 ≤ i → i < 64 → fieldAt e i 1 = 0) ∧ ctxBusy s 0 0 = false ∧ s.halfReset.get (homeOfCtx s 0) = false ∧ OneRequestPerId s) ∧
    (let e := adminBytes 0x10 []
     let s := { holding westPage 0 e with halfReset := ⟨true, false⟩ }
     AdminEntry s 0 0x0010 e [] ∧ ownsCtx s 0 0 = true ∧ ctxBusy s 0 0 = false ∧ s.halfReset.get (homeOfCtx s 0) = true) ∧
      (let s := updCtx m0 0 fun x => { x with st := .resetting }
       running s = true ∧ (getCtx (atTime s 0) 0).map (·.st) = some .resetting ∧ resetDone s 0 = true ∧ s.cfg.ctrs.Nodup ∧
         (∀ d ∈ s.cfg.ctrs, d.owner = 0 ∧ (getCtr (atTime s 0) d.ctr).isSome = true ∧ ∀ k ∈ s.cfg.ctrs, k.ctr = d.ctr → k = d) ∧
         ∃ r ∈ s.buf.rings, r.ctx = 0 ∧ ringCfg s 0 r.ring ≠ none) ∧
      (let s := withReqs m0 [request [0]]
       running s = true ∧ (getCtx (atTime s 0) 0).map (·.st) = some .loaded ∧ resetDone s 0 = false) :=
  ⟨noneFull (by decide +kernel), ⟨by decide +kernel, adminEntry (by decide +kernel), by decide +kernel, by decide +kernel, by decide +kernel,
    zeroBytes (by decide +kernel), by decide +kernel, by decide +kernel, by unfold OneRequestPerId; decide +kernel⟩,
    ⟨adminEntry (by decide +kernel), by decide +kernel⟩, by decide +kernel, by decide +kernel⟩

/-- Operands of a device segment of context 0 in slot 2. -/
def segOps : List Byte :=
  [0, 2, 0, 7] ++ zeros 4 ++ leBytes 8 0x200_0000 ++ leBytes 8 0x1_0000 ++ leBytes 8 (5 * 2 ^ 50 + 0x10_0000) ++ zeros 16

def segment (slot : Nat) (f : Segment → Segment) : State := updSeg m0 0 slot f

/-- Operands of INVALIDATE and FAULT_RESOLVE: slot, mode or action, first block and count. -/
def rangeOps (slot mode first count : Nat) : List Byte := [0, BitVec.ofNat 8 slot, BitVec.ofNat 8 mode, 0] ++ leBytes 4 first ++ leBytes 4 count

theorem witness_SegmentCommandsCreateAndDrain :
    (let e := adminBytes 0x20 segOps
     let s := holding m0 0 e
     AdminEntry s 0 0x0020 e [] ∧ ownsCtx s 0 0 = true ∧ ctxBusy s 0 0 = false ∧ segReserved (e.drop 16) = false ∧ getSeg s 0 2 = none ∧
       segFails (segEnv s 0) (s.seg.segs.map (·.cfg)) s.cfg.halves (parseSeg (e.drop 16)) = []) ∧
      (let e := adminBytes 0x21 []
       AdminEntry (holding m0 0 e) 0 0x0021 e [] ∧ (∀ i, 18 ≤ i → i < 64 → fieldAt e i 1 = 0) ∧ (getSeg m0 0 0).isSome = true ∧
         isStaging m0 0 0 = false) ∧
      (let e := adminBytes 0x22 (rangeOps 1 1 0 2)
       AdminEntry (holding m0 0 e) 0 0x0022 e [] ∧ (∀ i, 19 ≤ i → i < 20 → fieldAt e i 1 = 0) ∧ (∀ i, 28 ≤ i → i < 64 → fieldAt e i 1 = 0) ∧
         (getSeg m0 0 1).map (fun g => segBlocks g.cfg) = some 2 ∧ fieldAt e 20 4 + fieldAt e 24 4 ≤ 2 ∧ fieldAt e 18 1 < 2) ∧
      (let e := adminBytes 0x22 (rangeOps 1 2 0 2)
       let s := holding (segment 1 fun g => { g with holds := [(0, 2)] }) 0 e
       AdminEntry s 0 0x0022 e [] ∧ fieldAt e 18 1 = 2 ∧ (getSeg s 0 1).map (·.holds) = some [(0, 2)] ∧
         (fieldAt e 20 4, fieldAt e 24 4) = (0, 2) ∧
         NothingHeld s) :=
  ⟨⟨adminEntry (by decide +kernel), by decide +kernel⟩,
    ⟨adminEntry (by decide +kernel), zeroBytes (by decide +kernel), by decide +kernel⟩,
    ⟨adminEntry (by decide +kernel), zeroBytes (by decide +kernel), zeroBytes (by decide +kernel), by decide +kernel⟩,
    ⟨adminEntry (by decide +kernel), by unfold NothingHeld; decide +kernel⟩⟩

def anOp : AdminOp :=
  { id := 7, part := 15, tag := 3, irq := true, cmd := 0x21, ctx := 0, slot := 0, first := 0, count := 0, mode := 0, left := [], status := 0
    detail := 0 }

/-- A drain that has not started, one that waits for a billet, and two that are quiet, of both acts. -/
theorem witness_DrainsApplyWhenQuiet :
    let d : SegDrain := { act := .destroy, first := 0, count := 1, started := true, op := some 7, taken := 0 }
    let s := fun (d : SegDrain) (n : Nat) =>
      { segment 0 fun g => { g with drains := [d], inflight1 := n } with time := 1, q := { m0.q with ops := [anOp] } }
    (∀ u ∈ [s { d with started := false } 0, s d 1, s d 0, s { d with act := .invalidate true } 0],
      whenReady u 1 (quietNow 0 0) = u ∧ running u = true ∧
        (getSeg u 0 0).map (fun g => (g.drains.length, g.epoch, g.inflight0)) = some (1, false, 0) ∧ NothingHeld u ∧
        getOp u 7 = some anOp ∧ anOp.part < 16 ∧ (∀ f ∈ u.seg.faults, ¬ (f.ctx = 0 ∧ f.slot = 0)) ∧ u.run.reqs = []) ∧
      (∀ u ∈ [s d 0, s { d with act := .invalidate true } 0], (getSeg u 0 0).map (fun g => inflightOf u g (!g.epoch)) = some 0) ∧
      (getSeg (s d 1) 0 0).map (fun g => inflightOf (s d 1) g (!g.epoch)) = some 1 := by
  simp only [List.forall_mem_cons, List.not_mem_nil, false_implies, implies_true, and_true]
  unfold NothingHeld
  exact ⟨⟨⟨whenReady_past (by decide) (.inr rfl), by decide +kernel⟩, ⟨whenReady_past (by decide) (.inr rfl), by decide +kernel⟩,
    ⟨whenReady_past (by decide) (.inr rfl), by decide +kernel⟩, ⟨whenReady_past (by decide) (.inr rfl), by decide +kernel⟩⟩, by decide +kernel⟩

theorem no_marks (m : Mem) (h : m.marks = []) (e : m.hbmEpoch = 0) (a n : Nat) : (memReadS m a n).any Prod.snd = false := by
  have hm : ∀ l, memMark m l = false := by
    intro l
    simp [memMark, h, e, sparseRead, sparseFill, markDefault]
  simp [memReadS, hm, List.any_eq_false]

/-- A migratable segment whose block 1 is in state `st`. -/
def withBlock (st : BlockSt) : State :=
  segment 1 fun g => { g with blocks := [{ num := 1, st := st, written := true, readMostly := false, preferDevice := false, was := none }] }

def quietBlock (s : State) (st : BlockSt) : Bool :=
  running s && (getSeg s 0 1).any (fun g => g.cfg.kind == .migratable && (blockOf g 1).st == st && decide (1 < segBlocks g.cfg)) && s.q.ops.isEmpty &&
    s.rem.inbound.isEmpty && s.buf.stores.isEmpty && s.seg.segs.all fun x => x.cfg.ctx != 0 || x.cfg.index != 1 || some x == getSeg s 0 1

theorem witness_FaultsResolveAndBlocksMove :
    (∀ x ∈ [(1, BlockSt.absent), (2, BlockSt.inHost)],
      let e := adminBytes 0x23 (rangeOps 1 x.1 1 1)
      let s := holding (withBlock x.2) 0 e
      AdminEntry s 0 0x0023 e [] ∧ quietBlock s x.2 = true ∧ ownsCtx s 0 0 = true ∧ fieldAt e 17 1 = 1 ∧ fieldAt e 19 1 = 0 ∧
        (∀ i, 28 ≤ i → i < 64 → fieldAt e i 1 = 0) ∧ fieldAt e 20 4 = 1 ∧ fieldAt e 24 4 = 1 ∧ fieldAt e 18 1 = x.1) ∧
      (∀ st ∈ [BlockSt.movingIn 1, BlockSt.movingOut 1 true], quietBlock (withBlock st) st = true ∧ (withBlock st).halfReset = ⟨false, false⟩ ∧
        whenReady (withBlock st) 0 (fun x => !otherOpen x (.copy 0 1 1)) = withBlock st ∧ NothingHeld (withBlock st)) ∧
      NothingHeld (holding (withBlock .absent) 0 []) ∧ (∀ st a, (memReadS (withBlock st).mem a 0x20_0000).any Prod.snd = false) := by
  refine ⟨?_, ?_, nothingHeld (by decide +kernel), fun st a => no_marks _ rfl rfl _ _⟩
  rotate_left
  · simp only [List.forall_mem_cons, List.not_mem_nil, false_implies, implies_true, and_true]
    exact ⟨⟨by decide +kernel, rfl, whenReady_past (by decide) (.inl rfl), nothingHeld (by decide +kernel)⟩,
      by decide +kernel, rfl, whenReady_past (by decide) (.inl rfl), nothingHeld (by decide +kernel)⟩
  intro x hx
  rcases List.mem_cons.mp hx with rfl | hx
  · exact ⟨adminEntry (by decide +kernel), by decide +kernel, by decide +kernel, by decide +kernel, by decide +kernel,
      zeroBytes (by decide +kernel), by decide +kernel⟩
  · obtain rfl := List.mem_singleton.mp hx
    exact ⟨adminEntry (by decide +kernel), by decide +kernel, by decide +kernel, by decide +kernel, by decide +kernel,
      zeroBytes (by decide +kernel), by decide +kernel⟩

/-- A full batch but one in the last free places of the queue, and a fault with a timeout that a request waits for. -/
theorem witness_FaultBatchesCloseAndFaultsTimeOut :
    (let r := eventRec 0x0010 0 true 0 0 5
     let q := { FaultQ.reset 0 with enabled := true, openB := List.replicate 63 r, records := 1, base := 4096 }
     let s := { m0 with time := 2200000, seg := { m0.seg with faultQs := [q] } }
     atTime s (max 0 (5 + mcOf part.batchWindow)) = s ∧ q.enabled = true ∧ q.base + 2 ^ q.log * 32 ≤ 0x0800_0000_0000 ∧ running s = true ∧
       s.seg.faultQs.find? (·.part == 0) = some q ∧ (∀ x ∈ s.seg.faultQs, x.part = 0 → x = q) ∧ partCfg s 0 = some part ∧
       q.openB.head? = some r ∧ q.closedB = [] ∧ q.waiting = [] ∧ q.openB.length ≤ faultRoom q ∧ q.openB.length < 64 ∧ s.mem.wf) ∧
      (let o : Outstanding :=
         { ctx := 0, slot := 1, block := 1, recorded := true, written := true, flags := 0, value := 0, created := 0, waiters := [0], extra := 0 }
       let s := { withReqs (withBlock .absent) [{ request [0] with wait := some (.absent 1 1), hauler := none }] with
         time := 2200000, seg := { (withBlock .absent).seg with faults := [o] } }
       atTime s (max 0 (o.created + mcOf part.resTimeout)) = s ∧ (∀ q, cqFull s q = false) ∧ running s = true ∧ faultOn s 0 1 1 = some o ∧
         partCfg s (partOfCtx s 0) = some part ∧ o.recorded = true ∧ part.resTimeout ≠ 0 ∧
         OneRequestPerId s ∧ ∃ x ∈ s.run.reqs, x.ctx = 0 ∧ x.fin = none ∧ x.wait = some (.absent 1 1)) :=
  ⟨⟨atTime_past (by decide), by decide +kernel⟩, atTime_past (by decide), noneFull (by decide +kernel),
    by unfold OneRequestPerId; decide +kernel⟩

/-! ## Witnesses: maintenance, the ledger, the remote class -/

def unfenceOps : List Byte := leBytes 2 0

def flashOps (off len src : Nat) : List Byte := leBytes 4 off ++ leBytes 4 len ++ leBytes 8 src

/-- The machine with partner record 0 changed. -/
def withPartner (f : Partner → Partner) : State := updPartner m0 0 f

theorem witness_MaintenanceCommandsAnswer :
    (let e := adminBytes 0x30 unfenceOps
     let s := holding (withPartner fun p => { p with st := .fenced }) 0 e
     AdminEntry s 0 0x0030 e [] ∧ (∀ i, 18 ≤ i → i < 64 → fieldAt e i 1 = 0) ∧ s.fuses.grade ≠ .c ∧ fieldAt e 16 2 = 0 ∧
       partnerCfg s 0 = some partner9 ∧ partner9.owner = 0 ∧ (getPartner s 0).map (·.st) = some .fenced ∧ BatchOpen s 0 (FaultQ.reset 0)) ∧
      (let e := adminBytes 0x40 []
       let s := holding (updLedger m0 0 fun l => { l with enabled := true }) 0 e
       AdminEntry s 0 0x0040 e [] ∧ (∀ i, 16 ≤ i → i < 64 → fieldAt e i 1 = 0) ∧ (getLedger s 0).enabled = true) ∧
      (let e := adminBytes 0x50 (flashOps 4190208 4096 lastBase)
       AdminEntry (holding m0 0 e) 0 0x0050 e [] ∧ (∀ i, 32 ≤ i → i < 64 → fieldAt e i 1 = 0) ∧ fieldAt e 16 4 + fieldAt e 20 4 = 4194304 ∧
         fieldAt e 20 4 % 4096 = 0 ∧ fieldAt e 24 8 % 4096 = 0 ∧ fieldAt e 24 8 + 4096 ≤ 0x0800_0000_0000 ∧ flashWf (holding m0 0 e)) ∧
      (let e := adminBytes 0x51 []
       AdminEntry (holding m0 0 e) 0 0x0051 e [] ∧ (∀ i, 16 ≤ i → i < 64 → fieldAt e i 1 = 0) ∧
         checkImage (holding m0 0 e) false = .fails 9 ∧ checkImage (holding m0 0 e) true = .fails 1 ∧
         AdminEntry (flashed (holding m0 0 e)) 0 0x0051 e [] ∧
         (Config.packedSize (fieldAt image 8 4) (beVal (sha384 image)) ≤ 262144 → ∃ c, checkImage (flashed (holding m0 0 e)) true = .valid c)) ∧
      (∀ x ∈ (holding m0 0 []).q.records, x.flash = none) ∧ ¬ ∀ x ∈ programming.q.records, x.flash = none :=
  ⟨⟨adminEntry (by decide +kernel), zeroBytes (by decide +kernel), by decide +kernel, by decide +kernel, by decide +kernel, by decide +kernel,
      by decide +kernel, batchOpen _ 0 (by decide) rfl⟩,
    ⟨adminEntry (by decide +kernel), zeroBytes (by decide +kernel), by decide +kernel⟩,
    ⟨adminEntry (by decide +kernel), zeroBytes (by decide +kernel), by decide +kernel, by decide +kernel, by decide +kernel, by decide +kernel,
      by decide +kernel⟩,
    ⟨adminEntry (by decide +kernel), zeroBytes (by decide +kernel), by decide +kernel, by decide +kernel, adminEntry (by decide +kernel),
      image_is_valid _ rfl rfl⟩, by decide +kernel, by decide +kernel⟩

/-- A RESUME that is due, a LEDGER_SEAL, an automatic SEAL that is due, an INBOUND and a REQUEST entry that may be written, an entry that
has not closed, and nothing to write, with one place left and with none. -/
theorem witness_LedgerEntriesExtendTheChain :
    let e : LedEntry := { kind := 2, bytes := [2, 0, 0] ++ zeros 253, req := none, needs := [], upto := 0, inbound := none
                          release := [(0, 1, 0, .east)], closed := some 0, half := .east, haul := 128, held := false }
    let g : LedEntry := { e with kind := 1, bytes := [1, 0, 0] ++ zeros 253, req := some 0, release := [], haul := 0 }
    let l : LedgerSt := { LedgerSt.reset 0 with enabled := true, chained := true, prev := zeros 32, records := 63 }
    let s := fun (l : LedgerSt) => { withReqs m0 [request [0]] with ledgers := [l] }
    (∀ x ∈ [{ l with resume := some 3 }, { l with seals := [(5, true)] }, { l with sinceSeal := 4096 },
            { l with records := 61, sinceSeal := 4095, waiting := [e, g] }, { l with waiting := [g] }],
      whenReady (s x) 0 (fun y => (getLedger y 0).waiting.isEmpty || entryDue y.time (getLedger y 0)) = s x ∧ entryDue 0 x = true) ∧
      (∀ x ∈ [{ l with waiting := [{ e with closed := none, needs := [1] }] }, l, { l with resume := some 3, records := 64 }],
      whenReady (s x) 0 (fun y => (getLedger y 0).waiting.isEmpty || entryDue y.time (getLedger y 0)) = s x) ∧
      (∀ x ∈ [{ l with resume := some 3 }, { l with seals := [(5, true)] }, { l with sinceSeal := 4096 },
              { l with records := 61, sinceSeal := 4095, waiting := [e, g] }, { l with waiting := [g] }, l],
      running (s x) = true ∧ (s x).mem.wf ∧ (s x).ledgers.find? (·.part == 0) = some x ∧ (∀ y ∈ (s x).ledgers, y.part = 0 → y = x) ∧
        x.enabled = true ∧ (x.records + 2 ^ 32 - x.head) % 2 ^ 32 < 2 ^ x.log ∧ x.chained = true ∧ x.prev.length = 32 ∧
        x.base + 2 ^ x.log * 256 ≤ 0x0800_0000_0000 ∧ (s x).rem.inbound = [] ∧ (∀ e ∈ x.waiting, e.held = false) ∧
        (List.range (closedEntries x).length).all (placeFits x) = true) ∧
      (firstClosed 0 { l with waiting := [e, g] } = some g ∧ firstClosed 23 { l with waiting := [{ g with half := .west }] } = none ∧
        firstClosed 24 { l with waiting := [{ g with half := .west }] } = some { g with half := .west } ∧ getReq (s l) 0 = some (request [0])) ∧
      ∀ x ∈ [e, g], x.bytes.length = 256 ∧ fieldAt x.bytes 0 1 = x.kind ∧ fieldAt x.bytes 2 1 < 128 := by
  refine ⟨?_, ?_, by decide +kernel, by decide +kernel, by decide +kernel⟩ <;>
    simp only [List.forall_mem_cons, List.not_mem_nil, false_implies, implies_true, and_true]
  · exact ⟨⟨whenReady_past (by decide) (.inr rfl), rfl⟩, ⟨whenReady_past (by decide) (.inr rfl), rfl⟩,
      ⟨whenReady_past (by decide) (.inr rfl), rfl⟩, ⟨whenReady_past (by decide) (.inr rfl), rfl⟩, whenReady_past (by decide) (.inr rfl), rfl⟩
  · exact ⟨whenReady_past (by decide) (.inr rfl), whenReady_past (by decide) (.inr rfl), whenReady_past (by decide) (.inr rfl)⟩

/-- A frame of package 9. -/
def frame (ty seq addr : Nat) (arg data : List Byte) : Frame :=
  { rev := 3, ty := ty, src := 9, dst := 5, tag := 1, seq := seq, addr := addr, spoil := 0, arg := arg, data := data }

def rx (f : Frame) : RxFrame := ⟨.east, 0, 0, frameBytes f⟩

def active (p : Partner) : Partner := { p with st := .active, rev := 3, credit := 16 }

/-- The machine with partner 9 Active. -/
def linked : State := withPartner active

def peer : Partner := active (Partner.start partner9)

/-- What is to be shown of a frame that partner 9 may send. -/
abbrev Acceptable (f : Frame) : Prop :=
  parseFrame (rx f).bytes = some f ∧ f.src = 9 ∧ arrivalPath partner9 (rx f) = some 0 ∧ malformed linked partner9 peer (rx f) f = false ∧
    (isWriteClass f.ty = true → seqPlace peer f.seq = .inside)

theorem received (f : Frame) (h : Acceptable f) : Received linked (rx f) f partner9 peer 0 :=
  { on := (by decide +kernel : remoteOn linked .east = true), awake := rfl, parsed := h.1, record := by rw [h.2.1]; decide +kernel
    config := by decide +kernel, partner := by decide +kernel, only := by decide +kernel, up := by decide +kernel, path := h.2.2.1
    formed := h.2.2.2.1
    fresh := fun hw => ⟨h.2.2.2.2 hw, List.not_mem_nil⟩, alone := rfl }

theorem noneQuenched (c : Nat) : ∀ y, getCtx linked c = some y → y.st ≠ .quenched := fun y hy =>
  (by decide +kernel : ∀ y ∈ linked.ctxs, y.st ≠ .quenched) y (List.mem_of_find?_eq_some hy)

theorem exported (f : Frame) (e : ExportCfg)
    (h : exportCfg linked (f.addr / 2 ^ 38) = some e ∧ exportFails linked partner9 e f = none) : Exported linked partner9 f e :=
  ⟨h.1, noneQuenched _, h.2⟩

/-- The translation is one plain piece of `n` bytes. -/
def onePlain (s : State) (x : Xlate) (n : Nat) : Bool :=
  match x with
  | .ok [q] => q.len == n && q.pkg.isNone && q.key.isNone && q.block.isNone && !unreachable s q.addr
  | _ => false

/-- A whole page read, the end of a page written, an 8 B and a 4 B atomic, a signal and a chunk. -/
theorem witness_RequestsAreCarriedOutAndAnswered :
    let rd := frame 1 0 0 (leBytes 4 4096 ++ zeros 4) []
    let wr := frame 2 1 0xFF0 (zeros 8) (zeros 16)
    let a8 := frame 3 1 0xFF8 [0, 1, 0, 0, 0, 0, 0, 0] (zeros 16)
    let a4 := frame 3 1 0xFFC [0, 0, 0, 0, 0, 0, 0, 0] (zeros 16)
    let sg := frame 5 1 (2 ^ 38) (leBytes 4 1 ++ zeros 4) []
    let rr := frame 4 1 (2 * 2 ^ 38) (leBytes 4 0 ++ leBytes 2 1 ++ [1, 1]) (zeros 16)
    let d := reduction
    (∀ f ∈ [rd, wr, a8, a4, sg, rr], Received linked (rx f) f partner9 peer 0) ∧
      (∀ f ∈ [rd, wr, a8, a4], Exported linked partner9 f (exportRow 0 (.memory 0 0x1000))) ∧
      Exported linked partner9 sg (exportRow 1 (.counter 0)) ∧ Exported linked partner9 rr (exportRow 2 (.reduction 0)) ∧
      ledgered linked 0 = false ∧
      (∀ n ∈ [(0, 4096, Right.r), (0xFF0, 16, .w), (0xFF8, 8, .a), (0xFFC, 4, .a)], onePlain linked (translate linked 0 [n]) n.2.1 = true) ∧
      (vEntry linked 0 0 = .loc 0 true true ∧ linked.rem.inStreams = [] ∧ (∀ l ∈ linked.ledgers, l.waiting = []) ∧
        linked.halfReset = ⟨false, false⟩) ∧
      redCfg linked 0 0 = some d ∧ fieldAt rr.arg 4 2 < d.members ∧ fieldAt rr.arg 6 1 = d.fmt ∧ fieldAt rr.arg 7 1 = profileOf linked 0 ∧
      fieldAt rr.arg 0 4 = (getEpoch linked 0 0).e ∧ (getEpoch linked 0 0).ending = none ∧ (getEpoch linked 0 0).bound = [] ∧
      (getEpoch linked 0 0).chunks = [] ∧
      (let y := { getEpoch linked 0 0 with isOpen := true, chunks := [(1, 0, 16)] }
       allRanks d y = false ∧ leadingRanks d y = leadingRanks d (getEpoch linked 0 0)) ∧
      inStockpile (redBuffer linked d (fieldAt rr.arg 4 2 * d.length)) = true ∧
      unreachable linked (redBuffer linked d (fieldAt rr.arg 4 2 * d.length)) = false := by
  intro rd wr a8 a4 sg rr d
  refine ⟨?_, ?_, exported sg _ (by decide +kernel), exported rr _ (by decide +kernel), by decide +kernel⟩
  · simp only [List.forall_mem_cons, List.not_mem_nil, false_implies, implies_true, and_true]
    exact ⟨received rd (by decide +kernel), received wr (by decide +kernel), received a8 (by decide +kernel), received a4 (by decide +kernel),
      received sg (by decide +kernel), received rr (by decide +kernel)⟩
  · simp only [List.forall_mem_cons, List.not_mem_nil, false_implies, implies_true, and_true]
    exact ⟨exported rd _ (by decide +kernel), exported wr _ (by decide +kernel), exported a8 _ (by decide +kernel),
      exported a4 _ (by decide +kernel)⟩

/-- A frame of an unknown package, and one of a record in each state; SEQ 1 has been applied and its response is retained. -/
theorem witness_UnheardRequestsAreDropped :
    let sg := frame 5 1 (2 ^ 38) (leBytes 4 1 ++ zeros 4) []
    let old := fun p => { active p with rxH := 1, retained := [(1, [7])] }
    remoteOn m0 .east = true ∧ m0.power.glow.get .east = false ∧ RelaysOpen m0 ∧ frameType (rx sg).bytes = 5 ∧ recordOf m0 8 = none ∧ recordOf m0 9 = some partner9 ∧
      fieldAt (rx { sg with src := 8 }).bytes 2 2 % 2 ^ 14 = 8 ∧
      (∀ st ∈ [PartnerSt.fenced, .absent, .training], (getPartner (withPartner fun p => { p with st := st }) 0).map (·.st) = some st) ∧
      (let p := old (Partner.start partner9)
       getPartner (withPartner old) 0 = some p ∧ isUp p = true ∧ parseFrame (rx sg).bytes = some sg ∧ arrivalPath partner9 (rx sg) = some 0 ∧
         malformed (withPartner old) partner9 p (rx sg) sg = false ∧ isWriteClass 5 = true ∧ seqPlace p 1 = .below ∧
         (p.retained.find? fun r => r.1 == 1) = some (1, [7])) := by
  unfold RelaysOpen
  decide +kernel

def helloOf (pkg maxrev : Nat) : Frame :=
  { frame 0xF0 0 0 (zeros 8) (leBytes 2 pkg ++ [BitVec.ofNat 8 maxrev, 6] ++ zeros 8 ++ leBytes 2 16 ++ zeros 18) with rev := 0, tag := 0 }

/-- A record in each state; HELLOs with the least MAXREV, with one too small and with another package; a link up and down. -/
theorem witness_PartnersTrainAndDrop :
    let chosen := fun (s : State) => running s = true ∧ s.fuses.grade ≠ .c ∧ s.status.maint = false ∧ s.halfReset = ⟨false, false⟩ ∧
      s.power.glow.get .east = false ∧ s.rem.inbound = [] ∧ partnerCfg s 0 = some partner9 ∧ s.cfg.partners = [partner9] ∧ s.rem.partners.length = 1
    ((∀ st ∈ [PartnerSt.absent, .training, .active], chosen (withPartner fun p => { p with st := st })) ∧
      pathIndex partner9 .east ⟨0, 0⟩ = some 0 ∧ pathIndex partner9 .east ⟨0, 1⟩ = none ∧
      { linked with rem := { linked.rem with links := [(.east, ⟨0, 0⟩)] } }.rem.links = [(.east, ⟨0, 0⟩)] ∧
      (∀ x ∈ [(9, 2), (9, 1), (8, 2)],
        let f := helloOf x.1 x.2
        parseFrame (rx f).bytes = some f ∧ frameType (rx f).bytes = 0xF0 ∧ helloRecord m0 (rx f) = some partner9 ∧
          arrivalPath partner9 (rx f) = some 0 ∧ helloForm m0 partner9 f = true ∧ fieldAt f.data 0 2 = x.1 ∧ fieldAt f.data 2 1 = x.2) ∧
      (isUp peer = true ∧ anyPathUp linked partner9 = false ∧ linked.rem.outReqs = [])) ∧
      (let s := { withPartner fun p => { p with st := .training } with time := 21000000 }
       chosen s ∧ atTime s (max 0 (0 + 21000000)) = s ∧ (getPartner s 0).map (fun p => (p.st, p.trainAt)) = some (.training, 0) ∧
         s.time ≤ 0 + 21000000 ∧ s.rem.outReqs = []) ∧
      (let s := { linked with time := 210000 }
       atTime s (max 0 (peer.downAt + 210000)) = s ∧ anyPathUp s partner9 = false ∧ s.halfReset.get .east = false) ∧
      (let s := { withPartner fun p => { p with wakeUntil := some 21001 } with time := 21000 }
       chosen s ∧ atTime s (max (max 0 s.time) (0 + 21000)) = s ∧ partner9.wake = some 20000 ∧ partner9.paths.Nodup ∧
         (getPartner s 0).map (fun p => (p.st, p.setAt, p.wakeUntil)) = some (.absent, 0, some 21001)) ∧
      (let s := { withPartner fun p => { p with wakeUntil := some 21000 } with time := 21000 }
       atTime s (max 0 21000) = s ∧ (getPartner s 0).map (·.wakeUntil) = some (some 21000)) ∧
      (let bytes := (rx (helloOf 9 2)).bytes.set 50 0x5A
       frameType bytes = 0xF0 ∧ helloRecord m0 ⟨.east, 0, 0, bytes⟩ = some partner9 ∧ parseFrame bytes = none) ∧
      (getPartner (withPartner fun p => { p with st := .fenced }) 0).map (·.st) = some .fenced := by
  refine ⟨by decide +kernel, ⟨by decide +kernel, atTime_past (by decide), by decide +kernel⟩, ⟨atTime_past (by decide), by decide +kernel⟩,
    ⟨by decide +kernel, atTime_past (by decide), by decide +kernel⟩, ⟨atTime_past (by decide), by decide +kernel⟩,
    by decide +kernel, by decide +kernel⟩

def outReq0 (p : Purpose) (ty rlen seq attempts : Nat) : OutReq :=
  { num := 0, tag := 1, purpose := p, req := some 0, word := 0, addr := 0, payload := [], spoil := 0, arg := zeros 8
    seq := if isWriteClass ty then some seq else none, ty := ty, rlen := rlen, onWire := true, wakeWait := none, attempts := attempts
    path := 0, sentAt := 0, lines := 1, segs := [], waiting := false }

def readResponse : Frame := frame 0x81 0 0 (zeros 8) (zeros 16)

def writeResponse : Frame := frame 0x82 5 0 (zeros 8) []

/-- Request 0 waits for the response of `o`. -/
def waiting (o : OutReq) : State := { withReqs linked [request [0]] with rem := { linked.rem with outReqs := [o] } }

/-- A read and a write that wait for their responses, on their first and on their last attempt. -/
theorem witness_ResponsesAndTimeoutsEndRequests :
    (∀ x ∈ [(outReq0 (.read (9 * 2 ^ 50) 16) 1 16 0 1, readResponse), (outReq0 (.read (9 * 2 ^ 50) 16) 1 16 0 4, readResponse),
            (outReq0 .write 2 0 5 1, writeResponse), (outReq0 .write 2 0 5 3, writeResponse)],
      remoteOn (waiting x.1) .east = true ∧ (waiting x.1).power.glow.get .east = false ∧ (waiting x.1).rem.inbound = [] ∧
        ledgered (waiting x.1) 0 = false ∧ parseFrame (rx x.2).bytes = some x.2 ∧
        recordOf (waiting x.1) (x.2.src % 2 ^ 14) = some partner9 ∧ (waiting x.1).rem.partners = [peer] ∧
        responseForm (waiting x.1) partner9 peer (rx x.2) x.2 = true ∧ (waiting x.1).run.reqs = [request [0]] ∧
          answersReq x.1.ty x.1.rlen (x.1.seq.getD 0) x.2 = true ∧ x.1.req = some 0 ∧
        OneRequestPerId (waiting x.1) ∧ (request [0]).fin = none ∧ (request [0]).effects = [] ∧
          (∀ o ∈ (waiting x.1).rem.outReqs, o.waiting = false) ∧
        fieldAt x.2.arg 0 2 = 0 ∧ 0 < x.1.attempts ∧ outReq (waiting x.1) 0 1 = some x.1) ∧
      (let s := fun o => { waiting o with time := 8400 }
       ∀ o ∈ [outReq0 (.read (9 * 2 ^ 50) 16) 1 16 0 3, outReq0 .write 2 0 5 3, outReq0 (.read (9 * 2 ^ 50) 16) 1 16 0 4],
         atTime (s o) (max 0 (o.sentAt + mcOf partner9.timeout)) = s o ∧ running (s o) = true ∧ outReq (s o) 0 1 = some o ∧
           (o.seq ≠ none ∨ isWriteClass o.ty = false) ∧ o.onWire = true) ∧
      (linked.halfReset = ⟨false, false⟩ ∧ peer.recent = [] ∧ peer.violTimes = []) ∧
      (let d : DoneReq := { tag := 1, ended := 0, ty := 2, rlen := 0, seq := 5 }
       (2099999 < d.ended + 2100000 ∧ answersReq d.ty d.rlen d.seq writeResponse = true) ∧
         answersReq d.ty d.rlen d.seq readResponse = false ∧ writeResponse.tag = d.tag) := by
  refine ⟨by unfold OneRequestPerId; decide +kernel, ?_, by decide +kernel, by decide +kernel⟩
  simp only [List.forall_mem_cons, List.not_mem_nil, false_implies, implies_true, and_true]
  exact ⟨⟨atTime_past (by decide), by decide +kernel⟩, ⟨atTime_past (by decide), by decide +kernel⟩, atTime_past (by decide),
    by decide +kernel⟩

/-- An epoch whose sum is written, and one that is open with the first rank's chunk missing. -/
theorem witness_EpochsCloseOnce :
    let s := fun (f : EpochSt → EpochSt) => { m0 with time := 21000, rem := { m0.rem with epochs := [f (getEpoch m0 0 0)] } }
    (∀ u ∈ [s fun x => { x with summed := true }, s fun x => { x with isOpen := true }],
      running u = true ∧ redCfg u 0 0 = some reduction ∧ vEntry u 0 0 = .loc 0 true true ∧ u.halfReset = ⟨false, false⟩ ∧
        (getEpoch u 0 0).ctx = 0 ∧ (getEpoch u 0 0).red = 0 ∧ destOutstanding u (getEpoch u 0 0) = false ∧ (getEpoch u 0 0).failed = false) ∧
      (let u := s fun x => { x with summed := true }
       (getEpoch u 0 0).summed = true ∧ whenReady u 0 (fun x => !otherOpen x (.epoch 0 0)) = u) ∧
      (let u := s fun x => { x with isOpen := true }
       atTime u (max 0 ((getEpoch u 0 0).opened + mcOf reduction.timeout)) = u ∧ (getEpoch u 0 0).ending = none ∧
         allRanks reduction (getEpoch u 0 0) = false ∧ (getEpoch u 0 0).isOpen = true ∧ (getEpoch u 0 0).summed = false ∧
           BatchOpen u 0 (FaultQ.reset 0) ∧
         onePlain u (translate u 0 [(reduction.dest, reduction.length, .w)]) 256 = true) :=
  ⟨by decide +kernel, ⟨by decide +kernel, whenReady_past (by decide) (.inr rfl)⟩, atTime_past (by decide), by decide +kernel, by decide +kernel,
    by decide +kernel, by decide +kernel, batchOpen _ 0 (by decide) rfl, by decide +kernel⟩

/-! ## Witnesses: haul instructions -/

/-- A program word: opcode and the fields below it. -/
def word (op fields : Nat) : Word := BitVec.ofNat 64 (op * 2 ^ 58 + fields)

/-- Hauler 0 of the East half stands at the instruction `i` of `r`, and its lines have been issued: the machine at which it runs it is `s`
itself. -/
structure Stands (s : State) (r : Request) (i : HInstr) : Prop where
  runs : RunsInstr s hauler0 r i
  now  : atInstr s 0 hauler0 (isRow i) = s

/-- What is to be shown of it. -/
abbrev AtWord (s : State) (r : Request) (i : HInstr) : Prop :=
  halfRuns s .east = true ∧ reqOn s hauler0 = some r ∧ r.fin = none ∧ recordWaits s r = false ∧ entryHeld s r = false ∧
    instrAt r.program r.pc = some i ∧ linesIssued hauler0 s = true

theorem stands {s : State} {r : Request} {i : HInstr} (h : AtWord s r i) : Stands s r i :=
  ⟨⟨h.1, h.2.1, h.2.2.1, h.2.2.2.1, .inr h.2.2.2.2.1, h.2.2.2.2.2.1⟩, atInstr_past _ (Nat.zero_le _) (.inl h.2.2.2.2.2.2)⟩

/-- The machine in which hauler 0 alone runs `r`. -/
def alone (r : Request) : State := withReqs m0 [r]

def ledReq : Request := { request [word 0x16 (1 * 2 ^ 56)] with ctx := 1, led := { (request []).led with marks := [1, 2, 3] } }

/-- The words that move no data, each at the front of a program. -/
def plainPrograms : List (List Word × HInstr) :=
  [ ([word 0 0], .nop), ([word 6 (2 ^ 40 - 1)], .step 0 (-1)), ([word 7 (2 ^ 52)], .xform 1 0 0), ([word 8 0], .quant 0 0 0 0 0)
  , ([word 9 0], .sums 0 false false), ([word 2 (255 * 2 ^ 24), 0, word 0 (2 ^ 40 - 2)], .shape 0 false 0 256 1 0 (-2))
  , ([word 0x18 (3 * 2 ^ 52), 77], .setp 0 3 0 0 77), ([word 5 (1 * 2 ^ 42), 0], .loop 0 1 false 0 1)
  , ([word 0x16 (1 * 2 ^ 56)], .mark 0), ([word 1 0], .halt) ]

/-- Requests at these words, and at a ledgered MARK with three marks before it. -/
def plainWords : List (State × Request × HInstr) :=
  (alone ledReq, ledReq, .mark 0) :: plainPrograms.map fun x => (alone (request x.1), request x.1, x.2)

/-- The second and the last pass through a loop body of one word. -/
def looping (n : Nat) : Request :=
  { request [word 5 0, word 0 0] with pc := 1, loops := [{ ctr := 0, start := 1, body := 1, count := n, index := 0, bases := [] }] }

theorem witness_PlainWordsAdvanceTheirRequest :
    (∀ x ∈ plainWords, Stands x.1 x.2.1 x.2.2) ∧
      (ledgered (alone (request [])) 0 = false ∧ ledgered (alone ledReq) ledReq.ctx = true ∧ ledReq.led.marks.length < 4 ∧
        ledReq.wait ≠ some .ledger) ∧
      (let r := request [word 1 0]
       r.writes = [] ∧ r.effects = [] ∧ lineOpen (alone r) r (·.write) = false ∧ (∀ x ∈ (alone r).q.records, x.req ≠ some r.id) ∧
         OneRequestPerId (alone r) ∧ cqFull (alone r) (cqOf (alone r) r.qid) = false ∧
         ∀ x ∈ (getLedger (alone r) (partOfCtx (alone r) r.ctx)).waiting, x.req ≠ some r.id) ∧
      (∀ n ∈ [1, 2], Stands (alone (looping n)) (looping n) .nop ∧ (looping n).pc + 1 = 1 + 1) := by
  refine ⟨fun x hx => stands ((by decide +kernel : ∀ x ∈ plainWords, AtWord x.1 x.2.1 x.2.2) x hx), by decide +kernel,
    by unfold OneRequestPerId; decide +kernel, ?_⟩
  simp only [List.forall_mem_cons, List.not_mem_nil, false_implies, implies_true, and_true]
  exact ⟨⟨stands (by decide +kernel), rfl⟩, ⟨stands (by decide +kernel), rfl⟩⟩

/-- A request with binding 0 of counter 0. -/
def bound (w : Word) : Request := { request [w] with binds := [⟨0, 0, 0, true⟩] }

def abandoned : State := updCtr (alone (bound (word 0x0E 0))) 0 fun c => { c with abandoned := true }

def splitReq : Request := { request [word 0x16 0] with ctx := 1 }

/-- A request at the WAIT that it waited at, and what its counter left. -/
def waited (latched : Option Bool) : Request :=
  { bound (word 0x0E 0) with wait := some (.counter 0 0 0 0), latched := latched }

def fencing (writes : List Nat) : Request := { request [word 0x10 0] with writes := writes }

def reporting : Request := request [word 0x17 (2 ^ 57 + 5)]

/-- A machine whose completion queue 16 is full. -/
def fullCq (r : Request) : State :=
  updCq (alone r) 16 fun x => { x with st := .enabled, count := 16 }

/-- A request at a SPLIT, with one free place in its ledger queue and with none. -/
def splitting (records : Nat) : State := updLedger (alone splitReq) 1 fun l => { l with enabled := true, records := records }

def orderWords : List (State × Request × HInstr) :=
  [(alone (bound (word 0x0E 0)), bound (word 0x0E 0), HInstr.wait 0 false 0 0),
   (alone (bound (word 0x0E 1)), bound (word 0x0E 1), .wait 0 false 0 1), (abandoned, bound (word 0x0E 0), .wait 0 false 0 0),
   (alone (waited none), waited none, .wait 0 false 0 0), (alone (waited (some true)), waited (some true), .wait 0 false 0 0),
   (alone (waited (some false)), waited (some false), .wait 0 false 0 0),
   (alone (bound (word 0x0F 1)), bound (word 0x0F 1), .signal 0 1), (alone (fencing []), fencing [], .fence false),
   (alone (fencing [1]), fencing [1], .fence false), (alone reporting, reporting, .report true 5),
   (fullCq reporting, reporting, .report true 5), (alone splitReq, splitReq, .split), (splitting 63, splitReq, .split),
   (splitting 64, splitReq, .split)]

/-- WAIT that is met, that waits, whose counter's owner was reset, and that has waited; SIGNAL; FENCE with and without writes; REPORT with
and without room; SPLIT outside and inside the ledger, with and without room. -/
theorem witness_OrderWordsWaitOrGoOn :
    (∀ x ∈ orderWords, Stands x.1 x.2.1 x.2.2) ∧
      (∀ x ∈ orderWords, (x.1.run.reqs.map (·.id)).Nodup) ∧
      (vEntry m0 0 0 = .loc 0 true true ∧ evalWait (alone (bound 0)) 0 .east 0 0 = .met ∧ evalWait (alone (bound 0)) 0 .east 1 0 = .notMet ∧
        evalWait abandoned 0 .east 0 0 = .ownerReset ∧ (bound 0).writes = [] ∧ (bound 0).effects = [] ∧ (bound 0).wait = none ∧
        lineOpen (alone (bound 0)) (bound 0) (·.write) = false ∧ m0.halfReset = ⟨false, false⟩) ∧
      (∀ ws ∈ [[], [1]],
        let s := alone (fencing ws)
        whenReady s s.time (fun x => !fenceOpen false 0 x) = s ∧ getReq s 0 = some (fencing ws) ∧ fenceOpen false 0 s = false) ∧
      (∀ s ∈ [alone reporting, fullCq reporting], reporting.effects = [] ∧ ∀ x ∈ s.q.records, x.rep ≠ some reporting.id) ∧
      (cqFull (alone reporting) (cqOf (alone reporting) 16) = false ∧ cqFull (fullCq reporting) (cqOf (fullCq reporting) 16) = true) ∧
      (∀ n ∈ [63, 64], ledgered (splitting n) 1 = true ∧ (getLedger (splitting n) 1).enabled = true ∧ splitReq.wait = none ∧
        ((splitting n).ledgers.find? (·.part == partOfCtx (splitting n) splitReq.ctx)).map
          (fun l => decide ((l.records + 2 ^ 32 - l.head) % 2 ^ 32 + (l.waiting.length + 1) ≤ 2 ^ l.log)) = some (n == 63)) ∧
      ledgered m0 0 = false := by
  refine ⟨fun x hx => stands ((by decide +kernel : ∀ x ∈ orderWords, AtWord x.1 x.2.1 x.2.2) x hx), by decide +kernel, by decide +kernel, ?_,
    by decide +kernel, by decide +kernel, by decide +kernel, by decide +kernel⟩
  simp only [List.forall_mem_cons, List.not_mem_nil, false_implies, implies_true, and_true]
  exact ⟨⟨whenReady_past (Nat.le_refl _) (.inl (by decide +kernel)), by decide +kernel⟩,
    whenReady_past (Nat.le_refl _) (.inl (by decide +kernel)), by decide +kernel⟩

def ringReq (prog : List Word) : Request := { request prog with held := [(1, 0)] }

/-- The machine with ring `g` of context 0 and handle queue 0 as given. -/
def withBuffers (rs : List Request) (g : Nat) (f : RingSt → RingSt) (k : HandleSt → HandleSt) : State :=
  updHandle (updRing (withReqs m0 rs) 0 g f) 0 0 k

def oneRing (s : State) (g : Nat) : Bool := s.buf.rings.all fun y => y.ctx != 0 || y.ring != g || some y == getRing s 0 g

def full3 (x : HandleSt) : HandleSt := { x with entries := (List.range 3).map fun i => ⟨i, 0, some 5⟩, nextId := 3 }

theorem witness_BuffersPassBetweenStages :
    (let r := request [word 0x0C (2 ^ 56)]
     let s := withBuffers [r] 1 id full3
     Stands s r (.putHandle 0 0) ∧ (getHandle s 0 0).map (·.entries.length) = some 3 ∧ (handleCfg s 0 0).map (·.depth) = some 4 ∧
       aheadOf s r (.handlePut 0) = 0 ∧ r.effects = []) ∧
      (let r := request [word 0x0D (2 * 2 ^ 56)]
       let s := withBuffers [r] 1 id full3
       Stands s r (.takeHandle 0 0) ∧ (getHandle s 0 0).map (fun x => (x.entries.head?).bind (·.val)) = some (some 5) ∧
         aheadOf s r (.handleTake 0) = 0) ∧
      (let r := request [word 0x0D (2 ^ 44)]
       let s := withBuffers [r] 1 (fun x => { x with claimed := 1, published := 1 }) id
       Stands s r (.acquire 1 0) ∧ (getRing s 0 1).map (fun x => (x.acquired, x.published)) = some (0, 1) ∧
         (ringCfg s 0 1).isSome = true ∧ aheadOf s r (.ringAcquire 1) = 0) ∧
      (∀ n ∈ [0, 1],
        let r := { request [word 0x0D (2 ^ 56 + 2 ^ 44)] with held := [(1, n)] }
        let s := withBuffers [r] 1 (fun x => { x with claimed := 2, published := 2, acquired := 2 }) id
        Stands s r (.release 1) ∧ r.held.find? (fun y => y.1 == 1) = some (1, n) ∧ oneRing s 1 = true ∧
          (getRing s 0 1).map (fun x => (x.released, x.early)) = some (0, [])) ∧
      (let q := { request [] with effects := [.ringPublish 0 0 [] 0] }
       let s := withBuffers [q] 0 (fun x => { x with claimed := 1 }) id
       whenReady s 0 (fun x => (publisher x 0 0 false).isSome || (publisher x 0 0 true).isNone) = s ∧ publisher s 0 0 false = some q ∧
         q.fin = none ∧ OneRequestPerId s) ∧
      (let q := { request [] with effects := [.handlePublish 0 3 9 [] 0] }
       let s := withBuffers [q] 0 id fun x => { full3 x with entries := (full3 x).entries ++ [⟨3, 0, none⟩] }
       whenReady s 0 (fun x => (handleFiller x 0 0 false).isSome || (handleFiller x 0 0 true).isNone) = s ∧
         handleFiller s 0 0 false = some (⟨3, 0, none⟩, q, 9) ∧ (handleCfg s 0 0).map (fun c => (c.ctx, c.depth)) = some (0, 4) ∧ q.fin = none ∧
         OneRequestPerId s ∧ unreachable s (stagingLocal s 0 0xF_0000 + 3 % 4 * 8) = false) ∧
      (let q := fun n => { request [] with
         id := n, waitAt := 1 - n, waitHaul := 1, waitSeq := n, hauler := none, wait := some (.counter 0 0 0 0), parkedIn := some n }
       let s := withReqs m0 [q 0, q 1]
       mayStart s .east = true ∧ haulerFree s hauler0 = true ∧ q 1 ∈ s.run.reqs ∧
         ∀ x ∈ s.run.reqs, waitOver s x = true ∧ x.half = .east ∧ x.fin = none ∧ (x = q 1 ∨ waitKey (q 1) < waitKey x)) ∧
      (let q := fun n => { request [] with id := n, waitHaul := 1 - n, waitSeq := n, hauler := some (1 - n), wait := some .tongs }
       let s := withReqs m0 [q 0, q 1]
       let tests := (List.range tongsUnits).map fun i => ((⟨.east, .tongs, i⟩ : Slice), 2048)
       (∀ u ∈ [s, { s with integ := { s.integ with testing := tests } }],
         let v := endUnitTest u .east
         whenReady v 0 (fun x => (tongsWaiters x .east).isEmpty || (freeSlot x .east).isSome) = v ∧ (freeSlot v .east).isSome = true ∧
           v.run = s.run) ∧
         q 1 ∈ s.run.reqs ∧ ∀ x ∈ s.run.reqs, x.tongs = none ∧ (x = q 1 ∨ waitKey (q 1) < waitKey x)) := by
  refine ⟨⟨stands (by decide +kernel), by decide +kernel⟩, ⟨stands (by decide +kernel), by decide +kernel⟩,
    ⟨stands (by decide +kernel), by decide +kernel⟩, ?_,
    ⟨whenReady_past (Nat.zero_le _) (.inl (by decide +kernel)), by unfold OneRequestPerId; decide +kernel⟩,
    ⟨whenReady_past (Nat.zero_le _) (.inl (by decide +kernel)), by unfold OneRequestPerId; decide +kernel⟩, by decide +kernel, ?_,
    by decide +kernel⟩
  rotate_left
  · simp only [List.forall_mem_cons, List.not_mem_nil, false_implies, implies_true, and_true]
    exact ⟨⟨whenReady_past (Nat.zero_le _) (.inl (by decide +kernel)), by decide +kernel⟩,
      whenReady_past (Nat.zero_le _) (.inl (by decide +kernel)), by decide +kernel⟩
  simp only [List.forall_mem_cons, List.not_mem_nil, false_implies, implies_true, and_true]
  exact ⟨⟨stands (by decide +kernel), by decide +kernel⟩, ⟨stands (by decide +kernel), by decide +kernel⟩⟩

/-- The piece of `n` bytes at local address `a` in the device segment of slot 0. -/
def piece (a n : Nat) : Piece := { addr := a, len := n, pkg := none, slot := 0, epoch := false, block := none, key := none, led := false }

/-- What is to be shown of a plain range. -/
abbrev AtRange (s : State) (ctx va n : Nat) (right : Right) (q : Piece) : Prop :=
  0 < n ∧ (segOf s ctx va n).map (fun g => (g.cfg.kind, hasRight g.cfg right, g.cfg.enc, pkgOf g.cfg.backing, g.holds.length + g.drains.length,
      backingPiece s g va n)) = some (.device, true, false, s.cfg.pkg, 0, q) ∧
    (windowOf s.fuses.grade q.addr).isSome = true ∧ windowOf s.fuses.grade q.addr = windowOf s.fuses.grade (q.addr + n - 1) ∧
    unreachable s q.addr = false ∧ s.power.glow = ⟨false, false⟩

theorem plainRange {s : State} {ctx va n : Nat} {right : Right} {q : Piece} (h : AtRange s ctx va n right q) :
    PlainRange s ctx va n right q := by
  obtain ⟨size, seg, known, same, near, awake⟩ := h
  obtain ⟨g, hg, hv⟩ := Option.map_eq_some_iff.mp seg
  obtain ⟨w, hw⟩ := Option.isSome_iff_exists.mp known
  simp only [Prod.mk.injEq] at hv
  obtain ⟨kind, held, enc, own, quiet, rfl⟩ := hv
  exact ⟨size, ⟨g, hg, kind, held, enc, own, List.length_eq_zero_iff.mp (by omega), List.length_eq_zero_iff.mp (by omega), rfl⟩,
    ⟨w, hw, same ▸ hw⟩, near, fun h _ => by rw [awake]; cases h <;> rfl⟩

/-- A request without lines has no write open. -/
theorem noLines {s : State} {r : Request} (p : Piece) (h : r.lines = { buffers := [], stream := [], next := 0 } ∧
    flightsOf s (.request r.id) = []) : ownLineOver s r p = false := by
  simp [ownLineOver, h.1, h.2]

/-- A request without host writes has none over a piece. -/
theorem noHost {s : State} {r : Request} (p : Piece) (h : r.hostWrites = ⟨[], []⟩) : ownHostOver s r p = false := by
  unfold ownHostOver
  cases hostPort s p with
  | none => rfl
  | some x => cases x <;> simp [h, Both.get]

/-- The request with its pass begun, and with the first Tongs slot granted. -/
def granted (r : Request) : Request := { begun r with tongs := some (0, 0) }

theorem isGranted (r : Request) : Granted (granted r) (0, 0) := ⟨rfl, rfl⟩

/-- A shape set of one line. -/
def line (base len : Nat) : ShapeSet := ⟨base, len, 0, 1, true, false⟩

theorem oneLine (b n : Nat) : OneLine (line b n) n := ⟨rfl, rfl, rfl⟩

/-- A request at a pass, with lines of `a` to `d` bytes at 0x1000, 0x2000, 0x3000 and 0x4000. -/
def passing (w : Word) (a b c d : Nat) : Request :=
  { request [w] with shapes := [line 0x1000 a, line 0x2000 b, line 0x3000 c, line 0x4000 d] ++ List.replicate 4 (line 0 0) }

theorem passReady (w : Word) (a b c d : Nat) : PassReady (alone (passing w a b c d)) (passing w a b c d) := ⟨rfl, rfl, rfl, rfl, rfl, rfl⟩

theorem passReadyG (w : Word) (a b c d : Nat) : PassReady (alone (granted (passing w a b c d))) (granted (passing w a b c d)) :=
  ⟨rfl, rfl, rfl, rfl, rfl, rfl⟩

theorem lineRange (w : Word) (a b c d va n : Nat) (right : Right) (h : AtRange m0 0 va n right (piece va n)) :
    PlainRange (alone (passing w a b c d)) 0 va n right (piece va n) := plainRange (s := alone (passing w a b c d)) h

theorem readRange (w : Word) (a b c d va n : Nat) (h : AtRange m0 0 va n .r (piece va n)) :
    ReadRange (alone (passing w a b c d)) (passing w a b c d) va n (piece va n) :=
  ⟨lineRange w a b c d va n .r h, noLines _ ⟨rfl, rfl⟩, noHost _ rfl⟩

theorem lineRangeG (w : Word) (a b c d va n : Nat) (right : Right) (h : AtRange m0 0 va n right (piece va n)) :
    PlainRange (alone (granted (passing w a b c d))) 0 va n right (piece va n) := plainRange (s := alone (granted (passing w a b c d))) h

theorem readRangeG (w : Word) (a b c d va n : Nat) (h : AtRange m0 0 va n .r (piece va n)) :
    ReadRange (alone (granted (passing w a b c d))) (granted (passing w a b c d)) va n (piece va n) :=
  ⟨lineRangeG w a b c d va n .r h, noLines _ ⟨rfl, rfl⟩, noHost _ rfl⟩

def moveW (f g : Nat) : Word := word 3 (0 * 2 ^ 55 + 1 * 2 ^ 52 + f * 2 ^ 47 + g * 2 ^ 42)

def paceW : Word := word 0x11 (0 * 2 ^ 47 + 1 * 2 ^ 44)

def fillW : Word := word 0x0C 0

def gatherW : Word := word 4 (0 * 2 ^ 55 + 1 * 2 ^ 52 + 2 * 2 ^ 49)

def codeW : Word := word 0x0A (0 * 2 ^ 55 + 1 * 2 ^ 52 + 2 * 2 ^ 49 + 3 * 2 ^ 46 + 2 * 2 ^ 41)

def expandW : Word := word 0x0B (0 * 2 ^ 55 + 1 * 2 ^ 52 + 2 * 2 ^ 49 + 3 * 2 ^ 46 + 2 * 2 ^ 41)

/-- A GATHER from a table of two rows. -/
def gatherReq : Request :=
  { passing gatherW 256 256 2 0 with
    shapes := [{ line 0x1000 256 with count := 2, stride := 256 }, line 0x2000 256, line 0x3000 2] ++ List.replicate 5 (line 0 0) }

/-- The machine at a GATHER whose index entry stands at 0x3000 with these bytes. -/
def gathering (bs : List SByte) : State :=
  { alone gatherReq with mem := memWrite m0.mem 0x3000 bs }

/-- An EXPAND of one block of 256 bytes that has its Tongs slot. -/
def expandReq : Request := granted (passing expandW 256 256 72 256)

/-- The machine at it, with a coded block at 0x1000, its index at 0x3000 and its code table at 0x4000. -/
def expanding (cells : List Host.Cell) : State := { alone expandReq with mem := { m0.mem with cells := cells } }

/-- A block of 128 BF16 zeros (R192): 128 sign-mantissa bytes, then 128 codes of one bit; its index, with `b` in byte 5 of the entry; and
its code table. -/
def codedCells (b : Byte) : List Host.Cell :=
  let at' := fun (a : Nat) (bs : List (Nat × Byte)) => bs.map fun p => (a + p.1, p.2)
  at' 0x1000 [(0, 0xB1), (2, 128), (4, 128), (6, 10)] ++
    at' 0x3000 [(0, 0x46), (1, 0x56), (2, 0x58), (3, 0x49), (4, 2), (8, 1), (16, 128), (24, 160), (60, 0x14), (61, 0x2F), (62, 0x47),
                (63, 0x9B), (68, 10)] ++
    (if b = 0 then [] else at' 0x3000 [(69, b)]) ++ at' 0x3000 [(70, 128)] ++
    at' 0x4000 [(0, 0x46), (1, 0x56), (2, 0x58), (3, 0x54), (4, 2), (5, 16), (6, 1), (8, 1), (10, 8), (12, 1), (16, 128), (32, 1),
                (252, 0x84), (253, 0x8E), (254, 0xD0), (255, 0xB2)]

def plan0 : ExpandPlan := { fmt := 2, x := line 0x1000 256, z := line 0x3000 72, w := line 0x4000 256, fb := 0, total := 256 }

theorem plainMem {r : Request} {m : Mem} {ctx va n : Nat} {right : Right} {q : Piece} (h : PlainRange (alone r) ctx va n right q) :
    PlainRange { alone r with mem := m } ctx va n right q := ⟨h.size, h.seg, h.mapped, h.near, h.awake⟩

theorem standsMem {r : Request} {m : Mem} {i : HInstr} (h : AtWord (alone r) r i) : Stands { alone r with mem := m } r i :=
  ⟨⟨h.1, h.2.1, h.2.2.1, h.2.2.2.1, .inr h.2.2.2.2.1, h.2.2.2.2.2.1⟩, atInstr_past _ (Nat.zero_le _) (.inl h.2.2.2.2.2.2)⟩

/-- The line ranges that an EXPAND reads and writes. -/
theorem expandRanges (d : List Host.Cell) :
    (∀ x ∈ [(0x4000, 256), (0x3000, 64), (0x3000 + (64 + 8 * 0), 8), (0x1000 + 0, 160)],
      ReadRange (expanding d) expandReq x.1 x.2 (piece x.1 x.2)) ∧
    PlainRange (expanding d) 0 0x2000 256 .w (piece 0x2000 256) := by
  refine ⟨?_, plainMem (plainRange (by decide +kernel))⟩
  simp only [List.forall_mem_cons, List.not_mem_nil, false_implies, implies_true, and_true]
  refine ⟨?_, ?_, ?_, ?_⟩ <;> exact ⟨plainMem (plainRange (by decide +kernel)), noLines _ ⟨rfl, rfl⟩, noHost _ rfl⟩

theorem expandFresh (d : List Host.Cell) : Stands (expanding d) expandReq (.expand 0 1 2 3 2 0) ∧
    PassReady (expanding d) expandReq ∧ Granted expandReq (0, 0) :=
  ⟨standsMem (by decide +kernel), ⟨rfl, rfl, rfl, rfl, rfl, rfl⟩, isGranted _⟩

/-- The code table of `codedCells` without its CRC: 60 bytes, then zeros. -/
def tabHead : List Byte := [0x46, 0x56, 0x58, 0x54, 2, 16, 1, 0, 1, 0, 8, 0, 1, 0, 0, 0, 128] ++ zeros 15 ++ [1] ++ zeros 27

/-- Its CRC-32C, in steps that the kernel takes one by one. -/
theorem crc_of_table : crc32c (tabHead ++ (List.replicate 8 (zeros 24)).flatten) = 0xB2D08E84#32 := by
  have h : [(0x77EB0CD9#32, 0xDB2385FD#32), (0xDB2385FD#32, 0x80BF0DB1#32), (0x80BF0DB1#32, 0x1B5302ED#32),
      (0x1B5302ED#32, 0x80E54695#32), (0x80E54695#32, 0x1CB26B9E#32), (0x1CB26B9E#32, 0x8C370409#32), (0x8C370409#32, 0x8C8E5633#32),
      (0x8C8E5633#32, 0x4D2F717B#32)].all (fun x =>
      (zeros 24).foldl (fun c b => crcBits 8 (c ^^^ b.setWidth 32)) x.1 == x.2) = true := by decide +kernel
  have h0 : tabHead.foldl (fun c b => crcBits 8 (c ^^^ b.setWidth 32)) 0xFFFFFFFF#32 = 0x77EB0CD9#32 := by decide +kernel
  simp only [List.all_cons, List.all_nil, Bool.and_eq_true, beq_iff_eq] at h
  simp only [crc32c, List.replicate_succ, List.replicate_zero, List.flatten_cons, List.flatten_nil, List.append_nil, List.foldl_append, h0, h]
  rfl

theorem tables_of {T H : List SByte} {tb : CodeTab} (h1 : readCodeTable 2 ⟨7, 8, 2, 2048⟩ (T.map Prod.fst) = some tb)
    (h2 : indexHeaderOk 2 tb (H.map Prod.fst) = true) : tablesOf plan0 T H = some tb := by
  show expandTables 2 ⟨7, 8, 2, 2048⟩ (T.map Prod.fst) (H.map Prod.fst) = some tb
  unfold expandTables
  rw [h1]
  show (if indexHeaderOk 2 tb (H.map Prod.fst) = true then some tb else none) = some tb
  rw [if_pos h2]

theorem tables_read (b : Byte) (h : b ∈ [(0 : Byte), 2]) : tablesOf plan0 (memReadS (expanding (codedCells b)).mem 0x4000 256)
    (memReadS (expanding (codedCells b)).mem 0x3000 64) = some ⟨[(0, 1, 0)], 1, 128, 16, 8⟩ := by
  have h1 : ∀ b ∈ [(0 : Byte), 2], (memReadS (expanding (codedCells b)).mem 0x4000 256).map Prod.fst =
      tabHead ++ (List.replicate 8 (zeros 24)).flatten ++ [0x84, 0x8E, 0xD0, 0xB2] := by decide +kernel
  have h2 : (tabHead ++ (List.replicate 8 (zeros 24)).flatten ++ [0x84, 0x8E, 0xD0, 0xB2]).take 252 =
      tabHead ++ (List.replicate 8 (zeros 24)).flatten := by decide +kernel
  have h3 : readCodeTable 2 ⟨7, 8, 2, 2048⟩ (tabHead ++ (List.replicate 8 (zeros 24)).flatten ++ [0x84, 0x8E, 0xD0, 0xB2]) =
      some ⟨[(0, 1, 0)], 1, 128, 16, 8⟩ := by
    unfold readCodeTable
    rw [h2, crc_of_table]
    decide +kernel
  have h4 : ∀ b ∈ [(0 : Byte), 2], indexHeaderOk 2 ⟨[(0, 1, 0)], 1, 128, 16, 8⟩
      ((memReadS (expanding (codedCells b)).mem 0x3000 64).map Prod.fst) = true := by decide +kernel
  exact tables_of ((h1 b h).symm ▸ h3) (h4 b h)

/-- No byte of a list is spoiled. -/
theorem allGood {l : List SByte} (h : (l.all fun b => !b.2) = true) : ∀ b ∈ l, b.2 = false := fun b hb => by
  simpa using List.all_eq_true.mp h b hb

theorem someSpoiled {l : List SByte} (h : (l.all fun b => !b.2) = false) : ¬ ∀ b ∈ l, b.2 = false := fun hg => by
  have : (l.all fun b => !b.2) = true := List.all_eq_true.mpr fun b hb => by simp [hg b hb]
  simp [this] at h

/-- A copy and a conversion, which waits for a slot and has one; a burst; a fill. -/
theorem witness_PassesWriteTheirStreams :
    (let r := passing (moveW 2 2) 512 512 0 0
     Stands (alone r) r (.move 0 1 2 2 false 0 0) ∧ PassReady (alone r) r ∧ r.pass = PassState.start ∧ OneLine (shapeOf r 0) 512 ∧ OneLine (shapeOf r 1) 512 ∧
       ReadRange (alone r) r 0x1000 512 (piece 0x1000 512) ∧ PlainRange (alone r) 0 0x2000 512 .w (piece 0x2000 512)) ∧
      (let r := passing (moveW 2 1) 512 1024 0 0
       Stands (alone r) r (.move 0 1 2 1 false 0 0) ∧ PassReady (alone r) r ∧ r.pass = PassState.start ∧ OneLine (shapeOf r 0) 512 ∧
         OneLine (shapeOf r 1) 1024 ∧ ReadRange (alone r) r 0x1000 512 (piece 0x1000 512) ∧
         PlainRange (alone r) 0 0x2000 1024 .w (piece 0x2000 1024)) ∧
      (let r := granted (passing (moveW 2 1) 512 1024 0 0)
       let c := chainOf (alone r) r (modsOf []) 2 1 (srOf r false 0) (shapeOf r 0) 1 1024
       Stands (alone r) r (.move 0 1 2 1 false 0 0) ∧ PassReady (alone r) r ∧ OneLine (shapeOf r 0) 512 ∧
         OneLine (shapeOf r 1) 1024 ∧ ReadRange (alone r) r 0x1000 512 (piece 0x1000 512) ∧
         PlainRange (alone r) 0 0x2000 1024 .w (piece 0x2000 1024) ∧
         Granted r (0, 0) ∧ rowsFor c 0 1024 = [0] ∧ rowBad c (memReadS (alone r).mem 0x1000 512) = false) ∧
      (let r := passing paceW 256 256 0 0
       let s := updPacing (alone r) 0 fun y => { y with pending := 1 }
       Stands s r (.pace 0 0 1 0 0 false 0 0) ∧ PassReady s r ∧ r.pass = PassState.start ∧ OneLine (shapeOf r 0) 256 ∧ OneLine (shapeOf r 1) 256 ∧
         ReadRange s r 0x1000 256 (piece 0x1000 256) ∧ PlainRange s 0 0x2000 256 .w (piece 0x2000 256) ∧
         (getPacing s 0).map (pacePending s) = some 1 ∧ aheadOf s r (.pace 0) = 0) ∧
      (let r := passing fillW 256 0 0 0
       let s := alone r
       let c := ring 0 false false none
       Stands s r (.fill 0 0 0 0 false 0) ∧ PassReady s r ∧ r.pass = PassState.start ∧ OneLine (shapeOf r 0) 256 ∧ 256 ≤ ringBytes c ∧
         ringCfg s 0 0 = some c ∧ c.coded = none ∧ (getRing s 0 0).map (fun x => (mayClaim s c x, x.claimed)) = some (true, 0) ∧
         aheadOf s r (.ringClaim 0) = 0 ∧ r.filling = none ∧ ReadRange s r 0x1000 256 (piece 0x1000 256) ∧
         PlainRange s 0 (stagingVa s 0 (slotOffset c 0)) (ringBytes c) .w { piece 0x4000_0001_0000 (ringBytes c) with slot := 15 }) := by
  exact ⟨⟨stands (by decide +kernel), passReady .., rfl, oneLine .., oneLine .., readRange _ _ _ _ _ _ _ (by decide +kernel),
      lineRange _ _ _ _ _ _ _ _ (by decide +kernel)⟩,
    ⟨stands (by decide +kernel), passReady .., rfl, oneLine .., oneLine .., readRange _ _ _ _ _ _ _ (by decide +kernel),
      lineRange _ _ _ _ _ _ _ _ (by decide +kernel)⟩,
    ⟨stands (by decide +kernel), passReadyG .., oneLine .., oneLine .., readRangeG _ _ _ _ _ _ _ (by decide +kernel),
      lineRangeG _ _ _ _ _ _ _ _ (by decide +kernel), isGranted _, by decide +kernel, by decide +kernel⟩,
    ⟨stands (by decide +kernel), ⟨rfl, rfl, rfl, rfl, rfl, rfl⟩, rfl, oneLine .., oneLine ..,
      ⟨plainRange (by decide +kernel), noLines _ ⟨rfl, rfl⟩, noHost _ rfl⟩,
      plainRange (by decide +kernel), by decide +kernel, by decide +kernel⟩,
    ⟨stands (by decide +kernel), passReady .., rfl, oneLine .., by decide +kernel, by decide +kernel, rfl, by decide +kernel, by decide +kernel,
      rfl, readRange _ _ _ _ _ _ _ (by decide +kernel), plainRange (by decide +kernel)⟩⟩

/-- A gather of a row, of one out of range and by a spoiled index. -/
theorem witness_PassesWriteTheirStreams_gather :
    (∀ bs ∈ [good (leBytes 2 1), good (leBytes 2 2), [(0, true), (0, true)]],
        let s := gathering bs
        Stands s gatherReq (.gather 0 1 2 0 false 0 0 0) ∧ PassReady s gatherReq ∧ gatherReq.pass = PassState.start ∧ (shapeOf gatherReq 0).len = 256 ∧
          (shapeOf gatherReq 0).handle = false ∧ isTq 0 = false ∧
          OneLine (shapeOf gatherReq 1) 256 ∧ OneLine (shapeOf gatherReq 2) (indexBytes 0) ∧ ReadRange s gatherReq 0x3000 2 (piece 0x3000 2) ∧
          PlainRange s 0 0x2000 256 .w (piece 0x2000 256) ∧
          ReadRange s gatherReq (lineAddr (shapeOf gatherReq 0) 1) 256 (piece 0x1100 256)) ∧
      (leVal ((memReadS (gathering (good (leBytes 2 1))).mem 0x3000 2).map Prod.fst) = 1 ∧
        leVal ((memReadS (gathering (good (leBytes 2 2))).mem 0x3000 2).map Prod.fst) = (shapeOf gatherReq 0).count ∧
        (∀ b ∈ memReadS (gathering (good (leBytes 2 1))).mem 0x3000 2, b.2 = false) ∧
        ¬ ∀ b ∈ memReadS (gathering [(0, true), (0, true)]).mem 0x3000 2, b.2 = false) := by
  refine ⟨?_, by decide +kernel, by decide +kernel, allGood (by decide +kernel), someSpoiled (by decide +kernel)⟩
  intro bs _
  exact ⟨standsMem (by decide +kernel), ⟨rfl, rfl, rfl, rfl, rfl, rfl⟩, rfl, rfl, rfl, rfl, oneLine .., oneLine ..,
    ⟨plainMem (plainRange (by decide +kernel)), noLines _ ⟨rfl, rfl⟩, noHost _ rfl⟩, plainMem (plainRange (by decide +kernel)),
    plainMem (plainRange (by decide +kernel)), noLines _ ⟨rfl, rfl⟩, noHost _ rfl⟩

/-- A coding that has its Tongs slot, and one that waits for it. -/
theorem witness_PassesWriteTheirStreams_code :
    (let r := passing codeW 256 272 72 256
     Stands (alone r) r (.code 0 1 2 3 2) ∧ PassReady (alone r) r ∧ r.pass = PassState.start) ∧
      (let r := granted (passing codeW 256 272 72 256)
       let s := alone r
       Stands s r (.code 0 1 2 3 2) ∧ PassReady s r ∧ (codable 2).isSome = true ∧ Granted r (0, 0) ∧ OneLine (shapeOf r 0) 256 ∧
         OneLine (shapeOf r 1) 272 ∧ OneLine (shapeOf r 2) 72 ∧ OneLine (shapeOf r 3) 256 ∧ ReadRange s r 0x1000 256 (piece 0x1000 256) ∧
         PlainRange s 0 0x2000 272 .w (piece 0x2000 272) ∧ PlainRange s 0 0x3000 72 .w (piece 0x3000 72) ∧
         PlainRange s 0 0x4000 256 .w (piece 0x4000 256) ∧ ∀ b ∈ memReadS s.mem 0x1000 256, b.2 = false) :=
  ⟨⟨stands (by decide +kernel), passReady .., rfl⟩, stands (by decide +kernel), passReadyG .., rfl, isGranted _, oneLine .., oneLine ..,
    oneLine .., oneLine .., readRangeG _ _ _ _ _ _ _ (by decide +kernel), lineRangeG _ _ _ _ _ _ _ _ (by decide +kernel),
    lineRangeG _ _ _ _ _ _ _ _ (by decide +kernel), lineRangeG _ _ _ _ _ _ _ _ (by decide +kernel), allGood (by decide +kernel)⟩

/-- Expansions of a block, of one that fails a check and with tables of zeros. -/
theorem witness_PassesWriteTheirStreams_expand :
    (let r := passing expandW 256 256 72 256
     Stands (alone r) r (.expand 0 1 2 3 2 0) ∧ PassReady (alone r) r ∧ r.pass = PassState.start) ∧
      (∀ d, Stands (expanding d) expandReq (.expand 0 1 2 3 2 0) ∧ PassReady (expanding d) expandReq ∧ Granted expandReq (0, 0)) ∧
      (∀ d, (∀ x ∈ [(0x4000, 256), (0x3000, 64), (0x3000 + (64 + 8 * 0), 8), (0x1000 + 0, 160)],
          ReadRange (expanding d) expandReq x.1 x.2 (piece x.1 x.2)) ∧
        PlainRange (expanding d) 0 0x2000 256 .w (piece 0x2000 256)) ∧
      (OneLine (shapeOf expandReq 1) 256 ∧ OneLine (shapeOf expandReq 3) 256 ∧ OneLine (shapeOf expandReq 2) 72 ∧
        (expandReq.params.getD 0 0).toNat = 0 ∧ (shapeOf expandReq 0).handle = false ∧ (shapeOf expandReq 0).count = 1) ∧
      (let s := expanding []
       tablesOf plan0 (memReadS s.mem 0x4000 256) (memReadS s.mem 0x3000 64) = none) ∧
      (∀ x ∈ [((0 : Byte), true), (2, false)],
        let s := expanding (codedCells x.1)
        (∀ b ∈ memReadS s.mem 0x4000 256 ++ memReadS s.mem 0x3000 72 ++ memReadS s.mem 0x1000 160, b.2 = false) ∧
          (expandBlock ⟨7, 8, 2, 2048⟩ ⟨[(0, 1, 0)], 1, 128, 16, 8⟩ 0 256 (leVal ((memReadS s.mem 0x3040 8).map Prod.fst))
            ((memReadS s.mem 0x1000 160).map Prod.fst)).map List.length = (if x.2 then some 256 else none) ∧
          blockPlace (leVal ((memReadS s.mem 0x3040 8).map Prod.fst)) 256 = some (0, 160)) ∧
      ∀ b ∈ [(0 : Byte), 2], tablesOf plan0 (memReadS (expanding (codedCells b)).mem 0x4000 256)
        (memReadS (expanding (codedCells b)).mem 0x3000 64) = some ⟨[(0, 1, 0)], 1, 128, 16, 8⟩ := by
  refine ⟨⟨stands (by decide +kernel), passReady .., rfl⟩, expandFresh, expandRanges, ⟨oneLine .., oneLine .., oneLine .., rfl, rfl, rfl⟩, by decide +kernel, ?_, tables_read⟩
  simp only [List.forall_mem_cons, List.not_mem_nil, false_implies, implies_true, and_true]
  exact ⟨⟨allGood (by decide +kernel), by decide +kernel, by decide +kernel⟩, allGood (by decide +kernel), by decide +kernel, by decide +kernel⟩

/-- A request at a word that acts on shape set 0, which is one line in the migratable segment. -/
def movingReq (w : Word) : Request := { request [w] with shapes := line 0x1020_0000 256 :: List.replicate 7 (line 0 0) }

def prefetchW (w : Nat) : Word := word 0x12 (w * 2 ^ 54)

def adviseW (hint : Nat) : Word := word 0x13 (hint * 2 ^ 51)

/-- 8 B wide for `w` = 1; the old value goes to shape set 1 for `ret` = 1. -/
def atomicW (w ret : Nat) : Word := word 0x14 (w * 2 ^ 54 + ret * 2 ^ 41 + ret * 2 ^ 38)

def atomicReq (w ret : Nat) : Request := passing (atomicW w ret) (4 + 4 * w) (4 + 4 * w) 0 0

def reduceW : Word := word 0x15 0


/-- The blocks of a hint that are in a frame and in host memory, waited for and not; both marks; ATOMIC of both widths, with and without
its old value; REDUCE's first chunk of two ranks. -/
theorem witness_MemorySideWordsAct :
    (∀ x ∈ [(prefetchW 0, HInstr.prefetch 0 false), (prefetchW 1, .prefetch 0 true), (adviseW 0, .advise 0 0), (adviseW 2, .advise 0 2),
            (adviseW 3, .advise 0 3)], ∀ st ∈ [BlockSt.inFrame 1, .inHost],
        let r := movingReq x.1
        let s := withReqs (withBlock st) [r]
        AtWord s r x.2 ∧
          (r.pass = PassState.start ∧ r.mods = [] ∧ r.effects = [] ∧ r.hits = [] ∧ r.kept = [] ∧ r.record = none ∧
            ledgered s r.ctx = false) ∧
          (s.run.reqs.map (·.id)).Nodup ∧ r.wait = none ∧ shapeBlocks s r.ctx (shapeOf r 0) = some [(1, 1)] ∧
          (getSeg s r.ctx 1).map (fun g => (g.cfg.kind, g.drains, (blockOf g 1).st)) = some (.migratable, [], st) ∧
          (getSeg s r.ctx 1).map (fun g => (isHeld s.time g 1, isMoving (blockOf g 1).st)) = some (false, false) ∧
          (s.seg.segs.filter fun y => y.cfg.ctx == 0 && y.cfg.index == 1).length = 1) ∧
      (∀ w ∈ [0, 1], ∀ ret ∈ [0, 1],
        let r := atomicReq w ret
        let s := alone r
        Stands s r (.atomic 0 (w == 1) false 0 0 0 (ret == 1) ret) ∧ PassReady s r ∧ r.pass = PassState.start ∧ OneRequestPerId s ∧ r.wait = none ∧
          r.answer = none ∧ (shapeOf r 0).handle = false ∧
          PlainRange s 0 0x1000 (4 + 4 * w) .a (piece 0x1000 (4 + 4 * w)) ∧ ownLineOver s r (piece 0x1000 (4 + 4 * w)) = false ∧
          ownHostOver s r (piece 0x1000 (4 + 4 * w)) = false ∧
          (∀ b ∈ memReadS s.mem 0x1000 (4 + 4 * w), b.2 = false) ∧
          OneLine (shapeOf r 1) (4 + 4 * w) ∧ PlainRange s 0 0x2000 (4 + 4 * w) .w (piece 0x2000 (4 + 4 * w))) ∧
      (let r := passing reduceW 256 0 0 0
       let s := alone r
       let x := getEpoch s 0 0
       Stands s r (.reduce 0 0 0 0) ∧ PassReady s r ∧ r.pass = PassState.start ∧ OneRequestPerId s ∧ redCfg s 0 0 = some reduction ∧ reduction.home = s.cfg.pkg ∧
         exportCfg s 2 = some (exportRow 2 (.reduction 0)) ∧ OneLine (shapeOf r 0) 256 ∧ ReadRange s r 0x1000 256 (piece 0x1000 256) ∧
         ownerQuenched s 0 = false ∧ exportBars s s.cfg.pkg (exportRow 2 (.reduction 0)) 4 0 256 = none ∧
         (∀ b ∈ memReadS s.mem 0x1000 256, b.2 = false) ∧ x.e = 0 ∧ x.bound = [] ∧ x.chunks = [] ∧ x.ending = none ∧
         (let y := { x with isOpen := true, bound := [(0, 5)], chunks := [(0, 0, 256)] }
          allRanks reduction y = false ∧ leadingRanks reduction y ≠ leadingRanks reduction x ∧
            leadingRanks reduction { y with bound := [(1, 5)], chunks := [(1, 0, 256)] } = leadingRanks reduction x) ∧
         inStockpile (redBuffer s reduction 0) = true ∧ unreachable s (redBuffer s reduction 0) = false) := by
  refine ⟨by decide +kernel, ?_, ⟨stands (by decide +kernel), passReady .., rfl, by unfold OneRequestPerId; decide +kernel, by decide +kernel, rfl,
    by decide +kernel, oneLine .., readRange _ _ _ _ _ _ _ (by decide +kernel), by decide +kernel, by decide +kernel,
    allGood (by decide +kernel), by decide +kernel⟩⟩
  simp only [List.forall_mem_cons, List.not_mem_nil, false_implies, implies_true, and_true]
  refine ⟨⟨?_, ?_⟩, ?_, ?_⟩ <;>
    exact ⟨stands (by decide +kernel), passReady .., rfl, by unfold OneRequestPerId; decide +kernel, rfl, rfl, rfl,
      lineRange _ _ _ _ _ _ _ _ (by decide +kernel), noLines _ ⟨rfl, rfl⟩, noHost _ rfl, allGood (by decide +kernel), oneLine ..,
      lineRange _ _ _ _ _ _ _ _ (by decide +kernel)⟩

/-! ## Witnesses: the schedule port and counters -/

def bundle (aops : List (Fin 16 × Word)) (cops : List Word) (st : List (Fin 16 × List Byte)) : Bundle :=
  { half := .east, ctx := 0, vcyc := 7, aops := aops, cops := cops, stData := st }

/-- Words of the eight operations (table "Schedule operations"): for Anvil port 1 and a ring; for feed 0, line 2 and counter 0. -/
def rdW (ring rel : Nat) : Word := BitVec.ofNat 64 (1 * 2 ^ 60 + 1 * 2 ^ 56 + ring * 2 ^ 45 + 3 * 2 ^ 39 + rel * 2 ^ 38 + 255 * 2 ^ 30)
def tblW (ring : Nat) : Word := BitVec.ofNat 64 (2 * 2 ^ 60 + 1 * 2 ^ 56 + ring * 2 ^ 45)
def strW (ring pub : Nat) : Word := BitVec.ofNat 64 (3 * 2 ^ 60 + 1 * 2 ^ 56 + ring * 2 ^ 45 + 3 * 2 ^ 39 + pub * 2 ^ 38)
def stmW : Word := BitVec.ofNat 64 (4 * 2 ^ 60 + 1 * 2 ^ 56 + 4 * 2 ^ 9)
def feedW : Word := BitVec.ofNat 64 (5 * 2 ^ 60 + (2 ^ 52 - 1))
def paceOpW : Word := BitVec.ofNat 64 (6 * 2 ^ 60 + 2 * 2 ^ 52)
def sigW : Word := BitVec.ofNat 64 (7 * 2 ^ 60 + 3 * 2 ^ 16)
def drainW : Word := BitVec.ofNat 64 (8 * 2 ^ 60)

def portOp (w : Word) : SchedOp := { anvil := true, idx := 1, word := w, excess := false }
def groupOp (w : Word) : SchedOp := { anvil := false, idx := 0, word := w, excess := false }

def portBundle (w : Word) : Bundle := bundle [(1, w)] [] [(1, zeros 1024)]
def groupBundle (w : Word) : Bundle := bundle [] [w] []

/-- What is to be shown of a bundle of one operation. -/
abbrev Alone (s : State) (b : Bundle) (o : SchedOp) : Prop :=
  running s = true ∧ s.halfReset.get b.half = false ∧ s.power.glow.get b.half = false ∧ bundleOps b = [o] ∧ isNop o = false ∧
    ctxIsQuenched s b.ctx.val = false ∧ (staticFault s b.half b.ctx.val o).isNone = true

theorem oneOp {s : State} {b : Bundle} {o : SchedOp} (h : Alone s b o) : OneOp s b o :=
  let ⟨run, half, glow, ops, real, open', sound⟩ := h
  ⟨run, half, glow, ops, real, open', Option.isNone_iff_eq_none.mp sound⟩

theorem theRing {s : State} {c g : Nat} {x : RingSt} (h : getRing s c g = some x)
    (only : ∀ y ∈ s.buf.rings, (y.ctx, y.ring) = (c, g) → y = x) : TheRing s c g x :=
  ⟨h, fun y hy h1 h2 => only y hy (Prod.ext h1 h2)⟩

def ringOf (g claimed published : Nat) : RingSt :=
  { ctx := 0, ring := g, claimed := claimed, published := published, acquired := 0, released := 0, early := [], releasing := []
    openStr := none, closed := []
    lost := [], lengths := [], relTimes := [], pubTimes := [], discards := 0 }

/-- The machine with ring `g` of context 0 as given. -/
def withRing (x : RingSt) : State := updRing m0 0 x.ring fun _ => x

/-- With a table billet at the head of ring 2. -/
def tableHead : State :=
  { withRing (ringOf 2 1 1) with mem := memWrite m0.mem 0x4000_0003_0000 (good codeMagic) }

/-- Anvil port 1 with one message under way, and nothing else. -/
def coming (d : PortData) : State :=
  { m0 with buf := { m0.buf with anvils := [{ AnvilPort.reset .east 1 with coming := [{ due := 12, ctx := 0, bank := some (1, 0x4000_0001_0000), data := d }] }] } }

/-- RD with and without REL, TBL, STR with and without PUB, STM, a publication and an operand read; a line and a table that arrive, and a
release that takes effect. -/
theorem witness_BundlesReadAndStore :
    (∀ rel ∈ [0, 1], OneOp (withRing (ringOf 0 1 1)) (portBundle (rdW 0 rel)) (portOp (rdW 0 rel))) ∧
      (portOp (rdW 0 1)).op = 1 ∧ ringCfg m0 0 (portOp (rdW 0 1)).ring = some (ring 0 false false none) ∧
      TheRing (withRing (ringOf 0 1 1)) 0 0 (ringOf 0 1 1) ∧ headReady (withRing (ringOf 0 1 1)) 0 0 = true ∧
      m0.cfg.relays = [] ∧
      (OneOp tableHead (portBundle (tblW 2)) (portOp (tblW 2)) ∧ (portOp (tblW 2)).op = 2 ∧
        ringCfg m0 0 (portOp (tblW 2)).ring = some (ring 2 false false (some 2)) ∧ TheRing tableHead 0 2 (ringOf 2 1 1) ∧
        headReady tableHead 0 2 = true ∧ headIsTable tableHead (ring 2 false false (some 2)) (ringOf 2 1 1) = true ∧
        (getAnvil tableHead .east 1).tables = []) ∧
      (∀ pub ∈ [0, 1], OneOp m0 (portBundle (strW 3 pub)) (portOp (strW 3 pub))) ∧
      ((portOp (strW 3 1)).op = 3 ∧ ringCfg m0 0 (portOp (strW 3 1)).ring = some (ring 3 true true none) ∧ TheRing m0 0 3 (ringOf 3 0 0) ∧
        (ringOf 3 0 0).claimed < claimableH m0 (ringOf 3 0 0) + 4 ∧
        (((portBundle (strW 3 1)).stData.find? fun d => d.1.val == (portOp (strW 3 1)).ap).map (·.1)) = some 1 ∧
        unreachable m0 (stagingLocal m0 0 (slotOffset (ring 3 true true none) 0) + 3 * 1024) = false) ∧
      (OneOp m0 (portBundle stmW) (portOp stmW) ∧ (portOp stmW).op = 4 ∧
        PlainRange m0 0 (bits stmW.toNat 55 9 * 1024) 1024 .w (piece 0x1000 1024) ∧
        storesUsed m0 .east < 256 ∧ m0.buf.sigs = [] ∧ m0.buf.stores = [] ∧ flightsOf m0 (.store m0.buf.nextStore) = []) ∧
      (let x := { ringOf 3 1 0 with closed := [0] }
       running (withRing x) = true ∧ TheRing (withRing x) 0 3 x ∧ x.closed = [x.published] ∧ strOpen (withRing x) 0 3 = false) ∧
      (∀ n ∈ [1, 1024],
        let f := opRead (BitVec.ofNat 57 (4 * 2 ^ 49 + n))
        let a := getAnvil m0 .east 1
        running m0 = true ∧ m0.halfReset.get .east = false ∧ m0.power.glow.get .east = false ∧ portRetired m0 .east 1 = false ∧ f.path = 0 ∧
          pathDefined f = true ∧ fmtBits f.sfmt = 8 ∧ f.base + f.first + f.count ≤ 262144 ∧
          pendingIn a 0 (f.base + f.first) f.count = none) ∧
      (∀ d ∈ [PortData.unit { unit := 3, data := zeros 1024, spoil := [], ctx := 0 }, .table 2 (good (zeros 256))],
        (∃ a ∈ (coming d).buf.anvils, a.coming.map (·.data) = [d] ∧ a.blocks = [] ∧ a.tables.length < 8) ∧
          nextEvent { coming d with buf := { (coming d).buf with anvils := [AnvilPort.reset .east 1] } } = none) ∧
      (ringCfg m0 0 2).map (·.coded) = some (some 2) ∧
      (let x := { ringOf 0 1 1 with releasing := [(1, 0)] }
       TheRing (withRing x) 0 0 x ∧ (withRing x).time < 1 ∧ nextEvent (withRing { x with releasing := [] }) = none) ∧
      (let w : StrWrite := { id := 0, half := .east, ctx := 0, ring := 3, billet := 0, due := 2, load := some (2, 0x4000_0001_0000, good (zeros 1024)) }
       let u := { m0 with buf := { m0.buf with strs := [w] } }
       u.time < 2 ∧ 2 ≤ w.due ∧ inStockpile 0x4000_0001_0000 = true ∧ unreachable u 0x4000_0001_0000 = false ∧
         nextEvent { u with buf := { u.buf with strs := [] } } = none) := by
  refine ⟨?_, rfl, by decide +kernel, theRing rfl (by decide +kernel), by decide +kernel, rfl,
    ⟨oneOp (by decide +kernel), rfl, by decide +kernel, theRing rfl (by decide +kernel), by decide +kernel, by decide +kernel, by decide +kernel⟩,
    ?_, ⟨rfl, by decide +kernel, theRing rfl (by decide +kernel), by decide +kernel, by decide +kernel, by decide +kernel⟩,
    ⟨oneOp (by decide +kernel), rfl, plainRange (by decide +kernel), by decide +kernel, rfl, rfl, by decide +kernel⟩,
    ⟨by decide +kernel, theRing rfl (by decide +kernel), rfl, by decide +kernel⟩, by decide +kernel, ?_, by decide +kernel,
    ⟨theRing rfl (by decide +kernel), by decide, rfl⟩, by decide +kernel⟩
  · simp only [List.forall_mem_cons, List.not_mem_nil, false_implies, implies_true, and_true]
    exact ⟨oneOp (by decide +kernel), oneOp (by decide +kernel)⟩
  · simp only [List.forall_mem_cons, List.not_mem_nil, false_implies, implies_true, and_true]
    exact ⟨oneOp (by decide +kernel), oneOp (by decide +kernel)⟩
  · exact fun d _ => ⟨⟨_, List.mem_singleton.mpr rfl, rfl, rfl, Nat.zero_lt_succ 7⟩, rfl⟩

/-- Ring 3 full, and feed 0 full. -/
def fullUp : State :=
  let s := withRing (ringOf 3 4 4)
  { s with buf := { s.buf with feeds := [{ half := .east, feed := 0, entries := List.replicate 1024 (0, 0) }] } }

def store (n : Nat) : StoreEntry :=
  { id := n, half := .east, ctx := 0, va := 0, data := [], tags := [], lines := [], held := false, failed := false }

def drainAt (c0 : Nat) : DrainSt := { ctx := 0, half := .east, rings := [(0, c0)], gen := 0 }

theorem witness_BundlesPaceSignalAndDrain :
    (∀ x ∈ [(rdW 0 1, m0), (tblW 2, m0), (strW 3 0, fullUp),
            (stmW, { m0 with buf := { m0.buf with stores := List.replicate 256 (store 0) } })],
      OneOp x.2 (portBundle x.1) (portOp x.1) ∧ opReady x.2 .east 0 0 (portOp x.1) = false) ∧
      (OneOp fullUp (groupBundle feedW) (groupOp feedW) ∧ opReady fullUp .east 0 0 (groupOp feedW) = false) ∧
      ((∀ w ∈ [feedW, paceOpW, sigW], OneOp m0 (groupBundle w) (groupOp w)) ∧ feedRoom m0 .east (groupOp feedW).feed = true ∧
        (getPacing m0 (groupOp paceOpW).feed).map (·.pending) = some 0 ∧ m0.buf.stores = [] ∧
        (∀ y ∈ m0.buf.pacing, y.line = (groupOp paceOpW).feed → some y = getPacing m0 (groupOp paceOpW).feed) ∧
        vEntry m0 0 (bits sigW.toNat 59 48) = .loc 0 true true ∧
        m0.halfReset = ⟨false, false⟩) ∧
      (let s := { m0 with buf := { m0.buf with rings := m0.buf.rings.map fun x => { x with claimed := 1 } } }
       OneOp s (groupBundle drainW) (groupOp drainW) ∧ (ctxCfg s 0).bind (·.drainCounter) = some 0 ∧ vEntry s 0 0 = .loc 0 true true ∧
         ∀ x ∈ s.buf.rings, x.ctx = 0 → x.published < x.claimed) ∧
      (∀ p ∈ [0, 1],
        let s := withRing (ringOf 0 1 p)
        let u := { s with buf := { s.buf with drains := [drainAt 1] } }
        running u = true ∧ TheRing u 0 0 (ringOf 0 1 p) ∧ u.halfReset = ⟨false, false⟩ ∧ (ctxCfg u 0).bind (·.drainCounter) = some 0 ∧
          BatchOpen u (partOfCtx u 0) (FaultQ.reset 0)) ∧
      (∀ x ∈ [m0, updCtx m0 0 fun y => { y with ran := true }, updCtx m0 0 fun y => { y with faulted := true }],
        running x = true ∧ (getCtx x 0).map (·.late) = some []) ∧ firstFillMet m0 0 = true ∧
      (let w : StrWrite := { id := 0, half := .east, ctx := 0, ring := 3, billet := 0, due := 2, load := none }
       let x : StoreSig := { half := .east, ctx := 0, vid := bits sigW.toNat 59 48, n := 1, gen := 0, needs := [0] }
       let u := { m0 with buf := { m0.buf with strs := [w], sigs := [x] } }
       (∀ y ∈ u.buf.stores, y.id ≠ w.id) ∧ u.time < w.due ∧ nextEvent { u with buf := { u.buf with strs := [] } } = none ∧
         vEntry u x.ctx x.vid = .loc 0 true true ∧ u.halfReset = ⟨false, false⟩) := by
  refine ⟨?_, ⟨oneOp (by decide +kernel), by decide +kernel⟩, ⟨?_, by decide +kernel, by decide +kernel, by decide +kernel, by decide +kernel⟩,
    ⟨oneOp (by decide +kernel), by decide +kernel, by decide +kernel, by decide +kernel⟩, ?_, by decide +kernel, by decide +kernel,
    by decide +kernel⟩ <;>
    simp only [List.forall_mem_cons, List.not_mem_nil, false_implies, implies_true, and_true]
  · exact ⟨⟨oneOp (by decide +kernel), by decide +kernel⟩, ⟨oneOp (by decide +kernel), by decide +kernel⟩,
      ⟨oneOp (by decide +kernel), by decide +kernel⟩, ⟨oneOp (by decide +kernel), by decide +kernel⟩⟩
  · exact ⟨oneOp (by decide +kernel), oneOp (by decide +kernel), oneOp (by decide +kernel)⟩
  · exact ⟨⟨rfl, theRing rfl (by decide +kernel), rfl, by decide +kernel, batchOpen _ 0 (by decide) rfl⟩,
      ⟨rfl, theRing rfl (by decide +kernel), rfl, by decide +kernel, batchOpen _ 0 (by decide) rfl⟩⟩

/-- The machine with one update of `n` under way to counter 0. -/
def updating (n gen : Nat) : State :=
  { m0 with ctr := { m0.ctr with updates := [{ ctr := 0, amount := n, gen := gen, half := .east, due := 6 }] } }

/-- Context 0's processor context suspended at a FEED. -/
def feedWait (rounds : Nat) : State :=
  let s := updCtx m0 0 fun x => { x with late := [(.east, feedW, true)] }
  { s with ctr := { s.ctr with stalls := [{ contextMember 0 0 7 0 0 with rounds := rounds }] } }

/-- The same with a request that waits for it. -/
def awaited (s : State) : State :=
  withReqs s [{ request [word 0x0E 1] with wait := some (.counter 0 0 1 0) }]

/-- Updates that add, that end a wait, that saturate, that meet an ABANDONED counter and that are of an older generation; waits that are
met, parked and faulty; evaluations with nothing blocked and with a stall that has lasted for the window. -/
theorem witness_CountersChangeAtTheirHome :
    (∀ s ∈ [updating 1 0, awaited (updating 1 0), updating (2 ^ 64) 0, updCtr (updating 1 0) 0 fun c => { c with abandoned := true },
            updCtr (updating 1 0) 0 fun c => { c with gen := 1 }],
      whenReady s 0 (fun y => !signalWaits y 0) = s ∧ running s = true ∧ s.halfReset = ⟨false, false⟩ ∧
        (∀ x ∈ s.ctr.updates, OnlyUpdate s x ∧ x.ctr = 0 ∧ minBy (·.due) (s.ctr.updates.filter (·.ctr == 0)) = some x) ∧
        s.ctr.updates.length = 1 ∧ (s.ctr.ctrs.filter (·.ctr == 0)).length = 1 ∧ ∀ y ∈ s.ctxs, y.cw = none) ∧
      (∀ r ∈ (awaited (updating 1 0)).run.reqs, r.wait = some (.counter 0 0 1 0) ∧ r.latched = none ∧ r.half = homeOfCtr 0) ∧
      (vEntry m0 0 0 = .loc 0 true true ∧ evalWait m0 0 .east 0 (genOf m0 0) = .met ∧ evalWait m0 0 .east 1 (genOf m0 0) = .notMet ∧
        evalWait m0 0 .west (2 ^ 64 - 1) (genOf m0 0) = .notMet ∧ vEntry m0 0 4095 = .unmapped ∧ BatchOpen m0 0 (FaultQ.reset 0)) ∧
      (blockedMembers m0 = [] ∧
        (let s := feedWait 99
         let k := contextMember 0 0 7 0 0
         running s = true ∧ s.halfReset = ⟨false, false⟩ ∧ blockedMembers s = [k] ∧ advancers s k = [] ∧ hasOutside s k = false ∧
           s.ctr.stalls = [{ k with rounds := 99 }] ∧ k.reported = false ∧ (k.key, k.wait) ∉ s.ctr.told ∧
           s.cfg.safety.stallWindow ≤ (99 + 1) * 10000 ∧
           (getStallRegs s (partOfCtx s 0)).pending = false)) := by
  refine ⟨?_, by decide +kernel, ⟨by decide +kernel, by decide +kernel, by decide +kernel, by decide +kernel, by decide +kernel,
    batchOpen m0 0 (by decide) rfl⟩, by decide +kernel⟩
  have only : ∀ s ∈ [updating 1 0, awaited (updating 1 0), updating (2 ^ 64) 0, updCtr (updating 1 0) 0 fun c => { c with abandoned := true },
      updCtr (updating 1 0) 0 fun c => { c with gen := 1 }], signalWaits s 0 = false ∧ nextEvent { s with ctr.updates := [] } = none ∧
      running s = true ∧ s.halfReset = ⟨false, false⟩ ∧ s.ctr.updates.length = 1 ∧ (s.ctr.ctrs.filter (·.ctr == 0)).length = 1 ∧
      (∀ y ∈ s.ctxs, y.cw = none) ∧ ∀ x ∈ s.ctr.updates, s.ctr.updates = [x] ∧ s.time < x.due ∧ x.ctr = 0 := by decide +kernel
  intro s hs
  obtain ⟨quiet, still, run, half, one, ctr, cw, all⟩ := only s hs
  refine ⟨whenReady_past (Nat.zero_le _) (.inl (by simp [quiet])), run, half, fun x hx => ?_, one, ctr, cw⟩
  obtain ⟨u, due, c⟩ := all x hx
  exact ⟨⟨u, due, still⟩, c, by simp [u, c, minBy]⟩

end Sys2Proof.Tests
end

section
/-! SUPPORT. Most commands end in an answer that puts back the queue of waiting commands, the fuses and the flash. The others may end in a
start-up, whose answer takes the fuses that the start-up leaves. -/

namespace Sys2Proof.Machine

/-- The command ends in an answer, which leaves the queue of waiting commands, the fuses and the flash as they were, or in a fault. -/
inductive Answered (s : State) : Result → Prop
  | answer (u : State) : Answered s (Machine.answer s u)
  | fault (f : Fault) : Answered s (.fault f)

theorem Flow.result_answered (s : State) (x : Flow) : Answered s (x.result s) := by
  cases x with
  | go u => exact .answer u
  | stop u => exact .answer u
  | fault f => exact .fault f

theorem withInstr_answered (t : Mc) (h : HaulerId) (row : String) (s : State) (k : State → Request → HInstr → Flow) :
    Answered s (withInstr t h row s k) := by
  unfold withInstr
  dsimp only
  split
  · exact Flow.result_answered s _
  · exact .answer _

theorem orFetching_answered (t : Mc) (h : HaulerId) (s : State) (k : State → Flow) : Answered s (orFetching t h s k) := by
  unfold orFetching
  dsimp only
  split <;> exact Flow.result_answered s _

theorem withAdmin_answered (t : Mc) (p : Fin 16) (cmd : Nat) (s : State) (names : List Byte → Option Nat)
    (checks : State → List Byte → List (Nat × Nat)) (act : State → List Byte → State) :
    Answered s (withAdmin t p cmd s names checks act) := by
  unfold withAdmin withAdminBy
  dsimp only
  repeat' split
  all_goals exact .answer _

theorem issueBundle_answered (t : Mc) (op : Nat) (b : Bundle) (s : State) : Answered s (issueBundle t op b s) := by
  unfold issueBundle
  dsimp only
  repeat' split
  all_goals exact .answer _

/-- The commands whose answer may be that of a start-up, and FLASH_WRITE. -/
def mayStartUp : Instr → Bool
  | .flashWrite .. | .reload .. | .warmReset .. | .warmRstN .. | .coldStart .. | .powerLoss .. | .clock .. | .stagePoll ..
  | .brownoutRecovery .. | .brownoutReset .. | .containedDetection .. | .uncontainedDetection .. | .haulerWatchdog ..
  | .quenchTimeout .. | .loopLineReturn .. => true
  | _ => false

/-- A register write by its offset is the command of that register. -/
def isRegisterWrite : Instr → Bool
  | .registerWrite .. => true
  | _ => false

theorem execFlashVerify_answered (t : Mc) (p : Fin 16) (answers : Bool) (s : State) : Answered s (execFlashVerify t p answers s) := by
  dsimp only [execFlashVerify, oneAtATime]
  split
  · exact .answer _
  · exact withAdmin_answered ..

theorem exec_answered_named (c : Instr) (s : State) (hc : mayStartUp c = false) (hr : isRegisterWrite c = false) :
    Answered s (exec c s) := by
  cases c
  case flashWrite | reload | warmReset | warmRstN | coldStart | powerLoss | clock | stagePoll | brownoutRecovery | brownoutReset
    | containedDetection | uncontainedDetection | haulerWatchdog | quenchTimeout | loopLineReturn => cases hc
  case registerWrite => cases hr
  case nop | halt | shape | move | gather | loop | stepBase | xform | quant | sums | code | expand | putRingFill | putHandle
    | takeRingAcquire | takeRingRelease | takeHandle | wait | signal | fence | pace | prefetch | advise | atomic | reduce
    | ledgerSplit | ledgerMark | report | setp =>
    dsimp only [exec]
    exact withInstr_answered ..
  case haul | arm | rearm | persistentNextRun =>
    dsimp only [exec]
    exact orFetching_answered ..
  case sqEnable | sqDisable | cqEnable | cqDisable | queueReset | contextReset | segmentCreate | segmentDestroy | invalidate
    | faultResolve | partnerUnfence | ledgerSeal =>
    dsimp only [exec]
    exact withAdmin_answered ..
  case rd | tbl | str | stm | feed | schedulePace | sig | drain =>
    dsimp only [exec]
    exact issueBundle_answered ..
  case rread | rwrite | ratomic | rreduce | rsignal | hello | response | completionRecord | commit | discard | bank | holdRun
    | release | tapTestLogicReset | hostWake | adminSqRecover | adminCqRecover | mbistStart | lbistStart => exact .answer _
  case flashVerify => exact execFlashVerify_answered ..
  case ringPublish | handlePublish | tongsSlotGrant | parkedResume | sqDoorbell | cqDoorbell | pacingDoorbell | pacingTimer
    | entryFetch | msixCoalesceTimeout | stop | counterUpdate | counterWait | hostAdd | contextResetComplete | operandRead
    | loopStart | loopLineLost | epochComplete | epochTimeout | attemptTimeout | linkUp | linkDown | pathDown | trainingTimeout
    | wakeOrderedSet | wakeLimit | segmentDrainComplete | promotionCopyDone | faultBatchClose | faultResolutionTimeout
    | ledgerEntryClose | ledgerQueueEnable | ledgerQueueHead | halfResetRejoin | glowEntry | bankedEntry | glowWake | bankedWake
    | wakeN | wakeAt | hbmSupervision | bankedScrub | brownoutWarning | selfTest | latentOverdue | patrolScrub | drainComplete
    | strPublish | ready | stallEvaluation | stallPending | tapAccess | priorityCommitApply | shadow | faultQueueEnable
    | faultQueueHead | clear | powerLogSelect | integrityLogSelect | alert | go =>
    dsimp only [exec, execRingPublish, execHandlePublish, execTongsSlotGrant, execParkedResume, execSqDoorbell, execCqDoorbell,
      execPacingDoorbell, execPacingTimer, execEntryFetch, execMsixCoalesceTimeout, execStop, execCounterUpdate, execCounterWait,
      execHostAdd, execContextResetComplete, execOperandRead, execLoopStart, execLoopLineLost, execEpochComplete, execEpochTimeout,
      execAttemptTimeout, execLinkUp, execLinkDown, execPathDown, execTrainingTimeout, execWakeOrderedSet, execWakeLimit,
      execSegmentDrainComplete, execPromotionCopyDone, execFaultBatchClose, execFaultResolutionTimeout, execLedgerEntryClose,
      execLedgerQueueEnable, execLedgerQueueHead, execHalfResetRejoin, execGlowEntry, execBankedEntry, execGlowWake, execBankedWake,
      execWakeN, execWakeAt, execHbmSupervision, execBankedScrub, execBrownoutWarning, execSelfTest, execLatentOverdue,
      execPatrolScrub, execDrainComplete, execStrPublish, execReady, execStallEvaluation, execStallPending, execTapAccess,
      execPriorityCommitApply, execShadow, execFaultQueueEnable, execFaultQueueHead, execClear, execPowerLogSelect,
      execIntegrityLogSelect, execAlert, execGo]
    repeat' split
    all_goals exact .answer _

theorem Answered.ite {s : State} {x y : Result} {p : Prop} [Decidable p] (hx : Answered s x) (hy : Answered s y) :
    Answered s (if p then x else y) := by
  split
  · exact hx
  · exact hy

theorem writePage_answered (t : Mc) (w : RegWrite) (r : Nat) (s : State) : Answered s (writePage t w r s) := by
  unfold writePage
  refine .ite (exec_answered_named (.shadow t w) s rfl rfl) ?_
  refine .ite (exec_answered_named (.commit t w) s rfl rfl) ?_
  refine .ite (exec_answered_named (.adminSqRecover t w) s rfl rfl) ?_
  refine .ite (exec_answered_named (.hostAdd t w) s rfl rfl) ?_
  refine .ite (exec_answered_named (.stallPending t w) s rfl rfl) ?_
  refine .ite (exec_answered_named (.faultQueueEnable t w) s rfl rfl) ?_
  refine .ite (exec_answered_named (.faultQueueHead t w) s rfl rfl) ?_
  refine .ite (exec_answered_named (.clear t w) s rfl rfl) ?_
  refine .ite (exec_answered_named (.ledgerQueueEnable t w) s rfl rfl) ?_
  refine .ite (exec_answered_named (.ledgerQueueHead t w) s rfl rfl) ?_
  refine .ite (exec_answered_named (.bank t w) s rfl rfl) ?_
  refine .ite (exec_answered_named (.powerLogSelect t w) s rfl rfl) ?_
  refine .ite (exec_answered_named (.alert t w) s rfl rfl) ?_
  refine .ite (exec_answered_named (.integrityLogSelect t w) s rfl rfl) ?_
  refine .ite (exec_answered_named (.go t w) s rfl rfl) ?_
  exact .answer _

theorem writeBell_answered (t : Mc) (j : Nat) (w : BellWrite) (s : State) : Answered s (writeBell t j w s) := by
  unfold writeBell
  repeat' split
  · exact exec_answered_named (.sqDoorbell t _ w) s rfl rfl
  · exact exec_answered_named (.cqDoorbell t _ w) s rfl rfl
  · exact exec_answered_named (.pacingDoorbell t _ w) s rfl rfl

theorem execRegisterWrite_answered (t : Mc) (port : Half) (off size : Nat) (value : Word) (s : State) :
    Answered s (execRegisterWrite t port off size value s) := by
  unfold execRegisterWrite
  dsimp only
  refine .ite ?_ ?_
  · split
    · exact .ite (writePage_answered ..) (.answer _)
    · exact .answer _
  · split
    · exact writeBell_answered ..
    · exact .answer _

theorem exec_answered (c : Instr) (s : State) (hc : mayStartUp c = false) : Answered s (exec c s) := by
  cases hr : isRegisterWrite c with
  | false => exact exec_answered_named c s hc hr
  | true =>
    cases c
    case registerWrite => exact execRegisterWrite_answered ..
    all_goals cases hr

end Sys2Proof.Machine
end

section
/-! SUPPORT. What the operations of a reset and of the reactions of the integrity monitor keep, as far as the rollback value needs it: the
fuses, the flash, and that no FLASH_WRITE begins, which a reset could cut (R437). Each lemma follows its operation's branches and cites
those of the operations it calls. -/

namespace Sys2Proof.Machine

/-- None of the records belongs to a FLASH_WRITE in progress. -/
def NoFlashWrite (l : List PendingRec) : Prop := ∀ x ∈ l, isFlashWrite x = false

/-- Fuses, a flash and records that keep those of `a`: no FLASH_WRITE has begun among the records. -/
def FlashKept (a : State) (f : Fuses) (flash : List Host.Cell) (l : List PendingRec) : Prop :=
  f = a.fuses ∧ flash = a.flash ∧ (NoFlashWrite a.q.records → NoFlashWrite l)

/-- The state keeps the fuses and the flash of `a`, and has begun no FLASH_WRITE. -/
abbrev KeepsFlash (a s : State) : Prop := FlashKept a s.fuses s.flash s.q.records

theorem KeepsFlash.refl (s : State) : KeepsFlash s s := ⟨rfl, rfl, id⟩

theorem mem_insertBy {α : Type} {key : α → Nat} {x y : α} : ∀ {l : List α}, y ∈ insertBy key x l → y = x ∨ y ∈ l
  | [], h => .inl (List.mem_singleton.1 h)
  | z :: l, h => by
    unfold insertBy at h
    split at h
    · exact List.mem_cons.1 h
    · rcases List.mem_cons.1 h with rfl | h
      · exact .inr List.mem_cons_self
      · exact (mem_insertBy h).imp_right (List.mem_cons_of_mem _)

theorem mem_of_mem_dropFirst {α : Type} {p : α → Bool} {y : α} : ∀ {l : List α}, y ∈ dropFirst p l → y ∈ l
  | [], h => h
  | z :: l, h => by
    unfold dropFirst at h
    split at h
    · exact List.mem_cons_of_mem _ h
    · rcases List.mem_cons.1 h with rfl | h
      · exact List.mem_cons_self
      · exact List.mem_cons_of_mem _ (mem_of_mem_dropFirst h)

section
variable {a s : State}

theorem foldl_keeps {β : Type} {f : State → β → State} {l : List β} (step : ∀ {u x}, KeepsFlash a u → KeepsFlash a (f u x))
    (h : KeepsFlash a s) : KeepsFlash a (l.foldl f s) :=
  List.foldlRecOn (motive := fun u => KeepsFlash a u) l f h fun _ hu _ _ => step hu

/-- Records among which only those of `s` belong to a FLASH_WRITE. -/
theorem records_keep {l : List PendingRec} (sub : ∀ x ∈ l, isFlashWrite x = true → x ∈ s.q.records) (h : KeepsFlash a s) :
    FlashKept a s.fuses s.flash l := by
  obtain ⟨hf, hl, hn⟩ := h
  refine ⟨hf, hl, fun ha x hx => ?_⟩
  cases hx' : isFlashWrite x with
  | false => rfl
  | true => exact hx' ▸ hn ha x (sub x hx hx')

theorem updCtr_keeps {c : Nat} {f : CtrSt → CtrSt} (h : KeepsFlash a s) : KeepsFlash a (updCtr s c f) := by
  dsimp only [updCtr]
  exact h

/-! ### Wakes -/

theorem wakeContext_keeps {x : CtxState} (h : KeepsFlash a s) : KeepsFlash a (wakeContext s x) := by
  dsimp only [wakeContext, updCtx]
  repeat' split
  all_goals exact h

theorem wakeContexts_keeps (h : KeepsFlash a s) : KeepsFlash a (wakeContexts s) := by
  dsimp only [wakeContexts]
  repeat' split
  · exact foldl_keeps wakeContext_keeps h
  · exact h

theorem wakeHalf_keeps {half : Half} (h : KeepsFlash a s) : KeepsFlash a (wakeHalf s half) := by
  dsimp only [wakeHalf, setGlow]
  repeat' split
  all_goals exact h

theorem wakeEvent_keeps {half : Half} (h : KeepsFlash a s) : KeepsFlash a (wakeEvent s half) := by
  dsimp only [wakeEvent, undoEntry]
  repeat' split
  · exact h
  · exact wakeHalf_keeps h

/-! ### Fault records and events -/

theorem writeFaultRecs_keeps {p : Nat} {q : FaultQ} :
    ∀ {rs : List FaultRec} {s : State} {k : Nat}, KeepsFlash a s → KeepsFlash a (writeFaultRecs s p q rs k)
  | [], _, _, h => h
  | _ :: rs, s, _, h => writeFaultRecs_keeps (rs := rs) (s := hostWrite s p _ _) h

theorem writeClosed_keeps {p : Nat} (h : KeepsFlash a s) : KeepsFlash a (writeClosed s p) := by
  dsimp only [writeClosed, updFaultQ, sendMsix]
  repeat' split
  · exact h
  · exact writeFaultRecs_keeps h

theorem createWaiting_keeps {p : Nat} {r : FaultRec} (h : KeepsFlash a s) : KeepsFlash a (createWaiting s p r) := by
  dsimp only [createWaiting, updFaultQ]
  repeat' split
  all_goals exact h

theorem drainWaiting_keeps {p : Nat} : ∀ {n : Nat} {s : State}, KeepsFlash a s → KeepsFlash a (drainWaiting n s p)
  | 0, _, h => h
  | n + 1, s, h => by
    unfold drainWaiting
    dsimp only
    repeat' split
    · exact h
    · exact drainWaiting_keeps (createWaiting_keeps h)
    · exact h

theorem flushRound_keeps {p : Nat} (h : KeepsFlash a s) : KeepsFlash a (flushRound s p) := by
  dsimp only [flushRound, updFaultQ]
  repeat' split
  · exact drainWaiting_keeps (writeClosed_keeps (writeClosed_keeps h))
  · exact drainWaiting_keeps (writeClosed_keeps h)

theorem flushLoop_keeps {p : Nat} : ∀ {n : Nat} {s : State}, KeepsFlash a s → KeepsFlash a (flushLoop n s p)
  | 0, _, h => h
  | n + 1, s, h => by
    unfold flushLoop
    dsimp only
    split
    · exact h
    · exact flushLoop_keeps (flushRound_keeps h)

theorem flushFaults_keeps {p : Nat} (h : KeepsFlash a s) : KeepsFlash a (flushFaults s p) := by
  dsimp only [flushFaults]
  exact flushLoop_keeps h

theorem pushRecord_keeps {p : Nat} {r : FaultRec} (h : KeepsFlash a s) : KeepsFlash a (pushRecord s p r) := by
  dsimp only [pushRecord, updFaultQ]
  repeat' split
  · exact flushFaults_keeps h
  · exact h

theorem raiseEvent_keeps {p code ctx : Nat} {noCtx : Bool} {object value : Nat} (h : KeepsFlash a s) :
    KeepsFlash a (raiseEvent s p code ctx noCtx object value) := by
  dsimp only [raiseEvent]
  repeat' split
  all_goals exact pushRecord_keeps h

theorem ctxEvent_keeps {ctx code object value : Nat} (h : KeepsFlash a s) : KeepsFlash a (ctxEvent s ctx code object value) := by
  dsimp only [ctxEvent]
  exact raiseEvent_keeps h

/-! ### Writes and promotion -/

theorem blockRecord_keeps {kind ctx slot block va : Nat} (h : KeepsFlash a s) : KeepsFlash a (blockRecord s kind ctx slot block va) := by
  dsimp only [blockRecord]
  exact pushRecord_keeps h

theorem writeLocal_keeps {key : Option Nat} {a' : Nat} {bs : List SByte} (h : KeepsFlash a s) : KeepsFlash a (writeLocal s key a' bs) := by
  dsimp only [writeLocal]
  repeat' split
  · exact h
  · apply foldl_keeps
    · intro _ _ h; exact h
    · exact h
  · exact h
  · exact h

theorem writeBank_keeps {w : Writer} {key : Option Nat} {a' : Nat} {bs : List SByte} (h : KeepsFlash a s) :
    KeepsFlash a (writeBank s w key a' bs) := by
  dsimp only [writeBank]
  repeat' split
  · exact h
  · exact writeLocal_keeps h

theorem markBlockWritten_keeps {ctx : Nat} {p : Piece} (h : KeepsFlash a s) : KeepsFlash a (markBlockWritten s ctx p) := by
  dsimp only [markBlockWritten, updSeg]
  repeat' split
  all_goals exact h

theorem writePiece_keeps {w : Writer} {ctx : Nat} {p : Piece} {bs : List SByte} (h : KeepsFlash a s) :
    KeepsFlash a (writePiece s w ctx p bs) := by
  dsimp only [writePiece]
  exact markBlockWritten_keeps (writeBank_keeps h)

theorem writeAtomic_keeps {ctx : Nat} {p : Piece} {bs : List SByte} (h : KeepsFlash a s) : KeepsFlash a (writeAtomic s ctx p bs) := by
  dsimp only [writeAtomic]
  exact markBlockWritten_keeps (writeLocal_keeps h)

theorem writePieces_keeps {w : Writer} {ctx : Nat} :
    ∀ {ps : List Piece} {s : State} {bs : List SByte}, KeepsFlash a s → KeepsFlash a (writePieces w ctx s ps bs)
  | [], _, _, h => h
  | _ :: ps, _, _, h => writePieces_keeps (ps := ps) (writePiece_keeps h)

theorem countHot_keeps {g : Segment} {b : Nat} (h : KeepsFlash a s) : KeepsFlash a (countHot s g b) := by
  dsimp only [countHot, freeHot]
  repeat' split
  · exact blockRecord_keeps h
  · exact h

theorem startPromotion_keeps {ctx slot b : Nat} (h : KeepsFlash a s) : KeepsFlash a (startPromotion s ctx slot b) := by
  dsimp only [startPromotion, acceptDrain, updSeg]
  repeat' split
  all_goals exact h

theorem touchBlock_keeps {ctx : Nat} {x : Nat × Nat} (h : KeepsFlash a s) : KeepsFlash a (touchBlock ctx s x) := by
  dsimp only [touchBlock]
  repeat' split
  · exact h
  · exact h
  · exact startPromotion_keeps h
  · exact startPromotion_keeps (countHot_keeps h)
  · exact h
  · exact countHot_keeps h

theorem touchBlocks_keeps {ctx : Nat} {ps : List Piece} (h : KeepsFlash a s) : KeepsFlash a (touchBlocks s ctx ps) := by
  dsimp only [touchBlocks]
  exact foldl_keeps touchBlock_keeps h

/-! ### Requests to partners -/

theorem addInflight_keeps {up : Bool} {x : Nat × Nat × Bool} (h : KeepsFlash a s) : KeepsFlash a (addInflight up s x) := by
  dsimp only [addInflight, updSeg]
  exact h

theorem setPartner_keeps {num : Nat} {st : PartnerSt} (h : KeepsFlash a s) : KeepsFlash a (setPartner s num st) := by
  dsimp only [setPartner, updPartner]
  repeat' split
  · exact h
  · exact raiseEvent_keeps h
  · exact h

theorem sendAttempt_keeps {num tag : Nat} (h : KeepsFlash a s) : KeepsFlash a (sendAttempt s num tag) := by
  dsimp only [sendAttempt, updPartner, updOut]
  repeat' split
  all_goals exact h

theorem sendWakeSet_keeps {num : Nat} (h : KeepsFlash a s) : KeepsFlash a (sendWakeSet s num) := by
  dsimp only [sendWakeSet, updPartner]
  repeat' split
  · exact h
  · apply foldl_keeps
    · intro _ _ h; exact h
    · exact h

theorem beginWake_keeps {num tag : Nat} (h : KeepsFlash a s) : KeepsFlash a (beginWake s num tag) := by
  dsimp only [beginWake, updPartner, updOut]
  repeat' split
  · exact sendWakeSet_keeps h
  · exact h
  · exact h
  · exact h

theorem pumpOne_keeps {num tag : Nat} (h : KeepsFlash a s) : KeepsFlash a (pumpOne num s tag) := by
  dsimp only [pumpOne]
  repeat' split
  · exact h
  · exact beginWake_keeps h
  · exact sendAttempt_keeps h
  · exact h
  · exact h

theorem pump_keeps {num : Nat} (h : KeepsFlash a s) : KeepsFlash a (pump s num) := by
  dsimp only [pump]
  exact foldl_keeps pumpOne_keeps h

theorem newRemote_keeps {num : Nat} {n : NewReq} (h : KeepsFlash a s) : KeepsFlash a (newRemote s num n).1 := by
  dsimp only [newRemote, updPartner]
  split
  · exact h
  · exact pumpOne_keeps (foldl_keeps addInflight_keeps h)

theorem dropOut_keeps {num tag : Nat} (h : KeepsFlash a s) : KeepsFlash a (dropOut s num tag) := by
  dsimp only [dropOut, updPartner, addInflight, updSeg]
  repeat' split
  · exact h
  · exact foldl_keeps addInflight_keeps h

/-! ### Requests and the release of their effects -/

theorem park_keeps {r : Request} (h : KeepsFlash a s) : KeepsFlash a (park s r) := by
  dsimp only [park, setReq, lowerRequests]
  repeat' split
  · exact h
  · exact writeBank_keeps h
  · exact writeBank_keeps h

theorem beginWait_keeps {r : Request} {w : Wait} (h : KeepsFlash a s) : KeepsFlash a (beginWait s r w) := by
  dsimp only [beginWait, setReq]
  repeat' split
  · exact park_keeps h
  · exact h
  · exact park_keeps h
  · exact h

theorem releaseBillet_keeps {ctx ring billet : Nat} (h : KeepsFlash a s) : KeepsFlash a (releaseBillet s ctx ring billet) := by
  dsimp only [releaseBillet, updRing]
  exact h

theorem readyRecord_keeps {r : PendingRec} (hr : isFlashWrite r = false) (h : KeepsFlash a s) : KeepsFlash a (readyRecord s r) := by
  refine records_keep (s := s) (fun x hx hf => ?_) h
  rcases mem_insertBy hx with rfl | hx
  · exact absurd (hr.symm.trans hf) Bool.false_ne_true
  · exact hx

theorem askHost_keeps {r : Request} (h : KeepsFlash a s) : KeepsFlash a (askHost s r) := by
  dsimp only [askHost, setReq]
  repeat' split
  all_goals exact h

theorem parkEnded_keeps {id : Nat} (h : KeepsFlash a s) : KeepsFlash a (parkEnded s id) := by
  dsimp only [parkEnded]
  repeat' split
  · exact park_keeps h
  · exact h
  · exact h

theorem parkOne_keeps {r : Request} (h : KeepsFlash a s) : KeepsFlash a (parkOne s r) := by
  dsimp only [parkOne]
  repeat' split
  · exact parkEnded_keeps h
  · exact beginWait_keeps h
  · exact h

theorem parkHeld_keeps {p : Nat} (h : KeepsFlash a s) : KeepsFlash a (parkHeld s p) := by
  dsimp only [parkHeld]
  apply foldl_keeps
  · intro _ _ h
    split
    · exact parkOne_keeps h
    · exact h
  · exact h

theorem parkRecords_keeps {cq : Nat} (h : KeepsFlash a s) : KeepsFlash a (parkRecords s cq) := by
  dsimp only [parkRecords]
  repeat' split
  · exact h
  · apply foldl_keeps
    · intro _ _ h
      repeat' split
      · exact parkEnded_keeps h
      · exact beginWait_keeps h
      · exact h
      · exact h
    · exact h

theorem settle_keeps {id : Nat} (h : KeepsFlash a s) : KeepsFlash a (settle s id) := by
  dsimp only [settle, setReq, askHost, closePart, addEntry, updLedger, closeEntries, judgeHeld]
  repeat' split
  · exact h
  · exact h
  · exact h
  · exact parkEnded_keeps h
  · exact h
  · exact h
  · exact h
  · exact parkRecords_keeps (readyRecord_keeps rfl h)
  · exact parkRecords_keeps (readyRecord_keeps rfl h)
  · exact parkRecords_keeps (readyRecord_keeps rfl h)
  · exact parkRecords_keeps (readyRecord_keeps rfl h)

theorem sendUpdate_keeps {ctr amount gen : Nat} {half : Half} {due : Mc} (h : KeepsFlash a s) :
    KeepsFlash a (sendUpdate s ctr amount gen half due) := by
  dsimp only [sendUpdate]
  repeat' split
  all_goals exact h

/-- The state that the release of an effect leads to. -/
def Released.state : Released → State
  | .more s => s
  | .done s => s
  | .failed s _ _ => s

theorem releaseHead_keeps {r : Request} (h : KeepsFlash a s) : KeepsFlash a (releaseHead s r).state := by
  unfold releaseHead
  dsimp only
  repeat' split
  all_goals dsimp only [Released.state, setReq]
  · exact h
  · exact sendUpdate_keeps (askHost_keeps h)
  · exact h
  · exact h
  · exact newRemote_keeps (askHost_keeps h)
  · exact newRemote_keeps (askHost_keeps h)
  · exact h
  · exact h
  · exact parkRecords_keeps (readyRecord_keeps rfl h)
  · exact parkRecords_keeps (readyRecord_keeps rfl h)
  · exact h

theorem releaseLoop_keeps {id : Nat} :
    ∀ {n : Nat} {s : State}, KeepsFlash a s → KeepsFlash a (releaseLoop n s id).state
  | 0, _, h => h
  | n + 1, s, h => by
    unfold releaseLoop
    split
    · exact h
    · rename_i r _
      have one := releaseHead_keeps (s := setReq s { r with effects := dropSent s.time r.effects })
        (r := { r with effects := dropSent s.time r.effects }) h
      dsimp only
      split
      · rename_i next
        rw [next] at one
        exact releaseLoop_keeps one
      · exact one

theorem loseBillets_keeps {ctx : Nat} {bs : List (Nat × Nat)} (h : KeepsFlash a s) : KeepsFlash a (loseBillets ctx s bs) := by
  dsimp only [loseBillets, updRing]
  apply foldl_keeps
  · intro _ _ h; exact h
  · exact h

theorem cutEffects_keeps {r : Request} {es : List Effect} (h : KeepsFlash a s) : KeepsFlash a (cutEffects s r es) := by
  dsimp only [cutEffects, setReq, freeHandleEntries]
  split
  · exact loseBillets_keeps h
  · exact loseBillets_keeps (records_keep (s := s) (fun _ hx _ => (List.mem_filter.1 hx).1) h)

theorem endCore_keeps {id status detail : Nat} {failed : List Nat} (h : KeepsFlash a s) :
    KeepsFlash a (endCore s id status detail failed) := by
  dsimp only [endCore, setReq, lowerRequests, releaseBillet, updRing]
  repeat' split
  · exact h
  · exact h
  · exact cutEffects_keeps (loseBillets_keeps (foldl_keeps releaseBillet_keeps h))
  · exact cutEffects_keeps (loseBillets_keeps (foldl_keeps releaseBillet_keeps h))

theorem failCore_keeps {id status word : Nat} {failed : List Nat} (h : KeepsFlash a s) :
    KeepsFlash a (failCore s id status word failed) := by
  dsimp only [failCore, setReq]
  repeat' split
  · exact h
  · exact endCore_keeps h
  · exact cutEffects_keeps h
  · exact cutEffects_keeps h

theorem releaseEffects_keeps {id : Nat} (h : KeepsFlash a s) : KeepsFlash a (releaseEffects s id) := by
  unfold releaseEffects
  split
  · exact h
  · rename_i r _
    have closed : KeepsFlash a (if ledgered s r.ctx then closeEntries s (partOfCtx s r.ctx) else s) := by
      split <;> exact h
    have released := releaseLoop_keeps (n := r.effects.length + 1) (id := id) closed
    dsimp only
    cases ends : releaseLoop (r.effects.length + 1) (if ledgered s r.ctx then closeEntries s (partOfCtx s r.ctx) else s) id <;>
      rw [ends] at released <;> split
    · exact parkHeld_keeps (settle_keeps released)
    · exact settle_keeps released
    · exact parkHeld_keeps (settle_keeps released)
    · exact settle_keeps released
    · exact parkHeld_keeps (settle_keeps (failCore_keeps released))
    · exact settle_keeps (failCore_keeps released)

theorem writeAnswered_keeps {id tag : Nat} (h : KeepsFlash a s) : KeepsFlash a (writeAnswered s id tag) := by
  dsimp only [writeAnswered, setReq, mapEntryNeeds, updLedger]
  repeat' split
  · exact h
  · exact releaseEffects_keeps h

theorem endRequest_keeps {id status detail : Nat} {failed : List Nat} (h : KeepsFlash a s) :
    KeepsFlash a (endRequest s id status detail failed) := by
  dsimp only [endRequest]
  exact releaseEffects_keeps (endCore_keeps h)

theorem failWrite_keeps {id tag status word : Nat} (h : KeepsFlash a s) : KeepsFlash a (failWrite s id tag status word) := by
  dsimp only [failWrite, mapEntryNeeds, updLedger]
  repeat' split
  · exact h
  · exact releaseEffects_keeps (failCore_keeps h)

/-! ### Store buffer and SIG -/

theorem releaseSig_keeps {x : StoreSig} (h : KeepsFlash a s) : KeepsFlash a (releaseSig s x) := by
  dsimp only [releaseSig]
  repeat' split
  · exact sendUpdate_keeps h
  · exact newRemote_keeps (h)
  · exact h

theorem releaseSigs_keeps (h : KeepsFlash a s) : KeepsFlash a (releaseSigs s) := by
  dsimp only [releaseSigs]
  exact foldl_keeps releaseSig_keeps h

theorem freeStore_keeps {id : Nat} (h : KeepsFlash a s) : KeepsFlash a (freeStore s id) := by
  dsimp only [freeStore]
  exact releaseSigs_keeps h

theorem closeStore_keeps {id : Nat} (h : KeepsFlash a s) : KeepsFlash a (closeStore s id) := by
  dsimp only [closeStore]
  repeat' split
  · exact freeStore_keeps h
  · exact h
  · exact h

theorem wakePiece_keeps {p : Piece} (h : KeepsFlash a s) : KeepsFlash a (wakePiece s p) := by
  dsimp only [wakePiece]
  repeat' split
  · exact wakeHalf_keeps h
  · exact h

theorem storePiece_keeps {w : Writer} {ctx : Nat} {p : Piece} {bs : List (Byte × Bool)} (h : KeepsFlash a s) :
    KeepsFlash a (storePiece s w ctx p bs) := by
  dsimp only [storePiece]
  repeat' split
  · exact markBlockWritten_keeps (wakePiece_keeps h)
  · exact writePiece_keeps (wakePiece_keeps h)

/-! ### Records -/

theorem signalRecord_keeps {q p : Nat} {irq : Bool} (h : KeepsFlash a s) : KeepsFlash a (signalRecord s q p irq) := by
  dsimp only [signalRecord, updCq, sendMsix]
  repeat' split
  all_goals exact h

theorem retireRequest_keeps {id status : Nat} (h : KeepsFlash a s) : KeepsFlash a (retireRequest s id status) := by
  dsimp only [retireRequest, removeReq, updSq]
  repeat' split
  all_goals exact h

theorem afterRecord_keeps {r : PendingRec} (h : KeepsFlash a s) : KeepsFlash a (afterRecord s r) := by
  dsimp only [afterRecord, popEffect, setReq]
  repeat' split
  · exact releaseEffects_keeps (retireRequest_keeps h)
  · exact releaseEffects_keeps (retireRequest_keeps h)
  · exact releaseEffects_keeps (retireRequest_keeps h)
  · exact releaseEffects_keeps (retireRequest_keeps h)
  · exact releaseEffects_keeps h
  · exact releaseEffects_keeps h
  · exact releaseEffects_keeps h
  · exact releaseEffects_keeps h
  · exact retireRequest_keeps h
  · exact h
  · exact retireRequest_keeps h
  · exact h

theorem dropRecord_keeps {cq : Nat} (h : KeepsFlash a s) : KeepsFlash a (dropRecord s cq) :=
  records_keep (s := s) (fun _ hx _ => mem_of_mem_dropFirst hx) h

theorem discardRecord_keeps {cq p : Nat} {r : PendingRec} (h : KeepsFlash a s) : KeepsFlash a (discardRecord s cq p r) := by
  dsimp only [discardRecord, updCq]
  exact afterRecord_keeps (raiseEvent_keeps (dropRecord_keeps h))

theorem writeRecord_keeps {cq : Nat} (h : KeepsFlash a s) : KeepsFlash a (writeRecord s cq) := by
  dsimp only [writeRecord, hostWrite, updSeenCq, updCq]
  repeat' split
  · exact discardRecord_keeps h
  · exact parkRecords_keeps h
  · exact parkRecords_keeps (afterRecord_keeps (signalRecord_keeps (dropRecord_keeps h)))
  · exact h

theorem adminRecord_keeps {p tag : Nat} {irq : Bool} {status detail bytes : Nat} (h : KeepsFlash a s) :
    KeepsFlash a (adminRecord s p tag irq status detail bytes) := by
  dsimp only [adminRecord]
  exact readyRecord_keeps rfl h

theorem finishOp_keeps {o : AdminOp} {status detail : Nat} (h : KeepsFlash a s) : KeepsFlash a (finishOp s o status detail) := by
  dsimp only [finishOp, removeOp]
  exact adminRecord_keeps h

/-! ### Loop test -/

theorem endLoop_keeps (h : KeepsFlash a s) : KeepsFlash a (endLoop s) := by
  dsimp only [endLoop]
  repeat' split
  all_goals exact h

theorem lineReturned_keeps {j : Nat} {data : List Byte} {bad : Bool} (h : KeepsFlash a s) : KeepsFlash a (lineReturned s j data bad) := by
  dsimp only [lineReturned]
  repeat' split
  · exact h
  · exact endLoop_keeps h
  · exact endLoop_keeps h
  · exact endLoop_keeps h

theorem stopLoop_keeps {state status : Nat} (h : KeepsFlash a s) : KeepsFlash a (stopLoop s state status) := by
  dsimp only [stopLoop]
  repeat' split
  all_goals exact h

theorem abortLoop_keeps (h : KeepsFlash a s) : KeepsFlash a (abortLoop s) := by
  dsimp only [abortLoop]
  exact stopLoop_keeps h

theorem sendGroup_keeps {isWrite : Bool} {j : Nat} (h : KeepsFlash a s) : KeepsFlash a (sendGroup s isWrite j) := by
  dsimp only [sendGroup]
  repeat' split
  all_goals exact foldl_keeps newRemote_keeps h

theorem groupAnswered_keeps {isWrite : Bool} {line : Nat} {data : List SByte} (h : KeepsFlash a s) :
    KeepsFlash a (groupAnswered s isWrite line data) := by
  dsimp only [groupAnswered]
  repeat' split
  · exact h
  · exact sendGroup_keeps h
  · exact foldl_keeps lineReturned_keeps h
  · exact sendGroup_keeps (foldl_keeps lineReturned_keeps h)
  · exact foldl_keeps lineReturned_keeps h

theorem loopBack_keeps {j : Nat} {flips : List Byte} (h : KeepsFlash a s) : KeepsFlash a (loopBack s j flips).1 := by
  dsimp only [loopBack]
  split
  · exact writeLocal_keeps h
  · exact h

/-! ### Reductions -/

theorem storeChunk_keeps {d : RedCfg} {rank off : Nat} {bs : List SByte} (h : KeepsFlash a s) :
    KeepsFlash a (storeChunk s d rank off bs) := by
  dsimp only [storeChunk]
  exact writeBank_keeps h

theorem accumulate_keeps {d : RedCfg} (h : KeepsFlash a s) : KeepsFlash a (accumulate s d) := by
  dsimp only [accumulate]
  exact writeBank_keeps h

theorem destRemote_keeps {d : RedCfg} {e : Nat} {segs : List (Nat × Nat × Bool)} {p : Piece} {bs : List SByte} (h : KeepsFlash a s) :
    KeepsFlash a (destRemote s d e segs p bs) := by
  dsimp only [destRemote]
  repeat' split
  · exact h
  · exact foldl_keeps newRemote_keeps h

theorem destPieces_keeps {d : RedCfg} {e : Nat} {segs : List (Nat × Nat × Bool)} :
    ∀ {ps : List Piece} {s : State} {bs : List SByte}, KeepsFlash a s → KeepsFlash a (destPieces d e segs s ps bs)
  | [], _, _, h => h
  | p :: ps, s, bs, h => by
    unfold destPieces
    dsimp only
    split
    · exact destPieces_keeps (destRemote_keeps h)
    · exact destPieces_keeps (storePiece_keeps h)

theorem writeDest_keeps {d : RedCfg} {e : Nat} {bs : List SByte} {u : State} (h : KeepsFlash a s) (w : writeDest s d e bs = some u) :
    KeepsFlash a u := by
  dsimp only [writeDest] at w
  split at w
  · cases w
    exact touchBlocks_keeps (destPieces_keeps h)
  · cases w
  · cases w
    exact h

theorem signalEpoch_keeps {d : RedCfg} (h : KeepsFlash a s) : KeepsFlash a (signalEpoch s d) := by
  dsimp only [signalEpoch]
  repeat' split
  · exact h
  · exact sendUpdate_keeps h
  · exact h

theorem epochEvent_keeps {d : RedCfg} {x : EpochSt} {refused : Bool} (h : KeepsFlash a s) : KeepsFlash a (epochEvent s d x refused) := by
  dsimp only [epochEvent]
  repeat' split
  all_goals exact ctxEvent_keeps h

theorem spoilEpoch_keeps {d : RedCfg} {x : EpochSt} {refused : Bool} (h : KeepsFlash a s) :
    KeepsFlash a (spoilEpoch s d x refused) := by
  dsimp only [spoilEpoch, setEpoch]
  split
  · exact h
  · rename_i written
    exact epochEvent_keeps (signalEpoch_keeps (writeDest_keeps h written))

theorem sumEpoch_keeps {d : RedCfg} {x : EpochSt} (h : KeepsFlash a s) : KeepsFlash a (sumEpoch s d x) := by
  dsimp only [sumEpoch, setEpoch]
  repeat' split
  · rename_i u written
    exact writeDest_keeps (u := u) h written
  · exact h
  · exact h

theorem takeChunk_keeps {d : RedCfg} {k : Chunk} (h : KeepsFlash a s) : KeepsFlash a (takeChunk s d k).1 := by
  have late : ∀ {got : List (Nat × Nat)},
      KeepsFlash a (if got.any fun r => r.1 == k.rank && r.2 == k.off then (s, stBadProgram, true)
        else (s, stPartnerTimeout, false)).1 := by
    intro _
    split <;> exact h
  have summed : ∀ {y : EpochSt} {old : Nat}, KeepsFlash a (sumEpoch
      (if leadingRanks d y > old then accumulate (storeChunk (setEpoch s y) d k.rank k.off k.data) d
        else storeChunk (setEpoch s y) d k.rank k.off k.data) d y) := by
    intro y _
    have stored : KeepsFlash a (storeChunk (setEpoch s y) d k.rank k.off k.data) := storeChunk_keeps h
    split
    · exact sumEpoch_keeps (accumulate_keeps stored)
    · exact sumEpoch_keeps stored
  unfold takeChunk
  dsimp only
  split
  · exact h
  split
  · split
    · exact h
    · split
      · exact late
      · exact h
  split
  · exact h
  split
  · exact late
  split
  · exact h
  split
  · exact spoilEpoch_keeps h
  · exact summed

theorem destFailed_keeps {ctx red e : Nat} (h : KeepsFlash a s) : KeepsFlash a (destFailed s ctx red e) := by
  dsimp only [destFailed, setEpoch]
  repeat' split
  all_goals exact h

theorem resetEpochs_keeps {half : Half} (h : KeepsFlash a s) : KeepsFlash a (resetEpochs s half) := by
  dsimp only [resetEpochs, setEpoch]
  apply foldl_keeps
  · intro _ _ h
    split
    · exact epochEvent_keeps h
    · exact h
  · exact h

theorem chunkAtHome_keeps {e : ExportCfg} {fmt : Nat} {k : Chunk} (h : KeepsFlash a s) :
    KeepsFlash a (chunkAtHome s e fmt k).1 := by
  dsimp only [chunkAtHome]
  repeat' split
  · exact h
  · exact h
  · exact takeChunk_keeps h
  · exact h

/-! ### Partner records -/

theorem storeAnswered_keeps {id num tag : Nat} (h : KeepsFlash a s) : KeepsFlash a (storeAnswered s id num tag) := by
  dsimp only [storeAnswered, updStore]
  exact closeStore_keeps h

theorem outFailed_keeps {o : OutReq} {status : Nat} (h : KeepsFlash a s) : KeepsFlash a (outFailed s o status) := by
  dsimp only [outFailed, storeFailed, relayDone, updStore]
  repeat' split
  · exact stopLoop_keeps (dropOut_keeps h)
  · exact dropOut_keeps h
  · exact dropOut_keeps h
  · exact dropOut_keeps h
  · exact destFailed_keeps (dropOut_keeps h)
  · exact failWrite_keeps (dropOut_keeps h)
  · exact dropOut_keeps h

theorem failAll_keeps {num status : Nat} (h : KeepsFlash a s) : KeepsFlash a (failAll s num status) := by
  dsimp only [failAll]
  exact foldl_keeps outFailed_keeps h

theorem fencePartner_keeps {num recent : Nat} (h : KeepsFlash a s) : KeepsFlash a (fencePartner s num recent) := by
  dsimp only [fencePartner]
  repeat' split
  · exact failAll_keeps (raiseEvent_keeps (setPartner_keeps h))
  · exact failAll_keeps (setPartner_keeps h)

theorem violate_keeps {num : Nat} (h : KeepsFlash a s) : KeepsFlash a (violate s num) := by
  dsimp only [violate, updPartner]
  repeat' split
  · exact h
  · exact fencePartner_keeps h
  · exact h

theorem startTraining_keeps {c : PartnerCfg} {path : Nat} (h : KeepsFlash a s) : KeepsFlash a (startTraining s c path) := by
  dsimp only [startTraining, updPartner]
  exact setPartner_keeps h

theorem dropPartner_keeps {num : Nat} (h : KeepsFlash a s) : KeepsFlash a (dropPartner s num) := by
  dsimp only [dropPartner]
  exact setPartner_keeps h

theorem makeAbsent_keeps {num : Nat} (h : KeepsFlash a s) : KeepsFlash a (makeAbsent s num) := by
  dsimp only [makeAbsent]
  exact pump_keeps (dropPartner_keeps h)

theorem linkTwin_keeps {o : OutReq} {new : Nat} (h : KeepsFlash a s) : KeepsFlash a (linkTwin s o new) := by
  dsimp only [linkTwin, setReq, mapEntryNeeds, updStore, updLedger]
  repeat' split
  all_goals exact h

theorem splitOut_keeps {o : OutReq} (h : KeepsFlash a s) : KeepsFlash a (splitOut s o) := by
  dsimp only [splitOut, updPartner, addInflight, updOut, updSeg]
  repeat' split
  · exact h
  · apply foldl_keeps
    · intro _ _ h
      exact linkTwin_keeps (foldl_keeps addInflight_keeps h)
    · exact h
  · exact h

theorem refitOut_keeps {o : OutReq} (h : KeepsFlash a s) : KeepsFlash a (refitOut s o) := by
  dsimp only [refitOut]
  repeat' split
  · exact h
  · exact outFailed_keeps h
  · exact splitOut_keeps h
  · exact h

theorem becomeActive_keeps {num : Nat} (h : KeepsFlash a s) : KeepsFlash a (becomeActive s num) := by
  dsimp only [becomeActive, updPartner]
  exact pump_keeps (foldl_keeps refitOut_keeps (setPartner_keeps h))

theorem checkHello_keeps {c : PartnerCfg} {f : Frame} (h : KeepsFlash a s) : KeepsFlash a (checkHello s c f) := by
  dsimp only [checkHello, updPartner]
  repeat' split
  · exact makeAbsent_keeps h
  · exact becomeActive_keeps h
  · exact h

theorem trainBy_keeps {c : PartnerCfg} {path : Nat} {f : Frame} (h : KeepsFlash a s) : KeepsFlash a (trainBy s c path f) := by
  dsimp only [trainBy]
  exact pump_keeps (checkHello_keeps (startTraining_keeps h))

theorem takeHello_keeps {c : PartnerCfg} {path : Nat} {bs : List Byte} (h : KeepsFlash a s) : KeepsFlash a (takeHello s c path bs) := by
  dsimp only [takeHello, updPartner, countDrop]
  repeat' split
  · exact h
  · exact h
  · exact trainBy_keeps h
  · exact checkHello_keeps h
  · exact trainBy_keeps (dropPartner_keeps h)
  · exact h
  · exact pump_keeps h
  · exact trainBy_keeps (dropPartner_keeps h)
  · exact h

/-! ### Requests and responses of partners -/

theorem respond_keeps {c : PartnerCfg} {path : Nat} {f : Frame} {status : Nat} {data : List SByte} (h : KeepsFlash a s) :
    KeepsFlash a (respond s c path f status data) := by
  dsimp only [respond, updPartner]
  repeat' split
  all_goals exact h

theorem streamWrite_keeps {c : PartnerCfg} {e : ExportCfg} {f : Frame} (h : KeepsFlash a s) : KeepsFlash a (streamWrite s c e f) := by
  dsimp only [streamWrite, closeStream, addEntry, updLedger, closeEntries, judgeHeld]
  repeat' split
  all_goals exact h

/-- The state that the answer to a request, or its wait, leaves. -/
def InRes.state : InRes → State
  | .reply s _ _ _ => s
  | .hold s _ => s

theorem relayOut_keeps {c0 : PartnerCfg} {e0 : ExportCfg} {x : Inbound} {f : Frame} {p : Piece} (h : KeepsFlash a s) :
    KeepsFlash a (relayOut s c0 e0 x f p).state := by
  dsimp only [relayOut]
  split
  · exact h
  · split
    · split
      · exact h
      · dsimp only [InRes.state]
        split
        · exact streamWrite_keeps h
        · exact h
    · split
      · exact h
      · split
        · exact h
        · split
          · exact h
          · exact List.foldlRecOn (motive := fun acc : State × List Nat => KeepsFlash a acc.1) _ _ h
              fun _ hacc _ _ => newRemote_keeps hacc

theorem inboundLinesAt_keeps {c : PartnerCfg} {e : ExportCfg} {f : Frame} {ps : List Piece} (h : KeepsFlash a s) :
    KeepsFlash a (inboundLinesAt s c e f ps) := by
  dsimp only [inboundLinesAt, addOthers]
  repeat' split
  all_goals exact h

theorem memoryAct_keeps {c : PartnerCfg} {e : ExportCfg} {x : Inbound} {f : Frame} {ps : List Piece} (h : KeepsFlash a s) :
    KeepsFlash a (memoryAct s c e x f ps).state := by
  have asked : KeepsFlash a
      (inboundLinesAt (if isWriteClass f.ty && anyLedgered s e.owner ps then streamWrite s c e f else s) c e f ps) := by
    split
    · exact inboundLinesAt_keeps (streamWrite_keeps h)
    · exact inboundLinesAt_keeps h
  unfold memoryAct
  dsimp only
  generalize inboundLinesAt _ c e f ps = s0 at asked ⊢
  repeat' split
  all_goals dsimp only [InRes.state]
  · exact h
  · exact h
  · exact touchBlocks_keeps asked
  · exact touchBlocks_keeps (writePieces_keeps asked)
  · exact writeAtomic_keeps asked
  · exact asked
  · exact asked

theorem memoryRequest_keeps {c : PartnerCfg} {e : ExportCfg} {va : Nat} {x : Inbound} {f : Frame} (h : KeepsFlash a s) :
    KeepsFlash a (memoryRequest s c e va x f).state := by
  have woken : ∀ {ps : List Piece}, KeepsFlash a (ps.foldl wakePiece s) := foldl_keeps wakePiece_keeps h
  unfold memoryRequest
  dsimp only
  repeat' split
  · exact h
  · exact h
  · exact h
  · exact h
  · exact h
  · exact relayOut_keeps woken
  · exact woken
  · exact woken
  · exact startPromotion_keeps woken
  · exact memoryAct_keeps woken
  · exact memoryAct_keeps woken
  · exact h

theorem signalRequest_keeps {c : PartnerCfg} {e : ExportCfg} {vid : Nat} {half : Half} {f : Frame} (h : KeepsFlash a s) :
    KeepsFlash a (signalRequest s c e vid half f).state := by
  dsimp only [signalRequest]
  repeat' split
  all_goals dsimp only [InRes.state, closeStream, addEntry, closeEntries, judgeHeld, updLedger, waitForEntry]
  · exact h
  · exact h
  · exact sendUpdate_keeps h
  · exact h

theorem reduceRequest_keeps {c : PartnerCfg} {e : ExportCfg} {f : Frame} (h : KeepsFlash a s) :
    KeepsFlash a (reduceRequest s c e f).state := chunkAtHome_keeps h

theorem carryOut_keeps {c : PartnerCfg} {x : Inbound} {f : Frame} (h : KeepsFlash a s) : KeepsFlash a (carryOut s c x f).state := by
  unfold carryOut
  repeat' split
  · exact h
  · exact h
  · exact h
  · exact memoryRequest_keeps h
  · exact signalRequest_keeps h
  · exact reduceRequest_keeps h

theorem serve_keeps {x : Inbound} (h : KeepsFlash a s) : KeepsFlash a (serve s x) := by
  unfold serve
  split
  · rename_i c f _ _
    have carried := carryOut_keeps (c := c) (x := x) (f := f) h
    split <;> rename_i ends <;> rw [ends] at carried
    · dsimp only
      split
      · exact violate_keeps (respond_keeps carried)
      · exact respond_keeps carried
    · exact carried
  · exact h

theorem retryInbound_keeps (h : KeepsFlash a s) : KeepsFlash a (retryInbound s) := by
  dsimp only [retryInbound]
  apply foldl_keeps
  · intro _ _ h
    split
    · exact serve_keeps h
    · exact h
  · exact h

theorem settleRelays_keeps : ∀ {n : Nat} {s : State}, KeepsFlash a s → KeepsFlash a (settleRelays n s)
  | 0, _, h => h
  | n + 1, s, h => by
    unfold settleRelays
    split
    · exact settleRelays_keeps (retryInbound_keeps h)
    · exact h

theorem helloArrives_keeps {f : RxFrame} (h : KeepsFlash a s) : KeepsFlash a (helloArrives s f) := by
  dsimp only [helloArrives, countDrop, updPartner]
  repeat' split
  · exact h
  · exact settleRelays_keeps (takeHello_keeps h)
  · exact h
  · exact h
  · exact h

theorem takeRequest_keeps {c : PartnerCfg} {p : Partner} {x : RxFrame} (h : KeepsFlash a s) : KeepsFlash a (takeRequest s c p x) := by
  dsimp only [takeRequest]
  repeat' split
  · exact violate_keeps h
  · exact violate_keeps h
  · exact h
  · exact h
  · exact h
  · exact serve_keeps h

theorem requestFrame_keeps {f : RxFrame} (h : KeepsFlash a s) : KeepsFlash a (requestFrame s f) := by
  dsimp only [requestFrame, countDrop, updPartner]
  repeat' split
  · exact h
  · exact h
  · exact h
  · exact h
  · exact h
  · exact settleRelays_keeps (takeRequest_keeps h)

theorem readArrived_keeps {id tag addr : Nat} {bs : List SByte} (h : KeepsFlash a s) : KeepsFlash a (readArrived s id tag addr bs) := by
  dsimp only [readArrived, setReq]
  repeat' split
  all_goals exact h

theorem outAnswered_keeps {o : OutReq} {f : Frame} (h : KeepsFlash a s) : KeepsFlash a (outAnswered s o f) := by
  dsimp only [outAnswered, setReq, noteActive, relayDone]
  repeat' split
  · exact readArrived_keeps (dropOut_keeps h)
  · exact readArrived_keeps (dropOut_keeps h)
  · exact dropOut_keeps h
  · exact dropOut_keeps h
  · exact dropOut_keeps h
  · exact dropOut_keeps h
  · exact dropOut_keeps h
  · exact dropOut_keeps h
  · exact dropOut_keeps h
  · exact dropOut_keeps h
  · exact writeAnswered_keeps (dropOut_keeps h)
  · exact writeAnswered_keeps (dropOut_keeps h)
  · exact writeAnswered_keeps (dropOut_keeps h)
  · exact writeAnswered_keeps (dropOut_keeps h)
  · exact groupAnswered_keeps (dropOut_keeps h)
  · exact groupAnswered_keeps (dropOut_keeps h)
  · exact dropOut_keeps h
  · exact dropOut_keeps h
  · exact storeAnswered_keeps (dropOut_keeps h)
  · exact storeAnswered_keeps (dropOut_keeps h)
  · exact retryInbound_keeps (dropOut_keeps h)
  · exact retryInbound_keeps (dropOut_keeps h)
  · exact dropOut_keeps h
  · exact dropOut_keeps h

theorem outRefused_keeps {o : OutReq} {status : Nat} (h : KeepsFlash a s) : KeepsFlash a (outRefused s o status) := by
  dsimp only [outRefused, setReq]
  repeat' split
  · exact dropOut_keeps h
  · exact dropOut_keeps h
  · exact retryInbound_keeps (outFailed_keeps h)
  · exact outFailed_keeps h

theorem countOk_keeps {num : Nat} (h : KeepsFlash a s) : KeepsFlash a (countOk s num) := by
  dsimp only [countOk, updPartner]
  repeat' split
  · exact setPartner_keeps h
  · exact h
  · exact h

theorem takeResponse_keeps {c : PartnerCfg} {p : Partner} {x : RxFrame} (h : KeepsFlash a s) : KeepsFlash a (takeResponse s c p x) := by
  dsimp only [takeResponse, updPartner]
  repeat' split
  · exact violate_keeps h
  · exact violate_keeps h
  · exact violate_keeps h
  · exact pump_keeps (outAnswered_keeps (countOk_keeps h))
  · exact pump_keeps (outRefused_keeps (countOk_keeps h))
  · exact h
  · exact violate_keeps h

theorem responseFrame_keeps {f : RxFrame} (h : KeepsFlash a s) : KeepsFlash a (responseFrame s f) := by
  dsimp only [responseFrame, countDrop, updPartner]
  repeat' split
  · exact h
  · exact h
  · exact h
  · exact h
  · exact h
  · exact h
  · exact settleRelays_keeps (takeResponse_keeps h)

theorem anyFrame_keeps {f : RxFrame} (h : KeepsFlash a s) : KeepsFlash a (anyFrame s f) := by
  dsimp only [anyFrame]
  repeat' split
  · exact helloArrives_keeps h
  · exact responseFrame_keeps h
  · exact requestFrame_keeps h

theorem serveQueued_keeps {half : Half} (h : KeepsFlash a s) : KeepsFlash a (serveQueued s half) := by
  dsimp only [serveQueued]
  exact foldl_keeps anyFrame_keeps h

/-! ### Ledger -/

theorem appendEntry_keeps {p kind : Nat} {bs : List Byte} (h : KeepsFlash a s) : KeepsFlash a (appendEntry s p kind bs) := by
  dsimp only [appendEntry, hostWrite, updLedger, sendMsix]
  repeat' split
  all_goals exact h

theorem writeSeal_keeps {p : Nat} (h : KeepsFlash a s) : KeepsFlash a (writeSeal s p) := by
  dsimp only [writeSeal]
  exact appendEntry_keeps h

theorem judgeRoom_keeps {p : Nat} (h : KeepsFlash a s) : KeepsFlash a (judgeRoom s p) := by
  dsimp only [judgeRoom, judgeHeld, updLedger]
  exact parkHeld_keeps h

theorem sealNext_keeps {p : Nat} (h : KeepsFlash a s) : KeepsFlash a (sealNext s p) := by
  have sealed : KeepsFlash a (writeSeal s p) := writeSeal_keeps h
  dsimp only [sealNext, updLedger]
  split
  · exact adminRecord_keeps sealed
  · exact sealed

theorem entryWritten_keeps {e : LedEntry} {seq : Nat} (h : KeepsFlash a s) : KeepsFlash a (entryWritten s e seq) := by
  dsimp only [entryWritten, setReq]
  repeat' split
  · exact foldl_keeps sendUpdate_keeps h
  · exact settle_keeps h
  · exact settle_keeps h
  · exact h

theorem closeEntry_keeps {p : Nat} (h : KeepsFlash a s) : KeepsFlash a (closeEntry s p) := by
  dsimp only [closeEntry, updLedger]
  repeat' split
  · exact h
  · exact entryWritten_keeps (appendEntry_keeps h)

theorem nextEntry_keeps {p : Nat} (h : KeepsFlash a s) : KeepsFlash a (nextEntry s p) := by
  dsimp only [nextEntry, updLedger]
  repeat' split
  · exact judgeRoom_keeps (appendEntry_keeps h)
  · exact judgeRoom_keeps (sealNext_keeps h)
  · exact judgeRoom_keeps (closeEntry_keeps h)

/-! ### Resets -/

theorem intRecord_keeps {r : IntRec} {react : Nat} (h : KeepsFlash a s) : KeepsFlash a (intRecord s r react) := by
  dsimp only [intRecord]
  exact h

theorem sameFuses_keeps {s' : State} (h : KeepsFlash a s) (h' : KeepsFlash a s') : KeepsFlash a (sameFuses s s') :=
  ⟨h.1, h'.2⟩

theorem endAllRequests_keeps (h : KeepsFlash a s) : KeepsFlash a (endAllRequests s) := by
  dsimp only [endAllRequests]
  apply foldl_keeps
  · intro _ _ h
    split
    · exact endRequest_keeps h
    · exact h
  · exact h

theorem flushLedger_keeps {p : Nat} : ∀ {n : Nat} {s : State}, KeepsFlash a s → KeepsFlash a (flushLedger n s p)
  | 0, _, h => h
  | n + 1, s, h => by
    unfold flushLedger
    split
    · exact flushLedger_keeps (nextEntry_keeps h)
    · exact h

theorem flushRecords_keeps {cq : Nat} : ∀ {n : Nat} {s : State}, KeepsFlash a s → KeepsFlash a (flushRecords n s cq)
  | 0, _, h => h
  | n + 1, s, h => by
    unfold flushRecords
    split
    · exact flushRecords_keeps (writeRecord_keeps h)
    · exact h

theorem flushAll_keeps (h : KeepsFlash a s) : KeepsFlash a (flushAll s) := by
  dsimp only [flushAll]
  exact foldl_keeps flushRecords_keeps (foldl_keeps flushLedger_keeps h)

theorem resetCtx_keeps {c : CtxCfg} (h : KeepsFlash a s) : KeepsFlash a (resetCtx s c) := by
  dsimp only [resetCtx, updCtx]
  repeat' split
  · exact finishOp_keeps h
  · exact h

theorem resetHalfRequest_keeps {r : Request} (h : KeepsFlash a s) : KeepsFlash a (resetHalfRequest s r) := by
  dsimp only [resetHalfRequest]
  exact releaseEffects_keeps (foldl_keeps dropOut_keeps (endRequest_keeps h))

theorem clearHalf_keeps {half : Half} (h : KeepsFlash a s) : KeepsFlash a (clearHalf s half) := by
  dsimp only [clearHalf, unstall, clearHalfBuffers]
  exact h

theorem dropPartners_keeps {half : Half} (h : KeepsFlash a s) : KeepsFlash a (dropPartners s half) := by
  dsimp only [dropPartners]
  exact foldl_keeps makeAbsent_keeps h

theorem dropPorts_keeps {half : Half} (h : KeepsFlash a s) : KeepsFlash a (dropPorts s half) := by
  dsimp only [dropPorts]
  exact foldl_keeps releaseEffects_keeps (foldl_keeps closeStore_keeps h)

theorem startHalfReset_keeps {half : Half} (h : KeepsFlash a s) : KeepsFlash a (startHalfReset s half) := by
  unfold startHalfReset
  extract_lets s1 s2 u s3 s4 s5
  have k1 : KeepsFlash a s1 := foldl_keeps resetCtx_keeps (abortLoop_keeps h)
  clear_value s1
  have k2 : KeepsFlash a s2 := foldl_keeps resetHalfRequest_keeps k1
  clear_value s2
  have kept : KeepsFlash a u := resetEpochs_keeps k2
  clear_value u
  have k3 : KeepsFlash a s3 := dropPorts_keeps kept
  clear_value s3
  have k4 : KeepsFlash a s4 := foldl_keeps updCtr_keeps k3
  clear_value s4
  have k5 : KeepsFlash a s5 := clearHalf_keeps (dropPartners_keeps k4)
  clear_value s5
  refine sameFuses_keeps h (wakeContexts_keeps ?_)
  exact k5

/-! ### Brownout and reactions of the integrity monitor -/

theorem brownout_keeps {half : Half} {mv : Nat} (h : KeepsFlash a s) : KeepsFlash a (brownout s half mv) := by
  dsimp only [brownout, powerRecord]
  repeat' split
  all_goals exact h

theorem recoverHalf_keeps {half : Half} (h : KeepsFlash a s) : KeepsFlash a (recoverHalf s half) := by
  dsimp only [recoverHalf]
  split
  · exact serveQueued_keeps (wakeHalf_keeps (raiseEvent_keeps h))
  · exact raiseEvent_keeps h

theorem quenchRequest_keeps {r : Request} (h : KeepsFlash a s) : KeepsFlash a (quenchRequest s r) := by
  dsimp only [quenchRequest, setReq, spoilWrites]
  repeat' split
  all_goals exact endRequest_keeps h

theorem quenchStream_keeps {x : InStream} (h : KeepsFlash a s) : KeepsFlash a (quenchStream s x) := by
  dsimp only [quenchStream, closeStream, addEntry, updLedger, closeEntries, judgeHeld]
  repeat' split
  all_goals exact h

theorem spoilSlot_keeps {c : RingCfg} {k : Nat} (h : KeepsFlash a s) : KeepsFlash a (spoilSlot s c k) := by
  dsimp only [spoilSlot]
  exact h

theorem spoilRing_keeps {c : RingCfg} (h : KeepsFlash a s) : KeepsFlash a (spoilRing s c) := by
  dsimp only [spoilRing, spoilSlot]
  repeat' split
  · exact foldl_keeps spoilSlot_keeps h
  · exact h

theorem quenchLoaded_keeps {ctx : Nat} (h : KeepsFlash a s) : KeepsFlash a (quenchLoaded s ctx) := by
  dsimp only [quenchLoaded, dropEpochs, quenchEntries, updCtx, updLedger]
  exact sameFuses_keeps h (foldl_keeps quenchStream_keeps (foldl_keeps spoilRing_keeps (foldl_keeps quenchRequest_keeps h)))

theorem quenchCtx_keeps {ctx : Nat} (h : KeepsFlash a s) : KeepsFlash a (quenchCtx s ctx) := by
  dsimp only [quenchCtx, updCtx]
  repeat' split
  · exact h
  · exact quenchLoaded_keeps h
  · exact h
  · exact h

theorem quenchEvents_keeps {ctxs : List Nat} {seq : Nat} (h : KeepsFlash a s) : KeepsFlash a (quenchEvents s ctxs seq) :=
  sameFuses_keeps h (foldl_keeps ctxEvent_keeps h)

theorem wakeMonitor_keeps {half : Half} (h : KeepsFlash a s) : KeepsFlash a (wakeMonitor s half) := by
  dsimp only [wakeMonitor, noteBusy]
  exact wakeEvent_keeps h

theorem countTongs_keeps {d : Detection} (h : KeepsFlash a s) : KeepsFlash a (countTongs s d) := by
  dsimp only [countTongs, retireSlice, intRecord]
  repeat' split
  all_goals exact h

theorem spoilEgress_keeps {unit : Nat} {lines : List Nat} (h : KeepsFlash a s) : KeepsFlash a (spoilEgress s unit lines) := by
  dsimp only [spoilEgress]
  apply foldl_keeps
  · intro _ _ h
    split <;> exact h
  · exact h

theorem deliverContained_keeps {d : Detection} (h : KeepsFlash a s) : KeepsFlash a (deliverContained s d) := by
  dsimp only [deliverContained, spoilLanding, spoilLines, updAnvil, spoilReads]
  repeat' split
  · exact h
  · exact h
  · exact spoilEgress_keeps h
  · exact h
  · exact h

theorem dropUpdate_keeps {d : Detection} (h : KeepsFlash a s) : KeepsFlash a (dropUpdate s d) := by
  dsimp only [dropUpdate]
  repeat' split
  all_goals exact h

end

end Sys2Proof.Machine
end

section
/-! The rollback value rises once at most in a step (R433), also where one step makes several resets: the reactions that waited for a
recovery may each reset the mover. The first of these resets cuts what FLASH_WRITE there is, so that the next ones find the same image,
whose rollback value the first has taken. -/

namespace Sys2Proof.Machine

/-- The configuration image that the flash holds. -/
def flashImage (s : State) : List Byte := flashRead s 0 (fieldAt (flashRead s 0 256) 12 4)

theorem flashImage_congr {s u : State} (h : u.flash = s.flash) : flashImage u = flashImage s := by
  unfold flashImage flashRead
  rw [h]

/-- An image that is accepted is the one that the flash holds. -/
theorem imageContents_of_checkImage {s : State} {answers : Bool} {c : Settings} (h : checkImage s answers = .valid c) :
    imageContents s.fuses (flashImage s) = .valid c := by
  unfold checkImage at h
  dsimp only at h
  repeat' split at h
  · cases h
  · cases h
  · cases h
  · exact h

/-- The rollback value has risen once, within the 64 rises (R433). -/
def RaisedBy (a b : Fuses) : Prop :=
  a.rises < 64 ∧ ∃ r, a.rollback < r ∧ b = { a with rollback := r, rises := a.rises + 1 }

/-- No start-up from this flash raises the rollback value again: a reset that cuts no FLASH_WRITE leaves the image as it is, and its
rollback value has been taken. -/
structure Spent (s : State) : Prop where
  whole : NoFlashWrite s.q.records
  taken : ∀ c, imageContents s.fuses (flashImage s) = .valid c → c.rollback ≤ s.fuses.rollback

/-- The fuses stand as in `f`, or have risen once and cannot rise again. -/
def RoseOnce (f : Fuses) (s : State) : Prop := s.fuses = f ∨ (RaisedBy f s.fuses ∧ Spent s)

theorem Spent.congr {s u : State} (h : Spent s) (hf : u.fuses = s.fuses) (hl : u.flash = s.flash)
    (hr : NoFlashWrite u.q.records) : Spent u :=
  ⟨hr, by rw [hf, flashImage_congr hl]; exact h.taken⟩

theorem RoseOnce.of_fuses {f : Fuses} {s : State} (h : s.fuses = f) : RoseOnce f s := .inl h

theorem RoseOnce.congr {f : Fuses} {s u : State} (h : RoseOnce f s) (hf : u.fuses = s.fuses) (hl : Spent s → u.flash = s.flash)
    (hr : Spent s → NoFlashWrite u.q.records) : RoseOnce f u := by
  obtain same | ⟨raised, spent⟩ := h
  · exact .inl (hf.trans same)
  · exact .inr ⟨hf ▸ raised, spent.congr hf (hl spent) (hr spent)⟩

/-- What keeps the fuses, the flash and the records of FLASH_WRITE keeps the fuses from a second rise. -/
theorem RoseOnce.keeps {f : Fuses} {s u : State} (h : RoseOnce f s) (k : KeepsFlash s u) : RoseOnce f u := by
  obtain ⟨hf, hl, hr⟩ := k
  exact h.congr hf (fun _ => hl) fun spent => hr spent.whole

theorem RoseOnce.foldl {f : Fuses} {β : Type} {g : State → β → State} (step : ∀ {u x}, RoseOnce f u → RoseOnce f (g u x))
    {l : List β} {s : State} (h : RoseOnce f s) : RoseOnce f (l.foldl g s) :=
  List.foldlRecOn (motive := fun u => RoseOnce f u) l g h fun _ hu _ _ => step hu

/-- The rise of the rollback value to that of the image in the flash. -/
theorem raiseFuse_roseOnce {f : Fuses} {s : State} {c : Settings} (h : RoseOnce f s) (whole : NoFlashWrite s.q.records)
    (stored : imageContents s.fuses (flashImage s) = .valid c) : RoseOnce f (raiseFuse s c) := by
  unfold raiseFuse
  split
  · rename_i rises
    have higher : s.fuses.rollback < c.rollback := of_decide_eq_true (Bool.and_eq_true_iff.1 rises).2
    obtain same | ⟨_, spent⟩ := h
    · split
      · rename_i few
        refine .inr ⟨same ▸ ⟨few, _, higher, rfl⟩, whole, fun c' hc' => ?_⟩
        exact (ImageCheck.valid.inj (stored.symm.trans hc')) ▸ le_rfl
      · exact .inl same
    · exact absurd (spent.taken c stored) higher.not_ge
  · exact h

theorem noFlashWrite_nil : NoFlashWrite [] := fun _ hx => nomatch hx

theorem takeImage_roseOnce {f : Fuses} {s : State} {chk : ImageCheck} {kept : Nat → Option Nat} (h : RoseOnce f s)
    (stored : ∀ c, chk = .valid c → imageContents s.fuses (flashImage s) = .valid c) : RoseOnce f (takeImage s chk kept) := by
  cases chk with
  | fails r => exact h.congr rfl (fun _ => rfl) Spent.whole
  | valid c =>
    exact raiseFuse_roseOnce (h.congr rfl (fun _ => rfl) fun _ => noFlashWrite_nil) noFlashWrite_nil (stored c rfl)

theorem startRun_roseOnce {f : Fuses} {s : State} {fails : List Slice} (h : RoseOnce f s) :
    RoseOnce f (fails.foldl retireSlice (enterRun s)) := by
  apply RoseOnce.foldl
  · intro _ _ h
    exact h.congr rfl (fun _ => rfl) Spent.whole
  · exact h.congr rfl (fun _ => rfl) Spent.whole

theorem cutFlash_roseOnce {f : Fuses} {s : State} (h : RoseOnce f s) : RoseOnce f (cutFlash s) := by
  refine h.congr rfl (fun spent => ?_) fun spent x hx => spent.whole x (List.mem_filter.1 hx).1
  have none : s.q.records.filter isFlashWrite = [] := List.filter_eq_nil_iff.2 fun x hx => by simp [spent.whole x hx]
  dsimp only [cutFlash]
  rw [none]
  rfl

/-- A restart from a state with the fuses and the flash of `s`. -/
theorem restart_roseOnce {f : Fuses} {s t : State} {env : StartEnv} {fromFlash : Bool} {last : Nat} (h : RoseOnce f s)
    (hf : t.fuses = s.fuses) (hl : t.flash = s.flash) : RoseOnce f (restart t env fromFlash last) := by
  have cleared {m l g st} : RoseOnce f (clearRun { t with mem := m, ledgers := l, integ := g, status := st }) :=
    h.congr hf (fun _ => hl) fun _ => noFlashWrite_nil
  unfold restart
  dsimp only
  refine startRun_roseOnce ?_
  split
  · exact h.congr hf (fun _ => hl) fun _ => noFlashWrite_nil
  · exact takeImage_roseOnce cleared fun c valid => imageContents_of_checkImage (s := t) valid

/-! ### Resets -/

theorem passUntil_flash (p : State → Bool) : ∀ (n : Nat) (s : State), (passUntil p n s).flash = s.flash
  | 0, _ => rfl
  | n + 1, s => by
    unfold passUntil
    split
    · rfl
    · split
      · exact (passUntil_flash p n _).trans (atTime_flash s _)
      · rfl

theorem whenReady_flash (s : State) (t : Mc) (p : State → Bool) : (whenReady s t p).flash = s.flash := by
  unfold whenReady
  dsimp only
  split
  · exact (passUntil_flash p _ _).trans (atTime_flash s t)
  · exact atTime_flash s t

theorem graceResponse_flash (last : Mc) (s : State) (r : Mc × RxFrame) : (graceResponse last s r).flash = s.flash := by
  unfold graceResponse
  split
  · have kept := responseFrame_keeps (f := r.2) (KeepsFlash.refl (atTime s r.1))
    exact kept.2.1.trans (atTime_flash s r.1)
  · rfl

theorem graceTime_flash (s : State) (env : StartEnv) : (graceTime s env).flash = s.flash := by
  refine (whenReady_flash _ _ _).trans ?_
  exact List.foldlRecOn (motive := fun u => u.flash = s.flash) _ _ rfl fun u hu r _ => (graceResponse_flash _ u r).trans hu

theorem warmReset_roseOnce {f : Fuses} {s : State} {env : StartEnv} {fromFlash : Bool} {last : Nat} (h : RoseOnce f s) :
    RoseOnce f (warmReset s env fromFlash last) := by
  have ended := endAllRequests_keeps (KeepsFlash.refl (cutFlash s))
  have flushed := flushAll_keeps (KeepsFlash.refl (graceTime (endAllRequests (cutFlash s)) env))
  have flash : (flushAll (graceTime (endAllRequests (cutFlash s)) env)).flash = (cutFlash s).flash :=
    flushed.2.1.trans ((graceTime_flash _ env).trans ended.2.1)
  refine restart_roseOnce (cutFlash_roseOnce h) rfl ?_
  dsimp only [sameFuses]
  exact flash

theorem monitorReset_roseOnce {f : Fuses} {s : State} {env : StartEnv} (h : RoseOnce f s) : RoseOnce f (monitorReset s env) :=
  warmReset_roseOnce (h.congr rfl (fun _ => rfl) Spent.whole)

theorem coldStart_roseOnce {f : Fuses} {s : State} {env : StartEnv} (h : RoseOnce f s) : RoseOnce f (coldStart s env) := by
  have cleared {m cp l g st pw} :
      RoseOnce f (clearRun { cutFlash s with mem := m, copy := cp, ledgers := l, integ := g, status := st, power := pw }) :=
    (cutFlash_roseOnce h).congr rfl (fun _ => rfl) fun _ => noFlashWrite_nil
  unfold coldStart
  dsimp only
  exact startRun_roseOnce (takeImage_roseOnce cleared fun c valid => imageContents_of_checkImage (s := cutFlash s) valid)

theorem brownoutReset_roseOnce {f : Fuses} {s : State} {half : Half} {mv : Nat} {env : StartEnv} (h : RoseOnce f s) :
    RoseOnce f (brownoutReset s half mv env) :=
  coldStart_roseOnce (h.congr rfl (fun _ => rfl) Spent.whole)

/-! ### Reactions of the integrity monitor -/

theorem intRecord_roseOnce {f : Fuses} {s : State} {r : IntRec} {react : Nat} (h : RoseOnce f s) : RoseOnce f (intRecord s r react) :=
  h.congr rfl (fun _ => rfl) Spent.whole

theorem countSeam_roseOnce {f : Fuses} {s : State} {d : Detection} {env : StartEnv} (h : RoseOnce f s) :
    RoseOnce f (countSeam s d env) := by
  unfold countSeam
  dsimp only
  repeat' split
  · exact h
  · exact h.congr rfl (fun _ => rfl) Spent.whole
  · exact monitorReset_roseOnce (intRecord_roseOnce (h.congr rfl (fun _ => rfl) Spent.whole))

theorem reactContained_roseOnce {f : Fuses} {s : State} {d : Detection} {env : StartEnv} (h : RoseOnce f s) :
    RoseOnce f (reactContained s d env) := by
  have counted : RoseOnce f (countContained s d) := h.congr rfl (fun _ => rfl) Spent.whole
  unfold reactContained
  dsimp only
  split
  · exact counted
  · have delivered := deliverContained_keeps (d := d) (KeepsFlash.refl (countContained s d))
    exact countSeam_roseOnce (counted.keeps (countTongs_keeps (intRecord_keeps delivered)))

theorem escalate_roseOnce {f : Fuses} {s : State} {r : IntRec} {env : StartEnv} (h : RoseOnce f s) : RoseOnce f (escalate s r env) := by
  unfold escalate
  split
  · exact monitorReset_roseOnce (intRecord_roseOnce h)
  · exact h.keeps (startHalfReset_keeps (intRecord_keeps (KeepsFlash.refl s)))

theorem reactQuench_roseOnce {f : Fuses} {s : State} {r : IntRec} {env : StartEnv} (h : RoseOnce f s) :
    RoseOnce f (reactQuench s r env) := by
  have quenched : KeepsFlash s (r.ctxs.foldl quenchCtx s) := foldl_keeps quenchCtx_keeps (KeepsFlash.refl s)
  unfold reactQuench quenchReact draw
  dsimp only
  split
  · refine escalate_roseOnce (h.keeps (quenchEvents_keeps ?_))
    exact quenched
  · refine h.keeps (quenchEvents_keeps (intRecord_keeps ?_))
    exact quenched

theorem reactUncontained_roseOnce {f : Fuses} {s : State} {d : Detection} {env : StartEnv} (h : RoseOnce f s) :
    RoseOnce f (reactUncontained s d env) := by
  have dropped := h.keeps (dropUpdate_keeps (d := d) (KeepsFlash.refl s))
  unfold reactUncontained
  dsimp only
  split
  · exact escalate_roseOnce dropped
  · exact reactQuench_roseOnce dropped

theorem onDetection_roseOnce {f : Fuses} {s : State} {d : Detection} {env : StartEnv} {react : State → Detection → StartEnv → State}
    (step : ∀ {u}, RoseOnce f u → RoseOnce f (react u d env)) (h : RoseOnce f s) : RoseOnce f (onDetection react s d env) := by
  have woken := h.keeps (wakeMonitor_keeps (half := d.half) (KeepsFlash.refl s))
  unfold onDetection
  dsimp only
  repeat' split
  · exact h
  · exact woken.congr rfl (fun _ => rfl) Spent.whole
  · exact step woken

theorem reactWaited_roseOnce {f : Fuses} {s : State} {x : Detection × StartEnv} (h : RoseOnce f s) : RoseOnce f (reactWaited s x) := by
  unfold reactWaited
  refine onDetection_roseOnce (fun hu => ?_) h
  split
  · exact reactContained_roseOnce hu
  · exact reactUncontained_roseOnce hu

theorem recovered_roseOnce {f : Fuses} {s : State} {half : Half} (h : RoseOnce f s) : RoseOnce f (recovered s half) := by
  have woken := h.keeps (recoverHalf_keeps (half := half) (KeepsFlash.refl s))
  unfold recovered
  dsimp only
  exact RoseOnce.foldl (g := reactWaited) reactWaited_roseOnce (woken.congr rfl (fun _ => rfl) Spent.whole)

theorem stageLevels_roseOnce {f : Fuses} {s : State} {half : Half} {mv : Nat} {env : StartEnv} (h : RoseOnce f s) :
    RoseOnce f (stageLevels s half mv env) := by
  unfold stageLevels
  repeat' split
  · exact brownoutReset_roseOnce h
  · exact h.keeps (brownout_keeps (KeepsFlash.refl s))
  · exact recovered_roseOnce h
  · exact h

theorem monitorLine_roseOnce {f : Fuses} {s : State} {bad : Bool} {env : StartEnv} (h : RoseOnce f s) :
    RoseOnce f (monitorLine s bad env) := by
  unfold monitorLine
  dsimp only
  repeat' split
  · exact h
  · exact reactContained_roseOnce h
  · exact intRecord_roseOnce h
  · exact h

theorem loopReturn_roseOnce {f : Fuses} {s : State} {line : Nat} {flips : List Byte} {bad : Bool} (h : RoseOnce f s) :
    RoseOnce f (loopReturn s line flips bad) := by
  have back := loopBack_keeps (j := line) (flips := flips) (KeepsFlash.refl s)
  unfold loopReturn
  split
  · exact h
  · exact h.keeps (lineReturned_keeps back)

/-! ### Commands -/

/-- Every state that the command ends in has the fuses of `s`, or those with the rollback value risen once. -/
def RisesOnce (s : State) (x : Result) : Prop := ∀ u, x = .next u → u.fuses = s.fuses ∨ RaisedBy s.fuses u.fuses

theorem RoseOnce.risen {f : Fuses} {s : State} (h : RoseOnce f s) : s.fuses = f ∨ RaisedBy f s.fuses := h.imp_right And.left

theorem Answered.risesOnce {s : State} {x : Result} (h : Answered s x) : RisesOnce s x := by
  intro v hv
  cases h with
  | answer u => exact .inl (answer_keeps s u v hv).2.1
  | fault f => cases hv

theorem answerStart_risesOnce {s u : State} (h : RoseOnce s.fuses u) : RisesOnce s (answerStart s u) := by
  rintro _ ⟨⟩
  exact h.risen

theorem popHeld_fuses (s : State) (q : Nat) : (popHeld s q).fuses = s.fuses := by
  dsimp only [popHeld, updSeenSq, updSq]
  repeat' split
  all_goals rfl

/-- Of the commands that run one at a time, only what an accepted entry does reaches the fuses. -/
theorem oneAtATime_risesOnce {fin : State → State → Result} {t : Mc} {p : Fin 16} {cmd : Nat} {s : State}
    {checks : State → List Byte → List (Nat × Nat)} {act : State → List Byte → State}
    (acts : ∀ {u e}, u.fuses = s.fuses → RisesOnce s (fin s (act u e))) : RisesOnce s (oneAtATime fin t p cmd s checks act) := by
  have popped : (popHeld (atTime s t) p.val).fuses = s.fuses := (popHeld_fuses _ _).trans (atTime_fuses s t)
  unfold oneAtATime withAdminBy
  dsimp only
  repeat' split
  · exact (Answered.answer _).risesOnce
  · exact (Answered.answer _).risesOnce
  · exact (Answered.answer _).risesOnce
  · exact (Answered.answer _).risesOnce
  · exact (Answered.answer _).risesOnce
  · exact acts popped

theorem flashWrite_risesOnce (t : Mc) (p : Fin 16) (programmed : Option Nat) (s : State) :
    RisesOnce s (execFlashWrite t p programmed s) := by
  refine oneAtATime_risesOnce fun {u e} hu => ?_
  rintro _ ⟨⟩
  exact .inl rfl

theorem reload_risesOnce (t : Mc) (p : Fin 16) (env : StartEnv) (s : State) : RisesOnce s (execReload t p env s) := by
  refine oneAtATime_risesOnce fun {u e} hu => answerStart_risesOnce ?_
  split
  · exact warmReset_roseOnce (.of_fuses hu)
  · exact .of_fuses hu

theorem warmReset_risesOnce (t : Mc) (p : Fin 16) (env : StartEnv) (s : State) : RisesOnce s (execWarmReset t p env s) :=
  oneAtATime_risesOnce fun hu => answerStart_risesOnce (warmReset_roseOnce (.of_fuses hu))

/-- Every command that may end in a start-up raises the rollback value once at most: a second reset in the same step finds the image whose
rollback value has been taken. -/
theorem startUp_risesOnce (c : Instr) (s : State) (hc : mayStartUp c = true) : RisesOnce s (exec c s) := by
  have answered (u : State) : RisesOnce s (answer s u) := (Answered.answer u).risesOnce
  have passed (t : Mc) : RoseOnce s.fuses (atTime s t) := .of_fuses (atTime_fuses s t)
  cases c
  case flashWrite t p programmed => exact flashWrite_risesOnce t p programmed s
  case reload t p env => exact reload_risesOnce t p env s
  case warmReset t p env => exact warmReset_risesOnce t p env s
  case coldStart t env =>
    dsimp only [exec, execColdStart]
    split
    · exact answerStart_risesOnce (coldStart_roseOnce (.of_fuses rfl))
    · exact answered _
  case powerLoss t =>
    dsimp only [exec, execPowerLoss]
    split
    · exact answered _
    · exact answerStart_risesOnce (.of_fuses (atTime_fuses s t))
  case warmRstN t env =>
    dsimp only [exec, execWarmRstN]
    split
    · exact answered _
    · refine answerStart_risesOnce (warmReset_roseOnce (.of_fuses ?_))
      split
      · exact (wakeBanked_fuses _ _).trans (atTime_fuses s t)
      · dsimp only [latchWake]
        split <;> exact atTime_fuses s t
  case clock t count env =>
    dsimp only [exec, execClock, draw]
    split
    · exact answered _
    · exact answerStart_risesOnce (monitorReset_roseOnce (.of_fuses (atTime_fuses s t)))
  case stagePoll t half rail statusWord reading =>
    dsimp only [exec, execStagePoll]
    split
    · exact answered _
    · refine answerStart_risesOnce ?_
      split
      · exact stageLevels_roseOnce (.of_fuses (atTime_fuses s t))
      · exact .of_fuses (atTime_fuses s t)
  case brownoutRecovery t half millivolts =>
    dsimp only [exec, execBrownoutRecovery]
    split
    · exact answered _
    · exact answerStart_risesOnce (recovered_roseOnce (passed t))
  case brownoutReset t half millivolts env =>
    dsimp only [exec, execBrownoutReset]
    split
    · exact answered _
    · exact answerStart_risesOnce (brownoutReset_roseOnce (passed t))
  case containedDetection t d env =>
    refine answerStart_risesOnce ?_
    split
    · exact onDetection_roseOnce reactContained_roseOnce (passed t)
    · exact passed t
  case uncontainedDetection t d env =>
    refine answerStart_risesOnce ?_
    split
    · exact onDetection_roseOnce reactUncontained_roseOnce (passed t)
    · exact passed t
  case haulerWatchdog t h env =>
    dsimp only [exec, execHaulerWatchdog, draw]
    repeat' split
    · exact answered _
    · exact answered _
    · exact answerStart_risesOnce (reactQuench_roseOnce (.of_fuses (atTime_fuses s t)))
  case quenchTimeout t half env =>
    dsimp only [exec, execQuenchTimeout, draw]
    split
    · exact answered _
    · exact answerStart_risesOnce (escalate_roseOnce (.of_fuses (atTime_fuses s t)))
  case loopLineReturn t half line flips check =>
    have engaged : RoseOnce s.fuses (engage (atTime s t)) := by
      refine .of_fuses (.trans ?_ (atTime_fuses s t))
      dsimp only [engage]
      repeat' split
      all_goals rfl
    dsimp only [exec, execLoopLineReturn]
    split
    · exact answerStart_risesOnce (loopReturn_roseOnce (monitorLine_roseOnce engaged))
    · exact answered _
  all_goals cases hc

theorem exec_risesOnce (c : Instr) (s : State) : RisesOnce s (exec c s) := by
  cases hc : mayStartUp c with
  | false => exact (exec_answered c s hc).risesOnce
  | true => exact startUp_risesOnce c s hc

/-- Settles O4: a step raises the rollback value once at most, by one counted rise. A command other than a start-up or a reset leaves the
fuses; the resets of one step take the rollback value of one image. -/
theorem fuseRollbackOnlyRises : Obligations.FuseRollbackOnlyRises := by
  intro c s u hu
  obtain same | ⟨few, r, higher, raised⟩ := exec_risesOnce c s u hu
  · rw [same]
    exact ⟨⟨rfl, rfl, rfl, rfl, rfl, le_rfl, le_rfl⟩, id, fun changed => absurd rfl changed⟩
  · rw [raised]
    exact ⟨⟨rfl, rfl, rfl, rfl, rfl, higher.le, Nat.le_succ _⟩, fun _ => few, fun _ => rfl⟩

end Sys2Proof.Machine
end

section
/-! Glow (R453 to R456). Outside Banked every wake is `woken` of the halves that it reaches, and the rails are those of the halves in Glow. -/

namespace Sys2Proof.Machine

theorem banked_of_running {s : State} (r : running s = true) : s.power.banked = false := by
  simpa using (Bool.and_eq_true_iff.1 r).2

theorem cold_of_running {s : State} (r : running s = true) : s.power.cold = false := by
  simpa using (Bool.and_eq_true_iff.1 (Bool.and_eq_true_iff.1 r).1).2

/-! ### Rails -/

/-- Outside Banked the rails of a half are those of Run or Glow. -/
theorem bellows_awake {p : PowerSt} (h : p.banked = false) : bellows p = { p with rails := railsIn p.glow } := by
  have age : bankAge p = 0 := by simp [bankAge, h]
  have rails (g : Half) : railsFor p g = if p.glow.get g then glowRails else runRails := by
    unfold railsFor
    rw [age]
    cases p.glow.get g <;> rfl
  simp only [bellows, rails]
  rfl

/-! ### Wakes from Glow -/

/-- The set of the one half `h`. -/
abbrev oneHalf (h : Half) : Both Bool := (Both.mk false false).set h true

/-- A half in Run has nothing to wake from. -/
theorem woken_inRun {p : PowerSt} {now : Mc} {h : Half} (hg : p.glow.get h = false) : woken p now (oneHalf h) = p := by
  cases h <;> simp_all [woken, oneHalf, Both.get, Both.set]

theorem woken_held {p : PowerSt} {now : Mc} {h : Half} (hg : p.glow.get h = true) (hh : p.hold.get h = true) :
    woken p now (oneHalf h) = { p with wakeHeld := p.wakeHeld.set h true } := by
  cases h <;> simp_all [woken, oneHalf, Both.get, Both.set]

theorem woken_free {p : PowerSt} {now : Mc} {h : Half} (hg : p.glow.get h = true) (hh : p.hold.get h = false) :
    woken p now (oneHalf h) = { withGlow p (p.glow.set h false) with busyAt := p.busyAt.set h now } := by
  cases h <;> simp_all [woken, oneHalf, Both.get, Both.set, withGlow]

/-- Outside Banked a half enters or leaves Glow with the rails of its new state. -/
theorem setGlow_awake {s : State} {h : Half} {v : Bool} (b : s.power.banked = false) :
    setGlow s h v = { s with power := { withGlow s.power (s.power.glow.set h v) with
      glowAt := if v then s.power.glowAt.set h s.time else s.power.glowAt
      busyAt := if v then s.power.busyAt else s.power.busyAt.set h s.time } } := by
  unfold setGlow
  rw [bellows_awake (by exact b)]
  rfl

/-- A wake event of one half in Run or Glow. -/
theorem wakeHalf_eq_woken {s : State} {h : Half} (r : running s = true) :
    wakeHalf s h = { s with power := woken s.power s.time (oneHalf h) } := by
  have b := banked_of_running r
  unfold wakeHalf
  rw [r, Bool.true_and]
  cases hg : s.power.glow.get h with
  | false => simp [woken_inRun hg]
  | true =>
    cases hh : s.power.hold.get h with
    | true => simp [woken_held hg hh]
    | false => simp [woken_free hg hh, setGlow_awake b, withGlow]

theorem woken_running (s : State) (now : Mc) (hs : Both Bool) : running { s with power := woken s.power now hs } = running s := by
  dsimp only [running, woken]
  split <;> rfl

/-- Wake events of one half and then of the other are those of both. -/
theorem woken_woken (p : PowerSt) (now : Mc) (h : Half) :
    woken (woken p now (oneHalf h)) now (oneHalf h.other) = woken p now ⟨true, true⟩ := by
  obtain ⟨_, _, ⟨ge, gw⟩, _, _, _, _, _, _, _, ⟨he, hw⟩, _⟩ := p
  cases h <;> cases ge <;> cases gw <;> cases he <;> cases hw <;> simp [woken, Both.get, Both.set, Half.other, withGlow]

/-- A wake event of one half, outside Banked. -/
theorem wakeEvent_awake {s : State} {h : Half} (r : running s = true) : wakeEvent s h = wakeHalf s h := by
  have b := banked_of_running r
  simp [wakeEvent, stillEntering, b]

theorem wakeHalf_other_eq_woken {s : State} (h : Half) (r : running s = true) :
    wakeHalf (wakeHalf s h) h.other = { s with power := woken s.power s.time ⟨true, true⟩ } := by
  rw [wakeHalf_eq_woken r, wakeHalf_eq_woken ((woken_running s s.time _).trans r)]
  exact congrArg (fun p => { s with power := p }) (woken_woken s.power s.time h)

theorem latchWake_awake {s : State} {code : Nat} (b : s.power.banked = false) :
    latchWake s code = { s with power := latched s.power code } := by
  by_cases now : s.power.wokeAt = some s.power.htime <;> simp [latchWake, latched, b, now]

theorem latched_running (s : State) (code : Nat) : running { s with power := latched s.power code } = running s := by
  dsimp only [running, latched]
  split <;> rfl

theorem wakeAll_awake {s : State} {code : Nat} (r : running s = true) :
    wakeAll s code = { s with power := woken (latched s.power code) s.time ⟨true, true⟩ } := by
  have c := cold_of_running r
  have b := banked_of_running r
  unfold wakeAll
  rw [c, b, latchWake_awake b]
  exact wakeHalf_other_eq_woken .east ((latched_running s code).trans r)

theorem pinFree_iff (s : State) (last : Option Nat) : pinFree s last = true ↔ pinRested s.power last := by
  simp [pinFree, pinRested, Option.all_eq_true]

theorem timerNear_eq_false (s : State) (h : Half) :
    timerNear s h = false ↔ ∀ d ∈ timersOf s h, d < s.time ∨ s.time + 252 < d := by
  unfold timerNear glowWakeTime
  simp [or_iff_not_imp_left]

theorem recordAt_eq_false (s : State) (h : Half) :
    recordAt s h = false ↔ s.fuses.grade = .c ∨ ∀ c ∈ s.cfg.partners, c.half ≠ h := by
  simp [recordAt, or_iff_not_imp_left]

/-- The codes that reach a half in Glow (table "Wake sources"). -/
theorem wakesGlow_eq_false (s : State) (h : Half) (code : Fin 9) : wakesGlow s ⟨h, code⟩ = false ↔ deafGlow s h code := by
  unfold deafGlow
  rw [← timerNear_eq_false, ← recordAt_eq_false]
  fin_cases code <;> simp [wakesGlow]

/-! ### Idle halves -/

theorem halfIdle_hauler {s : State} {r : Request} (hr : r ∈ s.run.reqs) (run : r.hauler ≠ none) : halfIdle s r.half = false := by
  have busy : (s.run.reqs.any fun x => x.half == r.half && (x.hauler.isSome || x.tongs.isSome)) = true :=
    List.any_eq_true.2 ⟨r, hr, by simp [Option.isSome_iff_ne_none.2 run]⟩
  simp [halfIdle, busy]

theorem halfIdle_record {s : State} {r : PendingRec} (hr : r ∈ s.q.records) : halfIdle s (sqHome s r.qid) = false := by
  have waits : writesWait s (sqHome s r.qid) = true := by
    have waits : (s.q.records.any fun x => sqHome s x.qid == sqHome s r.qid) = true := List.any_eq_true.2 ⟨r, hr, by simp⟩
    simp [writesWait, waits]
  simp [halfIdle, waits]

theorem halfIdle_flight {s : State} {p : MemPort} (hp : p ∈ s.arb.ports) (flight : p.flight ≠ []) : halfIdle s p.half = false := by
  have busy : linesInFlight s p.half = true := by
    have busy : (s.arb.ports.any fun x => x.half == p.half && !x.flight.isEmpty) = true :=
      List.any_eq_true.2 ⟨p, hp, by simp [flight]⟩
    simp [linesInFlight, busy]
  simp [halfIdle, busy]

/-! ### Commands -/

/-- The half may enter Glow: it has been idle for GLOW_IDLE, and neither HOLD_RUN, a GLOW_IDLE of 0 nor a half reset keeps it in Run
(R453). -/
def IdleFor (s : State) (h : Half) : Prop :=
  halfIdle s h = true ∧ s.cfg.power.glowIdle ≠ 0 ∧ s.power.holdRun = false ∧ s.halfReset.get h = false ∧
    s.power.glow.get h = false ∧ s.power.busyAt.get h + (s.cfg.power.glowIdle * 21 + 9) / 10 ≤ s.time

theorem glowEntry_iff {s : State} {h : Half} (r : running s = true) :
    (running s && true && s.cfg.power.glowIdle != 0 && !s.power.holdRun && !s.halfReset.get h && !s.power.glow.get h && halfIdle s h &&
      decide (glowDue s h ≤ s.time)) = true ↔ IdleFor s h := by
  unfold IdleFor glowDue mcOf
  simp only [r, Bool.and_eq_true, Bool.not_eq_true', bne_iff_ne, decide_eq_true_eq]
  tauto

theorem execGlowEntry_idle {s : State} {t : Mc} {h : Half} (r : running (atTime s t) = true) (idle : IdleFor (atTime s t) h) :
    execGlowEntry t h true s = .next { atTime s t with power :=
      { withGlow (atTime s t).power ((atTime s t).power.glow.set h true) with
        glowAt := (atTime s t).power.glowAt.set h (atTime s t).time } } := by
  have b := banked_of_running r
  unfold execGlowEntry
  rw [if_pos ((glowEntry_iff r).2 idle), setGlow_awake b]
  exact answer_atTime_eq rfl rfl rfl

theorem execGlowEntry_busy {s : State} {t : Mc} {h : Half} (r : running (atTime s t) = true) (busy : ¬ IdleFor (atTime s t) h) :
    execGlowEntry t h true s = .next (atTime s t) := by
  unfold execGlowEntry
  rw [if_neg fun c => busy ((glowEntry_iff r).1 c)]
  exact answer_atTime s t

theorem execGlowEntry_seqBusy (s : State) (t : Mc) (h : Half) : execGlowEntry t h false s = .next (atTime s t) := by
  simp [execGlowEntry]

theorem execGlowWake_deaf {s : State} {t : Mc} {h : Half} {code : Fin 9} (deaf : deafGlow (atTime s t) h code) :
    execGlowWake t ⟨h, code⟩ s = .next (atTime s t) := by
  simp [execGlowWake, (wakesGlow_eq_false _ h code).2 deaf]

theorem execGlowWake_wakes {s0 : State} {t : Mc} {h : Half} {code : Fin 9} (r : running (atTime s0 t) = true)
    (hears : ¬ deafGlow (atTime s0 t) h code) : let s := atTime s0 t
    execGlowWake t ⟨h, code⟩ s0 =
      .next { s with power := woken s.power s.time (if code = 1 ∨ code = 2 then ⟨true, true⟩ else oneHalf h) } := by
  intro s
  have wakes : wakesGlow s ⟨h, code⟩ = true := by
    rw [← Bool.not_eq_false, wakesGlow_eq_false]
    exact hears
  have both : (code.val == 1 || code.val == 2) = true ↔ code = 1 ∨ code = 2 := by
    simp [Fin.ext_iff]
  unfold execGlowWake
  dsimp only
  rw [if_neg (by simp [s, wakes])]
  by_cases c : code = 1 ∨ code = 2
  · have still : running (wakeHalf s h) = true := by
      rw [wakeHalf_eq_woken r]
      exact (woken_running s s.time _).trans r
    rw [if_pos (both.2 c), if_pos c, wakeEvent_awake r, wakeEvent_awake still, wakeHalf_other_eq_woken h r]
    exact answer_atTime_eq rfl rfl rfl
  · rw [if_neg (mt both.1 c), if_neg c, wakeEvent_awake r, wakeHalf_eq_woken r]
    exact answer_atTime_eq rfl rfl rfl

theorem execHostWake_running {s0 : State} {t : Mc} {h : Half} (r : running (atTime s0 t) = true) : let s := atTime s0 t
    execHostWake t h s0 = .next { s with power := woken (latched s.power 4) s.time (oneHalf h) } := by
  have c := cold_of_running r
  have b := banked_of_running r
  unfold execHostWake
  dsimp only
  rw [c, b, latchWake_awake b]
  simp only [Bool.false_eq_true, if_false]
  rw [wakeHalf_eq_woken ((latched_running (atTime s0 t) 4).trans r)]
  exact answer_atTime_eq rfl rfl rfl

theorem execWakeN_tired {s : State} {t : Mc} (tired : ¬ pinRested (atTime s t).power (atTime s t).power.wakePin) :
    execWakeN t s = .next (atTime s t) := by
  have waits : pinFree (atTime s t) (atTime s t).power.wakePin = false := by
    rw [← Bool.not_eq_true, pinFree_iff]
    exact tired
  unfold execWakeN
  dsimp only
  rw [if_pos (by rw [waits]; simp)]
  exact answer_atTime s t

/-- WAKE_N has started an event in this HCLK. -/
abbrev wakePinned (s : State) : State := { s with power := { s.power with wakePin := some s.power.htime } }

/-- A rested WAKE_N pin, outside Cold. -/
theorem execWakeN_rested {s0 : State} {t : Mc} (c : (atTime s0 t).power.cold = false)
    (rested : pinRested (atTime s0 t).power (atTime s0 t).power.wakePin) :
    execWakeN t s0 = answer s0 (wakeAll (wakePinned (atTime s0 t)) 1) := by
  unfold execWakeN
  dsimp only
  rw [if_neg (by rw [c, (pinFree_iff _ _).2 rested]; simp)]

theorem execWakeN_running {s0 : State} {t : Mc} (r : running (atTime s0 t) = true)
    (rested : pinRested (atTime s0 t).power (atTime s0 t).power.wakePin) : let s := atTime s0 t
    execWakeN t s0 = .next { s with
      power := woken (latched { s.power with wakePin := some s.power.htime } 1) s.time ⟨true, true⟩ } := by
  intro s
  rw [execWakeN_rested (cold_of_running r) rested, wakeAll_awake (s := wakePinned s) r]
  exact answer_atTime_eq rfl rfl rfl

/-- Settles O24: a half enters Glow exactly when it has been idle for GLOW_IDLE, and each wake is `woken` of the halves that it reaches. -/
theorem glowIsEnteredAndLeft : Obligations.GlowIsEnteredAndLeft := by
  intro s0 t h code s r idle set one
  refine ⟨execGlowEntry_idle r, execGlowEntry_busy r, execGlowEntry_seqBusy s0 t h, ?_, ?_, ?_, execGlowWake_deaf,
    execGlowWake_wakes r, execHostWake_running r, execWakeN_running r, execWakeN_tired⟩
  · rintro x hx rfl run
    exact halfIdle_hauler hx run
  · rintro x hx rfl
    exact halfIdle_record hx
  · rintro x hx rfl flight
    exact halfIdle_flight hx flight

end Sys2Proof.Machine
end

section
/-! The wake from Banked (R460 to R466). A wake before the clocks stop is `entryUndone`, and a later one, with no partner record that is up
and nothing scrubbed, is `leftBanked`: the lines of the save area hold the code tables. -/

namespace Sys2Proof.Machine

/-! ### The save area -/

theorem sparseFill_length {α : Type} (d : Nat → α) : ∀ (n a : Nat) (cells : List (Nat × α)), (sparseFill d n a cells).length = n
  | 0, _, _ => rfl
  | n + 1, a, [] => congrArg Nat.succ (sparseFill_length d n (a + 1) [])
  | n + 1, a, (b, v) :: cs => by
    unfold sparseFill
    split
    · exact congrArg Nat.succ (sparseFill_length d n (a + 1) cs)
    · exact congrArg Nat.succ (sparseFill_length d n (a + 1) ((b, v) :: cs))

theorem memRead_length (m : Mem) (a n : Nat) : (memRead m a n).length = n := sparseFill_length _ n a _

/-- A run of bytes that fills one line is one piece. -/
theorem piecesOf_line {α : Type} {a : Nat} {bs : List α} (ha : a % 256 = 0) (hn : bs.length = 256) : piecesOf a bs = [(a, bs)] := by
  have room : lineRoom a = 256 := by unfold lineRoom; rw [ha]
  have whole : bs.isEmpty = false := by cases bs <;> simp_all
  unfold piecesOf
  rw [hn]
  simp [linePieces, room, whole, ← hn]

theorem memReadS_line (m : Mem) {a : Nat} (ha : a % 256 = 0) :
    memReadS m a 256 = (memRead m a 256).map fun b => (b, memMark m (a / 256)) := by
  unfold memReadS
  rw [piecesOf_line ha (memRead_length m a 256), List.flatMap_singleton]

theorem anyMark_line (m : Mem) {a : Nat} (ha : a % 256 = 0) : anyMark (memReadS m a 256) = memMark m (a / 256) := by
  have some : memRead m a 256 ≠ [] := List.ne_nil_of_length_pos (by rw [memRead_length]; decide)
  rw [memReadS_line m ha]
  unfold anyMark
  rw [List.any_map]
  cases memMark m (a / 256) with
  | false => simp [Function.comp_def]
  | true => simpa [Function.comp_def] using List.exists_mem_of_ne_nil _ some

theorem saveSlot_eq (h : Half) (ap i : Nat) : saveSlot h ap i = savePlace h ap i := by
  cases h <;> simp only [saveSlot, savePlace, stockBase]

theorem savePlace_aligned (h : Half) (ap i : Nat) : savePlace h ap i % 256 = 0 := by
  cases h <;> simp only [savePlace, stockBase] <;> omega

/-- A code table comes back as the line at its place holds it. -/
theorem savedTable_eq (s : State) (a : AnvilPort) (x : TableSlot × Nat) :
    savedTable s a x = if x.2 < 8 ∧ x.1.table.isSome = true then
      { x.1 with table := if memMark s.mem (savePlace a.half a.ap x.2 / 256) then none
                          else some (memRead s.mem (savePlace a.half a.ap x.2) 256) }
      else x.1 := by
  have aligned := savePlace_aligned a.half a.ap x.2
  unfold savedTable
  dsimp only
  rw [saveSlot_eq, anyMark_line s.mem aligned, memReadS_line s.mem aligned, List.map_map]
  simp [Function.comp_def]

theorem restoreTables_eq (s : State) : restoreTables s = { s with buf := { s.buf with anvils := tablesBack s } } := by
  have back (a : AnvilPort) : savedTable s a = _ := funext (savedTable_eq s a)
  unfold restoreTables tablesBack
  simp only [back]

/-! ### Out of Banked -/

theorem capAt_eq_min (m v : Nat) : capAt m v = min m v := by
  unfold capAt
  split <;> omega

/-- The corrected lines of both halves' scrubbing join the counts of the halves (R469). -/
theorem addCorr_both (s : State) (e w : Nat) : addCorr (addCorr s .east e) .west w =
    { s with integ := { s.integ with corr :=
      ⟨min 0xFFFFFFFF (s.integ.corr.east + e), min 0xFFFFFFFF (s.integ.corr.west + w)⟩ } } := by
  simp only [addCorr, Both.set, Both.get, capAt_eq_min]

/-- Partner records that are not up stay as they are (R462). -/
theorem rejoinPartner_down {s : State} {num : Nat} (down : ∀ p ∈ s.rem.partners, isUp p = false) : rejoinPartner s num = s := by
  unfold rejoinPartner
  split
  · rename_i p found
    rw [if_neg (by simp [down p (List.mem_of_find?_eq_some found)])]
  · rfl

theorem rejoinPartners_down {s : State} (down : ∀ p ∈ s.rem.partners, isUp p = false) (nums : List Nat) :
    nums.foldl rejoinPartner s = s :=
  List.foldlRecOn (motive := (· = s)) nums rejoinPartner rfl fun u hu num _ => by rw [hu, rejoinPartner_down down]

theorem leaveBanked_eq {s : State} {code : Nat} (down : ∀ p ∈ s.rem.partners, isUp p = false) (unscrubbed : s.power.scrubbed = []) :
    leaveBanked s code = leftBanked s code := by
  have run : bellows { s.power with
      banked := false, entry := none, glow := ⟨false, false⟩, busyAt := ⟨s.time, s.time⟩, lastWake := code, wokeAt := some s.power.htime
      scrubCorrected := ⟨0, 0⟩, scrubbed := [] } = (leftBanked s code).power := by
    rw [bellows_awake rfl, ← unscrubbed]
    rfl
  have left : addCorr (addCorr (restoreTables { s with power := (leftBanked s code).power }) .east s.power.scrubCorrected.east)
      .west s.power.scrubCorrected.west = leftBanked s code := by
    rw [restoreTables_eq, addCorr_both]
    rfl
  unfold leaveBanked
  dsimp only
  rw [run, left, unscrubbed, List.foldl_nil, rejoinPartners_down (s := leftBanked s code) down]
  rfl

theorem undoEntry_eq {s : State} {e : BankEntry} (entry : s.power.entry = some e) : undoEntry s = entryUndone s e := by
  unfold undoEntry
  dsimp only
  rw [entry, Option.getD_some, bellows_awake rfl]
  rfl

theorem stillEntering_iff {s : State} (b : s.power.banked = true) :
    stillEntering s = true ↔ ∃ e, s.power.entry = some e ∧ e.age < 10500 := by
  unfold stillEntering bankAge
  rw [b]
  cases s.power.entry <;> simp

/-- A wake before the clocks stop undoes the entry (R461). -/
theorem wakeBanked_early {s : State} {e : BankEntry} {code : Nat} (b : s.power.banked = true) (entry : s.power.entry = some e)
    (young : e.age < 10500) : wakeBanked s code = entryUndone s e := by
  unfold wakeBanked
  rw [if_pos ((stillEntering_iff b).2 ⟨e, entry, young⟩), undoEntry_eq entry]

/-- A wake once the clocks have stopped leaves Banked. -/
theorem wakeBanked_late {s : State} {code : Nat} (b : s.power.banked = true)
    (late : ¬ ∃ e, s.power.entry = some e ∧ e.age < 10500) (down : ∀ p ∈ s.rem.partners, isUp p = false)
    (unscrubbed : s.power.scrubbed = []) : wakeBanked s code = leftBanked s code := by
  unfold wakeBanked
  rw [if_neg (mt (stillEntering_iff b).1 late), leaveBanked_eq down unscrubbed]

/-- A half that is in Run already has nothing to wake from. -/
theorem wakeEvent_entryUndone (s : State) (e : BankEntry) (h : Half) : wakeEvent (entryUndone s e) h = entryUndone s e := by
  have entering : stillEntering (entryUndone s e) = false := rfl
  have glow : (entryUndone s e).power.glow.get h = false := by cases h <;> rfl
  unfold wakeEvent wakeHalf
  rw [entering, glow, Bool.and_false]
  rfl

theorem wakeEvent_early {s : State} {e : BankEntry} {h : Half} (b : s.power.banked = true) (entry : s.power.entry = some e)
    (young : e.age < 10500) : wakeEvent s h = entryUndone s e := by
  unfold wakeEvent
  rw [if_pos ((stillEntering_iff b).2 ⟨e, entry, young⟩), undoEntry_eq entry]

/-- In Banked the sources of Glow reach no half once the clocks have stopped. -/
theorem wakeEvent_late {s : State} {h : Half} (b : s.power.banked = true) (late : ¬ ∃ e, s.power.entry = some e ∧ e.age < 10500) :
    wakeEvent s h = s := by
  have stopped : running s = false := by simp [running, b]
  unfold wakeEvent wakeHalf
  rw [if_neg (mt (stillEntering_iff b).1 late), stopped]
  rfl

/-! ### The wake sources in Banked -/

/-- The codes that wake the mover from Banked at their time (table "Wake sources"). -/
theorem wakesBanked_iff {s : State} {code : Fin 9} (timer : code ≠ 3) :
    wakesBanked s code.val = true ↔ ¬ (code = 0 ∨ code = 5 ∨ (code = 6 ∧ (s.fuses.grade = .c ∨ s.cfg.partners = []))) := by
  have remote : (recordAt s .east || recordAt s .west) = false ↔ s.fuses.grade = .c ∨ s.cfg.partners = [] := by
    rw [Bool.or_eq_false_iff, recordAt_eq_false, recordAt_eq_false, ← or_and_left, List.eq_nil_iff_forall_not_mem]
    refine or_congr_right ⟨fun ⟨east, west⟩ c hc => ?_, fun none => ⟨fun c hc => absurd hc (none c), fun c hc => absurd hc (none c)⟩⟩
    cases side : c.half with
    | east => exact east c hc side
    | west => exact west c hc side
  unfold wakesBanked
  rw [Bool.or_assoc, ← remote]
  generalize (recordAt s .east || recordAt s .west) = r
  fin_cases code <;> cases r <;> simp at timer ⊢

theorem hclkBefore_eq {s : State} {t : Mc} (ahead : s.time ≤ t) :
    hclkBefore s t = t - ((t : Int) - ((s.time : Int) - s.power.hfrac)).toNat % 21 := by
  have past : 0 ≤ (t : Int) - ((s.time : Int) - s.power.hfrac) := by
    have := Int.ofNat_le.2 ahead
    omega
  exact congrArg (t - ·) (Int.toNat_emod past (by decide))

/-- With one timer pacing request to come, the wake starts at its edge. -/
theorem timerEdge_single {s : State} {d : Mc} (one : (timersOf s .east ++ timersOf s .west).filter (s.time ≤ ·) = [d]) :
    timerEdge s = some (hclkBefore s (d - 81900)) := by
  unfold timerEdge
  rw [one]
  rfl

theorem timerEdge_none {s : State} (none : (timersOf s .east ++ timersOf s .west).filter (s.time ≤ ·) = []) : timerEdge s = .none := by
  unfold timerEdge
  rw [none]
  rfl

/-! ### Commands in Banked -/

/-- An answer whose effect is a state with the queue, the fuses and the flash of the command's TIME. -/
theorem answer_effect {s u v : State} {t : Mc} (effect : u = v) (hp : v.pending = (atTime s t).pending)
    (hf : v.fuses = (atTime s t).fuses) (hl : v.flash = (atTime s t).flash) : answer s u = .next v :=
  (congrArg (answer s) effect).trans (answer_atTime_eq hp hf hl)

theorem execBankedWake_code {s0 : State} {t : Mc} {code : Fin 9} (b : s0.power.banked = true) (c : s0.power.cold = false)
    (timer : code ≠ 3)
    (wakes : ¬ (code = 0 ∨ code = 5 ∨ (code = 6 ∧ ((atTime s0 t).fuses.grade = .c ∨ (atTime s0 t).cfg.partners = [])))) :
    execBankedWake t code s0 = answer s0 (wakeBanked (atTime s0 t) code.val) := by
  have other : (code.val == 3) = false := by simpa [Fin.ext_iff] using timer
  simp [execBankedWake, other, b, c, (wakesBanked_iff timer).2 wakes]

theorem execBankedWake_deaf {s0 : State} {t : Mc} {code : Fin 9}
    (deaf : code = 0 ∨ code = 5 ∨ (code = 6 ∧ ((atTime s0 t).fuses.grade = .c ∨ (atTime s0 t).cfg.partners = []))) :
    execBankedWake t code s0 = .next (atTime s0 t) := by
  have timer : code ≠ 3 := by rintro rfl; simp at deaf
  have other : (code.val == 3) = false := by simpa [Fin.ext_iff] using timer
  have sleeps : wakesBanked (atTime s0 t) code.val = false := by
    rw [← Bool.not_eq_true, wakesBanked_iff timer]
    exact not_not.2 deaf
  simp [execBankedWake, other, sleeps]

/-- Code 0x3 starts at its edge, whatever the command's time (R466). -/
theorem execBankedWake_timer {s : State} {t e : Mc} (b : s.power.banked = true) (c : s.power.cold = false)
    (edge : timerEdge s = some e) : execBankedWake t 3 s = answer s (wakeBanked (atTime s e) 3) := by
  simp [execBankedWake, b, c, edge]

theorem execBankedWake_edge {s x : State} {t e : Mc} (b : s.power.banked = true) (c : s.power.cold = false) (edge : timerEdge s = some e)
    (hx : x = atTime s e) (late : ¬ ∃ y, x.power.entry = some y ∧ y.age < 10500) (down : ∀ p ∈ x.rem.partners, isUp p = false)
    (unscrubbed : x.power.scrubbed = []) : execBankedWake t 3 s = .next (leftBanked x 3) := by
  subst hx
  rw [execBankedWake_timer b c edge, wakeBanked_late ((atTime_power_banked s e).trans b) late down unscrubbed]
  exact answer_atTime_eq rfl rfl rfl

theorem execBankedWake_noTimer {s : State} {t : Mc} (none : timerEdge s = .none) : execBankedWake t 3 s = .next (atTime s t) := by
  simp [execBankedWake, none]

theorem execHostWake_banked {s : State} {t : Mc} {h : Half} (b : s.power.banked = true) (c : s.power.cold = false) :
    execHostWake t h s = answer s (wakeBanked (atTime s t) 4) := by
  simp [execHostWake, b, c]

theorem wakeAll_banked {s : State} {code : Nat} (b : s.power.banked = true) (c : s.power.cold = false) :
    wakeAll s code = wakeBanked s code := by
  simp [wakeAll, b, c]

theorem execWakeN_banked {s0 : State} {t : Mc} (b : (atTime s0 t).power.banked = true) (c : (atTime s0 t).power.cold = false)
    (rested : pinRested (atTime s0 t).power (atTime s0 t).power.wakePin) :
    execWakeN t s0 = answer s0 (wakeBanked (wakePinned (atTime s0 t)) 1) := by
  rw [execWakeN_rested c rested, wakeAll_banked (s := wakePinned (atTime s0 t)) b c]

theorem execGlowWake_early {s0 : State} {t : Mc} {h : Half} {code : Fin 9} {e : BankEntry} (b : (atTime s0 t).power.banked = true)
    (entry : (atTime s0 t).power.entry = some e) (young : e.age < 10500) (hears : ¬ deafGlow (atTime s0 t) h code) :
    execGlowWake t ⟨h, code⟩ s0 = .next (entryUndone (atTime s0 t) e) := by
  have wakes : wakesGlow (atTime s0 t) ⟨h, code⟩ = true := by
    rw [← Bool.not_eq_false, wakesGlow_eq_false]
    exact hears
  simp only [execGlowWake, wakes, wakeEvent_early b entry young, wakeEvent_entryUndone, ite_self, Bool.not_true, Bool.false_eq_true,
    if_false]
  exact answer_atTime_eq rfl rfl rfl

theorem execGlowWake_late {s0 : State} {t : Mc} {h : Half} {code : Fin 9} (b : (atTime s0 t).power.banked = true)
    (late : ¬ ∃ e, (atTime s0 t).power.entry = some e ∧ e.age < 10500) : execGlowWake t ⟨h, code⟩ s0 = .next (atTime s0 t) := by
  simp [execGlowWake, wakeEvent_late b late]

/-- Settles O26: before the clocks stop every wake source undoes the entry; later each leaves Banked with its code, but for the sources that
reach halves in Glow alone. -/
theorem wakeSourcesLeaveBanked : Obligations.WakeSourcesLeaveBanked := by
  intro s0 t code h s b c deaf timers edge early pin quiet
  have b0 : s0.power.banked = true := (atTime_power_banked s0 t).symm.trans b
  have c0 : s0.power.cold = false := (atTime_power_cold s0 t).symm.trans c
  refine ⟨execBankedWake_deaf, ?_, ?_, ?_, ?_, execWakeN_tired⟩
  · intro none
    exact execBankedWake_noTimer (timerEdge_none none)
  · intro d one _ ahead x old ⟨down, unscrubbed⟩ _
    have early : s0.time ≤ d - 81900 := Nat.le_sub_of_add_le ((Nat.add_le_add_left (by decide) _).trans ahead)
    have start : timerEdge s0 = some (edge s0 d) := (timerEdge_single one).trans (congrArg some (hclkBefore_eq early))
    have late : ¬ ∃ e, x.power.entry = some e ∧ e.age < 10500 := fun ⟨e, entry, young⟩ => absurd (old e entry) young.not_ge
    exact execBankedWake_edge b0 c0 start rfl late down unscrubbed
  · intro e entry young
    refine ⟨fun wakes timer => ?_, ?_, fun rested => ?_, execGlowWake_deaf, execGlowWake_early b entry young⟩
    · exact (execBankedWake_code b0 c0 timer wakes).trans (answer_effect (t := t) (wakeBanked_early b entry young) rfl rfl rfl)
    · exact (execHostWake_banked b0 c0).trans (answer_effect (t := t) (wakeBanked_early b entry young) rfl rfl rfl)
    · exact (execWakeN_banked b c rested).trans (answer_effect (t := t) (wakeBanked_early (s := pin) b entry young) rfl rfl rfl)
  · intro late
    refine ⟨execGlowWake_late b late, fun ⟨down, unscrubbed⟩ => ?_⟩
    refine ⟨fun wakes timer => ?_, ?_, fun rested => ?_⟩
    · exact (execBankedWake_code b0 c0 timer wakes).trans (answer_effect (t := t) (wakeBanked_late b late down unscrubbed) rfl rfl rfl)
    · exact (execHostWake_banked b0 c0).trans (answer_effect (t := t) (wakeBanked_late b late down unscrubbed) rfl rfl rfl)
    · exact (execWakeN_banked b c rested).trans
        (answer_effect (t := t) (wakeBanked_late (s := pin) b late down unscrubbed) rfl rfl rfl)

end Sys2Proof.Machine
end

section
/-! The canonical form of the memories and the flash (assumption 6). Every function that makes a state of a state keeps it: a lemma
`f_canonical` for each, which follows the branches of `f` and cites the lemmas of the functions it calls. Most of them write neither memory
nor flash; those that do write by the operations of the section Writes. -/

namespace Sys2Proof.Machine

/-- A memory and a flash in their canonical form (assumption 6). -/
structure CanonicalForm (m : Mem) (flash : List Host.Cell) : Prop where
  mem : m.wf
  flash : sparseWf flashByte flash

/-- The memories and the flash of the state have their canonical form. -/
abbrev Canonical (s : State) : Prop := CanonicalForm s.mem s.flash

theorem canonical_iff {s : State} : Canonical s ↔ MemSound s := ⟨fun h => ⟨h.mem, h.flash⟩, fun h => ⟨h.mem, h.flash⟩⟩

section
variable {s : State}

theorem canonical_ite {c : Prop} [Decidable c] {x y : State} (hx : Canonical x) (hy : Canonical y) :
    Canonical (if c then x else y) := by
  split
  · exact hx
  · exact hy

theorem foldl_canonical {β : Type} {f : State → β → State} {l : List β} (step : ∀ {u x}, Canonical u → Canonical (f u x))
    (h : Canonical s) : Canonical (l.foldl f s) :=
  List.foldlRecOn (motive := Canonical) l f h fun _ hu _ _ => step hu

theorem foldlForm_canonical {β : Type} {f : Mem → β → Mem} {l : List β} {m : Mem} {flash : List Host.Cell}
    (step : ∀ {m x}, CanonicalForm m flash → CanonicalForm (f m x) flash) (h : CanonicalForm m flash) :
    CanonicalForm (l.foldl f m) flash :=
  List.foldlRecOn (motive := fun m => CanonicalForm m flash) l f h fun _ hm _ _ => step hm

/-! ### Writes -/

/-- What leaves the flash alone and the memory canonical. -/
theorem Canonical.keeps {u : State} (h : Canonical s) (mem : u.mem.wf) (k : KeepsFlash s u) : Canonical u :=
  ⟨mem, k.2.1 ▸ h.flash⟩

theorem memSetMark_canonical {m : Mem} {flash : List Host.Cell} {line : Nat} {v : Bool} (h : CanonicalForm m flash) :
    CanonicalForm (memSetMark m line v) flash :=
  ⟨memSetMark_wf h.mem line v, h.flash⟩

theorem memWrite_canonical {m : Mem} {flash : List Host.Cell} {a : Nat} {bs : List SByte} (h : CanonicalForm m flash) :
    CanonicalForm (memWrite m a bs) flash :=
  ⟨memWrite_wf h.mem a bs, h.flash⟩

theorem zeroStock_canonical {m : Mem} {flash : List Host.Cell} {half : Half} (h : CanonicalForm m flash) :
    CanonicalForm (zeroStock half m) flash :=
  ⟨zeroStock_wf h.mem half, h.flash⟩

theorem zeroStocks_canonical {m : Mem} {flash : List Host.Cell} (h : CanonicalForm m flash) : CanonicalForm (zeroStocks m) flash :=
  zeroStock_canonical (zeroStock_canonical h)

theorem loseHbm_canonical {m : Mem} {flash : List Host.Cell} (h : CanonicalForm m flash) : CanonicalForm (loseHbm m) flash :=
  ⟨loseHbm_wf h.mem, h.flash⟩

theorem hostWrite_canonical {p x : Nat} {bs : List Byte} (h : Canonical s) : Canonical (hostWrite s p x bs) :=
  ⟨hostWrite_wf h.mem p x bs, h.flash⟩

theorem writeLocal_canonical {key : Option Nat} {a : Nat} {bs : List SByte} (h : Canonical s) : Canonical (writeLocal s key a bs) :=
  h.keeps (writeLocal_wf h.mem key a bs) (writeLocal_keeps (.refl s))

theorem writeBank_canonical {w : Writer} {key : Option Nat} {a : Nat} {bs : List SByte} (h : Canonical s) :
    Canonical (writeBank s w key a bs) :=
  h.keeps (writeBank_wf h.mem w key a bs) (writeBank_keeps (.refl s))

theorem writePiece_canonical {w : Writer} {ctx : Nat} {p : Piece} {bs : List SByte} (h : Canonical s) :
    Canonical (writePiece s w ctx p bs) :=
  h.keeps (writePiece_wf h.mem w ctx p bs) (writePiece_keeps (.refl s))

theorem writeAtomic_canonical {ctx : Nat} {p : Piece} {bs : List SByte} (h : Canonical s) : Canonical (writeAtomic s ctx p bs) :=
  h.keeps (writeAtomic_wf h.mem ctx p bs) (writeAtomic_keeps (.refl s))

theorem storePiece_canonical {w : Writer} {ctx : Nat} {p : Piece} {bs : List SByte} (h : Canonical s) :
    Canonical (storePiece s w ctx p bs) :=
  h.keeps (storePiece_wf h.mem w ctx p bs) (storePiece_keeps (.refl s))

theorem writePieces_canonical {w : Writer} {ctx : Nat} :
    ∀ {ps : List Piece} {s : State} {bs : List SByte}, Canonical s → Canonical (writePieces w ctx s ps bs)
  | [], _, _, h => h
  | _ :: ps, _, _, h => writePieces_canonical (ps := ps) (writePiece_canonical h)

/-! ### Answers -/

/-- What a part of a command leaves is canonical. -/
inductive Flow.Canonical : Flow → Prop
  | go {u : State} (h : Machine.Canonical u) : Flow.Canonical (.go u)
  | stop {u : State} (h : Machine.Canonical u) : Flow.Canonical (.stop u)
  | fault {f : Fault} : Flow.Canonical (.fault f)

/-- The state that a command ends in, when it ends in one, is canonical. -/
inductive ResultCanonical : Result → Prop
  | next {u : State} (h : Canonical u) : ResultCanonical (.next u)
  | fault {f : Fault} : ResultCanonical (.fault f)

theorem flow_ite {c : Prop} [Decidable c] {x y : Flow} (hx : x.Canonical) (hy : y.Canonical) : (if c then x else y).Canonical := by
  split
  · exact hx
  · exact hy

theorem result_ite {c : Prop} [Decidable c] {x y : Result} (hx : ResultCanonical x) (hy : ResultCanonical y) :
    ResultCanonical (if c then x else y) := by
  split
  · exact hx
  · exact hy

theorem answer_canonical {u : State} (h : Canonical s) (hu : Canonical u) : ResultCanonical (answer s u) := .next ⟨hu.mem, h.flash⟩

theorem Flow.result_canonical {x : Flow} (h : Machine.Canonical s) (hx : x.Canonical) : ResultCanonical (x.result s) := by
  cases hx with
  | go hu => exact answer_canonical h hu
  | stop hu => exact answer_canonical h hu
  | fault => exact .fault

theorem Flow.bind_canonical {x : Flow} {k : State → Flow} (hx : x.Canonical) (hk : ∀ {u}, Machine.Canonical u → (k u).Canonical) :
    (x.bind k).Canonical := by
  cases hx with
  | go hu => exact hk hu
  | stop hu => exact .stop hu
  | fault => exact .fault

end

end Sys2Proof.Machine
end

section
/-! What the commands share: wakes, fault records, requests and lines, and the passing of time, during which updates, stores and lines land
in the memories. -/

namespace Sys2Proof.Machine

section
variable {s : State}

/-! ### Wakes and draws -/

theorem wakeContext_canonical {x : CtxState} (h : Canonical s) : Canonical (wakeContext s x) := by
  unfold wakeContext
  repeat' split
  all_goals exact h

theorem wakeContexts_canonical (h : Canonical s) : Canonical (wakeContexts s) := canonical_ite (foldl_canonical wakeContext_canonical h) h

theorem wakeHalf_canonical {half : Half} (h : Canonical s) : Canonical (wakeHalf s half) := canonical_ite (canonical_ite h h) h

theorem wakeBoth_canonical (h : Canonical s) : Canonical (wakeBoth s) := wakeHalf_canonical (wakeHalf_canonical h)

theorem wakeEvent_canonical {half : Half} (h : Canonical s) : Canonical (wakeEvent s half) := canonical_ite h (wakeHalf_canonical h)

theorem hostBeat_canonical {half : Half} (h : Canonical s) : Canonical (hostBeat s half) := canonical_ite (wakeHalf_canonical h) h

theorem draw_canonical (h : Canonical s) : Canonical (draw s).2 := h

/-! ### The fault queues -/

theorem writeFaultRecs_canonical {p : Nat} {q : FaultQ} :
    ∀ {rs : List FaultRec} {s : State} {k : Nat}, Canonical s → Canonical (writeFaultRecs s p q rs k)
  | [], _, _, h => h
  | _ :: rs, _, _, h => writeFaultRecs_canonical (rs := rs) (hostWrite_canonical h)

theorem writeClosed_canonical {p : Nat} (h : Canonical s) : Canonical (writeClosed s p) := by
  dsimp only [writeClosed, sendMsix, updFaultQ]
  exact canonical_ite h (writeFaultRecs_canonical h)

theorem createWaiting_canonical {p : Nat} {r : FaultRec} (h : Canonical s) : Canonical (createWaiting s p r) := by
  dsimp only [createWaiting]
  repeat' split
  all_goals exact h

theorem drainWaiting_canonical {p : Nat} : ∀ {n : Nat} {s : State}, Canonical s → Canonical (drainWaiting n s p)
  | 0, _, h => h
  | n + 1, s, h => by
    unfold drainWaiting
    dsimp only
    split
    · exact h
    · split
      · exact drainWaiting_canonical (createWaiting_canonical h)
      · exact h

theorem flushRound_canonical {p : Nat} (h : Canonical s) : Canonical (flushRound s p) := by
  dsimp only [flushRound, updFaultQ]
  exact drainWaiting_canonical (canonical_ite (writeClosed_canonical (writeClosed_canonical h)) (writeClosed_canonical h))

theorem flushLoop_canonical {p : Nat} : ∀ {n : Nat} {s : State}, Canonical s → Canonical (flushLoop n s p)
  | 0, _, h => h
  | _ + 1, _, h => canonical_ite h (flushLoop_canonical (flushRound_canonical h))

theorem flushFaults_canonical {p : Nat} (h : Canonical s) : Canonical (flushFaults s p) := flushLoop_canonical h

theorem pushRecord_canonical {p : Nat} {r : FaultRec} (h : Canonical s) : Canonical (pushRecord s p r) :=
  canonical_ite (flushFaults_canonical h) h

theorem raiseEvent_canonical {p code ctx : Nat} {noCtx : Bool} {object value : Nat} (h : Canonical s) :
    Canonical (raiseEvent s p code ctx noCtx object value) :=
  pushRecord_canonical h

theorem ctxEvent_canonical {ctx code object value : Nat} (h : Canonical s) : Canonical (ctxEvent s ctx code object value) :=
  raiseEvent_canonical h

theorem pushNoFrame_canonical {r : FaultRec} (h : Canonical s) : Canonical (pushNoFrame s r) := canonical_ite (flushFaults_canonical h) h

theorem blockRecord_canonical {kind ctx slot block va : Nat} (h : Canonical s) : Canonical (blockRecord s kind ctx slot block va) :=
  pushRecord_canonical h

theorem joinFault_canonical {o : Outstanding} {waiter : Option Nat} {flags : Nat} (h : Canonical s) :
    Canonical (joinFault s o waiter flags) :=
  canonical_ite h h

theorem faultBlock_canonical {ctx slot block va : Nat} {waiter : Option Nat} {flags : Nat} (h : Canonical s) :
    Canonical (faultBlock s ctx slot block va waiter flags) := by
  unfold faultBlock
  split
  · exact joinFault_canonical h
  · exact canonical_ite (flushFaults_canonical h) h

/-! ### Blocks of segments -/

theorem countHot_canonical {g : Segment} {b : Nat} (h : Canonical s) : Canonical (countHot s g b) :=
  canonical_ite (blockRecord_canonical h) h

theorem startPromotion_canonical {ctx slot b : Nat} (h : Canonical s) : Canonical (startPromotion s ctx slot b) := by
  unfold startPromotion
  repeat' split
  all_goals exact h

theorem touchBlock_canonical {ctx : Nat} {x : Nat × Nat} (h : Canonical s) : Canonical (touchBlock ctx s x) := by
  unfold touchBlock
  split
  · exact h
  · refine canonical_ite h ?_
    exact canonical_ite (startPromotion_canonical (canonical_ite h (countHot_canonical h))) (canonical_ite h (countHot_canonical h))

theorem touchBlocks_canonical {ctx : Nat} {ps : List Piece} (h : Canonical s) : Canonical (touchBlocks s ctx ps) :=
  foldl_canonical touchBlock_canonical h

/-! ### Requests to partners -/

theorem setPartner_canonical {num : Nat} {st : PartnerSt} (h : Canonical s) : Canonical (setPartner s num st) := by
  unfold setPartner
  split
  · exact canonical_ite h (raiseEvent_canonical h)
  · exact h

theorem sendAttempt_canonical {num tag : Nat} (h : Canonical s) : Canonical (sendAttempt s num tag) := by
  dsimp only [sendAttempt]
  split
  · exact canonical_ite (canonical_ite h h) (canonical_ite h h)
  · exact h

theorem sendWakeSet_canonical {num : Nat} (h : Canonical s) : Canonical (sendWakeSet s num) := by
  unfold sendWakeSet
  split
  · exact h
  · exact foldl_canonical (fun hu => hu) h

theorem beginWake_canonical {num tag : Nat} (h : Canonical s) : Canonical (beginWake s num tag) := by
  unfold beginWake
  split
  · split
    · exact canonical_ite (sendWakeSet_canonical h) h
    · exact h
  · exact h

theorem pumpOne_canonical {num tag : Nat} (h : Canonical s) : Canonical (pumpOne num s tag) := by
  unfold pumpOne
  split
  · exact canonical_ite h (canonical_ite (beginWake_canonical h) (canonical_ite (sendAttempt_canonical h) h))
  · exact h

theorem pump_canonical {num : Nat} (h : Canonical s) : Canonical (pump s num) := foldl_canonical pumpOne_canonical h

theorem retryOut_canonical {num tag : Nat} (h : Canonical s) : Canonical (retryOut s num tag) := pumpOne_canonical h

theorem newRemote_canonical {num : Nat} {n : NewReq} (h : Canonical s) : Canonical (newRemote s num n).1 := by
  unfold newRemote
  split
  · exact h
  · exact pumpOne_canonical (foldl_canonical (fun hu => hu) h)

theorem dropOut_canonical {num tag : Nat} (h : Canonical s) : Canonical (dropOut s num tag) := by
  unfold dropOut
  split
  · exact h
  · exact foldl_canonical (fun hu => hu) h

/-! ### Host requests -/

theorem park_canonical {r : Request} (h : Canonical s) : Canonical (park s r) := by
  dsimp only [park, setReq, lowerRequests]
  split
  · exact h
  · exact writeBank_canonical h

theorem beginWait_canonical {r : Request} {w : Wait} (h : Canonical s) : Canonical (beginWait s r w) :=
  canonical_ite (canonical_ite (park_canonical h) h) (canonical_ite (park_canonical h) h)

theorem appendIssued_canonical {id : Nat} (h : Canonical s) : Canonical (appendIssued s id) := by
  unfold appendIssued
  repeat' split
  all_goals exact h

theorem afterIssue_canonical {id : Nat} (h : Canonical s) : Canonical (afterIssue s id) := appendIssued_canonical h

theorem askHost_canonical {r : Request} (h : Canonical s) : Canonical (askHost s r) :=
  canonical_ite (canonical_ite h h) (canonical_ite h h)

theorem parkEnded_canonical {id : Nat} (h : Canonical s) : Canonical (parkEnded s id) := by
  unfold parkEnded
  split
  · exact canonical_ite (park_canonical h) h
  · exact h

theorem parkOne_canonical {r : Request} (h : Canonical s) : Canonical (parkOne s r) :=
  canonical_ite (parkEnded_canonical h) (canonical_ite (beginWait_canonical h) h)

theorem parkHeld_canonical {p : Nat} (h : Canonical s) : Canonical (parkHeld s p) := by
  unfold parkHeld
  refine foldl_canonical (fun hu => ?_) h
  split
  · exact parkOne_canonical hu
  · exact hu

theorem parkRecords_canonical {cq : Nat} (h : Canonical s) : Canonical (parkRecords s cq) := by
  unfold parkRecords
  refine canonical_ite h ?_
  refine foldl_canonical (fun hu => ?_) h
  split
  · exact parkEnded_canonical hu
  · exact canonical_ite (beginWait_canonical hu) hu
  · exact hu

theorem settle_canonical {id : Nat} (h : Canonical s) : Canonical (settle s id) := by
  dsimp only [settle, addEntry, judgeHeld, updLedger, setReq, closeEntries, closePart, readyRecord]
  split
  · exact h
  · split
    · exact h
    · refine canonical_ite h ?_
      refine canonical_ite ?_ (canonical_ite h (parkRecords_canonical (askHost_canonical h)))
      split
      · exact canonical_ite (parkEnded_canonical h) h
      · exact h

theorem sendUpdate_canonical {ctr amount gen : Nat} {half : Half} {due : Mc} (h : Canonical s) :
    Canonical (sendUpdate s ctr amount gen half due) :=
  canonical_ite h h

theorem releaseHead_canonical {r : Request} (h : Canonical s) : Canonical (releaseHead s r).state := by
  dsimp only [releaseHead]
  split
  · split
    · exact h
    · split
      · exact sendUpdate_canonical (askHost_canonical h)
      · split
        · exact h
        · split
          · exact h
          · split <;> exact newRemote_canonical (askHost_canonical h)
      · exact h
  · split
    · exact h
    · exact parkRecords_canonical h
  · exact h

theorem releaseLoop_canonical {id : Nat} : ∀ {n : Nat} {s : State}, Canonical s → Canonical (releaseLoop n s id).state
  | 0, _, h => h
  | n + 1, s, h => by
    unfold releaseLoop
    split
    · exact h
    · rename_i r _
      have one := releaseHead_canonical (s := setReq s { r with effects := dropSent s.time r.effects })
        (r := { r with effects := dropSent s.time r.effects }) h
      dsimp only
      split
      · rename_i next
        rw [next] at one
        exact releaseLoop_canonical one
      · exact one

theorem loseBillets_canonical {ctx : Nat} {bs : List (Nat × Nat)} (h : Canonical s) : Canonical (loseBillets ctx s bs) :=
  foldl_canonical (fun hu => hu) h

theorem cutEffects_canonical {r : Request} {es : List Effect} (h : Canonical s) : Canonical (cutEffects s r es) :=
  loseBillets_canonical (canonical_ite h h)

theorem endCore_canonical {id status detail : Nat} {failed : List Nat} (h : Canonical s) :
    Canonical (endCore s id status detail failed) := by
  unfold endCore
  split
  · exact h
  · exact canonical_ite h (cutEffects_canonical (loseBillets_canonical (foldl_canonical (fun hu => hu) h)))

theorem failCore_canonical {id status word : Nat} {failed : List Nat} (h : Canonical s) :
    Canonical (failCore s id status word failed) := by
  unfold failCore
  split
  · exact h
  · split
    · exact endCore_canonical h
    · exact cutEffects_canonical h

theorem releaseEffects_canonical {id : Nat} (h : Canonical s) : Canonical (releaseEffects s id) := by
  unfold releaseEffects
  split
  · exact h
  · rename_i r _
    have closed : Canonical (if ledgered s r.ctx then closeEntries s (partOfCtx s r.ctx) else s) := canonical_ite h h
    have released := releaseLoop_canonical (n := r.effects.length + 1) (id := id) closed
    dsimp only
    cases ends : releaseLoop (r.effects.length + 1) (if ledgered s r.ctx then closeEntries s (partOfCtx s r.ctx) else s) id <;>
      rw [ends] at released
    case more => exact canonical_ite (parkHeld_canonical (settle_canonical released)) (settle_canonical released)
    case done => exact canonical_ite (parkHeld_canonical (settle_canonical released)) (settle_canonical released)
    case failed =>
      have failed : ∀ {st w}, Canonical (settle (failCore _ id st w []) id) := settle_canonical (failCore_canonical released)
      exact canonical_ite (parkHeld_canonical failed) failed

theorem addEffect_canonical {r : Request} {e : Effect} (h : Canonical s) : Canonical (addEffect s r e) := releaseEffects_canonical h

theorem writeAnswered_canonical {id tag : Nat} (h : Canonical s) : Canonical (writeAnswered s id tag) := by
  unfold writeAnswered
  split
  · exact h
  · exact releaseEffects_canonical h

theorem endRequest_canonical {id status detail : Nat} {failed : List Nat} (h : Canonical s) :
    Canonical (endRequest s id status detail failed) :=
  releaseEffects_canonical (endCore_canonical h)

theorem failWrite_canonical {id tag status word : Nat} (h : Canonical s) : Canonical (failWrite s id tag status word) := by
  unfold failWrite
  split
  · exact h
  · exact releaseEffects_canonical (failCore_canonical h)

theorem endHere_canonical {r : Request} {status : Nat} (h : Canonical s) : Canonical (endHere s r status) := endRequest_canonical h

theorem haltRequest_canonical {r : Request} (h : Canonical s) : Canonical (haltRequest s r) := releaseEffects_canonical h

/-! ### Lines of the Anvil ports -/

theorem releaseSig_canonical {x : StoreSig} (h : Canonical s) : Canonical (releaseSig s x) := by
  unfold releaseSig
  split
  · exact sendUpdate_canonical h
  · exact newRemote_canonical h
  · exact h

theorem releaseSigs_canonical (h : Canonical s) : Canonical (releaseSigs s) := foldl_canonical releaseSig_canonical h

theorem freeStore_canonical {id : Nat} (h : Canonical s) : Canonical (freeStore s id) := releaseSigs_canonical h

theorem closeStore_canonical {id : Nat} (h : Canonical s) : Canonical (closeStore s id) := by
  unfold closeStore
  split
  · exact canonical_ite (freeStore_canonical h) h
  · exact h

theorem takeLine_canonical {a : Asker} (h : Canonical s) : Canonical (takeLine s a) := by
  unfold takeLine
  split
  · exact afterIssue_canonical h
  · exact h
  · exact h

theorem landLine_canonical {l : Line} (h : Canonical s) : Canonical (landLine s l) := by
  unfold landLine
  split
  · exact writeLocal_canonical h
  · exact h

theorem beat_canonical {k : Nat} {half : Half} {n : Nat} (h : Canonical s) : Canonical (beat k half n s) := by
  dsimp only [beat]
  split
  · exact h
  · refine canonical_ite h ?_
    split
    · exact h
    · exact landLine_canonical (takeLine_canonical h)

theorem answerLines_canonical {k : Nat} (h : Canonical s) : Canonical (answerLines k s) := by
  unfold answerLines
  refine foldl_canonical (fun hu => ?_) h
  split
  · exact releaseEffects_canonical hu
  · exact closeStore_canonical hu
  · exact hu

theorem portPclk_canonical {k : Nat} {p : Half × Nat} (h : Canonical s) : Canonical (portPclk k s p) :=
  canonical_ite (beat_canonical (beat_canonical (beat_canonical (beat_canonical h)))) h

theorem runPclk_canonical {k : Nat} (h : Canonical s) : Canonical (runPclk k s) :=
  foldl_canonical portPclk_canonical (answerLines_canonical h)

theorem wakePiece_canonical {p : Piece} (h : Canonical s) : Canonical (wakePiece s p) := by
  unfold wakePiece
  split
  · exact wakeHalf_canonical h
  · exact h

theorem answerHost_canonical {r : Request} {ps : List Piece} (h : Canonical s) : Canonical (answerHost s r ps).1 := by
  unfold answerHost
  split
  · exact askHost_canonical h
  · exact h

/-! ### Arrivals at the Anvil ports -/

theorem codedEvent_canonical {ctx ring block : Nat} (h : Canonical s) : Canonical (codedEvent s ctx ring block) := ctxEvent_canonical h

theorem lineTimes_canonical {first start slack : Nat} :
    ∀ {n : Nat} {floors : List Nat} {last : Mc} {s : State}, Canonical s → Canonical (lineTimes first start slack floors n last s).2
  | 0, _, _, _, h => h
  | n + 1, _, _, s, h => lineTimes_canonical (n := n) (s := (draw s).2) h

theorem giveLanes_canonical {half : Half} {ap : Nat} : ∀ {n : Nat} {s : State}, Canonical s → Canonical (giveLanes half ap n s)
  | 0, _, h => h
  | n + 1, s, h => by
    unfold giveLanes
    dsimp only
    split
    · exact h
    · split
      · exact h
      · split
        · exact h
        · exact giveLanes_canonical h

theorem runLanes_canonical {half : Half} {ap : Nat} (h : Canonical s) : Canonical (runLanes s half ap) := giveLanes_canonical h

theorem emitBlock_canonical {r : CodedRun} {block cost : Nat} {raw : Bool} {out : Option (List Byte)} (h : Canonical s) :
    Canonical (emitBlock s r block cost raw out) :=
  canonical_ite (codedEvent_canonical h) h

theorem placeBlock_canonical {r : CodedRun} {has : Bool} {block : Nat} (h : Canonical s) : Canonical (placeBlock s r has block) :=
  canonical_ite h h

theorem takeBlocks_canonical {r : CodedRun} :
    ∀ {n : Nat} {s : State} {x : Arriving}, Canonical s → Canonical (takeBlocks r n s x).1
  | 0, _, _, h => h
  | n + 1, s, x, h => by
    unfold takeBlocks
    dsimp only
    split
    · exact h
    · split
      · exact h
      · split
        · exact placeBlock_canonical h
        · exact takeBlocks_canonical (emitBlock_canonical (placeBlock_canonical h))

theorem restBlocks_canonical {r : CodedRun} {x : Arriving} (h : Canonical s) : Canonical (restBlocks r s x) :=
  foldl_canonical (fun hu => emitBlock_canonical (placeBlock_canonical hu)) h

theorem codedIn_canonical {half : Half} {ap : Nat} {c : RingCfg} {n : Nat} {bs : List SByte} {whole : Bool} (h : Canonical s) :
    Canonical (codedIn s half ap c n bs whole) := by
  dsimp only [codedIn]
  split
  · exact h
  · refine canonical_ite (restBlocks_canonical (takeBlocks_canonical ?_)) (takeBlocks_canonical ?_) <;>
    · split
      · split
        · exact h
        · exact restBlocks_canonical h
      · exact h

theorem tableIn_canonical {half : Half} {ap : Nat} {c : RingCfg} {bs : List SByte} (h : Canonical s) :
    Canonical (tableIn s half ap c bs) :=
  canonical_ite (codedEvent_canonical h) h

theorem arrive_canonical {half : Half} {ap : Nat} {m : PortMsg} (h : Canonical s) : Canonical (arrive half ap s m) := by
  unfold arrive
  split
  · exact h
  · split
    · exact codedIn_canonical h
    · exact h
  · split
    · exact tableIn_canonical h
    · exact h

theorem portArrivals_canonical {a : AnvilPort} (h : Canonical s) : Canonical (portArrivals s a) :=
  canonical_ite h (runLanes_canonical (foldl_canonical arrive_canonical h))

theorem arrivals_canonical (h : Canonical s) : Canonical (arrivals s) := foldl_canonical portArrivals_canonical h

/-! ### Time -/

theorem sendCopy_canonical {ctr : Nat} (h : Canonical s) : Canonical (sendCopy s ctr) := by
  unfold sendCopy
  repeat' split
  all_goals exact h

theorem applyUpdate_canonical {u : Update} (h : Canonical s) : Canonical (applyUpdate s u) := by
  unfold applyUpdate
  split
  · exact h
  · exact canonical_ite h (sendCopy_canonical h)

theorem wakeWaiters_canonical (h : Canonical s) : Canonical (wakeWaiters s) :=
  canonical_ite (wakeHalf_canonical (canonical_ite (wakeHalf_canonical h) h)) (canonical_ite (wakeHalf_canonical h) h)

theorem counterChanged_canonical (h : Canonical s) : Canonical (counterChanged s) := wakeContexts_canonical (wakeWaiters_canonical h)

theorem wakeTimers_canonical (h : Canonical s) : Canonical (wakeTimers s) :=
  canonical_ite (wakeHalf_canonical (canonical_ite (wakeHalf_canonical h) h)) (canonical_ite (wakeHalf_canonical h) h)

theorem wakeAsked_canonical (h : Canonical s) : Canonical (wakeAsked s) :=
  canonical_ite (wakeHalf_canonical (canonical_ite (wakeHalf_canonical h) h)) (canonical_ite (wakeHalf_canonical h) h)

theorem applyUpdates_canonical (h : Canonical s) : Canonical (applyUpdates s) :=
  foldl_canonical (fun hu => counterChanged_canonical (applyUpdate_canonical hu)) h

theorem applyCopies_canonical (h : Canonical s) : Canonical (applyCopies s) := foldl_canonical (fun hu => counterChanged_canonical hu) h

theorem landStrs_canonical (h : Canonical s) : Canonical (landStrs s) := by
  unfold landStrs
  refine foldl_canonical (fun hu => ?_) h
  split
  · exact writeBank_canonical hu
  · exact hu

theorem answerStrs_canonical (h : Canonical s) : Canonical (answerStrs s) := canonical_ite (releaseSigs_canonical h) h

theorem followSent_canonical (h : Canonical s) : Canonical (followSent s) := foldl_canonical releaseEffects_canonical h

theorem runPorts_canonical (h : Canonical s) : Canonical (runPorts s) :=
  canonical_ite (runPclk_canonical (wakeAsked_canonical h)) (wakeAsked_canonical h)

theorem endMbist_canonical (h : Canonical s) : Canonical (endMbist s) := by
  unfold endMbist
  split
  · exact canonical_ite (zeroStock_canonical h) h
  · exact h

theorem tick_canonical (h : Canonical s) : Canonical (tick s) := by
  dsimp only [tick, freeHeads]
  refine canonical_ite ?_ ?_
  · exact runPorts_canonical (followSent_canonical (applyCopies_canonical
      (applyUpdates_canonical (answerStrs_canonical (landStrs_canonical
        (arrivals_canonical (wakeTimers_canonical (endMbist_canonical h))))))))
  · exact followSent_canonical (applyCopies_canonical (applyUpdates_canonical
      (answerStrs_canonical (landStrs_canonical (arrivals_canonical (wakeTimers_canonical (endMbist_canonical h)))))))

theorem advanceTo_canonical : ∀ {n : Nat} {s : State} {t : Mc}, Canonical s → Canonical (advanceTo n s t)
  | 0, _, _, h => h
  | n + 1, s, t, h => by
    unfold advanceTo
    split
    · exact canonical_ite (advanceTo_canonical (tick_canonical h)) h
    · exact h

theorem atTime_canonical {t : Mc} (h : Canonical s) : Canonical (atTime s t) := by
  have passed : Canonical (syncPorts (advanceTo (t - s.time) s t)) := advanceTo_canonical h
  exact canonical_ite h ⟨passed.mem, h.flash⟩

theorem hostAt_canonical {t : Mc} {half : Half} (h : Canonical s) : Canonical (hostAt s t half) := hostBeat_canonical (atTime_canonical h)

theorem idle_canonical (h : Canonical s) : Canonical (idle s) := atTime_canonical h

theorem passUntil_canonical {p : State → Bool} : ∀ {n : Nat} {s : State}, Canonical s → Canonical (passUntil p n s)
  | 0, _, h => h
  | n + 1, s, h => by
    unfold passUntil
    split
    · exact h
    · split
      · exact passUntil_canonical (atTime_canonical h)
      · exact h

theorem whenReady_canonical {t : Mc} {p : State → Bool} (h : Canonical s) : Canonical (whenReady s t p) :=
  canonical_ite (passUntil_canonical (atTime_canonical h)) (atTime_canonical h)

end

end Sys2Proof.Machine
end

section
/-! The haulers: every instruction of a program runs under `withInstr`, and what it writes goes through `emitPieces`. -/

namespace Sys2Proof.Machine

section
variable {s : State}

/-! ### Rings and handle queues -/

theorem execRingPublish_canonical {t : Mc} {ctx : Fin 256} {ring : Fin 2048} (h : Canonical s) :
    ResultCanonical (execRingPublish t ctx ring s) := by
  dsimp only [execRingPublish, setReq, publishBillet, updRing, popEffect]
  split
  · exact answer_canonical h (whenReady_canonical h)
  · exact answer_canonical h (releaseEffects_canonical (askHost_canonical (whenReady_canonical h)))

theorem writeHandle_canonical {w : Writer} {c : HandleCfg} {n base : Nat} (h : Canonical s) : Canonical (writeHandle s w c n base) :=
  writeBank_canonical h

theorem execHandlePublish_canonical {t : Mc} {ctx : Fin 256} {queue : Fin 1024} (h : Canonical s) :
    ResultCanonical (execHandlePublish t ctx queue s) := by
  dsimp only [execHandlePublish, updHandle, setReq, popEffect]
  split
  · exact answer_canonical h (releaseEffects_canonical (writeHandle_canonical (askHost_canonical (whenReady_canonical h))))
  · exact answer_canonical h (whenReady_canonical h)

/-! ### Billets -/

theorem countChannel_canonical {ctx ch sat nonFinite : Nat} (h : Canonical s) : Canonical (countChannel s ctx ch sat nonFinite) := by
  unfold countChannel
  split
  · exact canonical_ite (ctxEvent_canonical h) h
  · exact h

theorem accountBlocks_canonical {r : Request} {m : Mods} {bs : List QBlock} (h : Canonical s) : Canonical (accountBlocks s r m bs).1 := by
  dsimp only [accountBlocks]
  split
  · exact countChannel_canonical h
  · exact h

theorem raiseFaults_canonical {ctx : Nat} {waiter : Option Nat} {prefetch atomic : Bool} {fs : List (Nat × Nat × Nat × Bool)}
    (h : Canonical s) : Canonical (raiseFaults s ctx waiter prefetch atomic fs) :=
  foldl_canonical faultBlock_canonical h

theorem blockBillet_canonical {r0 : Request} {x : Xlate} {atomic : Bool} (h : Canonical s) : (blockBillet s r0 x atomic).Canonical := by
  unfold blockBillet
  split
  · exact .go h
  · exact .stop (endHere_canonical h)
  · exact .stop (endHere_canonical h)
  · exact .fault
  · exact .stop (beginWait_canonical h)
  · refine flow_ite (.stop (endHere_canonical h)) ?_
    split
    · exact .go h
    · exact .stop (beginWait_canonical (raiseFaults_canonical h))

theorem requestPiece_canonical {segs : List (Nat × Nat × Bool)} {id : Nat} {p : Piece} (h : Canonical s) :
    Canonical (requestPiece segs s id p) := by
  dsimp only [requestPiece]
  split
  · exact h
  · refine foldl_canonical (fun hu => ?_) h
    split
    · exact hu
    · refine canonical_ite hu ?_
      split <;> exact newRemote_canonical hu

theorem awaitRemote_canonical {r : Request} {all ps : List Piece} (h : Canonical s) : (awaitRemote s r all ps).Canonical := by
  dsimp only [awaitRemote]
  refine flow_ite (.stop (endHere_canonical h)) ?_
  refine flow_ite (.stop (beginWait_canonical h)) ?_
  refine flow_ite (.go h) ?_
  refine flow_ite (.stop (beginWait_canonical h)) ?_
  split
  · exact .stop (beginWait_canonical (foldl_canonical requestPiece_canonical h))
  · exact .stop (foldl_canonical requestPiece_canonical h)

theorem writeRemote_canonical {segs : List (Nat × Nat × Bool)} {id : Nat} {p : Piece} {bs : List SByte} (h : Canonical s) :
    Canonical (writeRemote segs s id p bs) := by
  dsimp only [writeRemote]
  split
  · exact h
  · refine foldl_canonical (fun hu => ?_) h
    split
    · exact hu
    · split <;> exact newRemote_canonical hu

theorem emitPieces_canonical {ctx id : Nat} {segs : List (Nat × Nat × Bool)} :
    ∀ {ps : List Piece} {s : State} {bs : List SByte}, Canonical s → Canonical (emitPieces ctx segs id s ps bs)
  | [], _, _, h => h
  | _ :: ps, _, _, h => emitPieces_canonical (ps := ps) (canonical_ite (writeRemote_canonical h) (storePiece_canonical h))

theorem commitBillet_canonical {r0 : Request} {m : Mods} {j : Job} {pre : List SByte} {srcPs : List Piece} {bs : List SByte}
    {p1 : PassState} {dst : List Piece} (h : Canonical s) : Canonical (commitBillet s r0 m j pre srcPs bs p1 dst) :=
  touchBlocks_canonical (emitPieces_canonical (accountBlocks_canonical h))

theorem crossSeam_canonical {r : Request} {ps : List Piece} (h : Canonical s) : (crossSeam s r ps).Canonical :=
  flow_ite (.go h) (flow_ite (.stop (beginWait_canonical (wakeHalf_canonical h))) (.go (wakeHalf_canonical h)))

theorem finishBillet_canonical {r : Request} {m : Mods} {j : Job} {main : List SrcRange} {nPre nSrc : Nat} {needs : List Need}
    {ps : List Piece} (h : Canonical s) : (finishBillet s r m j main nPre nSrc needs ps).Canonical := by
  unfold finishBillet
  refine Flow.bind_canonical (crossSeam_canonical h) fun hu => ?_
  refine Flow.bind_canonical (awaitRemote_canonical (answerHost_canonical hu)) fun hv => ?_
  exact flow_ite (.stop (endHere_canonical hv)) (.go (commitBillet_canonical hv))

theorem runJob_canonical {r : Request} {m : Mods} {j : Job} (h : Canonical s) : (runJob s r m j).Canonical := by
  dsimp only [runJob]
  split
  · refine flow_ite ?_ ?_
    · split
      · exact finishBillet_canonical h
      · exact blockBillet_canonical h
    · split
      · refine Flow.bind_canonical (awaitRemote_canonical h) fun hu => ?_
        split
        · split
          · exact finishBillet_canonical hu
          · exact blockBillet_canonical hu
        · exact .stop hu
      · exact blockBillet_canonical h
  · exact blockBillet_canonical h

theorem runJobs_canonical {m : Mods} {id : Nat} : ∀ {js : List Job} {s : State}, Canonical s → (runJobs m id s js).Canonical
  | [], _, h => .go h
  | j :: js, s, h => by
    unfold runJobs
    split
    · exact .stop h
    · exact Flow.bind_canonical (runJob_canonical h) runJobs_canonical

theorem needTongs_canonical {r : Request} (h : Canonical s) : (needTongs s r).Canonical :=
  flow_ite (.go h) (.stop (beginWait_canonical h))

theorem endUnitTest_canonical {half : Half} (h : Canonical s) : Canonical (endUnitTest s half) := by
  unfold endUnitTest
  repeat' split
  all_goals exact h

theorem execTongsSlotGrant_canonical {t : Mc} {half : Half} (h : Canonical s) : ResultCanonical (execTongsSlotGrant t half s) := by
  dsimp only [execTongsSlotGrant, setReq]
  split
  · refine answer_canonical h ?_
    refine canonical_ite (whenReady_canonical (endUnitTest_canonical (atTime_canonical h))) ?_
    exact whenReady_canonical (endUnitTest_canonical (atTime_canonical h))
  · exact answer_canonical h (whenReady_canonical (endUnitTest_canonical (atTime_canonical h)))

/-! ### A hauler's instructions -/

theorem goNext_canonical {r : Request} (h : Canonical s) : (goNext s r).Canonical := .go h

theorem atInstr_canonical {t : Mc} {hauler : HaulerId} {row : String} (h : Canonical s) : Canonical (atInstr s t hauler row) :=
  canonical_ite (whenReady_canonical (atTime_canonical h)) (atTime_canonical h)

theorem noteProgress_canonical {r : Request} {x : Flow} (hx : x.Canonical) : (noteProgress r x).Canonical := by
  cases hx with
  | go hu =>
    refine .go ?_
    dsimp only
    split
    · exact canonical_ite hu hu
    · exact hu
  | stop hu =>
    refine .stop ?_
    dsimp only
    split
    · exact canonical_ite hu hu
    · exact hu
  | fault => exact .fault

theorem withInstr_canonical {t : Mc} {hauler : HaulerId} {row : String} {k : State → Request → HInstr → Flow} (h : Canonical s)
    (step : ∀ {u r i}, Canonical u → (k u r i).Canonical) : ResultCanonical (withInstr t hauler row s k) := by
  have ready := atInstr_canonical (t := t) (hauler := hauler) (row := row) h
  dsimp only [withInstr]
  split
  · exact Flow.result_canonical h (noteProgress_canonical (step ready))
  · exact answer_canonical h ready

theorem execParkedResume_canonical {t : Mc} {hauler : HaulerId} (h : Canonical s) : ResultCanonical (execParkedResume t hauler s) := by
  dsimp only [execParkedResume]
  split <;> exact answer_canonical h (atTime_canonical h)

theorem execNop_canonical {t : Mc} {hauler : HaulerId} (h : Canonical s) : ResultCanonical (execNop t hauler s) :=
  withInstr_canonical h goNext_canonical

theorem execHalt_canonical {t : Mc} {hauler : HaulerId} (h : Canonical s) : ResultCanonical (execHalt t hauler s) :=
  withInstr_canonical h fun hu => .go (haltRequest_canonical hu)

theorem execShape_canonical {t : Mc} {hauler : HaulerId} (h : Canonical s) : ResultCanonical (execShape t hauler s) := by
  unfold execShape
  refine withInstr_canonical h fun hu => ?_
  split
  · exact goNext_canonical hu
  · exact .go hu

theorem execLoop_canonical {t : Mc} {hauler : HaulerId} (h : Canonical s) : ResultCanonical (execLoop t hauler s) := by
  unfold execLoop
  refine withInstr_canonical h fun hu => ?_
  split <;> exact .go hu

theorem execStepBase_canonical {t : Mc} {hauler : HaulerId} (h : Canonical s) : ResultCanonical (execStepBase t hauler s) :=
  withInstr_canonical h goNext_canonical

theorem keepModifier_canonical {r : Request} (h : Canonical s) : (keepModifier s r).Canonical := goNext_canonical h

theorem execXform_canonical {t : Mc} {hauler : HaulerId} (h : Canonical s) : ResultCanonical (execXform t hauler s) :=
  withInstr_canonical h keepModifier_canonical

theorem execQuant_canonical {t : Mc} {hauler : HaulerId} (h : Canonical s) : ResultCanonical (execQuant t hauler s) :=
  withInstr_canonical h keepModifier_canonical

theorem execSums_canonical {t : Mc} {hauler : HaulerId} (h : Canonical s) : ResultCanonical (execSums t hauler s) :=
  withInstr_canonical h keepModifier_canonical

theorem execSetp_canonical {t : Mc} {hauler : HaulerId} (h : Canonical s) : ResultCanonical (execSetp t hauler s) := by
  unfold execSetp
  refine withInstr_canonical h fun hu => ?_
  split
  · exact goNext_canonical hu
  · exact .go hu

theorem evalRequestWait_canonical {r : Request} {vid ctr target gen : Nat} (h : Canonical s) :
    (evalRequestWait s r vid ctr target gen).Canonical := by
  unfold evalRequestWait
  split
  · exact goNext_canonical h
  · exact .go (endHere_canonical h)
  · exact .stop (beginWait_canonical h)

theorem execWait_canonical {t : Mc} {hauler : HaulerId} (h : Canonical s) : ResultCanonical (execWait t hauler s) := by
  dsimp only [execWait]
  refine withInstr_canonical h fun hu => ?_
  split
  · split
    · exact goNext_canonical hu
    · exact .go (endHere_canonical hu)
    · exact evalRequestWait_canonical hu
    · split
      · exact .go (endHere_canonical hu)
      · split
        · exact evalRequestWait_canonical hu
        · exact .go (endHere_canonical hu)
  · exact .go hu

theorem execSignal_canonical {t : Mc} {hauler : HaulerId} (h : Canonical s) : ResultCanonical (execSignal t hauler s) := by
  unfold execSignal
  refine withInstr_canonical h fun hu => ?_
  split
  · split
    · exact .go (endHere_canonical hu)
    · exact .go (addEffect_canonical hu)
  · exact .go hu

theorem execFence_canonical {t : Mc} {hauler : HaulerId} (h : Canonical s) : ResultCanonical (execFence t hauler s) := by
  dsimp only [execFence]
  refine withInstr_canonical h fun hu => ?_
  split
  · split
    · exact .go (whenReady_canonical hu)
    · refine flow_ite (.stop (beginWait_canonical (whenReady_canonical hu))) ?_
      exact goNext_canonical (askHost_canonical (whenReady_canonical hu))
  · exact .go hu

theorem execPutHandle_canonical {t : Mc} {hauler : HaulerId} (h : Canonical s) : ResultCanonical (execPutHandle t hauler s) := by
  unfold execPutHandle
  refine withInstr_canonical h fun hu => ?_
  split
  · split
    · exact flow_ite (.go (addEffect_canonical hu)) (.stop (beginWait_canonical hu))
    · exact .go (endHere_canonical hu)
  · exact .go hu

theorem execTakeHandle_canonical {t : Mc} {hauler : HaulerId} (h : Canonical s) : ResultCanonical (execTakeHandle t hauler s) := by
  unfold execTakeHandle
  refine withInstr_canonical h fun hu => ?_
  split
  · split
    · exact .go (endHere_canonical hu)
    · split
      · exact .stop (beginWait_canonical hu)
      · exact goNext_canonical hu
  · exact .go hu

theorem execTakeRingAcquire_canonical {t : Mc} {hauler : HaulerId} (h : Canonical s) :
    ResultCanonical (execTakeRingAcquire t hauler s) := by
  unfold execTakeRingAcquire
  refine withInstr_canonical h fun hu => ?_
  split
  · split
    · exact flow_ite (goNext_canonical hu) (.stop (beginWait_canonical hu))
    · exact .go (endHere_canonical hu)
  · exact .go hu

theorem execTakeRingRelease_canonical {t : Mc} {hauler : HaulerId} (h : Canonical s) :
    ResultCanonical (execTakeRingRelease t hauler s) := by
  unfold execTakeRingRelease
  refine withInstr_canonical h fun hu => ?_
  split
  · split
    · exact goNext_canonical hu
    · exact .go (endHere_canonical hu)
  · exact .go hu

theorem closePart_canonical {r : Request} {last : Bool} {status : Nat} (h : Canonical s) : Canonical (closePart s r last status) := by
  dsimp only [closePart, addEntry, closeEntries, judgeHeld, updLedger, setReq]
  exact h

theorem splitThen_canonical {r : Request} {k : State → Request → Flow} (h : Canonical s)
    (step : ∀ {u r}, Canonical u → (k u r).Canonical) : (splitThen s r k).Canonical := by
  unfold splitThen
  have closed : ∀ {last status}, Canonical (closePart s r last status) := closePart_canonical h
  refine flow_ite (flow_ite (.stop h) (step h)) ?_
  dsimp only
  split
  · exact .go closed
  · exact flow_ite (.stop (beginWait_canonical closed)) (step closed)

theorem execLedgerSplit_canonical {t : Mc} {hauler : HaulerId} (h : Canonical s) : ResultCanonical (execLedgerSplit t hauler s) :=
  withInstr_canonical h fun hu => flow_ite (splitThen_canonical hu goNext_canonical) (goNext_canonical hu)

theorem addMark_canonical {pi : Nat} {r : Request} (h : Canonical s) : (addMark pi s r).Canonical := goNext_canonical h

theorem execLedgerMark_canonical {t : Mc} {hauler : HaulerId} (h : Canonical s) : ResultCanonical (execLedgerMark t hauler s) := by
  unfold execLedgerMark
  refine withInstr_canonical h fun hu => ?_
  split
  · exact flow_ite (goNext_canonical hu) (flow_ite (splitThen_canonical hu addMark_canonical) (addMark_canonical hu))
  · exact .go hu

theorem execReport_canonical {t : Mc} {hauler : HaulerId} (h : Canonical s) : ResultCanonical (execReport t hauler s) := by
  unfold execReport
  refine withInstr_canonical h fun hu => ?_
  split
  · exact .go (addEffect_canonical hu)
  · exact .go hu

/-! ### Passes -/

theorem startPass_canonical {r : Request} {m : Mods} {sides : List RtSide} {apart : List (Nat × Nat)} (h : Canonical s) :
    (startPass s r m sides apart).Canonical := by
  unfold startPass
  refine flow_ite (.go h) ?_
  split
  · exact .stop (endHere_canonical h)
  · exact .go h

theorem finishPass_canonical {r : Request} {m : Mods} {dfmt elems : Nat} {ks : List Nat} (h : Canonical s) :
    Canonical (finishPass s r m dfmt elems ks).1 :=
  appendIssued_canonical h

theorem runPass_canonical {id : Nat} {m : Mods} {jobs : List Job} {k : State → Request → Flow} (h : Canonical s)
    (step : ∀ {u r}, Canonical u → (k u r).Canonical) : (runPass s id m jobs k).Canonical := by
  unfold runPass
  split
  · exact .stop h
  · refine Flow.bind_canonical (runJobs_canonical h) fun hu => ?_
    split
    · exact step hu
    · exact .stop hu

theorem withReq_canonical {f : Flow} {id : Nat} {k : State → Request → Flow} (hf : f.Canonical)
    (step : ∀ {u r}, Canonical u → (k u r).Canonical) : (withReq f id k).Canonical := by
  refine Flow.bind_canonical hf fun hu => ?_
  split
  · exact step hu
  · exact .stop hu

theorem moveBurst_canonical {r : Request} {src dst sfmt dfmt : Nat} {sr : Bool} {srp bil : Nat} (h : Canonical s) :
    (moveBurst s r src dst sfmt dfmt sr srp bil).Canonical := by
  unfold moveBurst
  refine withReq_canonical (startPass_canonical h) fun hu => ?_
  refine flow_ite (runPass_canonical hu (fun hv => goNext_canonical (finishPass_canonical hv))) ?_
  exact withReq_canonical (needTongs_canonical hu) fun hv => runPass_canonical hv (fun hw => goNext_canonical (finishPass_canonical hw))

theorem execMove_canonical {t : Mc} {hauler : HaulerId} (h : Canonical s) : ResultCanonical (execMove t hauler s) := by
  unfold execMove
  refine withInstr_canonical h fun hu => ?_
  split
  · exact moveBurst_canonical hu
  · exact .go hu

theorem execPace_canonical {t : Mc} {hauler : HaulerId} (h : Canonical s) : ResultCanonical (execPace t hauler s) := by
  unfold execPace
  refine withInstr_canonical h fun hu => ?_
  split
  · refine flow_ite (moveBurst_canonical hu) ?_
    split
    · exact .go (endHere_canonical hu)
    · exact flow_ite (moveBurst_canonical hu) (.stop (beginWait_canonical hu))
  · exact .go hu

theorem claimFill_canonical {r : Request} {c : RingCfg} (h : Canonical s) : (claimFill s r c).Canonical := by
  unfold claimFill
  refine flow_ite (.go h) ?_
  split
  · exact .stop (endHere_canonical h)
  · exact flow_ite (.go h) (.stop (beginWait_canonical h))

theorem endFill_canonical {r : Request} {m : Mods} {c : RingCfg} {src dfmt elems n : Nat} (h : Canonical s) :
    (endFill s r m c src dfmt elems n).Canonical := by
  dsimp only [endFill]
  split
  · exact goNext_canonical (finishPass_canonical h)
  · exact .go (addEffect_canonical (canonical_ite (finishPass_canonical h) (finishPass_canonical h)))

theorem execPutRingFill_canonical {t : Mc} {hauler : HaulerId} (h : Canonical s) : ResultCanonical (execPutRingFill t hauler s) := by
  unfold execPutRingFill
  refine withInstr_canonical h fun hu => ?_
  split
  · split
    · exact .go (endHere_canonical hu)
    · refine flow_ite (.go (endHere_canonical hu)) ?_
      refine withReq_canonical (startPass_canonical hu) fun hv => ?_
      refine withReq_canonical (claimFill_canonical hv) fun hw => ?_
      refine flow_ite (runPass_canonical hw endFill_canonical) ?_
      refine flow_ite (runPass_canonical hw endFill_canonical) ?_
      exact withReq_canonical (needTongs_canonical hw) fun hx => runPass_canonical hx endFill_canonical
  · exact .go hu

theorem takeFeed_canonical {r : Request} {feed n : Nat} (h : Canonical s) : Canonical (takeFeed s r feed n).1 := h

theorem endGather_canonical {r : Request} {m : Mods} {fmt : Nat} {ks : List Nat} (h : Canonical s) : (endGather s r m fmt ks).Canonical :=
  goNext_canonical (finishPass_canonical h)

theorem execGather_canonical {t : Mc} {hauler : HaulerId} (h : Canonical s) : ResultCanonical (execGather t hauler s) := by
  unfold execGather
  refine withInstr_canonical h fun hu => ?_
  split
  · refine withReq_canonical (startPass_canonical hu) fun hv => ?_
    refine flow_ite (runPass_canonical hv endGather_canonical) ?_
    refine flow_ite ?_ (.stop (beginWait_canonical hv))
    exact runPass_canonical (takeFeed_canonical hv) fun hw => flow_ite (endGather_canonical hw) (.stop (beginWait_canonical hw))
  · exact .go hu

theorem execCode_canonical {t : Mc} {hauler : HaulerId} (h : Canonical s) : ResultCanonical (execCode t hauler s) := by
  unfold execCode
  refine withInstr_canonical h fun hu => ?_
  split
  · refine withReq_canonical (startPass_canonical hu) fun hv => withReq_canonical (needTongs_canonical hv) fun hw => ?_
    exact runPass_canonical hw fun hx => goNext_canonical (finishPass_canonical hx)
  · exact .go hu

theorem execExpand_canonical {t : Mc} {hauler : HaulerId} (h : Canonical s) : ResultCanonical (execExpand t hauler s) := by
  unfold execExpand
  refine withInstr_canonical h fun hu => ?_
  split
  · refine withReq_canonical (startPass_canonical hu) fun hv => withReq_canonical (needTongs_canonical hv) fun hw => ?_
    exact runPass_canonical hw fun hx => goNext_canonical (finishPass_canonical hx)
  · exact .go hu

end

end Sys2Proof.Machine
end

section
/-! The queues, the channels and the administrative commands, all but one of which answer by `withAdmin`. -/

namespace Sys2Proof.Machine

section
variable {s : State}

/-! ### Queues and records -/

theorem keepSq_canonical {q : Nat} (h : Canonical s) : Canonical (keepSq s q) := by
  unfold keepSq
  split <;> exact h

theorem keepCq_canonical {q : Nat} (h : Canonical s) : Canonical (keepCq s q) := by
  unfold keepCq
  split <;> exact h

theorem queueError_canonical {q tOld tNew : Nat} (h : Canonical s) : Canonical (queueError s q tOld tNew) := raiseEvent_canonical h

theorem ringTail_canonical {q tNew : Nat} (h : Canonical s) : Canonical (ringTail s q tNew) := by
  dsimp only [ringTail, updSeenSq]
  split
  · exact h
  · refine canonical_ite h (canonical_ite (queueError_canonical ?_) ?_)
    · exact h
    · exact h

theorem ringHead_canonical {q v : Nat} (h : Canonical s) : Canonical (ringHead s q v) := by
  unfold ringHead
  repeat' split
  all_goals exact h

theorem execSqDoorbell_canonical {t : Mc} {q : Fin 8192} {w : BellWrite} (h : Canonical s) :
    ResultCanonical (execSqDoorbell t q w s) := by
  unfold execSqDoorbell
  refine result_ite (answer_canonical h (hostAt_canonical h)) ?_
  exact result_ite (answer_canonical h (hostAt_canonical h)) (answer_canonical h (ringTail_canonical (hostAt_canonical h)))

theorem execCqDoorbell_canonical {t : Mc} {q : Fin 2048} {w : BellWrite} (h : Canonical s) :
    ResultCanonical (execCqDoorbell t q w s) := by
  unfold execCqDoorbell
  refine result_ite (answer_canonical h (hostAt_canonical h)) ?_
  exact result_ite (answer_canonical h (hostAt_canonical h)) (answer_canonical h (ringHead_canonical (hostAt_canonical h)))

theorem addPacing_canonical {line delay : Nat} (h : Canonical s) : Canonical (addPacing s line delay) := by
  unfold addPacing
  split
  · exact canonical_ite (ctxEvent_canonical h) (wakeHalf_canonical h)
  · exact h

theorem execPacingDoorbell_canonical {t : Mc} {word : Nat} {w : BellWrite} (h : Canonical s) :
    ResultCanonical (execPacingDoorbell t word w s) := by
  unfold execPacingDoorbell
  refine result_ite (answer_canonical h (hostAt_canonical h)) ?_
  exact answer_canonical h (canonical_ite (addPacing_canonical (hostAt_canonical h)) (hostAt_canonical h))

theorem execPacingTimer_canonical {t : Mc} {line : Fin 256} (h : Canonical s) : ResultCanonical (execPacingTimer t line s) := by
  dsimp only [execPacingTimer, updPacing]
  split
  · exact result_ite (answer_canonical h (addPacing_canonical (atTime_canonical h))) (answer_canonical h (atTime_canonical h))
  · exact answer_canonical h (atTime_canonical h)

theorem holdAdmin_canonical {q : Nat} {e : List Byte} (h : Canonical s) : Canonical (holdAdmin s q e) := by
  unfold holdAdmin
  split <;> exact h

theorem execEntryFetch_canonical {t : Mc} {q : Fin 8192} (h : Canonical s) : ResultCanonical (execEntryFetch t q s) := by
  dsimp only [execEntryFetch, updSq]
  split
  · refine result_ite (answer_canonical h (atTime_canonical h)) ?_
    exact answer_canonical h (canonical_ite (holdAdmin_canonical (atTime_canonical h)) (atTime_canonical h))
  · exact answer_canonical h (atTime_canonical h)

theorem signalRecord_canonical {q p : Nat} {irq : Bool} (h : Canonical s) : Canonical (signalRecord s q p irq) := canonical_ite h h

theorem retireRequest_canonical {id status : Nat} (h : Canonical s) : Canonical (retireRequest s id status) := by
  unfold retireRequest
  split <;> exact h

theorem afterRecord_canonical {r : PendingRec} (h : Canonical s) : Canonical (afterRecord s r) := by
  dsimp only [afterRecord]
  split
  · split
    · refine releaseEffects_canonical ?_
      split
      · exact retireRequest_canonical h
      · exact h
    · split
      · exact retireRequest_canonical h
      · exact h
  · split
    · exact retireRequest_canonical h
    · exact h

theorem discardRecord_canonical {cq p : Nat} {r : PendingRec} (h : Canonical s) : Canonical (discardRecord s cq p r) :=
  afterRecord_canonical (raiseEvent_canonical h)

theorem writeRecord_canonical {cq : Nat} (h : Canonical s) : Canonical (writeRecord s cq) := by
  unfold writeRecord
  split
  · refine canonical_ite (discardRecord_canonical h) ?_
    refine canonical_ite (parkRecords_canonical h) ?_
    exact parkRecords_canonical (afterRecord_canonical (signalRecord_canonical (hostWrite_canonical h)))
  · exact h

theorem execCompletionRecord_canonical {t : Mc} {cq : Fin 2048} (h : Canonical s) : ResultCanonical (execCompletionRecord t cq s) :=
  answer_canonical h (canonical_ite (writeRecord_canonical (whenReady_canonical h)) (whenReady_canonical h))

theorem execMsixCoalesceTimeout_canonical {t : Mc} {cq : Fin 2048} (h : Canonical s) :
    ResultCanonical (execMsixCoalesceTimeout t cq s) := by
  dsimp only [execMsixCoalesceTimeout, sendMsix, updCq]
  repeat' split
  all_goals exact answer_canonical h (atTime_canonical h)

/-! ### Programs and channels -/

theorem fetchRange_canonical {r : Request} {va n : Nat} {k : State → Request → List Byte → Flow} (h : Canonical s)
    (step : ∀ {u r bs}, Canonical u → (k u r bs).Canonical) : (fetchRange s r va n k).Canonical := by
  dsimp only [fetchRange]
  split
  · refine flow_ite (.go (endRequest_canonical h)) ?_
    refine Flow.bind_canonical (crossSeam_canonical h) fun hu => Flow.bind_canonical (awaitRemote_canonical hu) fun hv => ?_
    split
    · exact step hv
    · exact .stop hv
  · exact blockBillet_canonical h

theorem touchFetched_canonical {ctx va n : Nat} (h : Canonical s) : Canonical (touchFetched s ctx va n) := by
  unfold touchFetched
  split
  · exact touchBlocks_canonical h
  · exact h

theorem beginProgram_canonical {r : Request} {prog : List Word} (h : Canonical s) : (beginProgram s r prog).Canonical := by
  dsimp only [beginProgram, setReq]
  split
  · exact .go (endRequest_canonical (touchFetched_canonical h))
  · exact .go (touchFetched_canonical h)

theorem fetchWords_canonical {id : Nat} : ∀ {n : Nat} {s : State}, Canonical s → (fetchWords n s id).Canonical
  | 0, _, h => .go h
  | n + 1, s, h => by
    unfold fetchWords
    split
    · exact .stop h
    · have ended : ∀ {status word}, Flow.Canonical (.go (endRequest s id status word [])) := .go (endRequest_canonical h)
      dsimp only
      split
      · exact .go (endRequest_canonical h)
      · refine flow_ite ended (flow_ite ended (flow_ite ended ?_))
        refine Flow.bind_canonical (fetchRange_canonical h fun hu => ?_) fun hu => ?_
        · split
          · exact beginProgram_canonical hu
          · exact .go hu
        · split
          · exact flow_ite (.go hu) (fetchWords_canonical hu)
          · exact .go hu

theorem fetchArgs_canonical {r : Request} {k : State → Request → Flow} (h : Canonical s)
    (step : ∀ {u r}, Canonical u → (k u r).Canonical) : (fetchArgs s r k).Canonical :=
  flow_ite (step h) (fetchRange_canonical h fun hu => step (touchFetched_canonical hu))

theorem prepare_canonical {id : Nat} (h : Canonical s) : (prepare s id).Canonical := by
  unfold prepare
  split
  · exact .stop h
  · split
    · exact .stop h
    · refine flow_ite (.go (endRequest_canonical h)) ?_
      refine fetchArgs_canonical h fun hu => ?_
      split
      · exact .go (endRequest_canonical hu)
      · exact fetchWords_canonical hu

theorem startRequest_canonical {q : Nat} {c : SqCfg} {hauler : HaulerId} {e : List Byte} (h : Canonical s) :
    (startRequest s q c hauler e).Canonical :=
  flow_ite (.go (endRequest_canonical h)) (prepare_canonical h)

theorem popHeld_canonical {q : Nat} (h : Canonical s) : Canonical (popHeld s q) := by
  dsimp only [popHeld, updSq, updSeenSq, updOldSq]
  repeat' split
  all_goals exact h

theorem dispatchFront_canonical {hauler : HaulerId} {q : Nat} {e : List Byte} {prep : SubQueue → SubQueue} (h : Canonical s) :
    (dispatchFront s hauler q e prep).Canonical := by
  dsimp only [dispatchFront, updSq, updSeenSq, updOldSq, notePick]
  split
  · exact .go h
  · exact startRequest_canonical (popHeld_canonical h)

theorem orFetching_canonical {t : Mc} {hauler : HaulerId} {k : State → Flow} (h : Canonical s)
    (step : ∀ {u}, Canonical u → (k u).Canonical) : ResultCanonical (orFetching t hauler s k) := by
  have passed := atTime_canonical (t := t) h
  dsimp only [orFetching]
  split
  · exact Flow.result_canonical h (prepare_canonical passed)
  · exact Flow.result_canonical h (step passed)

theorem execHaul_canonical {t : Mc} {hauler : HaulerId} (h : Canonical s) : ResultCanonical (execHaul t hauler s) := by
  unfold execHaul
  refine orFetching_canonical h fun hu => ?_
  split
  · exact .go hu
  · split
    · exact flow_ite (.go hu) (dispatchFront_canonical hu)
    · exact .go hu

theorem armChannel_canonical {hauler : HaulerId} {q : Nat} {e : List Byte} (h : Canonical s) : (armChannel s hauler q e).Canonical :=
  flow_ite (dispatchFront_canonical h) (.go h)

theorem putShadow_canonical {q : Nat} {e : List Byte} (h : Canonical s) : Canonical (putShadow s q e) := by
  dsimp only [putShadow, updSq, completeEntry, updSeenSq, updOldSq, readyRecord]
  exact canonical_ite (popHeld_canonical h) (popHeld_canonical h)

theorem execArm_canonical {t : Mc} {hauler : HaulerId} {q : Fin 8192} (h : Canonical s) : ResultCanonical (execArm t hauler q s) := by
  dsimp only [execArm]
  refine orFetching_canonical h fun hu => ?_
  split
  · exact .go hu
  · exact flow_ite (.go (popHeld_canonical hu)) (armChannel_canonical hu)

theorem execRearm_canonical {t : Mc} {hauler : HaulerId} {q : Fin 8192} (h : Canonical s) : ResultCanonical (execRearm t hauler q s) := by
  dsimp only [execRearm]
  refine orFetching_canonical h fun hu => ?_
  split
  · exact .go hu
  · exact flow_ite (armChannel_canonical hu) (flow_ite (.go (popHeld_canonical hu)) (.go (putShadow_canonical hu)))

theorem stopChannel_canonical {x : SubQueue} {e : List Byte} (h : Canonical s) : Canonical (stopChannel s x e) := by
  dsimp only [stopChannel, updSq, completeEntry, updSeenSq, updOldSq, readyRecord]
  exact canonical_ite (popHeld_canonical h) (canonical_ite (popHeld_canonical h) (popHeld_canonical h))

theorem execStop_canonical {t : Mc} {q : Fin 8192} (h : Canonical s) : ResultCanonical (execStop t q s) := by
  dsimp only [execStop]
  split
  · exact answer_canonical h (stopChannel_canonical (atTime_canonical h))
  · exact answer_canonical h (atTime_canonical h)

theorem channelIdle_canonical {q : Nat} (h : Canonical s) : Canonical (channelIdle s q) := by
  unfold channelIdle
  split
  · exact h
  · exact foldl_canonical (fun hu => hu) h

theorem absorbRearm_canonical {q : Nat} : ∀ {n : Nat} {s : State}, Canonical s → Canonical (absorbRearm q n s)
  | 0, _, h => h
  | n + 1, s, h => by
    unfold absorbRearm
    split
    · exact h
    · dsimp only
      split
      · exact h
      · split
        · exact absorbRearm_canonical (stopChannel_canonical h)
        · exact putShadow_canonical h
        · exact h

theorem popShadow_canonical {q : Nat} {e : List Byte} (h : Canonical s) : Canonical (popShadow s q e) := by
  dsimp only [popShadow, updSq, updSeenSq, updOldSq]
  exact canonical_ite h h

theorem nextRun_canonical {hauler : HaulerId} {x : SubQueue} {c : SqCfg} {status : Nat} (h : Canonical s) :
    (nextRun s hauler x c status).Canonical := by
  unfold nextRun
  split
  · exact flow_ite (startRequest_canonical (popShadow_canonical h)) (.go h)
  · refine flow_ite (.go (channelIdle_canonical h)) ?_
    split
    · exact flow_ite (startRequest_canonical h) (.go h)
    · exact .go (channelIdle_canonical h)

theorem execPersistentNextRun_canonical {t : Mc} {hauler : HaulerId} {q : Fin 8192} (h : Canonical s) :
    ResultCanonical (execPersistentNextRun t hauler q s) := by
  dsimp only [execPersistentNextRun]
  refine orFetching_canonical h fun hu => ?_
  split
  · split
    · exact flow_ite (nextRun_canonical (absorbRearm_canonical hu)) (.go hu)
    · exact .go hu
  · exact .go hu

/-! ### Counters -/

theorem abandonCtr_canonical {c : CtrCfg} (h : Canonical s) : Canonical (abandonCtr s c) := sendCopy_canonical h

theorem abandonOwned_canonical {ctx : Nat} (h : Canonical s) : Canonical (abandonOwned s ctx) :=
  counterChanged_canonical (foldl_canonical abandonCtr_canonical h)

theorem restoreCtr_canonical {c : CtrCfg} (h : Canonical s) : Canonical (restoreCtr s c) := sendCopy_canonical h

theorem restoreOwned_canonical {ctx : Nat} (h : Canonical s) : Canonical (restoreOwned s ctx) :=
  counterChanged_canonical (foldl_canonical restoreCtr_canonical h)

theorem execCounterUpdate_canonical {t : Mc} {ctr : Fin 65536} (h : Canonical s) : ResultCanonical (execCounterUpdate t ctr s) := by
  dsimp only [execCounterUpdate]
  split
  · exact answer_canonical h (canonical_ite (atTime_canonical (whenReady_canonical h)) (whenReady_canonical h))
  · exact answer_canonical h (whenReady_canonical h)

theorem execCounterWait_canonical {t : Mc} {half : Half} {ctx : Fin 256} {vid : BitVec 12} {target : Word} (h : Canonical s) :
    ResultCanonical (execCounterWait t half ctx vid target s) := by
  dsimp only [execCounterWait, updCtx, setAns]
  refine result_ite (answer_canonical h (atTime_canonical h)) ?_
  split
  · split
    · exact answer_canonical h (atTime_canonical h)
    · exact answer_canonical h (wakeContexts_canonical (atTime_canonical h))
  · exact answer_canonical h (ctxEvent_canonical (atTime_canonical h))

theorem execHostAdd_canonical {t : Mc} {w : RegWrite} (h : Canonical s) : ResultCanonical (execHostAdd t w s) := by
  dsimp only [execHostAdd, updPartRegs]
  refine result_ite (answer_canonical h (hostAt_canonical h)) ?_
  refine result_ite (answer_canonical h (hostAt_canonical h)) ?_
  split
  · split
    · exact result_ite (answer_canonical h (sendUpdate_canonical (hostAt_canonical h))) (answer_canonical h (hostAt_canonical h))
    · exact answer_canonical h (hostAt_canonical h)
  · exact answer_canonical h (hostAt_canonical h)

/-! ### Administrative commands -/

theorem withAdminBy_canonical {fin : State → State → Result} {t : Mc} {p : Fin 16} {cmd : Nat} {names : List Byte → Option Nat}
    {checks : State → List Byte → List (Nat × Nat)} {act : State → List Byte → State} (h : Canonical s)
    (answers : ∀ {u e}, Canonical u → ResultCanonical (fin s (act u e))) :
    ResultCanonical (withAdminBy fin t p cmd s names checks act) := by
  have passed := atTime_canonical (t := t) h
  have popped : Canonical (popHeld (atTime s t) p.val) := popHeld_canonical passed
  dsimp only [withAdminBy]
  split
  · exact answer_canonical h passed
  · refine result_ite (answer_canonical h passed) ?_
    split
    · exact answer_canonical h popped
    · split
      · exact answer_canonical h popped
      · exact answers popped

theorem withAdmin_canonical {t : Mc} {p : Fin 16} {cmd : Nat} {names : List Byte → Option Nat}
    {checks : State → List Byte → List (Nat × Nat)} {act : State → List Byte → State} (h : Canonical s)
    (acts : ∀ {u e}, Canonical u → Canonical (act u e)) : ResultCanonical (withAdmin t p cmd s names checks act) :=
  withAdminBy_canonical h fun hu => answer_canonical h (acts hu)

theorem execSqEnable_canonical {t : Mc} {p : Fin 16} (h : Canonical s) : ResultCanonical (execSqEnable t p s) := by
  dsimp only [execSqEnable, adminRecord, updSq, finishAdmin, readyRecord]
  exact withAdmin_canonical h keepSq_canonical

theorem execCqEnable_canonical {t : Mc} {p : Fin 16} (h : Canonical s) : ResultCanonical (execCqEnable t p s) := by
  dsimp only [execCqEnable, adminRecord, updCq, finishAdmin, readyRecord]
  exact withAdmin_canonical h keepCq_canonical

theorem disableSq_canonical {q : Nat} (h : Canonical s) : Canonical (disableSq s q) := by
  unfold disableSq
  split
  · exact h
  · exact foldl_canonical (fun hu => hu) (keepSq_canonical h)

theorem disableCq_canonical {q : Nat} (h : Canonical s) : Canonical (disableCq s q) := keepCq_canonical h

theorem execSqDisable_canonical {t : Mc} {p : Fin 16} (h : Canonical s) : ResultCanonical (execSqDisable t p s) :=
  withAdmin_canonical h fun hu => canonical_ite hu (disableSq_canonical hu)

theorem execCqDisable_canonical {t : Mc} {p : Fin 16} (h : Canonical s) : ResultCanonical (execCqDisable t p s) :=
  withAdmin_canonical h disableCq_canonical

theorem execQueueReset_canonical {t : Mc} {p : Fin 16} (h : Canonical s) : ResultCanonical (execQueueReset t p s) :=
  withAdmin_canonical h fun hu => canonical_ite (disableCq_canonical hu) (disableSq_canonical hu)

theorem resetRequest_canonical {r : Request} (h : Canonical s) : Canonical (resetRequest s r) := endRequest_canonical h

theorem beginReset_canonical {ctx op profile : Nat} (h : Canonical s) : Canonical (beginReset s ctx op profile) :=
  abandonOwned_canonical (foldl_canonical resetRequest_canonical (foldl_canonical disableSq_canonical h))

theorem execContextReset_canonical {t : Mc} {p : Fin 16} (h : Canonical s) : ResultCanonical (execContextReset t p s) :=
  withAdmin_canonical h fun hu => canonical_ite hu (beginReset_canonical hu)

theorem finishOp_canonical {o : AdminOp} {status detail : Nat} (h : Canonical s) : Canonical (finishOp s o status detail) := h

theorem clearContext_canonical {ctx : Nat} (h : Canonical s) : Canonical (clearContext s ctx) := by
  dsimp only [clearContext, clearStores, clearBuffers, unstall]
  exact h

theorem execContextResetComplete_canonical {t : Mc} {ctx : Fin 256} (h : Canonical s) :
    ResultCanonical (execContextResetComplete t ctx s) := by
  have passed := atTime_canonical (t := t) h
  dsimp only [execContextResetComplete, updCtx]
  split
  · exact answer_canonical h passed
  · refine result_ite (answer_canonical h passed) ?_
    have cleared : Canonical (clearContext ((queuesOf (atTime s t) ctx.val).foldl channelIdle (atTime s t)) ctx.val) :=
      clearContext_canonical (foldl_canonical channelIdle_canonical passed)
    split
    · refine answer_canonical h (finishOp_canonical (restoreOwned_canonical ?_))
      exact cleared
    · refine answer_canonical h (restoreOwned_canonical ?_)
      exact cleared

end

end Sys2Proof.Machine
end

section
/-! The memory side: operand reads, line loops, the block and atomic instructions, reductions and the stores of the schedule. -/

namespace Sys2Proof.Machine

section
variable {s : State}

/-! ### Operand reads -/

theorem portEvent_canonical {a : AnvilPort} {code object value : Nat} (h : Canonical s) :
    Canonical (portEvent s a code object value) := by
  unfold portEvent
  split
  · exact ctxEvent_canonical h
  · exact raiseEvent_canonical h

theorem deliverSpoiled_canonical {a : AnvilPort} {unit n : Nat} (h : Canonical s) : Canonical (deliverSpoiled s a unit n) :=
  portEvent_canonical h

theorem popLines_canonical {half : Half} {ap : Nat} :
    ∀ {n : Nat} {s : State} {acc : List SByte}, Canonical s → Canonical (popLines n s half ap acc).1
  | 0, _, _, h => h
  | n + 1, s, acc, h => by
    have run : ∀ {a : AnvilPort}, Canonical (runLanes (updAnvil s half ap fun _ => a) half ap) := runLanes_canonical h
    unfold popLines
    dsimp only
    split
    · exact popLines_canonical run
    · exact popLines_canonical (portEvent_canonical run)
    · exact popLines_canonical (portEvent_canonical run)

theorem readExpanded_canonical {a : AnvilPort} {o : OpRead} (h : Canonical s) : Canonical (readExpanded s a o) := by
  unfold readExpanded
  split
  · exact deliverSpoiled_canonical h
  · exact canonical_ite (deliverSpoiled_canonical h) (popLines_canonical h)

theorem readLanding_canonical {a : AnvilPort} {o : OpRead} (h : Canonical s) : Canonical (readLanding s a o) := by
  unfold readLanding
  refine canonical_ite (deliverSpoiled_canonical h) ?_
  refine canonical_ite (deliverSpoiled_canonical h) ?_
  refine canonical_ite (deliverSpoiled_canonical h) ?_
  split
  · exact deliverSpoiled_canonical h
  · exact h

theorem execOperandRead_canonical {t : Mc} {half : Half} {ap : Fin 16} {fields : BitVec 57} (h : Canonical s) :
    ResultCanonical (execOperandRead t half ap fields s) := by
  unfold execOperandRead
  refine result_ite (answer_canonical h (atTime_canonical h)) ?_
  refine result_ite ?_ ?_
  · refine result_ite ?_ (answer_canonical h (deliverSpoiled_canonical (atTime_canonical h)))
    exact answer_canonical h (deliverSpoiled_canonical (readExpanded_canonical (atTime_canonical h)))
  · refine result_ite (answer_canonical h (readExpanded_canonical (atTime_canonical h))) ?_
    exact answer_canonical h (readLanding_canonical (atTime_canonical h))

/-! ### Line loops -/

theorem endLoop_canonical (h : Canonical s) : Canonical (endLoop s) := canonical_ite h h

theorem lineReturned_canonical {j : Nat} {data : List Byte} {bad : Bool} (h : Canonical s) : Canonical (lineReturned s j data bad) :=
  canonical_ite h (endLoop_canonical h)

theorem lineLost_canonical {j : Nat} (h : Canonical s) : Canonical (lineLost s j) := canonical_ite h (endLoop_canonical h)

theorem stopLoop_canonical {state status : Nat} (h : Canonical s) : Canonical (stopLoop s state status) := canonical_ite h h

theorem abortLoop_canonical (h : Canonical s) : Canonical (abortLoop s) := stopLoop_canonical h

theorem sendGroup_canonical {isWrite : Bool} {j : Nat} (h : Canonical s) : Canonical (sendGroup s isWrite j) :=
  foldl_canonical newRemote_canonical (canonical_ite h h)

theorem groupAnswered_canonical {isWrite : Bool} {line : Nat} {data : List SByte} (h : Canonical s) :
    Canonical (groupAnswered s isWrite line data) := by
  unfold groupAnswered
  refine canonical_ite (canonical_ite h (foldl_canonical lineReturned_canonical h)) ?_
  refine canonical_ite (sendGroup_canonical (canonical_ite h (foldl_canonical lineReturned_canonical h))) ?_
  refine canonical_ite (sendGroup_canonical (canonical_ite h (foldl_canonical lineReturned_canonical h))) ?_
  exact canonical_ite h (foldl_canonical lineReturned_canonical h)

theorem groupLost_canonical {line : Nat} (h : Canonical s) : Canonical (groupLost s line) := canonical_ite h (sendGroup_canonical h)

theorem engage_canonical (h : Canonical s) : Canonical (engage s) := canonical_ite h (canonical_ite h h)

theorem isolateChiplet_canonical (h : Canonical s) : Canonical (isolateChiplet s) := foldl_canonical (fun hu => hu) h

theorem startLoop_canonical {v : Nat} {start : Bool} (h : Canonical s) : Canonical (startLoop s v start) := by
  unfold startLoop
  refine canonical_ite h ?_
  split
  · exact h
  · exact canonical_ite (sendGroup_canonical h) (canonical_ite (isolateChiplet_canonical (engage_canonical h)) (engage_canonical h))

theorem execLoopStart_canonical {t : Mc} {w : RegWrite} (h : Canonical s) : ResultCanonical (execLoopStart t w s) :=
  result_ite (answer_canonical h (startLoop_canonical (hostAt_canonical h))) (answer_canonical h (hostAt_canonical h))

theorem loopBack_canonical {j : Nat} {flips : List Byte} (h : Canonical s) : Canonical (loopBack s j flips).1 := by
  dsimp only [loopBack]
  split
  · exact writeLocal_canonical h
  · exact h

theorem loopReturn_canonical {j : Nat} {flips : List Byte} {bad : Bool} (h : Canonical s) : Canonical (loopReturn s j flips bad) := by
  dsimp only [loopReturn]
  exact canonical_ite h (lineReturned_canonical (loopBack_canonical h))

theorem execLoopLineLost_canonical {t : Mc} {half : Half} {line : Nat} (h : Canonical s) :
    ResultCanonical (execLoopLineLost t half line s) := by
  unfold execLoopLineLost
  refine result_ite (answer_canonical h (lineLost_canonical (engage_canonical (atTime_canonical h)))) ?_
  exact answer_canonical h (engage_canonical (atTime_canonical h))

/-! ### Prefetch, advice and atomics -/

theorem actBlocks_canonical {soon : Bool} {act : State → Nat × Nat → Flow} {id : Nat}
    (step : ∀ {u x}, Canonical u → (act u x).Canonical) :
    ∀ {xs : List (Nat × Nat)} {s : State}, Canonical s → (actBlocks soon act id s xs).Canonical
  | [], _, h => .go h
  | x :: xs, s, h => by
    unfold actBlocks
    split
    · exact .stop h
    · exact flow_ite (actBlocks_canonical step h)
        (flow_ite (.stop (beginWait_canonical h)) (Flow.bind_canonical (step h) (actBlocks_canonical step)))

theorem tookBlock_canonical {id : Nat} {x : Nat × Nat} (h : Canonical s) : Canonical (tookBlock s id x) := by
  unfold tookBlock
  split <;> exact h

theorem prefetchBlock_canonical {id ctx lo : Nat} {w : Bool} {x : Nat × Nat} (h : Canonical s) :
    (prefetchBlock id ctx lo w s x).Canonical := by
  unfold prefetchBlock
  split
  · exact .go (startPromotion_canonical (tookBlock_canonical h))
  · refine flow_ite ?_ (.go (faultBlock_canonical (canonical_ite h (tookBlock_canonical h))))
    split
    · exact .stop (endHere_canonical h)
    · exact .stop h
  · exact .go h

theorem endSpan_canonical {r : Request} (h : Canonical s) : (endSpan s r).Canonical := goNext_canonical h

theorem prefetchSpan_canonical {r : Request} {sh : ShapeSet} {w : Bool} (h : Canonical s) : (prefetchSpan s r sh w).Canonical := by
  unfold prefetchSpan
  split
  · exact .go (endHere_canonical h)
  · refine Flow.bind_canonical (actBlocks_canonical prefetchBlock_canonical h) fun hu => ?_
    split
    · exact .stop hu
    · refine flow_ite (endSpan_canonical hu) ?_
      split
      · exact .stop (beginWait_canonical hu)
      · split
        · exact endSpan_canonical hu
        · exact .stop (beginWait_canonical hu)

theorem execPrefetch_canonical {t : Mc} {hauler : HaulerId} (h : Canonical s) : ResultCanonical (execPrefetch t hauler s) := by
  unfold execPrefetch
  refine withInstr_canonical h fun hu => ?_
  split
  · exact prefetchSpan_canonical hu
  · exact .go hu

theorem adviseBlock_canonical {ctx hint : Nat} {x : Nat × Nat} (h : Canonical s) : Canonical (adviseBlock ctx hint s x) := by
  dsimp only [adviseBlock]
  split
  · split
    · exact blockRecord_canonical h
    · exact h
  · exact h
  · exact h
  · exact h

theorem execAdvise_canonical {t : Mc} {hauler : HaulerId} (h : Canonical s) : ResultCanonical (execAdvise t hauler s) := by
  refine withInstr_canonical h fun hu => ?_
  split
  · refine flow_ite (prefetchSpan_canonical hu) ?_
    split
    · exact .go (endHere_canonical hu)
    · refine Flow.bind_canonical (actBlocks_canonical ?_ hu) fun hv => ?_
      · exact fun hv => .go (adviseBlock_canonical (tookBlock_canonical hv))
      · split
        · exact endSpan_canonical hv
        · exact .stop hv
  · exact .go hu

theorem returnOld_canonical {r : Request} {target ret : List Piece} {old inp out : List SByte} {lost : Bool} (h : Canonical s) :
    (returnOld s r target ret old inp out lost).Canonical := by
  dsimp only [returnOld]
  split
  · exact goNext_canonical (emitPieces_canonical h)
  · exact .stop (emitPieces_canonical h)

theorem atomicLocal_canonical {r0 : Request} {a : AtomicOp} {opened : Option (List Need × List Piece)} {p : Piece} {ret : List Piece}
    (h : Canonical s) : (atomicLocal s r0 a opened p ret).Canonical := by
  unfold atomicLocal
  refine flow_ite (returnOld_canonical (answerHost_canonical h)) ?_
  refine flow_ite (.stop (beginWait_canonical (answerHost_canonical h))) ?_
  refine Flow.bind_canonical (crossSeam_canonical (answerHost_canonical h)) fun hu => ?_
  refine returnOld_canonical ?_
  split
  · exact writeAtomic_canonical hu
  · exact hu

theorem atomicRemote_canonical {r : Request} {a : AtomicOp} {opened : Option (List Need × List Piece)} {p : Piece} {ret : List Piece}
    (h : Canonical s) : (atomicRemote s r a opened p ret).Canonical := by
  dsimp only [atomicRemote]
  refine flow_ite (.stop (endHere_canonical h)) ?_
  split
  · exact returnOld_canonical h
  · refine flow_ite (.stop (beginWait_canonical h)) ?_
    split
    · exact .stop (endHere_canonical h)
    · refine flow_ite (.stop (endHere_canonical h)) ?_
      split
      · exact .stop (beginWait_canonical (newRemote_canonical h))
      · exact .stop (newRemote_canonical h)

theorem execAtomic.atomicStart_canonical {r : Request} {sides : List RtSide} (h : Canonical s) :
    (execAtomic.atomicStart s r sides).Canonical := by
  unfold execAtomic.atomicStart
  refine flow_ite (.go h) ?_
  split
  · exact .stop (endHere_canonical h)
  · exact .go h

theorem execAtomic_canonical {t : Mc} {hauler : HaulerId} (h : Canonical s) : ResultCanonical (execAtomic t hauler s) := by
  dsimp only [execAtomic]
  refine withInstr_canonical h fun hu => ?_
  split
  · refine flow_ite (.stop hu) ?_
    refine flow_ite (.go (endHere_canonical hu)) ?_
    refine withReq_canonical (execAtomic.atomicStart_canonical hu) fun hv => ?_
    split
    · split
      · split
        · exact .stop (beginWait_canonical (startPromotion_canonical hv))
        · refine flow_ite (atomicRemote_canonical (canonical_ite hv (touchBlocks_canonical hv))) ?_
          exact atomicLocal_canonical (canonical_ite hv (touchBlocks_canonical hv))
      · exact .go (endHere_canonical hv)
    · exact blockBillet_canonical hv
  · exact .go hu

/-! ### Ordered reductions -/

theorem storeChunk_canonical {d : RedCfg} {rank off : Nat} {bs : List SByte} (h : Canonical s) : Canonical (storeChunk s d rank off bs) :=
  writeBank_canonical h

theorem accumulate_canonical {d : RedCfg} (h : Canonical s) : Canonical (accumulate s d) := writeBank_canonical h

theorem destRemote_canonical {d : RedCfg} {e : Nat} {segs : List (Nat × Nat × Bool)} {p : Piece} {bs : List SByte} (h : Canonical s) :
    Canonical (destRemote s d e segs p bs) := by
  unfold destRemote
  split
  · exact h
  · exact foldl_canonical newRemote_canonical h

theorem destPieces_canonical {d : RedCfg} {e : Nat} {segs : List (Nat × Nat × Bool)} :
    ∀ {ps : List Piece} {s : State} {bs : List SByte}, Canonical s → Canonical (destPieces d e segs s ps bs)
  | [], _, _, h => h
  | _ :: ps, _, _, h => destPieces_canonical (ps := ps) (canonical_ite (destRemote_canonical h) (storePiece_canonical h))

theorem writeDest_canonical {d : RedCfg} {e : Nat} {bs : List SByte} {u : State} (h : Canonical s) (w : writeDest s d e bs = some u) :
    Canonical u := by
  dsimp only [writeDest] at w
  split at w
  · cases w
    exact touchBlocks_canonical (destPieces_canonical h)
  · cases w
  · cases w
    exact h

theorem signalEpoch_canonical {d : RedCfg} (h : Canonical s) : Canonical (signalEpoch s d) := by
  unfold signalEpoch
  split
  · exact h
  · split
    · exact sendUpdate_canonical h
    · exact h

theorem epochEvent_canonical {d : RedCfg} {x : EpochSt} {refused : Bool} (h : Canonical s) : Canonical (epochEvent s d x refused) :=
  ctxEvent_canonical h

theorem spoilEpoch_canonical {d : RedCfg} {x : EpochSt} {refused : Bool} (h : Canonical s) :
    Canonical (spoilEpoch s d x refused) := by
  unfold spoilEpoch
  split
  · exact h
  · rename_i written
    exact epochEvent_canonical (signalEpoch_canonical (writeDest_canonical h written))

theorem sumEpoch_canonical {d : RedCfg} {x : EpochSt} (h : Canonical s) : Canonical (sumEpoch s d x) := by
  unfold sumEpoch
  refine canonical_ite ?_ h
  split
  · rename_i u written
    exact writeDest_canonical (u := u) h written
  · exact h

theorem retryEpochs_canonical (h : Canonical s) : Canonical (retryEpochs s) := by
  unfold retryEpochs
  refine foldl_canonical (fun hu => ?_) h
  split
  · exact spoilEpoch_canonical hu
  · exact sumEpoch_canonical hu
  · exact hu

theorem setEpoch_canonical {x : EpochSt} (h : Canonical s) : Canonical (setEpoch s x) := h

theorem canonical_fst_ite {α : Type} {c : Prop} [Decidable c] {x y : State × α} (hx : Canonical x.1) (hy : Canonical y.1) :
    Canonical (if c then x else y).1 := by
  split
  · exact hx
  · exact hy

theorem takeChunk_canonical {d : RedCfg} {k : Chunk} (h : Canonical s) : Canonical (takeChunk s d k).1 := by
  have stored : ∀ {x rank off bs}, Canonical (storeChunk (setEpoch s x) d rank off bs) := storeChunk_canonical (setEpoch_canonical h)
  refine canonical_fst_ite h (canonical_fst_ite (canonical_fst_ite h ?_) (canonical_fst_ite h (canonical_fst_ite ?_
    (canonical_fst_ite h (canonical_fst_ite (spoilEpoch_canonical h) ?_)))))
  · split
    · exact canonical_fst_ite h h
    · exact h
  · exact canonical_fst_ite h h
  · exact sumEpoch_canonical (canonical_ite (accumulate_canonical stored) stored)

theorem destFailed_canonical {ctx red e : Nat} (h : Canonical s) : Canonical (destFailed s ctx red e) := canonical_ite h h

theorem execEpochComplete_canonical {t : Mc} {ctx : Fin 256} {red : Fin 4096} (h : Canonical s) :
    ResultCanonical (execEpochComplete t ctx red s) := by
  dsimp only [execEpochComplete]
  split
  · exact answer_canonical h (whenReady_canonical h)
  · refine result_ite ?_ ?_
    · exact answer_canonical h (setEpoch_canonical (signalEpoch_canonical
        (canonical_ite (sumEpoch_canonical (whenReady_canonical h)) (whenReady_canonical h))))
    · exact answer_canonical h (canonical_ite (sumEpoch_canonical (whenReady_canonical h)) (whenReady_canonical h))

theorem execEpochTimeout_canonical {t : Mc} {ctx : Fin 256} {red : Fin 4096} (h : Canonical s) :
    ResultCanonical (execEpochTimeout t ctx red s) := by
  unfold execEpochTimeout
  split
  · exact answer_canonical h (atTime_canonical h)
  · exact result_ite (answer_canonical h (atTime_canonical h)) (answer_canonical h (spoilEpoch_canonical (atTime_canonical h)))

theorem resetEpochs_canonical {half : Half} (h : Canonical s) : Canonical (resetEpochs s half) := by
  dsimp only [resetEpochs, setEpoch]
  refine foldl_canonical (fun hu => ?_) h
  split
  · exact epochEvent_canonical hu
  · exact hu

theorem chunkAtHome_canonical {e : ExportCfg} {fmt : Nat} {k : Chunk} (h : Canonical s) : Canonical (chunkAtHome s e fmt k).1 := by
  unfold chunkAtHome
  split
  · split
    · exact h
    · split
      · exact h
      · exact takeChunk_canonical h
  · exact h

theorem localChunk_canonical {d : RedCfg} {k : Chunk} (h : Canonical s) : Canonical (localChunk s d k).1 := by
  unfold localChunk
  split
  · exact h
  · split
    · exact h
    · split
      · exact h
      · exact chunkAtHome_canonical h

theorem sendReduce_canonical {r : Request} {d : RedCfg} {c : PartnerCfg} {k : Chunk} {segs : List (Nat × Nat × Bool)} (h : Canonical s) :
    Canonical (sendReduce s r d c k segs) := by
  dsimp only [sendReduce]
  refine foldl_canonical (fun hu => ?_) h
  split <;> exact newRemote_canonical hu

theorem sendChunk_canonical {r : Request} {d : RedCfg} {k : Chunk} {segs : List (Nat × Nat × Bool)} (h : Canonical s) :
    (sendChunk s r d k segs).Canonical := by
  dsimp only [sendChunk]
  refine flow_ite ?_ ?_
  · refine flow_ite (.go (localChunk_canonical h)) ?_
    exact flow_ite (.go (localChunk_canonical h)) (.stop (endHere_canonical (localChunk_canonical h)))
  · split
    · exact .stop (endHere_canonical h)
    · split
      · exact .stop (beginWait_canonical (sendReduce_canonical h))
      · exact .stop (sendReduce_canonical h)

theorem readChunk_canonical {r0 : Request} {sh : ShapeSet} {d : RedCfg} {v lo : Nat} {ps : List Piece} (h : Canonical s) :
    (readChunk s r0 sh d v lo ps).Canonical :=
  sendChunk_canonical (touchBlocks_canonical h)

theorem reduceChunks_canonical {sh : ShapeSet} {d : RedCfg} {v id : Nat} :
    ∀ {n : Nat} {s : State}, Canonical s → (reduceChunks sh d v n s id).Canonical
  | 0, s, h => by
    unfold reduceChunks
    split
    · exact goNext_canonical h
    · exact .stop h
  | n + 1, s, h => by
    unfold reduceChunks
    split
    · exact .stop h
    · refine flow_ite (goNext_canonical h) ?_
      dsimp only
      split
      · refine Flow.bind_canonical (awaitRemote_canonical (answerHost_canonical h)) fun hu => ?_
        split
        · exact .stop hu
        · exact Flow.bind_canonical (readChunk_canonical hu) reduceChunks_canonical
      · exact blockBillet_canonical h

theorem execReduce_canonical {t : Mc} {hauler : HaulerId} (h : Canonical s) : ResultCanonical (execReduce t hauler s) := by
  unfold execReduce
  refine withInstr_canonical h fun hu => ?_
  split
  · split
    · exact .go (endHere_canonical hu)
    · split
      · exact .go (endHere_canonical hu)
      · exact .go (endHere_canonical hu)
      · exact flow_ite (.stop hu) (reduceChunks_canonical hu)
  · exact .go hu

/-! ### Stores of the schedule -/

theorem storeRemote_canonical {ctx id : Nat} {p : Piece} {bs : List SByte} (h : Canonical s) : Canonical (storeRemote ctx id s p bs) := by
  unfold storeRemote
  split
  · exact h
  · exact foldl_canonical newRemote_canonical h

theorem storePieces_canonical {ctx id : Nat} :
    ∀ {ps : List Piece} {s : State} {bs : List SByte}, Canonical s → Canonical (storePieces ctx id s ps bs)
  | [], _, _, h => h
  | _ :: ps, _, _, h => storePieces_canonical (ps := ps) (canonical_ite (storeRemote_canonical h) (storePiece_canonical h))

theorem storeFault_canonical {ctx status va : Nat} (h : Canonical s) : Canonical (storeFault s ctx status va) := ctxEvent_canonical h

theorem issueStore_canonical {x : StoreEntry} (h : Canonical s) : Canonical (issueStore s x) := by
  unfold issueStore
  split
  · exact freeStore_canonical (storeFault_canonical h)
  · refine canonical_ite h ?_
    split
    · exact h
    · exact canonical_ite h (closeStore_canonical (storePieces_canonical h))
    · exact freeStore_canonical h

theorem newStore_canonical {half : Half} {ctx va : Nat} {data : List SByte} (h : Canonical s) :
    Canonical (newStore s half ctx va data) := by
  unfold newStore
  split
  · exact storeFault_canonical h
  · exact issueStore_canonical h

theorem storeAnswered_canonical {id num tag : Nat} (h : Canonical s) : Canonical (storeAnswered s id num tag) := closeStore_canonical h

theorem retryStores_canonical (h : Canonical s) : Canonical (retryStores s) := foldl_canonical issueStore_canonical h

theorem newSig_canonical {half : Half} {ctx vid n : Nat} {needs : List Nat} (h : Canonical s) :
    Canonical (newSig s half ctx vid n needs) :=
  canonical_ite (releaseSig_canonical h) h

end

end Sys2Proof.Machine
end

section
/-! The partners' frames, the segments and the ledger. -/

namespace Sys2Proof.Machine

section
variable {s : State}

/-! ### Frames of the partners -/

theorem outFailed_canonical {o : OutReq} {status : Nat} (h : Canonical s) : Canonical (outFailed s o status) := by
  unfold outFailed
  split
  · exact canonical_ite (stopLoop_canonical (dropOut_canonical h)) (dropOut_canonical h)
  · exact dropOut_canonical h
  · exact dropOut_canonical h
  · exact destFailed_canonical (dropOut_canonical h)
  · exact failWrite_canonical (dropOut_canonical h)
  · exact dropOut_canonical h

theorem failAll_canonical {num status : Nat} (h : Canonical s) : Canonical (failAll s num status) := foldl_canonical outFailed_canonical h

theorem fencePartner_canonical {num recent : Nat} (h : Canonical s) : Canonical (fencePartner s num recent) := by
  unfold fencePartner
  refine failAll_canonical ?_
  split
  · exact raiseEvent_canonical (setPartner_canonical h)
  · exact setPartner_canonical h

theorem violate_canonical {num : Nat} (h : Canonical s) : Canonical (violate s num) := by
  unfold violate
  split
  · exact h
  · exact canonical_ite (fencePartner_canonical h) h

theorem startTraining_canonical {c : PartnerCfg} {path : Nat} (h : Canonical s) : Canonical (startTraining s c path) := by
  dsimp only [startTraining, updPartner]
  exact setPartner_canonical h

theorem dropPartner_canonical {num : Nat} (h : Canonical s) : Canonical (dropPartner s num) := setPartner_canonical h

theorem makeAbsent_canonical {num : Nat} (h : Canonical s) : Canonical (makeAbsent s num) := pump_canonical (dropPartner_canonical h)

theorem linkTwin_canonical {o : OutReq} {new : Nat} (h : Canonical s) : Canonical (linkTwin s o new) := by
  unfold linkTwin
  repeat' split
  all_goals exact h

theorem splitOut_canonical {o : OutReq} (h : Canonical s) : Canonical (splitOut s o) := by
  unfold splitOut
  split
  · exact canonical_ite h (foldl_canonical (fun hu => linkTwin_canonical (foldl_canonical (fun hv => hv) hu)) h)
  · exact h

theorem refitOut_canonical {o : OutReq} (h : Canonical s) : Canonical (refitOut s o) := by
  unfold refitOut
  split
  · exact h
  · split
    · exact outFailed_canonical h
    · exact canonical_ite (splitOut_canonical h) h

theorem becomeActive_canonical {num : Nat} (h : Canonical s) : Canonical (becomeActive s num) := by
  dsimp only [becomeActive, updPartner]
  exact pump_canonical (foldl_canonical refitOut_canonical (setPartner_canonical h))

theorem checkHello_canonical {c : PartnerCfg} {f : Frame} (h : Canonical s) : Canonical (checkHello s c f) :=
  canonical_ite (makeAbsent_canonical h) (canonical_ite (becomeActive_canonical h) h)

theorem trainBy_canonical {c : PartnerCfg} {path : Nat} {f : Frame} (h : Canonical s) : Canonical (trainBy s c path f) :=
  pump_canonical (checkHello_canonical (startTraining_canonical h))

theorem takeHello_canonical {c : PartnerCfg} {path : Nat} {bs : List Byte} (h : Canonical s) : Canonical (takeHello s c path bs) := by
  unfold takeHello
  split
  · refine canonical_ite h ?_
    split
    · exact h
    · split
      · exact trainBy_canonical h
      · exact canonical_ite (checkHello_canonical h) (trainBy_canonical (dropPartner_canonical h))
      · exact canonical_ite h (canonical_ite (pump_canonical h) (trainBy_canonical (dropPartner_canonical h)))
  · exact h

theorem respond_canonical {c : PartnerCfg} {path : Nat} {f : Frame} {status : Nat} {data : List SByte} (h : Canonical s) :
    Canonical (respond s c path f status data) := by
  unfold respond
  repeat' split
  all_goals exact h

theorem streamWrite_canonical {c : PartnerCfg} {e : ExportCfg} {f : Frame} (h : Canonical s) : Canonical (streamWrite s c e f) := by
  dsimp only [streamWrite, addEntry, judgeHeld, updLedger, closeEntries, closeStream]
  exact canonical_ite h h

theorem relayOut_canonical {c0 : PartnerCfg} {e0 : ExportCfg} {x : Inbound} {f : Frame} {p : Piece} (h : Canonical s) :
    Canonical (relayOut s c0 e0 x f p).state := by
  dsimp only [relayOut]
  split
  · exact h
  · split
    · split
      · exact h
      · exact canonical_ite (streamWrite_canonical h) h
    · split
      · exact h
      · split
        · exact h
        · split
          · exact h
          · exact List.foldlRecOn (motive := fun acc : State × List Nat => Canonical acc.1) _ _ h
              fun _ hacc _ _ => newRemote_canonical hacc

theorem memoryAct_canonical {c : PartnerCfg} {e : ExportCfg} {x : Inbound} {f : Frame} {ps : List Piece} (h : Canonical s) :
    Canonical (memoryAct s c e x f ps).state := by
  dsimp only [memoryAct]
  split
  · exact h
  · split
    · exact h
    · split
      · exact touchBlocks_canonical (canonical_ite (streamWrite_canonical h) h)
      · exact touchBlocks_canonical (writePieces_canonical (canonical_ite (streamWrite_canonical h) h))
      · split
        · split
          · exact writeAtomic_canonical (canonical_ite (streamWrite_canonical h) h)
          · exact canonical_ite (streamWrite_canonical h) h
        · exact canonical_ite (streamWrite_canonical h) h

theorem memoryRequest_canonical {c : PartnerCfg} {e : ExportCfg} {va : Nat} {x : Inbound} {f : Frame} (h : Canonical s) :
    Canonical (memoryRequest s c e va x f).state := by
  dsimp only [memoryRequest]
  split
  · exact h
  · exact h
  · exact h
  · exact h
  · exact h
  · split
    · split
      · exact relayOut_canonical (foldl_canonical wakePiece_canonical h)
      · split
        · split
          · split
            · split <;> exact foldl_canonical wakePiece_canonical h
            · exact startPromotion_canonical (foldl_canonical wakePiece_canonical h)
          · exact memoryAct_canonical (foldl_canonical wakePiece_canonical h)
        · exact memoryAct_canonical (foldl_canonical wakePiece_canonical h)
    · exact foldl_canonical wakePiece_canonical h

theorem signalRequest_canonical {c : PartnerCfg} {e : ExportCfg} {vid : Nat} {half : Half} {f : Frame} (h : Canonical s) :
    Canonical (signalRequest s c e vid half f).state := by
  dsimp only [signalRequest, waitForEntry, addEntry, judgeHeld, updLedger, closeEntries, closeStream]
  split
  · split
    · exact h
    · split
      · exact h
      · exact sendUpdate_canonical h
  · exact h

theorem reduceRequest_canonical {c : PartnerCfg} {e : ExportCfg} {f : Frame} (h : Canonical s) :
    Canonical (reduceRequest s c e f).state :=
  chunkAtHome_canonical h

theorem carryOut_canonical {c : PartnerCfg} {x : Inbound} {f : Frame} (h : Canonical s) : Canonical (carryOut s c x f).state := by
  unfold carryOut
  split
  · exact h
  · split
    · exact h
    · split
      · exact h
      · split
        · exact memoryRequest_canonical h
        · exact signalRequest_canonical h
        · exact reduceRequest_canonical h

theorem serve_canonical {x : Inbound} (h : Canonical s) : Canonical (serve s x) := by
  unfold serve
  split
  · rename_i c f _ _
    have carried := carryOut_canonical (c := c) (x := x) (f := f) h
    split <;> rename_i ends <;> rw [ends] at carried
    · exact canonical_ite (violate_canonical (respond_canonical carried)) (respond_canonical carried)
    · exact carried
  · exact h

theorem retryInbound_canonical (h : Canonical s) : Canonical (retryInbound s) := by
  unfold retryInbound
  refine foldl_canonical (fun hu => ?_) h
  split
  · exact serve_canonical hu
  · exact hu

theorem settleRelays_canonical : ∀ {n : Nat} {s : State}, Canonical s → Canonical (settleRelays n s)
  | 0, _, h => h
  | _ + 1, _, h => canonical_ite (settleRelays_canonical (retryInbound_canonical h)) h

theorem answerRelays_canonical {u : State} (h : Canonical s) (hu : Canonical u) : ResultCanonical (answerRelays s u) :=
  answer_canonical h (settleRelays_canonical hu)

theorem frameBeat_canonical {serveIt : State → RxFrame → State} {f : RxFrame} (h : Canonical s)
    (step : ∀ {u}, Canonical u → Canonical (serveIt u f)) : Canonical (frameBeat serveIt s f) :=
  have woken : Canonical (wakeHalf s f.half) := wakeHalf_canonical h
  canonical_ite h (canonical_ite woken (step woken))

theorem helloArrives_canonical {f : RxFrame} (h : Canonical s) : Canonical (helloArrives s f) := by
  unfold helloArrives
  split
  · exact h
  · split
    · exact settleRelays_canonical (takeHello_canonical h)
    · exact canonical_ite h h
    · exact h

theorem execHello_canonical {t : Mc} {f : RxFrame} (h : Canonical s) : ResultCanonical (execHello t f s) := by
  unfold execHello
  refine answer_canonical h ?_
  exact canonical_ite (frameBeat_canonical (atTime_canonical h) helloArrives_canonical) (atTime_canonical h)

theorem takeRequest_canonical {c : PartnerCfg} {p : Partner} {x : RxFrame} (h : Canonical s) : Canonical (takeRequest s c p x) := by
  unfold takeRequest
  split
  · exact violate_canonical h
  · refine canonical_ite (violate_canonical h) ?_
    refine canonical_ite ?_ (canonical_ite h (serve_canonical h))
    split <;> exact h

theorem requestFrame_canonical {f : RxFrame} (h : Canonical s) : Canonical (requestFrame s f) := by
  unfold requestFrame
  split
  · exact h
  · split
    · exact h
    · split
      · exact h
      · exact h
      · exact h
      · exact settleRelays_canonical (takeRequest_canonical h)

theorem receive_canonical {t : Mc} {ty : Nat} {f : RxFrame} (h : Canonical s) : ResultCanonical (receive t ty f s) := by
  unfold receive
  refine answer_canonical h ?_
  exact canonical_ite (atTime_canonical h) (frameBeat_canonical (atTime_canonical h) requestFrame_canonical)

theorem execRread_canonical {t : Mc} {f : RxFrame} (h : Canonical s) : ResultCanonical (execRread t f s) := receive_canonical h

theorem execRwrite_canonical {t : Mc} {f : RxFrame} (h : Canonical s) : ResultCanonical (execRwrite t f s) := receive_canonical h

theorem execRatomic_canonical {t : Mc} {f : RxFrame} (h : Canonical s) : ResultCanonical (execRatomic t f s) := receive_canonical h

theorem execRreduce_canonical {t : Mc} {f : RxFrame} (h : Canonical s) : ResultCanonical (execRreduce t f s) := receive_canonical h

theorem execRsignal_canonical {t : Mc} {f : RxFrame} (h : Canonical s) : ResultCanonical (execRsignal t f s) := receive_canonical h

theorem readArrived_canonical {id tag addr : Nat} {bs : List SByte} (h : Canonical s) : Canonical (readArrived s id tag addr bs) := by
  unfold readArrived
  split <;> exact h

theorem outAnswered_canonical {o : OutReq} {f : Frame} (h : Canonical s) : Canonical (outAnswered s o f) := by
  dsimp only [outAnswered, noteActive, relayDone, setReq]
  split
  · refine readArrived_canonical ?_
    split <;> exact dropOut_canonical h
  · repeat' split
    all_goals exact dropOut_canonical h
  · repeat' split
    all_goals exact dropOut_canonical h
  · refine writeAnswered_canonical ?_
    split <;> exact dropOut_canonical h
  · refine writeAnswered_canonical ?_
    split <;> exact dropOut_canonical h
  · refine canonical_ite ?_ ?_
    · refine groupAnswered_canonical ?_
      split <;> exact dropOut_canonical h
    · split <;> exact dropOut_canonical h
  · refine storeAnswered_canonical ?_
    split <;> exact dropOut_canonical h
  · refine retryInbound_canonical ?_
    split <;> exact dropOut_canonical h
  · split <;> exact dropOut_canonical h

theorem outRefused_canonical {o : OutReq} {status : Nat} (h : Canonical s) : Canonical (outRefused s o status) := by
  dsimp only [outRefused]
  split
  · split <;> exact dropOut_canonical h
  · exact retryInbound_canonical (outFailed_canonical h)
  · exact outFailed_canonical h

theorem countOk_canonical {num : Nat} (h : Canonical s) : Canonical (countOk s num) := by
  unfold countOk
  split
  · exact canonical_ite (setPartner_canonical h) h
  · exact h

theorem takeResponse_canonical {c : PartnerCfg} {p : Partner} {x : RxFrame} (h : Canonical s) : Canonical (takeResponse s c p x) := by
  unfold takeResponse
  split
  · exact violate_canonical h
  · refine canonical_ite (violate_canonical h) ?_
    split
    · refine canonical_ite (violate_canonical h) ?_
      refine pump_canonical ?_
      exact canonical_ite (outAnswered_canonical (countOk_canonical h)) (outRefused_canonical (countOk_canonical h))
    · exact canonical_ite h (violate_canonical h)

theorem responseFrame_canonical {f : RxFrame} (h : Canonical s) : Canonical (responseFrame s f) := by
  unfold responseFrame
  refine canonical_ite h ?_
  split
  · exact h
  · split
    · exact h
    · split
      · exact h
      · exact h
      · exact h
      · exact settleRelays_canonical (takeResponse_canonical h)

theorem execResponse_canonical {t : Mc} {f : RxFrame} (h : Canonical s) : ResultCanonical (execResponse t f s) := by
  unfold execResponse
  refine answer_canonical h ?_
  exact canonical_ite (frameBeat_canonical (atTime_canonical h) responseFrame_canonical) (atTime_canonical h)

theorem anyFrame_canonical {f : RxFrame} (h : Canonical s) : Canonical (anyFrame s f) :=
  canonical_ite (helloArrives_canonical h) (canonical_ite (responseFrame_canonical h) (requestFrame_canonical h))

theorem serveQueued_canonical {half : Half} (h : Canonical s) : Canonical (serveQueued s half) := foldl_canonical anyFrame_canonical h

theorem outTimedOut_canonical {o : OutReq} (h : Canonical s) : Canonical (outTimedOut s o) := by
  unfold outTimedOut
  split
  · refine readArrived_canonical ?_
    split <;> exact dropOut_canonical h
  · exact canonical_ite (groupLost_canonical (dropOut_canonical h)) (dropOut_canonical h)
  · exact retryInbound_canonical (outFailed_canonical h)
  · exact outFailed_canonical h

theorem execAttemptTimeout_canonical {t : Mc} {rec : Fin 1088} {tag : BitVec 32} (h : Canonical s) :
    ResultCanonical (execAttemptTimeout t rec tag s) := by
  dsimp only [execAttemptTimeout, updPartner]
  split
  · refine result_ite (answer_canonical h (atTime_canonical h)) ?_
    refine result_ite ?_ ?_
    · exact answer_canonical h (retryOut_canonical (canonical_ite (setPartner_canonical (atTime_canonical h)) (atTime_canonical h)))
    · exact answerRelays_canonical h (pump_canonical (outTimedOut_canonical
        (canonical_ite (setPartner_canonical (atTime_canonical h)) (atTime_canonical h))))
  · exact answer_canonical h (atTime_canonical h)

theorem trainOver_canonical {half : Half} {l : LinkPort} {c : PartnerCfg} (h : Canonical s) : Canonical (trainOver half l s c) := by
  unfold trainOver
  split
  · exact canonical_ite (startTraining_canonical h) h
  · exact h

theorem execLinkUp_canonical {t : Mc} {half : Half} {link : LinkPort} (h : Canonical s) : ResultCanonical (execLinkUp t half link s) := by
  unfold execLinkUp
  refine result_ite (answer_canonical h (atTime_canonical h)) ?_
  refine result_ite (answer_canonical h (atTime_canonical h)) ?_
  exact answer_canonical h (foldl_canonical trainOver_canonical (atTime_canonical h))

theorem execLinkDown_canonical {t : Mc} {half : Half} {link : LinkPort} (h : Canonical s) :
    ResultCanonical (execLinkDown t half link s) := by
  unfold execLinkDown
  refine result_ite (answer_canonical h (atTime_canonical h)) ?_
  exact answer_canonical h (foldl_canonical (fun hu => canonical_ite hu hu) (atTime_canonical h))

theorem execPathDown_canonical {t : Mc} {rec : Fin 1088} (h : Canonical s) : ResultCanonical (execPathDown t rec s) := by
  unfold execPathDown
  split
  · exact result_ite (answer_canonical h (makeAbsent_canonical (atTime_canonical h))) (answer_canonical h (atTime_canonical h))
  · exact answer_canonical h (atTime_canonical h)

theorem execTrainingTimeout_canonical {t : Mc} {rec : Fin 1088} (h : Canonical s) : ResultCanonical (execTrainingTimeout t rec s) := by
  unfold execTrainingTimeout
  split
  · exact result_ite (answer_canonical h (makeAbsent_canonical (atTime_canonical h))) (answer_canonical h (atTime_canonical h))
  · exact answer_canonical h (atTime_canonical h)

theorem execWakeOrderedSet_canonical {t : Mc} {rec : Fin 1088} (h : Canonical s) : ResultCanonical (execWakeOrderedSet t rec s) := by
  unfold execWakeOrderedSet
  split
  · exact result_ite (answer_canonical h (sendWakeSet_canonical (atTime_canonical h))) (answer_canonical h (atTime_canonical h))
  · exact answer_canonical h (atTime_canonical h)

theorem execWakeLimit_canonical {t : Mc} {rec : Fin 1088} (h : Canonical s) : ResultCanonical (execWakeLimit t rec s) := by
  dsimp only [execWakeLimit, updPartner]
  split
  · split
    · exact result_ite (answer_canonical h (pump_canonical (atTime_canonical h))) (answer_canonical h (atTime_canonical h))
    · exact answer_canonical h (atTime_canonical h)
  · exact answer_canonical h (atTime_canonical h)

theorem execPartnerUnfence_canonical {t : Mc} {p : Fin 16} (h : Canonical s) : ResultCanonical (execPartnerUnfence t p s) := by
  dsimp only [execPartnerUnfence, adminRecord, finishAdmin, readyRecord, updPartner]
  exact withAdmin_canonical h fun hu => makeAbsent_canonical hu

/-! ### Segments and faults -/

theorem execSegmentCreate_canonical {t : Mc} {p : Fin 16} (h : Canonical s) : ResultCanonical (execSegmentCreate t p s) :=
  withAdmin_canonical h fun hu => hu

theorem retryHeld_canonical (h : Canonical s) : Canonical (retryHeld s) :=
  retryEpochs_canonical (retryStores_canonical (retryInbound_canonical h))

theorem execSegmentDestroy_canonical {t : Mc} {p : Fin 16} (h : Canonical s) : ResultCanonical (execSegmentDestroy t p s) :=
  withAdmin_canonical h fun hu => hu

theorem execInvalidate_canonical {t : Mc} {p : Fin 16} (h : Canonical s) : ResultCanonical (execInvalidate t p s) :=
  withAdmin_canonical h fun hu => canonical_ite (retryHeld_canonical hu) hu

theorem endWaiters_canonical {ctx slot : Nat} {b : Option Nat} {status : Nat} (h : Canonical s) :
    Canonical (endWaiters s ctx slot b status) := by
  unfold endWaiters
  refine foldl_canonical (fun hu => ?_) h
  split
  · exact endHere_canonical hu
  · exact hu

theorem failFault_canonical {ctx slot b : Nat} (h : Canonical s) : Canonical (failFault s ctx slot b) := by
  dsimp only [failFault, clearFault]
  exact endWaiters_canonical h

theorem copyBlock_canonical {g : Segment} {b src dst : Nat} (h : Canonical s) : Canonical (copyBlock s g b src dst) :=
  canonical_ite (blockRecord_canonical (writeLocal_canonical h)) (writeLocal_canonical h)

theorem blockDone_canonical {id b : Nat} {noFrame : Bool} (h : Canonical s) : Canonical (blockDone s id b noFrame) := by
  dsimp only [blockDone, adminRecord, updOp, finishOp, removeOp, readyRecord]
  repeat' split
  all_goals exact h

theorem resolveBlock_canonical {o : AdminOp} {b : Nat} (h : Canonical s) : Canonical (resolveBlock s o b) := by
  unfold resolveBlock
  split
  · exact blockDone_canonical h
  · refine canonical_ite h ?_
    split
    · exact blockDone_canonical h
    · exact blockDone_canonical (failFault_canonical h)
    · split
      · exact blockDone_canonical h
      · exact h

theorem afterMove_canonical {ctx slot b : Nat} (h : Canonical s) : Canonical (afterMove s ctx slot b) := by
  unfold afterMove
  split
  · exact resolveBlock_canonical h
  · exact h

theorem execFaultResolve_canonical {t : Mc} {p : Fin 16} (h : Canonical s) : ResultCanonical (execFaultResolve t p s) := by
  unfold execFaultResolve
  refine withAdmin_canonical h fun hu => ?_
  refine retryHeld_canonical ?_
  refine foldl_canonical (fun hv => ?_) hu
  split
  · exact resolveBlock_canonical hv
  · exact hv

theorem destroySegment_canonical {ctx slot : Nat} (h : Canonical s) : Canonical (destroySegment s ctx slot) := by
  dsimp only [destroySegment]
  exact endWaiters_canonical h

theorem failPromotion_canonical {ctx slot b : Nat} (h : Canonical s) : Canonical (failPromotion s ctx slot b) :=
  foldl_canonical endHere_canonical h

theorem startCopyIn_canonical {g : Segment} {d : SegDrain} (h : Canonical s) : Canonical (startCopyIn s g d) := by
  unfold startCopyIn
  refine canonical_ite h ?_
  refine canonical_ite ?_ ?_
  · split
    · exact blockDone_canonical h
    · exact h
  · split
    · exact h
    · split
      · exact blockDone_canonical (failPromotion_canonical h)
      · exact failPromotion_canonical (pushNoFrame_canonical h)

theorem startCopyOut_canonical {g : Segment} {d : SegDrain} (h : Canonical s) : Canonical (startCopyOut s g d) := by
  unfold startCopyOut
  split
  · refine canonical_ite h ?_
    split
    · exact blockDone_canonical h
    · exact h
  · exact canonical_ite h (blockDone_canonical h)
  · exact h

theorem applyDrain_canonical {g : Segment} {d : SegDrain} (h : Canonical s) : Canonical (applyDrain s g d) := by
  dsimp only [applyDrain, adminRecord, finishOp, removeOp, updSeg, putBlock, readyRecord, popDrain]
  split
  · split <;> exact destroySegment_canonical h
  · repeat' split
    all_goals exact h
  · exact startCopyIn_canonical h
  · exact startCopyOut_canonical h
  · refine canonical_ite h ?_
    split
    · exact blockDone_canonical (canonical_ite h h)
    · exact canonical_ite h h

theorem execSegmentDrainComplete_canonical {t : Mc} {ctx : Fin 256} {slot : Fin 16} (h : Canonical s) :
    ResultCanonical (execSegmentDrainComplete t ctx slot s) := by
  dsimp only [execSegmentDrainComplete]
  split
  · exact answer_canonical h (whenReady_canonical h)
  · split
    · exact answer_canonical h (whenReady_canonical h)
    · refine result_ite (answer_canonical h (retryHeld_canonical (applyDrain_canonical (whenReady_canonical h)))) ?_
      exact answer_canonical h (whenReady_canonical h)

theorem putBlock_canonical {ctx slot b : Nat} {f : Block → Block} (h : Canonical s) : Canonical (putBlock s ctx slot b f) := h

/-- What a finished copy of a block leads to: the FAULT_RESOLVE of this mode, when it is one's, counts the block, and its waiters go on. -/
def copyEnds (op : Option Nat) (ctx slot block mode : Nat) (s : State) : State :=
  match op.bind (getOp s) with
  | some o =>
    if o.mode == mode then afterMove (blockDone s o.id block false) ctx slot block
    else afterMove s ctx slot block
  | none => afterMove s ctx slot block

theorem copyEnds_canonical {op : Option Nat} {ctx slot block mode : Nat} (h : Canonical s) :
    Canonical (copyEnds op ctx slot block mode s) := by
  unfold copyEnds
  split
  · exact canonical_ite (afterMove_canonical (blockDone_canonical h)) (afterMove_canonical h)
  · exact afterMove_canonical h

theorem execPromotionCopyDone_canonical {t : Mc} {ctx : Fin 256} {slot : Fin 16} {block : Nat} (h : Canonical s) :
    ResultCanonical (execPromotionCopyDone t ctx slot block s) := by
  have ready : ∀ {p : State → Bool}, Canonical (whenReady s t p) := whenReady_canonical h
  have ended : ∀ {p g src dst f op mode}, Canonical (copyEnds op ctx.val slot.val block mode
      (putBlock (copyBlock (whenReady s t p) g block src dst) ctx.val slot.val block f)) :=
    copyEnds_canonical (putBlock_canonical (copyBlock_canonical ready))
  dsimp only [execPromotionCopyDone]
  split
  · exact answer_canonical h ready
  · refine result_ite (answer_canonical h ready) ?_
    split
    · exact answer_canonical h (retryHeld_canonical ended)
    · exact answer_canonical h (retryHeld_canonical ended)
    · exact answer_canonical h ready

theorem execFaultBatchClose_canonical {t : Mc} {p : Fin 16} (h : Canonical s) : ResultCanonical (execFaultBatchClose t p s) := by
  dsimp only [execFaultBatchClose, updFaultQ]
  split
  · exact result_ite (answer_canonical h (flushFaults_canonical (atTime_canonical h))) (answer_canonical h (atTime_canonical h))
  · exact answer_canonical h (atTime_canonical h)

theorem execFaultResolutionTimeout_canonical {t : Mc} {ctx : Fin 256} {slot : Fin 16} {block : Nat} (h : Canonical s) :
    ResultCanonical (execFaultResolutionTimeout t ctx slot block s) := by
  unfold execFaultResolutionTimeout
  split
  · exact result_ite (answer_canonical h (failFault_canonical (atTime_canonical h))) (answer_canonical h (atTime_canonical h))
  · exact answer_canonical h (atTime_canonical h)

/-! ### The ledger -/

theorem appendEntry_canonical {p kind : Nat} {bs : List Byte} (h : Canonical s) : Canonical (appendEntry s p kind bs) :=
  canonical_ite (hostWrite_canonical h) (hostWrite_canonical h)

theorem writeSeal_canonical {p : Nat} (h : Canonical s) : Canonical (writeSeal s p) := appendEntry_canonical h

theorem judgeRoom_canonical {p : Nat} (h : Canonical s) : Canonical (judgeRoom s p) := parkHeld_canonical h

theorem execLedgerSeal_canonical {t : Mc} {p : Fin 16} (h : Canonical s) : ResultCanonical (execLedgerSeal t p s) :=
  withAdmin_canonical h fun hu => judgeRoom_canonical hu

theorem sealNext_canonical {p : Nat} (h : Canonical s) : Canonical (sealNext s p) := by
  have sealed : Canonical (writeSeal s p) := writeSeal_canonical h
  dsimp only [sealNext, updLedger, adminRecord, readyRecord]
  split
  · exact sealed
  · exact sealed

theorem entryWritten_canonical {e : LedEntry} {seq : Nat} (h : Canonical s) : Canonical (entryWritten s e seq) := by
  unfold entryWritten
  split
  · exact foldl_canonical sendUpdate_canonical h
  · split
    · exact settle_canonical h
    · exact h

theorem closeEntry_canonical {p : Nat} (h : Canonical s) : Canonical (closeEntry s p) := by
  dsimp only [closeEntry]
  split
  · exact h
  · exact entryWritten_canonical (appendEntry_canonical h)

theorem nextEntry_canonical {p : Nat} (h : Canonical s) : Canonical (nextEntry s p) := by
  unfold nextEntry
  refine judgeRoom_canonical ?_
  split
  · exact appendEntry_canonical h
  · exact canonical_ite (sealNext_canonical h) (closeEntry_canonical h)

theorem execLedgerEntryClose_canonical {t : Mc} {p : Fin 16} (h : Canonical s) : ResultCanonical (execLedgerEntryClose t p s) := by
  unfold execLedgerEntryClose
  refine result_ite (answer_canonical h (whenReady_canonical h)) ?_
  exact answer_canonical h (retryInbound_canonical (nextEntry_canonical (whenReady_canonical h)))

theorem newChain_canonical {p : Nat} (h : Canonical s) : Canonical (newChain s p) := appendEntry_canonical h

theorem execLedgerQueueEnable_canonical {t : Mc} {w : RegWrite} (h : Canonical s) : ResultCanonical (execLedgerQueueEnable t w s) := by
  dsimp only [execLedgerQueueEnable, updLedger]
  refine result_ite (answer_canonical h (hostAt_canonical h)) ?_
  refine result_ite (answer_canonical h (judgeRoom_canonical (hostAt_canonical h))) ?_
  refine result_ite (answer_canonical h (hostAt_canonical h)) ?_
  exact answer_canonical h (canonical_ite (hostAt_canonical h) (newChain_canonical (hostAt_canonical h)))

theorem execLedgerQueueHead_canonical {t : Mc} {w : RegWrite} (h : Canonical s) : ResultCanonical (execLedgerQueueHead t w s) := by
  dsimp only [execLedgerQueueHead, updFaultQ, updLedger]
  refine result_ite (answer_canonical h (hostAt_canonical h)) ?_
  exact result_ite (answer_canonical h (hostAt_canonical h)) (answer_canonical h (hostAt_canonical h))

end

end Sys2Proof.Machine
end

section
/-! Resets, power and the integrity monitor. Start-up and FLASH_WRITE alone write the flash (R437); a loss of power filters the memory. -/

namespace Sys2Proof.Machine

section
variable {s : State}

/-! ### Start-up and resets -/

theorem raiseFuse_canonical {c : Settings} (h : Canonical s) : Canonical (raiseFuse s c) := canonical_ite (canonical_ite h h) h

theorem sameFuses_canonical {u : State} (h : Canonical u) : Canonical (sameFuses s u) := h

/-- What a reset leaves of a range that FLASH_WRITE was programming is a write (R437). -/
theorem cutRange_wf {boots : Nat} {x : PendingRec} {flash : List Host.Cell} (h : sparseWf flashByte flash) :
    sparseWf flashByte (cutRange boots flash x) := by
  unfold cutRange
  split
  · exact sparseWrite_wf _ h _ _
  · exact h

theorem cutFlash_canonical (h : Canonical s) : Canonical (cutFlash s) :=
  ⟨h.mem, List.foldlRecOn (motive := sparseWf flashByte) _ _ h.flash fun _ hf _ _ => cutRange_wf hf⟩

theorem answerStart_canonical {u : State} (h : Canonical s) (hu : Canonical u) : ResultCanonical (answerStart s u) := by
  refine .next ⟨hu.mem, ?_⟩
  dsimp only
  split
  · exact h.flash
  · exact (cutFlash_canonical h).flash

theorem takeImage_canonical {chk : ImageCheck} {kept : Nat → Option Nat} (h : Canonical s) : Canonical (takeImage s chk kept) := by
  unfold takeImage
  split
  · exact raiseFuse_canonical h
  · exact h

theorem coldStart_canonical {env : StartEnv} (h : Canonical s) : Canonical (coldStart s env) := by
  unfold coldStart
  refine foldl_canonical (fun hu => hu) (draw_canonical ?_)
  refine takeImage_canonical (zeroStocks_canonical ?_)
  split
  · exact cutFlash_canonical h
  · exact loseHbm_canonical (cutFlash_canonical h)

theorem execColdStart_canonical {t : Mc} {env : StartEnv} (h : Canonical s) : ResultCanonical (execColdStart t env s) :=
  result_ite (answerStart_canonical h (coldStart_canonical h)) (answer_canonical h (atTime_canonical h))

theorem losePower_canonical (h : Canonical s) : Canonical (losePower s) := ⟨h.mem, (cutFlash_canonical h).flash⟩

theorem execPowerLoss_canonical {t : Mc} (h : Canonical s) : ResultCanonical (execPowerLoss t s) :=
  result_ite (answer_canonical h (atTime_canonical h)) (answerStart_canonical h (losePower_canonical (atTime_canonical h)))

theorem endAllRequests_canonical (h : Canonical s) : Canonical (endAllRequests s) := by
  unfold endAllRequests
  refine foldl_canonical (fun hu => ?_) h
  split
  · exact endRequest_canonical hu
  · exact hu

theorem flushLedger_canonical {p : Nat} : ∀ {n : Nat} {s : State}, Canonical s → Canonical (flushLedger n s p)
  | 0, _, h => h
  | _ + 1, _, h => canonical_ite (flushLedger_canonical (nextEntry_canonical h)) h

theorem flushRecords_canonical {cq : Nat} : ∀ {n : Nat} {s : State}, Canonical s → Canonical (flushRecords n s cq)
  | 0, _, h => h
  | _ + 1, _, h => canonical_ite (flushRecords_canonical (writeRecord_canonical h)) h

theorem flushAll_canonical (h : Canonical s) : Canonical (flushAll s) :=
  foldl_canonical flushRecords_canonical (foldl_canonical flushLedger_canonical h)

theorem restart_canonical {env : StartEnv} {fromFlash : Bool} {last : Nat} (h : Canonical s) :
    Canonical (restart s env fromFlash last) := by
  unfold restart
  refine foldl_canonical (fun hu => hu) (draw_canonical ?_)
  split
  · exact zeroStocks_canonical h
  · exact takeImage_canonical (zeroStocks_canonical h)

theorem graceResponse_canonical {last : Mc} {r : Mc × RxFrame} (h : Canonical s) : Canonical (graceResponse last s r) :=
  canonical_ite (responseFrame_canonical (atTime_canonical h)) h

theorem graceTime_canonical {env : StartEnv} (h : Canonical s) : Canonical (graceTime s env) := by
  dsimp only [graceTime]
  exact whenReady_canonical (foldl_canonical graceResponse_canonical h)

theorem warmReset_canonical {env : StartEnv} {fromFlash : Bool} {last : Nat} (h : Canonical s) :
    Canonical (warmReset s env fromFlash last) := by
  unfold warmReset
  exact restart_canonical (sameFuses_canonical (flushAll_canonical
    (graceTime_canonical (endAllRequests_canonical (cutFlash_canonical h)))))

theorem monitorReset_canonical {env : StartEnv} (h : Canonical s) : Canonical (monitorReset s env) :=
  warmReset_canonical (draw_canonical h)

theorem resetCtx_canonical {c : CtxCfg} (h : Canonical s) : Canonical (resetCtx s c) := by
  dsimp only [resetCtx]
  split <;> exact h

theorem resetHalfRequest_canonical {r : Request} (h : Canonical s) : Canonical (resetHalfRequest s r) :=
  releaseEffects_canonical (foldl_canonical dropOut_canonical (endRequest_canonical h))

theorem clearHalf_canonical {half : Half} (h : Canonical s) : Canonical (clearHalf s half) := zeroStock_canonical h

theorem dropPartners_canonical {half : Half} (h : Canonical s) : Canonical (dropPartners s half) := foldl_canonical makeAbsent_canonical h

theorem dropPorts_canonical {half : Half} (h : Canonical s) : Canonical (dropPorts s half) :=
  foldl_canonical releaseEffects_canonical (foldl_canonical closeStore_canonical h)

theorem startHalfReset_canonical {half : Half} (h : Canonical s) : Canonical (startHalfReset s half) := by
  unfold startHalfReset
  extract_lets s1 s2 u s3 s4 s5
  have k1 : Canonical s1 := foldl_canonical resetCtx_canonical (abortLoop_canonical h)
  clear_value s1
  have k2 : Canonical s2 := foldl_canonical resetHalfRequest_canonical k1
  clear_value s2
  have kept : Canonical u := resetEpochs_canonical k2
  clear_value u
  have k3 : Canonical s3 := dropPorts_canonical kept
  clear_value s3
  have k4 : Canonical s4 := foldl_canonical (fun hu => hu) k3
  clear_value s4
  have k5 : Canonical s5 := clearHalf_canonical (dropPartners_canonical k4)
  clear_value s5
  exact sameFuses_canonical (wakeContexts_canonical k5)

theorem execHalfResetRejoin_canonical {t : Mc} {half : Half} (h : Canonical s) : ResultCanonical (execHalfResetRejoin t half s) := by
  unfold execHalfResetRejoin
  refine result_ite (answer_canonical h (atTime_canonical h)) ?_
  exact answer_canonical h (retryHeld_canonical (wakeContexts_canonical (atTime_canonical h)))

/-! ### The flash -/

theorem answerFlash_canonical {u : State} (hu : Canonical u) : ResultCanonical (answerFlash s u) := .next hu

theorem oneAtATime_canonical {fin : State → State → Result} {t : Mc} {p : Fin 16} {cmd : Nat}
    {checks : State → List Byte → List (Nat × Nat)} {act : State → List Byte → State} (h : Canonical s)
    (answers : ∀ {u e}, Canonical u → ResultCanonical (fin s (act u e))) :
    ResultCanonical (oneAtATime fin t p cmd s checks act) :=
  result_ite (answer_canonical h (atTime_canonical h)) (withAdminBy_canonical h answers)

theorem execFlashWrite_canonical {t : Mc} {p : Fin 16} {programmed : Option Nat} (h : Canonical s) :
    ResultCanonical (execFlashWrite t p programmed s) :=
  oneAtATime_canonical h fun hu => answerFlash_canonical ⟨hu.mem, sparseWrite_wf _ hu.flash _ _⟩

theorem execFlashVerify_canonical {t : Mc} {p : Fin 16} {answers : Bool} (h : Canonical s) :
    ResultCanonical (execFlashVerify t p answers s) := by
  unfold execFlashVerify
  refine oneAtATime_canonical h fun hu => ?_
  refine answer_canonical h ?_
  split <;> exact hu

theorem execReload_canonical {t : Mc} {p : Fin 16} {env : StartEnv} (h : Canonical s) : ResultCanonical (execReload t p env s) := by
  unfold execReload
  refine oneAtATime_canonical h fun hu => ?_
  refine answerStart_canonical h ?_
  split
  · exact warmReset_canonical hu
  · exact hu

theorem execWarmReset_canonical {t : Mc} {p : Fin 16} {env : StartEnv} (h : Canonical s) : ResultCanonical (execWarmReset t p env s) :=
  oneAtATime_canonical h fun hu => answerStart_canonical h (warmReset_canonical hu)

/-! ### Power -/

theorem execGlowEntry_canonical {t : Mc} {half : Half} {seqIdle : Bool} (h : Canonical s) :
    ResultCanonical (execGlowEntry t half seqIdle s) :=
  result_ite (answer_canonical h (atTime_canonical h)) (answer_canonical h (atTime_canonical h))

theorem saveTables_canonical {a : AnvilPort} (h : Canonical s) : Canonical (saveTables s a) := by
  unfold saveTables
  refine foldl_canonical (fun hu => ?_) h
  split
  · exact memWrite_canonical hu
  · exact hu

theorem execBankedEntry_canonical {t : Mc} {stuck : Option (Half × Fin 8)} (h : Canonical s) :
    ResultCanonical (execBankedEntry t stuck s) := by
  unfold execBankedEntry
  refine result_ite (answer_canonical h (atTime_canonical h)) ?_
  split
  · exact answer_canonical h (wakeBoth_canonical (atTime_canonical h))
  · exact answer_canonical h (foldl_canonical saveTables_canonical (atTime_canonical h))

theorem rejoinPartner_canonical {num : Nat} (h : Canonical s) : Canonical (rejoinPartner s num) := by
  unfold rejoinPartner
  split
  · exact canonical_ite (makeAbsent_canonical h) h
  · exact h

theorem leaveBanked_canonical {code : Nat} (h : Canonical s) : Canonical (leaveBanked s code) :=
  sameFuses_canonical (foldl_canonical rejoinPartner_canonical (foldl_canonical (fun hu => hu) h))

theorem wakeBanked_canonical {code : Nat} (h : Canonical s) : Canonical (wakeBanked s code) := canonical_ite h (leaveBanked_canonical h)

theorem latchWake_canonical {code : Nat} (h : Canonical s) : Canonical (latchWake s code) := canonical_ite h h

theorem execGlowWake_canonical {t : Mc} {event : WakeEvent} (h : Canonical s) : ResultCanonical (execGlowWake t event s) := by
  unfold execGlowWake
  refine result_ite (answer_canonical h (atTime_canonical h)) ?_
  refine result_ite (answer_canonical h (wakeEvent_canonical (wakeEvent_canonical (atTime_canonical h)))) ?_
  exact answer_canonical h (wakeEvent_canonical (atTime_canonical h))

theorem execBankedWake_canonical {t : Mc} {code : Fin 9} (h : Canonical s) : ResultCanonical (execBankedWake t code s) := by
  unfold execBankedWake
  refine result_ite ?_ ?_
  · split
    · exact answer_canonical h (wakeBanked_canonical (atTime_canonical h))
    · exact answer_canonical h (atTime_canonical h)
  · refine answer_canonical h ?_
    refine canonical_ite (wakeBanked_canonical (atTime_canonical h)) ?_
    exact canonical_ite (atTime_canonical h) (latchWake_canonical (atTime_canonical h))

theorem wakeAll_canonical {code : Nat} (h : Canonical s) : Canonical (wakeAll s code) :=
  canonical_ite h (canonical_ite (wakeBanked_canonical h) (wakeBoth_canonical (latchWake_canonical h)))

theorem execWakeN_canonical {t : Mc} (h : Canonical s) : ResultCanonical (execWakeN t s) :=
  result_ite (answer_canonical h (atTime_canonical h)) (answer_canonical h (wakeAll_canonical (atTime_canonical h)))

theorem execHostWake_canonical {t : Mc} {half : Half} (h : Canonical s) : ResultCanonical (execHostWake t half s) := by
  unfold execHostWake
  refine answer_canonical h ?_
  refine canonical_ite (atTime_canonical h) ?_
  exact canonical_ite (wakeBanked_canonical (atTime_canonical h)) (wakeHalf_canonical (latchWake_canonical (atTime_canonical h)))

theorem execWakeAt_canonical {t : Mc} (h : Canonical s) : ResultCanonical (execWakeAt t s) :=
  result_ite (answer_canonical h (atTime_canonical h)) (answer_canonical h (wakeAll_canonical (atTime_canonical h)))

theorem execHbmSupervision_canonical {t : Mc} {half : Half} {stack : Fin 8} {celsius : BitVec 16} {selfRefresh : Bool} (h : Canonical s) :
    ResultCanonical (execHbmSupervision t half stack celsius selfRefresh s) := by
  dsimp only [execHbmSupervision, powerRecord]
  refine result_ite (answer_canonical h (atTime_canonical h)) ?_
  refine answer_canonical h (leaveBanked_canonical ?_)
  refine canonical_ite (canonical_ite (atTime_canonical h) (atTime_canonical h)) ?_
  exact canonical_ite (atTime_canonical h) (atTime_canonical h)

theorem spoilStockLine_canonical {half : Half} {line : Nat} (h : Canonical s) : Canonical (spoilStockLine s half line) :=
  memSetMark_canonical h

theorem execBankedScrub_canonical {t : Mc} {half : Half} {ecc : Ecc} (h : Canonical s) :
    ResultCanonical (execBankedScrub t half ecc s) := by
  dsimp only [execBankedScrub, powerRecord]
  refine result_ite (answer_canonical h (atTime_canonical h)) ?_
  split
  · exact answer_canonical h (atTime_canonical h)
  · exact answer_canonical h (atTime_canonical h)
  · exact answer_canonical h (spoilStockLine_canonical (atTime_canonical h))

theorem execClock_canonical {t : Mc} {count : Nat} {env : StartEnv} (h : Canonical s) : ResultCanonical (execClock t count env s) := by
  unfold execClock
  refine result_ite (answer_canonical h (atTime_canonical h)) ?_
  exact answerStart_canonical h (monitorReset_canonical (draw_canonical (atTime_canonical h)))

theorem execWarmRstN_canonical {t : Mc} {env : StartEnv} (h : Canonical s) : ResultCanonical (execWarmRstN t env s) := by
  unfold execWarmRstN
  refine result_ite (answer_canonical h (atTime_canonical h)) ?_
  refine answerStart_canonical h (warmReset_canonical ?_)
  exact canonical_ite (wakeBanked_canonical (atTime_canonical h)) (latchWake_canonical (atTime_canonical h))

theorem brownout_canonical {half : Half} {mv : Nat} (h : Canonical s) : Canonical (brownout s half mv) := canonical_ite h h

theorem execBrownoutWarning_canonical {t : Mc} {half : Half} {millivolts : Nat} (h : Canonical s) :
    ResultCanonical (execBrownoutWarning t half millivolts s) := by
  unfold execBrownoutWarning
  refine result_ite (answer_canonical h (canonical_ite (atTime_canonical h) (atTime_canonical h))) ?_
  exact answer_canonical h (brownout_canonical (canonical_ite (atTime_canonical h) (atTime_canonical h)))

theorem recoverHalf_canonical {half : Half} (h : Canonical s) : Canonical (recoverHalf s half) :=
  canonical_ite (serveQueued_canonical (wakeHalf_canonical (raiseEvent_canonical h))) (raiseEvent_canonical h)

theorem brownoutReset_canonical {half : Half} {mv : Nat} {env : StartEnv} (h : Canonical s) : Canonical (brownoutReset s half mv env) :=
  coldStart_canonical h

theorem execBrownoutReset_canonical {t : Mc} {half : Half} {millivolts : Nat} {env : StartEnv} (h : Canonical s) :
    ResultCanonical (execBrownoutReset t half millivolts env s) :=
  result_ite (answer_canonical h (atTime_canonical h)) (answerStart_canonical h (brownoutReset_canonical (atTime_canonical h)))

/-! ### The integrity monitor -/

theorem spoilWrites_canonical {id : Nat} (h : Canonical s) : Canonical (spoilWrites s id) :=
  foldlForm_canonical memSetMark_canonical h

theorem quenchRequest_canonical {r : Request} (h : Canonical s) : Canonical (quenchRequest s r) :=
  endRequest_canonical (spoilWrites_canonical h)

theorem quenchStream_canonical {x : InStream} (h : Canonical s) : Canonical (quenchStream s x) := by
  dsimp only [quenchStream, addEntry, judgeHeld, updLedger, closeEntries, closeStream]
  split <;> exact h

theorem spoilSlot_canonical {c : RingCfg} {k : Nat} (h : Canonical s) : Canonical (spoilSlot s c k) :=
  foldlForm_canonical memSetMark_canonical h

theorem spoilRing_canonical {c : RingCfg} (h : Canonical s) : Canonical (spoilRing s c) := by
  unfold spoilRing
  split
  · exact foldl_canonical spoilSlot_canonical h
  · exact h

theorem quenchLoaded_canonical {ctx : Nat} (h : Canonical s) : Canonical (quenchLoaded s ctx) := by
  dsimp only [quenchLoaded, updCtx, updLedger, dropEpochs, quenchEntries]
  exact sameFuses_canonical (foldl_canonical quenchStream_canonical
    (foldl_canonical spoilRing_canonical (foldl_canonical quenchRequest_canonical h)))

theorem quenchCtx_canonical {ctx : Nat} (h : Canonical s) : Canonical (quenchCtx s ctx) := by
  unfold quenchCtx
  split
  · exact h
  · split
    · exact quenchLoaded_canonical h
    · exact h
    · exact h

theorem quenchEvents_canonical {ctxs : List Nat} {seq : Nat} (h : Canonical s) : Canonical (quenchEvents s ctxs seq) :=
  sameFuses_canonical (foldl_canonical ctxEvent_canonical h)

theorem escalate_canonical {r : IntRec} {env : StartEnv} (h : Canonical s) : Canonical (escalate s r env) :=
  canonical_ite (monitorReset_canonical h) (startHalfReset_canonical h)

theorem quenchReact_canonical (h : Canonical s) : Canonical (quenchReact s).2 := draw_canonical h

theorem reactQuench_canonical {r : IntRec} {env : StartEnv} (h : Canonical s) : Canonical (reactQuench s r env) := by
  unfold reactQuench
  refine canonical_ite (escalate_canonical (quenchEvents_canonical (foldl_canonical quenchCtx_canonical h))) ?_
  exact quenchEvents_canonical (quenchReact_canonical (foldl_canonical quenchCtx_canonical h))

theorem wakeMonitor_canonical {half : Half} (h : Canonical s) : Canonical (wakeMonitor s half) := wakeEvent_canonical h

theorem onDetection_canonical {react : State → Detection → StartEnv → State} {d : Detection} {env : StartEnv} (h : Canonical s)
    (step : ∀ {u}, Canonical u → Canonical (react u d env)) : Canonical (onDetection react s d env) :=
  have woken : Canonical (wakeMonitor s d.half) := wakeMonitor_canonical h
  canonical_ite h (canonical_ite woken (step woken))

theorem spoilLines_canonical {lines : List Nat} (h : Canonical s) : Canonical (spoilLines s lines) := by
  refine foldlForm_canonical (fun hm => ?_) h
  split
  · exact memSetMark_canonical hm
  · exact hm

theorem countSeam_canonical {d : Detection} {env : StartEnv} (h : Canonical s) : Canonical (countSeam s d env) :=
  canonical_ite h (canonical_ite h (monitorReset_canonical h))

theorem countTongs_canonical {d : Detection} (h : Canonical s) : Canonical (countTongs s d) := canonical_ite h (canonical_ite h h)

theorem spoilEgress_canonical {unit : Nat} {lines : List Nat} (h : Canonical s) : Canonical (spoilEgress s unit lines) := by
  unfold spoilEgress
  refine foldl_canonical (fun hu => ?_) h
  split <;> exact hu

theorem deliverContained_canonical {d : Detection} (h : Canonical s) : Canonical (deliverContained s d) := by
  unfold deliverContained
  split
  · exact h
  · exact canonical_ite h (canonical_ite (spoilEgress_canonical h) (spoilLines_canonical h))

theorem reactContained_canonical {d : Detection} {env : StartEnv} (h : Canonical s) : Canonical (reactContained s d env) :=
  canonical_ite h (countSeam_canonical (countTongs_canonical (deliverContained_canonical h)))

theorem execContainedDetection_canonical {t : Mc} {d : Detection} {env : StartEnv} (h : Canonical s) :
    ResultCanonical (execContainedDetection t d env s) := by
  unfold execContainedDetection
  refine answerStart_canonical h ?_
  exact canonical_ite (onDetection_canonical (atTime_canonical h) reactContained_canonical) (atTime_canonical h)

theorem dropUpdate_canonical {d : Detection} (h : Canonical s) : Canonical (dropUpdate s d) := by
  unfold dropUpdate
  repeat' split
  all_goals exact h

theorem reactUncontained_canonical {d : Detection} {env : StartEnv} (h : Canonical s) : Canonical (reactUncontained s d env) :=
  canonical_ite (escalate_canonical (dropUpdate_canonical h)) (reactQuench_canonical (dropUpdate_canonical h))

theorem execUncontainedDetection_canonical {t : Mc} {d : Detection} {env : StartEnv} (h : Canonical s) :
    ResultCanonical (execUncontainedDetection t d env s) := by
  unfold execUncontainedDetection
  refine answerStart_canonical h ?_
  exact canonical_ite (onDetection_canonical (atTime_canonical h) reactUncontained_canonical) (atTime_canonical h)

theorem reactWaited_canonical {x : Detection × StartEnv} (h : Canonical s) : Canonical (reactWaited s x) := by
  refine onDetection_canonical h fun hu => ?_
  split
  · exact reactContained_canonical hu
  · exact reactUncontained_canonical hu

theorem recovered_canonical {half : Half} (h : Canonical s) : Canonical (recovered s half) :=
  foldl_canonical reactWaited_canonical (recoverHalf_canonical h)

theorem execBrownoutRecovery_canonical {t : Mc} {half : Half} {millivolts : Nat} (h : Canonical s) :
    ResultCanonical (execBrownoutRecovery t half millivolts s) :=
  result_ite (answer_canonical h (atTime_canonical h)) (answerStart_canonical h (recovered_canonical (atTime_canonical h)))

theorem stageLevels_canonical {half : Half} {mv : Nat} {env : StartEnv} (h : Canonical s) : Canonical (stageLevels s half mv env) :=
  canonical_ite (brownoutReset_canonical h) (canonical_ite (brownout_canonical h) (canonical_ite (recovered_canonical h) h))

theorem execStagePoll_canonical {t : Mc} {half : Half} {rail : Rail} {statusWord : BitVec 16} {reading : StageReading} (h : Canonical s) :
    ResultCanonical (execStagePoll t half rail statusWord reading s) := by
  dsimp only [execStagePoll, powerRecord]
  refine result_ite (answer_canonical h (atTime_canonical h)) ?_
  exact answerStart_canonical h (canonical_ite (stageLevels_canonical (atTime_canonical h)) (atTime_canonical h))

theorem execHaulerWatchdog_canonical {t : Mc} {hauler : HaulerId} {env : StartEnv} (h : Canonical s) :
    ResultCanonical (execHaulerWatchdog t hauler env s) := by
  dsimp only [execHaulerWatchdog]
  split
  · exact answer_canonical h (atTime_canonical h)
  · refine result_ite (answer_canonical h (atTime_canonical h)) ?_
    exact answerStart_canonical h (reactQuench_canonical (draw_canonical (atTime_canonical h)))

theorem execQuenchTimeout_canonical {t : Mc} {half : Half} {env : StartEnv} (h : Canonical s) :
    ResultCanonical (execQuenchTimeout t half env s) := by
  unfold execQuenchTimeout
  refine result_ite (answer_canonical h (atTime_canonical h)) ?_
  exact answerStart_canonical h (escalate_canonical (draw_canonical (draw_canonical (atTime_canonical h))))

theorem execSelfTest_canonical {t : Mc} {slice : Slice} {passes : Bool} (h : Canonical s) :
    ResultCanonical (execSelfTest t slice passes s) := by
  unfold execSelfTest
  refine result_ite (answer_canonical h (atTime_canonical h)) ?_
  exact answer_canonical h (canonical_ite (atTime_canonical h) (atTime_canonical h))

theorem execLatentOverdue_canonical {t : Mc} {half : Half} {ap : Fin 16} (h : Canonical s) :
    ResultCanonical (execLatentOverdue t half ap s) :=
  result_ite (answer_canonical h (atTime_canonical h)) (answer_canonical h (atTime_canonical h))

theorem execPatrolScrub_canonical {t : Mc} {half : Half} {ecc : Ecc} (h : Canonical s) :
    ResultCanonical (execPatrolScrub t half ecc s) := by
  unfold execPatrolScrub
  refine result_ite (answer_canonical h (atTime_canonical h)) ?_
  split
  · exact answer_canonical h (atTime_canonical h)
  · exact answer_canonical h (atTime_canonical h)
  · exact answer_canonical h (spoilStockLine_canonical (atTime_canonical h))

end

end Sys2Proof.Machine
end

section
/-! The schedule, the test block and the register window. -/

namespace Sys2Proof.Machine

section
variable {s : State}

/-! ### The schedule -/

theorem opEvent_canonical {i : Issue} {code object value : Nat} (h : Canonical s) : Canonical (opEvent s i code object value) :=
  canonical_ite (ctxEvent_canonical h) h

theorem sendData_canonical {i : Issue} {o : SchedOp} {c : RingCfg} {billet a : Nat} {bs : List SByte} {whole : Bool} (h : Canonical s) :
    Canonical (sendData i o c billet a bs whole s) := by
  dsimp only [sendData, sendPort, noteIssuer, updAnvil]
  exact foldl_canonical (fun hu => canonical_ite hu (canonical_ite (canonical_ite hu hu) hu)) h

theorem storeData_canonical {i : Issue} {ap : Nat} (h : Canonical s) : Canonical (storeData i s ap).1 := by
  unfold storeData
  split
  · exact h
  · exact opEvent_canonical h

theorem runStr_canonical {i : Issue} {o : SchedOp} (h : Canonical s) : Canonical (runStr i s o) := by
  dsimp only [runStr, closeBillet, openBillet, noteIssuer, updAnvil, newStr, updRing]
  split
  · exact h
  · split
    · exact storeData_canonical h
    · exact canonical_ite (draw_canonical (storeData_canonical h)) (draw_canonical (storeData_canonical h))

theorem runStm_canonical {i : Issue} {o : SchedOp} (h : Canonical s) : Canonical (runStm i s o) :=
  newStore_canonical (storeData_canonical h)

theorem drainRing_canonical {ctx ring c0 : Nat} (h : Canonical s) : Canonical (drainRing s ctx ring c0) := by
  unfold drainRing
  split
  · exact h
  · exact canonical_ite h (ctxEvent_canonical h)

theorem drainRings_canonical {d : DrainSt} (h : Canonical s) : Canonical (drainRings s d).1 := foldl_canonical drainRing_canonical h

theorem runDrain_canonical {i : Issue} (h : Canonical s) : Canonical (runDrain i s) := drainRings_canonical h

theorem signalDrain_canonical {d : DrainSt} (h : Canonical s) : Canonical (signalDrain s d) := by
  unfold signalDrain
  split
  · split
    · exact sendUpdate_canonical h
    · exact h
  · exact h

theorem execDrainComplete_canonical {t : Mc} {ctx : Fin 256} (h : Canonical s) : ResultCanonical (execDrainComplete t ctx s) := by
  unfold execDrainComplete
  refine result_ite (answer_canonical h (atTime_canonical h)) ?_
  exact answer_canonical h (foldl_canonical (fun hu => canonical_ite (signalDrain_canonical (drainRings_canonical hu))
    (drainRings_canonical hu)) (atTime_canonical h))

theorem runFaulty_canonical {i : Issue} {x : Exec} {o : SchedOp} {code : Nat} (h : Canonical x.s) :
    Canonical (runFaulty i x o code).s := by
  have noted : Canonical (if o.anvil then noteIssuer x.s i o.idx else x.s) := canonical_ite h h
  exact canonical_ite (opEvent_canonical noted) (opEvent_canonical noted)

theorem readLines_canonical {i : Issue} {ap : Nat} {x : Exec} {a n : Nat} (h : Canonical x.s) :
    Canonical (readLines i ap x a n).1.s :=
  List.foldlRecOn (motive := fun acc : Exec × List SByte => Canonical acc.1.s) _ _ h
    fun _ hacc _ _ => canonical_ite (opEvent_canonical hacc) hacc

theorem runRead_canonical {i : Issue} {x : Exec} {o : SchedOp} (h : Canonical x.s) : Canonical (runRead i x o).s := by
  unfold runRead
  split
  · exact sendData_canonical (readLines_canonical h)
  · exact h

theorem runOp_canonical {i : Issue} {x : Exec} {j : Judged} (h : Canonical x.s) : Canonical (runOp i x j).s := by
  unfold runOp
  split
  · exact runFaulty_canonical h
  · dsimp only
    split
    · exact runRead_canonical h
    · exact runRead_canonical h
    · exact runStr_canonical h
    · exact runStm_canonical h
    · exact h
    · exact addPacing_canonical h
    · exact newSig_canonical h
    · exact runDrain_canonical h
    · exact h

theorem freeHead_canonical {ctx : Nat} {r : Nat × Nat} (h : Canonical s) : Canonical (freeHead ctx s r) := h

theorem takeBundle_canonical {asleep : Bool} {b : Bundle} (h : Canonical s) : Canonical (takeBundle asleep s b) := by
  dsimp only [takeBundle, updCtx]
  refine canonical_ite ?_ (canonical_ite ?_ (foldl_canonical freeHead_canonical ?_))
  · exact h
  · exact h
  · exact List.foldlRecOn (motive := fun x : Exec => Canonical x.s) _ _ h fun _ hx _ _ => runOp_canonical hx

theorem issueBundle_canonical {t : Mc} {op : Nat} {b : Bundle} (h : Canonical s) : ResultCanonical (issueBundle t op b s) := by
  unfold issueBundle
  refine result_ite (answer_canonical h (atTime_canonical h)) ?_
  exact answer_canonical h (takeBundle_canonical (canonical_ite (wakeEvent_canonical (atTime_canonical h)) (atTime_canonical h)))

theorem execRd_canonical {t : Mc} {b : Bundle} (h : Canonical s) : ResultCanonical (execRd t b s) := issueBundle_canonical h

theorem execTbl_canonical {t : Mc} {b : Bundle} (h : Canonical s) : ResultCanonical (execTbl t b s) := issueBundle_canonical h

theorem execStr_canonical {t : Mc} {b : Bundle} (h : Canonical s) : ResultCanonical (execStr t b s) := issueBundle_canonical h

theorem execStm_canonical {t : Mc} {b : Bundle} (h : Canonical s) : ResultCanonical (execStm t b s) := issueBundle_canonical h

theorem execFeed_canonical {t : Mc} {b : Bundle} (h : Canonical s) : ResultCanonical (execFeed t b s) := issueBundle_canonical h

theorem execSchedulePace_canonical {t : Mc} {b : Bundle} (h : Canonical s) : ResultCanonical (execSchedulePace t b s) :=
  issueBundle_canonical h

theorem execSig_canonical {t : Mc} {b : Bundle} (h : Canonical s) : ResultCanonical (execSig t b s) := issueBundle_canonical h

theorem execDrain_canonical {t : Mc} {b : Bundle} (h : Canonical s) : ResultCanonical (execDrain t b s) := issueBundle_canonical h

theorem execStrPublish_canonical {t : Mc} {ctx : Fin 256} {ring : Fin 2048} (h : Canonical s) :
    ResultCanonical (execStrPublish t ctx ring s) := by
  dsimp only [execStrPublish, publishBillet, updRing]
  split
  · exact answer_canonical h (whenReady_canonical h)
  · exact result_ite (answer_canonical h (whenReady_canonical h)) (answer_canonical h (whenReady_canonical h))

theorem execReady_canonical {t : Mc} {ctx : Fin 256} (h : Canonical s) : ResultCanonical (execReady t ctx s) := by
  dsimp only [execReady, updCtx]
  repeat' split
  all_goals exact answer_canonical h (atTime_canonical h)

/-! ### Stall reports -/

theorem giveReport_canonical {ms : List StallMember} {p : Nat} (h : Canonical s) : Canonical (giveReport ms s p) := canonical_ite h h

theorem execStallEvaluation_canonical {t : Mc} (h : Canonical s) : ResultCanonical (execStallEvaluation t s) := by
  unfold execStallEvaluation
  refine result_ite (answer_canonical h (atTime_canonical h)) ?_
  exact answer_canonical h (foldl_canonical giveReport_canonical (atTime_canonical h))

theorem execStallPending_canonical {t : Mc} {w : RegWrite} (h : Canonical s) : ResultCanonical (execStallPending t w s) := by
  dsimp only [execStallPending, sendMsix, showReport, updStallRegs]
  refine result_ite (answer_canonical h (hostAt_canonical h)) ?_
  refine result_ite (answer_canonical h (hostAt_canonical h)) ?_
  split
  · exact answer_canonical h (hostAt_canonical h)
  · exact answer_canonical h (hostAt_canonical h)

/-! ### The test block -/

theorem writeMbist_canonical {v : Nat} {failing : List (Fin 128)} (h : Canonical s) : Canonical (writeMbist s v failing) := by
  dsimp only [writeMbist, runMbist, updTest]
  exact canonical_ite h h

theorem execMbistStart_canonical {t : Mc} {w : RegWrite} {failing : List (Fin 128)} (h : Canonical s) :
    ResultCanonical (execMbistStart t w failing s) :=
  answer_canonical h (canonical_ite (writeMbist_canonical (hostAt_canonical h)) (hostAt_canonical h))

theorem monitorLine_canonical {bad : Bool} {env : StartEnv} (h : Canonical s) : Canonical (monitorLine s bad env) :=
  canonical_ite h (canonical_ite (reactContained_canonical h) (canonical_ite h h))

theorem execLoopLineReturn_canonical {t : Mc} {half : Half} {line : Nat} {flips : List Byte} {check : LineCheck} (h : Canonical s) :
    ResultCanonical (execLoopLineReturn t half line flips check s) := by
  unfold execLoopLineReturn
  refine result_ite ?_ (answer_canonical h (engage_canonical (atTime_canonical h)))
  exact answerStart_canonical h (loopReturn_canonical (monitorLine_canonical (engage_canonical (atTime_canonical h))))

theorem writeLbist_canonical {v : Nat} {failing : List Slice} (h : Canonical s) : Canonical (writeLbist s v failing) :=
  canonical_ite (foldl_canonical (fun hu => hu) h) h

theorem execLbistStart_canonical {t : Mc} {w : RegWrite} {failing : List Slice} (h : Canonical s) :
    ResultCanonical (execLbistStart t w failing s) :=
  answer_canonical h (canonical_ite (writeLbist_canonical (hostAt_canonical h)) (hostAt_canonical h))

theorem drawBits_canonical {n : Nat} (h : Canonical s) : Canonical (drawBits n s).2 := h

theorem drawSome_canonical {α : Type} {l : List α} (h : Canonical s) : Canonical (drawSome l s).2 := drawBits_canonical h

theorem writeTest_canonical {r v : Nat} (h : Canonical s) : Canonical (writeTest s r v) := by
  unfold writeTest
  refine canonical_ite (startLoop_canonical h) ?_
  refine canonical_ite h ?_
  refine canonical_ite h ?_
  refine canonical_ite h ?_
  exact canonical_ite (writeMbist_canonical (drawSome_canonical h)) (canonical_ite (writeLbist_canonical (drawSome_canonical h)) h)

theorem execRelease_canonical {t : Mc} {value : Word} (h : Canonical s) : ResultCanonical (execRelease t value s) :=
  answer_canonical h (canonical_ite (atTime_canonical h) (atTime_canonical h))

theorem execTapAccess_canonical {t : Mc} {off : Nat} {value : Word} (h : Canonical s) :
    ResultCanonical (execTapAccess t off value s) := by
  dsimp only [execTapAccess, setTapOwn, updTest]
  refine result_ite (answer_canonical h (atTime_canonical h)) ?_
  exact result_ite (answer_canonical h (atTime_canonical h)) (answer_canonical h (writeTest_canonical (atTime_canonical h)))

theorem execTapTestLogicReset_canonical {t : Mc} (h : Canonical s) : ResultCanonical (execTapTestLogicReset t s) :=
  answer_canonical h (atTime_canonical h)

/-! ### Register writes -/

theorem writeCommit_canonical {w : RegWrite} (h : Canonical s) : Canonical (writeCommit s w) :=
  canonical_ite h (canonical_ite h (canonical_ite h h))

theorem execCommit_canonical {t : Mc} {w : RegWrite} (h : Canonical s) : ResultCanonical (execCommit t w s) :=
  answer_canonical h (writeCommit_canonical (hostAt_canonical h))

theorem execDiscard_canonical {t : Mc} {w : RegWrite} (h : Canonical s) : ResultCanonical (execDiscard t w s) :=
  answer_canonical h (writeCommit_canonical (hostAt_canonical h))

theorem execPriorityCommitApply_canonical {t : Mc} {p : Fin 16} (h : Canonical s) : ResultCanonical (execPriorityCommitApply t p s) := by
  dsimp only [execPriorityCommitApply, updPartRegs]
  repeat' split
  all_goals exact answer_canonical h (atTime_canonical h)

theorem execShadow_canonical {t : Mc} {w : RegWrite} (h : Canonical s) : ResultCanonical (execShadow t w s) :=
  result_ite (answer_canonical h (hostAt_canonical h)) (answer_canonical h (hostAt_canonical h))

theorem execFaultQueueEnable_canonical {t : Mc} {w : RegWrite} (h : Canonical s) : ResultCanonical (execFaultQueueEnable t w s) := by
  dsimp only [execFaultQueueEnable, updFaultQ]
  refine result_ite (answer_canonical h (hostAt_canonical h)) ?_
  refine result_ite (answer_canonical h (hostAt_canonical h)) ?_
  exact result_ite (answer_canonical h (hostAt_canonical h)) (answer_canonical h (flushFaults_canonical (hostAt_canonical h)))

theorem execFaultQueueHead_canonical {t : Mc} {w : RegWrite} (h : Canonical s) : ResultCanonical (execFaultQueueHead t w s) := by
  dsimp only [execFaultQueueHead, updFaultQ]
  refine result_ite (answer_canonical h (hostAt_canonical h)) ?_
  exact result_ite (answer_canonical h (hostAt_canonical h)) (answer_canonical h (flushFaults_canonical (hostAt_canonical h)))

theorem execClear_canonical {t : Mc} {w : RegWrite} (h : Canonical s) : ResultCanonical (execClear t w s) :=
  result_ite (answer_canonical h (hostAt_canonical h)) (answer_canonical h (hostAt_canonical h))

theorem writePwrCtrl_canonical {w : RegWrite} (h : Canonical s) : Canonical (writePwrCtrl s w) :=
  canonical_ite h (canonical_ite (wakeBoth_canonical h) h)

theorem execBank_canonical {t : Mc} {w : RegWrite} (h : Canonical s) : ResultCanonical (execBank t w s) :=
  answer_canonical h (writePwrCtrl_canonical (hostAt_canonical h))

theorem execHoldRun_canonical {t : Mc} {w : RegWrite} (h : Canonical s) : ResultCanonical (execHoldRun t w s) :=
  answer_canonical h (writePwrCtrl_canonical (hostAt_canonical h))

theorem execPowerLogSelect_canonical {t : Mc} {w : RegWrite} (h : Canonical s) : ResultCanonical (execPowerLogSelect t w s) :=
  result_ite (answer_canonical h (hostAt_canonical h)) (answer_canonical h (hostAt_canonical h))

theorem execIntegrityLogSelect_canonical {t : Mc} {w : RegWrite} (h : Canonical s) : ResultCanonical (execIntegrityLogSelect t w s) :=
  result_ite (answer_canonical h (hostAt_canonical h)) (answer_canonical h (hostAt_canonical h))

theorem execAlert_canonical {t : Mc} {w : RegWrite} (h : Canonical s) : ResultCanonical (execAlert t w s) := by
  unfold execAlert
  refine result_ite (answer_canonical h (hostAt_canonical h)) ?_
  exact answer_canonical h (canonical_ite (hostAt_canonical h) (hostAt_canonical h))

theorem execGo_canonical {t : Mc} {w : RegWrite} (h : Canonical s) : ResultCanonical (execGo t w s) := by
  dsimp only [execGo, maintQueues]
  refine result_ite (answer_canonical h (hostAt_canonical h)) ?_
  exact answer_canonical h (canonical_ite (hostAt_canonical h) (hostAt_canonical h))

theorem writeAdminCtl_canonical {w : RegWrite} (h : Canonical s) : Canonical (writeAdminCtl s w) :=
  canonical_ite h (canonical_ite (canonical_ite h h) (canonical_ite h h))

theorem execAdminSqRecover_canonical {t : Mc} {w : RegWrite} (h : Canonical s) : ResultCanonical (execAdminSqRecover t w s) :=
  answer_canonical h (writeAdminCtl_canonical (hostAt_canonical h))

theorem execAdminCqRecover_canonical {t : Mc} {w : RegWrite} (h : Canonical s) : ResultCanonical (execAdminCqRecover t w s) :=
  answer_canonical h (writeAdminCtl_canonical (hostAt_canonical h))

theorem writeQBase_canonical {p r base : Nat} (h : Canonical s) : Canonical (writeQBase s p r base) := canonical_ite h h

theorem writePlain_canonical {w : RegWrite} {r : Nat} (h : Canonical s) : Canonical (writePlain s w r) := by
  unfold writePlain
  refine canonical_ite (canonical_ite h h) ?_
  refine canonical_ite (canonical_ite (writeQBase_canonical h) h) ?_
  exact canonical_ite (canonical_ite h h) (canonical_ite (canonical_ite (writeTest_canonical h) h) h)

theorem writePage_canonical {t : Mc} {w : RegWrite} {r : Nat} (h : Canonical s) : ResultCanonical (writePage t w r s) := by
  unfold writePage
  refine result_ite (execShadow_canonical h) ?_
  refine result_ite (execCommit_canonical h) ?_
  refine result_ite (execAdminSqRecover_canonical h) ?_
  refine result_ite (execHostAdd_canonical h) ?_
  refine result_ite (execStallPending_canonical h) ?_
  refine result_ite (execFaultQueueEnable_canonical h) ?_
  refine result_ite (execFaultQueueHead_canonical h) ?_
  refine result_ite (execClear_canonical h) ?_
  refine result_ite (execLedgerQueueEnable_canonical h) ?_
  refine result_ite (execLedgerQueueHead_canonical h) ?_
  refine result_ite (execBank_canonical h) ?_
  refine result_ite (execPowerLogSelect_canonical h) ?_
  refine result_ite (execAlert_canonical h) ?_
  refine result_ite (execIntegrityLogSelect_canonical h) ?_
  exact result_ite (execGo_canonical h) (answer_canonical h (writePlain_canonical (hostAt_canonical h)))

theorem writeBell_canonical {t : Mc} {j : Nat} {w : BellWrite} (h : Canonical s) : ResultCanonical (writeBell t j w s) := by
  unfold writeBell
  repeat' split
  · exact execSqDoorbell_canonical h
  · exact execCqDoorbell_canonical h
  · exact execPacingDoorbell_canonical h

theorem execRegisterWrite_canonical {t : Mc} {port : Half} {off size : Nat} {value : Word} (h : Canonical s) :
    ResultCanonical (execRegisterWrite t port off size value s) := by
  dsimp only [execRegisterWrite]
  refine result_ite ?_ ?_
  · split
    · exact result_ite (writePage_canonical h) (answer_canonical h (hostAt_canonical h))
    · exact answer_canonical h (hostAt_canonical h)
  · split
    · exact writeBell_canonical h
    · exact answer_canonical h (hostAt_canonical h)

/-! ### Every command and every step -/

theorem exec_canonical (c : Instr) (h : Canonical s) : ResultCanonical (exec c s) := by
  cases c with
  | nop => exact execNop_canonical h
  | halt => exact execHalt_canonical h
  | shape => exact execShape_canonical h
  | move => exact execMove_canonical h
  | gather => exact execGather_canonical h
  | loop => exact execLoop_canonical h
  | stepBase => exact execStepBase_canonical h
  | xform => exact execXform_canonical h
  | quant => exact execQuant_canonical h
  | sums => exact execSums_canonical h
  | code => exact execCode_canonical h
  | expand => exact execExpand_canonical h
  | putRingFill => exact execPutRingFill_canonical h
  | putHandle => exact execPutHandle_canonical h
  | takeRingAcquire => exact execTakeRingAcquire_canonical h
  | takeRingRelease => exact execTakeRingRelease_canonical h
  | takeHandle => exact execTakeHandle_canonical h
  | wait => exact execWait_canonical h
  | signal => exact execSignal_canonical h
  | fence => exact execFence_canonical h
  | pace => exact execPace_canonical h
  | prefetch => exact execPrefetch_canonical h
  | advise => exact execAdvise_canonical h
  | atomic => exact execAtomic_canonical h
  | reduce => exact execReduce_canonical h
  | ledgerSplit => exact execLedgerSplit_canonical h
  | ledgerMark => exact execLedgerMark_canonical h
  | report => exact execReport_canonical h
  | setp => exact execSetp_canonical h
  | parkedResume => exact execParkedResume_canonical h
  | tongsSlotGrant => exact execTongsSlotGrant_canonical h
  | ringPublish => exact execRingPublish_canonical h
  | handlePublish => exact execHandlePublish_canonical h
  | completionRecord => exact execCompletionRecord_canonical h
  | msixCoalesceTimeout => exact execMsixCoalesceTimeout_canonical h
  | rd => exact execRd_canonical h
  | tbl => exact execTbl_canonical h
  | str => exact execStr_canonical h
  | strPublish => exact execStrPublish_canonical h
  | stm => exact execStm_canonical h
  | feed => exact execFeed_canonical h
  | schedulePace => exact execSchedulePace_canonical h
  | sig => exact execSig_canonical h
  | drain => exact execDrain_canonical h
  | drainComplete => exact execDrainComplete_canonical h
  | ready => exact execReady_canonical h
  | operandRead => exact execOperandRead_canonical h
  | counterUpdate => exact execCounterUpdate_canonical h
  | counterWait => exact execCounterWait_canonical h
  | hostAdd => exact execHostAdd_canonical h
  | stallEvaluation => exact execStallEvaluation_canonical h
  | stallPending => exact execStallPending_canonical h
  | sqDoorbell => exact execSqDoorbell_canonical h
  | cqDoorbell => exact execCqDoorbell_canonical h
  | pacingDoorbell => exact execPacingDoorbell_canonical h
  | pacingTimer => exact execPacingTimer_canonical h
  | entryFetch => exact execEntryFetch_canonical h
  | haul => exact execHaul_canonical h
  | arm => exact execArm_canonical h
  | rearm => exact execRearm_canonical h
  | stop => exact execStop_canonical h
  | persistentNextRun => exact execPersistentNextRun_canonical h
  | sqEnable => exact execSqEnable_canonical h
  | sqDisable => exact execSqDisable_canonical h
  | cqEnable => exact execCqEnable_canonical h
  | cqDisable => exact execCqDisable_canonical h
  | queueReset => exact execQueueReset_canonical h
  | contextReset => exact execContextReset_canonical h
  | contextResetComplete => exact execContextResetComplete_canonical h
  | segmentCreate => exact execSegmentCreate_canonical h
  | segmentDestroy => exact execSegmentDestroy_canonical h
  | invalidate => exact execInvalidate_canonical h
  | segmentDrainComplete => exact execSegmentDrainComplete_canonical h
  | faultResolve => exact execFaultResolve_canonical h
  | promotionCopyDone => exact execPromotionCopyDone_canonical h
  | faultBatchClose => exact execFaultBatchClose_canonical h
  | faultResolutionTimeout => exact execFaultResolutionTimeout_canonical h
  | partnerUnfence => exact execPartnerUnfence_canonical h
  | ledgerSeal => exact execLedgerSeal_canonical h
  | ledgerEntryClose => exact execLedgerEntryClose_canonical h
  | flashWrite => exact execFlashWrite_canonical h
  | flashVerify => exact execFlashVerify_canonical h
  | reload => exact execReload_canonical h
  | warmReset => exact execWarmReset_canonical h
  | warmRstN => exact execWarmRstN_canonical h
  | coldStart => exact execColdStart_canonical h
  | powerLoss => exact execPowerLoss_canonical h
  | halfResetRejoin => exact execHalfResetRejoin_canonical h
  | rread => exact execRread_canonical h
  | rwrite => exact execRwrite_canonical h
  | ratomic => exact execRatomic_canonical h
  | rreduce => exact execRreduce_canonical h
  | rsignal => exact execRsignal_canonical h
  | hello => exact execHello_canonical h
  | response => exact execResponse_canonical h
  | attemptTimeout => exact execAttemptTimeout_canonical h
  | linkUp => exact execLinkUp_canonical h
  | pathDown => exact execPathDown_canonical h
  | trainingTimeout => exact execTrainingTimeout_canonical h
  | wakeOrderedSet => exact execWakeOrderedSet_canonical h
  | wakeLimit => exact execWakeLimit_canonical h
  | epochComplete => exact execEpochComplete_canonical h
  | epochTimeout => exact execEpochTimeout_canonical h
  | glowEntry => exact execGlowEntry_canonical h
  | glowWake => exact execGlowWake_canonical h
  | bankedEntry => exact execBankedEntry_canonical h
  | bankedWake => exact execBankedWake_canonical h
  | wakeN => exact execWakeN_canonical h
  | hostWake => exact execHostWake_canonical h
  | hbmSupervision => exact execHbmSupervision_canonical h
  | bankedScrub => exact execBankedScrub_canonical h
  | clock => exact execClock_canonical h
  | stagePoll => exact execStagePoll_canonical h
  | brownoutWarning => exact execBrownoutWarning_canonical h
  | brownoutRecovery => exact execBrownoutRecovery_canonical h
  | brownoutReset => exact execBrownoutReset_canonical h
  | containedDetection => exact execContainedDetection_canonical h
  | uncontainedDetection => exact execUncontainedDetection_canonical h
  | haulerWatchdog => exact execHaulerWatchdog_canonical h
  | selfTest => exact execSelfTest_canonical h
  | latentOverdue => exact execLatentOverdue_canonical h
  | patrolScrub => exact execPatrolScrub_canonical h
  | commit => exact execCommit_canonical h
  | priorityCommitApply => exact execPriorityCommitApply_canonical h
  | discard => exact execDiscard_canonical h
  | shadow => exact execShadow_canonical h
  | faultQueueEnable => exact execFaultQueueEnable_canonical h
  | faultQueueHead => exact execFaultQueueHead_canonical h
  | clear => exact execClear_canonical h
  | ledgerQueueEnable => exact execLedgerQueueEnable_canonical h
  | ledgerQueueHead => exact execLedgerQueueHead_canonical h
  | bank => exact execBank_canonical h
  | holdRun => exact execHoldRun_canonical h
  | wakeAt => exact execWakeAt_canonical h
  | powerLogSelect => exact execPowerLogSelect_canonical h
  | integrityLogSelect => exact execIntegrityLogSelect_canonical h
  | alert => exact execAlert_canonical h
  | loopStart => exact execLoopStart_canonical h
  | loopLineReturn => exact execLoopLineReturn_canonical h
  | loopLineLost => exact execLoopLineLost_canonical h
  | mbistStart => exact execMbistStart_canonical h
  | lbistStart => exact execLbistStart_canonical h
  | release => exact execRelease_canonical h
  | tapAccess => exact execTapAccess_canonical h
  | go => exact execGo_canonical h
  | adminSqRecover => exact execAdminSqRecover_canonical h
  | adminCqRecover => exact execAdminCqRecover_canonical h
  | registerWrite => exact execRegisterWrite_canonical h
  | linkDown => exact execLinkDown_canonical h
  | quenchTimeout => exact execQuenchTimeout_canonical h
  | tapTestLogicReset => exact execTapTestLogicReset_canonical h

theorem step_canonical (h : Canonical s) : ResultCanonical (step s) := by
  unfold step
  split
  · exact .next (idle_canonical h)
  · exact exec_canonical _ h

end

/-- Settles O16: every function of the model that makes a state keeps `Canonical`, so every command and the idle step do. -/
theorem stepKeepsTheMemoriesCanonical : Obligations.StepKeepsTheMemoriesCanonical := by
  intro s u hs hu
  have stepped : ResultCanonical (step s) := step_canonical (canonical_iff.2 hs)
  rw [hu] at stepped
  cases stepped with
  | next h => exact canonical_iff.1 h

end Sys2Proof.Machine
end

section
/-! Events of the faults block where the partition's batch is open (R342, R352), and the requests of pacing lines (R113). -/

namespace Sys2Proof.Machine

/-! ### Events -/

/-- A lookup by what a change keeps finds the changed entry. -/
theorem find?_map_of_keeps {α : Type} {p : α → Bool} {f : α → α} (keeps : ∀ x, p (f x) = p x) (l : List α) :
    (l.map f).find? p = (l.find? p).map f := by
  rw [List.find?_map, show p ∘ f = p from funext keeps]

/-- The lookup of the fault queue of a partition whose batch is open. -/
theorem find?_faultQ_open {s : State} {p : Nat} {q : FaultQ} (h : BatchOpen s p q) :
    s.seg.faultQs.find? (·.part == p) = some q := by
  obtain ⟨x, hx⟩ : ∃ x, s.seg.faultQs.find? (·.part == p) = some x :=
    Option.isSome_iff_exists.1 (List.find?_isSome.2 ⟨q, h.mem, by simp [h.part]⟩)
  have part : x.part = p := by simpa using List.find?_some hx
  rw [hx, h.only x (List.mem_of_find?_eq_some hx) part]

/-- An open batch is one of the fault queues alone. -/
theorem batchOpen_congr {s u : State} {p : Nat} {q : FaultQ} (h : BatchOpen s p q) (e : u.seg = s.seg) :
    BatchOpen u p q :=
  ⟨e ▸ h.mem, h.part, e ▸ h.only, h.room, h.closed, h.waiting⟩

theorem getFaultQ_open {s : State} {p : Nat} {q : FaultQ} (h : BatchOpen s p q) : getFaultQ s p = q := by
  rw [getFaultQ, find?_faultQ_open h, Option.getD_some]

/-- An open batch with one more record. -/
def withOneMore (q : FaultQ) (r : FaultRec) : FaultQ := { q with openB := q.openB ++ [{ r with batch := q.batchNo % 65536 }] }

theorem withRecord_eq (qs : List FaultQ) (p : Nat) (r : FaultRec) :
    withRecord qs p r = qs.map fun q => if q.part == p then withOneMore q r else q := rfl

/-- A batch that has room for two records takes one and stays open. -/
theorem addToBatch_room {q : FaultQ} {r : FaultRec} (room : q.openB.length < 63) : addToBatch q r = withOneMore q r :=
  if_neg (by simp only [List.length_append, List.length_singleton]; omega)

theorem updFaultQ_addToBatch {s : State} {p : Nat} {q : FaultQ} (h : BatchOpen s p q) (r : FaultRec) :
    updFaultQ s p (fun x => addToBatch x r) = { s with seg := withEvent s p r } := by
  have same : updWhere (fun x : FaultQ => x.part == p) (fun x => addToBatch x r) s.seg.faultQs = withRecord s.seg.faultQs p r := by
    rw [withRecord_eq]
    refine List.map_congr_left fun x hx => ?_
    by_cases hp : x.part = p
    · exact congrArg (fun y => if x.part == p then y else x) (addToBatch_room (h.only x hx hp ▸ h.room))
    · simp [hp]
  simp only [updFaultQ, same]
  rfl

theorem getFaultQ_withEvent {s : State} {p : Nat} {q : FaultQ} (h : BatchOpen s p q) (r : FaultRec) :
    getFaultQ { s with seg := withEvent s p r } p = withOneMore q r := by
  have keeps (x : FaultQ) : ((if x.part == p then withOneMore x r else x).part == p) = (x.part == p) := by
    by_cases hx : x.part = p <;> simp [hx, withOneMore]
  simp only [getFaultQ, withEvent, withRecord_eq]
  rw [find?_map_of_keeps keeps, find?_faultQ_open h]
  simp [h.part]

/-- With no batch closed, no batch full and nothing that waits, the faults block has nothing to write. -/
theorem flushFaults_open {s : State} {p : Nat} (closed : (getFaultQ s p).closedB = []) (room : (getFaultQ s p).openB.length < 64)
    (waiting : (getFaultQ s p).waiting = []) : flushFaults s p = s := by
  unfold flushFaults flushLoop
  rw [if_pos]
  simp [closed, room, waiting]

/-- An event joins the open batch. -/
theorem raiseEvent_open {s : State} {p : Nat} {q : FaultQ} (h : BatchOpen s p q) (code ctx : Nat) (noCtx : Bool) (object value : Nat) :
    raiseEvent s p code ctx noCtx object value = { s with seg := withEvent s p (eventRec code ctx noCtx object value s.time) } := by
  have room := h.room
  have after := getFaultQ_withEvent h (eventRec code ctx noCtx object value s.time)
  change pushRecord s p (eventRec code ctx noCtx object value s.time) = _
  unfold pushRecord
  rw [getFaultQ_open h, if_pos (by simp [batchHasRoom, h.waiting]; omega)]
  refine (congrArg (flushFaults · p) (updFaultQ_addToBatch h _)).trans (flushFaults_open ?_ ?_ ?_)
  · rw [after]; exact h.closed
  · rw [after]; simp only [withOneMore, List.length_append, List.length_singleton]; omega
  · rw [after]; exact h.waiting

theorem ctxEvent_open {s : State} {ctx : Nat} {q : FaultQ} (h : BatchOpen s (partOfCtx s ctx) q) (code object value : Nat) :
    ctxEvent s ctx code object value =
      { s with seg := withEvent s (partOfCtx s ctx) (eventRec code ctx false object value s.time) } :=
  raiseEvent_open h code ctx false object value

/-! ### Pacing requests -/

/-- The machine with the record of pacing line `line` replaced. -/
def putPacing (s : State) (line : Nat) (y : PacingSt) : State :=
  { s with buf := { s.buf with pacing := s.buf.pacing.map fun z => if z.line == line then y else z } }

/-- A change of a line that has one record. -/
theorem updPacing_only {s : State} {line : Nat} {x : PacingSt} (only : ∀ y ∈ s.buf.pacing, y.line = line → y = x)
    (f : PacingSt → PacingSt) : updPacing s line f = putPacing s line (f x) := by
  have same : updWhere (fun y : PacingSt => y.line == line) f s.buf.pacing =
      s.buf.pacing.map fun z => if z.line == line then f x else z := by
    refine List.map_congr_left fun y hy => ?_
    by_cases hl : y.line = line
    · simp [only y hy hl]
    · simp [hl]
  simp only [updPacing, same, putPacing]

/-- A request of a line below 65,535. -/
theorem addPacing_counts {s : State} {line : Nat} {x : PacingSt} {c : PacingCfg} (run : running s = true)
    (hc : pacingCfg s line = some c) (hx : getPacing s line = some x) (coming : x.coming = [])
    (only : ∀ y ∈ s.buf.pacing, y.line = line → y = x) (room : x.pending < 65535) :
    addPacing s line 0 =
      { putPacing s line { x with pending := x.pending + 1 } with power := woken s.power s.time (oneHalf (homeOfCtx s c.ctx)) } := by
  simp only [addPacing, hx, hc, ge_iff_le, Nat.not_le.2 room, if_false, if_true, updPacing_only only, coming, List.filter_nil]
  exact wakeHalf_eq_woken run

/-- A request of a line at 65,535 is lost, counted and reported. -/
theorem addPacing_lost {s : State} {line : Nat} {x : PacingSt} {c : PacingCfg} {fq : FaultQ} (hc : pacingCfg s line = some c)
    (hx : getPacing s line = some x) (only : ∀ y ∈ s.buf.pacing, y.line = line → y = x) (full : 65535 ≤ x.pending)
    (batch : BatchOpen s (partOfCtx s c.ctx) fq) :
    addPacing s line 0 = { putPacing s line { x with overruns := min 0xFFFFFFFF (x.overruns + 1) } with
      seg := withEvent s (partOfCtx s c.ctx) (eventRec 0x0003 c.ctx false line (min 0xFFFFFFFF (x.overruns + 1)) s.time) } := by
  simp only [addPacing, hx, hc, ge_iff_le, full, if_true, updPacing_only only, capAt_eq_min]
  exact ctxEvent_open (batchOpen_congr (u := putPacing s line { x with overruns := min 0xFFFFFFFF (x.overruns + 1) }) batch rfl) _ _ _

/-! ### Commands -/

/-- A wake event of one half changes the power state alone. -/
theorem wakeHalf_frame (s : State) (h : Half) : ∃ p, wakeHalf s h = { s with power := p } := by
  unfold wakeHalf
  split
  · split
    · exact ⟨_, rfl⟩
    · exact ⟨_, rfl⟩
  · exact ⟨s.power, rfl⟩

/-- A beat on a host port changes the power state alone. -/
theorem hostBeat_frame (s : State) (h : Half) : ∃ p, hostBeat s h = { s with power := p } := by
  unfold hostBeat
  split
  · obtain ⟨p, e⟩ := wakeHalf_frame s h
    exact ⟨_, by rw [e]; rfl⟩
  · exact ⟨s.power, rfl⟩

/-- An answer over the state at an access of a host port, whose effect left the queue, the fuses and the flash alone. -/
theorem answer_hostAt_eq {s u : State} {t : Mc} {h : Half} (hp : u.pending = (hostAt s t h).pending) (hf : u.fuses = (hostAt s t h).fuses)
    (hl : u.flash = (hostAt s t h).flash) : answer s u = .next u := by
  obtain ⟨p, e⟩ := hostBeat_frame (atTime s t) h
  rw [hostAt, e] at hp hf hl
  exact answer_atTime_eq hp hf hl

/-- A discarded doorbell. -/
theorem countBell_eq (s : State) (p : Nat) : countBell s p = { s with partRegs := s.partRegs.map fun r =>
    if r.part == p then { r with bellDiscards := min 0xFFFFFFFF (r.bellDiscards + 1) } else r } := by
  simp only [countBell, updPartRegs, updWhere, capAt_eq_min]

section
variable {s0 : State} {t : Mc} {w : BellWrite} {line : Nat} {c : PacingCfg}

/-- A doorbell write of word 0 that rings a pacing line of the partition. -/
theorem execPacingDoorbell_rings (run : running (hostAt s0 t w.port) = true) (small : line < 256)
    (hc : pacingCfg (hostAt s0 t w.port) line = some c) (port : w.port = homePort (hostAt s0 t w.port) w.part.val) (size : w.size = 4)
    (value : w.value.toNat % 2 ^ 32 = line) (source : c.source = .host) (part : partOfCtx (hostAt s0 t w.port) c.ctx = w.part.val) :
    execPacingDoorbell t 0 w s0 = answer s0 (addPacing (hostAt s0 t w.port) line 0) := by
  have here : bellValue w = line := value
  simp [execPacingDoorbell, run, here, bellOk, size, small, hc, ← port, source, part]

/-- Every other doorbell write of word 0, and every one of another word, is discarded and counted. -/
theorem execPacingDoorbell_counted {k : Nat} (run : running (hostAt s0 t w.port) = true)
    (hc : pacingCfg (hostAt s0 t w.port) line = some c)
    (deaf : k ≠ 0 ∨ w.value.toNat % 2 ^ 32 = line ∧ ¬ (w.port = homePort (hostAt s0 t w.port) w.part.val ∧ c.source = .host ∧
      partOfCtx (hostAt s0 t w.port) c.ctx = w.part.val)) :
    execPacingDoorbell t k w s0 = answer s0 (countBell (hostAt s0 t w.port) w.part.val) := by
  simp only [execPacingDoorbell, run, Bool.not_true, Bool.false_eq_true, if_false]
  rw [if_neg]
  rcases deaf with hk | ⟨hv, h⟩
  · simp [hk]
  · intro ok
    simp only [bellValue, hv, hc, Bool.and_eq_true, beq_iff_eq] at ok
    exact h ⟨ok.1.1.1.1, ok.2.1, ok.2.2⟩

end

/-- A timer line's request, once it is due. -/
theorem execPacingTimer_due {s : State} {t : Mc} {line : Fin 256} {x : PacingSt} {c : PacingCfg} (run : running s = true)
    (hc : pacingCfg s line.val = some c) (hx : getPacing s line.val = some x) (source : c.source = .timer) :
    execPacingTimer t line s = answer s
      (addPacing (updPacing (atTime s (max t x.due)) line.val fun y => { y with due := y.due + c.period }) line.val 0) := by
  simp [execPacingTimer, hc, hx, source, run]

/-- The line of another source has no timer. -/
theorem execPacingTimer_other {s : State} {t : Mc} {line : Fin 256} {x : PacingSt} {c : PacingCfg}
    (hc : pacingCfg s line.val = some c) (hx : getPacing s line.val = some x) (source : c.source ≠ .timer) :
    execPacingTimer t line s = .next (atTime s t) := by
  simp [execPacingTimer, hc, hx, source]

/-- The one record of a line, replaced. -/
theorem getPacing_putPacing {s : State} {line : Nat} {x y : PacingSt} (hx : getPacing s line = some x) (hy : y.line = line) :
    getPacing (putPacing s line y) line = some y := by
  have hl : x.line = line := by simpa using List.find?_some hx
  have keeps (z : PacingSt) : ((if z.line == line then y else z).line == line) = (z.line == line) := by
    by_cases hz : z.line = line <;> simp [hz, hy]
  simp only [getPacing, putPacing]
  rw [find?_map_of_keeps keeps, show s.buf.pacing.find? (·.line == line) = some x from hx]
  simp [hl]

/-- The record of a line is alone after it has been replaced. -/
theorem only_putPacing {s : State} {line : Nat} {y : PacingSt} : ∀ z ∈ (putPacing s line y).buf.pacing, z.line = line → z = y := by
  intro z hz hl
  obtain ⟨a, ha, rfl⟩ := List.mem_map.1 hz
  by_cases h : a.line = line
  · simp [h]
  · simp [h] at hl

/-- A record replaced twice is the second one. -/
theorem putPacing_putPacing (s : State) (line : Nat) (x y : PacingSt) (hx : x.line = line) :
    putPacing (putPacing s line x) line y = putPacing s line y := by
  simp only [putPacing, List.map_map]
  refine congrArg (fun l => { s with buf := { s.buf with pacing := l } }) (List.map_congr_left fun z _ => ?_)
  by_cases h : z.line = line <;> simp [h, hx]

/-- Settles O34: a doorbell or a timer's due time comes down to `addPacing`, which counts below 65,535 and reports at it. -/
theorem pacingRequestsAreCounted : Obligations.PacingRequestsAreCounted := by
  unfold Obligations.PacingRequestsAreCounted
  refine ⟨?_, ?_⟩
  · intro s0 t line w x c s run hc hx coming only put counted ok
    refine ⟨?_, ?_, ?_, ?_⟩
    · intro ⟨port, size, value, source, part⟩ room
      refine (execPacingDoorbell_rings run line.isLt hc port size value source part).trans ?_
      rw [addPacing_counts run hc hx coming only room]
      exact answer_hostAt_eq rfl rfl rfl
    · intro fq ⟨port, size, value, source, part⟩ full batch
      refine (execPacingDoorbell_rings run line.isLt hc port size value source part).trans ?_
      rw [addPacing_lost hc hx only full (part ▸ batch), part]
      exact answer_hostAt_eq rfl rfl rfl
    · intro size value bad
      refine (execPacingDoorbell_counted run hc (.inr ⟨value, fun g => bad ⟨g.1, size, value, g.2⟩⟩)).trans ?_
      rw [countBell_eq]
      exact answer_hostAt_eq rfl rfl rfl
    · intro k hk
      refine (execPacingDoorbell_counted run hc (.inl hk)).trans ?_
      rw [countBell_eq]
      exact answer_hostAt_eq rfl rfl rfl
  · intro s0 t line x0 x c run hc hx0 s hx coming only put
    have hl : x.line = line.val := by simpa using List.find?_some hx
    let d : PacingSt := { x with due := x.due + c.period }
    have hd : d.line = line.val := hl
    have later : updPacing s line.val (fun y => { y with due := y.due + c.period }) = putPacing s line.val d := updPacing_only only _
    have runs : running (putPacing s line.val d) = true := (running_atTime _ _).trans run
    have hcd : pacingCfg (putPacing s line.val d) line.val = some c := (pacingCfg_atTime _ _ _).trans hc
    have hxd : getPacing (putPacing s line.val d) line.val = some d := getPacing_putPacing hx hl
    refine ⟨?_, ?_, ?_⟩
    · intro source room
      refine (execPacingTimer_due run hc hx0 source).trans ?_
      rw [later, addPacing_counts runs hcd hxd coming only_putPacing room, putPacing_putPacing _ _ d _ hd]
      exact answer_atTime_eq rfl rfl rfl
    · intro fq source full batch
      refine (execPacingTimer_due run hc hx0 source).trans ?_
      rw [later, addPacing_lost hcd hxd only_putPacing full (batchOpen_congr batch rfl), putPacing_putPacing _ _ d _ hd]
      exact answer_atTime_eq rfl rfl rfl
    · exact execPacingTimer_other hc hx0

end Sys2Proof.Machine
end

section
/-! Administrative commands whose checks fail (R78, R299, R303, R434): the front entry leaves its queue, its record waits, and nothing else
changes. -/

namespace Sys2Proof.Machine

/-! ### The queue as no command of this mc has changed it (R304) -/

theorem seenSq_kept {s : State} {q : Nat} (kept : ∀ o ∈ s.q.oldSqs, o.2.qid ≠ q) : seenSq s q = getSq s q := by
  have none : (s.q.oldSqs.find? fun o => o.1 == s.time && o.2.qid == q) = none :=
    List.find?_eq_none.2 fun o ho => by simp [kept o ho]
  simp only [seenSq, none]

theorem updOldSq_kept {s : State} {q : Nat} (kept : ∀ o ∈ s.q.oldSqs, o.2.qid ≠ q) (f : SubQueue → SubQueue) : updOldSq s q f = s := by
  have same : updWhere (fun o : Mc × SubQueue => o.2.qid == q) (fun o => (o.1, f o.2)) s.q.oldSqs = s.q.oldSqs :=
    (List.map_congr_left fun o ho => by simp [kept o ho]).trans (List.map_id _)
  simp only [updOldSq, same]

theorem updSeenSq_kept {s : State} {q : Nat} (kept : ∀ o ∈ s.q.oldSqs, o.2.qid ≠ q) (f : SubQueue → SubQueue) :
    updSeenSq s q f = updSq s q f := updOldSq_kept (s := updSq s q f) kept f

theorem dispatchSq_kept {s : State} {q : Nat} (kept : ∀ o ∈ s.q.oldSqs, o.2.qid ≠ q) : dispatchSq s q = getSq s q := by
  unfold dispatchSq
  rw [seenSq_kept kept]
  cases h : getSq s q with
  | none => rfl
  | some x => simp

/-- The front entry leaves its queue. -/
theorem popHeld_kept {s : State} {q : Nat} (kept : ∀ o ∈ s.q.oldSqs, o.2.qid ≠ q) :
    popHeld s q = updSq s q fun x => { x with held := x.held.drop 1 } := by
  unfold popHeld
  rw [dispatchSq_kept kept]
  cases h : getSq s q with
  | none => exact updSeenSq_kept kept _
  | some x => cases hx : x.held <;> simp only [beq_self_eq_true, if_true, hx] <;> exact updSeenSq_kept kept _

/-! ### The front entry of an admin queue -/

/-- Partition `p`'s admin queue may start its front entry `e`, which names command `cmd`, outside a half reset (R299, R302). -/
structure AdminStarts (s : State) (p : Fin 16) (cmd : Nat) (e : List Byte) : Prop where
  front : adminFront s p.val cmd = some e
  kept  : ∀ o ∈ s.q.oldSqs, o.2.qid ≠ p.val

theorem adminStarts {s : State} {p : Fin 16} {e : List Byte} {rest : List (List Byte)} (run : running s = true)
    (queue : ∃ q, getSq s p.val = some q ∧ q.st = .enabled ∧ q.held = e :: rest) (kept : ∀ o ∈ s.q.oldSqs, o.2.qid ≠ p.val)
    (half : s.halfReset.get (homePort s p.val) = false) (room : adminBusy s p.val < 16) : AdminStarts s p (fieldAt e 8 2) e := by
  obtain ⟨q, hq, st, held⟩ := queue
  have home : sqHome s p.val = homePort s p.val := if_pos p.isLt
  exact ⟨by simp [adminFront, hq, held, st, run, adminCmd, home, half, room], kept⟩

/-- The machine once the admin entry `e` has been answered with `status` and `detail`. -/
def refusedAdmin (s : State) (p : Fin 16) (e : List Byte) (status detail : Nat) : State :=
  { s with q := { s.q with sqs := popAdmin s.q.sqs p.val
                           records := joinRecords s.q.records [adminAnswer s.time p.val e status detail 0] } }

/-- An entry that leaves its admin queue with its record. -/
theorem finishAdmin_popHeld {s : State} {p : Fin 16} (kept : ∀ o ∈ s.q.oldSqs, o.2.qid ≠ p.val) (e : List Byte) (status detail : Nat) :
    finishAdmin (popHeld s p.val) p.val e status detail = refusedAdmin s p e status detail := by
  have cq : cqOf s p.val = p.val := if_pos p.isLt
  have irq : entryIrq e = decide (fieldAt e 1 1 / 2 % 2 = 1) := rfl
  rw [popHeld_kept kept]
  simp only [finishAdmin, adminRecord, readyRecord, entryRecord, refusedAdmin, adminAnswer, joinRecords, List.foldl_cons, List.foldl_nil,
    irq, if_pos p.isLt, popAdmin, entryTag, updSq_time]
  rw [show cqOf (updSq s p.val fun x => { x with held := x.held.drop 1 }) p.val = p.val from cq]
  rfl

section
variable {s0 : State} {t : Mc} {p : Fin 16} {cmd : Nat} {e : List Byte} {fin : State → State → Result}
  {checks : State → List Byte → List (Nat × Nat)} {act : State → List Byte → State}

/-- A command that its configuration or issuer forbids. -/
theorem withAdminBy_barred (start : AdminStarts (atTime s0 t) p cmd e) {st d : Nat}
    (barred : adminBarred (atTime s0 t) p.val cmd = some (st, d)) :
    withAdminBy fin t p cmd s0 noCtx checks act = .next (refusedAdmin (atTime s0 t) p e st d) := by
  simp only [withAdminBy, start.front, noCtx, Option.any_none, Bool.false_eq_true, if_false, barred]
  rw [finishAdmin_popHeld start.kept]
  exact answer_atTime_eq rfl rfl rfl

/-- A command of which another check fails. -/
theorem withAdminBy_fails (start : AdminStarts (atTime s0 t) p cmd e) {st d : Nat} (allowed : adminBarred (atTime s0 t) p.val cmd = none)
    (worst : worstFailure (checks (popHeld (atTime s0 t) p.val) e) = some (st, d)) :
    withAdminBy fin t p cmd s0 noCtx checks act = .next (refusedAdmin (atTime s0 t) p e st d) := by
  simp only [withAdminBy, start.front, noCtx, Option.any_none, Bool.false_eq_true, if_false, allowed, worst]
  rw [finishAdmin_popHeld start.kept]
  exact answer_atTime_eq rfl rfl rfl

/-- A command of the flash or a reset from another partition, with no FLASH_WRITE under way. -/
theorem oneAtATime_barred (start : AdminStarts (atTime s0 t) p cmd e) (free : ∀ x ∈ (atTime s0 t).q.records, x.flash = none) {st d : Nat}
    (barred : adminBarred (atTime s0 t) p.val cmd = some (st, d)) :
    oneAtATime fin t p cmd s0 checks act = .next (refusedAdmin (atTime s0 t) p e st d) := by
  have idle : (atTime s0 t).q.records.any isFlashWrite = false :=
    List.any_eq_false.2 fun x hx => by simp [isFlashWrite, free x hx]
  simp only [oneAtATime, idle, Bool.false_eq_true, if_false]
  exact withAdminBy_barred start barred

end

/-! ### Operand bytes -/

theorem fieldAt_one (e : List Byte) (i : Nat) : fieldAt e i 1 = (e[i]?.map BitVec.toNat).getD 0 := by
  unfold fieldAt
  rw [List.take_one, List.head?_drop]
  cases e[i]? <;> simp [leVal]

/-- Operand bytes are clear when each of them is zero. -/
theorem opBytes_eq_false {e : List Byte} {lo hi : Nat} : opBytes e lo hi = false ↔ ∀ i, lo ≤ i → i ≤ hi → fieldAt e i 1 = 0 := by
  simp only [opBytes, anyNonZero, List.any_eq_false, bne_iff_ne, ne_eq, not_not, fieldAt_one]
  constructor
  · intro clear i hl hh
    cases he : e[i]? with
    | none => rfl
    | some b =>
      have at' : ((e.drop lo).take (hi + 1 - lo))[i - lo]? = some b := by
        rw [List.getElem?_take_of_lt (by omega), List.getElem?_drop, Nat.add_sub_cancel' hl, he]
      simp [clear b (List.mem_of_getElem? at')]
  · intro clear b hb
    obtain ⟨k, hk⟩ := List.mem_iff_getElem?.1 hb
    have inside : k < hi + 1 - lo := (List.getElem?_eq_some_iff.1 hk).1.trans_le (List.length_take_le _ _)
    rw [List.getElem?_take_of_lt inside, List.getElem?_drop] at hk
    have zero := clear (lo + k) (by omega) (by omega)
    rw [hk] at zero
    exact BitVec.eq_of_toNat_eq zero

/-! ### The failing check that is reported -/

theorem minBy_mem {α : Type} {key : α → Nat} {y : α} : ∀ {l : List α}, minBy key l = some y → y ∈ l
  | [], h => by simp [minBy] at h
  | x :: xs, h => by
    unfold minBy at h
    cases hm : minBy key xs with
    | none => simp_all
    | some z =>
      have hz := minBy_mem hm
      simp only [hm] at h
      split at h <;> simp_all

theorem mem_failIf {c : Bool} {st d : Nat} {f : Nat × Nat} (h : f ∈ failIf c st d) : f = (st, d) := by
  unfold failIf at h
  split at h <;> simp_all

theorem statusRank_pos {st : Nat} (h : st ≠ stUnitAbsent) : 1 ≤ statusRank st := by
  unfold statusRank
  rw [if_neg (by simpa using h)]
  repeat' split
  all_goals omega

/-- A BAD_PROGRAM that comes first is reported, unless a unit is absent (R78). -/
theorem worstFailure_badProgram {d : Nat} {fs : List (Nat × Nat)} (present : ∀ f ∈ fs, f.1 ≠ stUnitAbsent) :
    worstFailure ((stBadProgram, d) :: fs) = some (stBadProgram, d) := by
  unfold worstFailure minBy
  cases h : minBy (fun f : Nat × Nat => statusRank f.1) fs with
  | none => rfl
  | some y => exact if_pos (statusRank_pos (present y (minBy_mem h)))

/-- The one failing check is reported. -/
theorem worstFailure_alone {a b c d : Bool} {x y z w : Nat} (ha : a = false) (hb : b = true) (hc : c = false) (hd : d = false) :
    worstFailure (failIf a stBadProgram x ++ failIf b stRights y ++ failIf c stBadProgram z ++ failIf d stSegmentBound w) =
      some (stRights, y) := by
  subst ha hb hc hd
  rfl

/-- The state of a queue, its front entry having left an admin queue. -/
theorem getSq_popHeld_st {s : State} {q k : Nat} (kept : ∀ o ∈ s.q.oldSqs, o.2.qid ≠ q) :
    (getSq (popHeld s q) k).map (·.st) = (getSq s k).map (·.st) := by
  have keeps (x : SubQueue) : ((if x.qid == q then { x with held := x.held.drop 1 } else x : SubQueue).qid == k) = (x.qid == k) := by
    by_cases h : x.qid = q <;> simp [h]
  rw [popHeld_kept kept]
  simp only [getSq, updSq, updWhere]
  rw [find?_map_of_keeps keeps, Option.map_map]
  refine congrArg (Option.map · _) (funext fun x => ?_)
  by_cases h : x.qid = q <;> simp [h]

/-- Partition 0 alone sends the commands from 0x50 on. -/
theorem adminBarred_maint {s : State} {p cmd : Nat} (maint : s.status.maint = true) (other : maintCmd cmd = false) :
    adminBarred s p cmd = some (stBadProgram, 0x4005) := by
  simp [adminBarred, maint, other]

theorem adminBarred_issuer {s : State} {p cmd : Nat} (issuer : p ≠ 0) (own : 0x50 ≤ cmd)
    (open' : s.status.maint = false ∨ maintCmd cmd = true) : adminBarred s p cmd = some (stRights, dtNotOwned) := by
  rcases open' with h | h <;> simp [adminBarred, h, own, issuer]

theorem adminBarred_none {s : State} {p cmd : Nat} (maint : s.status.maint = false) (common : cmd < 0x50) :
    adminBarred s p cmd = none := by
  simp [adminBarred, maint, Nat.not_le.2 common]

/-- Settles O40: an entry that its configuration, its issuer or its operands forbid is answered and leaves its queue (`refusedAdmin`). -/
theorem refusedAdminCommandsHaveNoEffect : Obligations.RefusedAdminCommandsHaveNoEffect := by
  unfold Obligations.RefusedAdminCommandsHaveNoEffect
  intro s0 t p e rest env done b s run queue kept half room cmd refused
  have start : AdminStarts s p cmd e := adminStarts run queue kept half room
  refine ⟨?_, ?_, ?_, ?_⟩
  · have maintained {k : Nat} {checks act} (hc : cmd = k) (m : s.status.maint = true) (other : maintCmd k = false) :
        withAdminBy answer t p k s0 noCtx checks act = refused 0x0011 0x4005 :=
      withAdminBy_barred (hc ▸ start) (adminBarred_maint m other)
    simp only [List.forall_mem_cons, List.not_mem_nil, false_implies, implies_true, and_true]
    dsimp only [exec, execSqEnable, execSqDisable, execCqEnable, execCqDisable, execQueueReset, execPartnerUnfence, execLedgerSeal, withAdmin]
    exact ⟨fun hc m => maintained hc m rfl, fun hc m => maintained hc m rfl, fun hc m => maintained hc m rfl,
      fun hc m => maintained hc m rfl, fun hc m => maintained hc m rfl, fun hc m => maintained hc m rfl, fun hc m => maintained hc m rfl⟩
  · intro free
    have issued {k : Nat} {fin checks act} (hc : cmd = k) (other : p ≠ 0) (own : 0x50 ≤ k)
        (open' : s.status.maint = false ∨ maintCmd k = true) : oneAtATime fin t p k s0 checks act = refused 0x0021 0x4006 :=
      oneAtATime_barred (hc ▸ start) free (adminBarred_issuer (fun h => other (Fin.ext h)) own open')
    simp only [List.forall_mem_cons, List.not_mem_nil, false_implies, implies_true, and_true]
    dsimp only [exec, execFlashWrite, execFlashVerify, execReload, execWarmReset]
    exact ⟨fun hc o _ => issued hc o (by decide) (.inr rfl), fun hc o _ => issued hc o (by decide) (.inr rfl),
      fun hc o _ => issued hc o (by decide) (.inr rfl), fun hc o m => issued hc o (by decide) (.inl (m.resolve_right fun h => h rfl))⟩
  · have reserved {k : Nat} {act} {fs : State → List Byte → List (Nat × Nat)} (hc : cmd = k) (m : s.status.maint = false) (common : k < 0x50)
        (byte : fieldAt e 40 1 ≠ 0) (present : ∀ u, ∀ f ∈ fs u e, f.1 ≠ stUnitAbsent) :
        withAdminBy answer t p k s0 noCtx
          (fun u e => failIf (opBytes e 18 23 || opBytes e 32 63) stBadProgram dtReserved ++ fs u e) act = refused 0x0011 0x4000 := by
      have bad : opBytes e 32 63 = true :=
        (Bool.not_eq_false _).mp fun h => byte (opBytes_eq_false.1 h 40 (by omega) (by omega))
      refine withAdminBy_fails (hc ▸ start) (adminBarred_none m common) ?_
      simp only [bad, Bool.or_true, failIf, if_true]
      exact worstFailure_badProgram (present _)
    simp only [List.forall_mem_cons, List.not_mem_nil, false_implies, implies_true, and_true]
    dsimp only [exec, execSqEnable, execCqEnable, withAdmin]
    simp only [List.append_assoc]
    refine ⟨fun hc m byte => reserved hc m (by decide) byte ?_, fun hc m byte => reserved hc m (by decide) byte ?_⟩
    all_goals
      intro u f hf
      rcases List.mem_append.1 hf with hf | hf
      · rw [mem_failIf hf]; decide
      · rcases List.mem_append.1 hf with hf | hf <;> rw [mem_failIf hf] <;> decide
  · intro x hc maint zero owner hx off aligned fits
    have low : opBytes e 18 23 = false := opBytes_eq_false.2 fun i h1 h2 => zero i (.inl ⟨h1, by omega⟩)
    have high : opBytes e 32 63 = false := opBytes_eq_false.2 fun i h1 h2 => zero i (.inr ⟨h1, by omega⟩)
    have disabled : ((getSq (popHeld s p.val) (opQueue e)).map fun y => y.st != .disabled).getD false = false := by
      have same := getSq_popHeld_st (k := opQueue e) kept
      rw [show getSq s (opQueue e) = some x from hx, Option.map_some, off] at same
      obtain ⟨y, hy, st⟩ := Option.map_eq_some_iff.1 same
      simp [hy, st]
    have other : (sqOwner (popHeld s p.val) (opQueue e) != some p.val) = true := by
      rw [popHeld_kept kept]
      exact bne_iff_ne.2 owner
    have base : baseBad (opBase e) (sqDepth (popHeld s p.val) (opQueue e) * 64) = false := by
      rw [popHeld_kept kept]
      simp only [baseBad, Bool.or_eq_false_iff, bne_eq_false_iff_eq, decide_eq_false_iff_not, Nat.not_lt]
      exact ⟨aligned, fits⟩
    dsimp only [exec, execSqEnable, withAdmin]
    exact withAdminBy_fails (hc ▸ start) (adminBarred_none maint (by decide))
      (worstFailure_alone (by rw [low, high]; rfl) other disabled base)

end Sys2Proof.Machine
end

section
/-! A hauler's command (R73, R82): what the request whose next instruction is of the command's row does is what the instruction means, and a
request that has passed its word has been active (R487). -/

namespace Sys2Proof.Machine

/-! ### What every command keeps -/

/-- The queue of waiting commands, the fuses and the flash are those of `s`. -/
structure Shell (s u : State) : Prop where
  pending : u.pending = s.pending
  fuses   : u.fuses = s.fuses
  flash   : u.flash = s.flash

theorem Shell.trans {s u v : State} (h : Shell s u) (g : Shell u v) : Shell s v :=
  ⟨g.pending.trans h.pending, g.fuses.trans h.fuses, g.flash.trans h.flash⟩

theorem Shell.answer {s u : State} (h : Shell s u) : Machine.answer s u = .next u := answer_eq h.pending h.fuses h.flash

theorem atTime_shell (s : State) (t : Mc) : Shell s (atTime s t) := ⟨atTime_pending s t, atTime_fuses s t, atTime_flash s t⟩

theorem passUntil_shell (p : State → Bool) : ∀ (n : Nat) (s : State), Shell s (passUntil p n s)
  | 0, _ => ⟨rfl, rfl, rfl⟩
  | n + 1, s => by
    unfold passUntil
    split
    · exact ⟨rfl, rfl, rfl⟩
    · split
      · exact (atTime_shell s _).trans (passUntil_shell p n _)
      · exact ⟨rfl, rfl, rfl⟩

theorem whenReady_shell (s : State) (t : Mc) (p : State → Bool) : Shell s (whenReady s t p) := by
  unfold whenReady
  dsimp only
  split
  · exact (atTime_shell s t).trans (passUntil_shell p _ _)
  · exact atTime_shell s t

theorem atInstr_shell (s : State) (t : Mc) (h : HaulerId) (row : String) : Shell s (atInstr s t h row) := by
  unfold atInstr
  dsimp only
  split
  · exact (atTime_shell s t).trans (whenReady_shell _ _ _)
  · exact atTime_shell s t

/-! ### Requests by their numbers -/

theorem reqOn_mem {s : State} {h : HaulerId} {r : Request} (e : reqOn s h = some r) : r ∈ s.run.reqs := List.mem_of_find?_eq_some e

/-- A request that is put in the place of those of its number is found by it. -/
theorem getReq_setReq {s : State} {r y : Request} (mem : r ∈ s.run.reqs) (id : y.id = r.id) : getReq (setReq s y) r.id = some y := by
  have keeps (x : Request) : ((if x.id == y.id then y else x).id == r.id) = (x.id == r.id) := by
    by_cases h : x.id = y.id <;> simp [h]
  obtain ⟨x, hx⟩ : ∃ x, s.run.reqs.find? (·.id == r.id) = some x :=
    Option.isSome_iff_exists.1 (List.find?_isSome.2 ⟨r, mem, by simp⟩)
  have same : x.id = y.id := by simpa [id] using List.find?_some hx
  simp only [getReq, setReq, updWhere]
  rw [find?_map_of_keeps keeps, hx]
  simp [same]

/-- Replaced twice, a request is the second one. -/
theorem setReq_setReq {s : State} {x y : Request} (id : x.id = y.id) : setReq (setReq s x) y = setReq s y := by
  simp only [setReq, updWhere, List.map_map]
  refine congrArg (fun l => { s with run := { s.run with reqs := l } }) (List.map_congr_left fun z _ => ?_)
  by_cases h : z.id = y.id <;> simp [h, id]

/-! ### The command of the next instruction -/

/-- A hauler that runs a request has its next instruction at hand. -/
theorem current_runs {s : State} {h : HaulerId} {r : Request} {i : HInstr} (runs : RunsInstr s h r i) :
    current s h (isRow i) = some (r, i) := by
  obtain ⟨half, req, fin, told, free, instr⟩ := runs
  have held : (r.wait != some .ledger && entryHeld s r) = false := by
    rcases free with h | h <;> simp [h]
  simp [current, half, req, fin, told, held, instr]

theorem withInstr_runs {s0 s : State} {t : Mc} {h : HaulerId} {r : Request} {i : HInstr} {row : String}
    {k : State → Request → HInstr → Flow} (now : atInstr s0 t h (isRow i) = s) (named : isRow i = row) (runs : RunsInstr s h r i) :
    withInstr t h row s0 k = (noteProgress r (k s r i)).result s0 := by
  subst now named
  simp only [withInstr, current_runs runs]

/-- A request that does not wait has passed its word. -/
theorem noteProgress_passed {r y : Request} {u : State} (at' : getReq u r.id = some y) (free : y.wait = none) :
    noteProgress r (.go u) = .go (passed u r) := by
  simp only [noteProgress, at', free, Option.isNone_none, Bool.true_or, if_true, passed]

section
variable {s0 s u : State} {t : Mc} {h : HaulerId} {r y : Request} {i : HInstr} {row : String}
  {k : State → Request → HInstr → Flow}

/-- A command that makes the machine `u`, in which its request does not wait. -/
theorem withInstr_passes (now : atInstr s0 t h (isRow i) = s) (named : isRow i = row) (runs : RunsInstr s h r i) (goes : k s r i = .go u)
    (shell : Shell s u) (at' : getReq u r.id = some y) (free : y.wait = none) :
    withInstr t h row s0 k = .next (passed u r) := by
  rw [withInstr_runs now named runs, goes, noteProgress_passed at' free]
  exact Shell.answer (u := passed u r) ((now ▸ atInstr_shell ..).trans (shell.trans ⟨rfl, rfl, rfl⟩))

/-! ### Going on -/

theorem endLoops_wait (prog : List Word) : ∀ (n : Nat) (r : Request), (endLoops prog n r).wait = r.wait
  | 0, _ => rfl
  | n + 1, r => by
    unfold endLoops
    split
    · rfl
    · split
      · rfl
      · dsimp only
        split
        · rfl
        · exact endLoops_wait prog n _

theorem endLoops_id (prog : List Word) : ∀ (n : Nat) (r : Request), (endLoops prog n r).id = r.id
  | 0, _ => rfl
  | n + 1, r => by
    unfold endLoops
    split
    · rfl
    · split
      · rfl
      · dsimp only
        split
        · rfl
        · exact endLoops_id prog n _

@[simp] theorem advance_id (r : Request) : (advance r).id = r.id := endLoops_id _ _ _
@[simp] theorem advance_wait (r : Request) : (advance r).wait = none := endLoops_wait _ _ _

/-- A command after which its request goes on to the next instruction, as `y` has it. -/
theorem withInstr_goes (now : atInstr s0 t h (isRow i) = s) (named : isRow i = row) (runs : RunsInstr s h r i) (id : y.id = r.id)
    (goes : k s r i = goNext s y) : withInstr t h row s0 k = .next (passed (setReq s (advance y)) r) :=
  withInstr_passes now named runs goes ⟨rfl, rfl, rfl⟩ (getReq_setReq (reqOn_mem runs.req) ((advance_id y).trans id)) (advance_wait y)

end

end Sys2Proof.Machine
end

section
/-! Parking and waits (R75, R76, R291, R320): what they do to the machine and to the request, and that they leave the queues alone. -/

namespace Sys2Proof.Machine

theorem getReq_some {s : State} {id : Nat} {r : Request} (h : getReq s id = some r) : r ∈ s.run.reqs ∧ r.id = id :=
  ⟨List.mem_of_find?_eq_some h, by simpa using List.find?_some h⟩

/-- A request that is put in the place of those of another number hides none. -/
theorem getReq_setReq_other {s : State} {id : Nat} {y : Request} (other : y.id ≠ id) : getReq (setReq s y) id = getReq s id := by
  have keeps (x : Request) : ((if x.id == y.id then y else x).id == id) = (x.id == id) := by
    by_cases h : x.id = y.id <;> simp [h]
  simp only [getReq, setReq, updWhere]
  rw [find?_map_of_keeps keeps]
  cases hx : s.run.reqs.find? (·.id == id) with
  | none => rfl
  | some x =>
    have same : x.id = id := by simpa using List.find?_some hx
    simp [same, Ne.symm other]

/-- A write without a key changes the memory alone. -/
theorem writeBank_frame (s : State) (w : Writer) (a : Nat) (bs : List SByte) :
    writeBank s w none a bs = { s with mem := (writeBank s w none a bs).mem } := by
  unfold writeBank writeLocal
  split
  · rfl
  · split <;> rfl

/-- The request as it stands in parking record `i`. -/
def parkedAs (r : Request) (i : Nat) : Request :=
  { r with hauler := none, tongs := if r.fin.isSome then r.tongs else none, parkedIn := some i, lines := emptyBuffers r.lines
           kept := [], pass := { r.pass with slot := [] } }

/-- The memory once a request has written parking record `i`. -/
def parkMem (s : State) (r : Request) (i : Nat) : Mem :=
  (writeBank s (.hauler (r.hauler.getD 128)) none (parkingLocal s r.ctx i) (good ((List.range 1024).map (Config.parkByte s.run.nextWait)))).mem

theorem park_full {s : State} {r : Request} (h : freeParking s r.ctx = none) : park s r = setReq s { r with stays := true } := by
  simp only [park, h]

theorem park_free {s : State} {r : Request} {i : Nat} (h : freeParking s r.ctx = some i) :
    park s r = setReq (lowerRequests { s with mem := parkMem s r i } (.request r.id)) (parkedAs r i) := by
  simp only [park, h, parkMem]
  rw [writeBank_frame]
  rfl

/-- What parking leaves of the machine: the memory, the memory ports and the requests alone change. -/
theorem park_frame (s : State) (r : Request) : ∃ m ports y, y.id = r.id ∧ y.fin = r.fin ∧ (r.fin.isSome → y.tongs = r.tongs) ∧
    park s r = setReq { s with mem := m, arb.ports := ports } y := by
  cases h : freeParking s r.ctx with
  | none => exact ⟨s.mem, s.arb.ports, { r with stays := true }, rfl, rfl, fun _ => rfl, park_full h⟩
  | some i => exact ⟨_, _, parkedAs r i, rfl, rfl, fun ended => if_pos ended, park_free h⟩

theorem park_q (s : State) (r : Request) : (park s r).q = s.q := by
  obtain ⟨_, _, _, _, _, _, e⟩ := park_frame s r
  rw [e]
  rfl

theorem beginWait_q (s : State) (r : Request) (w : Wait) : (beginWait s r w).q = s.q := by
  unfold beginWait
  dsimp only
  repeat' split
  all_goals first | exact park_q _ _ | rfl

/-! ### Requests that have ended -/

/-- Request `id` has ended as `f` and holds no Tongs slot. -/
def EndedAs (s : State) (id : Nat) (f : Nat × Nat) : Prop := ∃ z, getReq s id = some z ∧ z.fin = some f ∧ z.tongs = none

theorem park_endedAs {s : State} {r : Request} {id : Nat} {f : Nat × Nat} (at' : getReq s r.id = some r) (h : EndedAs s id f) :
    EndedAs (park s r) id f := by
  obtain ⟨m, ports, y, yid, yfin, ytongs, e⟩ := park_frame s r
  obtain ⟨z, hz, fin, tongs⟩ := h
  rw [e]
  by_cases same : r.id = id
  · have zr : z = r := by rw [← same] at hz; exact Option.some.inj (hz.symm.trans at')
    subst zr same
    exact ⟨y, getReq_setReq (s := { s with mem := m, arb.ports := ports }) (getReq_some hz).1 yid, yfin.trans fin,
      (ytongs (by rw [fin]; rfl)).trans tongs⟩
  · exact ⟨z, (getReq_setReq_other (s := { s with mem := m, arb.ports := ports }) (yid ▸ same)).trans hz, fin, tongs⟩

theorem parkEnded_endedAs {s : State} {id id' : Nat} {f : Nat × Nat} (h : EndedAs s id f) : EndedAs (parkEnded s id') id f := by
  unfold parkEnded
  split
  · rename_i r hr
    split
    · exact park_endedAs ((getReq_some hr).2 ▸ hr) h
    · exact h
  · exact h

theorem park_other {s : State} {r : Request} {id : Nat} (other : r.id ≠ id) : getReq (park s r) id = getReq s id := by
  obtain ⟨m, ports, y, yid, _, _, e⟩ := park_frame s r
  rw [e]
  exact getReq_setReq_other (s := { s with mem := m, arb.ports := ports }) (yid ▸ other)

/-- A request that begins a wait leaves the others as they were. -/
theorem beginWait_other {s : State} {r : Request} {w : Wait} {id : Nat} (other : r.id ≠ id) :
    getReq (beginWait s r w) id = getReq s id := by
  unfold beginWait
  dsimp only
  repeat' split
  · exact park_other (r := startWait s r w) other
  · exact getReq_setReq_other (y := startWait s r w) other
  · exact park_other other
  · exact getReq_setReq_other other

theorem beginWait_endedAs {s : State} {r : Request} {w : Wait} {id : Nat} {f : Nat × Nat} (at' : getReq s r.id = some r)
    (running : r.fin = none) (h : EndedAs s id f) : EndedAs (beginWait s r w) id f := by
  obtain ⟨z, hz, fin, tongs⟩ := h
  have other : r.id ≠ id := by
    intro same
    rw [← same, at'] at hz
    cases hz
    simp [running] at fin
  exact ⟨z, (beginWait_other other).trans hz, fin, tongs⟩

/-- The requests that wait with a record for a full completion queue park: no queue changes, and a request that has ended stays so. -/
theorem parkRecords_endedAs {s : State} {cq id : Nat} {f : Nat × Nat} (h : EndedAs s id f) :
    (parkRecords s cq).q = s.q ∧ EndedAs (parkRecords s cq) id f := by
  unfold parkRecords
  split
  · exact ⟨rfl, h⟩
  · refine List.foldlRecOn (motive := fun u => u.q = s.q ∧ EndedAs u id f) _ _ ⟨rfl, h⟩ fun u hu x _ => ?_
    obtain ⟨hq, hu⟩ := hu
    split
    · refine ⟨?_, parkEnded_endedAs hu⟩
      unfold parkEnded
      repeat' split
      · exact (park_q _ _).trans hq
      · exact hq
      · exact hq
    · rename_i r _ hr
      obtain ⟨rep, _, hr⟩ := Option.bind_eq_some_iff.1 hr
      have at' : getReq u r.id = some r := (getReq_some hr).2 ▸ hr
      split
      · rename_i free
        exact ⟨(beginWait_q _ _ _).trans hq, beginWait_endedAs at' (by simpa using (Bool.and_eq_true_iff.1 free).2) hu⟩
      · exact ⟨hq, hu⟩
    · exact ⟨hq, hu⟩

theorem parkRecords_room {s : State} {cq : Nat} (room : cqFull s cq = false) : parkRecords s cq = s := if_pos (by simp [room])

end Sys2Proof.Machine
end

section
/-! The words that move no data (R83 to R86, R104, R106), the ends of loops, and HALT. -/

namespace Sys2Proof.Machine

/-! ### Instruction words -/

/-- A NOP has no extension words. -/
theorem instrWords_nop {prog : List Word} {pc : Nat} (h : instrAt prog pc = some .nop) : instrWords prog pc = 1 := by
  unfold instrAt at h
  cases hd : prog.drop pc with
  | nil => simp [hd] at h
  | cons w rest =>
    have at' : prog[pc]? = some w := by rw [← List.head?_drop, hd]; rfl
    rw [hd] at h
    have op : opcodeOf w = 0 := by
      have d : decodeHaul w (rest.getD 0 0) (rest.getD 1 0) = some .nop := h
      unfold decodeHaul at d
      dsimp only at d
      split at d
      · assumption
      all_goals (repeat' split at d) <;> cases d
    simp [instrWords, extWords, List.getD_eq_getElem?_getD, at', op]

theorem setpValue_eq (mode : Nat) (ps : Word) (imm : Int) (ext : Word) : setpValue mode ps imm ext =
    if mode = 0 then BitVec.ofInt 64 imm else if mode = 1 then ps + BitVec.ofInt 64 imm
    else if mode = 2 then ps * BitVec.ofInt 64 imm else ext := by
  match mode with
  | 0 => rfl
  | 1 => rfl
  | 2 => rfl
  | n + 3 => simp [setpValue]

/-! ### Loop ends (R85, R86) -/

section
variable {r : Request} {l : LoopFrame} {ls : List LoopFrame}

/-- At the end of a loop body with an iteration to come, the loop's STEPs are made and the body begins again. -/
theorem advance_iterates (words : instrWords r.program r.pc = 1) (loops : r.loops = l :: ls) (last : r.pc + 1 = l.start + l.body)
    (more : l.index + 1 < l.count) :
    advance r = { r with
      pc := l.start, wait := none, latched := none
      shapes := applySteps r.shapes (directSteps r.program l.body l.start (l.start + l.body)), loops := { l with index := l.index + 1 } :: ls } := by
  simp [advance, words, endLoops, loops, last, more]

/-- At the end of the last iteration of an outermost loop the bases are given back. -/
theorem advance_ends (words : instrWords r.program r.pc = 1) (loops : r.loops = [l]) (last : r.pc + 1 = l.start + l.body)
    (done : l.count ≤ l.index + 1) :
    advance r = { r with
      pc := r.pc + 1, wait := none, latched := none
      shapes := restoreBases r.shapes l.bases (directSteps r.program l.body l.start (l.start + l.body)), loops := []
      kept := r.kept.filter fun x => x.2.1 ≤ 0 } := by
  simp [advance, words, endLoops, loops, last, Nat.not_lt.2 done]

end

/-! ### HALT (R106, R116, R291) -/

theorem askHost_eq (s : State) (r : Request) : askHost s r = hostAsked s r r := by
  unfold askHost hostAsked
  dsimp only [Both.get]
  by_cases e : r.hostWrites.east.isEmpty <;> by_cases w : r.hostWrites.west.isEmpty <;> simp [e, w, Both.set, setReq]

theorem hostAsked_setReq {s : State} {x y z : Request} (id : x.id = y.id) : hostAsked (setReq s x) z y = hostAsked s z y := by
  unfold hostAsked
  rw [setReq_setReq (y := hostAnswered y) id]
  rfl

/-- A request that HALT has ended. -/
def halted (r : Request) : Request := { r with fin := some (haltEnd r), wait := none, stays := false, tongs := none }

/-- The machine once a request that HALT has ended has its record ready. -/
def withFinalRecord (s : State) (r : Request) : State :=
  { hostAsked s r (halted r) with q.records := joinRecords s.q.records [finalRecord s r (haltEnd r).1 (haltEnd r).2] }

section
variable {s : State} {r : Request}

/-- The end of a request whose writes have their responses and that no ledger concerns. -/
theorem settle_due {st dt : Nat} (at' : getReq s r.id = some r) (fin : r.fin = some (st, dt)) (writes : r.writes = [])
    (effects : r.effects = []) (lines : lineOpen s r (·.write) = false) (records : ∀ x ∈ s.q.records, x.req ≠ some r.id)
    (plain : ledgered s r.ctx = false) (entries : entryWaits s r = false) :
    settle s r.id = parkRecords (readyRecord (askHost s { r with stays := false }) (finalRecord s r st dt)) (cqOf s r.qid) := by
  have none : (s.q.records.any fun x => x.req == some r.id) = false := List.any_eq_false.2 fun x hx => by simpa using records x hx
  simp [settle, at', fin, writes, effects, lines, none, plain, entries]

/-- HALT of a request without open writes or effects, outside the ledger. -/
theorem haltRequest_eq (mem : r ∈ s.run.reqs) (writes : r.writes = []) (effects : r.effects = []) (lines : lineOpen s r (·.write) = false)
    (plain : ledgered s r.ctx = false) (records : ∀ x ∈ s.q.records, x.req ≠ some r.id)
    (entries : ∀ x ∈ (getLedger s (partOfCtx s r.ctx)).waiting, x.req ≠ some r.id) :
    haltRequest s r = parkRecords (withFinalRecord s r) (cqOf s r.qid) := by
  have at' : getReq (setReq s (halted r)) r.id = some (halted r) := getReq_setReq mem rfl
  have waits : entryWaits (setReq s (halted r)) (halted r) = false := List.any_eq_false.2 fun x hx => by simpa [halted] using entries x hx
  have same : { halted r with effects := dropSent s.time r.effects } = halted r := by rw [effects]; simp [halted, effects, dropSent]
  have released : releaseLoop (r.effects.length + 1) (setReq s (halted r)) r.id = .done (setReq s (halted r)) := by
    rw [effects]
    simp only [List.length_nil, releaseLoop, at', setReq_time]
    rw [show { halted r with effects := dropSent s.time (halted r).effects } = halted r from same, setReq_setReq rfl]
    simp [releaseHead, halted, effects]
  change releaseEffects (setReq s (halted r)) r.id = _
  unfold releaseEffects
  simp only [at']
  rw [show ledgered (setReq s (halted r)) (halted r).ctx = false from plain]
  simp only [Bool.false_eq_true, if_false]
  rw [show (halted r).effects = r.effects from rfl, released]
  refine (settle_due (s := setReq s (halted r)) (r := halted r) at' rfl writes effects lines records plain waits).trans ?_
  rw [show { halted r with stays := false } = halted r from rfl, askHost_eq, hostAsked_setReq rfl]
  rfl

theorem getReq_withFinalRecord (mem : r ∈ s.run.reqs) : getReq (withFinalRecord s r) r.id = some (hostAnswered (halted r)) :=
  getReq_setReq (s := s) (y := hostAnswered (halted r)) mem rfl

theorem cqFull_withFinalRecord (cq : Nat) : cqFull (withFinalRecord s r) cq = cqFull s cq := rfl

theorem withFinalRecord_shell (s : State) (r : Request) : Shell s (withFinalRecord s r) := ⟨rfl, rfl, rfl⟩

theorem noteActive_endedAs {id id' : Nat} {f : Nat × Nat} (h : EndedAs s id f) : EndedAs (noteActive s id') id f := by
  obtain ⟨z, hz, fin, tongs⟩ := h
  have keeps (x : Request) : ((if x.id == id' then { x with active := s.time } else x : Request).id == id) = (x.id == id) := by
    by_cases h : x.id = id' <;> simp [h]
  refine ⟨if z.id == id' then { z with active := s.time } else z, ?_, ?_, ?_⟩
  · simp only [getReq, noteActive, updWhere]
    rw [find?_map_of_keeps keeps]
    exact congrArg (Option.map _) hz
  · split <;> exact fin
  · split <;> exact tongs

/-- What a command leaves whose request has ended: the queues and the end are those of its meaning. -/
theorem noteProgress_endedAs {s0 u : State} {f : Nat × Nat} (h : EndedAs u r.id f) :
    ∃ v, (noteProgress r (.go u)).result s0 = .next v ∧ v.q = u.q ∧ EndedAs v r.id f := by
  simp only [noteProgress, Flow.result, answer]
  refine ⟨_, rfl, ?_, ?_⟩
  · repeat' split
    all_goals rfl
  · repeat' split
    · exact noteActive_endedAs h
    · exact h
    · exact h

end

/-- Settles O53: each word comes down to `goNext` of its request, at a loop's end to what `advance` then does, and HALT to the record that
`haltRequest` makes ready. -/
theorem plainWordsAdvanceTheirRequest : Obligations.PlainWordsAdvanceTheirRequest := by
  unfold Obligations.PlainWordsAdvanceTheirRequest
  intro s0 t h r i s runs goes kept
  refine ⟨?_, ?_, ?_, ?_, ?_, ?_, ?_, ?_, ?_, ?_, ?_⟩
  · rintro rfl
    dsimp only [goes, exec, execNop]
    exact withInstr_goes rfl rfl runs rfl rfl
  · rintro k d rfl
    dsimp only [goes, exec, execStepBase]
    exact withInstr_goes rfl rfl runs rfl rfl
  · rintro a b c rfl
    dsimp only [goes, exec, execXform]
    exact withInstr_goes rfl rfl runs rfl rfl
  · rintro a b c d e rfl
    dsimp only [goes, exec, execQuant]
    exact withInstr_goes rfl rfl runs rfl rfl
  · rintro a b c rfl
    dsimp only [goes, exec, execSums]
    exact withInstr_goes rfl rfl runs rfl rfl
  · rintro k pb pi len cnt off stride rfl b sh
    have base : b = if pb then (r.params.getD pi 0 + BitVec.ofNat 64 off).toNat else off := by
      simp [b, BitVec.toNat_add]
    dsimp only [goes, exec, execShape]
    exact withInstr_goes rfl rfl runs rfl (by dsimp only; rw [← base])
  · rintro pd mode ps imm ext rfl v
    have value : setpValue mode (r.params.getD ps 0) imm ext = v := setpValue_eq _ _ _ _
    dsimp only [goes, exec, execSetp]
    exact withInstr_goes rfl rfl runs rfl (by dsimp only; rw [value])
  · rintro l body pc pi cnt rfl
    dsimp only [exec, execLoop]
    exact withInstr_passes rfl rfl runs rfl ⟨rfl, rfl, rfl⟩ (getReq_setReq (reqOn_mem runs.req) rfl) rfl
  · rintro pi rfl
    dsimp only [goes, exec, execLedgerMark]
    refine ⟨fun plain => ?_, fun led few free => ?_⟩
    · exact withInstr_goes rfl rfl runs rfl (by simp [plain])
    · exact withInstr_goes rfl rfl runs rfl (by simp [led, Nat.not_le.2 few, free, addMark])
  · rintro rfl writes effects lines plain noRecord - entries records
    have mem := reqOn_mem runs.req
    have halts : haltRequest s r = parkRecords (withFinalRecord s r) (cqOf s r.qid) :=
      haltRequest_eq mem writes effects lines plain noRecord entries
    dsimp only [exec, execHalt]
    refine ⟨?_, fun room => ?_⟩
    · obtain ⟨hq, ended⟩ := parkRecords_endedAs (cq := cqOf s r.qid) (f := haltEnd r)
        ⟨_, getReq_withFinalRecord (s := s) mem, rfl, rfl⟩
      rw [withInstr_runs (row := "HALT") rfl rfl runs, halts]
      obtain ⟨v, hv, vq, vended⟩ := noteProgress_endedAs ended
      exact ⟨v, hv, vq.trans hq, vended⟩
    · have goes : Flow.go (haltRequest s r) = .go (withFinalRecord s r) :=
        congrArg Flow.go (halts.trans (parkRecords_room ((cqFull_withFinalRecord _).trans room)))
      change _ = Host.Outcome.next (passed (withFinalRecord s r) r)
      exact withInstr_passes rfl rfl runs goes (withFinalRecord_shell s r) (getReq_withFinalRecord mem) rfl
  · rintro l ls rfl loops last st
    have words := instrWords_nop runs.instr
    dsimp only [exec, execNop]
    refine ⟨fun more => ?_, fun done none => ?_⟩
    · rw [← advance_iterates words loops last more]
      exact withInstr_goes rfl rfl runs rfl rfl
    · subst none
      rw [← advance_ends words loops last done]
      exact withInstr_goes rfl rfl runs rfl rfl

end Sys2Proof.Machine
end

section
/-! O54 fails at a request that ends with OWNER_RESET while a SIGNAL of it toward a Fenced partner waits: when the request's continuing
cause is the very status and word at which it now ends, `failCore` takes the end for one that HALT made and puts PARTNER_FENCED in its place
(R109, R392). -/

namespace Sys2Proof.Machine

/-- A WAIT of binding 0 and of the count 0. -/
def waitWord : Word := 0x3800_0000_0000_0000#64

/-- A request whose counter wait has ended with OWNER_RESET, behind a SIGNAL of word 7 to a counter of a partner. Its earliest cause is
OWNER_RESET at word 0. -/
def outlived : Request :=
  { id := 0, qid := 16, isRun := false, ctx := 0, half := .east, hauler := some 0, wait := some (.counter 0 0 0 0), waitAt := 0
    waitHaul := 0, waitSeq := 0, stays := false, latched := some false, parkedIn := none, tag := 0, irq := false, pmask := 0, entry := []
    active := 0, kept := [], record := none, argBlk := none, program := [waitWord], pc := 0, shapes := [], loops := [], params := []
    params0 := [], binds := [], held := [], mods := [], bytes := 0, spoiled := 0, cause := some (0x0030, 0), fin := none
    pass := PassState.start, tongs := none, hits := [], elems := [], writes := [], lines := { buffers := [], stream := [], next := 0 }
    hostWrites := ⟨[], []⟩, lastDue := 0, rdata := [], answer := none, effects := [.signal 0 1 0 7 [] 0], filling := none
    led := { input := [], output := [], marks := [], spoiled := false, part := 0 }, lastPart := false, lastSeq := none }

/-- A machine in Run that runs this request; virtual counter 0 of context 0 is a counter of partner 0, whose record is Fenced. -/
def fencedPartner : State :=
  { State.reset with
    power := { PowerSt.reset with cold := false, up := true }
    cfg := { Settings.none with vctrs := [{ ctx := 0, vid := 0, entry := .remote 0 0 true }] }
    run := { State.reset.run with reqs := [outlived] } }

/-- Its WAIT ends it with PARTNER_FENCED at word 7. -/
theorem fin_of_wait_fencedPartner :
    ∃ u, exec (.wait 0 ⟨.east, 0⟩) fencedPartner = .next u ∧ (getReq u 0).map (·.fin) = some (some (0x0051, 7)) :=
  ⟨_, rfl, by decide +kernel⟩

/-- Refutes O54: a WAIT that its counter ended with OWNER_RESET ends its request with PARTNER_FENCED when a SIGNAL that waits finds its
partner Fenced and the request's cause is the same status at the same word. No instruction notes such a cause, but the statement is of
every state. -/
theorem not_orderWordsWaitOrGoOn : ¬ Obligations.OrderWordsWaitOrGoOn := by
  intro holds
  have now : atInstr fencedPartner 0 ⟨.east, 0⟩ "WAIT" = fencedPartner := atInstr_past _ (Nat.zero_le _) (.inl (by decide +kernel))
  have runs : RunsInstr fencedPartner ⟨.east, 0⟩ outlived (.wait 0 false 0 0) :=
    ⟨by decide +kernel, by decide +kernel, rfl, by decide +kernel, .inr (by decide +kernel), by decide +kernel⟩
  obtain ⟨-, latchedWait, -⟩ := holds fencedPartner 0 ⟨.east, 0⟩ outlived (.wait 0 false 0 0) (now.symm ▸ runs)
    (by unfold OneRequestPerId; rw [show isRow (.wait 0 false 0 0) = "WAIT" from rfl, now]; decide +kernel)
  obtain ⟨u, z, ends, at', fin⟩ := (latchedWait 0 false 0 0 0 0 0 0 rfl rfl).2 (.inl rfl)
  obtain ⟨v, waits, fenced⟩ := fin_of_wait_fencedPartner
  cases ends.symm.trans waits
  rw [show getReq u 0 = some z from at', Option.map_some, fin] at fenced
  exact absurd fenced (by decide)

end Sys2Proof.Machine
end

section
/-! O37 fails where the 256 B of virtual addresses that hold the program lie over two lines of local memory, in a segment whose backing is
not a multiple of 256: the premise asks that the first of them carries no spoil mark, and a mark of the second counts as a spoiled line of
the request (R116), which the statement takes for 0. -/

namespace Sys2Proof.Machine

/-- A device segment of context 0 from virtual address 0 on, whose backing begins in the middle of a line. -/
def skewSegment : SegCfg :=
  { ctx := 0, index := 0, kind := .device, r := true, w := true, a := true, enc := false, comp := false, led := false, half := .east
    absent := false, start := 0, length := 0x1_0000, backing := 128, pool := 0, frames := 0 }

/-- A plain submission queue of context 0. -/
def skewQueue : SqCfg := { qid := 16, ctx := 0, persistent := false, cq := 16, priority := 3, limit := 128, depth := 16 }

def skewSettings : Settings :=
  { Settings.none with
    ctxs := [{ ctx := 0, partition := 0, homeHalf := .east, profiles := 2, initialProfile := 1, ledgered := false, seamEW := 0, seamWE := 0
               drainCounter := none }]
    segs := [skewSegment], sqs := [skewQueue] }

/-- A HAUL of the program at virtual address 0, with nothing else. -/
def skewEntry : List Byte := 1 :: zeros 63

/-- HALT. -/
def skewProgram : List Word := [0x0400_0000_0000_0000#64]

/-- The program at local address 128; line 0 is sound, and line 1 carries a spoil mark. -/
def skewMem : Mem := memSetMark (memSetMark (memStore State.reset.mem 128 (leBytes 8 0x0400_0000_0000_0000)) 0 false) 1 true

/-- The queue with its entry at hand. -/
def skewSq : SubQueue := { SubQueue.start 16 .enabled 0 3 with held := [skewEntry] }

/-- A machine in Run with this queue, and nothing under way. -/
def skewed : State :=
  let s := applySettings { State.reset with power := { PowerSt.reset with cold := false, up := true } } skewSettings fun _ => none
  { s with mem := skewMem, q := { s.q with sqs := [skewSq] } }

/-- The spoiled lines that the requests of the next state count. -/
def spoiledAfter : Result → List Nat
  | .next u => u.run.reqs.map (·.spoiled)
  | _ => []

/-- HAUL begins the entry with one spoiled line. -/
theorem spoiledAfter_haul_skewed : spoiledAfter (exec (.haul 0 ⟨.east, 0⟩) skewed) = [1] := by decide +kernel

theorem bareEntry_skewEntry : BareEntry skewEntry 1 := by
  have low : ∀ i < 4, 1 ≤ i → fieldAt skewEntry i 1 = 0 := by decide +kernel
  have high : ∀ i < 64, 16 ≤ i → fieldAt skewEntry i 1 = 0 := by decide +kernel
  exact ⟨by decide +kernel, fun i one four => low i four one, fun i above below => high i below above⟩

theorem lineProgram_skewed : LineProgram skewed 0 0 skewProgram (newSegment skewSegment true) where
  aligned := by decide
  space := by decide
  seg := rfl
  kind := rfl
  right := rfl
  plain := rfl
  own := by decide +kernel
  quiet := ⟨rfl, rfl⟩
  room := by decide +kernel
  mapped := ⟨.hbm .east, by decide +kernel, by decide +kernel⟩
  near := by decide +kernel
  awake := fun h _ => by cases h <;> rfl
  sound := by decide +kernel
  words := ⟨0, by decide +kernel, by decide +kernel⟩

/-- Refutes O37: HAUL begins the entry of `skewed`, and its request has one spoiled line. -/
theorem not_entriesStartTheirPrograms : ¬ Obligations.EntriesStartTheirPrograms := by
  intro holds
  have now : atTime skewed 0 = skewed := atTime_past (Nat.le_refl 0)
  have starts := holds skewed 0 ⟨.east, 0⟩ 16 skewQueue skewSq skewEntry [] skewProgram (newSegment skewSegment true) 1
  rw [now] at starts
  obtain ⟨u, haul, ⟨r, reqs, -, -, -, -, -, -, -, -, -, -, -, -, -, -, -, clean⟩, -⟩ :=
    (starts (by decide +kernel) rfl (by decide +kernel) rfl (by decide +kernel) (by decide +kernel) bareEntry_skewEntry lineProgram_skewed
      ⟨CtxState.start (skewSettings.ctxs.head (by decide)), rfl, rfl⟩ (by decide +kernel) (fun _ _ => rfl) (by decide +kernel)).1
      (by decide +kernel) rfl |>.1 rfl rfl
  have spoiled := spoiledAfter_haul_skewed
  rw [haul] at spoiled
  simp [spoiledAfter, reqs, clean, show skewed.run.reqs = [] from rfl] at spoiled

end Sys2Proof.Machine
end

section
/-! O56 fails where two requests have one number: the model finds the writer of a billet by its number once the pass has begun, when both
are the request that runs, and the statement before it, when a parked request of the same number comes first. The order in which the banks
of the Stockpile grant the write (R230) is then another. -/

namespace Sys2Proof.Machine

/-- A device segment of context 0 on the East Stockpile. -/
def stockSegment : SegCfg :=
  { ctx := 0, index := 0, kind := .device, r := true, w := true, a := true, enc := false, comp := false, led := false, half := .east
    absent := false, start := 0, length := 0x1_0000, backing := stockBase .east, pool := 0, frames := 0 }

/-- A shape set of the 256 B at `base`. -/
def lineShape (base : Nat) : ShapeSet := { base := base, len := 256, stride := 0, count := 1, loaded := true, handle := false }

/-- A request at a MOVE of 256 B from virtual address 0 to 0x100, on hauler 0 or parked. -/
def copying (hauler : Option Nat) : Request :=
  { outlived with
    hauler := hauler, wait := none, latched := none, cause := none, effects := [], program := [0x0C10_0000_0000_0000#64]
    shapes := [lineShape 0, lineShape 0x100] }

/-- A machine in Run in which a parked request has the number of the one on hauler 0. -/
def twins : State :=
  { State.reset with
    power := { PowerSt.reset with cold := false, up := true }
    cfg := { Settings.none with segs := [stockSegment] }
    seg := { Segs.reset with segs := [newSegment stockSegment true] }
    run := { State.reset.run with reqs := [copying none, copying (some 0)] } }

/-- The ranks of the Stockpile writes of the present mc in the next state. -/
def ranksAfter : Result → List Nat
  | .next u => u.mem.recent.map (·.rank)
  | _ => []

/-- The MOVE writes as hauler 0. -/
theorem ranksAfter_move_twins : ranksAfter (exec (.move 0 ⟨.east, 0⟩) twins) = [1] := by decide +kernel

/-- The 256 B at virtual address `va` as a piece. -/
def stockPiece (va : Nat) : Piece :=
  { addr := stockBase .east + va, len := 256, pkg := none, slot := 0, epoch := false, block := none, key := none, led := false }

/-- By the number of the request as it stands before, the write is that of a request without a hauler. -/
theorem ranks_memAfter_twins :
    (memAfter twins (writerOf twins 0) (stockPiece 0x100) (memReadS twins.mem (stockPiece 0).addr 256)).recent.map (·.rank) = [129] := by
  decide +kernel

theorem plainRange_twins {va : Nat} {right : Right} (at' : va = 0 ∨ va = 0x100) : PlainRange twins 0 va 256 right (stockPiece va) where
  size := by decide
  seg := by
    refine ⟨newSegment stockSegment true, ?_, rfl, by cases right <;> rfl, rfl, by decide +kernel, rfl, rfl, ?_⟩
    · rcases at' with rfl | rfl <;> rfl
    · rcases at' with rfl | rfl <;> decide +kernel
  mapped := ⟨.stock .east, by rcases at' with rfl | rfl <;> decide +kernel, by rcases at' with rfl | rfl <;> decide +kernel⟩
  near := by rcases at' with rfl | rfl <;> decide +kernel
  awake := fun h _ => by cases h <;> rfl

theorem readRange_twins : ReadRange twins (copying (some 0)) 0 256 (stockPiece 0) :=
  { plainRange_twins (.inl rfl) with clear := by decide +kernel, host := by decide +kernel }

/-- Refutes O56: the MOVE of `twins` writes with the rank of its hauler, not with that of a request without one. -/
theorem not_passesWriteTheirStreams : ¬ Obligations.PassesWriteTheirStreams := by
  intro holds
  have now : atInstr twins 0 ⟨.east, 0⟩ "MOVE" = twins := atInstr_past _ (Nat.zero_le _) (.inl (by decide +kernel))
  have runs : RunsInstr twins ⟨.east, 0⟩ (copying (some 0)) (.move 0 1 0 0 false 0 0) :=
    ⟨by decide +kernel, by decide +kernel, rfl, by decide +kernel, .inr (by decide +kernel), by decide +kernel⟩
  have moves := holds twins 0 ⟨.east, 0⟩ (copying (some 0)) (.move 0 1 0 0 false 0 0)
  rw [show isRow (.move 0 1 0 0 false 0 0) = "MOVE" from rfl, now] at moves
  obtain ⟨kept, -, next⟩ := ((moves runs ⟨rfl, rfl, rfl, rfl, rfl, by decide +kernel⟩).1 0 1 0 0 false 0 0 256 256 (stockPiece 0)
    (stockPiece 0x100) rfl ⟨rfl, rfl, rfl⟩ ⟨rfl, rfl, rfl⟩ (by decide) readRange_twins (plainRange_twins (.inr rfl))).1 rfl rfl rfl
  have ranks := ranksAfter_move_twins
  rw [next] at ranks
  exact absurd (ranks_memAfter_twins.symm.trans ranks) (by decide)

end Sys2Proof.Machine
end

section
/-! Ledger entries that close while the queue has room hold nobody up (R416, R425), and the effects of a request that wait on (R108, R109). -/

namespace Sys2Proof.Machine

/-! ### Lists in the order of a key -/

theorem insertBy_perm {α : Type} (key : α → Nat) (x : α) : ∀ l : List α, (insertBy key x l).Perm (x :: l)
  | [] => .refl _
  | y :: ys => by
    unfold insertBy
    split
    · exact .refl _
    · exact ((insertBy_perm key x ys).cons y).trans (.swap x y ys)

theorem sortBy_perm {α : Type} (key : α → Nat) (l : List α) : (sortBy key l).Perm l := by
  have from' : ∀ (l acc : List α), (l.foldl (fun acc x => insertBy key x acc) acc).Perm (l ++ acc) := by
    intro l
    induction l with
    | nil => exact fun acc => .refl _
    | cons x xs ih =>
      intro acc
      exact ((ih _).trans ((insertBy_perm key x acc).append_left xs)).trans List.perm_middle
  simpa [sortBy] using from' l []

theorem mem_insertBy_iff {α : Type} {key : α → Nat} {x y : α} {l : List α} : y ∈ insertBy key x l ↔ y = x ∨ y ∈ l := by
  simp [(insertBy_perm key x l).mem_iff]

/-- Of a list in the order of a key, the one element that is below all others comes first. -/
theorem head?_sortBy {α : Type} {key : α → Nat} {l : List α} {q : α} (mem : q ∈ l) (least : ∀ x ∈ l, x = q ∨ key q < key x) :
    (sortBy key l).head? = some q := by
  have inserts : ∀ (x : α) (acc : List α), (x = q ∨ key q < key x) → (∀ y ∈ acc, y = q ∨ key q < key y) →
      (q ∈ acc → acc.head? = some q) → q ∈ insertBy key x acc → (insertBy key x acc).head? = some q := by
    intro x acc hx hacc first hq
    cases acc with
    | nil => simpa [insertBy, eq_comm] using hq
    | cons y ys =>
      have hy := hacc y (List.mem_cons_self ..)
      unfold insertBy
      split
      · rename_i less
        rcases mem_insertBy_iff.1 hq with rfl | old
        · rfl
        · have yq : y = q := by simpa using first old
          subst yq
          rcases hx with rfl | hx <;> omega
      · rename_i notLess
        rcases mem_insertBy_iff.1 hq with rfl | old
        · rcases hy with rfl | hy
          · rfl
          · omega
        · exact first old
  have from' : ∀ (l acc : List α), (∀ x ∈ l, x = q ∨ key q < key x) → (∀ y ∈ acc, y = q ∨ key q < key y) →
      (q ∈ acc → acc.head? = some q) → q ∈ l.foldl (fun acc x => insertBy key x acc) acc →
      (l.foldl (fun acc x => insertBy key x acc) acc).head? = some q := by
    intro l
    induction l with
    | nil => exact fun acc _ _ first hq => first hq
    | cons x xs ih =>
      intro acc hl hacc first hq
      have hx := hl x (List.mem_cons_self ..)
      refine ih _ (fun y hy => hl y (List.mem_cons_of_mem x hy)) (fun y hy => ?_) (inserts x acc hx hacc first) hq
      rcases mem_insertBy_iff.1 hy with rfl | old
      · exact hx
      · exact hacc y old
  exact from' l [] least (by simp) (by simp) ((sortBy_perm key l).mem_iff.2 mem)

/-! ### Closing with room (R425) -/

theorem getLedger_updLedger {s : State} {p : Nat} {f : LedgerSt → LedgerSt} (keeps : ∀ l, (f l).part = l.part)
    (reset : f (LedgerSt.reset p) = LedgerSt.reset p) : getLedger (updLedger s p f) p = f (getLedger s p) := by
  have part (l : LedgerSt) : ((if l.part == p then f l else l).part == p) = (l.part == p) := by split <;> simp [keeps]
  simp only [getLedger, updLedger, updWhere]
  rw [find?_map_of_keeps part]
  cases hl : s.ledgers.find? (·.part == p) with
  | none => simp [reset]
  | some l =>
    have at' := List.find?_some hl
    simp [show l.part = p by simpa using at']

theorem closeIfReady_held (s : State) (e : LedEntry) : (closeIfReady s e).held = e.held := by
  unfold closeIfReady
  split <;> rfl

/-- A queue with room takes every closed entry that waits for it. -/
theorem placeFits_of_room {l : LedgerSt} (room : LedgerRoom l 0) {i : Nat} (place : i < l.waiting.length) : placeFits l i = true := by
  obtain ⟨enabled, -, fits⟩ := room
  have seals : (l.sinceSeal + i) / 4096 ≤ (l.sinceSeal + (l.waiting.length + 0)) / 4096 := Nat.div_le_div_right (by omega)
  have resume : (if l.resume.isSome then 1 else 0) ≤ 1 := by split <;> omega
  simp only [placeFits, enabled, Bool.true_and, decide_eq_true_eq]
  omega

/-- The queue `l` once its entries that are ready have closed. -/
def closing (s : State) (l : LedgerSt) : LedgerSt := { l with waiting := l.waiting.map (closeIfReady s) }

/-- Entries that close while the queue has room are not held. -/
theorem closeEntries_free {s : State} {p : Nat} (room : LedgerRoom (getLedger s p) 0) :
    ∀ e ∈ (getLedger (closeEntries s p) p).waiting, e.held = false := by
  have closed : getLedger (updLedger s p (closing s)) p = closing s (getLedger s p) := getLedger_updLedger (fun _ => rfl) rfl
  have judged : getLedger (closeEntries s p) p = { closing s (getLedger s p) with
      waiting := (closing s (getLedger s p)).waiting.map fun e =>
        if e.closed.isSome && !placeFits (closing s (getLedger s p)) ((closedEntries (closing s (getLedger s p))).findIdx (· == e)) then
          { e with held := true } else e } := by
    rw [← closed]
    exact getLedger_updLedger (fun _ => rfl) rfl
  have room' : LedgerRoom (closing s (getLedger s p)) 0 := by
    obtain ⟨enabled, free, fits⟩ := room
    refine ⟨enabled, fun e he => ?_, by simpa [closing] using fits⟩
    obtain ⟨x, hx, rfl⟩ := List.mem_map.1 he
    rw [closeIfReady_held]
    exact free x hx
  rw [judged]
  intro e he
  obtain ⟨x, hx, rfl⟩ := List.mem_map.1 he
  split
  · rename_i late
    obtain ⟨isClosed, late⟩ := Bool.and_eq_true_iff.1 late
    have at' : x ∈ closedEntries (closing s (getLedger s p)) :=
      (sortBy_perm _ _).mem_iff.2 (List.mem_filter.2 ⟨hx, isClosed⟩)
    have place : (closedEntries (closing s (getLedger s p))).findIdx (· == x) < (closing s (getLedger s p)).waiting.length :=
      calc
        _ < (closedEntries (closing s (getLedger s p))).length := List.findIdx_lt_length_of_exists ⟨x, at', by simp⟩
        _ = _ := (sortBy_perm _ _).length_eq
        _ ≤ _ := List.length_filter_le ..
    simp [placeFits_of_room room' place] at late
  · exact room'.free x hx

/-! ### Effects that wait on -/

theorem parkHeld_free {s : State} {p : Nat} (free : ∀ e ∈ (getLedger s p).waiting, e.held = false) : parkHeld s p = s := by
  have none : (getLedger s p).waiting.filter (·.held) = [] := List.filter_eq_nil_iff.2 fun e he => by simp [free e he]
  simp [parkHeld, none, dedup]

theorem settle_running {s : State} {id : Nat} {r : Request} (at' : getReq s id = some r) (fin : r.fin = none) : settle s id = s := by
  simp [settle, at', fin]

/-- Request `y` stands in the machine `u` as it is. -/
structure StandsIn (u : State) (y : Request) : Prop where
  at'  : getReq u y.id = some y
  same : setReq u y = u

theorem standsIn_setReq {s : State} {y : Request} (mem : ∃ x ∈ s.run.reqs, x.id = y.id) : StandsIn (setReq s y) y := by
  obtain ⟨x, mem, id⟩ := mem
  exact ⟨id ▸ getReq_setReq mem id.symm, setReq_setReq rfl⟩

section
variable {u : State} {y : Request}

theorem StandsIn.withLedgers (stands : StandsIn u y) (l : List LedgerSt) : StandsIn { u with ledgers := l } y :=
  ⟨stands.at', congrArg (fun s : State => { s with ledgers := l }) stands.same⟩

/-- The first effect of `y` waits on. -/
def EffectsStay (u : State) (y : Request) : Prop := dropSent u.time y.effects = y.effects ∧ releaseHead u y = .done u

/-- Without effects nothing is released. -/
theorem effectsStay_nil (none : y.effects = []) : EffectsStay u y := by simp [EffectsStay, none, dropSent, releaseHead]

/-- A handle waits for its HANDLE_PUBLISH. -/
theorem effectsStay_handle {q n base upto : Nat} {ns : List Nat} (one : y.effects = [.handlePublish q n base ns upto]) : EffectsStay u y := by
  simp [EffectsStay, one, dropSent, releaseHead, isSent]

theorem releaseLoop_stay (stands : StandsIn u y) (stay : EffectsStay u y) (n : Nat) : releaseLoop (n + 1) u y.id = .done u := by
  have same : { y with effects := dropSent u.time y.effects } = y := by rw [stay.1]
  simp only [releaseLoop, stands.at', same, stands.same, stay.2]

/-- A request that runs, and whose effects wait on: its entries may close (R416), and nothing else happens. -/
theorem releaseEffects_stay (stands : StandsIn u y) (fin : y.fin = none) (stay : ∀ l, EffectsStay { u with ledgers := l } y)
    (room : ledgered u y.ctx = true → LedgerRoom (getLedger u (partOfCtx u y.ctx)) 0) :
    ∃ l, releaseEffects u y.id = { u with ledgers := l } ∧ (ledgered u y.ctx = false → l = u.ledgers) := by
  have loop (l : List LedgerSt) := releaseLoop_stay (stands.withLedgers l) (stay l) y.effects.length
  have settles (l : List LedgerSt) := settle_running (stands.withLedgers l).at' fin
  cases led : ledgered u y.ctx with
  | false =>
    refine ⟨u.ledgers, ?_, fun _ => rfl⟩
    simp only [releaseEffects, stands.at', led, Bool.false_eq_true, if_false]
    rw [show u = { u with ledgers := u.ledgers } from rfl, loop]
    exact settles u.ledgers
  | true =>
    have closes : closeEntries u (partOfCtx u y.ctx) = { u with ledgers := (closeEntries u (partOfCtx u y.ctx)).ledgers } := rfl
    refine ⟨(closeEntries u (partOfCtx u y.ctx)).ledgers, ?_, fun h => by cases h⟩
    simp only [releaseEffects, stands.at', led, if_true]
    rw [closes, loop]
    dsimp only
    rw [settles, ← closes]
    exact parkHeld_free (closeEntries_free (room led))

end

end Sys2Proof.Machine
end

section
/-! Rings, handle queues, parked requests and Tongs slots hand over in order (R75, R91, R96 to R98, R139, R148, R240). -/

namespace Sys2Proof.Machine

/-! ### A request that goes on -/

/-- Loop ends move the program counter, and change shape sets, loops and what the hauler holds. -/
theorem endLoops_frame (prog : List Word) : ∀ (n : Nat) (r : Request), ∃ pc shapes loops kept,
    endLoops prog n r = { r with pc := pc, shapes := shapes, loops := loops, kept := kept }
  | 0, r => ⟨r.pc, r.shapes, r.loops, r.kept, rfl⟩
  | n + 1, r => by
    unfold endLoops
    split
    · exact ⟨r.pc, r.shapes, r.loops, r.kept, rfl⟩
    · split
      · exact ⟨r.pc, r.shapes, r.loops, r.kept, rfl⟩
      · dsimp only
        split
        · exact ⟨_, _, _, r.kept, rfl⟩
        · obtain ⟨pc, shapes, loops, kept, e⟩ := endLoops_frame prog n _
          exact ⟨pc, shapes, loops, kept, e⟩

theorem advance_frame (r : Request) : ∃ pc shapes loops kept,
    advance r = { r with pc := pc, wait := none, latched := none, shapes := shapes, loops := loops, kept := kept } :=
  endLoops_frame _ _ _

@[simp] theorem advance_effects (r : Request) : (advance r).effects = r.effects := by
  obtain ⟨_, _, _, _, e⟩ := advance_frame r
  rw [e]

@[simp] theorem advance_fin (r : Request) : (advance r).fin = r.fin := by
  obtain ⟨_, _, _, _, e⟩ := advance_frame r
  rw [e]

@[simp] theorem advance_ctx (r : Request) : (advance r).ctx = r.ctx := by
  obtain ⟨_, _, _, _, e⟩ := advance_frame r
  rw [e]

section
variable {s0 s u : State} {t : Mc} {h : HaulerId} {r y : Request} {i : HInstr} {row : String} {k : State → Request → HInstr → Flow}

/-- A command after which its request goes on, in a machine that it has changed. -/
theorem withInstr_goesIn (now : atInstr s0 t h (isRow i) = s) (named : isRow i = row) (runs : RunsInstr s h r i) (id : y.id = r.id)
    (goes : k s r i = goNext u y) (shell : Shell s u) (reqs : u.run.reqs = s.run.reqs) :
    withInstr t h row s0 k = .next (passed (setReq u (advance y)) r) :=
  withInstr_passes now named runs goes (shell.trans ⟨rfl, rfl, rfl⟩)
    (getReq_setReq (s := u) (reqs ▸ reqOn_mem runs.req) ((advance_id y).trans id)) (advance_wait y)

/-- A command that leaves its request, as `y`, with effects that wait on. -/
theorem withInstr_stays (now : atInstr s0 t h (isRow i) = s) (named : isRow i = row) (runs : RunsInstr s h r i) (id : y.id = r.id)
    (ctx : y.ctx = r.ctx) (fin : y.fin = none) (free : y.wait = none) (goes : k s r i = .go (releaseEffects (setReq u y) y.id))
    (shell : Shell s u) (reqs : u.run.reqs = s.run.reqs) (cfg : u.cfg = s.cfg) (ledgers : u.ledgers = s.ledgers)
    (stay : ∀ l, EffectsStay { setReq u y with ledgers := l } y) :
    UpToLedger s r.ctx (withInstr t h row s0 k) (passed (setReq u y) r) := by
  intro room
  have mem : ∃ x ∈ u.run.reqs, x.id = y.id := ⟨r, reqs ▸ reqOn_mem runs.req, id.symm⟩
  have led : ledgered (setReq u y) y.ctx = ledgered s r.ctx := by simp only [ledgered, ctxCfg, setReq, cfg, ctx]
  have part : getLedger (setReq u y) (partOfCtx (setReq u y) y.ctx) = getLedger s (partOfCtx s r.ctx) := by
    simp only [getLedger, partOfCtx, ctxCfg, setReq, cfg, ctx, ledgers]
  obtain ⟨l, stays, plain⟩ := releaseEffects_stay (standsIn_setReq mem) fin stay (by rw [led, part]; exact room)
  refine ⟨l, ?_, fun p => (plain (led.trans p)).trans ledgers⟩
  exact withInstr_passes (u := { setReq u y with ledgers := l }) now named runs (goes.trans (congrArg Flow.go stays))
    (shell.trans ⟨rfl, rfl, rfl⟩) (getReq_setReq (s := u) (reqs ▸ reqOn_mem runs.req) id) free

end

/-! ### Releases (R98) -/

/-- A ring that is the only one of its numbers changes as its record tells. -/
theorem updRing_only {s : State} {ctx g : Nat} {x : RingSt} (only : TheRing s ctx g x) (f : RingSt → RingSt) :
    updRing s ctx g f = updRing s ctx g fun _ => f x := by
  have same : s.buf.rings.map (fun y => if y.ctx == ctx && y.ring == g then f y else y) =
      s.buf.rings.map fun y => if y.ctx == ctx && y.ring == g then f x else y := by
    refine List.map_congr_left fun y hy => ?_
    split
    · rename_i at'
      obtain ⟨c, k⟩ := Bool.and_eq_true_iff.1 at'
      rw [only.2 y hy (by simpa using c) (by simpa using k)]
    · rfl
  simp only [updRing, updWhere, same]

/-- A billet is counted as released once it is the next one, else it waits for the earlier ones. -/
theorem releaseBillet_eq {s : State} {ctx g b : Nat} {x : RingSt} (only : TheRing s ctx g x) (none : x.early = []) :
    releaseBillet s ctx g b = updRing s ctx g fun _ =>
      if b = x.released then { x with released := x.released + 1, relTimes := s.time :: x.relTimes.filter fun e => s.time < e + 4 }
      else { x with early := [b], relTimes := x.relTimes.filter fun e => s.time < e + 4 } := by
  unfold releaseBillet
  rw [updRing_only only]
  by_cases next : b = x.released
  · simp [none, advanceReleased, next]
  · simp [none, advanceReleased, next, Ne.symm next]

/-! ### Publications (R91, R96) -/

theorem setReq_hostAsked {s : State} {z x w : Request} (id : x.id = w.id) : setReq (hostAsked s z x) (hostAnswered w) = hostAsked s z w := by
  unfold hostAsked
  rw [← setReq_setReq (s := s) (x := hostAnswered x) (y := hostAnswered w) id]
  rfl

theorem standsIn_hostAsked {s : State} {z y : Request} (mem : ∃ x ∈ s.run.reqs, x.id = y.id) : StandsIn (hostAsked s z y) (hostAnswered y) where
  at' := (standsIn_setReq (y := hostAnswered y) mem).at'
  same := setReq_hostAsked rfl

/-- The effects of a request that runs wait on, and its entries may close. -/
theorem answer_releaseEffects_stay {s0 s u : State} {y : Request} (shell : Shell s0 u) (stands : StandsIn u y) (fin : y.fin = none)
    (stay : ∀ l, EffectsStay { u with ledgers := l } y) (cfg : u.cfg = s.cfg) (ledgers : u.ledgers = s.ledgers) :
    UpToLedger s y.ctx (answer s0 (releaseEffects u y.id)) u := by
  intro room
  have led : ledgered u y.ctx = ledgered s y.ctx := by simp only [ledgered, ctxCfg, cfg]
  have part : getLedger u (partOfCtx u y.ctx) = getLedger s (partOfCtx s y.ctx) := by
    simp only [getLedger, partOfCtx, ctxCfg, cfg, ledgers]
  obtain ⟨l, stays, plain⟩ := releaseEffects_stay stands fin stay (by rw [led, part]; exact room)
  rw [stays]
  exact ⟨l, Shell.answer (shell.trans ⟨rfl, rfl, rfl⟩), fun p => (plain (led.trans p)).trans ledgers⟩

/-- A request whose one effect has been done, its host writes having been answered. -/
def afterEffect (q : Request) : Request := { q with effects := [] }

theorem popEffect_hostAsked {s : State} {q : Request} {e : Effect} (one : q.effects = [e]) :
    popEffect (hostAsked s q q) (hostAnswered q) = hostAsked s q (afterEffect q) := by
  refine Eq.trans ?_ (setReq_hostAsked (s := s) (z := q) (x := q) (w := afterEffect q) rfl)
  simp only [popEffect, hostAnswered, afterEffect, one, List.drop_one, List.tail_cons]

theorem publishBillet_hostAsked {s : State} {r y : Request} {ctx g : Nat} :
    publishBillet (hostAsked s r y) ctx g = updRing (hostAsked s r y) ctx g fun y =>
      { y with published := y.published + 1, pubTimes := s.time :: y.pubTimes.filter fun e => s.time < e + 3 } := rfl

/-- RING_PUBLISH of the billet whose publication is its request's one effect. -/
theorem ringPublish_upToLedger {s0 s : State} {t : Mc} {ctx : Fin 256} {g : Fin 2048} {q : Request} {e : Effect}
    (now : whenReady s0 t (fun x => (publisher x ctx.val g.val false).isSome || (publisher x ctx.val g.val true).isNone) = s)
    (who : publisher s ctx.val g.val false = some q) (one : q.effects = [e]) (fin : q.fin = none) :
    UpToLedger s q.ctx (execRingPublish t ctx g s0) (updRing (hostAsked s q (afterEffect q)) ctx.val g.val fun y =>
      { y with published := y.published + 1, pubTimes := s.time :: y.pubTimes.filter fun e => s.time < e + 3 }) := by
  rw [← publishBillet_hostAsked]
  have mem : q ∈ s.run.reqs := by
    unfold publisher at who
    split at who
    · split at who
      · exact List.mem_of_find?_eq_some who
      · cases who
    · cases who
  have shell : Shell s0 s := now ▸ whenReady_shell ..
  have popped : popEffect (publishBillet (askHost s q) ctx.val g.val) (hostAnswered q) =
      publishBillet (hostAsked s q (afterEffect q)) ctx.val g.val := by
    rw [askHost_eq, ← popEffect_hostAsked one]
    rfl
  have stands := standsIn_hostAsked (s := s) (z := q) (y := afterEffect q) ⟨q, mem, rfl⟩
  have published : StandsIn (publishBillet (hostAsked s q (afterEffect q)) ctx.val g.val) (hostAnswered (afterEffect q)) :=
    ⟨stands.at', congrArg (publishBillet · ctx.val g.val) stands.same⟩
  simp only [execRingPublish, now, who, popped]
  exact answer_releaseEffects_stay (y := hostAnswered (afterEffect q)) (shell.trans ⟨rfl, rfl, rfl⟩) published fin
    (fun _ => effectsStay_nil rfl) rfl rfl

/-- A write without a key that can be made: in the order of the banks in the Stockpile, else at once. -/
theorem writeBank_near {s : State} {w : Writer} {a : Nat} {bs : List SByte} (near : unreachable s a = false) :
    writeBank s w none a bs =
      { s with mem := if inStockpile a then bankWrite s.mem s.time w.rank a bs else memWrite s.mem a bs } := by
  by_cases stock : inStockpile a = true
  · simp [writeBank, near, stock]
  · simp [writeBank, writeLocal, near, stock]

/-- The machine once entry `e` of a handle queue has taken its handle. -/
def withHandle (s : State) (ctx k : Nat) (e : HandleEntry) (base : Nat) (m : Mem) : State :=
  updHandle { s with mem := m } ctx k fun y =>
    { y with entries := y.entries.map fun z => if z.id == e.id then { z with val := some base } else z }

theorem withHandle_eq {s : State} {ctx k base : Nat} {e : HandleEntry} {m : Mem} :
    updHandle { s with mem := m } ctx k (fun y =>
      { y with entries := updWhere (fun (z : HandleEntry) => z.id == e.id) (fun z => { z with val := some base }) y.entries }) =
    withHandle s ctx k e base m := rfl

theorem setReq_withHandle {s : State} {ctx k base : Nat} {e : HandleEntry} {m : Mem} {y : Request} :
    setReq (withHandle s ctx k e base m) y = withHandle (setReq s y) ctx k e base m := rfl

/-- Local address of entry `e` of a handle queue (R242). -/
def handlePlace (s : State) (ctx : Nat) (c : HandleCfg) (e : HandleEntry) : Nat := stagingLocal s ctx c.offset + e.id % c.depth * 8

/-- The memory once request `q` has put a handle in its entry. -/
def handleMem (s : State) (ctx : Nat) (c : HandleCfg) (e : HandleEntry) (q : Request) (base : Nat) : Mem :=
  if inStockpile (handlePlace s ctx c e) then
    bankWrite s.mem s.time (Writer.hauler (q.hauler.getD 128)).rank (handlePlace s ctx c e) (good (leBytes 8 base))
  else memWrite s.mem (handlePlace s ctx c e) (good (leBytes 8 base))

theorem writeHandle_near {s : State} {q : Request} {c : HandleCfg} {e : HandleEntry} {base : Nat}
    (near : unreachable s (handlePlace s c.ctx c e) = false) :
    writeHandle (askHost s q) (.hauler (q.hauler.getD 128)) c e.id base = { hostAsked s q q with mem := handleMem s c.ctx c e q base } := by
  rw [askHost_eq]
  exact writeBank_near (s := hostAsked s q q) near

theorem handleFiller_mem {s : State} {ctx k base : Nat} {soon : Bool} {e : HandleEntry} {q : Request}
    (who : handleFiller s ctx k soon = some (e, q, base)) : q ∈ s.run.reqs := by
  unfold handleFiller at who
  split at who
  · cases who
  · obtain ⟨r, hr, h⟩ := Option.bind_eq_some_iff.1 who
    obtain ⟨b, -, eq⟩ := Option.map_eq_some_iff.1 h
    cases eq
    exact (getReq_some hr).1

theorem popEffect_withHandle {s : State} {ctx k base : Nat} {e : HandleEntry} {m : Mem} {y : Request} :
    popEffect (withHandle s ctx k e base m) y = withHandle (popEffect s y) ctx k e base m := rfl

theorem withHandle_shell (s : State) (ctx k : Nat) (e : HandleEntry) (base : Nat) (m : Mem) : Shell s (withHandle s ctx k e base m) :=
  ⟨rfl, rfl, rfl⟩

theorem hostAsked_shell (s : State) (r y : Request) : Shell s (hostAsked s r y) := ⟨rfl, rfl, rfl⟩

/-- HANDLE_PUBLISH of the entry whose handle is its request's one effect. -/
theorem handlePublish_upToLedger {s0 s : State} {t : Mc} {ctx : Fin 256} {k : Fin 1024} {c : HandleCfg} {e : HandleEntry} {q : Request}
    {base : Nat} {x : Effect}
    (now : whenReady s0 t (fun x => (handleFiller x ctx.val k.val false).isSome || (handleFiller x ctx.val k.val true).isNone) = s)
    (who : handleFiller s ctx.val k.val false = some (e, q, base)) (cfg : handleCfg s ctx.val k.val = some c) (own : c.ctx = ctx.val)
    (one : q.effects = [x]) (fin : q.fin = none) (near : unreachable s (handlePlace s ctx.val c e) = false) :
    UpToLedger s q.ctx (execHandlePublish t ctx k s0)
      (withHandle (hostAsked s q (afterEffect q)) ctx.val k.val e base (handleMem s ctx.val c e q base)) := by
  have shell : Shell s0 s := now ▸ whenReady_shell ..
  have stands := standsIn_hostAsked (s := s) (z := q) (y := afterEffect q) ⟨q, handleFiller_mem who, rfl⟩
  have published : StandsIn (withHandle (hostAsked s q (afterEffect q)) ctx.val k.val e base (handleMem s ctx.val c e q base))
      (hostAnswered (afterEffect q)) :=
    ⟨stands.at', setReq_withHandle.trans (by rw [stands.same])⟩
  have exec' : execHandlePublish t ctx k s0 = answer s0 (releaseEffects
      (withHandle (hostAsked s q (afterEffect q)) ctx.val k.val e base (handleMem s ctx.val c e q base)) q.id) := by
    unfold execHandlePublish
    rw [now]
    dsimp only
    rw [who, cfg]
    dsimp only
    rw [writeHandle_near (own.symm ▸ near), own]
    rw [withHandle_eq, popEffect_withHandle, popEffect_hostAsked one]
  rw [exec']
  exact answer_releaseEffects_stay (y := hostAnswered (afterEffect q)) ((shell.trans (hostAsked_shell ..)).trans (withHandle_shell ..)) published
    fin (fun _ => effectsStay_nil rfl) rfl rfl

/-! ### The oldest waiter (R75, R139) -/

theorem parkedResume_oldest {s0 s : State} {t : Mc} {h : HaulerId} {q : Request} (now : atTime s0 t = s) (start : mayStart s h.half = true)
    (free : haulerFree s h = true) (first : (resumable s h.half).head? = some q) :
    execParkedResume t h s0 = .next (setReq s { q with hauler := some h.idx.val, parkedIn := none, active := s.time }) := by
  simp only [execParkedResume, now, start, free, Bool.and_self, if_true, first]
  exact Shell.answer ((now ▸ atTime_shell s0 t).trans ⟨rfl, rfl, rfl⟩)

theorem endUnitTest_shell (s : State) (h : Half) : Shell s (endUnitTest s h) := by
  unfold endUnitTest
  repeat' split
  all_goals exact ⟨rfl, rfl, rfl⟩

theorem tongsSlotGrant_first {s0 s : State} {t : Mc} {h : Half} {q : Request} {x : Nat × Nat}
    (now : whenReady (endUnitTest (atTime s0 t) h) t (fun x => (tongsWaiters x h).isEmpty || (freeSlot x h).isSome) = s)
    (first : (tongsWaiters s h).head? = some q) (slot : freeSlot s h = some x) :
    execTongsSlotGrant t h s0 = .next (if q.waitAt < s.time then setReq s { q with tongs := some x, wait := none } else s) := by
  have shell : Shell s0 s := now ▸ ((atTime_shell s0 t).trans (endUnitTest_shell _ h)).trans (whenReady_shell ..)
  simp only [execTongsSlotGrant, now, first, slot]
  refine Shell.answer (shell.trans ?_)
  split <;> exact ⟨rfl, rfl, rfl⟩

/-! ### The words -/

section
variable {s0 s : State} {t : Mc} {h : HaulerId} {r : Request}

/-- The machine once request `r` has reserved an entry of a handle queue. -/
def handleReserved (s : State) (r : Request) (q : Nat) : State :=
  updHandle s r.ctx q fun y => { y with entries := y.entries ++ [{ id := y.nextId, req := r.id, val := none }], nextId := y.nextId + 1 }

/-- The request with its handle's publication as its one effect. -/
def handlePut (r : Request) (q sh n : Nat) : Request :=
  { advance r with effects := [.handlePublish q n (shapeOf r sh).base r.writes r.lines.next] }

/-- PUT of a handle into a queue with room: the entry is reserved, and its publication becomes the request's one effect (R96). -/
theorem putHandle_upToLedger {q sh : Nat} {x : HandleSt} {c : HandleCfg} (now : atInstr s0 t h "PUT_HANDLE" = s)
    (runs : RunsInstr s h r (.putHandle q sh)) (handle : getHandle s r.ctx q = some x) (cfg : handleCfg s r.ctx q = some c)
    (room : x.entries.length < c.depth) (ahead : aheadOf s r (.handlePut q) = 0) (none : r.effects = []) :
    UpToLedger s r.ctx (execPutHandle t h s0) (passed (setReq (handleReserved s r q) (handlePut r q sh x.nextId)) r) := by
  refine withInstr_stays (i := .putHandle q sh) (y := handlePut r q sh x.nextId) now rfl runs (advance_id r) (advance_ctx r) ((advance_fin r).trans runs.fin)
    (advance_wait r) ?_ ⟨rfl, rfl, rfl⟩ rfl rfl rfl fun _ => effectsStay_handle rfl
  simp only [handle, cfg, room, ahead, beq_self_eq_true, decide_true, Bool.and_self, if_true]
  simp only [addEffect, advance_effects, none, List.nil_append]
  rfl

theorem takeHandle_goes {q k v : Nat} {x : HandleSt} {e : HandleEntry} {rest : List HandleEntry} (now : atInstr s0 t h "TAKE_HANDLE" = s)
    (runs : RunsInstr s h r (.takeHandle q k)) (handle : getHandle s r.ctx q = some x) (entries : x.entries = e :: rest)
    (val : e.val = some v) (ahead : aheadOf s r (.handleTake q) = 0) :
    execTakeHandle t h s0 = .next (passed (setReq (updHandle s r.ctx q fun y => { y with entries := y.entries.drop 1 })
      (advance { r with shapes := r.shapes.set k { shapeOf r k with base := v % 2 ^ 57, handle := true } })) r) := by
  refine withInstr_goesIn (i := .takeHandle q k) (u := updHandle s r.ctx q fun y => { y with entries := y.entries.drop 1 }) now rfl runs rfl ?_ ⟨rfl, rfl, rfl⟩ rfl
  simp only [handle, entries, val, ahead, beq_self_eq_true, if_true, List.head?_cons, Option.bind_some]

theorem acquire_goes {g k : Nat} {x : RingSt} {c : RingCfg} (now : atInstr s0 t h "TAKE_RING_ACQUIRE" = s)
    (runs : RunsInstr s h r (.acquire g k)) (ring : getRing s r.ctx g = some x) (cfg : ringCfg s r.ctx g = some c)
    (more : x.acquired < x.published) (ahead : aheadOf s r (.ringAcquire g) = 0) :
    execTakeRingAcquire t h s0 = .next (passed (setReq (updRing s r.ctx g fun y => { y with acquired := y.acquired + 1 })
      (advance { r with
        held := r.held ++ [(g, x.acquired)]
        shapes := r.shapes.set k
          { base := stagingVa s r.ctx (slotOffset c x.acquired), len := ringBytes c, stride := ringBytes c, count := 1, loaded := true
            handle := true } })) r) := by
  refine withInstr_goesIn (i := .acquire g k) (u := updRing s r.ctx g fun y => { y with acquired := y.acquired + 1 }) now rfl runs rfl ?_ ⟨rfl, rfl, rfl⟩ rfl
  simp only [ring, cfg, more, ahead, beq_self_eq_true, decide_true, Bool.and_self, if_true]

theorem release_goes {g b : Nat} {x : RingSt} (now : atInstr s0 t h "TAKE_RING_RELEASE" = s) (runs : RunsInstr s h r (.release g))
    (held : r.held.find? (fun y => y.1 == g) = some (g, b)) (only : TheRing s r.ctx g x) (early : x.early = []) :
    execTakeRingRelease t h s0 = .next (passed (setReq
      (updRing s r.ctx g fun _ =>
        if b = x.released then
          { x with released := x.released + 1, relTimes := s.time :: x.relTimes.filter fun e => s.time < e + 4 }
        else { x with early := [b], relTimes := x.relTimes.filter fun e => s.time < e + 4 })
      (advance { r with held := r.held.filter (· != (g, b)) })) r) := by
  rw [← releaseBillet_eq only early]
  refine withInstr_goesIn (i := .release g) (u := releaseBillet s r.ctx g b) now rfl runs rfl ?_ ⟨rfl, rfl, rfl⟩ rfl
  simp only [held]

end

/-- Settles O55: the buffer words come down to `goNext`, or to an effect that waits on; a publication to `releaseEffects` of a request without
further effects; the waiter that goes on is the head of the list in the order of its key. -/
theorem buffersPassBetweenStages : Obligations.BuffersPassBetweenStages := by
  unfold Obligations.BuffersPassBetweenStages
  refine ⟨?_, ?_, ?_, ?_, ?_⟩
  · intro s0 t h r i s runs
    refine ⟨?_, ?_, ?_, ?_⟩
    · rintro q sh x c rfl handle cfg room ahead none
      exact putHandle_upToLedger rfl runs handle cfg room ahead none
    · rintro q k x e v rest rfl handle entries val ahead
      exact takeHandle_goes rfl runs handle entries val ahead
    · rintro g k x c rfl ring cfg more ahead
      exact acquire_goes rfl runs ring cfg more ahead
    · rintro g b x rfl held only early
      exact release_goes rfl runs held only early
  · intro s0 t ctx g q k upto s who one fin _
    exact ringPublish_upToLedger rfl who one fin
  · intro s0 t ctx k c e q base upto s who cfg own one fin _ place near
    exact handlePublish_upToLedger rfl who cfg own one fin near
  · intro s0 t h q s ready key mem start free isReady oldest
    have iff (x : Request) : x ∈ s.run.reqs.filter (fun r => r.half == h.half && r.hauler.isNone && r.fin.isNone && r.wait.isSome &&
        waitOver s r && !entryHeld s r) ↔ x ∈ s.run.reqs ∧ ready x := by
      simp [ready, and_assoc]
    exact parkedResume_oldest rfl start free (head?_sortBy ((iff q).2 ⟨mem, isReady⟩) fun x hx => oldest x ((iff x).1 hx).1 ((iff x).1 hx).2)
  · intro s0 t h q x s asks key mem isAsking oldest slot
    have iff (x : Request) : x ∈ s.run.reqs.filter (fun r => r.half == h && r.wait == some .tongs && r.tongs.isNone) ↔
        x ∈ s.run.reqs ∧ asks x := by
      simp [asks, and_assoc]
    have grant := tongsSlotGrant_first (s0 := s0) (t := t) rfl
      (head?_sortBy ((iff q).2 ⟨mem, isAsking⟩) fun x hx => oldest x ((iff x).1 hx).1 ((iff x).1 hx).2) slot
    exact ⟨fun earlier => grant.trans (by rw [if_pos earlier]), fun same => grant.trans (by rw [if_neg (Nat.not_lt.2 same)])⟩

end Sys2Proof.Machine
end

section
/-! Bundles of one operation that has no data (R246 to R254), DRAIN_COMPLETE (R263, R264) and READY (R254, R261). -/

namespace Sys2Proof.Machine

/-! ### A bundle of one operation -/

section
variable {s0 s m : State} {t : Mc} {b : Bundle} {o : SchedOp}

/-- A bundle of one operation is taken where it comes, in the half's own mc. -/
theorem issueBundle_one {k : Nat} (now : atTime s0 t = s) (one : OneOp s b o) (named : o.op = k) :
    issueBundle t k b s0 = answer s0 (takeBundle false (noteBusy s b.half) b) := by
  obtain ⟨run, half, glow, ops, real, -, -⟩ := one
  have has : bundleHas b k = true := by simp [bundleHas, ops, real, named]
  have awake : wakeEvent s b.half = s := by rw [wakeEvent_awake run, wakeHalf, glow]; simp
  have runs : running (noteBusy s b.half) = true := run
  simp only [issueBundle, now, has, ops, List.any_cons, List.any_nil, real, awake, half, glow, runs, Bool.not_false, Bool.or_false, Bool.true_or,
    Bool.not_true, Bool.false_eq_true, if_true, if_false]

/-- The bundle's operation is ready, and neither read nor table. -/
theorem judge_ready (sound : staticFault m b.half b.ctx.val o = none) (real : isNop o = false) (ready : opReady m b.half b.ctx.val 0 o = true)
    (late : 3 ≤ o.op) : judge b.half b.ctx.val false m 0 [o] = ([(o, none)], []) := by
  have data : ¬ o.op ≤ 2 := by omega
  simp [judge, sound, real, ready, discards, data]

theorem judge_late (sound : staticFault m b.half b.ctx.val o = none) (real : isNop o = false) (late : opReady m b.half b.ctx.val 0 o = false) :
    judge b.half b.ctx.val false m 0 [o] = ([(o, none)], [o]) := by
  simp [judge, sound, real, late, discards]

/-- What a bundle's operations share at its acceptance. -/
def issueOf (m : State) (b : Bundle) : Issue :=
  { half := b.half, ctx := b.ctx.val, vcyc := b.vcyc.toNat, start := m, quenched := false, stData := b.stData }

/-- A bundle whose operation is ready is accepted: the operation is carried out. -/
theorem takeBundle_ready {u : State} (open' : ctxIsQuenched m b.ctx.val = false) (ops : bundleOps b = [o])
    (judged : judge b.half b.ctx.val false m 0 [o] = ([(o, none)], []))
    (runs : runOp (issueOf m b) { s := m, banks := [], rel := [] } (o, none) = { s := u, banks := [], rel := [] }) :
    takeBundle false m b = accepted b u := by
  unfold issueOf at runs
  simp only [takeBundle, open', ops, judged, Bool.false_and, Bool.false_eq_true, if_false, List.isEmpty_nil, Bool.not_true, List.foldl_cons,
    List.foldl_nil, runs]
  simp only [accepted, ops]
  rfl

/-- A bundle whose operation is not ready raises LATE. -/
theorem takeBundle_late (open' : ctxIsQuenched m b.ctx.val = false) (ops : bundleOps b = [o])
    (judged : judge b.half b.ctx.val false m 0 [o] = ([(o, none)], [o])) :
    takeBundle false m b = raiseLate m b.half b.ctx.val [o] [o] := by
  simp only [takeBundle, open', ops, judged, Bool.false_and, Bool.false_eq_true, if_false, List.isEmpty_cons, Bool.not_false, if_true]
  rfl

/-- LATE of one operation with a readiness of its own. -/
theorem raiseLate_one {h : Half} {ctx : Nat} (data : o.op ≤ 5) : raiseLate m h ctx [o] [o] =
    { updCtx m ctx (fun x => { x with
        lateCount := min 0xFFFFFFFF (x.lateCount + 1), waitNo := x.waitNo + 1, late := x.late.filter (·.1 != h) ++ [(h, o.word, true)]
        lateKind := (lateRecord h o).1, lateId := (lateRecord h o).2 }) with
      out := { m.out with late := m.out.late.set h true, ready := m.out.ready.filter (· != ctx) } } := by
  simp only [raiseLate, capAt_eq_min, data, decide_true, List.find?_cons_of_pos, List.map_cons, List.map_nil, List.contains_cons, beq_self_eq_true,
    Bool.true_or]
  rfl

/-- The bundle's operation, accepted. -/
theorem bundle_accepted {k : Nat} {u : State} (now : atTime s0 t = s) (one : OneOp s b o) (named : o.op = k) (late : 3 ≤ k)
    (ready : opReady s b.half b.ctx.val 0 o = true)
    (runs : runOp (issueOf (noteBusy s b.half) b) { s := noteBusy s b.half, banks := [], rel := [] } (o, none) =
      { s := u, banks := [], rel := [] }) (shell : Shell s u) :
    issueBundle t k b s0 = .next (accepted b u) := by
  rw [issueBundle_one now one named,
    takeBundle_ready (m := noteBusy s b.half) one.open' one.ops (judge_ready one.sound one.real ready (named ▸ late)) runs]
  exact Shell.answer (((now ▸ atTime_shell s0 t).trans shell).trans ⟨rfl, rfl, rfl⟩)

/-- The bundle's operation is not ready: LATE. -/
theorem bundle_late {k : Nat} (now : atTime s0 t = s) (one : OneOp s b o) (named : o.op = k) (data : k ≤ 5)
    (late : opReady s b.half b.ctx.val 0 o = false) :
    issueBundle t k b s0 = .next { updCtx (noteBusy s b.half) b.ctx.val (fun x => { x with
        lateCount := min 0xFFFFFFFF (x.lateCount + 1), waitNo := x.waitNo + 1
        late := x.late.filter (·.1 != b.half) ++ [(b.half, o.word, true)]
        lateKind := (lateRecord b.half o).1, lateId := (lateRecord b.half o).2 }) with
      out := { s.out with late := s.out.late.set b.half true, ready := s.out.ready.filter (· != b.ctx.val) } } := by
  rw [issueBundle_one now one named, takeBundle_late (m := noteBusy s b.half) one.open' one.ops (judge_late one.sound one.real late),
    raiseLate_one (named ▸ data)]
  exact Shell.answer ((now ▸ atTime_shell s0 t).trans ⟨rfl, rfl, rfl⟩)

/-! ### What the operations do -/

/-- A request of a line below 65,535, with the delay of its source. -/
theorem addPacing_room {line delay : Nat} {x : PacingSt} {c : PacingCfg} (run : running m = true) (hc : pacingCfg m line = some c)
    (hx : getPacing m line = some x) (room : x.pending < 65535) (delayed : delay ≠ 0) :
    addPacing m line delay = { updPacing m line (fun y => { y with
        pending := y.pending + 1, coming := (m.time + delay) :: x.coming.filter fun e => m.time < e }) with
      power := woken m.power m.time (oneHalf (homeOfCtx m c.ctx)) } := by
  simp only [addPacing, hx, hc, ge_iff_le, Nat.not_le.2 room, delayed, if_false]
  exact wakeHalf_eq_woken run

/-- A SIG whose stores all have their responses starts its update; another waits for them. -/
theorem newSig_loc {h : Half} {ctx vid n k : Nat} {a c : Bool} {needs : List Nat} (loc : vEntry m ctx vid = .loc k a c)
    (whole : m.halfReset = ⟨false, false⟩) :
    newSig m h ctx vid n needs =
      if needs = [] then { m with ctr := { m.ctr with updates := m.ctr.updates ++
        [{ ctr := k, amount := n, gen := genOf m k, half := h, due := m.time + releaseDelay k h }] } }
      else { m with buf := { m.buf with sigs := m.buf.sigs ++
        [{ half := h, ctx := ctx, vid := vid, n := n, gen := genOf m k, needs := needs }] } } := by
  have here (x : Half) : m.halfReset.get x = false := by rw [whole]; cases x <;> rfl
  cases needs with
  | nil => simp [newSig, loc, releaseSig, sendUpdate, here]
  | cons x xs => simp [newSig, loc]

/-- The rings that a DRAIN of context `ctx` names, each with its claims. -/
def drainedRings (s : State) (ctx : Nat) : List (Nat × Nat) :=
  (s.cfg.rings.filter fun g => g.ctx == ctx && !g.fixedAhead && !g.consHauler).filterMap fun g =>
    (getRing s ctx g.ring).map fun x => (g.ring, x.claimed)

/-- A DRAIN all of whose rings have claimed and unpublished billets waits for them. -/
theorem runDrain_waits {i : Issue} {v k : Nat} {a c : Bool} (counter : (ctxCfg m i.ctx).bind (·.drainCounter) = some v)
    (loc : vEntry m i.ctx v = .loc k a c) (open' : ∀ x ∈ m.buf.rings, x.ctx = i.ctx → x.published < x.claimed) :
    runDrain i m = { m with buf := { m.buf with drains := m.buf.drains ++
      [{ ctx := i.ctx, half := i.half, rings := drainedRings m i.ctx, gen := genOf m k }] } } := by
  have none (r : Nat × Nat) (hr : r ∈ drainedRings m i.ctx) :
      ((getRing m i.ctx r.1).map fun x => decide (r.2 ≤ x.published)).getD true = false := by
    obtain ⟨g, -, hg⟩ := List.mem_filterMap.1 hr
    obtain ⟨x, hx, rfl⟩ := Option.map_eq_some_iff.1 hg
    have at' := List.find?_some hx
    have own : x.ctx = i.ctx := by simpa using (Bool.and_eq_true_iff.1 at').1
    simp [hx, Nat.not_le.2 (open' x (List.mem_of_find?_eq_some hx) own)]
  have drained : (drainedRings m i.ctx).filter (fun r => ((getRing m i.ctx r.1).map fun x => decide (r.2 ≤ x.published)).getD true) = [] :=
    List.filter_eq_nil_iff.2 fun r hr => by simp [none r hr]
  have left : (drainedRings m i.ctx).filter (fun r => !((getRing m i.ctx r.1).map fun x => decide (r.2 ≤ x.published)).getD true) =
      drainedRings m i.ctx := List.filter_eq_self.2 fun r hr => by simp [none r hr]
  unfold drainedRings at drained left
  simp only [runDrain, drainRings, counter, loc, drained, left, List.foldl_nil]
  rfl

/-- FEED puts its entry in a feed with room. -/
theorem feed_accepted (now : atTime s0 t = s) (one : OneOp s b o) (named : o.op = 5) (room : feedRoom s b.half o.feed = true) :
    issueBundle t 5 b s0 = .next (accepted b { noteBusy s b.half with buf := { s.buf with
      feeds := s.buf.feeds.map fun f => if f.half == b.half && f.feed == o.feed then
        { f with entries := f.entries ++ [(bits o.word.toNat 51 0, s.time + 6)] } else f } }) := by
  refine bundle_accepted now one named (by decide) (by simp [opReady, named, room]) ?_ ⟨rfl, rfl, rfl⟩
  simp only [runOp, named]
  rfl

/-- PACE adds a request to its line, which counts from the second mc on. -/
theorem pace_accepted {x : PacingSt} {c : PacingCfg} (now : atTime s0 t = s) (one : OneOp s b o) (named : o.op = 6)
    (hc : pacingCfg s o.feed = some c) (hx : getPacing s o.feed = some x) (room : x.pending < 65535) :
    issueBundle t 6 b s0 = .next (accepted b { updPacing (noteBusy s b.half) o.feed (fun y => { y with
        pending := y.pending + 1, coming := (s.time + 2) :: x.coming.filter fun e => s.time < e }) with
      power := woken (noteBusy s b.half).power s.time (oneHalf (homeOfCtx s c.ctx)) }) := by
  refine bundle_accepted now one named (by decide) (by simp [opReady, named]) ?_ ⟨rfl, rfl, rfl⟩
  simp only [runOp, named]
  exact congrArg (fun u => ({ s := u, banks := [], rel := [] } : Exec))
    (addPacing_room (m := noteBusy s b.half) one.run hc hx room (by decide))

/-- SIG starts its update, or waits for the context's stores that have no response. -/
theorem sig_accepted {k : Nat} {a c : Bool} (now : atTime s0 t = s) (one : OneOp s b o) (named : o.op = 7)
    (loc : vEntry s b.ctx.val (bits o.word.toNat 59 48) = .loc k a c) (whole : s.halfReset = ⟨false, false⟩) :
    issueBundle t 7 b s0 = .next (accepted b (
      if openStores s b.ctx.val = [] then { noteBusy s b.half with ctr := { s.ctr with updates := s.ctr.updates ++
        [{ ctr := k, amount := bits o.word.toNat 47 16, gen := genOf s k, half := b.half, due := s.time + releaseDelay k b.half }] } }
      else { noteBusy s b.half with buf := { s.buf with sigs := s.buf.sigs ++
        [{ half := b.half, ctx := b.ctx.val, vid := bits o.word.toNat 59 48, n := bits o.word.toNat 47 16, gen := genOf s k
           needs := openStores s b.ctx.val }] } })) := by
  refine bundle_accepted now one named (by decide) (by simp [opReady, named]) ?_ (by split <;> exact ⟨rfl, rfl, rfl⟩)
  simp only [runOp, named]
  exact congrArg (fun u => ({ s := u, banks := [], rel := [] } : Exec)) (newSig_loc (m := noteBusy s b.half) loc whole)

/-- DRAIN takes the claims of the context's rings. -/
theorem drain_accepted {v k : Nat} {a c : Bool} (now : atTime s0 t = s) (one : OneOp s b o) (named : o.op = 8)
    (counter : (ctxCfg s b.ctx.val).bind (·.drainCounter) = some v) (loc : vEntry s b.ctx.val v = .loc k a c)
    (waits : ∀ x ∈ s.buf.rings, x.ctx = b.ctx.val → x.published < x.claimed) :
    issueBundle t 8 b s0 = .next (accepted b { noteBusy s b.half with buf := { s.buf with drains := s.buf.drains ++
      [{ ctx := b.ctx.val, half := b.half, rings := drainedRings s b.ctx.val, gen := genOf s k }] } }) := by
  refine bundle_accepted now one named (by decide) (by simp [opReady, named]) ?_ ⟨rfl, rfl, rfl⟩
  simp only [runOp, named]
  exact congrArg (fun u => ({ s := u, banks := [], rel := [] } : Exec))
    (runDrain_waits (m := noteBusy s b.half) (i := issueOf (noteBusy s b.half) b) counter loc waits)

end

/-! ### DRAIN_COMPLETE -/

section
variable {s0 s : State} {t : Mc} {ctx : Fin 256} {d : DrainSt} {g c0 : Nat} {x : RingSt}

/-- The ring once it is drained up to `c0`. -/
def drainedRing (s : State) (x : RingSt) (c0 : Nat) : RingSt :=
  { x with released := c0, discards := min 0xFFFFFFFF (x.discards + (c0 - x.released)), lengths := x.lengths.filter fun l => l.1 ≥ c0
           relTimes := List.replicate (c0 - x.released) s.time ++ x.relTimes.filter fun e => s.time < e + 4 }

/-- The machine with the ring drained, and the event of what it discarded. -/
def discarded (s : State) (c g : Nat) (x : RingSt) (c0 : Nat) : State :=
  { updRing s c g (fun _ => drainedRing s x c0) with
    seg := withEvent s (partOfCtx s c) (eventRec 0x0007 c false g (c0 - x.released) s.time) }

/-- A ring with unreleased billets is drained, and reported. -/
theorem drainRing_discards {c : Nat} {fq : FaultQ} (only : TheRing s c g x) (batch : BatchOpen s (partOfCtx s c) fq)
    (more : 0 < c0 - x.released) : drainRing s c g c0 = discarded s c g x c0 := by
  simp only [drainRing, only.1, beq_iff_eq, Nat.ne_of_gt more, if_false]
  rw [updRing_only only]
  simp only [capAt_eq_min]
  exact ctxEvent_open (batchOpen_congr (u := updRing s c g fun _ => drainedRing s x c0) batch rfl) _ _ _

/-- A DRAIN of one ring whose fills are published drains it. -/
theorem drainRings_filled (ring : getRing s d.ctx g = some x) (rings : d.rings = [(g, c0)]) (filled : c0 ≤ x.published) :
    drainRings s d = (drainRing s d.ctx g c0, { d with rings := [] }) := by
  simp [drainRings, rings, ring, filled]

/-- A DRAIN of one ring with a fill that is not published leaves it. -/
theorem drainRings_open (ring : getRing s d.ctx g = some x) (rings : d.rings = [(g, c0)]) (open' : x.published < c0) :
    drainRings s d = (s, d) := by
  have whole : { d with rings := [(g, c0)] } = d := by rw [← rings]
  simp [drainRings, rings, ring, Nat.not_le.2 open', whole]

/-- The drain counter is signalled by 1. -/
theorem signalDrain_loc {v k : Nat} {a c : Bool} (counter : (ctxCfg s d.ctx).bind (·.drainCounter) = some v)
    (loc : vEntry s d.ctx v = .loc k a c) (whole : ∀ h, s.halfReset.get h = false) :
    signalDrain s d = { s with ctr := { s.ctr with updates := s.ctr.updates ++
      [{ ctr := k, amount := 1, gen := d.gen, half := d.half, due := s.time + releaseDelay k d.half }] } } := by
  simp [signalDrain, counter, loc, sendUpdate, whole]

/-- The machine without its DRAINs. -/
def withoutDrains (s : State) : State := { s with buf := { s.buf with drains := [] } }

/-- DRAIN_COMPLETE of the one DRAIN. -/
theorem execDrainComplete_one (now : atTime s0 t = s) (run : running s = true) (one : s.buf.drains = [d]) (own : d.ctx = ctx.val) :
    execDrainComplete t ctx s0 = answer s0 (if (drainRings (withoutDrains s) d).2.rings.isEmpty then
        signalDrain (drainRings (withoutDrains s) d).1 (drainRings (withoutDrains s) d).2
      else { (drainRings (withoutDrains s) d).1 with
        buf := { (drainRings (withoutDrains s) d).1.buf with
          drains := (drainRings (withoutDrains s) d).1.buf.drains ++ [(drainRings (withoutDrains s) d).2] } }) := by
  simp only [execDrainComplete, now, run, one, own, Bool.not_true, Bool.false_eq_true, if_false, List.filter_cons, List.filter_nil,
    bne_self_eq_false, beq_self_eq_true, if_true, List.foldl_cons, List.foldl_nil]
  rfl

/-- A ring with fills that are not published stays as it is. -/
theorem drainComplete_waits (now : atTime s0 t = s) (run : running s = true) (one : s.buf.drains = [d]) (own : d.ctx = ctx.val)
    (rings : d.rings = [(g, c0)]) (only : TheRing s ctx.val g x) (open' : x.published < c0) :
    execDrainComplete t ctx s0 = .next s := by
  have same : { withoutDrains s with buf := { (withoutDrains s).buf with drains := [d] } } = s := by simp only [withoutDrains, ← one]
  rw [execDrainComplete_one now run one own, drainRings_open (s := withoutDrains s) (own ▸ only.1) rings open', rings, if_neg (by simp)]
  exact (congrArg (answer s0) same).trans (Shell.answer (now ▸ atTime_shell s0 t))

theorem drainComplete_drains {v k : Nat} {a c : Bool} {fq : FaultQ} (now : atTime s0 t = s) (run : running s = true) (one : s.buf.drains = [d])
    (own : d.ctx = ctx.val) (rings : d.rings = [(g, c0)]) (only : TheRing s ctx.val g x) (whole : s.halfReset = ⟨false, false⟩)
    (counter : (ctxCfg s ctx.val).bind (·.drainCounter) = some v) (loc : vEntry s ctx.val v = .loc k a c)
    (batch : BatchOpen s (partOfCtx s ctx.val) fq) (filled : c0 ≤ x.published) (more : 0 < c0 - x.released) :
    execDrainComplete t ctx s0 = .next { updRing s ctx.val g (fun _ => drainedRing s x c0) with
      buf := { (updRing s ctx.val g fun _ => drainedRing s x c0).buf with drains := [] }
      seg := withEvent s (partOfCtx s ctx.val) (eventRec 0x0007 ctx.val false g (c0 - x.released) s.time)
      ctr := { s.ctr with updates := s.ctr.updates ++
        [{ ctr := k, amount := 1, gen := d.gen, half := d.half, due := s.time + releaseDelay k d.half }] } } := by
  have here (h : Half) : s.halfReset.get h = false := by rw [whole]; cases h <;> rfl
  have drained : drainRing (withoutDrains s) ctx.val g c0 = discarded (withoutDrains s) ctx.val g x c0 :=
    drainRing_discards (s := withoutDrains s) only (batchOpen_congr batch rfl) more
  have signals := signalDrain_loc (s := discarded (withoutDrains s) ctx.val g x c0) (d := { d with ctx := ctx.val, rings := [] }) counter loc here
  rw [execDrainComplete_one now run one own, drainRings_filled (s := withoutDrains s) (own ▸ only.1) rings filled, own, drained]
  refine (congrArg (answer s0) signals).trans ?_
  exact Shell.answer ((now ▸ atTime_shell s0 t).trans ⟨rfl, rfl, rfl⟩)

/-! ### READY -/

theorem not_stillLate (s : State) (ctx : Nat) : stillLate s ctx [] = false := by simp [stillLate, lateAt]

/-- The context in slot `ctx` without its late operations. -/
def readied (s : State) (ctx : Nat) : State :=
  { updCtx s ctx (fun y => { y with late := [] }) with
    out := { s.out with ready := insertBy id ctx (s.out.ready.filter (· != ctx)) } }

theorem getCtx_readied {c : Nat} {y : CtxState} (at' : getCtx s c = some y) (late : y.late = []) : getCtx (readied s c) c = some y := by
  have keeps (z : CtxState) : ((if z.ctx == c then { z with late := [] } else z : CtxState).ctx == c) = (z.ctx == c) := by split <;> rfl
  have own : y.ctx = c := by simpa using List.find?_some at'
  simp only [getCtx, readied, updCtx, updWhere]
  rw [find?_map_of_keeps keeps, show s.ctxs.find? (·.ctx == c) = some y from at']
  rw [Option.map_some, if_pos (by simpa using own), show { y with late := [] } = y by rw [← late]]

/-- READY of a context that nothing holds back. -/
theorem ready_rises {y : CtxState} (now : atTime s0 t = s) (run : running s = true) (at' : getCtx s ctx.val = some y) (late : y.late = [])
    (sound : y.faulted = false) (may : y.ran = true ∨ firstFillMet s ctx.val = true) :
    execReady t ctx s0 = .next (readied s ctx.val) := by
  have filled : (y.ran || firstFillMet s ctx.val) = true := by simpa using may
  simp only [execReady, now, at', run, sound, filled, late, not_stillLate, Bool.not_true, Bool.or_self, Bool.false_eq_true, if_false]
  exact Shell.answer ((now ▸ atTime_shell s0 t).trans ⟨rfl, rfl, rfl⟩)

/-- READY of a context that is faulted, or has neither run nor its first fills. -/
theorem ready_waits {y : CtxState} (now : atTime s0 t = s) (at' : getCtx s ctx.val = some y)
    (held : y.faulted = true ∨ y.ran = false ∧ firstFillMet s ctx.val = false) : execReady t ctx s0 = .next s := by
  have stays : (!running s || y.faulted || !(y.ran || firstFillMet s ctx.val) || stillLate s ctx.val y.late) = true := by
    rcases held with h | ⟨h, g⟩ <;> simp [*]
  simp only [execReady, now, at', stays, if_true]
  exact Shell.answer (now ▸ atTime_shell s0 t)

theorem mem_ready_readied {c k : Nat} : k ∈ (readied s c).out.ready ↔ k = c ∨ k ∈ s.out.ready := by
  simp only [readied, mem_insertBy_iff, List.mem_filter, bne_iff_ne]
  by_cases h : k = c <;> simp [h]

end

end Sys2Proof.Machine
end

section
/-! The response of an STR releases the SIG that waits for it (R246, R251): nothing else happens up to its mc. -/

namespace Sys2Proof.Machine

/-! ### The first of several times -/

theorem minBy_le {α : Type} {key : α → Nat} {y : α} : ∀ {l : List α}, minBy key l = some y → ∀ x ∈ l, key y ≤ key x
  | [], h => by cases h
  | z :: zs, h => by
    unfold minBy at h
    intro x hx
    cases hz : minBy key zs with
    | none =>
      rw [hz] at h
      cases h
      cases zs with
      | nil => simp at hx; simp [hx]
      | cons a as =>
        unfold minBy at hz
        split at hz
        · cases hz
        · split at hz <;> cases hz
    | some w =>
      rw [hz] at h
      have below := minBy_le hz
      dsimp only at h
      split at h
      · rename_i le
        cases h
        rcases List.mem_cons.1 hx with rfl | hx
        · exact Nat.le_refl _
        · exact le.trans (below x hx)
      · rename_i gt
        cases h
        rcases List.mem_cons.1 hx with rfl | hx
        · omega
        · exact below x hx

theorem minBy_isSome {α : Type} {key : α → Nat} {l : List α} : (minBy key l).isSome = !l.isEmpty := by
  cases l with
  | nil => rfl
  | cons z zs =>
    unfold minBy
    split
    · rfl
    · split <;> rfl

/-! ### A machine in which an STR alone is under way -/

/-- Nothing but STRs is under way. -/
structure StrsOnly (s : State) : Prop where
  updates : s.ctr.updates = []
  copies  : s.ctr.copyMsgs = []
  sent    : s.run.reqs.filterMap sentDue = []
  coming  : s.buf.anvils.flatMap (fun a => a.coming.map (·.due)) = []
  heads   : s.buf.rings.flatMap (fun x => x.releasing.map Prod.fst) = []
  entries : entryDues s = []
  wakes   : ∀ h, timerWakes s h = []
  mbist   : s.test.mbist = none
  lines   : linesBusy s = false

/-- Without its STRs the machine has no next event. -/
theorem strsOnly_of_nextEvent {s : State} (quiet : nextEvent { s with buf := { s.buf with strs := [] } } = none) : StrsOnly s := by
  have none : minBy id _ = none := Option.map_eq_none_iff.1 quiet
  have empty := congrArg (!·.isSome) none
  simp only [minBy_isSome, Bool.not_not, Option.isSome_none, Bool.not_false, List.isEmpty_iff, List.append_eq_nil_iff, List.map_eq_nil_iff] at empty
  obtain ⟨⟨⟨⟨⟨⟨⟨⟨updates, copies⟩, sent⟩, ports⟩, entries⟩, east⟩, west⟩, mbist⟩, lines⟩ := empty
  simp only [portDues, List.append_eq_nil_iff] at ports
  refine ⟨updates, copies, sent, ports.1.1, ports.1.2, entries, fun h => by cases h <;> assumption, by simpa using mbist, ?_⟩
  by_contra busy
  rw [Bool.not_eq_false] at busy
  have : linesBusy { s with buf := { s.buf with strs := [] } } = true := busy
  rw [this] at lines
  cases lines

theorem nextEvent_strsOnly {s : State} (only : StrsOnly s) :
    nextEvent s = (minBy id (s.buf.strs.flatMap fun x => x.due :: (x.load.map Prod.fst).toList)).map (max (s.time + 1)) := by
  obtain ⟨updates, copies, sent, coming, heads, entries, wakes, mbist, lines⟩ := only
  simp [nextEvent, portDues, updates, copies, sent, coming, heads, entries, wakes, mbist, lines]

/-- A half stays without timer requests ahead as time goes on. -/
theorem timerWakes_jumpTo {s : State} {t : Mc} {h : Half} (later : s.time ≤ t) (none : timerWakes s h = []) :
    timerWakes (jumpTo s t) h = [] := by
  have power : (tickHearth s.power (t - s.time)).up = s.power.up ∧ (tickHearth s.power (t - s.time)).cold = s.power.cold ∧
      (tickHearth s.power (t - s.time)).banked = s.power.banked ∧ (tickHearth s.power (t - s.time)).glow = s.power.glow ∧
      (tickHearth s.power (t - s.time)).wakeHeld = s.power.wakeHeld := by
    unfold tickHearth bellows
    cases s.power.entry <;> exact ⟨rfl, rfl, rfl, rfl, rfl⟩
  obtain ⟨up, cold, banked, glow, wakeHeld⟩ := power
  have timers : timersOf (jumpTo s t) h = timersOf s h := rfl
  have run : running (jumpTo s t) = running s := by simp only [running, jumpTo, up, cold, banked]
  have sleeps : (jumpTo s t).power.glow.get h = s.power.glow.get h := by simp only [jumpTo, glow]
  have held : (jumpTo s t).power.wakeHeld.get h = s.power.wakeHeld.get h := by simp only [jumpTo, wakeHeld]
  unfold timerWakes at none ⊢
  rw [run, sleeps, held, timers]
  split
  · rename_i asleep
    rw [if_pos asleep, List.map_eq_nil_iff, List.filter_eq_nil_iff] at none
    rw [List.map_eq_nil_iff, List.filter_eq_nil_iff]
    intro d hd
    have past := none d hd
    simp only [decide_eq_true_eq, not_le] at past ⊢
    exact past.trans_le later
  · rfl

theorem StrsOnly.jumpTo {s : State} (only : StrsOnly s) {t : Mc} (later : s.time ≤ t) : StrsOnly (jumpTo s t) where
  updates := only.updates
  copies := only.copies
  sent := only.sent
  coming := only.coming
  heads := only.heads
  entries := by
    have none := only.entries
    simp only [entryDues, List.flatMap_eq_nil_iff, List.filter_eq_nil_iff, decide_eq_true_eq, not_lt] at none ⊢
    exact fun l hl d hd => (none l hl d hd).trans later
  wakes := fun h => timerWakes_jumpTo later (only.wakes h)
  mbist := only.mbist
  lines := only.lines

/-! ### What happens in one of its mc -/

section
variable {s : State}

theorem portArrivals_none {a : AnvilPort} (none : a.coming = []) : portArrivals s a = s := by simp [portArrivals, none, sortBy]

theorem arrivals_none (none : s.buf.anvils.flatMap (fun a => a.coming.map (·.due)) = []) : arrivals s = s := by
  have each : ∀ a ∈ s.buf.anvils, a.coming = [] := by simpa [List.flatMap_eq_nil_iff] using none
  refine List.foldlRecOn (motive := fun u => u = s) s.buf.anvils portArrivals rfl fun u hu a ha => ?_
  rw [hu]
  exact portArrivals_none (each a ha)

theorem freeHeads_none (none : s.buf.rings.flatMap (fun x => x.releasing.map Prod.fst) = []) : freeHeads s = s := by
  have each : ∀ x ∈ s.buf.rings, x.releasing = [] := by simpa [List.flatMap_eq_nil_iff] using none
  have same : ∀ f : RingSt → RingSt, updWhere (fun x => x.releasing.any fun r => decide (r.1 ≤ s.time)) f s.buf.rings = s.buf.rings := by
    intro f
    refine (List.map_congr_left fun x hx => ?_).trans (List.map_id _)
    simp [each x hx]
  simp only [freeHeads, same]

theorem wakeTimers_none (none : ∀ h, timerWakes s h = []) : wakeTimers s = s := by simp [wakeTimers, none]

/-- Before the STRs, nothing happens. -/
theorem beforeStrs (only : StrsOnly s) : freeHeads (arrivals (wakeTimers (endMbist s))) = s := by
  have mbist : endMbist s = s := by simp [endMbist, only.mbist]
  rw [mbist, wakeTimers_none only.wakes, arrivals_none only.coming, freeHeads_none only.heads]

/-- After the STRs, nothing happens that is not due. -/
theorem afterStrs (later : ∀ u ∈ s.ctr.updates, s.time < u.due) (copies : s.ctr.copyMsgs = [])
    (sent : s.run.reqs.filterMap sentDue = []) : followSent (applyCopies (applyUpdates s)) = s := by
  have due : s.ctr.updates.filter (fun u => decide (u.due ≤ s.time)) = [] :=
    List.filter_eq_nil_iff.2 fun u hu => by simpa using later u hu
  have kept : s.ctr.updates.filter (fun u => decide (s.time < u.due)) = s.ctr.updates :=
    List.filter_eq_self.2 fun u hu => by simpa using later u hu
  have updates : applyUpdates s = s := by simp [applyUpdates, due, kept, sortBy]
  have none : applyCopies s = s := by
    have same : { s with ctr := { s.ctr with copyMsgs := [] } } = s := by rw [← copies]
    simpa [applyCopies, copies, sortBy] using same
  have follows : s.run.reqs.filter (fun r => (sentDue r).any (· ≤ s.time)) = [] := by
    rw [List.filterMap_eq_nil_iff] at sent
    exact List.filter_eq_nil_iff.2 fun r hr => by simp [sent r hr]
  simp [updates, none, followSent, follows]

/-- STRs that land change the memory, and have no lines left to write. -/
theorem landStrs_frame {w : StrWrite} (one : s.buf.strs = [w]) : ∃ m w', w'.id = w.id ∧ w'.due = w.due ∧
    landStrs s = { s with mem := m, buf := { s.buf with strs := [w'] } } := by
  cases load : w.load with
  | none =>
    refine ⟨s.mem, w, rfl, rfl, ?_⟩
    have same : { s with mem := s.mem, buf := { s.buf with strs := [w] } } = s := by rw [← one]
    rw [same]
    have again : { s with buf := { s.buf with strs := [w] } } = s := by rw [← one]
    simp [landStrs, one, load, updWhere, again]
  | some l =>
    obtain ⟨due, a, bs⟩ := l
    by_cases ready : due ≤ s.time
    · refine ⟨(writeBank s .schedule none a bs).mem, { w with load := none }, rfl, rfl, ?_⟩
      simp only [landStrs, one, load, ready, List.filter_cons, List.filter_nil, Option.map_some, Option.getD_some, decide_true, if_true,
        List.foldl_cons, List.foldl_nil, updWhere]
      rw [writeBank_frame]
      simp [one, load, ready]
    · refine ⟨s.mem, w, rfl, rfl, ?_⟩
      have again : { s with buf := { s.buf with strs := [w] } } = s := by rw [← one]
      simp [landStrs, one, load, ready, updWhere, again]

/-- A SIG of a local counter whose last store has its response starts its update. -/
theorem releaseSigs_one {x : StoreSig} {i k : Nat} {a c : Bool} (none : s.buf.strs = []) (one : s.buf.sigs = [x]) (needs : x.needs = [i])
    (stores : ∀ y ∈ s.buf.stores, y.id ≠ i) (loc : vEntry s x.ctx x.vid = .loc k a c) (whole : s.halfReset = ⟨false, false⟩) :
    releaseSigs s = { s with
      buf := { s.buf with sigs := [] }
      ctr := { s.ctr with updates := s.ctr.updates ++
        [{ ctr := k, amount := x.n, gen := x.gen, half := x.half, due := s.time + releaseDelay k x.half }] } } := by
  have here (h : Half) : s.halfReset.get h = false := by rw [whole]; cases h <;> rfl
  have answered : s.buf.stores.any (fun y => y.id == i) = false := List.any_eq_false.2 fun y hy => by simpa using stores y hy
  unfold vEntry at loc
  simp [releaseSigs, none, one, needs, answered, releaseSig, vEntry, loc, sendUpdate, here]

/-- The machine once the STR's lines have landed, as far as their mc has come. -/
def landed (s : State) (m : Mem) (w : StrWrite) : State := { s with mem := m, buf := { s.buf with strs := [w] } }

theorem StrsOnly.landed (only : StrsOnly s) (m : Mem) (w : StrWrite) : StrsOnly (landed s m w) :=
  ⟨only.updates, only.copies, only.sent, only.coming, only.heads, only.entries, only.wakes, only.mbist, only.lines⟩

/-- An mc before the STR's response: its lines may land. -/
theorem tick_waits {w : StrWrite} (only : StrsOnly s) (one : s.buf.strs = [w]) (early : s.time < w.due) :
    ∃ m w', w'.id = w.id ∧ w'.due = w.due ∧ tick s = landed s m w' := by
  obtain ⟨m, w', id, due, lands⟩ := landStrs_frame one
  have waits : answerStrs (landed s m w') = landed s m w' := by simp [answerStrs, landed, due, early]
  have only' := only.landed m w'
  refine ⟨m, w', id, due, ?_⟩
  simp only [tick]
  rw [beforeStrs only, lands, ← landed, waits, afterStrs (by rw [only'.updates]; simp) only'.copies only'.sent, only'.lines]
  rfl

/-- The machine once the STR has its response, and the SIG `x` of counter `k` has started its update. -/
def answered (s : State) (m : Mem) (x : StoreSig) (k : Nat) : State :=
  { s with
    mem := m, buf := { s.buf with strs := [], sigs := [] }
    ctr := { s.ctr with updates := s.ctr.updates ++
      [{ ctr := k, amount := x.n, gen := x.gen, half := x.half, due := s.time + releaseDelay k x.half }] } }

/-- The mc of the STR's response: the SIG that waits for it starts its update. -/
theorem tick_answers {w : StrWrite} {x : StoreSig} {k : Nat} {a c : Bool} (only : StrsOnly s) (one : s.buf.strs = [w])
    (sigs : s.buf.sigs = [x]) (needs : x.needs = [w.id]) (stores : ∀ y ∈ s.buf.stores, y.id ≠ w.id)
    (loc : vEntry s x.ctx x.vid = .loc k a c) (whole : s.halfReset = ⟨false, false⟩) (due : w.due ≤ s.time) :
    ∃ m, tick s = answered s m x k := by
  obtain ⟨m, w', -, due', lands⟩ := landStrs_frame one
  have come : w'.due ≤ s.time := due'.trans_le due
  have answers : answerStrs (landed s m w') = answered s m x k := by
    have now : (landed s m w').buf.strs.any (fun y => decide (y.due ≤ (landed s m w').time)) = true := by simp [landed, come]
    have none : (landed s m w').buf.strs.filter (fun y => decide ((landed s m w').time < y.due)) = [] := by
      simp [landed, Nat.not_lt.2 come]
    unfold answerStrs
    rw [if_pos now, none]
    exact releaseSigs_one (s := { landed s m w' with buf := { (landed s m w').buf with strs := [] } }) rfl sigs needs stores loc whole
  have delay : 0 < releaseDelay k x.half := by unfold releaseDelay; split <;> omega
  have later : ∀ u ∈ (answered s m x k).ctr.updates, s.time < u.due := by
    simp only [answered, only.updates, List.nil_append, List.mem_singleton, forall_eq]
    exact Nat.lt_add_of_pos_right delay
  refine ⟨m, ?_⟩
  simp only [tick]
  rw [beforeStrs only, lands, ← landed, answers, afterStrs (s := answered s m x k) later only.copies only.sent]
  exact if_neg (Bool.eq_false_iff.1 only.lines)

end

/-- Nothing is left to happen up to the present mc. -/
theorem advanceTo_now {s : State} {t : Mc} (f : Nat) (now : s.time = t) : advanceTo f s t = jumpTo s t := by
  cases f with
  | zero => rfl
  | succ f =>
    unfold advanceTo
    split
    · rename_i e next
      obtain ⟨d, -, rfl⟩ := Option.map_eq_some_iff.1 next
      exact if_neg fun by' => Nat.not_succ_le_self s.time (((Nat.le_max_left ..).trans by').trans now.ge)
    · rfl

theorem fuel_left {now next due f : Nat} (ahead : now < next) (fuel : due - now ≤ f + 1) : due - next ≤ f := by omega

/-- Up to the STR's response, at which the SIG that waits for it starts its update. -/
theorem advanceTo_answers {x : StoreSig} {n due k : Nat} {a c : Bool} (needs : x.needs = [n]) : ∀ (f : Nat) (s : State) (w : StrWrite),
    StrsOnly s → s.buf.strs = [w] → w.id = n → w.due = due → s.buf.sigs = [x] → (∀ y ∈ s.buf.stores, y.id ≠ n) →
    vEntry s x.ctx x.vid = .loc k a c → s.halfReset = ⟨false, false⟩ → s.time < due → due - s.time ≤ f →
    (advanceTo f s due).ctr.updates =
      [{ ctr := k, amount := x.n, gen := x.gen, half := x.half, due := due + releaseDelay k x.half }]
  | 0, _, _, _, _, _, _, _, _, _, _, early, fuel => absurd (Nat.sub_pos_of_lt early) (Nat.not_lt.2 fuel)
  | f + 1, s, w, only, one, wid, wdue, sigs, stores, loc, whole, early, fuel => by
    obtain ⟨e, next, ahead, by'⟩ : ∃ e, nextEvent s = some e ∧ s.time < e ∧ e ≤ due := by
      rw [nextEvent_strsOnly only, one]
      obtain ⟨d, first⟩ : ∃ d, minBy id (w.due :: (w.load.map Prod.fst).toList) = some d :=
        Option.isSome_iff_exists.1 (by simp [minBy_isSome])
      have least : d ≤ w.due := minBy_le first w.due (by simp)
      exact ⟨max (s.time + 1) d, by simp [first], (Nat.lt_succ_self _).trans_le (Nat.le_max_left ..), Nat.max_le.2 ⟨early, least.trans wdue.le⟩⟩
    unfold advanceTo
    simp only [next, by', if_true]
    have only' := only.jumpTo ahead.le
    rcases Nat.lt_or_ge e due with before | at'
    · obtain ⟨m, w', id', due', ticks⟩ := tick_waits only' one (wdue.symm ▸ before)
      rw [ticks]
      exact advanceTo_answers needs f _ w' (only'.landed m w') rfl (id'.trans wid) (due'.trans wdue) sigs stores loc whole before
        (fuel_left ahead fuel)
    · have now : e = due := Nat.le_antisymm by' at'
      subst now
      obtain ⟨m, ticks⟩ := tick_answers only' one sigs (wid.symm ▸ needs) (wid.symm ▸ stores) loc whole wdue.le
      rw [ticks, show advanceTo f (answered (jumpTo s e) m x k) e = _ from advanceTo_now f rfl]
      simp [jumpTo, answered, only.updates]

/-- The STR's response releases the SIG that waits for it. -/
theorem atTime_answers {u : State} {w : StrWrite} {x : StoreSig} {k : Nat} {a c : Bool} (one : u.buf.strs = [w]) (sigs : u.buf.sigs = [x])
    (needs : x.needs = [w.id]) (stores : ∀ y ∈ u.buf.stores, y.id ≠ w.id) (early : u.time < w.due)
    (quiet : nextEvent { u with buf := { u.buf with strs := [] } } = none) (loc : vEntry u x.ctx x.vid = .loc k a c)
    (whole : u.halfReset = ⟨false, false⟩) :
    (atTime u w.due).ctr.updates =
      [{ ctr := k, amount := x.n, gen := x.gen, half := x.half, due := w.due + releaseDelay k x.half }] := by
  rw [atTime_ahead early]
  exact advanceTo_answers needs _ u w (strsOnly_of_nextEvent quiet) one rfl rfl sigs stores loc whole early (Nat.le_refl _)

/-- Settles O59: a bundle of one operation is accepted, or raises LATE; DRAIN_COMPLETE and READY by their own cases; and up to the response
of an STR nothing else happens. -/
theorem bundlesPaceSignalAndDrain : Obligations.BundlesPaceSignalAndDrain := by
  unfold Obligations.BundlesPaceSignalAndDrain
  intro s0 t b o s m ctx
  refine ⟨fun one => ⟨?_, ?_, ?_, ?_, ?_⟩, ?_, ?_, ?_⟩
  · intro c hc named late u
    simp only [List.mem_cons, List.not_mem_nil, or_false] at hc
    rcases hc with rfl | rfl | rfl | rfl | rfl <;> exact bundle_late rfl one named (by decide) late
  · intro named room fs
    exact feed_accepted rfl one named room
  · intro x c named hc hx room only
    exact pace_accepted rfl one named hc hx room
  · intro k a c named loc whole open' n up held
    exact sig_accepted rfl one named loc whole
  · intro v k a c named counter loc waits rings d
    exact drain_accepted rfl one named counter loc waits
  · intro d g c0 v k x fq a c run drains own rings only whole counter loc batch n
    exact ⟨drainComplete_waits rfl run drains own rings only,
      fun filled more => drainComplete_drains rfl run drains own rings only whole counter loc batch filled more⟩
  · intro x run at' late
    refine ⟨fun sound may => ⟨readied s ctx, ready_rises rfl run at' late sound may, mem_ready_readied.2 (.inl rfl), fun y other => ?_,
      getCtx_readied at' late, rfl⟩, ready_waits rfl at'⟩
    exact mem_ready_readied.trans (or_iff_right other)
  · intro u w x k a c one sigs needs stores early quiet loc whole
    exact atTime_answers one sigs needs stores early quiet loc whole

end Sys2Proof.Machine
end

section
/-! What a write leaves of the memory, and a wait that parks (R75, R230, R320). -/

namespace Sys2Proof.Machine

/-! ### Bytes outside a write -/

/-- A write in one line leaves the bytes outside it. -/
theorem memByte_memWriteLine {m : Mem} (wf : m.wf) {a b : Nat} {bs : List SByte} (out : b < a ∨ a + bs.length ≤ b) :
    memByte (memWriteLine m a bs) b = memByte m b := by
  have stored : memByte (memStore m a (bs.map Prod.fst)) b = memByte m b :=
    memByte_store_other wf a b _ (by simpa using out)
  unfold memWriteLine
  dsimp only
  split
  · exact stored
  · split <;> exact stored

theorem memByte_linePieces {b : Nat} : ∀ (n a : Nat) (bs : List SByte) (m : Mem), m.wf → (b < a ∨ a + bs.length ≤ b) →
    memByte ((linePieces n a bs).foldl (fun m p => memWriteLine m p.1 p.2) m) b = memByte m b
  | 0, _, _, _, _, _ => rfl
  | n + 1, a, bs, m, wf, out => by
    unfold linePieces
    split
    · rfl
    · rw [List.foldl_cons, memByte_linePieces n _ _ _ (memWriteLine_wf wf ..) (by simp only [List.length_drop]; omega)]
      exact memByte_memWriteLine wf (by simp only [List.length_take]; omega)

/-- A write leaves the bytes outside it. -/
theorem memByte_memWrite {m : Mem} (wf : m.wf) {a b : Nat} {bs : List SByte} (out : b < a ∨ a + bs.length ≤ b) :
    memByte (memWrite m a bs) b = memByte m b := memByte_linePieces _ a bs m wf out

/-- Byte `b` lies in no write of mc `now` that a bank may grant again. -/
def OffWrites (m : Mem) (now : Mc) (b : Nat) : Prop := ∀ w ∈ m.recent, w.at' = now → b < w.addr ∨ w.addr + w.data.length ≤ b

/-- A write of the Stockpile leaves the bytes outside it and outside the writes that are granted after it. -/
theorem memByte_bankWrite {m : Mem} (wf : m.wf) {now : Mc} {rank a b : Nat} {bs : List SByte} (off : OffWrites m now b)
    (out : b < a ∨ a + bs.length ≤ b) :
    (bankWrite m now rank a bs).wf ∧ OffWrites (bankWrite m now rank a bs) now b ∧ memByte (bankWrite m now rank a bs) b = memByte m b := by
  refine ⟨bankWrite_wf wf .., ?_, ?_⟩
  · intro w hw at'
    simp only [bankWrite, List.mem_append, List.mem_filter, List.mem_singleton] at hw
    rcases hw with (⟨⟨hw, -⟩, -⟩ | rfl) | ⟨⟨hw, -⟩, -⟩
    · exact off w hw at'
    · exact out
    · exact off w hw at'
  · have replay : ∀ (l : List BankWrite) (m1 : Mem), m1.wf → (∀ w ∈ l, b < w.addr ∨ w.addr + w.data.length ≤ b) →
        memByte (l.foldl (fun m w => memWrite m w.addr w.data) m1) b = memByte m1 b := by
      intro l
      induction l with
      | nil => exact fun _ _ _ => rfl
      | cons w ws ih =>
        intro m1 wf1 off1
        rw [List.foldl_cons, ih _ (memWrite_wf wf1 ..) fun x hx => off1 x (List.mem_cons_of_mem w hx)]
        exact memByte_memWrite wf1 (off1 w (List.mem_cons_self ..))
    refine (replay _ _ (memWrite_wf wf ..) fun w hw => ?_).trans (memByte_memWrite wf out)
    obtain ⟨hw, -⟩ := List.mem_filter.1 hw
    obtain ⟨hw, at'⟩ := List.mem_filter.1 hw
    exact off w hw (by simpa using at')

/-- The same of a write that the state may not let through. -/
theorem memByte_writeBank {s : State} (wf : s.mem.wf) {w : Writer} {a b : Nat} {bs : List SByte} (off : OffWrites s.mem s.time b)
    (out : b < a ∨ a + bs.length ≤ b) : memByte (writeBank s w none a bs).mem b = memByte s.mem b := by
  unfold writeBank writeLocal
  split
  · exact (memByte_bankWrite wf off out).2.2
  · split
    · rfl
    · exact memByte_memWrite wf out

/-! ### A wait that parks (R75, R76) -/

theorem getReq_of_mem {s : State} {r : Request} (each : OneRequestPerId s) (mem : r ∈ s.run.reqs) : getReq s r.id = some r := by
  obtain ⟨x, hx⟩ : ∃ x, s.run.reqs.find? (·.id == r.id) = some x := Option.isSome_iff_exists.1 (List.find?_isSome.2 ⟨r, mem, by simp⟩)
  have same : x.id = r.id := by simpa using List.find?_some hx
  rw [getReq, hx, List.inj_on_of_nodup_map each (List.mem_of_find?_eq_some hx) mem same]

/-- A request that stands in its place with the same parking record leaves the parking records that are in use. -/
theorem usedParking_setReq {s : State} {r y : Request} (each : OneRequestPerId s) (mem : r ∈ s.run.reqs) (id : y.id = r.id) (ctx : y.ctx = r.ctx)
    (parked : y.parkedIn = r.parkedIn) (c : Nat) : usedParking (setReq s y) c = usedParking s c := by
  simp only [usedParking, setReq, updWhere, List.filterMap_filter, List.filterMap_map]
  refine List.filterMap_congr fun x hx => ?_
  by_cases same : x.id = y.id
  · have xr : x = r := List.inj_on_of_nodup_map each hx mem (same.trans id)
    simp [id, xr, ctx, parked]
  · simp [same]

section
variable {s0 s v : State} {t : Mc} {h : HaulerId} {r y : Request} {i : HInstr} {row : String} {k : State → Request → HInstr → Flow} {w : Wait}

/-- What a wait needs of the machine `v` in which it begins: `v` differs from `s` in the request, the segments and what no wait looks at. -/
structure WaitsIn (s v : State) (r y : Request) : Prop where
  shell  : Shell s v
  ctr    : v.ctr = s.ctr
  q      : v.q = s.q
  mem    : v.mem = s.mem
  time   : v.time = s.time
  cfg    : v.cfg = s.cfg
  next   : v.run.nextWait = s.run.nextWait
  at'    : getReq v r.id = some y
  used   : ∀ c, usedParking v c = usedParking s c
  id     : y.id = r.id
  pc     : y.pc = r.pc
  done   : y.pass.done = r.pass.done
  fin    : y.fin = none
  hauler : y.hauler.isSome = true

theorem WaitsIn.at_id (waits : WaitsIn s v r y) {u : State} {z : Request} (at' : getReq u r.id = some z) : getReq u y.id = some z := by
  rw [waits.id, at']

theorem freeParking_waits (waits : WaitsIn s v r y) (c : Nat) : freeParking v c = freeParking s c := by
  simp only [freeParking, stagingCfg, waits.cfg, waits.used]

/-- A request that has waited at its word has not passed it. -/
theorem noteProgress_waits {u : State} {z : Request} (at' : getReq u r.id = some z) (waits : z.wait.isSome = true) (pc : z.pc = r.pc)
    (done : z.pass.done = r.pass.done) : noteProgress r (.stop u) = .stop u := by
  have some : z.wait.isNone = false := by cases hz : z.wait <;> simp_all
  simp [noteProgress, at', some, pc, done]

/-- The machine in which a fresh wait that parks has begun. -/
theorem beginWait_parks (fresh : y.wait ≠ some w) (parks : waitParks w = true) (on : y.hauler.isSome = true) :
    beginWait v y w = { park v (startWait v y w) with run := { (park v (startWait v y w)).run with
      nextWait := (park v (startWait v y w)).run.nextWait + 1 } } := by
  have new : (y.wait != some w) = true := by simpa using fresh
  simp only [beginWait, new, if_true, parks, Bool.true_and]
  rw [if_pos (by simp [startWait, on])]

/-- The result of a command that begins a wait which parks. -/
theorem withInstr_waits (now : atInstr s0 t h (isRow i) = s) (named : isRow i = row) (runs : RunsInstr s h r i) (waits : WaitsIn s v r y)
    (fresh : y.wait ≠ some w) (parks : waitParks w = true) (goes : k s r i = .stop (beginWait v y w)) :
    withInstr t h row s0 k = .next (beginWait v y w) ∧ Waits s (withInstr t h row s0 k) y w true := by
  have mem : y ∈ v.run.reqs := (getReq_some waits.at').1
  have begins := beginWait_parks (v := v) fresh parks waits.hauler
  have result {z : Request} (at' : getReq (beginWait v y w) r.id = some z) (wait : z.wait.isSome = true) (pc : z.pc = r.pc)
      (done : z.pass.done = r.pass.done) (shell : Shell v (beginWait v y w)) : withInstr t h row s0 k = .next (beginWait v y w) := by
    rw [withInstr_runs now named runs, goes, noteProgress_waits at' wait pc done]
    exact Shell.answer (((now ▸ atInstr_shell ..).trans waits.shell).trans shell)
  have haul : y.hauler.getD 128 = (startWait v y w).hauler.getD 128 := rfl
  have place (j : Nat) : parkingLocal v y.ctx j = parkingLocal s y.ctx j := by simp only [parkingLocal, stagingCfg, waits.cfg]
  cases free : freeParking s y.ctx with
  | none =>
    have parked := park_full (s := v) (r := startWait v y w) ((freeParking_waits waits _).trans free)
    have at' : getReq (beginWait v y w) r.id = some { startWait v y w with stays := true } := by
      rw [begins, parked, ← waits.id]
      exact getReq_setReq (s := v) mem rfl
    have shell : Shell v (beginWait v y w) := by rw [begins, parked]; exact ⟨rfl, rfl, rfl⟩
    have next := result at' rfl waits.pc waits.done shell
    refine ⟨next, _, next, ?_, ?_, ?_⟩
    · rw [begins, parked]; exact waits.ctr
    · rw [begins, parked]; exact waits.q
    · simp only [if_true, free]
      refine ⟨(waits.at_id at').trans ?_, ?_⟩
      · simp only [startWait, waits.time, waits.next]
      · rw [begins, parked]; exact waits.mem
  | some j =>
    have parked := park_free (s := v) (r := startWait v y w) ((freeParking_waits waits _).trans free)
    have at' : getReq (beginWait v y w) r.id = some (parkedAs (startWait v y w) j) := by
      rw [begins, parked, ← waits.id]
      exact getReq_setReq (s := lowerRequests { v with mem := parkMem v (startWait v y w) j } (.request y.id)) mem rfl
    have shell : Shell v (beginWait v y w) := by rw [begins, parked]; exact ⟨rfl, rfl, rfl⟩
    have next := result at' rfl waits.pc waits.done shell
    refine ⟨next, _, next, ?_, ?_, ?_⟩
    · rw [begins, parked]; exact waits.ctr
    · rw [begins, parked]; exact waits.q
    · simp only [if_true, free]
      refine ⟨(waits.at_id at').trans ?_, fun wf a out off => ?_⟩
      · simp only [parkedAs, startWait, waits.time, waits.next, waits.fin, Option.isSome_none, Bool.false_eq_true, if_false]
      · rw [begins, parked]
        refine (memByte_writeBank (s := v) (by rw [waits.mem]; exact wf) (by rw [waits.mem, waits.time]; exact off) ?_).trans (by rw [waits.mem])
        rw [show (startWait v y w).ctx = y.ctx from rfl, place]
        simpa [good] using out

end

end Sys2Proof.Machine
end

section
/-! PREFETCH and ADVISE (R101, R347, R348). -/

namespace Sys2Proof.Machine

/-! ### Segments that change -/

/-- What a change of a slot's one segment leaves in the table. -/
theorem updSeg_only {s : State} {ctx slot : Nat} {f : Segment → Segment} :
    updSeg s ctx slot f = { s with seg := { s.seg with segs := withSegment s ctx slot (changeSeg s.time f) } } := rfl

/-- The one segment of a slot is the one that the slot names. -/
theorem withSegment_congr {s : State} {ctx slot : Nat} {g : Segment} {f f' : Segment → Segment}
    (only : ∀ y ∈ s.seg.segs, y.cfg.ctx = ctx → y.cfg.index = slot → y = g) (same : f g = f' g) :
    withSegment s ctx slot f = withSegment s ctx slot f' := by
  refine List.map_congr_left fun x hx => ?_
  split
  · rename_i named
    simp only [Bool.and_eq_true, beq_iff_eq] at named
    rw [only x hx named.1 named.2, same]
  · rfl

/-- A change of a segment that leaves its blocks. -/
theorem changeSeg_sameBlocks {now : Mc} {f : Segment → Segment} {g : Segment} (same : (f g).blocks = g.blocks) : changeSeg now f g = f g := by
  simp [changeSeg, same]

/-- A segment that has accepted the mover's promotion of its block `b`, its first drain, in mc `now`. -/
def promoted (g : Segment) (b : Nat) (now : Mc) : Segment :=
  { g with epoch := !g.epoch
           drains := [{ act := .promote true, first := b, count := 1, started := true, op := none, taken := now }] }

/-- The segments once the block `b` of slot `slot` is being promoted. -/
def promotedIn (s : State) (ctx slot b : Nat) (g : Segment) : State :=
  { s with seg := { s.seg with segs := withSegment s ctx slot fun _ => promoted g b s.time } }

section
variable {s : State} {ctx slot b : Nat} {g : Segment}

theorem startPromotion_fresh (named : getSeg s ctx slot = some g) (only : ∀ y ∈ s.seg.segs, y.cfg.ctx = ctx → y.cfg.index = slot → y = g)
    (kind : g.cfg.kind = .migratable) (inHost : (blockOf g b).st = .inHost) (idle : g.drains = []) :
    startPromotion s ctx slot b = promotedIn s ctx slot b g := by
  have free : promoting g b = false := by simp [promoting, inHost, isMoving, idle]
  simp only [startPromotion, named, kind, inHost, free, beq_self_eq_true, Bool.not_false, Bool.and_self, if_true, acceptDrain, updSeg_only,
    promotedIn]
  rw [withSegment_congr only (f' := fun _ => promoted g b s.time)]
  rw [changeSeg_sameBlocks (by simp [startDrain, idle])]
  simp [startDrain, idle, promoted]

/-- The slot then names the segment that promotes. -/
theorem getSeg_promotedIn (named : getSeg s ctx slot = some g) : getSeg (promotedIn s ctx slot b g) ctx slot = some (promoted g b s.time) := by
  have mine : (g.cfg.ctx == ctx && g.cfg.index == slot) = true :=
    List.find?_some (p := fun x : Segment => x.cfg.ctx == ctx && x.cfg.index == slot) named
  have keeps (x : Segment) : ((if x.cfg.ctx == ctx && x.cfg.index == slot then promoted g b s.time else x).cfg.ctx == ctx &&
      (if x.cfg.ctx == ctx && x.cfg.index == slot then promoted g b s.time else x).cfg.index == slot) =
      (x.cfg.ctx == ctx && x.cfg.index == slot) := by
    split
    · rename_i yours
      exact mine.trans yours.symm
    · rfl
  simp only [getSeg] at named
  simp only [getSeg, promotedIn, withSegment]
  rw [find?_map_of_keeps keeps, named]
  simp only [Option.map_some, mine, if_true]

theorem promoted_waits (inHost : (blockOf g b).st = .inHost) (now : Mc) : prefetched (promoted g b now) b = false := by
  have same : blockOf (promoted g b now) b = blockOf g b := rfl
  have under : promoting (promoted g b now) b = true := by simp [promoting, promoted]
  simp [prefetched, same, inHost, under]

end

/-! ### Blocks of a span -/

section
variable {s u v : State} {r y : Request} {soon w : Bool} {act : State → Nat × Nat → Flow} {x : Nat × Nat} {bs : List (Nat × Nat)}

/-- Blocks on which nothing is to be done. -/
theorem actBlocks_idle (here : getReq s r.id = some r) (fresh : r.pass.taken = []) : ∀ bs : List (Nat × Nat),
    (∀ x ∈ bs, blockWaits s r.ctx soon x = false ∧ act s x = .go s) → actBlocks soon act r.id s bs = .go s
  | [], _ => rfl
  | x :: xs, idle => by
    obtain ⟨ready, acts⟩ := idle x (List.mem_cons_self ..)
    simp only [actBlocks, here, fresh, List.contains_nil, Bool.false_eq_true, if_false, ready, acts]
    exact actBlocks_idle here fresh xs fun y hy => idle y (List.mem_cons_of_mem x hy)

/-- One block that is acted on. -/
theorem actBlocks_one (here : getReq s r.id = some r) (fresh : r.pass.taken = []) (ready : blockWaits s r.ctx soon x = false)
    (acts : act s x = .go u) : actBlocks soon act r.id s [x] = .go u := by
  simp only [actBlocks, here, fresh, List.contains_nil, Bool.false_eq_true, if_false, ready, acts]

/-- The request, which has acted on the block `x`. -/
def tookOf (r : Request) (x : Nat × Nat) : Request := { r with pass := { r.pass with taken := [blockKey x] } }

theorem tookBlock_eq (here : getReq s r.id = some r) (fresh : r.pass.taken = []) : tookBlock s r.id x = setReq s (tookOf r x) := by
  simp only [tookBlock, here, fresh, tookOf]

/-- A request whose instruction ends keeps nothing of the block that it took. -/
theorem endSpan_took (start : r.pass = PassState.start) : endSpan (setReq u (tookOf r x)) (tookOf r x) = goNext u r := by
  have back : { tookOf r x with pass := PassState.start } = r := by rw [← start]; rfl
  rw [endSpan, back, goNext, goNext, setReq_setReq (x := tookOf r x) (y := advance r) (advance_id r).symm]

/-- A block stands as PREFETCH wants it. -/
def Fetched (u : State) (ctx : Nat) (x : Nat × Nat) : Prop := ∀ g, getSeg u ctx x.1 = some g → prefetched g x.2 = true

/-- PREFETCH is over once it has acted on its blocks and waits for none of them. -/
theorem prefetchSpan_ends {sh : ShapeSet} (span : shapeBlocks s r.ctx sh = some bs)
    (acted : actBlocks true (prefetchBlock r.id r.ctx (spanLow sh) w) r.id s bs = .go u) (at' : getReq u r.id = some y)
    (ready : w = true → ∀ x ∈ bs, Fetched u r.ctx x) : prefetchSpan s r sh w = endSpan u y := by
  simp only [prefetchSpan, span, acted, Flow.bind, at']
  cases w with
  | false => rfl
  | true =>
    have none' : (bs.filter fun x => ((getSeg u r.ctx x.1).map fun g => !prefetched g x.2).getD false) = [] := by
      refine List.filter_eq_nil_iff.2 fun x hx => ?_
      cases named : getSeg u r.ctx x.1 with
      | none => simp
      | some g => simp [ready rfl x hx g named]
    rw [none']
    rfl

/-- PREFETCH waits for the one block of its span while it is not as it wants it, and not ABSENT. -/
theorem prefetchSpan_waits {sh : ShapeSet} {slot b : Nat} {g : Segment} (span : shapeBlocks s r.ctx sh = some [(slot, b)])
    (acted : actBlocks true (prefetchBlock r.id r.ctx (spanLow sh) true) r.id s [(slot, b)] = .go u) (at' : getReq u r.id = some y)
    (named : getSeg u r.ctx slot = some g) (open' : prefetched g b = false) (there : (blockOf g b).st ≠ .absent) :
    prefetchSpan s r sh true = .stop (beginWait u y (.prefetch slot b 1)) := by
  simp only [prefetchSpan, span, acted, Flow.bind, at']
  simp [named, open', blockState, there, runOf]

end

/-! ### The words -/

section
variable {s0 s : State} {t : Mc} {h : HaulerId} {r : Request} {i : HInstr} {row : String} {k : State → Request → HInstr → Flow}
  {sh : ShapeSet} {w : Bool} {slot b : Nat} {g : Segment}

theorem blockWaits_inFrame {s : State} {ctx f : Nat} {x : Nat × Nat} {soon : Bool} {g : Segment} (named : getSeg s ctx x.1 = some g)
    (free : isHeld s.time g x.2 = false) (rests : (blockOf g x.2).st = .inFrame f) : blockWaits s ctx soon x = false := by
  simp [blockWaits, named, free, rests, isMoving]

/-- A span whose blocks are all in their frames: nothing is to be done. -/
theorem prefetchSpan_inFrame {bs : List (Nat × Nat)} (here : getReq s r.id = some r) (start : r.pass = PassState.start)
    (span : shapeBlocks s r.ctx sh = some bs)
    (frames : ∀ x ∈ bs, ∃ g f, getSeg s r.ctx x.1 = some g ∧ isHeld s.time g x.2 = false ∧ (blockOf g x.2).st = .inFrame f) :
    prefetchSpan s r sh w = goNext s r := by
  have fresh : r.pass.taken = [] := by rw [start]; rfl
  have acted : actBlocks true (prefetchBlock r.id r.ctx (spanLow sh) w) r.id s bs = .go s := by
    refine actBlocks_idle here fresh bs fun x hx => ?_
    obtain ⟨g, f, named, free, rests⟩ := frames x hx
    exact ⟨blockWaits_inFrame named free rests, by simp [prefetchBlock, blockState, named, rests]⟩
  rw [prefetchSpan_ends span acted here]
  · rw [endSpan, ← start]
  · intro _ x hx g' named'
    obtain ⟨g, f, named, -, rests⟩ := frames x hx
    obtain rfl : g = g' := Option.some.inj (named.symm.trans named')
    simp [prefetched, rests]

/-- The mover starts the promotion of the span's one block, which is IN_HOST. -/
theorem actBlocks_promotes (here : getReq s r.id = some r) (start : r.pass = PassState.start) (named : getSeg s r.ctx slot = some g)
    (only : ∀ y ∈ s.seg.segs, y.cfg.ctx = r.ctx → y.cfg.index = slot → y = g) (kind : g.cfg.kind = .migratable)
    (inHost : (blockOf g b).st = .inHost) (idle : g.drains = []) (free : isHeld s.time g b = false) (lo : Nat) :
    actBlocks true (prefetchBlock r.id r.ctx lo w) r.id s [(slot, b)] =
      .go (setReq (promotedIn s r.ctx slot b g) (tookOf r (slot, b))) := by
  have fresh : r.pass.taken = [] := by rw [start]; rfl
  refine actBlocks_one here fresh (by simp [blockWaits, named, free, inHost, isMoving]) ?_
  simp only [prefetchBlock, blockState, named, inHost]
  rw [tookBlock_eq here fresh, startPromotion_fresh (s := setReq s (tookOf r (slot, b))) named only kind inHost idle]
  rfl

/-- A block that takes a hint is marked with it. -/
def hinted (hint b : Nat) (y : Segment) : Segment :=
  setBlock y { blockOf y b with readMostly := decide (hint = 2), preferDevice := decide (hint = 3) }

theorem adviseBlock_marks {s : State} {ctx hint : Nat} (mark : hint = 2 ∨ hint = 3) :
    adviseBlock ctx hint s (slot, b) = updSeg s ctx slot (hinted hint b) := by
  rcases mark with rfl | rfl <;> rfl

/-- PREFETCH and WILL_NEED run the same span. -/
theorem prefetchWord {k : Nat} {w : Bool} {s0 : State} {t : Mc} {h : HaulerId} (word : i = .prefetch k w ∨ i = .advise k 0 ∧ w = false) :
    ∃ run : State → Request → HInstr → Flow, (∀ s r, run s r i = prefetchSpan s r (shapeOf r k) w) ∧
      exec (if i = .advise k 0 then Instr.advise t h else .prefetch t h) s0 = withInstr t h (isRow i) s0 run := by
  rcases word with rfl | ⟨rfl, rfl⟩
  · rw [if_neg (by simp)]
    change ∃ run, _ ∧ execPrefetch t h s0 = _
    unfold execPrefetch
    refine ⟨_, ?_, rfl⟩
    exact fun _ _ => rfl
  · rw [if_pos rfl]
    change ∃ run, _ ∧ execAdvise t h s0 = _
    unfold execAdvise
    refine ⟨_, ?_, rfl⟩
    exact fun _ _ => rfl

/-- A word whose one block is being promoted when it goes on (R347). -/
theorem withInstr_promotes (now : atInstr s0 t h (isRow i) = s) (runs : RunsInstr s h r i) (each : OneRequestPerId s)
    (start : r.pass = PassState.start) (span : shapeBlocks s r.ctx sh = some [(slot, b)]) (named : getSeg s r.ctx slot = some g)
    (only : ∀ y ∈ s.seg.segs, y.cfg.ctx = r.ctx → y.cfg.index = slot → y = g) (kind : g.cfg.kind = .migratable)
    (inHost : (blockOf g b).st = .inHost) (idle : g.drains = []) (free : isHeld s.time g b = false)
    (runsSpan : k s r i = prefetchSpan s r sh false) :
    withInstr t h (isRow i) s0 k = .next (passed (setReq (promotedIn s r.ctx slot b g) (advance r)) r) := by
  have mem := reqOn_mem runs.req
  refine withInstr_goesIn now rfl runs rfl ?_ ⟨rfl, rfl, rfl⟩ rfl
  rw [runsSpan, prefetchSpan_ends span (actBlocks_promotes (getReq_of_mem each mem) start named only kind inHost idle free _)
    (getReq_setReq (s := promotedIn s r.ctx slot b g) mem rfl) (by simp), endSpan_took start]

theorem park_seg (s : State) (r : Request) : (park s r).seg = s.seg := by
  obtain ⟨_, _, _, _, _, _, e⟩ := park_frame s r
  rw [e]
  rfl

/-- A word whose one block is being promoted, and that waits for it (R101, R347). -/
theorem withInstr_awaits (now : atInstr s0 t h (isRow i) = s) (runs : RunsInstr s h r i) (each : OneRequestPerId s)
    (start : r.pass = PassState.start) (on : r.hauler.isSome = true) (span : shapeBlocks s r.ctx sh = some [(slot, b)])
    (named : getSeg s r.ctx slot = some g)
    (only : ∀ y ∈ s.seg.segs, y.cfg.ctx = r.ctx → y.cfg.index = slot → y = g) (kind : g.cfg.kind = .migratable)
    (inHost : (blockOf g b).st = .inHost) (idle : g.drains = []) (free : isHeld s.time g b = false) (fresh : r.wait = none)
    (runsSpan : k s r i = prefetchSpan s r sh true) :
    Waits s (withInstr t h (isRow i) s0 k) (tookOf r (slot, b)) (.prefetch slot b 1) true ∧
      ∃ u, withInstr t h (isRow i) s0 k = .next u ∧ u.seg = (promotedIn s r.ctx slot b g).seg := by
  have mem := reqOn_mem runs.req
  have at' := getReq_setReq (s := promotedIn s r.ctx slot b g) (y := tookOf r (slot, b)) mem rfl
  have same : blockOf (promoted g b s.time) b = blockOf g b := rfl
  have waits : WaitsIn s (setReq (promotedIn s r.ctx slot b g) (tookOf r (slot, b))) r (tookOf r (slot, b)) :=
    { shell := ⟨rfl, rfl, rfl⟩, ctr := rfl, q := rfl, mem := rfl, time := rfl, cfg := rfl, next := rfl, at' := at'
      used := fun c => usedParking_setReq (s := promotedIn s r.ctx slot b g) (y := tookOf r (slot, b)) each mem rfl rfl rfl c
      id := rfl, pc := rfl, done := rfl, fin := runs.fin, hauler := on }
  have goes : k s r i =
      .stop (beginWait (setReq (promotedIn s r.ctx slot b g) (tookOf r (slot, b))) (tookOf r (slot, b)) (.prefetch slot b 1)) := by
    rw [runsSpan]
    exact prefetchSpan_waits (s := s) span (actBlocks_promotes (getReq_of_mem each mem) start named only kind inHost idle free _) at'
      (getSeg_promotedIn named) (promoted_waits inHost _) (by rw [same, inHost]; simp)
  obtain ⟨next, holds⟩ := withInstr_waits now rfl runs waits (by simp [tookOf, fresh]) rfl goes
  refine ⟨holds, _, next, ?_⟩
  rw [beginWait_parks (y := tookOf r (slot, b)) (by simp [tookOf, fresh]) rfl on]
  exact park_seg _ _

/-- ADVISE of a hint that marks the span's one block (R348). -/
theorem withInstr_marks {kk hint : Nat} (now : atInstr s0 t h (isRow (.advise kk hint)) = s) (runs : RunsInstr s h r (.advise kk hint))
    (each : OneRequestPerId s) (start : r.pass = PassState.start) (mark : hint = 2 ∨ hint = 3)
    (span : shapeBlocks s r.ctx (shapeOf r kk) = some [(slot, b)]) (named : getSeg s r.ctx slot = some g)
    (free : isHeld s.time g b = false) (rests : isMoving (blockOf g b).st = false) :
    exec (.advise t h) s0 = .next (passed (setReq (updSeg s r.ctx slot (hinted hint b)) (advance r)) r) := by
  have mem := reqOn_mem runs.req
  have taken : r.pass.taken = [] := by rw [start]; rfl
  have here := getReq_of_mem each mem
  have acted : actBlocks false (fun s x => .go (adviseBlock r.ctx hint (tookBlock s r.id x) x)) r.id s [(slot, b)] =
      .go (setReq (updSeg s r.ctx slot (hinted hint b)) (tookOf r (slot, b))) := by
    refine actBlocks_one here taken (by simp [blockWaits, named, free, rests]) ?_
    rw [tookBlock_eq here taken, adviseBlock_marks mark]
    rfl
  change execAdvise t h s0 = _
  unfold execAdvise
  refine withInstr_goesIn (u := updSeg s r.ctx slot (hinted hint b)) now rfl runs rfl ?_ ⟨rfl, rfl, rfl⟩ rfl
  have other : (hint == 0) = false := by rcases mark with rfl | rfl <;> rfl
  simp only [other, Bool.false_eq_true, if_false, span, acted, Flow.bind]
  rw [getReq_setReq (s := updSeg s r.ctx slot (hinted hint b)) (y := tookOf r (slot, b)) mem rfl]
  exact endSpan_took start

end

end Sys2Proof.Machine
end

section
/-! Plain ranges of the own package's memory (R333 to R335): their translation, and what a write of one leaves. -/

namespace Sys2Proof.Machine

section
variable {s : State} {ctx va n : Nat} {right : Right} {q : Piece}

/-- What a plain range says of the segment in which it lies. -/
theorem plainRange_segment (plain : PlainRange s ctx va n right q) {g : Segment} (seg : segOf s ctx va n = some g) :
    g.cfg.kind = .device ∧ hasRight g.cfg right = true ∧ g.holds = [] ∧ g.drains = [] ∧ q = backingPiece s g va n := by
  obtain ⟨g', seg', kind, allowed, -, -, holds, drains, piece⟩ := plain.seg
  obtain rfl : g' = g := Option.some.inj (seg'.symm.trans seg)
  exact ⟨kind, allowed, holds, drains, piece⟩

theorem plainRange_piece (plain : PlainRange s ctx va n right q) : PlainPiece s q ∧ q.len = n ∧ q.led = false := by
  obtain ⟨g, -, kind, -, enc, own, -, -, rfl⟩ := plain.seg
  refine ⟨⟨?_, ?_, rfl, plain.near, plain.awake⟩, rfl, ?_⟩
  · simp [backingPiece, own]
  · simp [backingPiece, enc]
  · simp [backingPiece, own, kind]

/-- A plain range is one in the machine whose requests have changed. -/
theorem plainRange_setReq (plain : PlainRange s ctx va n right q) (y : Request) : PlainRange (setReq s y) ctx va n right q :=
  ⟨plain.size, plain.seg, plain.mapped, plain.near, plain.awake⟩

theorem pieceMapped_plain (plain : PlainRange s ctx va n right q) : pieceMapped s q = true := by
  obtain ⟨w, low, high⟩ := plain.mapped
  obtain ⟨-, len, -⟩ := plainRange_piece plain
  simp [pieceMapped, len, low, high]

end

/-- Ranges with the plain pieces to which they translate. -/
def PlainNeeds (s : State) (ctx : Nat) : List Need → List Piece → Prop := List.Forall₂ fun x p => PlainRange s ctx x.1 x.2.1 x.2.2 p

/-- The needs that lie in a segment, with it. -/
def segNeeds (s : State) (ctx : Nat) (needs : List Need) : List (Need × Segment) :=
  (needs.map fun x => (x, segOf s ctx x.1 x.2.1)).filterMap fun x => x.2.map fun g => (x.1, g)

theorem mem_segNeeds {s : State} {ctx : Nat} {needs : List Need} {x : Need × Segment} (mem : x ∈ segNeeds s ctx needs) :
    x.1 ∈ needs ∧ segOf s ctx x.1.1 x.1.2.1 = some x.2 := by
  obtain ⟨y, hy, e⟩ := List.mem_filterMap.1 mem
  obtain ⟨z, hz, rfl⟩ := List.mem_map.1 hy
  obtain ⟨g, seg, rfl⟩ := Option.map_eq_some_iff.1 e
  exact ⟨hz, seg⟩

section
variable {s : State} {ctx : Nat} {needs : List Need} {ps : List Piece}

theorem PlainNeeds.of_need (plain : PlainNeeds s ctx needs ps) {x : Need} (mem : x ∈ needs) : ∃ p, PlainRange s ctx x.1 x.2.1 x.2.2 p := by
  induction plain with
  | nil => simp at mem
  | cons first _ ih =>
    rcases List.mem_cons.1 mem with rfl | mem
    · exact ⟨_, first⟩
    · exact ih mem

theorem PlainNeeds.of_piece (plain : PlainNeeds s ctx needs ps) {p : Piece} (mem : p ∈ ps) :
    ∃ x : Need, PlainRange s ctx x.1 x.2.1 x.2.2 p := by
  induction plain with
  | nil => simp at mem
  | cons first _ ih =>
    rcases List.mem_cons.1 mem with rfl | mem
    · exact ⟨_, first⟩
    · exact ih mem

/-- What holds of the segment of a need in plain ranges. -/
theorem PlainNeeds.of_segNeed (plain : PlainNeeds s ctx needs ps) {x : Need × Segment} (mem : x ∈ segNeeds s ctx needs) :
    x.2.cfg.kind = .device ∧ hasRight x.2.cfg x.1.2.2 = true ∧ x.2.holds = [] ∧ x.2.drains = [] := by
  obtain ⟨need, seg⟩ := mem_segNeeds mem
  obtain ⟨p, range⟩ := plain.of_need need
  obtain ⟨kind, right, holds, drains, -⟩ := plainRange_segment range seg
  exact ⟨kind, right, holds, drains⟩

theorem piecesIn_plain (plain : PlainNeeds s ctx needs ps) : (segNeeds s ctx needs).flatMap (fun x => piecesIn s x.2 x.1) = ps := by
  induction plain with
  | nil => rfl
  | @cons x p xs ps range _ ih =>
    obtain ⟨g, seg, -⟩ := range.seg
    obtain ⟨kind, -, -, -, piece⟩ := plainRange_segment range seg
    have head : segNeeds s ctx (x :: xs) = (x, g) :: segNeeds s ctx xs := by simp [segNeeds, seg]
    rw [head, List.flatMap_cons, ih, piece]
    simp [piecesIn, kind]

/-- Plain ranges translate to their pieces. -/
theorem translate_plain (plain : PlainNeeds s ctx needs ps) : translate s ctx needs = .ok ps := by
  have sized : needs.filter (fun x => x.2.1 != 0) = needs :=
    List.filter_eq_self.2 fun x hx => by
      obtain ⟨p, range⟩ := plain.of_need hx
      simpa using range.size.ne'
  have inSegs : ((needs.map fun x => (x, segOf s ctx x.1 x.2.1)).any fun x => x.2.isNone) = false := by
    refine List.any_eq_false.2 fun y hy => ?_
    obtain ⟨x, hx, rfl⟩ := List.mem_map.1 hy
    obtain ⟨p, range⟩ := plain.of_need hx
    obtain ⟨g, seg, -⟩ := range.seg
    simp [seg]
  have allowed : ((segNeeds s ctx needs).any fun x => !hasRight x.2.cfg x.1.2.2) = false :=
    List.any_eq_false.2 fun x hx => by simp [(plain.of_segNeed hx).2.1]
  have present : (segNeeds s ctx needs).flatMap (fun x => absentIn x.2 x.1) = [] :=
    List.flatMap_eq_nil_iff.2 fun x hx => by simp [absentIn, (plain.of_segNeed hx).1]
  have free : ((segNeeds s ctx needs).findSome? fun x => heldIn s.time x.2 x.1) = none := by
    refine List.findSome?_eq_none_iff.2 fun x hx => ?_
    obtain ⟨kind, -, holds, drains⟩ := plain.of_segNeed hx
    simp [heldIn, isHeld, kind, holds, drains]
  have mapped : ps.find? (fun p => !pieceMapped s p) = none :=
    List.find?_eq_none.2 fun p hp => by
      obtain ⟨x, range⟩ := plain.of_piece hp
      simp [pieceMapped_plain range]
  unfold translate
  dsimp only
  rw [sized, inSegs, if_neg (by simp)]
  change (if ((segNeeds s ctx needs).any fun x : Need × Segment => !hasRight x.2.cfg x.1.2.2) then _ else _) = _
  rw [allowed, if_neg (by simp)]
  change (if !(dedup ((segNeeds s ctx needs).flatMap fun x : Need × Segment => absentIn x.2 x.1)).isEmpty then _ else _) = _
  rw [present, if_neg (by simp [dedup])]
  change (match (segNeeds s ctx needs).findSome? fun x : Need × Segment => heldIn s.time x.2 x.1 with
    | some (slot, b) => Xlate.held slot b
    | none => _) = _
  rw [free]
  change (match ((segNeeds s ctx needs).flatMap fun x : Need × Segment => piecesIn s x.2 x.1).find? fun p => !pieceMapped s p with
    | some p => Xlate.nowhere p.addr
    | none => Xlate.ok ((segNeeds s ctx needs).flatMap fun x : Need × Segment => piecesIn s x.2 x.1)) = _
  rw [piecesIn_plain plain, mapped]

end

/-! ### Plain pieces -/

section
variable {s : State} {ctx : Nat} {q : Piece} {bs : List SByte} {w : Writer}

theorem wakeHalf_awake {h : Half} (awake : s.power.glow.get h = false) : wakeHalf s h = s := by simp [wakeHalf, awake]

theorem wakePiece_plain (plain : PlainPiece s q) : wakePiece s q = s := by
  unfold wakePiece
  split
  · rename_i h home
    exact wakeHalf_awake (plain.awake h home)
  · rfl

theorem markBlockWritten_plain (plain : PlainPiece s q) (u : State) : markBlockWritten u ctx q = u := by simp [markBlockWritten, plain.block]

/-- A plain piece is written in memory at once, but in HBM when its lines are issued. -/
theorem storePiece_plain (plain : PlainPiece s q) : storePiece s w ctx q bs = { s with mem := memAfter s w q bs } := by
  simp only [storePiece, wakePiece_plain plain, memAfter, writePiece, markBlockWritten_plain plain, plain.key, writeBank, writeLocal, plain.near,
    Bool.not_false, Bool.and_true, Bool.false_eq_true, if_false]
  split
  · rfl
  · split <;> rfl

theorem emitPieces_plain (plain : PlainPiece s q) {segs : List (Nat × Nat × Bool)} {id : Nat} :
    emitPieces ctx segs id s [q] bs = { s with mem := memAfter s (writerOf s id) q (bs.take q.len) } := by
  simp only [emitPieces, plain.pkg, Option.isSome_none, Bool.false_eq_true, if_false]
  exact storePiece_plain plain

/-- A line that is not awaited crosses the Seam at once toward a half that is awake. -/
theorem crossSeam_awake {r : Request} {ps : List Piece} (plain : ∀ p ∈ ps, PlainPiece s p) : crossSeam s r ps = .go s := by
  unfold crossSeam
  dsimp only
  split
  · rfl
  · rename_i crosses
    obtain ⟨p, mem, home⟩ : ∃ p ∈ ps, pieceHome s p = some r.half.other := by simpa using crosses
    have awake := (plain p mem).awake _ home
    rw [wakeHalf_awake awake, if_neg (by simp [awake])]

end

/-! ### Runs of bytes cut at the line bounds -/

theorem linePieces_flatten {α : Type} : ∀ (f a : Nat) (bs : List α), bs.length + a % 256 ≤ 256 * f →
    (linePieces f a bs).flatMap Prod.snd = bs
  | 0, a, bs, room => by
    obtain rfl : bs = [] := List.length_eq_zero_iff.1 (by omega)
    rfl
  | f + 1, a, bs, room => by
    unfold linePieces
    split
    · rename_i empty
      rw [List.isEmpty_iff.1 empty]
      rfl
    · have rest : (bs.drop (lineRoom a)).length + (a + lineRoom a) % 256 ≤ 256 * f := by
        simp only [List.length_drop, lineRoom]
        omega
      rw [List.flatMap_cons, linePieces_flatten f _ _ rest, List.take_append_drop]

/-- The pieces of a run are its bytes. -/
theorem piecesOf_flatten {α : Type} (a : Nat) (bs : List α) : (piecesOf a bs).flatMap Prod.snd = bs :=
  linePieces_flatten _ a bs (by omega)

theorem memReadS_length (m : Mem) (a n : Nat) : (memReadS m a n).length = n := by
  have whole := congrArg List.length (piecesOf_flatten a (memRead m a n))
  rw [memRead_length, List.length_flatMap] at whole
  simpa [memReadS, List.length_flatMap] using whole

/-- Bytes without a mark. -/
def Clean (bs : List SByte) : Prop := ∀ b ∈ bs, b.2 = false

theorem anyMark_clean {bs : List SByte} (clean : Clean bs) : anyMark bs = false := List.any_eq_false.2 fun b hb => by simp [clean b hb]

theorem spoiledPieces_clean {bs : List SByte} (clean : Clean bs) (a : Nat) : spoiledPieces a bs = 0 := by
  refine List.length_eq_zero_iff.2 (List.filter_eq_nil_iff.2 fun p hp => ?_)
  have within : Clean p.2 := fun b hb => clean b (by
    rw [← piecesOf_flatten a bs]
    exact List.mem_flatMap.2 ⟨p, hp, hb⟩)
  rw [show p.2.any Prod.snd = false from anyMark_clean within]
  simp

theorem spoiledOver_clean {s : State} : ∀ {ps : List Piece} {bs : List SByte},
    (∀ p ∈ ps, PlainPiece s p) → Clean bs → spoiledOver s ps bs = 0
  | [], _, _, _ => rfl
  | p :: ps, bs, plain, clean => by
    have here := plain p (List.mem_cons_self ..)
    have head : Clean (bs.take p.len) := fun b hb => clean b (List.mem_of_mem_take hb)
    have tail : Clean (bs.drop p.len) := fun b hb => clean b (List.mem_of_mem_drop hb)
    simp [spoiledOver, here.pkg, spoiledLines, here.near, spoiledPieces_clean head,
      spoiledOver_clean (fun q hq => plain q (List.mem_cons_of_mem p hq)) tail]

theorem fit_length (bs : List SByte) : fit bs.length bs = bs := by simp [fit, zeros, good]

theorem anyUnreachable_plain {s : State} {ps : List Piece} (plain : ∀ p ∈ ps, PlainPiece s p) : anyUnreachable s ps = false :=
  List.any_eq_false.2 fun p hp => by simp [(plain p hp).near]

/-! ### A pass that begins -/

section
variable {s u : State} {r : Request} {p : Piece} {pass : PassState}

/-- The request's writes of the instructions before it, seen once its pass has begun. -/
theorem ownLineOver_began (start : r.pass.started = false) (began : pass.started = true) (base : pass.base = r.lines.next)
    (arb : u.arb = s.arb) (fuses : u.fuses = s.fuses) : ownLineOver u { r with pass := pass } p = ownLineOver s r p := by
  simp [ownLineOver, inHbm, flightsOf, start, began, base, arb, fuses]

theorem ownHostOver_began (start : r.pass.started = false) (began : pass.started = true)
    (base : pass.hostBase = ⟨r.hostWrites.east.length, r.hostWrites.west.length⟩) (cfg : u.cfg = s.cfg) (fuses : u.fuses = s.fuses) :
    ownHostOver u { r with pass := pass } p = ownHostOver s r p := by
  have port : hostPort u p = hostPort s p := by simp only [hostPort, homePort, partCfg, fuses, cfg]
  have whole (h : Half) : (r.hostWrites.get h).take (Both.get ⟨r.hostWrites.east.length, r.hostWrites.west.length⟩ h) = r.hostWrites.get h := by
    cases h <;> exact List.take_length
  simp only [ownHostOver, port, start, began, base, whole, if_true, Bool.false_eq_true, if_false]

theorem answerHost_clear (clear : ownHostOver s r p = false) : answerHost s r [p] = (s, r) := by simp [answerHost, clear]

end

end Sys2Proof.Machine
end

section
/-! ATOMIC on a plain target (R102, R347, R519). -/

namespace Sys2Proof.Machine

/-- The memory once an ATOMIC has been done on the local piece `p`. -/
def atomicMem (s : State) (a : AtomicOp) (p : Piece) : Mem :=
  match atomicValue a.op a.n a.sg (leVal ((memReadS s.mem p.addr a.n).map Prod.fst)) a.opd a.cmp with
  | some v => memWrite (bankSettle s.mem p.addr a.n) p.addr (good (leBytes a.n v))
  | none => s.mem

/-- The request once an ATOMIC on the local piece `p` has returned the bytes `bs` to `ret`. -/
def atomicDone (s : State) (r : Request) (p : Piece) (ret : List Piece) (bs : List SByte) : Request :=
  billetAsks s { r with hostWrites := hostPorts s (p :: ret) r.hostWrites } none [] (p :: ret) (targetAsks s p ++ writeAsks s ret bs)

section
variable {s u : State} {r y z : Request} {a : AtomicOp} {p q : Piece} {ret : List Piece} {old bs : List SByte}
  {opened : Option (List Need × List Piece)}

theorem goNext_setReq {x : Request} (id : x.id = y.id) : goNext (setReq u x) y = goNext u y := by
  rw [goNext, goNext, setReq_setReq (id.trans (advance_id y).symm)]

theorem mem_setReq (mem : r ∈ u.run.reqs) (id : y.id = r.id) : y ∈ (setReq u y).run.reqs := (getReq_some (getReq_setReq mem id)).1

theorem goNext_found {v : State} {id : Nat} (e : v = u) (at' : getReq u id = some z) :
    (match getReq v id with
      | some y => goNext v y
      | none => .stop v) = goNext u z := by
  rw [e, at']

/-- The return of a clean value to plain pieces, or to none. -/
theorem returnOld_plain (same : { y with answer := none, pass := PassState.start, wait := none } = r) (plain : ledgered s r.ctx = false)
    (local' : p.pkg = none) (rets : ∀ q ∈ ret, PlainPiece s q) (cut : fit ((ret.map (·.len)).foldl (· + ·) 0) old = bs) (clean : Clean bs)
    (emits : emitPieces r.ctx (touched r.ctx (p :: ret)) r.id (setReq s (atomicDone s r p ret bs)) ret bs = u)
    (at' : getReq u r.id = some z) : returnOld s y [p] ret old [] [] false = goNext u z := by
  subst same
  have far : [p].filter (·.pkg.isSome) = [] := by simp [local']
  have plain' : ledgered s y.ctx = false := plain
  simp only [returnOld, cut, anyUnreachable_plain rets, Bool.or_self, Bool.false_eq_true, if_false, spoiledOver_clean rets clean, Nat.add_zero,
    noteSpoiled, if_true, ledgerAtomic, plain', far, List.flatMap_cons, List.flatMap_nil, List.append_nil, List.singleton_append]
  exact goNext_found emits at'

/-- The machine once the plain piece `q` has taken the bytes `bs` from `w`. -/
def stored (u : State) (w : Writer) (q : Piece) (bs : List SByte) : State := { u with mem := memAfter u w q bs }

/-- No place takes the old value. -/
theorem returnOld_quiet (mem : y ∈ s.run.reqs) (same : { y with answer := none, pass := PassState.start, wait := none } = r)
    (plain : ledgered s r.ctx = false) (local' : p.pkg = none) :
    returnOld s y [p] [] old [] [] false = goNext s (atomicDone s r p [] []) := by
  have id : (atomicDone s r p [] []).id = y.id := by subst same; rfl
  refine (returnOld_plain (ret := []) (bs := []) (z := atomicDone s r p [] []) same plain local' (by simp) (by simp [fit, zeros, good])
    (by simp [Clean]) rfl ?_).trans (goNext_setReq rfl)
  exact (congrArg _ id).trans (getReq_setReq mem id)

/-- A plain place takes the old value. -/
theorem returnOld_written (mem : y ∈ s.run.reqs) (same : { y with answer := none, pass := PassState.start, wait := none } = r)
    (plain : ledgered s r.ctx = false) (local' : p.pkg = none) (dest : PlainPiece s q) (len : old.length = q.len) (clean : Clean old) :
    returnOld s y [p] [q] old [] [] false =
      goNext (stored s (.hauler (r.hauler.getD 128)) q old) (atomicDone s r p [q] old) := by
  have id : (atomicDone s r p [q] old).id = y.id := by subst same; rfl
  have placed : getReq (setReq s (atomicDone s r p [q] old)) r.id = some (atomicDone s r p [q] old) :=
    (congrArg _ id).trans (getReq_setReq mem id)
  have writer : writerOf (setReq s (atomicDone s r p [q] old)) r.id = .hauler (r.hauler.getD 128) := by rw [writerOf, placed]; rfl
  have destIn : PlainPiece (setReq s (atomicDone s r p [q] old)) q := ⟨dest.pkg, dest.key, dest.block, dest.near, dest.awake⟩
  have emits := emitPieces_plain (ctx := r.ctx) (bs := old) destIn (segs := touched r.ctx [p, q]) (id := r.id)
  rw [writer, List.take_of_length_le len.le] at emits
  refine (returnOld_plain (bs := old) same plain local' (fun x hx => List.mem_singleton.1 hx ▸ dest) (by simpa [len] using fit_length old) clean
    emits placed).trans ?_
  exact goNext_setReq (u := stored s (.hauler (r.hauler.getD 128)) q old) rfl

/-- The operation on a plain target, over which the request has no write without a response. -/
theorem atomicLocal_plain (plain : PlainPiece s p) (rets : ∀ q ∈ ret, PlainPiece s q) (line : ownLineOver s r p = false)
    (host : ownHostOver s r p = false) (led : p.led = false) (len : p.len = a.n) (clean : Clean (memReadS s.mem p.addr a.n)) :
    atomicLocal s r a opened p ret = returnOld { s with mem := atomicMem s a p } r [p] ret (memReadS s.mem p.addr a.n) [] [] false := by
  have crosses : crossSeam s { r with pass := { r.pass with opened := opened } } (p :: ret) = .go s :=
    crossSeam_awake fun q hq => (List.mem_cons.1 hq).elim (fun e => e ▸ plain) (rets q)
  have old : readLocal s p.key p.addr p.len = memReadS s.mem p.addr a.n := by simp [readLocal, plain.near, plain.key, len]
  simp only [atomicLocal, answerHost_clear host, plain.near, Bool.false_eq_true, if_false, line, crosses, Flow.bind, old, anyMark_clean clean, led]
  congr 1
  unfold atomicMem
  cases atomicValue a.op a.n a.sg (leVal ((memReadS s.mem p.addr a.n).map Prod.fst)) a.opd a.cmp with
  | none => rfl
  | some v =>
    have near (m : Mem) : unreachable { s with mem := m } p.addr = false := plain.near
    simp only [Option.map_some, writeAtomic, markBlockWritten_plain plain, plain.key, writeLocal, near, Bool.false_eq_true, if_false, len]
    rfl

end

theorem touchBlocks_plain {s v : State} {ctx : Nat} {ps : List Piece} (plain : ∀ p ∈ ps, PlainPiece v p) : touchBlocks s ctx ps = s := by
  have none' : ps.filterMap (fun p => p.block.map fun b => (p.slot, b)) = [] :=
    List.filterMap_eq_nil_iff.2 fun p hp => by simp [(plain p hp).block]
  simp [touchBlocks, none', dedup]

theorem plainNeeds_setReq {s : State} {ctx : Nat} {needs : List Need} {ps : List Piece} (plain : PlainNeeds s ctx needs ps) (y : Request) :
    PlainNeeds (setReq s y) ctx needs ps := plain.imp fun _ _ range => plainRange_setReq range y

/-! ### The word -/

section
variable {s0 s : State} {t : Mc} {h : HaulerId} {r : Request} {p : Piece} {op sg' tg opd cmp rs : Nat} {wide sg ret : Bool}

/-- Bytes of an ATOMIC's operand. -/
def atomicSize (wide : Bool) : Nat := if wide then 8 else 4

/-- The operands of an ATOMIC as its word names them. -/
def atomicOp (r : Request) (op opd cmp : Nat) (wide sg : Bool) : AtomicOp :=
  { op := op, n := atomicSize wide, sg := sg, opd := (r.params.getD opd 0).toNat % 2 ^ (8 * atomicSize wide)
    cmp := if op == 4 then (r.params.getD cmp 0).toNat % 2 ^ (8 * atomicSize wide) else 0 }

/-- The request as its pass begins, its hauler holding nothing. -/
def beganAt (r : Request) : Request := { r with pass := beganPass r [] }

theorem streamRanges_oneLine {sh : ShapeSet} {n : Nat} (line : OneLine sh n) (sized : 0 < n) (key : Nat) {hi : Nat} (all : n ≤ hi) :
    streamRanges sh key 0 hi = [⟨key, sh.base, n⟩] := by
  have one : streamLen sh = n := by simp [streamLen, line.len, line.count]
  have last : (n - 1) / n = 0 := Nat.div_eq_of_lt (by omega)
  have first : lineAddr sh 0 = sh.base := by simp [lineAddr]
  simp [streamRanges, one, Nat.min_eq_right all, line.len, sized.ne', last, first, Nat.not_le.2 sized]

/-- Sides whose bases the program gave pass the checks of R81. -/
theorem rtCheck_given {sides : List RtSide} (given : ∀ x ∈ sides, (shapeOf r x.set).handle = false) : rtCheck s r sides [] = none := by
  have passes : sides.filterMap (rtFail s r) = [] := List.filterMap_eq_nil_iff.2 fun x hx => by simp [rtFail, given x hx]
  simp [rtCheck, passes]

/-- The needs of an ATOMIC. -/
def atomicNeeds (r : Request) (wide ret : Bool) (tg rs : Nat) : List Need :=
  ((shapeOf r tg).base, atomicSize wide, Right.a) :: if ret then [((shapeOf r rs).base, atomicSize wide, Right.w)] else []

/-- ATOMIC on plain ranges does its operation and goes on to the return of the old value. -/
theorem exec_atomic (now : atInstr s0 t h (isRow (.atomic op wide sg tg opd cmp ret rs)) = s)
    (runs : RunsInstr s h r (.atomic op wide sg tg opd cmp ret rs)) (ready : PassReady s r) (start : r.pass = PassState.start)
    (fresh : r.wait = none) (given : (shapeOf r tg).handle = false) {dst : List Piece}
    (line' : ret = true → OneLine (shapeOf r rs) (atomicSize wide))
    (plain : PlainNeeds s r.ctx (atomicNeeds r wide ret tg rs) (p :: dst)) (line : ownLineOver s r p = false)
    (host : ownHostOver s r p = false) (clean : Clean (memReadS s.mem p.addr (atomicSize wide))) {u : State} {y : Request} (id : y.id = r.id)
    (returns : returnOld { setReq s (beganAt r) with mem := atomicMem s (atomicOp r op opd cmp wide sg) p } (beganAt r) [p] dst
      (memReadS s.mem p.addr (atomicSize wide)) [] [] false = goNext u y)
    (shell : Shell s u) (reqs : u.run.reqs = s.run.reqs) :
    exec (.atomic t h) s0 = .next (passed (setReq u (advance y)) r) := by
  change execAtomic t h s0 = _
  unfold execAtomic
  refine withInstr_goesIn now rfl runs id ?_ shell reqs
  have notOpen : promotionOpen s r = false := by simp [promotionOpen, fresh]
  have idle : r.pass.started = false := by rw [start]; rfl
  have found : getReq (setReq s (beganAt r)) r.id = some (beganAt r) := getReq_setReq (reqOn_mem runs.req) rfl
  have opens : execAtomic.atomicStart s r (rtSide tg .a 0 :: if ret then [rtSide rs .w 0] else []) = .go (setReq s (beganAt r)) := by
    have checks : rtCheck s r (rtSide tg .a 0 :: if ret then [rtSide rs .w 0] else []) [] = none := by
      refine rtCheck_given fun x hx => ?_
      rcases List.mem_cons.1 hx with rfl | hx
      · exact given
      · split at hx
        · rename_i returns
          rw [List.mem_singleton.1 hx]
          exact (line' returns).given
        · simp at hx
    simp only [execAtomic.atomicStart, idle, Bool.false_eq_true, if_false, checks]
    rfl
  have returning : (if ret then (streamRanges (shapeOf r rs) 0 0 (atomicSize wide)).map fun q => (q.va, q.len, Right.w) else []) =
      if ret then [((shapeOf r rs).base, atomicSize wide, Right.w)] else [] := by
    split
    · rename_i returns
      rw [streamRanges_oneLine (line' returns) (by unfold atomicSize; split <;> decide) 0 le_rfl]
      rfl
    · rfl
  have began := plainNeeds_setReq plain (beganAt r)
  have opened : (beganAt r).pass.opened = none := by rw [beganAt, beganPass, start]; rfl
  have pieces : billetXlate (setReq s (beganAt r)) (beganAt r) (atomicNeeds r wide ret tg rs) = .ok (p :: dst) := by
    simp only [billetXlate, opened]
    exact translate_plain began
  obtain ⟨onTarget, len, led⟩ : PlainPiece (setReq s (beganAt r)) p ∧ p.len = atomicSize wide ∧ p.led = false := by
    cases began with | cons target _ => exact plainRange_piece target
  have rets : ∀ q ∈ dst, PlainPiece (setReq s (beganAt r)) q := fun q hq => by
    obtain ⟨x, range⟩ := began.of_piece (List.mem_cons_of_mem p hq)
    exact (plainRange_piece range).1
  have noHost : hostBlock (setReq s (beganAt r)) (beganAt r).ctx [p] = none := by simp [hostBlock, onTarget.block]
  have untouched : touchBlocks (setReq s (beganAt r)) (beganAt r).ctx dst = setReq s (beganAt r) := touchBlocks_plain rets
  have kept (l : List (Nat × Nat)) : forgetKept l (beganAt r) = beganAt r := by
    simp only [forgetKept, beganAt, ready.kept, List.filter_nil]
  dsimp only
  rw [opens]
  simp only [notOpen, given, Bool.false_and, Bool.and_false, Bool.false_eq_true, if_false, withReq, Flow.bind, found]
  change (match billetXlate (setReq s (beganAt r)) (beganAt r) (((shapeOf r tg).base, atomicSize wide, Right.a) ::
    (if ret then (streamRanges (shapeOf r rs) 0 0 (atomicSize wide)).map fun q => (q.va, q.len, Right.w) else [])) with
      | .ok ps => _
      | z => _) = _
  rw [returning, ← atomicNeeds, pieces]
  simp only [noHost, opened, untouched, kept, onTarget.pkg, Option.isSome_none, Bool.false_eq_true, if_false]
  refine (atomicLocal_plain (a := atomicOp r op opd cmp wide sg) onTarget rets ?_ ?_ led len clean).trans returns
  · exact (ownLineOver_began idle rfl rfl rfl rfl).trans line
  · exact (ownHostOver_began idle rfl rfl rfl rfl).trans host

/-- The machine once the operation has been done on the piece `p`. -/
def atomicState (s : State) (r : Request) (op opd cmp : Nat) (wide sg : Bool) (p : Piece) : State :=
  { s with mem := atomicMem s (atomicOp r op opd cmp wide sg) p }

/-- The request of an ATOMIC that has returned its value, but for the pass that it leaves. -/
theorem beganAt_back (start : r.pass = PassState.start) (fresh : r.wait = none) (none' : r.answer = none) :
    { beganAt r with answer := none, pass := PassState.start, wait := none } = r := by
  rw [← start, ← fresh, ← none']
  rfl

/-- ATOMIC without a return. -/
theorem exec_atomic_quiet (now : atInstr s0 t h (isRow (.atomic op wide sg tg opd cmp false rs)) = s)
    (runs : RunsInstr s h r (.atomic op wide sg tg opd cmp false rs)) (ready : PassReady s r) (start : r.pass = PassState.start)
    (fresh : r.wait = none) (none' : r.answer = none) (given : (shapeOf r tg).handle = false)
    (plain : PlainRange s r.ctx (shapeOf r tg).base (atomicSize wide) .a p) (line : ownLineOver s r p = false)
    (host : ownHostOver s r p = false) (clean : Clean (memReadS s.mem p.addr (atomicSize wide))) :
    exec (.atomic t h) s0 = .next (passed (setReq (atomicState s r op opd cmp wide sg p) (advance (atomicDone s r p [] []))) r) := by
  have mem := reqOn_mem runs.req
  have began := mem_setReq (u := atomicState s r op opd cmp wide sg p) (y := beganAt r) mem rfl
  refine exec_atomic (dst := []) (u := atomicState s r op opd cmp wide sg p) (y := atomicDone s r p [] []) now runs ready start fresh given (by simp)
    (.cons plain .nil) line host clean rfl ?_ ⟨rfl, rfl, rfl⟩ rfl
  have returns := returnOld_quiet (old := memReadS s.mem p.addr (atomicSize wide)) began (beganAt_back start fresh none') ready.plain
    (plainRange_piece plain).1.pkg
  exact returns.trans (goNext_setReq (u := atomicState s r op opd cmp wide sg p) rfl)

/-- ATOMIC with the return of the old value. -/
theorem exec_atomic_returning {q : Piece} {old : List SByte} (now : atInstr s0 t h (isRow (.atomic op wide sg tg opd cmp true rs)) = s)
    (runs : RunsInstr s h r (.atomic op wide sg tg opd cmp true rs)) (ready : PassReady s r) (start : r.pass = PassState.start)
    (each : OneRequestPerId s) (fresh : r.wait = none) (none' : r.answer = none) (given : (shapeOf r tg).handle = false)
    (plain : PlainRange s r.ctx (shapeOf r tg).base (atomicSize wide) .a p) (line : ownLineOver s r p = false)
    (host : ownHostOver s r p = false) (read : memReadS s.mem p.addr (atomicSize wide) = old) (clean : Clean old)
    (line' : OneLine (shapeOf r rs) (atomicSize wide)) (dest : PlainRange s r.ctx (shapeOf r rs).base (atomicSize wide) .w q) :
    exec (.atomic t h) s0 = .next (passed (setReq (stored (atomicState s r op opd cmp wide sg p) (writerOf s r.id) q old)
      (advance (atomicDone s r p [q] old))) r) := by
  have mem := reqOn_mem runs.req
  have began := mem_setReq (u := atomicState s r op opd cmp wide sg p) (y := beganAt r) mem rfl
  obtain ⟨onDest, len, -⟩ := plainRange_piece dest
  have destIn : PlainPiece (setReq (atomicState s r op opd cmp wide sg p) (beganAt r)) q :=
    ⟨onDest.pkg, onDest.key, onDest.block, onDest.near, onDest.awake⟩
  have writer : writerOf s r.id = .hauler (r.hauler.getD 128) := by rw [writerOf, getReq_of_mem each mem]; rfl
  refine exec_atomic (dst := [q]) (u := stored (atomicState s r op opd cmp wide sg p) (writerOf s r.id) q old)
    (y := atomicDone s r p [q] old) now runs ready start fresh given (fun _ => line') (.cons plain (.cons dest .nil)) line host (read ▸ clean)
    rfl ?_ ⟨rfl, rfl, rfl⟩ rfl
  have returns := returnOld_written began (beganAt_back start fresh none') ready.plain (plainRange_piece plain).1.pkg destIn
    (by rw [← read, memReadS_length, len]) clean
  rw [read, writer]
  exact returns.trans (goNext_setReq (u := stored (atomicState s r op opd cmp wide sg p) (.hauler (r.hauler.getD 128)) q old) rfl)

end

end Sys2Proof.Machine
end

section
/-! REDUCE of one chunk at a home of the own package (R103, R400 to R403). -/

namespace Sys2Proof.Machine

/-! ### A chunk that its home stores -/

/-- The epoch once it holds the chunk `k`, the first of its rank. -/
def withChunk (now : Mc) (x : EpochSt) (k : Chunk) : EpochSt :=
  { x with
    isOpen := true, opened := if x.isOpen then x.opened else now
    bound := x.bound ++ [(k.rank, k.sender)], chunks := x.chunks ++ [(k.rank, k.off, k.data.length)] }

/-- The machine once the home has stored the chunk `k` in the epoch, which is `y` with it, and has added the ranks that are complete. -/
def gathered (s : State) (d : RedCfg) (k : Chunk) (y : EpochSt) : State :=
  let s1 := storeChunk (setEpoch s y) d k.rank k.off k.data
  if leadingRanks d y > leadingRanks d (getEpoch s d.ctx d.red) then accumulate s1 d else s1

section
variable {s v : State} {d : RedCfg} {k : Chunk} {x y : EpochSt} {e : ExportCfg} {red : Nat}

/-- A chunk of the current epoch, the first of its rank, is stored (R402). -/
theorem takeChunk_first (epoch : getEpoch s d.ctx d.red = x) (current : k.epoch = x.e) (open' : x.ending = none)
    (unbound : ∀ b ∈ x.bound, b.1 ≠ k.rank) (new : ∀ c ∈ x.chunks, c.1 ≠ k.rank) (profile : k.profile = profileOf s d.ctx)
    (more : allRanks d (withChunk s.time x k) = false) : takeChunk s d k = (gathered s d k (withChunk s.time x k), stOk, false) := by
  have noBound : x.bound.find? (fun b => b.1 == k.rank) = none := List.find?_eq_none.2 fun b hb => by simpa using unbound b hb
  have apart : chunkMeets x k.rank k.off (k.off + k.data.length) = false := List.any_eq_false.2 fun c hc => by simp [new c hc]
  have waits (u : State) : sumEpoch u d (withChunk s.time x k) = u := by simp [sumEpoch, more]
  have notRefused : (x.ending == some true) = false := by simp [open']
  have notLate : (x.ending == some false) = false := by simp [open']
  unfold takeChunk gathered
  simp only [epoch, current, gt_iff_lt, lt_irrefl, if_false, notRefused, notLate, noBound, apart, profile,
    Option.map_none, Option.isSome_none, Bool.false_and, Bool.or_self, Bool.false_eq_true, bne_self_eq_false]
  exact congrArg (·, stOk, false) (waits _)

/-- The epochs with `y` in the place of its reduction's. -/
def epochsWith (s : State) (y : EpochSt) : List EpochSt := (s.rem.epochs.filter fun z => !(z.ctx == y.ctx && z.red == y.red)) ++ [y]

/-- Bytes of the accumulator. -/
def accSize (d : RedCfg) : Nat := 8 * (d.length / (fmtBits d.fmt / 8))

theorem storeChunk_stockpile {off rank : Nat} {bs : List SByte} (inS : inStockpile (redBuffer s d (rank * d.length + off)) = true)
    (near : unreachable s (redBuffer s d (rank * d.length + off)) = false) : storeChunk s d rank off bs =
      { s with mem := bankWrite s.mem s.time Writer.remote.rank (redBuffer s d (rank * d.length + off)) bs } := by
  simp only [storeChunk, writeBank, inS, near, Bool.not_false, Bool.and_self, if_true]

/-- What the storing of a chunk changes: the memory in the chunk's place and in the accumulator, and the epoch (R400, R403). -/
theorem gathered_frame (inS : inStockpile (redBuffer s d (k.rank * d.length + k.off)) = true)
    (near : unreachable s (redBuffer s d (k.rank * d.length + k.off)) = false) : ∃ m n,
    gathered s d k y = { s with mem := m, drawn := n, rem := { s.rem with epochs := epochsWith s y } } ∧
    (leadingRanks d y = leadingRanks d (getEpoch s d.ctx d.red) →
      m = bankWrite s.mem s.time Writer.remote.rank (redBuffer s d (k.rank * d.length + k.off)) k.data ∧ n = s.drawn) ∧
    (s.mem.wf → ∀ a,
      a < redBuffer s d (k.rank * d.length + k.off) ∨ redBuffer s d (k.rank * d.length + k.off) + k.data.length ≤ a →
      a < redBuffer s d (d.members * d.length) ∨ redBuffer s d (d.members * d.length) + accSize d ≤ a →
      offRecent s a → memByte m a = memByte s.mem a) := by
  have stores := storeChunk_stockpile (s := setEpoch s y) (bs := k.data) inS near
  unfold gathered
  dsimp only
  rw [stores]
  split
  · rename_i more
    unfold accumulate
    dsimp only
    rw [writeBank_frame]
    refine ⟨_, _, rfl, fun same => absurd more (by rw [same]; exact lt_irrefl _), fun wf a out outAcc off => ?_⟩
    obtain ⟨wf', off', same⟩ := memByte_bankWrite (rank := Writer.remote.rank) wf off out
    refine (memByte_writeBank wf' off' ?_).trans same
    rw [good, List.length_map, List.length_map, List.length_range]
    exact outAcc
  · exact ⟨_, _, rfl, fun _ => ⟨rfl, rfl⟩, fun wf a out _ off => (memByte_bankWrite wf off out).2.2⟩

theorem gathered_shell : Shell s (gathered s d k y) ∧ (gathered s d k y).run = s.run := by
  simp only [gathered, storeChunk, accumulate]
  split
  · rw [writeBank_frame, writeBank_frame]
    exact ⟨⟨rfl, rfl, rfl⟩, rfl⟩
  · rw [writeBank_frame]
    exact ⟨⟨rfl, rfl, rfl⟩, rfl⟩

theorem writeBank_setReq {z : Request} {w : Writer} {a : Nat} {bs : List SByte} :
    writeBank (setReq s z) w none a bs = setReq (writeBank s w none a bs) z := by
  have same : unreachable (setReq s z) a = unreachable s a := rfl
  simp only [writeBank, writeLocal, same]
  split
  · rfl
  · split <;> rfl

/-- The storing of a chunk leaves the requests alone. -/
theorem gathered_setReq {z : Request} : gathered (setReq s z) d k y = setReq (gathered s d k y) z := by
  have stores : storeChunk (setEpoch (setReq s z) y) d k.rank k.off k.data = setReq (storeChunk (setEpoch s y) d k.rank k.off k.data) z :=
    writeBank_setReq (s := setEpoch s y)
  have adds (u : State) : accumulate (setReq u z) d = setReq (accumulate u d) z := writeBank_setReq (s := { u with drawn := u.drawn + 1 })
  have same : getEpoch (setReq s z) d.ctx d.red = getEpoch s d.ctx d.red := rfl
  simp only [gathered, same, stores]
  split
  · exact adds _
  · rfl

/-- A chunk of the own package that passes its checks is answered as its home answers it (R400). -/
theorem localChunk_first (exported : exportCfg s d.exportId = some e) (target : e.target = .reduction red) {d2 : RedCfg}
    (home : redCfg s e.owner red = some d2) (free : ownerQuenched s e.owner = false)
    (passes : exportBars s s.cfg.pkg e 4 k.off k.data.length = none) (fmt : d.fmt = d2.fmt) (member : k.rank < d2.members)
    (epoch : getEpoch s d2.ctx d2.red = x) (current : k.epoch = x.e) (open' : x.ending = none)
    (unbound : ∀ b ∈ x.bound, b.1 ≠ k.rank) (new : ∀ c ∈ x.chunks, c.1 ≠ k.rank) (profile : k.profile = profileOf s d2.ctx)
    (more : allRanks d2 (withChunk s.time x k) = false) : localChunk s d k = (gathered s d2 k (withChunk s.time x k), stOk) := by
  have kept : (decide (k.rank ≥ d2.members) || d.fmt != d2.fmt) = false := by simp [fmt, member]
  simp only [localChunk, exported, free, Bool.false_eq_true, if_false, passes, chunkAtHome, target, home, kept,
    takeChunk_first epoch current open' unbound new profile more]

end

/-! ### A chunk that is read -/

section
variable {s : State} {r : Request} {sh : ShapeSet} {d : RedCfg} {n v : Nat} {p : Piece}

theorem sourceRanges_oneLine (line : OneLine sh n) (sized : 0 < n) (small : n ≤ 4096) : sourceRanges sh 0 4096 = [⟨0, sh.base, n⟩] := by
  simp [sourceRanges, repeats, line.count, streamRanges_oneLine line sized 0 small]

/-- The bytes of a chunk in one plain range. -/
theorem readRanges_oneLine (line : OneLine sh n) (plain : PlainPiece s p) (len : p.len = n) (sized : 0 < n) (hits : r.hits = [])
    (unledgered : ledgered s r.ctx = false) : readRanges s r (chunkJob sh 0) false [⟨0, sh.base, n⟩] [p] = (memReadS s.mem p.addr n, r.pass) := by
  have holds : (chunkJob sh 0).holds = false := by simp [chunkJob, repeats, line.count]
  have bytes : pieceBytes s r p = memReadS s.mem p.addr n := by
    simp [pieceBytes, markHits, hits, plain.pkg, readLocal, plain.near, plain.key, len]
  simp [readRanges, holds, inStream, notHeld, readHeld, dealPieces, dealPieces.countFor, sized.ne', bytes, unledgered]

/-- A plain piece needs no answer of another package. -/
theorem awaitRemote_plain (plain : PlainPiece s p) (line : ownLineOver s r p = false) (idle : r.pass.sent = []) :
    awaitRemote s r [p] [p] = .go s := by
  simp [awaitRemote, pieceFenced, plain.pkg, line, allRead, idle]

/-- The chunk of a REDUCE whose source is one line. -/
def chunkOf (s : State) (r : Request) (v : Nat) (bs : List SByte) : Chunk :=
  { sender := s.cfg.pkg, profile := profileOf s r.ctx, epoch := bits v 63 32, rank := bits v 13 0, off := 0, data := bs }

/-- The lines that read the chunk. -/
def chunkLines (s : State) (r : Request) (p : Piece) : List Line :=
  linesOfAsks s false .read none (touched r.ctx [p]) r.lines.next (pieceAsks s p)

/-- A plain chunk is read, and sent to its home in the own package. -/
theorem readChunk_plain (line : OneLine sh n) (sized : 0 < n) (small : n ≤ 4096) (plain : PlainPiece s p) (len : p.len = n)
    (hits : r.hits = []) (unledgered : ledgered s r.ctx = false) (home : d.home = s.cfg.pkg) (clean : Clean (memReadS s.mem p.addr n)) :
    readChunk s r sh d v 0 [p] = sendChunk (setReq s (addLines r (chunkLines s r p))) (addLines r (chunkLines s r p)) d
      (chunkOf s r v (memReadS s.mem p.addr n)) (touched r.ctx [p]) := by
  have source (lo hi : Nat) (bs : List SByte) : sourceBytes sh lo hi bs = bs := by simp [sourceBytes, repeats, line.count]
  have plains : ∀ q ∈ [p], PlainPiece s q := fun q hq => List.mem_singleton.1 hq ▸ plain
  have main : (chunkJob sh 0).main [] = [⟨0, sh.base, n⟩] := sourceRanges_oneLine line sized small
  unfold readChunk
  simp only [main, readRanges_oneLine line plain len sized hits unledgered, source, unledgered, Bool.false_eq_true, if_false,
    anyUnreachable_plain plains, spoiledPieces_clean clean, noteSpoiled, if_true, touchBlocks_plain plains, home, beq_self_eq_true,
    List.flatMap_cons, List.flatMap_nil, List.append_nil]
  rfl

/-! ### The word -/

/-- A REDUCE whose chunks its home has accepted goes on. -/
theorem reduceChunks_done {u : State} {y : Request} {f id : Nat} (at' : getReq u id = some y) (all : streamLen sh ≤ y.pass.done * 4096) :
    reduceChunks sh d v (f + 1) u id = goNext u { flushInputs y with pass := PassState.start } := by
  simp [reduceChunks, at', all]

/-- A chunk that its home in the own package stores is done. -/
theorem sendChunk_home {u w : State} {k : Chunk} {segs : List (Nat × Nat × Bool)} (home : d.home = u.cfg.pkg)
    (stored : localChunk u d k = (w, stOk)) : sendChunk u r d k segs = .go (setReq w (chunkDone r)) := by
  simp [sendChunk, home, stored]

/-- The request of a REDUCE while it has its chunk's piece. -/
def openedAt (y : Request) (sh : ShapeSet) (n : Nat) (p : Piece) : Request :=
  { y with pass := { y.pass with opened := some ([(sh.base, n, .r)], [p]) } }

/-- The request of a REDUCE once it has read its chunk. -/
def gotChunk (u : State) (y : Request) (sh : ShapeSet) (n : Nat) (p : Piece) : Request := addLines (openedAt y sh n p) (chunkLines u y p)

/-- A REDUCE of one plain chunk, once its pass has begun. -/
theorem reduceChunks_one {u w : State} {y : Request} {f : Nat} (line : OneLine sh n) (sized : 0 < n) (small : n ≤ 4096)
    (mem : y ∈ u.run.reqs) (here : getReq u y.id = some y) (first : y.pass.done = 0) (unopened : y.pass.opened = none) (idle : y.pass.sent = [])
    (range : PlainRange u y.ctx sh.base n .r p) (clear : ownLineOver (setReq u (openedAt y sh n p)) (openedAt y sh n p) p = false)
    (host : ownHostOver (setReq u (openedAt y sh n p)) (openedAt y sh n p) p = false)
    (hits : y.hits = []) (unledgered : ledgered u y.ctx = false) (home : d.home = u.cfg.pkg) (clean : Clean (memReadS u.mem p.addr n))
    (stores : localChunk (setReq u (gotChunk u y sh n p)) d (chunkOf u y v (memReadS u.mem p.addr n)) = (w, stOk))
    (reqs : w.run.reqs = (setReq u (gotChunk u y sh n p)).run.reqs) :
    reduceChunks sh d v (f + 2) u y.id = goNext w { flushInputs (chunkDone (gotChunk u y sh n p)) with pass := PassState.start } := by
  have whole : streamLen sh = n := by simp [streamLen, line.len, line.count]
  have opens := mem_setReq (u := u) (y := openedAt y sh n p) mem rfl
  have reads : notHeld y (chunkJob sh 0) ((chunkJob sh 0).main []) = [⟨0, sh.base, n⟩] := by
    have holds : (chunkJob sh 0).holds = false := by simp [chunkJob, repeats, line.count]
    rw [notHeld, holds]
    exact sourceRanges_oneLine line sized small
  have pieces : billetXlate u y (readNeeds [⟨0, sh.base, n⟩]) = .ok [p] := by
    simp only [billetXlate, unopened]
    exact translate_plain (.cons range .nil)
  obtain ⟨plain, len, -⟩ := plainRange_piece range
  have plainIn : PlainPiece (setReq u (openedAt y sh n p)) p := ⟨plain.pkg, plain.key, plain.block, plain.near, plain.awake⟩
  have read : readChunk (setReq u (openedAt y sh n p)) (openedAt y sh n p) sh d v 0 [p] =
      sendChunk (setReq u (gotChunk u y sh n p)) (gotChunk u y sh n p) d (chunkOf u y v (memReadS u.mem p.addr n)) (touched y.ctx [p]) := by
    refine (readChunk_plain (r := openedAt y sh n p) line sized small plainIn len hits unledgered home clean).trans ?_
    have same : setReq (setReq u (openedAt y sh n p)) (gotChunk u y sh n p) = setReq u (gotChunk u y sh n p) := setReq_setReq rfl
    exact congrArg (sendChunk · (gotChunk u y sh n p) d (chunkOf u y v (memReadS u.mem p.addr n)) (touched y.ctx [p])) same
  have sends := sendChunk_home (u := setReq u (gotChunk u y sh n p)) (r := gotChunk u y sh n p) (segs := touched y.ctx [p]) home stores
  have found : getReq (setReq u (openedAt y sh n p)) y.id = some (openedAt y sh n p) := getReq_setReq mem rfl
  have wins : gotChunk u y sh n p ∈ w.run.reqs := reqs ▸ mem_setReq (u := u) (y := gotChunk u y sh n p) mem rfl
  have lo : y.pass.done * 4096 = 0 := by rw [first]
  rw [reduceChunks]
  simp only [here, lo, ge_iff_le, whole, Nat.not_le.2 sized, if_false, reads, pieces]
  change (awaitRemote (answerHost (setReq u (openedAt y sh n p)) (openedAt y sh n p) [p]).1
    (answerHost (setReq u (openedAt y sh n p)) (openedAt y sh n p) [p]).2 [p] [p]).bind _ = _
  rw [answerHost_clear host]
  dsimp only
  rw [awaitRemote_plain plainIn clear idle]
  simp only [Flow.bind, found, read, sends]
  have all : streamLen sh ≤ (chunkDone (gotChunk u y sh n p)).pass.done * 4096 := by
    have one : (chunkDone (gotChunk u y sh n p)).pass.done = y.pass.done + 1 := rfl
    rw [whole, one, first]
    omega
  exact (reduceChunks_done (u := setReq w (chunkDone (gotChunk u y sh n p))) (y := chunkDone (gotChunk u y sh n p)) (getReq_setReq wins rfl)
    all).trans (goNext_setReq rfl)

/-- What the home's answer to a chunk needs (R400 to R403): what is exported, its reduction `d2`, and the epoch `x` that is open for the rank. -/
structure ChunkTaken (s : State) (ctx : Nat) (d d2 : RedCfg) (n v : Nat) (x : EpochSt) : Prop where
  home     : d.home = s.cfg.pkg
  exported : ∃ e red, exportCfg s d.exportId = some e ∧ e.target = .reduction red ∧ redCfg s e.owner red = some d2 ∧
    ownerQuenched s e.owner = false ∧ exportBars s s.cfg.pkg e 4 0 n = none
  fmt      : d.fmt = d2.fmt
  epoch    : getEpoch s d2.ctx d2.red = x
  current  : bits v 63 32 = x.e
  member   : bits v 13 0 < d2.members
  opened   : x.ending = none
  unbound  : ∀ b ∈ x.bound, b.1 ≠ bits v 13 0
  fresh    : ∀ k ∈ x.chunks, k.1 ≠ bits v 13 0
  profile  : profileOf s ctx = profileOf s d2.ctx

/-- The request of a REDUCE whose chunk has been accepted goes on. -/
theorem reduced_back {r : Request} (start : r.pass = PassState.start) (fresh : r.wait = none) {ls : List Line} :
    { flushInputs (chunkDone (addLines (openedAt (beganAt r) sh n p) ls)) with pass := PassState.start } =
      addLines { r with rdata := [] } ls := by
  cases r
  dsimp only at start fresh
  subst start fresh
  simp [flushInputs, chunkDone, addLines, openedAt, beganAt, beganPass, PassState.start]

section
variable {d2 : RedCfg} {x y : EpochSt} {k : Chunk} {bs : List SByte}

/-- The home in the own package takes the chunk from a request that stands as `z`. -/
theorem ChunkTaken.localChunk {ctx : Nat} (taken : ChunkTaken s ctx d d2 n v x) (profile : k.profile = profileOf s ctx)
    (epoch : k.epoch = bits v 63 32) (rank : k.rank = bits v 13 0) (off : k.off = 0) (len : k.data.length = n)
    (stored : withChunk s.time x k = y) (more : allRanks d2 y = false) : localChunk s d k = (gathered s d2 k y, stOk) := by
  obtain ⟨e, red, exported, target, home, free, bars⟩ := taken.exported
  subst stored
  exact localChunk_first exported target home free (by rw [off, len]; exact bars) taken.fmt (by rw [rank]; exact taken.member) taken.epoch
    (epoch.trans taken.current) taken.opened (by rw [rank]; exact taken.unbound) (by rw [rank]; exact taken.fresh)
    (profile.trans taken.profile) more

/-- A machine whose requests have changed takes the chunk as before. -/
theorem chunkTaken_setReq {ctx : Nat} (taken : ChunkTaken s ctx d d2 n v x) (z : Request) : ChunkTaken (setReq s z) ctx d d2 n v x :=
  ⟨taken.home, taken.exported, taken.fmt, taken.epoch, taken.current, taken.member, taken.opened, taken.unbound, taken.fresh, taken.profile⟩

/-- The chunks of a REDUCE of one plain chunk, which its home in the own package takes. -/
theorem reduceChunks_taken (mem : r ∈ s.run.reqs) (ready : PassReady s r) (start : r.pass = PassState.start) (fresh : r.wait = none)
    (taken : ChunkTaken s r.ctx d d2 n v x) (line : OneLine sh n) (small : n ≤ 4096) (range : ReadRange s r sh.base n p)
    (read : memReadS s.mem p.addr n = bs) (clean : Clean bs) (chunk : chunkOf s r v bs = k) (stored : withChunk s.time x k = y)
    (more : allRanks d2 y = false) :
    reduceChunks sh d v 260 (setReq s (beganAt r)) r.id = goNext (gathered s d2 k y) (addLines { r with rdata := [] } (chunkLines s r p)) := by
  have idle : r.pass.started = false := by rw [start]; rfl
  have began := mem_setReq (u := s) (y := beganAt r) mem rfl
  have placed : getReq (setReq s (beganAt r)) r.id = some (beganAt r) := getReq_setReq mem rfl
  have len : k.data.length = n := by rw [← chunk, ← memReadS_length s.mem p.addr n, read]; rfl
  have takes := (chunkTaken_setReq (chunkTaken_setReq taken (beganAt r)) (gotChunk (setReq s (beganAt r)) (beganAt r) sh n p)).localChunk
    (k := k) (y := y) (by rw [← chunk]; rfl) (by rw [← chunk]; rfl) (by rw [← chunk]; rfl) (by rw [← chunk]; rfl) len
    stored more
  rw [gathered_setReq, gathered_setReq] at takes
  have run := (gathered_shell (s := s) (d := d2) (k := k) (y := y)).2
  have goes := reduceChunks_one (sh := sh) (d := d) (v := v) (f := 258) (u := setReq s (beganAt r)) (y := beganAt r)
    (w := setReq (setReq (gathered s d2 k y) (beganAt r)) (gotChunk (setReq s (beganAt r)) (beganAt r) sh n p)) line range.size small began
    placed (by rw [beganAt, beganPass, start]; rfl) (by rw [beganAt, beganPass, start]; rfl)
    (by rw [beganAt, beganPass, start]; rfl) (plainRange_setReq range.toPlainRange _)
    ((ownLineOver_began idle rfl rfl rfl rfl).trans range.clear) ((ownHostOver_began idle rfl rfl rfl rfl).trans range.host) ready.hits
    ready.plain taken.home (by rw [show (setReq s (beganAt r)).mem = s.mem from rfl, read]; exact clean)
    (by rw [show (setReq s (beganAt r)).mem = s.mem from rfl, read]; rw [← chunk] at takes ⊢; exact takes)
    (by simp only [setReq, run])
  refine goes.trans ?_
  have back := reduced_back (sh := sh) (n := n) (p := p) start fresh (ls := chunkLines s r p)
  refine (congrArg (goNext _) back).trans ?_
  exact (goNext_setReq (u := setReq (gathered s d2 k y) (beganAt r)) (by rfl)).trans (goNext_setReq (u := gathered s d2 k y) (by rfl))

end

/-- REDUCE of one plain chunk at a home of the own package. -/
theorem exec_reduce {s0 : State} {t : Mc} {h : HaulerId} {src rid pe fmt : Nat} {d2 : RedCfg} {x y : EpochSt} {k : Chunk} {bs : List SByte}
    (now : atInstr s0 t h (isRow (.reduce src rid pe fmt)) = s) (runs : RunsInstr s h r (.reduce src rid pe fmt)) (ready : PassReady s r)
    (start : r.pass = PassState.start) (fresh : r.wait = none) (red : redCfg s r.ctx rid = some d) (val : (r.params.getD pe 0).toNat = v)
    (taken : ChunkTaken s r.ctx d d2 n v x) (line : OneLine (shapeOf r src) n) (small : n ≤ 4096)
    (range : ReadRange s r (shapeOf r src).base n p) (read : memReadS s.mem p.addr n = bs) (clean : Clean bs) (chunk : chunkOf s r v bs = k)
    (stored : withChunk s.time x k = y) (more : allRanks d2 y = false) :
    exec (.reduce t h) s0 =
      .next (passed (setReq (gathered s d2 k y) (advance (addLines { r with rdata := [] } (chunkLines s r p)))) r) := by
  have idle : r.pass.started = false := by rw [start]; rfl
  have checks : rtCheck s r [rtSide src .r fmt] [] = none := rtCheck_given fun x hx => by
    rw [List.mem_singleton.1 hx]
    exact line.given
  have open' : reduceBarred s r d = none := by simp [reduceBarred, taken.home]
  have notWaiting : (r.wait == some .remote) = false := by rw [fresh]; rfl
  have began : { r with pass := beganPass r [], wait := none } = beganAt r := by
    rw [← fresh]
    rfl
  obtain ⟨shell, run⟩ := gathered_shell (s := s) (d := d2) (k := k) (y := y)
  change execReduce t h s0 = _
  unfold execReduce
  refine withInstr_goesIn (u := gathered s d2 k y) (y := addLines { r with rdata := [] } (chunkLines s r p)) now rfl runs rfl ?_ shell (by rw [run])
  dsimp only
  simp only [red, idle, checks, open', notWaiting, Bool.false_and, Bool.false_eq_true, if_false]
  rw [began, val]
  exact reduceChunks_taken (reqOn_mem runs.req) ready start fresh taken line small range read clean chunk stored more

end

end Sys2Proof.Machine
end

section
/-! The memory-side words (R101 to R103, R346 to R348). -/

namespace Sys2Proof.Machine

theorem hauler_isSome {s : State} {h : HaulerId} {r : Request} {i : HInstr} (runs : RunsInstr s h r i) : r.hauler.isSome = true := by
  have found := List.find?_some (p := fun r : Request => r.half == h.half && r.hauler == some h.idx.val) runs.req
  have mine : r.hauler = some h.idx.val := by
    simp only [Bool.and_eq_true, beq_iff_eq] at found
    exact found.2
  rw [mine]
  rfl

/-- Settles O57: PREFETCH and WILL_NEED promote the IN_HOST block of their span or find nothing to do, the hints mark their block, ATOMIC does
its operation and returns the old value, and a REDUCE stores its chunk at its home. -/
theorem memorySideWordsAct : Obligations.MemorySideWordsAct := by
  unfold Obligations.MemorySideWordsAct
  intro s0 t h r i s runs ready start each fresh goes clean
  have on : r.hauler.isSome = true := hauler_isSome runs
  refine ⟨?_, ?_, ?_, ?_⟩
  · intro k w word c
    obtain ⟨run, runsSpan, e⟩ := prefetchWord (s0 := s0) (t := t) (h := h) word
    refine ⟨fun bs span frames => ?_, fun slot b g span named kind only inHost idle free => ⟨?_, ?_⟩⟩
    · exact e.trans (withInstr_goes rfl rfl runs rfl
        ((runsSpan s r).trans (prefetchSpan_inFrame (getReq_of_mem each (reqOn_mem runs.req)) start span frames)))
    · rintro rfl
      exact e.trans (withInstr_promotes rfl runs each start span named only kind inHost idle free (runsSpan s r))
    · rintro rfl
      change Waits s (exec c s0) (tookOf r (slot, b)) (.prefetch slot b 1) true ∧ ∃ u, exec c s0 = .next u ∧ _
      rw [show exec c s0 = _ from e]
      exact withInstr_awaits rfl runs each start on span named only kind inHost idle free fresh (runsSpan s r)
  · rintro k hint slot b g rfl mark span named only free rests mark'
    exact withInstr_marks rfl runs each start mark span named free rests
  · rintro op wide sg tg opd cmp ret rs p q rfl none' x y n val old mem' done given plain line host isClean
    have state : atomicState s r op opd cmp wide sg p = { s with mem := mem' } := by
      have compared : (if op == 4 then val cmp else 0) = if op = 4 then val cmp else 0 := by simp only [beq_iff_eq]
      exact congrArg (fun c => { s with mem := atomicMem s { op := op, n := n, sg := sg, opd := val opd, cmp := c } p }) compared
    refine ⟨?_, ?_⟩
    · rintro rfl
      have e := exec_atomic_quiet (s0 := s0) (t := t) (h := h) rfl runs ready start fresh none' given plain line host isClean
      rw [state] at e
      exact e
    · rintro rfl line' dest
      have e := exec_atomic_returning (s0 := s0) (t := t) (h := h) rfl runs ready start each fresh none' given plain line host rfl isClean line' dest
      rw [state] at e
      exact e
  · rintro src rid pe f d e red d2 n p rfl rid' home exported target home2 free bars fmt sh v x bs y line small range isClean current member
      opened unbound new profile more place acc inS near es lines
    have taken : ChunkTaken s r.ctx d d2 n v x :=
      ⟨home, ⟨e, red, exported, target, home2, free, bars⟩, fmt, rfl, current, member, opened, unbound, new, profile⟩
    have len : (chunkOf s r v bs).data.length = n := memReadS_length _ _ _
    have stored : withChunk s.time x (chunkOf s r v bs) = y := by
      unfold withChunk
      rw [len]
      rfl
    have placed : redBuffer s d2 ((chunkOf s r v bs).rank * d2.length + (chunkOf s r v bs).off) = place := rfl
    obtain ⟨m, k, frame, same, outside⟩ := gathered_frame (s := s) (d := d2) (k := chunkOf s r v bs) (y := y) (placed ▸ inS) (placed ▸ near)
    have goes' := exec_reduce (s0 := s0) (t := t) (h := h) rfl runs ready start fresh rid' rfl taken line small range rfl isClean rfl stored more
    rw [frame] at goes'
    refine ⟨m, k, goes', same, ?_⟩
    rw [placed, len] at outside
    exact outside

end Sys2Proof.Machine
end

section
/-! O31 fails where a FLASH_WRITE's record is marked as a REPORT's and leaves as one while time passes: the request that has reported ends with
PARTNER_FENCED before the detection, and `cutEffects` drops its records that wait (R115). The answer then finds no FLASH_WRITE in progress any
more, takes the one that stood before for cut by a reset, and the range that it programs holds free values (`answerStart`, R437). -/

namespace Sys2Proof.Machine

/-- A half in Run reacts to a detection as it stands, busy in this mc (R453, R486). -/
theorem onDetection_awake {react : State → Detection → StartEnv → State} {s : State} {d : Detection} {env : StartEnv}
    (run : running s = true) (whole : s.halfReset = ⟨false, false⟩) (awake : s.power.glow = ⟨false, false⟩) :
    onDetection react s d env = react (noteBusy s d.half) d env := by
  have asleep : s.power.glow.get d.half = false := by rw [awake]; cases d.half <;> rfl
  have rests : wakeMonitor s d.half = noteBusy s d.half := by
    rw [wakeMonitor, wakeEvent_awake run, wakeHalf, asleep, Bool.and_false, if_neg Bool.false_ne_true]
  have on : monitorOn (noteBusy s d.half) d.half = true := by
    rw [monitorOn, show running (noteBusy s d.half) = true from run, show (noteBusy s d.half).halfReset = _ from whole]
    cases d.half <;> rfl
  have waits : (noteBusy s d.half).power.glow.get d.half = false := asleep
  simp [onDetection, rests, on, waits]

/-- An answer with no FLASH_WRITE in progress has the flash that a cut leaves. -/
theorem answerStart_cut {s u : State} (none : u.q.records.any isFlashWrite = false) :
    ∃ v, answerStart s u = .next v ∧ v.flash = (cutFlash s).flash :=
  ⟨_, rfl, if_neg (by rw [none]; exact Bool.false_ne_true)⟩

/-- A byte that a cut does not leave at offset 0 of the flash. -/
def uncutByte : Byte := if Config.flashCut 0 0 = 0 then 1 else 0

theorem flashCut_ne_uncutByte : Config.flashCut 0 0 ≠ uncutByte := by
  unfold uncutByte
  split
  next zero => exact zero ▸ by decide
  next nonzero => exact nonzero

/-- A request of which a SIGNAL takes effect in mc 1, and behind it waits one of word 7 to a counter of a partner. -/
def signalling : Request :=
  { outlived with wait := none, latched := none, cause := none, effects := [.sent 1, .signal 0 1 0 7 [] 0] }

/-- The record of a FLASH_WRITE of byte 0, marked as a REPORT of request 0. -/
def reportedWrite : PendingRec :=
  { entryRecord State.reset 0 0 false 0 0 with rep := some 0, flash := some (0, 1) }

/-- A machine in Run with this request and this record, in which the partner is Fenced; the flash holds one byte that is not erased. -/
def reporting : State :=
  { fencedPartner with
    flash := [(0, uncutByte)], q := { fencedPartner.q with records := [reportedWrite] }, run := { fencedPartner.run with reqs := [signalling] } }

/-- A corrected ECC error of the Stockpile. -/
def correctedError : Detection :=
  { half := .east, mech := 6, unitClass := 4, unit := 0, slot := 0, object := 0, lines := [], corrected := true, owner := none, counter := 0
    hashing := [], chainHead := none }

/-- A cut of its FLASH_WRITE changes the byte. -/
theorem cutFlash_reporting : (cutFlash reporting).flash ≠ reporting.flash := by
  have cut : (cutFlash reporting).flash = sparseNew flashByte 0 [Config.flashCut 0 0] := List.append_nil _
  have held : reporting.flash = [(0, uncutByte)] := rfl
  rw [cut, held, sparseNew, sparseNew]
  split
  · exact (List.cons_ne_nil _ _).symm
  · simpa using flashCut_ne_uncutByte

/-- In mc 1 the machine is in Run, and the record is gone. -/
theorem reporting_in_mc_1 :
    running (atTime reporting 1) = true ∧ (atTime reporting 1).halfReset = ⟨false, false⟩ ∧
      (atTime reporting 1).power.glow = ⟨false, false⟩ ∧ (atTime reporting 1).mem.wf ∧
      (atTime reporting 1).q.records.any isFlashWrite = false := by decide +kernel

/-- The corrected error that comes in mc 1 leaves the flash cut. -/
theorem flash_of_correctedError (env : StartEnv) :
    ∃ v, exec (.containedDetection 1 correctedError env) reporting = .next v ∧ v.flash = (cutFlash reporting).flash := by
  obtain ⟨run, whole, awake, -, none⟩ := reporting_in_mc_1
  have counted : onDetection reactContained (atTime reporting 1) correctedError env =
      countContained (noteBusy (atTime reporting 1) .east) correctedError := onDetection_awake run whole awake
  exact answerStart_cut (u := onDetection reactContained (atTime reporting 1) correctedError env) (by rw [counted]; exact none)

/-- Refutes O31: a corrected error that `reporting` meets in mc 1 changes its flash, where the statement has it count alone. No record of a
FLASH_WRITE is a REPORT's in a machine that has come from a reset, but the statement is of every state; it would need the premise of
`Obligations.EveryResetReachesRun` that the FLASH_WRITEs in progress before and after the passing of time are the same. -/
theorem not_containedDetectionsOnlyCount : ¬ Obligations.ContainedDetectionsOnlyCount := by
  intro holds
  let env : StartEnv := ⟨true, true, true, true, [], []⟩
  obtain ⟨run, whole, awake, wf, -⟩ := reporting_in_mc_1
  obtain ⟨counts, -⟩ := holds reporting 1 correctedError env .east 0 ⟨.east, .anvil, 0⟩ true run whole awake wf
  obtain ⟨v, answered, cut⟩ := flash_of_correctedError env
  cases answered.symm.trans (counts rfl rfl)
  exact cutFlash_reporting (cut.symm.trans (atTime_flash reporting 1))

end Sys2Proof.Machine
end

section
/-! The register writes of a partition's page that R531, R532 and R538 let through, and FV_FAULT_SATCLR (R179). -/

namespace Sys2Proof.Machine

section
variable {s s0 : State} {t : Mc} {p : Fin 16} {w : RegWrite}

/-- The mover in Run serves its registers. -/
theorem regsServed_of_running (run : running s = true) : regsServed s = true := by
  simp only [running, Bool.and_eq_true] at run
  obtain ⟨⟨-, warm⟩, awake⟩ := run
  rw [regsServed, warm, awake]
  rfl

theorem up_of_running (run : running s = true) : s.power.up = true := by
  simp only [running, Bool.and_eq_true] at run
  exact run.1.1

theorem pagePart_of_pageWrite (reaches : PageWrite s p w) : pagePart w.page = p.val := by
  rw [reaches.page]
  rfl

/-- A page write reaches every register that maintenance configuration closes. -/
theorem regOpen_plain_of_pageWrite (reaches : PageWrite s p w) : regOpen s w .plain = true := by
  simp [regOpen, pagePart, regsServed_of_running reaches.run, up_of_running reaches.run, reaches.page, reaches.size, reaches.port, reaches.maint]

/-- CLEAR with bit 0 set, while the selection names a context of the partition. -/
theorem execClear_clears (reaches : PageWrite (hostAt s0 t w.port) p w) (set : regBit w 0 = true)
    (declared : (ctxCfg (hostAt s0 t w.port) (bits (getSel (hostAt s0 t w.port) w.page).fault 19 12)).isSome = true)
    (own : partOfCtx (hostAt s0 t w.port) (bits (getSel (hostAt s0 t w.port) w.page).fault 19 12) = p.val) :
    execClear t w s0 = answer s0 (updChannel (hostAt s0 t w.port) (bits (getSel (hostAt s0 t w.port) w.page).fault 19 12)
      (bits (getSel (hostAt s0 t w.port) w.page).fault 11 0) fun c => { c with sat := 0, raised := false }) := by
  unfold execClear
  refine if_neg ?_
  simp [regOpen_plain_of_pageWrite reaches, set, Option.ne_none_iff_isSome.2 declared, own, pagePart_of_pageWrite reaches]

end

/-- Settles O14: the write reaches FV_FAULT_SATCLR, and CLEAR changes the channels alone. -/
theorem saturationClearRearmsTheChannel : Obligations.SaturationClearRearmsTheChannel := by
  unfold Obligations.SaturationClearRearmsTheChannel
  intro s0 t p w s reaches odd sel ctx ch declared own
  have set : regBit w 0 = true := by simp [regBit, bit, odd]
  have selCtx : bits (getSel s w.page).fault 19 12 = ctx := by rw [reaches.page]; rfl
  have selChannel : bits (getSel s w.page).fault 11 0 = ch := by
    rw [reaches.page]
    exact congrArg (· % 4096) (Nat.div_one sel)
  have clears := execClear_clears reaches set (selCtx ▸ declared) (selCtx ▸ own)
  rw [selCtx, selChannel] at clears
  exact clears.trans (answer_hostAt_eq rfl rfl rfl)

end Sys2Proof.Machine
end

section
/-! O58 fails at an Anvil port under a loop test at depth L5: the port carries only the test's lines until the test ends (R505), so that what
is on its way to it does not land 12 mc after its bundle. A machine comes to this from reset: in maintenance configuration, which alone runs
such a test, a faulty RD still writes its landing unit (R269, R434). -/

namespace Sys2Proof.Machine

/-- A start-up whose flash does not answer: it ends in maintenance configuration. -/
def startWithoutFlash : Instr := .coldStart 0
  { stacksPowered := true, flashAnswers := false, copyCrcOk := true, headCrcOk := true, failing := [], responses := [] }

/-- START of a loop test of one line at depth L5, for Anvil port 1 of the East half. -/
def startPortTest : Instr := .loopStart 0 { port := .east, page := .part 0, size := 8, value := 0x0000_0001_0001_0501 }

/-- An RD of ring 0 to unit 0 of Anvil port 1 of the East half. -/
def readToPort : Instr := .rd 0
  { half := .east, ctx := 0, vcyc := 7, aops := [(1, 0x1100_0000_0000_0000)], cops := [], stData := [] }

/-- The state that a command leaves; a command that answers no next state leaves the one before it. -/
def stateAfter (s : State) (i : Instr) : State :=
  match exec i s with
  | .next u => u
  | _ => s

/-- The machine after the three commands: the faulty RD's unit is on its way to a port under test. -/
def landingUnderTest : State := [startWithoutFlash, startPortTest, readToPort].foldl stateAfter State.reset

def testedPort : AnvilPort := getAnvil landingUnderTest .east 1

/-- The unit that the faulty RD writes: all its lines are spoiled, and its bytes are free values. -/
def faultyUnit : Landing := { unit := 0, data := spoiledBytes State.reset 1024, spoil := [true, true, true, true], ctx := 0 }

def faultyUnitMsg : PortMsg := { due := 12, ctx := 0, bank := none, data := .unit faultyUnit }

theorem testedPort_mem : testedPort ∈ landingUnderTest.buf.anvils :=
  List.mem_of_find?_eq_some (p := fun y => y.half == .east && y.ap == 1) rfl

/-- No two records are of one port. -/
theorem ports_landingUnderTest_nodup : (landingUnderTest.buf.anvils.map fun y => (y.half, y.ap)).Nodup := by decide +kernel

theorem testedPort_only : ∀ y ∈ landingUnderTest.buf.anvils, y.half = testedPort.half → y.ap = testedPort.ap → y = testedPort :=
  fun _ mem half ap => List.inj_on_of_nodup_map ports_landingUnderTest_nodup mem testedPort_mem (Prod.ext half ap)

theorem coming_testedPort : testedPort.coming = [faultyUnitMsg] := rfl

theorem faultyUnitMsg_ahead : landingUnderTest.time < faultyUnitMsg.due := by decide +kernel

/-- But for the unit, nothing is under way: the test's line returns by a command. -/
theorem nextEvent_without_faultyUnit :
    nextEvent (updAnvil landingUnderTest testedPort.half testedPort.ap fun y => { y with coming := [] }) = none := rfl

/-- The port is under test, so that in mc 12, in which the unit is due, it is still on its way. -/
theorem faultyUnit_waits :
    unitLooped landingUnderTest 5 .east 1 = true ∧ (getAnvil (atTime landingUnderTest 12) .east 1).coming = [faultyUnitMsg] := ⟨rfl, rfl⟩

/-- Refutes O58: by its clause on arrivals the unit of `landingUnderTest` lands in mc 12 and leaves nothing on its way to the port, where it
waits for the end of the test. The clause would need the premise that no test at L5 runs at the port (`unitLooped`). -/
theorem not_bundlesReadAndStore : ¬ Obligations.BundlesReadAndStore := by
  intro holds
  obtain ⟨-, arrives, -, -⟩ := holds
  obtain ⟨lands, -⟩ := arrives landingUnderTest testedPort faultyUnitMsg testedPort_mem testedPort_only coming_testedPort faultyUnitMsg_ahead rfl
    nextEvent_without_faultyUnit
  have landed := lands faultyUnit rfl
  have gone : (getAnvil (atTime landingUnderTest 12) .east 1).coming = [] := by
    rw [getAnvil, show (atTime landingUnderTest 12).buf = _ from landed]
    rfl
  obtain ⟨-, waits⟩ := faultyUnit_waits
  exact List.cons_ne_nil _ _ (waits.symm.trans gone)

end Sys2Proof.Machine
end

section
/-! The admin queues' registers (R275, R436), and writes of registers by their offset (R280, R530). -/

namespace Sys2Proof.Machine

/-! ### Admin queues -/

/-- A write of FV_QUEUES_ADMINCTL that reaches it recovers the queues that its bits name. -/
theorem writeAdminCtl_recovers {s : State} {p : Fin 16} {w : RegWrite} {c : PartCfg} (reaches : PageWrite s p w)
    (declared : partCfg s p.val = some c) :
    writeAdminCtl s w = { s with q := { s.q with
      sqs := if w.value.toNat % 2 = 1 then s.q.sqs.map fun q =>
          if q.qid == p.val then { q with st := .enabled, base := c.adminSqBase, tail := 0, head := 0, held := [] } else q
        else s.q.sqs
      cqs := if w.value.toNat / 2 % 2 = 1 then s.q.cqs.map fun q =>
          if q.qid == p.val then { q with st := .enabled, base := c.adminCqBase, count := 0, head := 0, unsignalled := 0 } else q
        else s.q.cqs } } := by
  have cfg (q : State) (same : q.cfg = s.cfg) : partCfg q p.val = some c := by rw [← declared, partCfg, partCfg, same]
  simp only [writeAdminCtl, regOpen_plain_of_pageWrite reaches, pagePart_of_pageWrite reaches, regBit, bit, pow_zero, pow_one, Nat.div_one,
    beq_iff_eq, Bool.not_true, Bool.false_eq_true, if_false]
  by_cases sq : w.value.toNat % 2 = 1 <;> by_cases cq : w.value.toNat / 2 % 2 = 1 <;>
    simp [sq, cq, recoverSq, recoverCq, updSq, updCq, updWhere, cfg]

section
variable {s0 : State} {t : Mc} {w : RegWrite}

/-- Maintenance configuration leaves FV_CFG_MAINTBASE of partition 0 writable. -/
theorem regOpen_maintBase {s : State} (page : w.page = .part 0) (size : w.size = 8) (port : w.port = homePort s 0)
    (run : running s = true) : regOpen s w .maintBase = true := by
  simp [regOpen, pagePart, regsServed_of_running run, up_of_running run, page, size, port]

theorem maintEnabled_iff (s : State) : maintEnabled s = true ↔
    (∃ q, getSq s 0 = some q ∧ q.st = .enabled) ∧ ∃ q, getCq s 0 = some q ∧ q.st = .enabled := by
  simp [maintEnabled, Option.any_eq_true]

/-- GO while both admin queues of partition 0 are ENABLED. -/
theorem execGo_ignored (both : maintEnabled (hostAt s0 t w.port) = true) (set : regBit w 0 = true) :
    execGo t w s0 = answer s0 (hostAt s0 t w.port) :=
  if_pos (by simp [both, set])

/-- GO while one of them is not. -/
theorem execGo_enables (open' : regOpen (hostAt s0 t w.port) w .maintBase = true) (page : w.page = .part 0)
    (maint : (hostAt s0 t w.port).status.maint = true) (set : regBit w 0 = true)
    (other : maintEnabled (hostAt s0 t w.port) = false) :
    execGo t w s0 = answer s0 (maintQueues { hostAt s0 t w.port with
      status := { (hostAt s0 t w.port).status with maintBase := regBits w 42 12 * 4096 } } (regBits w 42 12 * 4096)) := by
  simp [execGo, open', page, pagePart, maint, set, other]

end

/-- Settles O18: a write of FV_QUEUES_ADMINCTL is `writeAdminCtl`, and GO leaves `maintQueues`. -/
theorem adminQueuesAreRecoveredAndEnabled : Obligations.AdminQueuesAreRecoveredAndEnabled := by
  unfold Obligations.AdminQueuesAreRecoveredAndEnabled
  refine ⟨?_, ?_⟩
  · intro s0 t p w c s reaches declared sqs cqs i hi
    have recovers : answer s0 (writeAdminCtl s w) = .next _ :=
      (congrArg (answer s0) (writeAdminCtl_recovers reaches declared)).trans (answer_hostAt_eq rfl rfl rfl)
    simp only [List.mem_cons, List.not_mem_nil, or_false] at hi
    rcases hi with rfl | rfl <;> exact recovers
  · intro s0 t w s page size port run maint odd base both
    have set : regBit w 0 = true := by simp [regBit, bit, odd]
    refine ⟨fun enabled => (execGo_ignored ((maintEnabled_iff s).2 enabled) set).trans (answer_hostAt_eq rfl rfl rfl), fun other => ?_⟩
    have off : maintEnabled s = false := Bool.eq_false_iff.2 fun on => other ((maintEnabled_iff s).1 on)
    refine ⟨_, (execGo_enables (regOpen_maintBase page size port run) page maint set off).trans (answer_hostAt_eq rfl rfl rfl), rfl, ?_, ?_, rfl, rfl⟩
    · exact ⟨_, rfl, rfl, rfl, rfl, rfl, rfl⟩
    · exact ⟨_, rfl, rfl, rfl, rfl, rfl⟩

end Sys2Proof.Machine
end

section
/-! A write of a register by its aperture offset (R280, R530, R533). -/

namespace Sys2Proof.Machine

/-- A register of a partition's page lies in that page. -/
theorem execRegisterWrite_page {t : Mc} {port : Half} {p : Fin 16} {r : Nat} {v : Word} (inside : r < 0x1_0000) (word : r % 8 = 0)
    (s : State) : execRegisterWrite t port (p.val * 0x1_0000 + r) 8 v s =
      writePage t { port := port, page := .part p, size := 8, value := v } r s := by
  have page : (p.val * 0x1_0000 + r) / 0x1_0000 = p.val := by omega
  have offset : (p.val * 0x1_0000 + r) % 0x1_0000 = r := by omega
  have aligned : (p.val * 0x1_0000 + r) % 8 = 0 := by omega
  have low : p.val * 0x1_0000 + r < 0x20_0000 := by omega
  simp [execRegisterWrite, low, pageOf, page, aligned, offset]

/-- A word of a partition's doorbell region. -/
theorem execRegisterWrite_bell {t : Mc} {port : Half} {p : Fin 16} {j : Nat} {v : Word} (inside : j < 0x4000) (s : State) :
    execRegisterWrite t port (0x20_0000 + p.val * 0x2_0000 + j * 8) 4 v s =
      writeBell t j { port := port, part := p, size := 4, value := v } s := by
  have region : (0x20_0000 + p.val * 0x2_0000 + j * 8 - 0x20_0000) / 0x2_0000 = p.val := by omega
  have place : (0x20_0000 + p.val * 0x2_0000 + j * 8 - 0x20_0000) % 0x2_0000 / 8 = j := by omega
  have aligned : (0x20_0000 + p.val * 0x2_0000 + j * 8) % 8 = 0 := by omega
  have high : ¬ 0x20_0000 + p.val * 0x2_0000 + j * 8 < 0x20_0000 := by omega
  simp [execRegisterWrite, high, region, place, aligned]

/-- The registers whose writes are commands, by their offset in the page (chapter "Register map"). -/
def namedRegisters (t : Mc) (w : RegWrite) : List (Nat × Instr) :=
  [(0x1018, .shadow t w), (0x1020, .commit t w), (0x1020, .discard t w), (0x2040, .adminSqRecover t w), (0x2040, .adminCqRecover t w),
   (0x6018, .hostAdd t w), (0x6028, .stallPending t w), (0x8008, .faultQueueEnable t w), (0x8010, .faultQueueHead t w),
   (0x8038, .clear t w), (0xA008, .ledgerQueueEnable t w), (0xA010, .ledgerQueueHead t w), (0xB008, .bank t w), (0xB008, .holdRun t w),
   (0xB028, .powerLogSelect t w), (0xC000, .alert t w), (0xC028, .integrityLogSelect t w), (0xE020, .go t w)]

theorem writePage_named (t : Mc) (w : RegWrite) (s : State) :
    ∀ x ∈ namedRegisters t w, x.1 < 0x1_0000 ∧ x.1 % 8 = 0 ∧ writePage t w x.1 s = exec x.2 s := by
  simp only [namedRegisters, List.forall_mem_cons, List.not_mem_nil, false_implies, implies_true, and_true]
  simp [writePage, exec, execDiscard, execCommit, execAdminCqRecover, execAdminSqRecover, execHoldRun, execBank]

/-- A register of the test block. -/
theorem writePage_test {t : Mc} {w : RegWrite} {r : Nat} (test : r = 0xD000 ∨ r = 0xD038 ∨ r = 0xD050) (s : State) :
    writePage t w r s = answer s (if testOpen (hostAt s t w.port) w then writeTest (hostAt s t w.port) r w.value.toNat
      else hostAt s t w.port) := by
  rcases test with rfl | rfl | rfl <;> simp [writePage, writePlain, isSelector]

/-! ### Self-tests with drawn findings -/

/-- The machine after `d` draws (assumption 9). -/
def withDrawn (s : State) (d : Nat) : State := { s with drawn := d }

/-- A memory test draws nothing beyond what it is given. -/
theorem writeMbist_withDrawn (s : State) (v d : Nat) (failing : List (Fin 128)) :
    writeMbist (withDrawn s d) v failing = withDrawn (writeMbist s v failing) d := by
  by_cases starts : (bit v 0 && s.status.maint && s.test.mbist.isNone) = true
  · exact (if_pos starts).trans (congrArg (withDrawn · d) (if_pos starts : writeMbist s v failing = _).symm)
  · exact (if_neg starts).trans (congrArg (withDrawn · d) (if_neg starts : writeMbist s v failing = _).symm)

theorem foldl_retireSlice_withDrawn (d : Nat) : ∀ (xs : List Slice) (s : State),
    xs.foldl retireSlice (withDrawn s d) = withDrawn (xs.foldl retireSlice s) d
  | [], _ => rfl
  | x :: xs, s => foldl_retireSlice_withDrawn d xs (retireSlice s x)

/-- Nor does a logic self-test. -/
theorem writeLbist_withDrawn (s : State) (v d : Nat) (failing : List Slice) :
    writeLbist (withDrawn s d) v failing = withDrawn (writeLbist s v failing) d := by
  by_cases starts : (bit v 0 && s.status.maint) = true
  · refine (if_pos starts).trans ((congrArg (updTest · _) (foldl_retireSlice_withDrawn d _ s)).trans ?_)
    exact congrArg (withDrawn · d) (if_pos starts : writeLbist s v failing = _).symm
  · exact (if_neg starts).trans (congrArg (withDrawn · d) (if_neg starts : writeLbist s v failing = _).symm)

theorem writeTest_mbist (s : State) (v : Nat) : writeTest s 0xD038 v =
    withDrawn (writeMbist s v (drawSome (List.finRange 128) s).1) (drawSome (List.finRange 128) s).2.drawn := by
  rw [← writeMbist_withDrawn]
  simp only [writeTest, Nat.reduceBEq, Bool.false_eq_true, if_false, if_true]
  rfl

theorem writeTest_lbist (s : State) (v : Nat) : writeTest s 0xD050 v =
    withDrawn (writeLbist s v (drawSome allSlices s).1) (drawSome allSlices s).2.drawn := by
  rw [← writeLbist_withDrawn]
  simp only [writeTest, Nat.reduceBEq, Bool.false_eq_true, if_false, if_true]
  rfl

/-- Where a write draws what the command is given, the two answers differ in the draws alone. -/
theorem answer_withDrawn (s x y : State) (b : Bool) (d : Nat) :
    ∃ u v, answer s (if b then y else x) = .next u ∧ answer s (if b then withDrawn y d else x) = .next v ∧ v = withDrawn u v.drawn := by
  cases b <;> exact ⟨_, _, rfl, rfl, rfl⟩

/-- Settles O10: the offset finds the register's page, or the doorbell's region, and there the command of its name. -/
theorem registerWriteIsTheNamedCommand : Obligations.RegisterWriteIsTheNamedCommand := by
  unfold Obligations.RegisterWriteIsTheNamedCommand
  intro s t port p v w at'
  have page {r : Nat} (inside : r < 0x1_0000) (word : r % 8 = 0) : at' r = writePage t w r s := execRegisterWrite_page inside word s
  have test {r : Nat} (is : r = 0xD000 ∨ r = 0xD038 ∨ r = 0xD050) : at' r =
      answer s (if testOpen (hostAt s t port) w then writeTest (hostAt s t port) r v.toNat else hostAt s t port) :=
    (page (by omega) (by omega)).trans (writePage_test is s)
  have named : ∀ x ∈ namedRegisters t w, at' x.1 = exec x.2 s := by
    intro x hx
    obtain ⟨inside, word, is⟩ := writePage_named t w s x hx
    exact (page inside word).trans is
  simp only [namedRegisters, List.forall_mem_cons, List.not_mem_nil, false_implies, implies_true, and_true] at named
  obtain ⟨shadow, commit, discard, sqRecover, cqRecover, hostAdd, stall, faultEnable, faultHead, clear, ledgerEnable, ledgerHead, bank, hold,
    powerLog, alert, intLog, go⟩ := named
  refine ⟨shadow, commit, discard, sqRecover, cqRecover, hostAdd, stall, faultEnable, faultHead, clear, ledgerEnable, ledgerHead, bank, hold,
    powerLog, alert, intLog, ?_, go, ?_, ?_, fun j inside => execRegisterWrite_bell inside s⟩
  · exact (test (.inl rfl)).trans (apply_ite (answer s) _ _ _)
  · rw [test (.inr (.inl rfl)), writeTest_mbist]
    exact ⟨_, answer_withDrawn s (hostAt s t port) _ _ _⟩
  · rw [test (.inr (.inr rfl)), writeTest_lbist]
    exact ⟨_, answer_withDrawn s (hostAt s t port) _ _ _⟩

end Sys2Proof.Machine
end

section
/-! Records that become ready (R287, R291, R299), and changes of one queue. -/

namespace Sys2Proof.Machine

/-! ### Records -/

/-- The machine once the records `rs` have become ready. -/
def withRecords (s : State) (rs : List PendingRec) : State := { s with q := { s.q with records := joinRecords s.q.records rs } }

theorem withRecords_nil (s : State) : withRecords s [] = s := rfl

theorem withRecords_append (s : State) (xs ys : List PendingRec) : withRecords (withRecords s xs) ys = withRecords s (xs ++ ys) := by
  simp only [withRecords, joinRecords, List.foldl_append]

theorem readyRecord_now {s : State} {r : PendingRec} (now : r.ready = s.time) : readyRecord s r = withRecords s [r] := by
  simp only [readyRecord, withRecords, joinRecords, ← now, List.foldl_cons, List.foldl_nil]

/-- The records of entries that complete one after the other. -/
theorem foldl_entryRecords {α : Type} (q status detail : Nat) (tag : α → Nat) (irq : α → Bool) : ∀ (xs : List α) (s : State),
    xs.foldl (fun s x => readyRecord s (entryRecord s q (tag x) (irq x) status detail)) s =
      withRecords s (xs.map fun x => entryRecord s q (tag x) (irq x) status detail)
  | [], _ => rfl
  | _ :: xs, s => foldl_entryRecords q status detail tag irq xs (readyRecord s _)

/-- An entry of an admin queue that completes with no bytes. -/
theorem entryRecord_admin {q : Nat} (admin : q < 16) (s : State) (e : List Byte) (status detail : Nat) :
    entryRecord s q (entryTag e) (entryIrq e) status detail = adminAnswer s.time q e status detail 0 := by
  simp only [entryRecord, cqOf, if_pos admin]
  rfl

theorem adminRecord_eq (s : State) (p : Fin 16) (e : List Byte) (status detail bytes : Nat) :
    adminRecord s p.val (entryTag e) (entryIrq e) status detail bytes = withRecords s [adminAnswer s.time p.val e status detail bytes] := by
  unfold adminRecord
  rw [entryRecord_admin p.isLt]
  exact readyRecord_now rfl

theorem finishAdmin_eq (s : State) (p : Fin 16) (e : List Byte) (status detail : Nat) :
    finishAdmin s p.val e status detail = withRecords s [adminAnswer s.time p.val e status detail 0] := adminRecord_eq s p e status detail 0

/-! ### Changes of one queue -/

theorem updSq_updSq (s : State) (q : Nat) (f g : SubQueue → SubQueue) (keeps : ∀ y, (f y).qid = y.qid) :
    updSq (updSq s q f) q g = updSq s q fun y => g (f y) := by
  simp only [updSq, updWhere, List.map_map]
  refine congrArg (fun l => { s with q := { s.q with sqs := l } }) (List.map_congr_left fun y _ => ?_)
  by_cases h : y.qid = q <;> simp [h, keeps]

/-- The one record of a queue, changed. -/
theorem updSq_only {s : State} {q : Nat} {x : SubQueue} (only : ∀ y ∈ s.q.sqs, y.qid = q → y = x) (f : SubQueue → SubQueue) :
    updSq s q f = { s with q := { s.q with sqs := s.q.sqs.map fun y => if y.qid == q then f x else y } } := by
  simp only [updSq, updWhere]
  refine congrArg (fun l => { s with q := { s.q with sqs := l } }) (List.map_congr_left fun y hy => ?_)
  by_cases h : y.qid = q
  · rw [only y hy h]
  · simp [h]

/-- A change of a queue that keeps its number is found there. -/
theorem getSq_updSq {s : State} {q k : Nat} {f : SubQueue → SubQueue} (keeps : ∀ y, (f y).qid = y.qid) :
    getSq (updSq s q f) k = (getSq s k).map fun y => if y.qid == q then f y else y := by
  refine find?_map_of_keeps (fun y => ?_) s.q.sqs
  by_cases h : y.qid = q <;> simp [h, keeps]

theorem getSq_qid {s : State} {q : Nat} {x : SubQueue} (found : getSq s q = some x) : x.qid = q := by
  simpa using List.find?_some found

end Sys2Proof.Machine
end

section
/-! Doorbells (R280 to R282, R290), which meet their queue as the mc sees it (R304). -/

namespace Sys2Proof.Machine

/-! ### The windows of a queue -/

section
variable {s : State} {q v : Nat}

theorem ringTail_closed {x : SubQueue} (seen : seenSq s q = some x) (closed : x.st ≠ .enabled) : ringTail s q v = s := by
  simp [ringTail, seen, closed]

/-- A tail within both windows of an ENABLED queue is its tail. -/
theorem ringTail_moves {x : SubQueue} (seen : seenSq s q = some x) (enabled : x.st = .enabled) (tail : sub32b v x.tail ≤ sqDepth s q)
    (head : sub32b v x.head ≤ sqDepth s q) : ringTail s q v = updSeenSq s q fun y => { y with tail := v } := by
  simp [ringTail, seen, enabled, Nat.not_lt.2 tail, Nat.not_lt.2 head]

/-- A tail beyond one of them puts the queue in ERROR. -/
theorem ringTail_fails {x : SubQueue} (seen : seenSq s q = some x) (enabled : x.st = .enabled)
    (beyond : sqDepth s q < sub32b v x.tail ∨ sqDepth s q < sub32b v x.head) :
    ringTail s q v = queueError (updSeenSq s q fun y => if y.st = .enabled then { y with st := .error, held := [] } else y) q x.tail v := by
  simp [ringTail, seen, enabled, beyond]

/-- The event of a queue that enters ERROR (R282). -/
theorem queueError_open {p : Nat} {fq : FaultQ} (own : sqOwner s q = some p) (batch : BatchOpen s p fq) (old new : Nat) :
    queueError s q old new = { s with
      seg := withEvent s p
        (eventRec 0x000B (((sqCfg s q).map (·.ctx)).getD 0) (decide (q < 16)) q (old * 2 ^ 32 + new) s.time) } := by
  unfold queueError
  rw [own]
  exact raiseEvent_open batch _ _ _ _ _

/-- A tail beyond one of the windows, while the batch of the queue's partition takes the event. -/
theorem ringTail_fails_open {x : SubQueue} {p : Nat} {fq : FaultQ} (seen : seenSq s q = some x) (enabled : x.st = .enabled)
    (beyond : sqDepth s q < sub32b v x.tail ∨ sqDepth s q < sub32b v x.head) (own : sqOwner s q = some p) (batch : BatchOpen s p fq) :
    ringTail s q v = { s with
      q := { s.q with
        sqs := s.q.sqs.map fun y => if y.qid == q then (if y.st = .enabled then { y with st := .error, held := [] } else y) else y
        oldSqs := s.q.oldSqs.map fun o =>
          if o.2.qid == q then (o.1, if o.2.st = .enabled then { o.2 with st := .error, held := [] } else o.2) else o }
      seg := withEvent s p
        (eventRec 0x000B (((sqCfg s q).map (·.ctx)).getD 0) (decide (q < 16)) q (x.tail * 2 ^ 32 + v) s.time) } :=
  (ringTail_fails seen enabled beyond).trans (queueError_open (s := updSeenSq s q _) own (batchOpen_congr batch rfl) x.tail v)

theorem ringHead_closed {x : CompQueue} (seen : seenCq s q = some x) (closed : x.st ≠ .enabled) : ringHead s q v = s := by
  simp [ringHead, seen, closed]

/-- A head up to the count of an ENABLED queue is its head, and one beyond it puts the queue in ERROR. -/
theorem ringHead_open {x : CompQueue} (seen : seenCq s q = some x) (enabled : x.st = .enabled) :
    ringHead s q v = updSeenCq s q fun y => if sub32b v x.head ≤ sub32b x.count x.head then { y with head := v }
      else if y.st = .enabled then { y with st := .error } else y := by
  by_cases inside : sub32b v x.head ≤ sub32b x.count x.head
  · simp [ringHead, seen, enabled, inside, Nat.not_lt.2 inside]
  · simp [ringHead, seen, enabled, inside, Nat.not_le.1 inside]

end

/-! ### Commands -/

/-- A doorbell write that R280 lets through. -/
def bellRings (s : State) (w : BellWrite) : Prop := w.port = homePort s w.part.val ∧ (w.size = 4 ∨ (w.size = 8 ∧ w.value.toNat < 2 ^ 32))

theorem bellRings_iff (s : State) (w : BellWrite) : bellRings s w ↔ (w.port != homePort s w.part.val || !bellOk w) = false := by
  simp [bellRings, bellOk, or_iff_not_imp_left]

section
variable {s0 : State} {t : Mc} {w : BellWrite} {q : Fin 8192} {c : Fin 2048} (run : running (hostAt s0 t w.port) = true)
include run

theorem execSqDoorbell_counted (deaf : ¬ bellRings (hostAt s0 t w.port) w ∨ sqOwner (hostAt s0 t w.port) q.val ≠ some w.part.val) :
    execSqDoorbell t q w s0 = answer s0 (countBell (hostAt s0 t w.port) w.part.val) := by
  rw [bellRings_iff, Bool.not_eq_false] at deaf
  simp only [execSqDoorbell, run, Bool.not_true, Bool.false_eq_true, if_false]
  exact if_pos (Bool.or_eq_true_iff.2 (deaf.imp_right bne_iff_ne.2))

theorem execSqDoorbell_rings (rings : bellRings (hostAt s0 t w.port) w) (own : sqOwner (hostAt s0 t w.port) q.val = some w.part.val) :
    execSqDoorbell t q w s0 = answer s0 (ringTail (hostAt s0 t w.port) q.val (bellValue w)) := by
  rw [bellRings_iff] at rings
  simp [execSqDoorbell, run, rings, own]

theorem execCqDoorbell_counted (deaf : ¬ bellRings (hostAt s0 t w.port) w ∨ cqOwner (hostAt s0 t w.port) c.val ≠ some w.part.val) :
    execCqDoorbell t c w s0 = answer s0 (countBell (hostAt s0 t w.port) w.part.val) := by
  rw [bellRings_iff, Bool.not_eq_false] at deaf
  simp only [execCqDoorbell, run, Bool.not_true, Bool.false_eq_true, if_false]
  exact if_pos (Bool.or_eq_true_iff.2 (deaf.imp_right bne_iff_ne.2))

theorem execCqDoorbell_rings (rings : bellRings (hostAt s0 t w.port) w) (own : cqOwner (hostAt s0 t w.port) c.val = some w.part.val) :
    execCqDoorbell t c w s0 = answer s0 (ringHead (hostAt s0 t w.port) c.val (bellValue w)) := by
  rw [bellRings_iff] at rings
  simp [execCqDoorbell, run, rings, own]

end

/-- Settles O33: a write that R280 lets through is `ringTail` or `ringHead`, on the queue as the mc sees it; any other is `countBell`. -/
theorem doorbellsMoveTailAndHead : Obligations.DoorbellsMoveTailAndHead := by
  unfold Obligations.DoorbellsMoveTailAndHead
  intro s0 t q c w s run p v above ok counted sqMet cqMet sqs cqs
  have discards : answer s0 (countBell s p) = .next counted := by
    rw [countBell_eq]
    exact answer_hostAt_eq rfl rfl rfl
  refine ⟨fun deaf => (execSqDoorbell_counted run deaf).trans discards, fun deaf => (execCqDoorbell_counted run deaf).trans discards, ?_, ?_⟩
  · intro x rings own seen
    have rung {u : State} (is : ringTail s q.val v = u) (hu : answer s0 u = .next u) : exec (.sqDoorbell t q w) s0 = .next u :=
      (execSqDoorbell_rings run rings own).trans ((congrArg (answer s0) is).trans hu)
    refine ⟨fun closed => ?_, fun enabled tail head => ?_, fun fq enabled beyond batch => ?_⟩
    · exact rung (ringTail_closed seen closed) (answer_hostAt_eq rfl rfl rfl)
    · exact rung (ringTail_moves seen enabled tail head) (answer_hostAt_eq rfl rfl rfl)
    · exact rung (ringTail_fails_open seen enabled beyond own batch) (answer_hostAt_eq rfl rfl rfl)
  · intro x rings own seen
    have rung {u : State} (is : ringHead s c.val v = u) (hu : answer s0 u = .next u) : exec (.cqDoorbell t c w) s0 = .next u :=
      (execCqDoorbell_rings run rings own).trans ((congrArg (answer s0) is).trans hu)
    exact ⟨fun closed => rung (ringHead_closed seen closed) (answer_hostAt_eq rfl rfl rfl),
      fun enabled => rung (ringHead_open seen enabled) (answer_hostAt_eq rfl rfl rfl)⟩

end Sys2Proof.Machine
end

section
/-! Entry fetch (R276, R284), and the early checks of an admin entry (R299). -/

namespace Sys2Proof.Machine

/-! ### Entries that an admin queue reads -/

theorem adminEarly_type {e : List Byte} (type : fieldAt e 0 1 ≠ 0x10) : adminEarly e = some 0x2001 := if_pos (by simpa using type)

/-- An entry of a known command, with no reserved bit set. -/
theorem adminEarly_clear {e : List Byte} (type : fieldAt e 0 1 = 0x10) (flags : fieldAt e 1 1 = 0 ∨ fieldAt e 1 1 = 2)
    (pmask : fieldAt e 2 2 = 0) (reserved : fieldAt e 10 6 = 0)
    (known : fieldAt e 8 2 ∈ [1, 2, 3, 4, 5, 0x10, 0x20, 0x21, 0x22, 0x23, 0x30, 0x40, 0x50, 0x51, 0x52, 0x60]) :
    adminEarly e = none := by
  unfold adminEarly
  generalize fieldAt e 8 2 = cmd at known
  have clear : (fieldAt e 1 1 != 0 && fieldAt e 1 1 != 2) = false := by rcases flags with h | h <;> simp [h]
  simp only [type, clear, pmask, reserved]
  revert cmd
  decide

/-! ### The command -/

/-- The entry at the head of a submission queue of partition `p`. -/
def nextEntryBytes (s : State) (p q : Nat) (x : SubQueue) : List Byte := hostRead s p (x.base + x.head % sqDepth s q * 64) 64

/-- The head of a submission queue counts one entry. -/
def headCounted (s : State) (q : Nat) : State := updSq s q fun y => { y with head := (y.head + 1) % 2 ^ 32 }

section
variable {s0 : State} {t : Mc} {q : Fin 8192} {x : SubQueue} {p : Nat} (queue : getSq (atTime s0 t) q.val = some x)
  (own : sqOwner (atTime s0 t) q.val = some p)
include queue own

/-- A queue with nothing new, or with eight entries held, reads none. -/
theorem execEntryFetch_idle (idle : x.tail = x.head ∨ 8 ≤ x.held.length) : execEntryFetch t q s0 = .next (atTime s0 t) := by
  simp only [execEntryFetch, queue, own]
  rw [if_pos (by rcases idle with h | h <;> simp [h]), answer_atTime]

/-- Any other ENABLED queue reads the entry at its head. -/
theorem execEntryFetch_reads (run : running (atTime s0 t) = true) (enabled : x.st = .enabled)
    (half : (atTime s0 t).halfReset.get (sqHome (atTime s0 t) q.val) = false) (new : x.tail ≠ x.head) (room : x.held.length < 8) :
    execEntryFetch t q s0 = answer s0 (if q.val < 16 then holdAdmin (headCounted (atTime s0 t) q.val) q.val (nextEntryBytes (atTime s0 t) p q.val x)
      else updSq (headCounted (atTime s0 t) q.val) q.val fun y => { y with held := y.held ++ [nextEntryBytes (atTime s0 t) p q.val x] }) := by
  simp only [execEntryFetch, queue, own]
  rw [if_neg (by rw [half]; simp [run, enabled, new, room])]
  rfl

end

/-- Settles O35: an entry that is read is counted, and held unless it is one that an admin queue answers at once. -/
theorem entryFetchHoldsTheNextEntry : Obligations.EntryFetchHoldsTheNextEntry := by
  unfold Obligations.EntryFetchHoldsTheNextEntry
  intro s0 t q x p s run queue enabled own half e moved
  have reads (new : x.tail ≠ x.head) (room : x.held.length < 8) := execEntryFetch_reads queue own run enabled half new room
  have counted (f : SubQueue → SubQueue) : updSq (headCounted s q.val) q.val f = { s with q := { s.q with sqs := moved f } } :=
    updSq_updSq s q.val _ f fun _ => rfl
  refine ⟨execEntryFetch_idle queue own, fun new room sound => (reads new room).trans ?_, fun new room admin type => (reads new room).trans ?_⟩
  · have holds : (if q.val < 16 then holdAdmin (headCounted s q.val) q.val e else updSq (headCounted s q.val) q.val fun y => { y with held := y.held ++ [e] }) =
        updSq (headCounted s q.val) q.val fun y => { y with held := y.held ++ [e] } := by
      rcases sound with plain | ⟨type, flags, pmask, reserved, known⟩
      · exact if_neg (Nat.not_lt.2 plain)
      · rw [holdAdmin, adminEarly_clear type flags pmask reserved known, ite_self]
    exact (congrArg (answer s0) (holds.trans (counted _))).trans (answer_atTime_eq rfl rfl rfl)
  · have refused : holdAdmin (headCounted s q.val) q.val e =
        withRecords (headCounted s q.val) [adminAnswer s.time q.val e 0x0011 0x2001 0] := by
      rw [holdAdmin, adminEarly_type type]
      exact (readyRecord_now rfl).trans (congrArg (fun r => withRecords _ [r]) (entryRecord_admin admin _ e _ _))
    exact (congrArg (answer s0) ((if_pos admin).trans refused)).trans (answer_atTime_eq rfl rfl rfl)

end Sys2Proof.Machine
end

section
/-! The queue commands (R274, R277, R300 to R304): administrative commands whose checks pass. -/

namespace Sys2Proof.Machine

/-! ### An administrative command that acts -/

/-- The entry of a command that may start, as the checks and effects of the command see the machine: it has left its queue. -/
theorem adminEntry_starts {s : State} {p : Fin 16} {cmd : Nat} {e : List Byte} {rest : List (List Byte)} (entry : AdminEntry s p cmd e rest) :
    AdminStarts s p cmd e := entry.named ▸ adminStarts entry.run entry.queue entry.kept entry.half entry.room

theorem adminEntry_allowed {s : State} {p : Fin 16} {cmd : Nat} {e : List Byte} {rest : List (List Byte)} (entry : AdminEntry s p cmd e rest) :
    adminBarred s p.val cmd = none := by
  rcases entry.owner with common | rfl
  · exact adminBarred_none entry.maint common
  · simp [adminBarred, entry.maint]

/-- The machine once the front entry of partition `p`'s admin queue has left it. -/
def taken (s : State) (p : Fin 16) : State := { s with q := { s.q with sqs := popAdmin s.q.sqs p.val } }

theorem popHeld_eq_taken {s : State} {p : Fin 16} (kept : ∀ o ∈ s.q.oldSqs, o.2.qid ≠ p.val) : popHeld s p.val = taken s p := popHeld_kept kept

/-- A command whose entry names no operation in progress and whose checks pass. -/
theorem withAdminBy_acts {s0 : State} {t : Mc} {p : Fin 16} {cmd : Nat} {e : List Byte} {rest : List (List Byte)} {fin : State → State → Result}
    {names : List Byte → Option Nat} {checks : State → List Byte → List (Nat × Nat)} {act : State → List Byte → State}
    (entry : AdminEntry (atTime s0 t) p cmd e rest) (free : ((names e).any fun c => ctxBusy (atTime s0 t) p.val c) = false)
    (passed : worstFailure (checks (taken (atTime s0 t) p) e) = none) :
    withAdminBy fin t p cmd s0 names checks act = fin s0 (act (taken (atTime s0 t) p) e) := by
  simp only [withAdminBy, (adminEntry_starts entry).front, free, Bool.false_eq_true, if_false, adminEntry_allowed entry, popHeld_eq_taken entry.kept, passed]

/-- The same for a command that names no context. -/
theorem withAdmin_acts {s0 : State} {t : Mc} {p : Fin 16} {cmd : Nat} {e : List Byte} {rest : List (List Byte)}
    {checks : State → List Byte → List (Nat × Nat)} {act : State → List Byte → State} (entry : AdminEntry (atTime s0 t) p cmd e rest)
    (passed : worstFailure (checks (taken (atTime s0 t) p) e) = none) :
    withAdmin t p cmd s0 noCtx checks act = answer s0 (act (taken (atTime s0 t) p) e) := withAdminBy_acts entry rfl passed

/-- Queues but the admin queue itself keep their entries. -/
theorem getSq_taken {s : State} {p : Fin 16} {q : Nat} (other : q ≠ p.val) : getSq (taken s p) q = getSq s q := by
  refine (getSq_updSq (q := p.val) (f := fun y => { y with held := y.held.drop 1 }) fun _ => rfl).trans ?_
  cases found : getSq s q with
  | none => rfl
  | some x => simp [getSq_qid found, other]

/-! ### Enabling and disabling -/

/-- The machine once a command has changed submission queue `q`, which was `x`, by `f`: it is kept for the mc as it stood (R304). -/
def sqChanged (s : State) (q : Nat) (x : SubQueue) (f : SubQueue → SubQueue) : State :=
  { s with q := { s.q with sqs := s.q.sqs.map fun y => if y.qid == q then f y else y, oldSqs := keptSqs s x } }

theorem updSq_keepSq {s : State} {q : Nat} {x : SubQueue} (found : getSq s q = some x) (f : SubQueue → SubQueue) :
    updSq (keepSq s q) q f = sqChanged s q x f := by
  obtain rfl := getSq_qid found
  simp only [keepSq, found]
  rfl

/-- The same for a completion queue. -/
def cqChanged (s : State) (q : Nat) (x : CompQueue) (f : CompQueue → CompQueue) : State :=
  { s with q := { s.q with cqs := s.q.cqs.map fun y => if y.qid == q then f y else y, oldCqs := keptCqs s x } }

theorem getCq_qid {s : State} {q : Nat} {x : CompQueue} (found : getCq s q = some x) : x.qid = q := by
  simpa using List.find?_some found

theorem updCq_keepCq {s : State} {q : Nat} {x : CompQueue} (found : getCq s q = some x) (f : CompQueue → CompQueue) :
    updCq (keepCq s q) q f = cqChanged s q x f := by
  obtain rfl := getCq_qid found
  simp only [keepCq, found]
  rfl

/-- A submission queue that a command makes DISABLED. -/
def switchedOff (y : SubQueue) : SubQueue := { y with st := .disabled, held := [], shadow := none, stopped := y.stopped || y.active }

/-- The records of the entries that submission queue `q` holds, and of its shadow, when it is made DISABLED. -/
def cutShort (s : State) (q : Nat) (x : SubQueue) : List PendingRec :=
  (x.held ++ x.shadow.toList).map fun e => entryRecord s q (fieldAt e 4 4) (decide (fieldAt e 1 1 / 2 % 2 = 1)) 0x0031 0

theorem disableSq_eq {s : State} {q : Nat} {x : SubQueue} (found : getSq s q = some x) :
    disableSq s q = withRecords (sqChanged s q x switchedOff) (cutShort s q x) := by
  simp only [disableSq, found]
  rw [updSq_keepSq found]
  exact foldl_entryRecords q stContextReset 0 entryTag entryIrq (x.held ++ x.shadow.toList) (sqChanged s q x switchedOff)

/-! ### Checks that pass -/

/-- No failing check is reported where each passes. -/
theorem worstFailure_none {fs : List (Nat × Nat)} (passed : fs = []) : worstFailure fs = none := by
  rw [passed]
  rfl

theorem opBytes_clear {e : List Byte} {lo hi : Nat} (zero : ∀ i, lo ≤ i → i < hi + 1 → fieldAt e i 1 = 0) : opBytes e lo hi = false :=
  opBytes_eq_false.2 fun i low high => zero i low (Nat.lt_succ_of_le high)

theorem baseBad_eq_false {base bytes : Nat} : baseBad base bytes = false ↔ base % 4096 = 0 ∧ base + bytes ≤ 0x0800_0000_0000 := by
  simp [baseBad]

/-! ### Commands -/

section
variable {s0 s : State} {t : Mc} {p : Fin 16} {e : List Byte} {rest : List (List Byte)} (now : atTime s0 t = s)
include now

theorem execSqEnable_enables {x : SubQueue} (entry : AdminEntry s p 0x0001 e rest) (low : opBytes e 18 23 = false)
    (high : opBytes e 32 63 = false) (own : sqOwner s (opQueue e) = some p.val) (found : getSq s (opQueue e) = some x)
    (disabled : x.st = .disabled) (fits : baseBad (opBase e) (sqDepth s (opQueue e) * 64) = false) :
    execSqEnable t p s0 = answer s0 (withRecords
      (sqChanged (taken s p) (opQueue e) x fun y => { y with st := .enabled, base := opBase e, tail := 0, head := 0, held := [] })
      [adminAnswer s.time p.val e stOk 0 0]) := by
  subst now
  have other : opQueue e ≠ p.val := by
    rintro same
    obtain ⟨y, hy, enabled, -⟩ := entry.queue
    rw [← same, found] at hy
    cases hy
    exact absurd (disabled.symm.trans enabled) (by decide)
  have here : getSq (taken (atTime s0 t) p) (opQueue e) = some x := (getSq_taken other).trans found
  refine (withAdmin_acts entry (worstFailure_none ?_)).trans ?_
  · have own' : sqOwner (taken (atTime s0 t) p) (opQueue e) = some p.val := own
    have fits' : baseBad (opBase e) (sqDepth (taken (atTime s0 t) p) (opQueue e) * 64) = false := fits
    simp [here, low, high, own', fits', disabled, failIf]
  · rw [updSq_keepSq here, finishAdmin_eq]
    rfl

theorem execCqEnable_enables {x : CompQueue} (entry : AdminEntry s p 0x0003 e rest) (low : opBytes e 18 23 = false)
    (high : opBytes e 32 63 = false) (own : cqOwner s (opQueue e) = some p.val) (found : getCq s (opQueue e) = some x)
    (disabled : x.st = .disabled) (fits : baseBad (opBase e) (cqDepth s (opQueue e) * 32) = false) :
    execCqEnable t p s0 = answer s0 (withRecords
      (cqChanged (taken s p) (opQueue e) x fun y => { y with st := .enabled, base := opBase e, count := 0, head := 0, unsignalled := 0 })
      [adminAnswer s.time p.val e stOk 0 0]) := by
  subst now
  have here : getCq (taken (atTime s0 t) p) (opQueue e) = some x := found
  refine (withAdmin_acts entry (worstFailure_none ?_)).trans ?_
  · have own' : cqOwner (taken (atTime s0 t) p) (opQueue e) = some p.val := own
    have fits' : baseBad (opBase e) (cqDepth (taken (atTime s0 t) p) (opQueue e) * 32) = false := fits
    simp [here, low, high, own', fits', disabled, failIf]
  · rw [updCq_keepCq here, finishAdmin_eq]
    rfl

theorem execSqDisable_disables {x : SubQueue} (entry : AdminEntry s p 0x0002 e rest) (zero : opBytes e 18 63 = false)
    (own : sqOwner s (opQueue e) = some p.val) (plain : 16 ≤ opQueue e) (found : getSq s (opQueue e) = some x) (enabled : x.st = .enabled) :
    execSqDisable t p s0 = answer s0 (withRecords (sqChanged (taken s p) (opQueue e) x switchedOff)
      (cutShort s (opQueue e) x ++ [adminAnswer s.time p.val e stOk 0 0])) := by
  subst now
  have here : getSq (taken (atTime s0 t) p) (opQueue e) = some x := (getSq_taken (p.isLt.trans_le plain).ne').trans found
  refine (withAdmin_acts entry (worstFailure_none ?_)).trans ?_
  · have own' : sqOwner (taken (atTime s0 t) p) (opQueue e) = some p.val := own
    simp [sqDisableChecks, here, zero, own', enabled, Nat.not_lt.2 plain, failIf]
  · have on : ((getSq (taken (atTime s0 t) p) (opQueue e)).map fun y => y.st == .disabled).getD true = false := by simp [here, enabled]
    dsimp only
    rw [on, if_neg Bool.false_ne_true, disableSq_eq here, finishAdmin_eq, withRecords_append]
    rfl

theorem execCqDisable_disables {x : CompQueue} (entry : AdminEntry s p 0x0004 e rest) (zero : opBytes e 18 63 = false)
    (own : cqOwner s (opQueue e) = some p.val) (plain : 16 ≤ opQueue e) (found : getCq s (opQueue e) = some x) (sound : x.st ≠ .error) :
    execCqDisable t p s0 = answer s0 (withRecords (cqChanged (taken s p) (opQueue e) x fun y => { y with st := .disabled })
      [adminAnswer s.time p.val e stOk 0 0]) := by
  subst now
  have here : getCq (taken (atTime s0 t) p) (opQueue e) = some x := found
  refine (withAdmin_acts entry (worstFailure_none ?_)).trans ?_
  · have own' : cqOwner (taken (atTime s0 t) p) (opQueue e) = some p.val := own
    simp [cqDisableChecks, here, zero, own', sound, Nat.not_lt.2 plain, failIf]
  · rw [disableCq, updCq_keepCq here, finishAdmin_eq]
    rfl

theorem execQueueReset_sq {x : SubQueue} (entry : AdminEntry s p 0x0005 e rest) (zero : opBytes e 18 63 = false)
    (own : sqOwner s (opQueue e) = some p.val) (plain : 16 ≤ opQueue e) (found : getSq s (opQueue e) = some x) :
    execQueueReset t p s0 = answer s0 (withRecords (sqChanged (taken s p) (opQueue e) x switchedOff)
      (cutShort s (opQueue e) x ++ [adminAnswer s.time p.val e stOk 0 0])) := by
  subst now
  have here : getSq (taken (atTime s0 t) p) (opQueue e) = some x := (getSq_taken (p.isLt.trans_le plain).ne').trans found
  have kind : fieldAt e 18 1 = 0 := opBytes_eq_false.1 zero 18 le_rfl (by omega)
  have high : opBytes e 19 63 = false := opBytes_eq_false.2 fun i low => opBytes_eq_false.1 zero i (Nat.le_of_succ_le low)
  refine (withAdmin_acts entry (worstFailure_none ?_)).trans ?_
  · have own' : sqOwner (taken (atTime s0 t) p) (opQueue e) = some p.val := own
    simp [kind, bit, high, own', Nat.not_lt.2 plain, failIf]
  · have sub : bit (fieldAt e 18 1) 0 = false := by rw [kind]; rfl
    dsimp only
    rw [sub, if_neg Bool.false_ne_true, disableSq_eq here, finishAdmin_eq, withRecords_append]
    rfl

theorem execQueueReset_cq {x : CompQueue} (entry : AdminEntry s p 0x0005 e rest) (kind : fieldAt e 18 1 = 1) (high : opBytes e 19 63 = false)
    (own : cqOwner s (opQueue e) = some p.val) (plain : 16 ≤ opQueue e) (found : getCq s (opQueue e) = some x) :
    execQueueReset t p s0 = answer s0 (withRecords (cqChanged (taken s p) (opQueue e) x fun y => { y with st := .disabled })
      [adminAnswer s.time p.val e stOk 0 0]) := by
  subst now
  have here : getCq (taken (atTime s0 t) p) (opQueue e) = some x := found
  refine (withAdmin_acts entry (worstFailure_none ?_)).trans ?_
  · have own' : cqOwner (taken (atTime s0 t) p) (opQueue e) = some p.val := own
    simp [kind, bit, high, own', Nat.not_lt.2 plain, failIf]
  · have comp : bit (fieldAt e 18 1) 0 = true := by rw [kind]; rfl
    dsimp only
    rw [comp, if_pos rfl, disableCq, updCq_keepCq here, finishAdmin_eq]
    rfl

end

section
variable {s0 s : State} (shell : Shell s0 s) (p : Fin 16) (q : Nat) (rs : List PendingRec)
include shell

theorem answer_sqChanged (x : SubQueue) (f : SubQueue → SubQueue) :
    answer s0 (withRecords (sqChanged (taken s p) q x f) rs) = .next { s with q := { s.q with
      sqs := (popAdmin s.q.sqs p.val).map fun y => if y.qid == q then f y else y
      oldSqs := keptSqs s x, records := joinRecords s.q.records rs } } :=
  Shell.answer (u := withRecords (sqChanged (taken s p) q x f) rs) ⟨shell.pending, shell.fuses, shell.flash⟩

theorem answer_cqChanged (x : CompQueue) (f : CompQueue → CompQueue) :
    answer s0 (withRecords (cqChanged (taken s p) q x f) rs) = .next { s with q := { s.q with
      sqs := popAdmin s.q.sqs p.val, cqs := s.q.cqs.map fun y => if y.qid == q then f y else y
      oldCqs := keptCqs s x, records := joinRecords s.q.records rs } } :=
  Shell.answer (u := withRecords (cqChanged (taken s p) q x f) rs) ⟨shell.pending, shell.fuses, shell.flash⟩

end

/-- Settles O39: each command passes its checks, and changes its queue with `sqChanged` or `cqChanged`. -/
theorem queueCommandsEnableAndDisable : Obligations.QueueCommandsEnableAndDisable := by
  unfold Obligations.QueueCommandsEnableAndDisable
  intro s0 t p e rest s q base sqs zero fits okSq okCq offSq gone
  have shell : Shell s0 s := atTime_shell s0 t
  refine ⟨?_, ?_, ?_, ?_, ?_, ?_⟩
  · intro x entry low high own found disabled fit
    exact (execSqEnable_enables rfl entry (opBytes_clear low) (opBytes_clear high) own found disabled (baseBad_eq_false.2 fit)).trans
      (answer_sqChanged shell p q _ x _)
  · intro x entry low high own found disabled fit
    exact (execCqEnable_enables rfl entry (opBytes_clear low) (opBytes_clear high) own found disabled (baseBad_eq_false.2 fit)).trans
      (answer_cqChanged shell p q _ x _)
  · intro x entry clear own plain found enabled
    exact (execSqDisable_disables rfl entry (opBytes_clear clear) own plain found enabled).trans (answer_sqChanged shell p q _ x _)
  · intro x entry clear own plain found sound
    exact (execCqDisable_disables rfl entry (opBytes_clear clear) own plain found sound).trans (answer_cqChanged shell p q _ x _)
  · intro x entry clear own plain found
    exact (execQueueReset_sq rfl entry (opBytes_clear clear) own plain found).trans (answer_sqChanged shell p q _ x _)
  · intro x entry kind clear own plain found
    exact (execQueueReset_cq rfl entry kind (opBytes_clear clear) own plain found).trans (answer_cqChanged shell p q _ x _)

end Sys2Proof.Machine
end

section
/-! The commands of a persistent channel that start no run (R293 to R298). -/

namespace Sys2Proof.Machine

/-! ### The front entry of a channel -/

/-- The one record `x` of persistent queue `q`, ENABLED and as no command of this mc has changed it, with the entry `e` at its front. -/
structure ChannelHolds (s : State) (q : Nat) (x : SubQueue) (e : List Byte) (rest : List (List Byte)) : Prop where
  run     : running s = true
  cfg     : ∃ c, sqCfg s q = some c ∧ c.persistent = true
  found   : getSq s q = some x
  enabled : x.st = .enabled
  held    : x.held = e :: rest
  only    : ∀ y ∈ s.q.sqs, y.qid = q → y = x
  kept    : ∀ o ∈ s.q.oldSqs, o.2.qid ≠ q
  half    : s.halfReset.get (sqHome s q) = false

/-- The machine with the record `y` for queue `q`. -/
def withSubQueue (s : State) (q : Nat) (y : SubQueue) : State :=
  { s with q := { s.q with sqs := s.q.sqs.map fun z => if z.qid == q then y else z } }

theorem updSq_withSubQueue {s : State} {q : Nat} {y : SubQueue} (num : y.qid = q) (f : SubQueue → SubQueue) :
    updSq (withSubQueue s q y) q f = withSubQueue s q (f y) := by
  simp only [updSq, updWhere, withSubQueue, List.map_map]
  refine congrArg (fun l => { s with q := { s.q with sqs := l } }) (List.map_congr_left fun z _ => ?_)
  by_cases h : z.qid = q <;> simp [h, num]

theorem getSq_withSubQueue {s : State} {q : Nat} {x y : SubQueue} (found : getSq s q = some x) (num : y.qid = q) :
    getSq (withSubQueue s q y) q = some y := by
  refine (find?_map_of_keeps (fun z => ?_) s.q.sqs).trans ?_
  · by_cases h : z.qid = q <;> simp [h, num]
  · rw [show s.q.sqs.find? (·.qid == q) = some x from found]
    simp [getSq_qid found]

/-- A STOP entry that holds TYPE and TAG only (R277). -/
theorem stopBad_clear {e : List Byte} (clear : ∀ i, (1 ≤ i ∧ i < 4) ∨ (8 ≤ i ∧ i < e.length) → fieldAt e i 1 = 0) : stopBad e = false := by
  have low : opBytes e 1 3 = false := opBytes_eq_false.2 fun i one three => clear i (.inl ⟨one, Nat.lt_succ_of_le three⟩)
  have high : opBytes e 8 (e.length + 8) = false := by
    refine opBytes_eq_false.2 fun i eight _ => ?_
    by_cases inside : i < e.length
    · exact clear i (.inr ⟨eight, inside⟩)
    · simp [fieldAt_one, List.getElem?_eq_none (Nat.not_lt.1 inside)]
  have rest : (e.drop 8).take (e.length + 8 + 1 - 8) = e.drop 8 := List.take_of_length_le (by simp only [List.length_drop]; omega)
  rw [opBytes, rest] at high
  rw [stopBad, high, Bool.or_false]
  exact low

section
variable {s : State} {q : Nat} {x : SubQueue} {e : List Byte} {rest : List (List Byte)} (holds : ChannelHolds s q x e rest)
include holds

/-- The front entry may be taken by the command of its TYPE. -/
theorem channelFront_holds : channelFront s q (fieldAt e 0 1) = some (x, e) := by
  obtain ⟨c, declared, persistent⟩ := holds.cfg
  have type : entryType e = fieldAt e 0 1 := rfl
  simp [channelFront, dispatchSq_kept holds.kept, holds.found, declared, holds.held, holds.run, persistent, holds.enabled, type, holds.half]

theorem popHeld_holds : popHeld s q = withSubQueue s q { x with held := rest } := by
  rw [popHeld_kept holds.kept, updSq_only holds.only]
  simp only [holds.held]
  rfl

theorem updSeenSq_holds (y : SubQueue) (num : y.qid = q) (f : SubQueue → SubQueue) :
    updSeenSq (withSubQueue s q y) q f = withSubQueue s q (f y) :=
  (updSeenSq_kept (s := withSubQueue s q y) holds.kept f).trans (updSq_withSubQueue num f)

/-- The front entry completes without a request. -/
theorem completeEntry_holds (status detail : Nat) : completeEntry (popHeld s q) q e status detail =
    withRecords (withSubQueue s q { x with held := rest }) [entryRecord s q (entryTag e) (entryIrq e) status detail] := by
  rw [popHeld_holds holds]
  exact readyRecord_now rfl

/-- A REARM fills the empty shadow. -/
theorem putShadow_holds : putShadow s q e = withSubQueue s q { x with held := rest, shadow := some e } := by
  have num : x.qid = q := getSq_qid holds.found
  have on : ((getSq (withSubQueue s q { x with held := rest }) q).map fun y => y.st == .enabled).getD false = true := by
    rw [getSq_withSubQueue holds.found (y := { x with held := rest }) num]
    simp [holds.enabled]
  unfold putShadow
  rw [popHeld_holds holds]
  exact (if_pos on).trans (updSeenSq_holds holds { x with held := rest } num _)

/-- A sound STOP on an IDLE channel completes, and on an ACTIVE one waits. -/
theorem stopChannel_idle (sound : stopBad e = false) (idle : x.active = false) : stopChannel s x e =
    withRecords (withSubQueue s q { x with held := rest }) [entryRecord s q (entryTag e) (entryIrq e) stOk 0] := by
  have num : x.qid = q := getSq_qid holds.found
  rw [← completeEntry_holds holds]
  simp [stopChannel, num, sound, idle]

theorem stopChannel_active (sound : stopBad e = false) (active : x.active = true) : stopChannel s x e =
    withSubQueue s q { x with held := rest, stopped := true, stops := x.stops ++ [(entryTag e, entryIrq e)] } := by
  have num : x.qid = q := getSq_qid holds.found
  have waits : stopChannel s x e =
      updSeenSq (popHeld s q) q fun y => { y with stopped := true, stops := y.stops ++ [(entryTag e, entryIrq e)] } := by
    simp [stopChannel, num, sound, active]
  rw [waits, popHeld_holds holds]
  exact updSeenSq_holds holds { x with held := rest } num _

/-! ### The end of a run -/

/-- The channel becomes IDLE, and its STOPs complete. -/
theorem channelIdle_holds : channelIdle s q = withRecords
    (withSubQueue s q { x with active := false, ended := none, stopped := false, stops := [], left := [] })
    (x.stops.map fun st => entryRecord s q st.1 st.2 stOk 0) := by
  simp only [channelIdle, holds.found]
  rw [foldl_entryRecords q stOk 0 Prod.fst Prod.snd, updSq_only holds.only]
  rfl

/-- A queue that holds no REARM has none for the shadow. -/
theorem absorbRearm_none (noRearm : ∀ e' ∈ x.held, entryType e' ≠ 3) (n : Nat) : absorbRearm q n s = s := by
  cases n with
  | zero => rfl
  | succ n =>
    have behind : ((x.held.dropWhile fun e => entryType e == 4).head?.map fun e => entryType e == 3).getD false = false := by
      cases front : (x.held.dropWhile fun e => entryType e == 4).head? with
      | none => rfl
      | some y =>
        have mem : y ∈ x.held := (List.dropWhile_sublist _).subset (List.mem_of_mem_head? (Option.mem_def.2 front))
        simpa using noRearm y mem
    simp only [absorbRearm, dispatchSq_kept holds.kept, holds.found, behind, Bool.not_false, Bool.or_true, if_true]

theorem runSq_holds (empty : x.shadow = none) : runSq s q = some x := by
  simp [runSq, seenSq_kept holds.kept, holds.found, empty]

/-- A run that ended with a cause, or that a STOP ends, has no next one. -/
theorem nextRun_ends {h : HaulerId} {c : SqCfg} {st : Nat} (empty : x.shadow = none) (reason : x.stopped = true ∨ (st ≠ stOk ∧ st ≠ stOkSpoiled)) :
    nextRun s h x c st = .go (channelIdle s q) := by
  have stop : (x.stopped || x.st == .disabled || !(st == stOk || st == stOkSpoiled)) = true := by
    rcases reason with stopped | ⟨bad, spoiled⟩
    · simp [stopped]
    · simp [bad, spoiled]
  simp only [nextRun, empty, getSq_qid holds.found]
  exact if_pos stop

end

/-! ### Commands -/

section
variable {s0 s : State} {t : Mc} {h : HaulerId} {q : Fin 8192} {x : SubQueue} {e : List Byte} {rest : List (List Byte)}
  (now : atTime s0 t = s) (holds : ChannelHolds s q.val x e rest)
include now holds

theorem execStop_front (type : fieldAt e 0 1 = 4) : execStop t q s0 = answer s0 (stopChannel s x e) := by
  unfold execStop
  rw [now]
  simp only [show channelFront s q.val 4 = some (x, e) from type ▸ channelFront_holds holds]

variable (free : reqOn s h = none)
include free

omit holds in
/-- A hauler without a request has no fetch to go on with. -/
theorem orFetching_free (k : State → Flow) : orFetching t h s0 k = (k s).result s0 := by
  simp [orFetching, now, fetching, free]

theorem execArm_active (type : fieldAt e 0 1 = 2) (active : x.active = true) :
    execArm t h q s0 = answer s0 (completeEntry (popHeld s q.val) q.val e stBadProgram 0) := by
  unfold execArm
  rw [orFetching_free now free]
  simp only [show channelFront s q.val 2 = some (x, e) from type ▸ channelFront_holds holds, active, if_true]
  rfl

theorem execRearm_empty (type : fieldAt e 0 1 = 3) (active : x.active = true) (empty : x.shadow = none) :
    execRearm t h q s0 = answer s0 (putShadow s q.val e) := by
  unfold execRearm
  rw [orFetching_free now free]
  simp only [show channelFront s q.val 3 = some (x, e) from type ▸ channelFront_holds holds, active, empty, Bool.not_true,
    Bool.false_eq_true, if_false, Option.isSome_none]
  rfl

theorem execRearm_full (type : fieldAt e 0 1 = 3) (active : x.active = true) (full : x.shadow ≠ none) :
    execRearm t h q s0 = answer s0 (completeEntry (popHeld s q.val) q.val e stRearmOverrun 0) := by
  unfold execRearm
  rw [orFetching_free now free]
  simp only [show channelFront s q.val 3 = some (x, e) from type ▸ channelFront_holds holds, active, Option.isSome_iff_ne_none.2 full,
    Bool.not_true, Bool.false_eq_true, if_false, if_true]
  rfl

theorem execPersistentNextRun_ends {c : SqCfg} {st : Nat} (declared : sqCfg s q.val = some c) (active : x.active = true)
    (room : x.running < c.limit) (ended : x.ended = some st) (later : x.endedAt < s.time) (empty : x.shadow = none)
    (noRearm : ∀ e' ∈ x.held, entryType e' ≠ 3) (reason : x.stopped = true ∨ (st ≠ stOk ∧ st ≠ stOkSpoiled)) :
    execPersistentNextRun t h q s0 = answer s0 (channelIdle s q.val) := by
  unfold execPersistentNextRun
  rw [orFetching_free now free]
  simp only [absorbRearm_none holds noRearm, holds.found, runSq_holds holds empty, declared, ended, holds.run, active, later, room, decide_true,
    Bool.and_self, if_true, nextRun_ends holds empty reason]
  rfl

end

/-- Settles O38: the front entry is the command's (`channelFront_holds`), and what follows is the queue's one record and records alone. -/
theorem channelCommandsFollowTheChannel : Obligations.ChannelCommandsFollowTheChannel := by
  unfold Obligations.ChannelCommandsFollowTheChannel
  intro s0 t h q c x e rest s run declared persistent found enabled held only kept half free plain record put next
  have holds : ChannelHolds s q.val x e rest := ⟨run, ⟨c, declared, persistent⟩, found, enabled, held, only, kept, half⟩
  have shell : Shell s0 s := atTime_shell s0 t
  have done (y : SubQueue) (rs : List PendingRec) {u : State} (is : u = withRecords (withSubQueue s q.val y) rs) : answer s0 u = put y rs :=
    is ▸ Shell.answer (u := withRecords (withSubQueue s q.val y) rs) ⟨shell.pending, shell.fuses, shell.flash⟩
  refine ⟨?_, ?_, ?_, ?_⟩
  · intro type active
    exact (execArm_active rfl holds free type active).trans (done _ _ (completeEntry_holds holds _ _))
  · intro type active
    exact ⟨fun empty => (execRearm_empty rfl holds free type active empty).trans (done { next with shadow := some e } [] (putShadow_holds (x := x) (rest := rest) holds)),
      fun full => (execRearm_full rfl holds free type active full).trans (done _ _ (completeEntry_holds holds _ _))⟩
  · intro type clear
    have sound : stopBad e = false := stopBad_clear clear
    have quiet : entryIrq e = false := by
      rw [entryIrq, entryFlags, clear 1 (.inl ⟨le_rfl, by decide⟩)]
      rfl
    refine ⟨fun idle => (execStop_front rfl holds type).trans (done _ _ (stopChannel_idle holds sound idle)),
      fun active => (execStop_front rfl holds type).trans (done _ [] ?_)⟩
    exact (stopChannel_active holds sound active).trans (by rw [quiet]; rfl)
  · intro st active room ended later empty noRearm reason
    exact (execPersistentNextRun_ends rfl holds free declared active room ended later empty noRearm reason).trans
      (done _ _ (channelIdle_holds holds))

end Sys2Proof.Machine
end

section
/-! O36 fails at a completion queue whose head lies past the 32-bit window: the statement takes the head modulo 2^32, and `cqFull`
subtracts it as it stands. The queue has no room, but `parkRecords` does not take it for full, and the request that has ended there keeps
its hauler. -/

namespace Sys2Proof.Machine

/-- A request of partition 0 that has ended, on hauler 0. -/
def endedThere : Request :=
  { outlived with qid := 0, wait := none, latched := none, cause := none, effects := [], fin := some (0, 0) }

/-- A machine in Run whose admin completion queue has 64 entries since its head, as the statement counts them, and one record that waits: that
of the ended request. One parking record of the request's context is free. -/
def aheadQueue : State :=
  { State.reset with
    power := { PowerSt.reset with cold := false, up := true }
    cfg := { Settings.none with staging := [{ ctx := 0, half := .east, parking := 1, offset := 0, length := 1024, segment := 0 }] }
    q := { Queues.reset with
      cqs := [{ CompQueue.start 0 .enabled 0 with head := 2 ^ 33 - 64 }]
      records := [finalRecord State.reset endedThere 0 0] }
    run := { State.reset.run with reqs := [endedThere] } }

/-- The hauler of request 0 in the next state. -/
def haulerAfter : Result → Option (Option Nat)
  | .next u => (getReq u 0).map (·.hauler)
  | _ => none

theorem haulerAfter_record_aheadQueue : haulerAfter (exec (.completionRecord 0 0) aheadQueue) = some (some 0) := by decide +kernel

/-- Refutes O36: the record of `aheadQueue` finds no room in its queue by the statement's count, and COMPLETION_RECORD does not park its
request. The clause needs a head below 2^32. -/
theorem not_completionRecordsAreWrittenAndSignalled : ¬ Obligations.CompletionRecordsAreWrittenAndSignalled := by
  intro holds
  have now : whenReady aheadQueue 0 (fun y => !recordComing y 0) = aheadQueue :=
    whenReady_past (Nat.le_refl 0) (.inl (by decide +kernel))
  have clauses := holds.1 aheadQueue 0 0 (finalRecord State.reset endedThere 0 0) { CompQueue.start 0 .enabled 0 with head := 2 ^ 33 - 64 } 0
  simp only [Fin.val_zero, now] at clauses
  obtain ⟨-, -, parks, -⟩ := clauses (by decide +kernel) (by decide +kernel) (by decide +kernel) (by decide +kernel) (by decide +kernel)
    (by decide +kernel) rfl
  obtain ⟨u, writes, -, parked⟩ := parks 0 endedThere 0 rfl (by decide +kernel) (by decide +kernel) rfl (by decide +kernel)
    (by decide +kernel) rfl (by decide +kernel)
  have stays := haulerAfter_record_aheadQueue
  rw [writes] at stays
  obtain ⟨r, found, kept⟩ := Option.map_eq_some_iff.1 stays
  exact absurd ((parked r found).1.symm.trans kept) (by decide)

end Sys2Proof.Machine
end

section
/-! O41 fails in a LEDGERED context whose ledger queue is not enabled: a request that CONTEXT_RESET ends closes its open entry, the entry is
held, and the request parks (R425). Its parking record is written though no completion queue is full, the one case that the statement leaves
out. -/

namespace Sys2Proof.Machine

/-- A request on hauler 0 whose open ledger entry holds a mark. -/
def markedRequest : Request :=
  { outlived with wait := none, latched := none, cause := none, effects := [], led := { outlived.led with marks := [0] } }

/-- A LEDGERED context of partition 0, homed in the East half. -/
def ledgeredCtx : CtxCfg :=
  { ctx := 0, partition := 0, homeHalf := .east, profiles := 2, initialProfile := 1, ledgered := true, seamEW := 0, seamWE := 0
    drainCounter := none }

/-- CONTEXT_RESET of context 0, with TAG 0 and profile code 0. -/
def contextResetEntry : List Byte := 0x10 :: zeros 7 ++ 0x10 :: zeros 55

/-- A machine in Run with this request, a free parking record for it, and CONTEXT_RESET at hand; no ledger queue is enabled. -/
def ledgerOff : State :=
  { State.reset with
    power := { PowerSt.reset with cold := false, up := true }
    cfg := { Settings.none with
      ctxs := [ledgeredCtx], staging := [{ ctx := 0, half := .east, parking := 1, offset := 0, length := 1024, segment := 0 }] }
    ctxs := [CtxState.start ledgeredCtx]
    q := { Queues.reset with sqs := [{ SubQueue.start 0 .enabled 0 7 with held := [contextResetEntry] }] }
    run := { State.reset.run with reqs := [markedRequest] } }

/-- How many pieces of Stockpile writes the present mc of the next state has. -/
def bankWritesAfter : Result → Nat
  | .next u => u.mem.recent.length
  | _ => 0

theorem bankWritesAfter_reset_ledgerOff : 0 < bankWritesAfter (exec (.contextReset 0 0) ledgerOff) := by decide +kernel

theorem adminEntry_ledgerOff : AdminEntry ledgerOff 0 0x0010 contextResetEntry [] where
  run := by decide +kernel
  queue := ⟨_, rfl, rfl, rfl⟩
  named := by decide +kernel
  half := by decide +kernel
  room := by decide +kernel
  maint := rfl
  owner := .inr rfl
  kept := by decide +kernel

/-- Refutes O41: CONTEXT_RESET parks the request of `ledgerOff`, which writes its parking record. -/
theorem not_contextResetRestoresTheContext : ¬ Obligations.ContextResetRestoresTheContext := by
  intro holds
  have now : atTime ledgerOff 0 = ledgerOff := atTime_past (Nat.le_refl 0)
  have zero : ∀ i < 64, 18 ≤ i → fieldAt contextResetEntry i 1 = 0 := by decide +kernel
  have clauses := holds ledgerOff 0 0 contextResetEntry [] 0 (CtxState.start ledgeredCtx)
  rw [now] at clauses
  obtain ⟨-, resets, -⟩ := clauses rfl
  obtain ⟨u, reset, -, -, -, -, -, mem, -⟩ := resets adminEntry_ledgerOff (by decide +kernel) (by decide +kernel) (by decide +kernel)
    (fun i low high => zero i high low) (by decide +kernel) (by decide +kernel) (by unfold OneRequestPerId; decide +kernel)
  have writes := bankWritesAfter_reset_ledgerOff
  rw [reset, bankWritesAfter, mem fun _ => rfl] at writes
  exact absurd writes (by decide +kernel)

end Sys2Proof.Machine
end

section
/-! O46 fails where a closed entry of the ledger takes the last place of the queue: the new seal is written before it, and the entry is
then held (R425), which the statement's ledger leaves out. -/

namespace Sys2Proof.Machine

/-- An INBOUND entry that has closed and that the queue can take. -/
def closedEntry : LedEntry :=
  { kind := 2, bytes := [], req := none, needs := [], upto := 0, inbound := none, release := [], closed := some 0, half := .east, haul := 128
    held := false }

/-- Partition 0's ledger queue of 64 places, with one that is free, and the closed entry that waits for it. -/
def lastPlace : LedgerSt := { LedgerSt.reset 0 with enabled := true, records := 63, waiting := [closedEntry] }

/-- LEDGER_SEAL, with TAG 0. -/
def ledgerSealEntry : List Byte := 0x10 :: zeros 7 ++ 0x40 :: zeros 55

/-- A machine in Run with this ledger and with LEDGER_SEAL at hand. -/
def lastPlaceLeft : State :=
  { State.reset with
    power := { PowerSt.reset with cold := false, up := true }
    q := { Queues.reset with sqs := [{ SubQueue.start 0 .enabled 0 7 with held := [ledgerSealEntry] }] }
    ledgers := [lastPlace] }

/-- Whether the entries that wait in partition 0's ledger are held, in the next state. -/
def heldAfter : Result → List Bool
  | .next u => (getLedger u 0).waiting.map (·.held)
  | _ => []

/-- The closed entry is held once the seal is due. -/
theorem heldAfter_seal_lastPlaceLeft : heldAfter (exec (.ledgerSeal 0 0) lastPlaceLeft) = [true] := by decide +kernel

theorem adminEntry_lastPlaceLeft : AdminEntry lastPlaceLeft 0 0x0040 ledgerSealEntry [] where
  run := by decide +kernel
  queue := ⟨_, rfl, rfl, rfl⟩
  named := by decide +kernel
  half := by decide +kernel
  room := by decide +kernel
  maint := rfl
  owner := .inr rfl
  kept := by decide +kernel

/-- Refutes O46: LEDGER_SEAL holds the closed entry of `lastPlaceLeft`, and the statement's ledger keeps it as it was. -/
theorem not_maintenanceCommandsAnswer : ¬ Obligations.MaintenanceCommandsAnswer := by
  intro holds
  have now : atTime lastPlaceLeft 0 = lastPlaceLeft := atTime_past (Nat.le_refl 0)
  have zero : ∀ i < 64, 16 ≤ i → fieldAt ledgerSealEntry i 1 = 0 := by decide +kernel
  have clauses := holds lastPlaceLeft 0 0 ledgerSealEntry [] ⟨true, true, true, true, [], []⟩
  rw [now] at clauses
  obtain ⟨-, seals, -⟩ := clauses
  have held := heldAfter_seal_lastPlaceLeft
  rw [seals adminEntry_lastPlaceLeft (fun i low high => zero i high low) (by decide +kernel)] at held
  exact absurd held (by decide +kernel)

end Sys2Proof.Machine
end

section
/-! The shadow priorities of a partition's queues (R321, R322), the positions of a wheel (R308), and who gets a beat of a class (R312, R315,
R317). -/

namespace Sys2Proof.Machine

/-! ### Writes of FV_ARB_COMMIT and FV_ARB_PRIO -/

section
variable {s s0 : State} {t : Mc} {p : Fin 16} {w : RegWrite}

/-- A queue that is no admin queue belongs to the partition of its context. -/
theorem sqOwner_eq_ctx {q : Nat} (high : 16 ≤ q) : sqOwner s q = (sqCfg s q).map fun c => partOfCtx s c.ctx :=
  if_neg (Nat.not_lt.2 high)

/-- The queue is one of partition `k`, by its context. -/
abbrev QueueOf (s : State) (k : Nat) (q : SubQueue) : Prop := 16 ≤ q.qid ∧ (sqCfg s q.qid).map (fun c => partOfCtx s c.ctx) = some k

theorem queueOf_iff {k : Nat} {q : SubQueue} : (decide (16 ≤ q.qid) && sqOwner s q.qid == some k) = true ↔ QueueOf s k q := by
  rw [Bool.and_eq_true, decide_eq_true_iff, beq_iff_eq]
  exact and_congr_right fun high => by rw [sqOwner_eq_ctx high]

theorem discardShadows_eq {k : Nat} :
    discardShadows s k = { s with q.sqs := s.q.sqs.map fun q => if QueueOf s k q then { q with shadowPrio := q.committed } else q } := by
  simp only [discardShadows, updWhere, queueOf_iff]

theorem snapshot_eq {k : Nat} : snapshot s k = (s.q.sqs.filter fun q => decide (QueueOf s k q)).map fun q => (q.qid, q.shadowPrio) := by
  have own (q : SubQueue) : (decide (16 ≤ q.qid) && sqOwner s q.qid == some k) = decide (QueueOf s k q) := by
    rw [Bool.eq_iff_iff, queueOf_iff, decide_eq_true_iff]
  simp only [snapshot, partQueues, own]

/-- What a write of FV_ARB_COMMIT that reaches the register does. -/
theorem writeCommit_reaches (reaches : PageWrite s p w) : writeCommit s w =
    if compatMode s p.val then s
    else if w.value.toNat / 2 % 2 = 1 then discardShadows s p.val
    else if w.value.toNat % 2 = 1 then updPartRegs s p.val fun x => { x with commits := x.commits ++ [snapshot s p.val] }
    else s := by
  simp [writeCommit, regOpen_plain_of_pageWrite reaches, pagePart_of_pageWrite reaches, regBit, bit]

/-- The oldest snapshot takes effect. -/
theorem execPriorityCommitApply_oldest {snap : List (Nat × Nat)} {rest : List (List (Nat × Nat))}
    (run : running (atTime s0 t) = true) (oldest : (getPartRegs (atTime s0 t) p.val).commits = snap :: rest) :
    execPriorityCommitApply t p s0 = answer s0 { updPartRegs (atTime s0 t) p.val (fun x => { x with commits := rest }) with
      q.sqs := (atTime s0 t).q.sqs.map (commitQueue snap) } := by
  simp only [execPriorityCommitApply, oldest, run, if_true]

/-- A write of FV_ARB_PRIO changes nothing where the selected queue is no queue of the partition. -/
theorem execShadow_other (reaches : PageWrite (hostAt s0 t w.port) p w)
    (other : (getSel (hostAt s0 t w.port) (.part p)).arb < 16 ∨
      (sqCfg (hostAt s0 t w.port) (getSel (hostAt s0 t w.port) (.part p)).arb).map (fun c => partOfCtx (hostAt s0 t w.port) c.ctx) ≠ some p.val) :
    execShadow t w s0 = answer s0 (hostAt s0 t w.port) := by
  unfold execShadow
  refine if_pos ?_
  rw [reaches.page, pagePart]
  by_cases low : (getSel (hostAt s0 t w.port) (.part p)).arb < 16
  · simp [low]
  · simp [sqOwner_eq_ctx (Nat.not_lt.1 low), other.resolve_left low]

/-- A write of FV_ARB_PRIO to a selected queue of the partition. -/
theorem execShadow_own (reaches : PageWrite (hostAt s0 t w.port) p w) (high : 16 ≤ (getSel (hostAt s0 t w.port) (.part p)).arb)
    (own : (sqCfg (hostAt s0 t w.port) (getSel (hostAt s0 t w.port) (.part p)).arb).map (fun c => partOfCtx (hostAt s0 t w.port) c.ctx) =
      some p.val) :
    execShadow t w s0 = answer s0 (updSq (hostAt s0 t w.port) (getSel (hostAt s0 t w.port) (.part p)).arb fun x =>
      if compatMode (hostAt s0 t w.port) p.val then
        { x with shadowPrio := w.value.toNat % 8, committed := w.value.toNat % 8
                 prioUntil := some ((hostAt s0 t w.port).time, prioNow (hostAt s0 t w.port) x) }
      else { x with shadowPrio := w.value.toNat % 8 }) := by
  have value : regBits w 2 0 = w.value.toNat % 8 := congrArg (· % 8) (Nat.div_one _)
  unfold execShadow
  dsimp only
  rw [if_neg, reaches.page, value]
  · rfl
  · rw [reaches.page, sqOwner_eq_ctx high]
    simp [regOpen_plain_of_pageWrite reaches, Nat.not_lt.2 high, own, pagePart]

end

/-! ### The positions of a wheel (R308) -/

/-- A quotient rises by 1 at most while its dividend rises by the divisor at most. -/
theorem div_rises {a w d : Nat} (pos : 0 < d) (le : w ≤ d) : (a + w) / d = a / d ∨ (a + w) / d = a / d + 1 := by
  have low : a / d ≤ (a + w) / d := Nat.div_le_div_right (Nat.le_add_right a w)
  have high : (a + w) / d ≤ a / d + 1 := (Nat.div_le_div_right (Nat.add_le_add_left le a)).trans_eq (Nat.add_div_right a pos)
  omega

/-- A number that rises by steps of 1 has risen as often as it has grown. -/
theorem length_filter_rises {f : Nat → Nat} (step : ∀ i, f (i + 1) = f i ∨ f (i + 1) = f i + 1) :
    ∀ n, f n = f 0 + ((List.range n).filter fun i => decide (f i < f (i + 1))).length
  | 0 => rfl
  | n + 1 => by
    have before := length_filter_rises step n
    rw [List.range_succ, List.filter_append, List.length_append]
    rcases step n with same | more
    · simp [same]
      omega
    · simp [more]
      omega

/-- The classes share the elements of a list. -/
theorem length_filter_classes {α : Type} (f : α → LineClass) (l : List α) :
    (l.filter fun x => f x == .read).length + (l.filter fun x => f x == .write).length + (l.filter fun x => f x == .remote).length = l.length := by
  induction l with
  | nil => rfl
  | cons x xs ih =>
    cases h : f x <;> simp [h] <;> omega

section
variable {c : HalfCfg}

/-- Read positions before position `i`. -/
def readsBefore (c : HalfCfg) (i : Nat) : Nat := i * c.r / 32

/-- Write positions before position `i`: the share `c.w` of the positions that are no read positions. -/
def writesBefore (c : HalfCfg) (i : Nat) : Nat := (i - readsBefore c i) * c.w / (32 - c.r)

theorem readsBefore_succ (share : c.r ≤ 32) (i : Nat) : readsBefore c (i + 1) = readsBefore c i ∨ readsBefore c (i + 1) = readsBefore c i + 1 := by
  simpa only [readsBefore, Nat.succ_mul] using div_rises (by decide) share

theorem readsBefore_le (share : c.r ≤ 32) (i : Nat) : readsBefore c i ≤ i :=
  Nat.div_le_of_le_mul (by rw [Nat.mul_comm 32]; exact Nat.mul_le_mul_left i share)

theorem positionClass_read_iff (i : Nat) : positionClass c i = .read ↔ readsBefore c i < readsBefore c (i + 1) := by
  simp only [positionClass, readsBefore]
  split
  · simp [*]
  · split <;> simp [*]

/-- A position of another class than reads comes behind the others that are no read positions. -/
theorem writesBefore_succ_of_not_read (share : c.r ≤ 32) {i : Nat} (same : readsBefore c (i + 1) = readsBefore c i) :
    writesBefore c (i + 1) = (i - readsBefore c i + 1) * c.w / (32 - c.r) := by
  rw [writesBefore, same, Nat.succ_sub (readsBefore_le share i)]

theorem writesBefore_succ_of_read {i : Nat} (more : readsBefore c (i + 1) = readsBefore c i + 1) :
    writesBefore c (i + 1) = writesBefore c i := by
  rw [writesBefore, writesBefore, more, Nat.add_sub_add_right]

theorem writesBefore_succ (share : c.w ≤ 32 - c.r) (some' : c.w ≠ 0) (i : Nat) :
    writesBefore c (i + 1) = writesBefore c i ∨ writesBefore c (i + 1) = writesBefore c i + 1 := by
  have reads : c.r ≤ 32 := by omega
  rcases readsBefore_succ reads i with same | more
  · rw [writesBefore_succ_of_not_read reads same, Nat.succ_mul]
    exact div_rises (by omega) share
  · exact .inl (writesBefore_succ_of_read more)

theorem positionClass_write_iff (share : c.r ≤ 32) (i : Nat) : positionClass c i = .write ↔ writesBefore c i < writesBefore c (i + 1) := by
  rcases readsBefore_succ share i with same | more
  · have notRead : ¬ (i + 1) * c.r / 32 > i * c.r / 32 := same.le.not_gt
    rw [writesBefore_succ_of_not_read share same]
    simp only [positionClass, if_neg notRead, writesBefore, readsBefore]
    split <;> simp [*]
  · have read : positionClass c i = .read := (positionClass_read_iff i).2 (by omega)
    simp [read, writesBefore_succ_of_read more]

/-- Of the 32 positions of a wheel each class has its share. -/
theorem positions_share (whole : c.r + c.w + c.x = 32) (writes : c.w ≠ 0) :
    ((List.range 32).filter fun i => positionClass c i == .read).length = c.r ∧
    ((List.range 32).filter fun i => positionClass c i == .write).length = c.w ∧
    ((List.range 32).filter fun i => positionClass c i == .remote).length = c.x := by
  have share : c.r ≤ 32 := by omega
  have read (i : Nat) : (positionClass c i == .read) = decide (readsBefore c i < readsBefore c (i + 1)) := by
    rw [Bool.eq_iff_iff, beq_iff_eq, decide_eq_true_iff, positionClass_read_iff]
  have write (i : Nat) : (positionClass c i == .write) = decide (writesBefore c i < writesBefore c (i + 1)) := by
    rw [Bool.eq_iff_iff, beq_iff_eq, decide_eq_true_iff, positionClass_write_iff share]
  have allReads : readsBefore c 32 = c.r := Nat.mul_div_cancel_left c.r (by decide)
  have allWrites : writesBefore c 32 = c.w := by
    rw [writesBefore, allReads]
    exact Nat.mul_div_cancel_left c.w (by omega)
  have reads0 : readsBefore c 0 = 0 := by simp [readsBefore]
  have writes0 : writesBefore c 0 = 0 := by simp [writesBefore]
  have reads := length_filter_rises (readsBefore_succ share) 32
  have writes' := length_filter_rises (writesBefore_succ (by omega) writes) 32
  have all := length_filter_classes (positionClass c) (List.range 32)
  simp only [read, write, List.length_range] at all ⊢
  omega

end

/-! ### The winner of a beat -/

section
variable {s : State} {p : MemPort} {as : List Asker} {a : Asker}

/-- The line is of the asker's class and a tag is free for it. -/
def mayWin (s : State) (p : MemPort) (c : LineClass) (a : Asker) : Bool := a.line.cls == c && tagFree s p a

theorem mem_filter_mayWin {c : LineClass} (mem : a ∈ as) (cls : a.line.cls = c) (tag : tagFree s p a = true) : a ∈ as.filter (mayWin s p c) :=
  List.mem_filter.2 ⟨mem, by simp [mayWin, cls, tag]⟩

theorem foldl_max_le_iff {n : Nat} : ∀ (l : List Nat) (x : Nat), l.foldl max x ≤ n ↔ x ≤ n ∧ ∀ b ∈ l, b ≤ n
  | [], x => by simp
  | y :: ys, x => by
    rw [List.foldl_cons, foldl_max_le_iff ys (max x y), max_le_iff, List.forall_mem_cons, and_assoc]

/-- What alone meets a test in a list is found. -/
theorem find?_unique {α : Type} {l : List α} {f : α → Bool} {x : α} (mem : x ∈ l) (meets : f x = true) (only : ∀ y ∈ l, f y = true → y = x) :
    l.find? f = some x := by
  obtain ⟨y, found⟩ := Option.isSome_iff_exists.1 (List.find?_isSome.2 ⟨x, mem, meets⟩)
  rw [found, only y (List.mem_of_find?_eq_some found) (List.find?_some found)]

theorem minBy_unique {α : Type} {key : α → Nat} {l : List α} {x : α} (mem : x ∈ l) (only : ∀ y ∈ l, y = x) : minBy key l = some x := by
  obtain ⟨y, least⟩ : ∃ y, minBy key l = some y := by
    rw [← Option.isSome_iff_exists, minBy_isSome]
    simp [List.ne_nil_of_mem mem]
  rw [least, only y (minBy_mem least)]

/-- The one requester of the highest priority wins the contest, whoever holds the grant (R315, R317). -/
theorem contest_highest {c : LineClass} (mem : a ∈ as) (highest : ∀ b ∈ as, b = a ∨ b.prio < a.prio) : contest p c as = some a := by
  have top : (as.map (·.prio)).foldl max 0 = a.prio := by
    refine le_antisymm ((foldl_max_le_iff _ _).2 ⟨Nat.zero_le _, ?_⟩)
      (((foldl_max_le_iff _ _).1 le_rfl).2 _ (List.mem_map_of_mem mem))
    simp only [List.forall_mem_map]
    exact fun b hb => (highest b hb).elim (fun e => e ▸ le_rfl) le_of_lt
  have best : ∀ b ∈ as.filter (·.prio == a.prio), b = a := fun b hb => by
    obtain ⟨hb, prio⟩ := List.mem_filter.1 hb
    exact (highest b hb).resolve_right (by rw [beq_iff_eq.1 prio]; exact lt_irrefl _)
  have here : a ∈ as.filter (·.prio == a.prio) := List.mem_filter.2 ⟨mem, by simp⟩
  unfold contest
  dsimp only
  rw [top]
  split
  · rename_i b found
    rw [best b (List.mem_of_find?_eq_some found)]
  · exact minBy_unique here best

/-- Among reads the beat goes to the line that first became reserved-eligible. -/
theorem winner_eligible (mem : a ∈ as) (cls : a.line.cls = .read) (tag : tagFree s p a = true) (only : ∀ b ∈ as, b.who = a.who → b = a)
    {k : Nat} {rest : List (Requester × Nat × Nat)} (first : p.eligible = (a.who, a.line.seq, k) :: rest) :
    winner s p as .read = some a := by
  have found : (as.filter (mayWin s p .read)).find? (fun b => b.who == a.who && b.line.seq == a.line.seq) = some a :=
    find?_unique (mem_filter_mayWin mem cls tag) (by simp) fun b hb meets =>
      only b (List.mem_of_mem_filter hb) (by simpa using (Bool.and_eq_true_iff.1 meets).1)
  unfold mayWin at found
  simp only [winner, first, List.findSome?_cons, found]

/-- Among writes the beat goes to the one STM line. -/
theorem winner_store (mem : a ∈ as) (cls : a.line.cls = .write) (tag : tagFree s p a = true) (store : isStoreAsker a = true)
    (only : ∀ b ∈ as, isStoreAsker b = true → b = a) : winner s p as .write = some a := by
  have found : (as.filter (mayWin s p .write)).find? isStoreAsker = some a :=
    find?_unique (mem_filter_mayWin mem cls tag) store fun b hb meets => only b (List.mem_of_mem_filter hb) meets
  unfold mayWin at found
  simp only [winner, found]

/-- With no line before it, the beat of a class goes to its requester of the highest priority. -/
theorem winner_contest (mem : a ∈ as) (tag : tagFree s p a = true) (noEligible : a.line.cls = .read → p.eligible = [])
    (noStore : a.line.cls = .write → ∀ b ∈ as, isStoreAsker b = false) (remote : a.line.cls = .remote → s.fuses.grade ≠ .c)
    (highest : ∀ b ∈ as, b.line.cls = a.line.cls ∧ tagFree s p b = true → b = a ∨ b.prio < a.prio) :
    winner s p as a.line.cls = some a := by
  have wins (c : LineClass) (cls : a.line.cls = c) : contest p c (as.filter (mayWin s p c)) = some a :=
    contest_highest (mem_filter_mayWin mem cls tag) fun b hb => by
      obtain ⟨hb, may⟩ := List.mem_filter.1 hb
      exact highest b hb (by simpa [mayWin, cls] using may)
  unfold mayWin at wins
  cases cls : a.line.cls with
  | read => simp only [winner, noEligible cls, List.findSome?_nil, wins .read cls]
  | write =>
    have none' : (as.filter fun b => b.line.cls == .write && tagFree s p b).find? isStoreAsker = none :=
      List.find?_eq_none.2 fun b hb => by simp [noStore cls b (List.mem_of_mem_filter hb)]
    simp only [winner, none', wins .write cls]
  | remote => simp only [winner, beq_eq_false_iff_ne.2 (remote cls), Bool.false_eq_true, if_false, wins .remote cls]

end

/-- Settles O12: the registers by what their writes do, the wheel by counting its positions, and a beat by its one winner. -/
theorem prioritiesAreShadowedAndCommitted : Obligations.PrioritiesAreShadowedAndCommitted := by
  unfold Obligations.PrioritiesAreShadowedAndCommitted
  refine ⟨?_, ?_, ?_, fun c whole _ writes => positions_share whole writes, ?_⟩
  · intro s0 t p w s reaches own c isCommit
    have does : exec c s0 = answer s0 (writeCommit s w) := by
      rcases List.mem_pair.1 isCommit with rfl | rfl <;> rfl
    rw [does, writeCommit_reaches reaches]
    refine ⟨fun compat => ?_, fun compat even even2 => ?_, fun compat odd2 => ?_, fun compat odd even2 => ?_⟩
    · rw [if_pos compat]
      exact answer_hostAt_eq rfl rfl rfl
    · rw [if_neg (by simp [compat]), if_neg (by omega), if_neg (by omega)]
      exact answer_hostAt_eq rfl rfl rfl
    · rw [if_neg (by simp [compat]), if_pos odd2, discardShadows_eq]
      exact answer_hostAt_eq rfl rfl rfl
    · rw [if_neg (by simp [compat]), if_neg (by omega), if_pos odd, snapshot_eq]
      exact answer_hostAt_eq rfl rfl rfl
  · intro s0 t p snap rest s run oldest
    exact ⟨_, (execPriorityCommitApply_oldest run oldest).trans (answer_atTime_eq rfl rfl rfl), rfl, rfl, rfl⟩
  · intro s0 t p w s reaches q v before set
    refine ⟨fun high own => ?_, fun _ other => ?_, fun low => ?_⟩
    · exact (execShadow_own reaches high own).trans (answer_hostAt_eq rfl rfl rfl)
    · exact (execShadow_other reaches (.inr other)).trans (answer_hostAt_eq rfl rfl rfl)
    · exact (execShadow_other reaches (.inl low)).trans (answer_hostAt_eq rfl rfl rfl)
  · intro s p as a free mem may only
    obtain ⟨-, tag⟩ := may
    exact ⟨fun k rest cls first => winner_eligible mem cls tag only first,
      fun cls store one => winner_store mem cls tag store one,
      fun noEligible noStore remote highest => winner_contest mem tag noEligible noStore remote highest⟩

end Sys2Proof.Machine
end

section
/-! Well-formed requests of a partner that is Active or Slow (R384, R391, R394): they are served where nothing waits, and answered on the
path on which they came. -/

namespace Sys2Proof.Machine

/-- The machine once an inbound request has its number. -/
def numbered (s : State) : State := { s with rem.nextIn := s.rem.nextIn + 1 }

/-- The request frame `f` of record `c` as it arrives. -/
def arrived (s : State) (c : PartnerCfg) (f : RxFrame) : Inbound :=
  { id := s.rem.nextIn, num := c.num, frame := f, sent := false, tags := [], data := [], status := stOk, tried := false }

/-- The machine `v` once it has answered the request `fr` of record `c`, whose partner is `p`, on path `path`. -/
def answeredOn (v : State) (c : PartnerCfg) (p : Partner) (path : Nat) (fr : Frame) (status : Nat) (data : List SByte) : State :=
  { v with
    rem := { v.rem with
      nextIn := v.rem.nextIn + 1
      partners := if isWriteClass fr.ty then
          v.rem.partners.map fun y => if y.num == c.num then keepResponse fr.seq (responseBytes v c p fr status data) y else y
        else v.rem.partners }
    out := { v.out with frames := (c.num, path, responseBytes v c p fr status data) :: v.out.frames } }

section
variable {s s0 u v : State} {t : Mc} {f : RxFrame} {fr : Frame} {c : PartnerCfg} {p : Partner} {path : Nat}

/-! ### The beat on the remote port -/

theorem running_of_remoteOn {h : Half} (on : remoteOn s h = true) : running s = true := by
  simp only [remoteOn, Bool.and_eq_true] at on
  exact on.1.1.1

/-- A port that serves a frame was on before the beat, which woke its half and made it busy. -/
theorem hostBeat_of_remoteOn {h g : Half} (on : remoteOn (hostBeat s g) h = true) :
    hostBeat s g = noteBusy (wakeHalf s g) g ∧ remoteOn s h = true := by
  have run : running s = true := by
    by_contra stopped
    rw [hostBeat, if_neg stopped] at on
    exact stopped (running_of_remoteOn on)
  have beat : hostBeat s g = noteBusy (wakeHalf s g) g := if_pos run
  refine ⟨beat, ?_⟩
  rw [beat, wakeHalf_eq_woken run] at on
  have same := woken_running s s.time (oneHalf g)
  simp only [remoteOn, Bool.and_eq_true] at on ⊢
  exact ⟨⟨⟨run, on.1.1.2⟩, on.1.2⟩, on.2⟩

/-- A frame that reaches a port which is on, at a half that is then awake, is served. -/
theorem frameBeat_awake {serveIt : State → RxFrame → State} (on : remoteOn (hostBeat s f.half) f.half = true)
    (awake : (hostBeat s f.half).power.glow.get f.half = false) : frameBeat serveIt s f = serveIt (hostBeat s f.half) f := by
  obtain ⟨beat, on'⟩ := hostBeat_of_remoteOn on
  rw [beat] at awake ⊢
  simp only [frameBeat, on', Bool.not_true, Bool.false_eq_true, if_false, awake]

/-! ### The request is served -/

theorem parseFrame_header {bs : List Byte} (parsed : parseFrame bs = some fr) : fr.ty = frameType bs ∧ fr.src = fieldAt bs 2 2 := by
  unfold parseFrame at parsed
  dsimp only at parsed
  split at parsed
  · exact absurd parsed (by simp)
  · split at parsed
    · exact absurd parsed (by simp)
    · obtain rfl := Option.some.inj parsed
      exact ⟨rfl, rfl⟩

/-- A request that is well formed and new is served. -/
theorem takeRequest_received (got : Received s f fr c p path) : takeRequest s c p f = serve (numbered s) (arrived s c f) := by
  have unseen : (isWriteClass fr.ty && (seqPlace p fr.seq == .below || p.rxAbove.contains fr.seq)) = false := by
    cases write : isWriteClass fr.ty with
    | false => rfl
    | true =>
      obtain ⟨inside, above⟩ := got.fresh write
      simp [inside, above]
  have free : alreadyHeld s c.num fr = false := by simp [alreadyHeld, got.alone]
  simp only [takeRequest, got.parsed, got.formed, unseen, free, Bool.false_eq_true, if_false]
  rfl

/-- The frame of a record whose partner is Active or Slow is taken as a request. -/
theorem requestFrame_received (got : Received s f fr c p path) :
    requestFrame s f = settleRelays 2 (serve (numbered s) (arrived s c f)) := by
  have source : fieldAt f.bytes 2 2 = fr.src := (parseFrame_header got.parsed).2.symm
  rw [requestFrame, source, got.record]
  dsimp only
  rw [got.partner]
  dsimp only
  have up := got.up
  split
  · rename_i fenced
    exact absurd up (by simp [isUp, fenced])
  · rename_i absent
    exact absurd up (by simp [isUp, absent])
  · rename_i training
    exact absurd up (by simp [isUp, training])
  · rw [takeRequest_received got]

/-! ### The answer -/

/-- What the carrying out of a request leaves as the answer needs it: the settings, the records, the frames, and what waits. -/
structure Serving (s v : State) : Prop where
  shell    : Shell s v
  cfg      : v.cfg = s.cfg
  out      : v.out = s.out
  partners : v.rem.partners = s.rem.partners
  nextIn   : v.rem.nextIn = s.rem.nextIn
  inbound  : v.rem.inbound = s.rem.inbound

/-- A request that is carried out with an answer and no violation. -/
theorem serve_replies (got : Received s f fr c p path) (serving : Serving s v) {status : Nat} {data : List SByte}
    (acts : carryOut (numbered s) c (arrived s c f) fr = .reply (numbered v) status data false) :
    serve (numbered s) (arrived s c f) = answeredOn v c p path fr status data := by
  have config : partnerCfg (numbered s) (arrived s c f).num = some c := got.config
  have parsed : parseFrame (arrived s c f).frame.bytes = some fr := got.parsed
  have route : arrivalPath c (arrived s c f).frame = some path := got.path
  have partner : getPartner (numbered v) c.num = some p := by
    rw [← got.partner]
    exact congrArg (List.find? _) serving.partners
  simp only [serve, config, parsed, acts, route, Option.getD_some, Bool.false_eq_true, if_false, respond, partner, answeredOn]
  split <;> rfl

/-- Nothing waits that an answer could settle. -/
theorem settleRelays_alone (alone : s.rem.inbound = []) : ∀ n, settleRelays n s = s
  | 0 => rfl
  | n + 1 => by simp [settleRelays, alone]

/-- A request of TYPE `ty` that is carried out with an answer and no violation. -/
theorem receive_replies {ty : Nat} (got : Received (hostAt s0 t f.half) f fr c p path) (typed : fr.ty = ty)
    (serving : Serving (hostAt s0 t f.half) v) {status : Nat} {data : List SByte}
    (acts : carryOut (numbered (hostAt s0 t f.half)) c (arrived (hostAt s0 t f.half) c f) fr = .reply (numbered v) status data false) :
    receive t ty f s0 = .next (answeredOn v c p path fr status data) := by
  have row : otherType ty (frameType f.bytes) = false := by simp [otherType, ← typed, (parseFrame_header got.parsed).1]
  have served : frameBeat requestFrame (atTime s0 t) f = answeredOn v c p path fr status data := by
    rw [frameBeat_awake got.on got.awake]
    refine (requestFrame_received got).trans ?_
    rw [serve_replies got serving acts]
    exact settleRelays_alone (s := answeredOn v c p path fr status data) (serving.inbound.trans got.alone) 2
  rw [receive, row, if_neg Bool.false_ne_true, served]
  exact answer_hostAt_eq serving.shell.pending serving.shell.fuses serving.shell.flash

/-! ### What is exported lets the request through (R395) -/

section
variable {e : ExportCfg} {x : Inbound}

theorem exported_numbered (lets : Exported s c fr e) : Exported (numbered s) c fr e := ⟨lets.exportRow, lets.owner, lets.checks⟩

theorem ownerQuenched_exported (lets : Exported s c fr e) : ownerQuenched s e.owner = false := by
  unfold ownerQuenched
  cases owner : getCtx s e.owner with
  | none => rfl
  | some y => simpa using lets.owner y owner

theorem carryOut_memory (lets : Exported s c fr e) {va len : Nat} (target : e.target = .memory va len) :
    carryOut s c x fr = memoryRequest s c e va x fr := by
  simp only [carryOut, lets.exportRow, ownerQuenched_exported lets, lets.checks, target, Bool.false_eq_true, if_false]

theorem carryOut_counter (lets : Exported s c fr e) {vid : Nat} (target : e.target = .counter vid) :
    carryOut s c x fr = signalRequest s c e vid x.frame.half fr := by
  simp only [carryOut, lets.exportRow, ownerQuenched_exported lets, lets.checks, target, Bool.false_eq_true, if_false]

theorem carryOut_reduction (lets : Exported s c fr e) {red : Nat} (target : e.target = .reduction red) :
    carryOut s c x fr = reduceRequest s c e fr := by
  simp only [carryOut, lets.exportRow, ownerQuenched_exported lets, lets.checks, target, Bool.false_eq_true, if_false]

end

end

end Sys2Proof.Machine
end

section
/-! What the requests of a partner do: a read, a write and an atomic of one plain piece, a signal, and the chunk of a reduction (R395, R396,
R402), with the lines that they take at the memory ports (R306). -/

namespace Sys2Proof.Machine

section
variable {s : State} {c : PartnerCfg} {e : ExportCfg} {x : Inbound} {fr : Frame} {q : Piece}

/-! ### Lines of the remote class -/

theorem piecesOf_ne_nil {α : Type} {a : Nat} {bs : List α} (some' : bs ≠ []) : piecesOf a bs ≠ [] := by
  simp [piecesOf, linePieces, some']

/-- The lines that an inbound request of TYPE `ty` asks for at a piece. -/
def inboundAsks (s : State) (ty : Nat) : Piece → List LineAsk :=
  match ty with
  | 1 => pieceAsks s
  | 2 => storedAsks s
  | _ => targetAsks s

theorem pieceAsks_eq_nil (far : inHbm s q = false) : pieceAsks s q = [] := by simp [pieceAsks, far]

theorem pieceAsks_ne_nil (near : unreachable s q.addr = false) (sized : 0 < q.len) (hbm : inHbm s q = true) : pieceAsks s q ≠ [] := by
  have pieces : piecesOf q.addr (List.replicate q.len ()) ≠ [] := piecesOf_ne_nil (by simpa using sized.ne')
  simpa [pieceAsks, near, hbm] using pieces

/-- Outside HBM there are no lines. -/
theorem inboundAsks_eq_nil (far : inHbm s q = false) (ty : Nat) : inboundAsks s ty q = [] := by
  unfold inboundAsks
  split
  · exact pieceAsks_eq_nil far
  · simp [storedAsks, far]
  · simp [targetAsks, pieceAsks_eq_nil far]

/-- In HBM a piece takes at least one line. -/
theorem inboundAsks_ne_nil (near : unreachable s q.addr = false) (sized : 0 < q.len) (hbm : inHbm s q = true) (ty : Nat) :
    inboundAsks s ty q ≠ [] := by
  unfold inboundAsks
  split
  · exact pieceAsks_ne_nil near sized hbm
  · obtain ⟨y, ys, pieces⟩ := List.exists_cons_of_ne_nil
      (piecesOf_ne_nil (a := q.addr) (bs := List.replicate q.len ()) (by simpa using sized.ne'))
    simp [storedAsks, near, hbm, pieces, mergeAsks]
  · obtain ⟨y, ys, asks⟩ := List.exists_cons_of_ne_nil (pieceAsks_ne_nil near sized hbm)
    simp [targetAsks, asks]

/-- The memory ports once the request has its lines at the piece. -/
def inboundArb (s : State) (c : PartnerCfg) (e : ExportCfg) (fr : Frame) (q : Piece) : Arbiters := (inboundLinesAt s c e fr [q]).arb

theorem inboundLinesAt_eq : inboundLinesAt s c e fr [q] = { s with arb := inboundArb s c e fr q } := rfl

theorem inboundArb_eq : inboundArb s c e fr q = (addOthers s (.partner c.num) e.priority fun n =>
    linesOfAsks s (fr.ty != 1) .remote none (touched e.owner [q]) n (inboundAsks s fr.ty q)).arb := by
  simp only [inboundArb, inboundLinesAt, List.flatMap_cons, List.flatMap_nil, List.append_nil]
  rfl

theorem cls_of_mem_linesOfAsks {write : Bool} {cls : LineClass} {ring : Option (Nat × Nat)} {segs : List (Nat × Nat × Bool)} {n : Nat}
    {xs : List LineAsk} {l : Line} (mem : l ∈ linesOfAsks s write cls ring segs n xs) : l.cls = cls := by
  obtain ⟨y, -, rfl⟩ := List.mem_map.1 mem
  rfl

/-- What an inbound request of one near piece leaves at the memory ports: in HBM its lines are of the remote class, with the priority
of what is exported (R306, R316). -/
theorem inboundArb_queued (near : unreachable s q.addr = false) (sized : 0 < q.len) :
    (inboundArb s c e fr q).ports = s.arb.ports ∧ (inHbm s q = false → inboundArb s c e fr q = s.arb) ∧
    (inHbm s q = true → ∃ ls, (inboundArb s c e fr q).others = s.arb.others ++ ls ∧ ls ≠ [] ∧
      ∀ l ∈ ls, l.who = .partner c.num ∧ l.prio = e.priority ∧ l.line.cls = .remote) := by
  rw [inboundArb_eq]
  refine ⟨rfl, fun far => ?_, fun hbm => ⟨_, rfl, ?_, fun l hl => ?_⟩⟩
  · rw [inboundAsks_eq_nil far]
    simp [addOthers, linesOfAsks]
  · simpa [linesOfAsks] using inboundAsks_ne_nil near sized hbm fr.ty
  · obtain ⟨line, mem, rfl⟩ := List.mem_map.1 hl
    exact ⟨rfl, rfl, cls_of_mem_linesOfAsks mem⟩

/-! ### Requests for memory (R396) -/

/-- A request for memory that translates to one plain piece acts there. -/
theorem memoryRequest_plain {va : Nat} (plain : PlainPiece s q)
    (translates : translate s e.owner [(va + offsetOf fr, reachOf fr, inboundRight fr.ty)] = .ok [q]) :
    memoryRequest s c e va x fr = memoryAct s c e x fr [q] := by
  have host : hostBlock s e.owner [q] = none := by simp [hostBlock, plain.block]
  simp [memoryRequest, translates, wakePiece_plain plain, plain.pkg, host]

theorem readPieces_plain (plain : PlainPiece s q) : readPieces s [q] = memReadS s.mem q.addr q.len := by
  simp [readPieces, readLocal, plain.near, plain.key]

/-- A plain piece takes the bytes of the remote port. -/
theorem writePieces_plain {bs : List SByte} {ctx : Nat} (plain : PlainPiece s q) : writePieces .remote ctx s [q] bs = { s with
    mem := if inStockpile q.addr then bankWrite s.mem s.time Writer.remote.rank q.addr (bs.take q.len)
      else memWrite s.mem q.addr (bs.take q.len) } := by
  simp only [writePieces, writePiece, markBlockWritten_plain plain, writeBank, writeLocal, plain.near, plain.key, Bool.not_false,
    Bool.and_true, Bool.false_eq_true, if_false]
  split <;> rfl

theorem writeAtomic_plain {bs : List SByte} {ctx : Nat} (plain : PlainPiece s q) :
    writeAtomic s ctx q bs = { s with mem := memWrite (bankSettle s.mem q.addr q.len) q.addr bs } := by
  have near : unreachable { s with mem := bankSettle s.mem q.addr q.len } q.addr = false := plain.near
  simp only [writeAtomic, markBlockWritten_plain plain, plain.key, writeLocal, near, Bool.false_eq_true, if_false]

/-- A plain piece is one whatever waits at the memory ports. -/
theorem plainPiece_arb {a : Arbiters} (plain : PlainPiece s q) : PlainPiece { s with arb := a } q :=
  ⟨plain.pkg, plain.key, plain.block, plain.near, plain.awake⟩

/-- What an RATOMIC writes at its target of `n` bytes, whose old bytes are `old`. -/
def inboundAtomic (fr : Frame) (n : Nat) (old : List SByte) : Option Nat :=
  atomicValue (fieldAt fr.arg 0 1) n (bit (fieldAt fr.arg 1 1) 1) (leVal (old.map Prod.fst))
    (fieldAt fr.data 0 8 % 2 ^ (8 * n)) (fieldAt fr.data 8 8 % 2 ^ (8 * n))

theorem plainPiece_singleton (plain : PlainPiece s q) : ∀ p ∈ [q], PlainPiece s p := fun _ hp => List.mem_singleton.1 hp ▸ plain

section
variable (plain : PlainPiece s q) (unledgered : ledgered s e.owner = false)
include plain unledgered

/-- An RREAD of one plain piece, where the owner of what is exported keeps no ledger. -/
theorem memoryAct_read (ty : fr.ty = 1) :
    memoryAct s c e x fr [q] = .reply { s with arb := inboundArb s c e fr q } stOk (memReadS s.mem q.addr q.len) false := by
  simp only [memoryAct, anyLedgered, unledgered, Bool.false_and, Bool.and_false, Bool.false_eq_true, if_false,
    anyUnreachable_plain (plainPiece_singleton plain), touchBlocks_plain (plainPiece_singleton plain), inboundLinesAt_eq, ty,
    readPieces_plain (plainPiece_arb plain)]

/-- An RWRITE of one plain piece. -/
theorem memoryAct_write (ty : fr.ty = 2) :
    memoryAct s c e x fr [q] = .reply { s with
      arb := inboundArb s c e fr q
      mem := if inStockpile q.addr then
          bankWrite s.mem s.time Writer.remote.rank q.addr ((markPayload fr.spoil fr.data).take q.len)
        else memWrite s.mem q.addr ((markPayload fr.spoil fr.data).take q.len) } stOk [] false := by
  simp only [memoryAct, anyLedgered, unledgered, Bool.false_and, Bool.and_false, Bool.false_eq_true, if_false,
    anyUnreachable_plain (plainPiece_singleton plain), touchBlocks_plain (plainPiece_singleton plain), inboundLinesAt_eq, ty,
    writePieces_plain (plainPiece_arb plain)]

/-- An RATOMIC of one plain piece. -/
theorem memoryAct_atomic (ty : fr.ty = 3) {old : List SByte} (reads : memReadS s.mem q.addr q.len = old) :
    memoryAct s c e x fr [q] = .reply { s with
      arb := inboundArb s c e fr q
      mem := match inboundAtomic fr q.len old with
        | some v => memWrite (bankSettle s.mem q.addr q.len) q.addr ((leBytes q.len v).map fun b => (b, anyMark old))
        | none => s.mem } stOk (old ++ (zeros (8 - q.len)).map fun b => (b, anyMark old)) false := by
  have before : readLocal { s with arb := inboundArb s c e fr q } q.key q.addr q.len = old := by
    rw [← reads]
    simp [readLocal, (plainPiece_arb plain).near, plain.key]
  simp only [memoryAct, anyLedgered, unledgered, Bool.false_and, Bool.and_false, Bool.false_eq_true, if_false,
    anyUnreachable_plain (plainPiece_singleton plain), inboundLinesAt_eq, ty, before,
    writeAtomic_plain (plainPiece_arb plain)]
  unfold inboundAtomic
  generalize atomicValue _ _ _ _ _ _ = new
  cases new <;> rfl

end

/-! ### Signals (R365, R418) -/

/-- The machine once an update of counter `ctr` by `n` has started from half `h` on its way. -/
def signalled (s : State) (ctr n : Nat) (h : Half) : State := { s with ctr := { s.ctr with updates := s.ctr.updates ++
  [{ ctr := ctr, amount := n, gen := genOf s ctr, half := h, due := s.time + releaseDelay ctr h }] } }

/-- A signal of an exported counter, whose owner has no open stream of the partner and no entry of it that waits: its update is on its way. -/
theorem signalRequest_sends {vid ctr : Nat} {a b : Bool} {half : Half} (entry : vEntry s e.owner vid = .loc ctr a b)
    (noStream : s.rem.inStreams = [])
    (noEntry : ∀ l ∈ s.ledgers, l.part = partOfCtx s e.owner → ∀ w ∈ l.waiting, w.inbound ≠ some (c.num, e.owner))
    (noReset : s.halfReset = ⟨false, false⟩) :
    signalRequest s c e vid half fr = .reply (signalled s ctr (fieldAt fr.arg 0 4) half) stOk [] false := by
  have closed : (streamOf s c.num e.owner).parts = [] := by simp [streamOf, noStream]
  have written : (getLedger s (partOfCtx s e.owner)).waiting.any (entryOfStream c.num e.owner) = false := by
    refine List.any_eq_false.2 fun w hw => ?_
    unfold getLedger at hw
    cases found : s.ledgers.find? (·.part == partOfCtx s e.owner) with
    | none => simp [found, LedgerSt.reset] at hw
    | some l =>
      rw [found] at hw
      have part : l.part = partOfCtx s e.owner := by simpa using List.find?_some found
      simpa [entryOfStream] using noEntry l (List.mem_of_find?_eq_some found) part w hw
  have reached : s.halfReset.get (homeOfCtr ctr) = false := by rw [noReset]; cases homeOfCtr ctr <;> rfl
  simp [signalRequest, entry, closed, written, sendUpdate, reached, signalled]

/-! ### Chunks (R402) -/

/-- The chunk that an RREDUCE of record `c` brings. -/
def inboundChunk (c : PartnerCfg) (fr : Frame) : Chunk :=
  { sender := c.package, profile := fieldAt fr.arg 7 1, epoch := fieldAt fr.arg 0 4, rank := fieldAt fr.arg 4 2, off := offsetOf fr
    data := markPayload fr.spoil fr.data }

theorem markPayload_length (spoil : Nat) (bs : List Byte) : (markPayload spoil bs).length = bs.length := by simp [markPayload]

/-- An RREDUCE whose chunk is the first of its rank in the current epoch is stored. -/
theorem reduceRequest_stores {red : Nat} {d : RedCfg} {y : EpochSt} (target : e.target = .reduction red) (home : redCfg s e.owner red = some d)
    (member : fieldAt fr.arg 4 2 < d.members) (fmt : fieldAt fr.arg 6 1 = d.fmt) (profile : fieldAt fr.arg 7 1 = profileOf s d.ctx)
    (current : fieldAt fr.arg 0 4 = (getEpoch s d.ctx d.red).e) (open' : (getEpoch s d.ctx d.red).ending = none)
    (unbound : ∀ b ∈ (getEpoch s d.ctx d.red).bound, b.1 ≠ fieldAt fr.arg 4 2)
    (fresh : ∀ k ∈ (getEpoch s d.ctx d.red).chunks, k.1 ≠ fieldAt fr.arg 4 2)
    (with' : withChunk s.time (getEpoch s d.ctx d.red) (inboundChunk c fr) = y) (more : allRanks d y = false) :
    reduceRequest s c e fr = .reply (gathered s d (inboundChunk c fr) y) stOk [] false := by
  subst with'
  have takes := takeChunk_first (k := inboundChunk c fr) rfl current open' unbound fresh profile more
  have suits : (decide (fieldAt fr.arg 4 2 ≥ d.members) || fieldAt fr.arg 6 1 != d.fmt) = false := by simp [member, fmt]
  unfold inboundChunk at takes ⊢
  simp only [reduceRequest, chunkAtHome, target, home, suits, Bool.false_eq_true, if_false, takes]

end

/-- Settles O48: a request that is received is served at once (`receive_replies`), and each TYPE acts on the exported target. -/
theorem requestsAreCarriedOutAndAnswered : Obligations.RequestsAreCarriedOutAndAnswered := by
  unfold Obligations.RequestsAreCarriedOutAndAnswered
  intro s0 t f fr c p path e q s got lets unledgered off answered queued put
  have lets' := exported_numbered lets
  refine ⟨fun va len target plain sized => ?_, fun vid ctr a b target ty entry noStream noEntry noReset => ?_,
    fun red d target ty home member fmt profile => ?_⟩
  · have plain' : PlainPiece (numbered s) q := ⟨plain.pkg, plain.key, plain.block, plain.near, plain.awake⟩
    obtain ⟨ports, far, hbm⟩ := inboundArb_queued (s := s) (c := c) (e := e) (fr := fr) plain.near sized
    have acts (translates : translate s e.owner [(va + off, reachOf fr, inboundRight fr.ty)] = .ok [q]) :
        carryOut (numbered s) c (arrived s c f) fr = memoryAct (numbered s) c e (arrived s c f) fr [q] :=
      (carryOut_memory lets' target).trans (memoryRequest_plain plain' translates)
    refine ⟨fun ty translates => ⟨_, ports, far, hbm, ?_⟩, fun ty translates => ⟨_, ports, far, hbm, ?_⟩,
      fun ty translates size => ⟨_, ports, far, hbm, ?_⟩⟩
    · have reads := acts (by simpa [reachOf, inboundRight, ty] using translates)
      exact receive_replies (v := { s with arb := inboundArb s c e fr q }) got ty ⟨⟨rfl, rfl, rfl⟩, rfl, rfl, rfl, rfl, rfl⟩
        (reads.trans (memoryAct_read plain' unledgered ty))
    · have writes := acts (by simpa [reachOf, inboundRight, ty] using translates)
      exact receive_replies
        (v := { s with arb := inboundArb s c e fr q, mem := put s.mem ((markPayload fr.spoil fr.data).take q.len) }) got ty
        ⟨⟨rfl, rfl, rfl⟩, rfl, rfl, rfl, rfl, rfl⟩ (writes.trans (memoryAct_write plain' unledgered ty))
    · have does := acts (by simpa [reachOf, inboundRight, ty, ← size] using translates)
      exact receive_replies (v := { s with arb := inboundArb s c e fr q, mem := _ }) got ty ⟨⟨rfl, rfl, rfl⟩, rfl, rfl, rfl, rfl, rfl⟩
        (does.trans (memoryAct_atomic plain' unledgered ty rfl))
  · exact receive_replies (v := signalled s ctr (fieldAt fr.arg 0 4) f.half) got ty ⟨⟨rfl, rfl, rfl⟩, rfl, rfl, rfl, rfl, rfl⟩
      ((carryOut_counter lets' target).trans (signalRequest_sends (s := numbered s) entry noStream noEntry noReset))
  · intro x y place acc epochs current open' unbound fresh more inS near
    have with' : withChunk (numbered s).time (getEpoch (numbered s) d.ctx d.red) (inboundChunk c fr) = y := by
      simp only [withChunk, inboundChunk, markPayload_length]
      rfl
    have stores := (carryOut_reduction (x := arrived s c f) lets' target).trans
      (reduceRequest_stores target home member fmt profile current open' unbound fresh with' more)
    obtain ⟨m, n, effect, quiet, frame⟩ := gathered_frame (s := numbered s) (d := d) (k := inboundChunk c fr) (y := y) inS near
    rw [effect] at stores
    refine ⟨m, n, ?_, quiet, fun wf a out outAcc off => ?_⟩
    · exact receive_replies (v := { s with mem := m, drawn := n, rem := { s.rem with epochs := epochs } }) got ty
        ⟨⟨rfl, rfl, rfl⟩, rfl, rfl, rfl, rfl, rfl⟩ stores
    · exact frame wf a (by rw [inboundChunk, markPayload_length]; exact out) outAcc off

end Sys2Proof.Machine
end

section
/-! The registers of the fault queue and of the ledger queue (R353, R424). -/

namespace Sys2Proof.Machine

/-! ### Changes of one fault queue or one ledger -/

section
variable {s : State} {p : Nat}

/-- A lookup by a key after the elements of one key have changed by what keeps it. -/
theorem find?_updWhere_key {α : Type} {key : α → Nat} {f : α → α} (keeps : ∀ x, key (f x) = key x) (p r : Nat) (l : List α) :
    (updWhere (fun x => key x == p) f l).find? (fun x => key x == r) =
      (l.find? fun x => key x == r).map fun x => if r == p then f x else x := by
  have same (x : α) : (key (if key x == p then f x else x) == r) = (key x == r) := by split <;> simp [keeps]
  rw [updWhere, find?_map_of_keeps same]
  cases found : l.find? fun x => key x == r with
  | none => rfl
  | some x =>
    have at' : key x = r := by simpa using List.find?_some found
    simp [at']

theorem getFaultQ_updFaultQ {q : FaultQ} {f : FaultQ → FaultQ} (keeps : ∀ x, (f x).part = x.part)
    (found : s.seg.faultQs.find? (·.part == p) = some q) : getFaultQ (updFaultQ s p f) p = f q := by
  simp only [getFaultQ, updFaultQ, find?_updWhere_key keeps, found, Option.map_some, beq_self_eq_true, if_true, Option.getD_some]

theorem getFaultQ_updFaultQ_other {f : FaultQ → FaultQ} (keeps : ∀ x, (f x).part = x.part) {r : Nat} (other : r ≠ p) :
    getFaultQ (updFaultQ s p f) r = getFaultQ s r := by
  simp [getFaultQ, updFaultQ, find?_updWhere_key keeps, other]

theorem updFaultQ_updFaultQ {f g : FaultQ → FaultQ} (keeps : ∀ x, (f x).part = x.part) :
    updFaultQ (updFaultQ s p f) p g = updFaultQ s p fun x => g (f x) := by
  simp only [updFaultQ, updWhere, List.map_map]
  refine congrArg (fun l => { s with seg := { s.seg with faultQs := l } }) (List.map_congr_left fun x _ => ?_)
  by_cases h : x.part = p <;> simp [h, keeps]

theorem getLedger_updLedger_found {l : LedgerSt} {f : LedgerSt → LedgerSt} (keeps : ∀ x, (f x).part = x.part)
    (found : s.ledgers.find? (·.part == p) = some l) : getLedger (updLedger s p f) p = f l := by
  simp only [getLedger, updLedger, find?_updWhere_key keeps, found, Option.map_some, beq_self_eq_true, if_true, Option.getD_some]

theorem getLedger_updLedger_other {f : LedgerSt → LedgerSt} (keeps : ∀ x, (f x).part = x.part) {r : Nat} (other : r ≠ p) :
    getLedger (updLedger s p f) r = getLedger s r := by
  simp [getLedger, updLedger, find?_updWhere_key keeps, other]

theorem updLedger_updLedger {f g : LedgerSt → LedgerSt} (keeps : ∀ x, (f x).part = x.part) :
    updLedger (updLedger s p f) p g = updLedger s p fun x => g (f x) := by
  simp only [updLedger, updWhere, List.map_map]
  refine congrArg (fun l => { s with ledgers := l }) (List.map_congr_left fun x _ => ?_)
  by_cases h : x.part = p <;> simp [h, keeps]

/-- The one ledger of a partition, changed. -/
theorem updLedger_only {l : LedgerSt} (only : ∀ y ∈ s.ledgers, y.part = p → y = l) (f : LedgerSt → LedgerSt) :
    updLedger s p f = { s with ledgers := s.ledgers.map fun y => if y.part == p then f l else y } := by
  simp only [updLedger, updWhere]
  refine congrArg (fun l => { s with ledgers := l }) (List.map_congr_left fun y hy => ?_)
  by_cases h : y.part = p
  · rw [only y hy h]
  · simp [h]

end

/-! ### Commands that change one queue of a partition -/

/-- `x` is the next state `u` of a command that makes partition `p`'s fault queue `q` and changes nothing else. -/
def MakesFaultQ (s : State) (p : Nat) (x : Result) (q : FaultQ) : Prop :=
  ∃ u, x = .next u ∧ getFaultQ u p = q ∧ (∀ r, r ≠ p → getFaultQ u r = getFaultQ s r) ∧
    u = { s with seg := { s.seg with faultQs := u.seg.faultQs } }

/-- The same for the partition's ledger. -/
def MakesLedger (s : State) (p : Nat) (x : Result) (l : LedgerSt) : Prop :=
  ∃ u, x = .next u ∧ getLedger u p = l ∧ (∀ r, r ≠ p → getLedger u r = getLedger s r) ∧ u = { s with ledgers := u.ledgers }

section
variable {s0 : State} {t : Mc} {h : Half} {p : Nat}

theorem makesFaultQ_updFaultQ {q : FaultQ} {f : FaultQ → FaultQ} (keeps : ∀ x, (f x).part = x.part)
    (found : (hostAt s0 t h).seg.faultQs.find? (·.part == p) = some q) :
    MakesFaultQ (hostAt s0 t h) p (answer s0 (updFaultQ (hostAt s0 t h) p f)) (f q) :=
  ⟨_, answer_hostAt_eq rfl rfl rfl, getFaultQ_updFaultQ keeps found, fun _ other => getFaultQ_updFaultQ_other keeps other, rfl⟩

/-- A second change on top of the first. -/
theorem makesFaultQ_twice {q : FaultQ} (f g : FaultQ → FaultQ) (keepsF : ∀ x, (f x).part = x.part) (keepsG : ∀ x, (g x).part = x.part)
    (found : (hostAt s0 t h).seg.faultQs.find? (·.part == p) = some q) :
    MakesFaultQ (hostAt s0 t h) p (answer s0 (updFaultQ (updFaultQ (hostAt s0 t h) p f) p g)) (g (f q)) := by
  rw [updFaultQ_updFaultQ keepsF]
  exact makesFaultQ_updFaultQ (fun x => (keepsG (f x)).trans (keepsF x)) found

theorem makesLedger_updLedger {l : LedgerSt} {f : LedgerSt → LedgerSt} (keeps : ∀ x, (f x).part = x.part)
    (found : (hostAt s0 t h).ledgers.find? (·.part == p) = some l) :
    MakesLedger (hostAt s0 t h) p (answer s0 (updLedger (hostAt s0 t h) p f)) (f l) :=
  ⟨_, answer_hostAt_eq rfl rfl rfl, getLedger_updLedger_found keeps found, fun _ other => getLedger_updLedger_other keeps other, rfl⟩

theorem makesLedger_twice {l : LedgerSt} (f g : LedgerSt → LedgerSt) (keepsF : ∀ x, (f x).part = x.part) (keepsG : ∀ x, (g x).part = x.part)
    (found : (hostAt s0 t h).ledgers.find? (·.part == p) = some l) :
    MakesLedger (hostAt s0 t h) p (answer s0 (updLedger (updLedger (hostAt s0 t h) p f) p g)) (g (f l)) := by
  rw [updLedger_updLedger keepsF]
  exact makesLedger_updLedger (fun x => (keepsG (f x)).trans (keepsF x)) found

end

/-! ### Fields of a written value -/

theorem regBit_zero (w : RegWrite) : regBit w 0 = decide (w.value.toNat % 2 = 1) := by
  by_cases odd : w.value.toNat % 2 = 1 <;> simp [regBit, bit, odd]

theorem regBits_low32 (w : RegWrite) : regBits w 31 0 = w.value.toNat % 2 ^ 32 := congrArg (· % 2 ^ 32) (Nat.div_one w.value.toNat)

theorem sub32b_of_lt {a b : Nat} (small : b < 2 ^ 32) : sub32b a b = (a + 2 ^ 32 - b) % 2 ^ 32 := by
  rw [sub32b, Nat.mod_eq_of_lt small]

/-! ### The fault queue -/

section
variable {s0 s : State} {t : Mc} {p : Fin 16} {w : RegWrite} {q : FaultQ}

/-- A fault queue that takes the VECTOR and the LOG2DEPTH of a write of FV_FAULT_QCTL. -/
def withControl (w : RegWrite) (log : Nat) (q : FaultQ) : FaultQ := { q with vector := regBits w 23 13, log := log }

/-- A fault queue that goes from ENABLE 0 to ENABLE 1 with no record waiting. -/
def freshQueue (q : FaultQ) : FaultQ := renumber { q with enabled := true, head := 0, records := 0 }

theorem freshQueue_empty (opened : q.openB = []) (closed : q.closedB = []) :
    freshQueue q = { q with enabled := true, head := 0, records := 0, batchNo := 0 } := by
  simp [freshQueue, renumber, opened, closed]

theorem getFaultQ_found (found : s.seg.faultQs.find? (·.part == p.val) = some q) : getFaultQ s p.val = q := by
  rw [getFaultQ, found, Option.getD_some]

/-- A queue that changes with no record waiting writes none. -/
theorem flushFaults_updFaultQ {f : FaultQ → FaultQ} (keeps : ∀ x, (f x).part = x.part)
    (found : s.seg.faultQs.find? (·.part == p.val) = some q) (opened : (f q).openB = []) (closed : (f q).closedB = [])
    (waiting : (f q).waiting = []) : flushFaults (updFaultQ s p.val f) p.val = updFaultQ s p.val f := by
  have now := getFaultQ_updFaultQ keeps found
  exact flushFaults_open (by rw [now, closed]) (by rw [now, opened]; decide) (by rw [now, waiting])

/-- Two changes with no record waiting behind them. -/
theorem makesFaultQ_flushed {h : Half} (f g : FaultQ → FaultQ) (keepsF : ∀ x, (f x).part = x.part) (keepsG : ∀ x, (g x).part = x.part)
    (found : (hostAt s0 t h).seg.faultQs.find? (·.part == p.val) = some q) (opened : (g (f q)).openB = [])
    (closed : (g (f q)).closedB = []) (waiting : (g (f q)).waiting = []) :
    MakesFaultQ (hostAt s0 t h) p.val (answer s0 (flushFaults (updFaultQ (updFaultQ (hostAt s0 t h) p.val f) p.val g) p.val)) (g (f q)) := by
  have keeps (x : FaultQ) : (g (f x)).part = x.part := (keepsG (f x)).trans (keepsF x)
  rw [updFaultQ_updFaultQ keepsF, flushFaults_updFaultQ keeps found opened closed waiting]
  exact makesFaultQ_updFaultQ keeps found

/-- What a write of FV_FAULT_QCTL makes of the partition's fault queue `q`. -/
def controlledQueue (w : RegWrite) (q : FaultQ) : FaultQ :=
  let log := if q.enabled then q.log else regBits w 8 4
  if regBit w 0 then
    if q.enabled || log < 6 || log > 12 then withControl w log q else freshQueue (withControl w log q)
  else { withControl w log q with enabled := false }

/-- The same by the bits of the value, with no record waiting. -/
theorem controlledQueue_empty (opened : q.openB = []) (closed : q.closedB = []) {v log : ℕ} (value : w.value.toNat = v)
    (depth : (if q.enabled then q.log else bits v 8 4) = log) : controlledQueue w q =
      if v % 2 = 0 then { q with vector := bits v 23 13, log := log, enabled := false }
      else if q.enabled = true ∨ log < 6 ∨ 12 < log then { q with vector := bits v 23 13, log := log }
      else { q with vector := bits v 23 13, log := log, enabled := true, head := 0, records := 0, batchNo := 0 } := by
  subst value depth
  have fresh (k : ℕ) : freshQueue (withControl w k q) =
      { q with vector := regBits w 23 13, log := k, enabled := true, head := 0, records := 0, batchNo := 0 } :=
    freshQueue_empty (q := withControl w k q) opened closed
  simp only [controlledQueue, fresh, regBit_zero, decide_eq_true_eq, Bool.or_eq_true, or_assoc, gt_iff_lt]
  rcases Nat.mod_two_eq_zero_or_one w.value.toNat with even | odd
  · simp only [even, Nat.zero_ne_one, if_false, if_true]
    rfl
  · simp only [odd, Nat.one_ne_zero, if_false, if_true]
    rfl

/-- A write of FV_FAULT_QCTL with no record waiting. -/
theorem execFaultQueueEnable_makes (reaches : PageWrite (hostAt s0 t w.port) p w)
    (found : (hostAt s0 t w.port).seg.faultQs.find? (·.part == p.val) = some q) (opened : q.openB = []) (closed : q.closedB = [])
    (waiting : q.waiting = []) :
    MakesFaultQ (hostAt s0 t w.port) p.val (execFaultQueueEnable t w s0) (controlledQueue w q) := by
  unfold execFaultQueueEnable controlledQueue
  simp only [regOpen_plain_of_pageWrite reaches, pagePart_of_pageWrite reaches, getFaultQ_found found, Bool.not_true, Bool.false_eq_true,
    if_false]
  generalize (if q.enabled then q.log else regBits w 8 4) = log
  have keeps (x : FaultQ) : (withControl w log x).part = x.part := rfl
  cases regBit w 0
  case false => exact makesFaultQ_twice (withControl w log) (fun x => { x with enabled := false }) keeps (fun _ => rfl) found
  case true =>
    simp only [Bool.not_true, Bool.false_eq_true, if_false, if_true]
    split
    · exact makesFaultQ_updFaultQ keeps found
    · exact makesFaultQ_flushed (withControl w log) freshQueue keeps (fun _ => rfl) found (by simp [freshQueue, renumber, withControl, opened])
        (by simp [freshQueue, renumber, withControl, closed]) waiting

/-- A HEAD lies beyond RECORDS (R353). -/
def headBeyond (v head records : Nat) : Bool := decide (sub32b v head > sub32b records head)

/-- What a write of FV_FAULT_QHEAD makes of it. -/
def headedQueue (w : RegWrite) (q : FaultQ) : FaultQ :=
  if headBeyond (regBits w 31 0) q.head q.records then { q with dropped := capAt 0xFFFFFFFF (q.dropped + 1) }
  else { q with head := regBits w 31 0 }

/-- A write of FV_FAULT_QHEAD with no record waiting. -/
theorem execFaultQueueHead_makes (reaches : PageWrite (hostAt s0 t w.port) p w)
    (found : (hostAt s0 t w.port).seg.faultQs.find? (·.part == p.val) = some q) (opened : q.openB = []) (closed : q.closedB = [])
    (waiting : q.waiting = []) :
    MakesFaultQ (hostAt s0 t w.port) p.val (execFaultQueueHead t w s0) (headedQueue w q) := by
  unfold execFaultQueueHead headedQueue headBeyond
  simp only [regOpen_plain_of_pageWrite reaches, pagePart_of_pageWrite reaches, getFaultQ_found found, Bool.not_true, Bool.false_eq_true,
    if_false, decide_eq_true_eq]
  split
  · exact makesFaultQ_updFaultQ (f := fun q => { q with dropped := capAt 0xFFFFFFFF (q.dropped + 1) }) (fun _ => rfl) found
  · rw [flushFaults_updFaultQ (f := fun q => { q with head := regBits w 31 0 }) (fun _ => rfl) found opened closed waiting]
    exact makesFaultQ_updFaultQ (f := fun q => { q with head := regBits w 31 0 }) (fun _ => rfl) found

end

/-! ### The ledger queue -/

section
variable {s0 s : State} {t : Mc} {p : Fin 16} {w : RegWrite} {l : LedgerSt}

theorem getLedger_found (found : s.ledgers.find? (·.part == p.val) = some l) : getLedger s p.val = l := by
  rw [getLedger, found, Option.getD_some]

/-- A ledger that takes the VECTOR and the LOG2DEPTH of a write of FV_LED_QCTL. -/
def withLedgerControl (w : RegWrite) (log : Nat) (l : LedgerSt) : LedgerSt := { l with vector := regBits w 23 13, log := log }

/-- What a write of FV_LED_QCTL makes of the ledger `l` of a partition whose chain has a head. -/
def controlledLedger (w : RegWrite) (l : LedgerSt) : LedgerSt :=
  let log := if l.enabled then l.log else regBits w 8 4
  if regBit w 0 then
    if l.enabled || log < 6 || log > 16 then withLedgerControl w log l
    else { withLedgerControl w log l with enabled := true, head := 0, records := 0 }
  else { withLedgerControl w log l with enabled := false }

/-- The same by the bits of the value. -/
theorem controlledLedger_eq {v log : ℕ} (value : w.value.toNat = v) (depth : (if l.enabled then l.log else bits v 8 4) = log) :
    controlledLedger w l =
      if v % 2 = 0 then { l with vector := bits v 23 13, log := log, enabled := false }
      else if l.enabled = true ∨ log < 6 ∨ 16 < log then { l with vector := bits v 23 13, log := log }
      else { l with vector := bits v 23 13, log := log, enabled := true, head := 0, records := 0 } := by
  subst value depth
  simp only [controlledLedger, regBit_zero, decide_eq_true_eq, Bool.or_eq_true, or_assoc, gt_iff_lt]
  rcases Nat.mod_two_eq_zero_or_one w.value.toNat with even | odd
  · simp only [even, Nat.zero_ne_one, if_false, if_true]
    rfl
  · simp only [odd, Nat.one_ne_zero, if_false, if_true]
    rfl

/-- A ledger that holds the closed entries which its queue cannot take (R425). -/
def judgedLedger (l : LedgerSt) : LedgerSt := { l with
  waiting := l.waiting.map fun e =>
    if e.closed.isSome && !placeFits l ((closedEntries l).findIdx (· == e)) then { e with held := true } else e }

theorem judgedLedger_empty (waiting : l.waiting = []) : judgedLedger l = l := by
  cases l
  simp_all [judgedLedger]

/-- A partition whose queue changes while none of its entries waits holds none up. -/
theorem judgeRoom_updLedger {f : LedgerSt → LedgerSt} (keeps : ∀ x, (f x).part = x.part)
    (found : s.ledgers.find? (·.part == p.val) = some l) (waiting : (f l).waiting = []) :
    judgeRoom (updLedger s p.val f) p.val = updLedger (updLedger s p.val f) p.val judgedLedger := by
  have none : (getLedger (updLedger (updLedger s p.val f) p.val judgedLedger) p.val).waiting = [] := by
    rw [updLedger_updLedger keeps, getLedger_updLedger_found (f := fun x => judgedLedger (f x)) keeps found, judgedLedger_empty waiting, waiting]
  exact parkHeld_free fun e he => absurd (none ▸ he : e ∈ []) List.not_mem_nil

/-- A write of FV_LED_QCTL of a partition whose chain has a head and no entry that waits. -/
theorem execLedgerQueueEnable_makes (reaches : PageWrite (hostAt s0 t w.port) p w)
    (found : (hostAt s0 t w.port).ledgers.find? (·.part == p.val) = some l) (chained : l.chained = true) (waiting : l.waiting = []) :
    MakesLedger (hostAt s0 t w.port) p.val (execLedgerQueueEnable t w s0) (controlledLedger w l) := by
  unfold execLedgerQueueEnable controlledLedger
  simp only [regOpen_plain_of_pageWrite reaches, pagePart_of_pageWrite reaches, getLedger_found found, chained, Bool.not_true,
    Bool.false_eq_true, if_false, if_true]
  generalize (if l.enabled then l.log else regBits w 8 4) = log
  have keeps (x : LedgerSt) : (withLedgerControl w log x).part = x.part := rfl
  cases regBit w 0
  case false =>
    let off := fun x : LedgerSt => { withLedgerControl w log x with enabled := false }
    have judged : judgeRoom (updLedger (updLedger (hostAt s0 t w.port) p.val (withLedgerControl w log)) p.val
        fun x => { x with enabled := false }) p.val = updLedger (updLedger (hostAt s0 t w.port) p.val off) p.val judgedLedger := by
      rw [updLedger_updLedger keeps]
      exact judgeRoom_updLedger (fun _ => rfl) found waiting
    have made := makesLedger_twice off judgedLedger (fun _ => rfl) (fun _ => rfl) found
    rw [judgedLedger_empty (l := off l) waiting, ← judged] at made
    exact made
  case true =>
    simp only [Bool.not_true, Bool.false_eq_true, if_false, if_true]
    split
    · exact makesLedger_updLedger keeps found
    · exact makesLedger_twice (withLedgerControl w log) (fun x => { x with enabled := true, head := 0, records := 0 }) keeps
        (fun _ => rfl) found

/-- A write of FV_LED_QHEAD. -/
theorem execLedgerQueueHead_eq (reaches : PageWrite (hostAt s0 t w.port) p w)
    (found : (hostAt s0 t w.port).ledgers.find? (·.part == p.val) = some l) :
    execLedgerQueueHead t w s0 = .next (
      if headBeyond (regBits w 31 0) l.head l.records then
        updFaultQ (hostAt s0 t w.port) p.val fun q => { q with dropped := capAt 0xFFFFFFFF (q.dropped + 1) }
      else updLedger (hostAt s0 t w.port) p.val fun l => { l with head := regBits w 31 0 }) := by
  unfold execLedgerQueueHead headBeyond
  simp only [regOpen_plain_of_pageWrite reaches, pagePart_of_pageWrite reaches, getLedger_found found, Bool.not_true, Bool.false_eq_true,
    if_false, decide_eq_true_eq]
  split <;> exact answer_hostAt_eq rfl rfl rfl

end

/-! ### The bases of both queues -/

section
variable {s0 : State} {t : Mc} {p : Fin 16} {w : RegWrite}

/-- A register that no command names and that is not a selector. -/
theorem execRegisterWrite_base {r : Nat} (base : r = 0x8000 ∨ r = 0xA000) (reaches : PageWrite (hostAt s0 t w.port) p w) :
    execRegisterWrite t w.port (p.val * 0x1_0000 + r) 8 w.value s0 =
      answer s0 (writeQBase (hostAt s0 t w.port) p.val r (bits w.value.toNat 42 12 * 4096)) := by
  have open' : regOpen (hostAt s0 t w.port) { port := w.port, page := .part p, size := 8, value := w.value } .plain = true :=
    regOpen_plain_of_pageWrite ⟨rfl, rfl, reaches.port, reaches.run, reaches.maint⟩
  rw [execRegisterWrite_page (by omega) (by omega)]
  rcases base with rfl | rfl <;> simp [writePage, writePlain, isSelector, open', pagePart]

theorem execRegisterWrite_faultBase {q : FaultQ} (reaches : PageWrite (hostAt s0 t w.port) p w)
    (found : (hostAt s0 t w.port).seg.faultQs.find? (·.part == p.val) = some q) :
    MakesFaultQ (hostAt s0 t w.port) p.val (execRegisterWrite t w.port (p.val * 0x1_0000 + 0x8000) 8 w.value s0)
      (if q.enabled then q else { q with base := bits w.value.toNat 42 12 * 4096 }) := by
  rw [execRegisterWrite_base (.inl rfl) reaches]
  exact makesFaultQ_updFaultQ (f := fun q => if q.enabled then q else { q with base := bits w.value.toNat 42 12 * 4096 })
    (fun x => by split <;> rfl) found

theorem execRegisterWrite_ledgerBase {l : LedgerSt} (reaches : PageWrite (hostAt s0 t w.port) p w)
    (found : (hostAt s0 t w.port).ledgers.find? (·.part == p.val) = some l) :
    MakesLedger (hostAt s0 t w.port) p.val (execRegisterWrite t w.port (p.val * 0x1_0000 + 0xA000) 8 w.value s0)
      (if l.enabled then l else { l with base := bits w.value.toNat 42 12 * 4096 }) := by
  rw [execRegisterWrite_base (.inr rfl) reaches]
  exact makesLedger_updLedger (f := fun l => if l.enabled then l else { l with base := bits w.value.toNat 42 12 * 4096 })
    (fun x => by split <;> rfl) found

end

/-- Settles O13: each write changes the one queue of its partition (`MakesFaultQ`, `MakesLedger`); with no record and no entry that waits,
neither the faults block nor the ledger has anything more to do. -/
theorem queueRegistersKeepTheirCounts : Obligations.QueueRegistersKeepTheirCounts := by
  unfold Obligations.QueueRegistersKeepTheirCounts
  refine ⟨?_, ?_, ?_, ?_⟩
  · intro s0 t p w q s reaches found opened closed waiting log taken
    have made := execFaultQueueEnable_makes reaches found opened closed waiting
    rw [controlledQueue_empty opened closed rfl (log := log) rfl] at made
    exact made
  · intro s0 t p w q s reaches found opened closed waiting headLow recordsLow v beyond
    have made := execFaultQueueHead_makes reaches found opened closed waiting
    simp only [headedQueue, headBeyond, regBits_low32, sub32b_of_lt headLow, decide_eq_true_eq, capAt_eq_min] at made
    exact made
  · intro s0 t p w l s reaches found chained waiting headLow recordsLow v log taken put
    refine ⟨?_, fun only => ?_⟩
    · have made := execLedgerQueueEnable_makes reaches found chained waiting
      rw [controlledLedger_eq rfl (log := log) rfl] at made
      exact made
    · refine (execLedgerQueueHead_eq reaches found).trans ?_
      rw [updLedger_only only]
      simp only [headBeyond, regBits_low32, sub32b_of_lt headLow, decide_eq_true_eq, capAt_eq_min]
      rfl
  · intro s0 t p w s reaches base
    exact ⟨fun q found => execRegisterWrite_faultBase reaches found, fun l found => execRegisterWrite_ledgerBase reaches found⟩

end Sys2Proof.Machine
end

section
/-! Segment commands and drains (R330 to R332, R336, R349, R350). -/

namespace Sys2Proof.Machine

/-! ### What waits for a segment outside the haulers (R334, R396, R403) -/

section
variable {s : State}

theorem retryInbound_none (none : s.rem.inbound = []) : retryInbound s = s := by
  rw [retryInbound, none]
  rfl

theorem retryStores_none (none : ∀ x ∈ s.buf.stores, x.held = false) : retryStores s = s := by
  rw [retryStores, List.filter_eq_nil_iff.2 fun x hx => by simp [none x hx]]
  rfl

/-- An epoch that is summed, or has ranks to come, has no sum to write. -/
theorem sumEpoch_none {d : RedCfg} {x : EpochSt} (none : x.summed = true ∨ allRanks d x = false) : sumEpoch s d x = s :=
  if_neg (by rcases none with summed | more <;> simp [*])

/-- Steps each of which leaves the state leave it. -/
theorem foldl_fixed {α : Type} {f : State → α → State} : ∀ {l : List α}, (∀ x ∈ l, f s x = s) → l.foldl f s = s
  | [], _ => rfl
  | x :: l, fixed => by
    rw [List.foldl_cons, fixed x (List.mem_cons_self ..)]
    exact foldl_fixed fun y hy => fixed y (List.mem_cons_of_mem x hy)

theorem retryEpochs_none (none : ∀ x ∈ s.rem.epochs, x.ending = none ∧
    (x.summed = true ∨ ∀ d, redCfg s x.ctx x.red = some d → allRanks d x = false)) : retryEpochs s = s := by
  refine foldl_fixed fun x hx => ?_
  obtain ⟨open', waits⟩ := none x hx
  rw [open']
  cases found : redCfg s x.ctx x.red with
  | none => rfl
  | some d => exact sumEpoch_none (waits.imp_right fun more => more d found)

/-- With nothing that waits, nothing is tried again. -/
theorem retryHeld_nothingHeld (quiet : NothingHeld s) : retryHeld s = s := by
  obtain ⟨inbound, stores, epochs⟩ := quiet
  rw [retryHeld, retryInbound_none inbound, retryStores_none stores, retryEpochs_none epochs]

theorem nothingHeld_congr {u : State} (quiet : NothingHeld s) (rem : u.rem = s.rem) (buf : u.buf = s.buf) (cfg : u.cfg = s.cfg) :
    NothingHeld u := by
  have red (c r : Nat) : redCfg u c r = redCfg s c r := by rw [redCfg, redCfg, cfg]
  simpa only [NothingHeld, rem, buf, red] using quiet

end

/-! ### Changes of the segment in one slot -/

section
variable {s : State} {ctx slot : Nat}

/-- The machine with the segments `l`. -/
def withSegs (s : State) (l : List Segment) : State := { s with seg := { s.seg with segs := l } }

/-- A change of a slot's segment that leaves its blocks. -/
theorem updSeg_sameBlocks {f : Segment → Segment} (same : ∀ x, (f x).blocks = x.blocks) :
    updSeg s ctx slot f = withSegs s (withSegment s ctx slot f) := by
  rw [updSeg_only, show changeSeg s.time f = f from funext fun x => changeSeg_sameBlocks (same x)]
  rfl

theorem startDrain_cfg (g : Segment) : (startDrain g).cfg = g.cfg := by
  unfold startDrain
  split
  · split <;> rfl
  · rfl

theorem startDrain_blocks (g : Segment) : (startDrain g).blocks = g.blocks := by
  unfold startDrain
  split
  · split <;> rfl
  · rfl

/-- A segment that has accepted the drain `d` behind its earlier ones. -/
def withDrain (d : SegDrain) (g : Segment) : Segment := startDrain { g with drains := g.drains ++ [d] }

theorem acceptDrain_eq (act : DrainAct) (first count : Nat) (op : Option Nat) :
    acceptDrain s ctx slot act first count op = withSegs s (withSegment s ctx slot
      (withDrain { act := act, first := first, count := count, started := false, op := op, taken := s.time })) :=
  updSeg_sameBlocks fun x => startDrain_blocks { x with drains := x.drains ++ [_] }

end

/-! ### Commands -/

section
variable {s0 s : State} {t : Mc} {p : Fin 16} {cmd : Nat} {e : List Byte} {rest : List (List Byte)}

/-- The front entry `e` of partition `p`'s admin queue is the segment command `cmd` of a context of the partition, of which no operation is
in progress. -/
structure SegEntry (s : State) (p : Fin 16) (cmd : Nat) (e : List Byte) (rest : List (List Byte)) : Prop where
  entry : AdminEntry s p cmd e rest
  own   : ownsCtx s p.val (opCtx e) = true
  free  : ctxBusy s p.val (opCtx e) = false

/-- A segment command whose checks pass. -/
theorem withAdmin_segment {checks : State → List Byte → List (Nat × Nat)} {act : State → List Byte → State} (now : atTime s0 t = s)
    (front : SegEntry s p cmd e rest) (passed : checks (taken s p) e = []) :
    withAdmin t p cmd s0 namesCtx checks act = answer s0 (act (taken s p) e) := by
  subst now
  exact withAdminBy_acts (names := namesCtx) front.entry front.free (worstFailure_none passed)

/-- The machine once the command `e` has become operation `o`, which waits for a drain of its segment. -/
def drainedBy (s : State) (p : Fin 16) (o : AdminOp) (act : DrainAct) (first count : Nat) : State :=
  withSegs (addOp (taken s p) o) (withSegment s o.ctx o.slot
    (withDrain { act := act, first := first, count := count, started := false, op := some o.id, taken := s.time }))

theorem acceptDrain_taken (o : AdminOp) (act : DrainAct) (first count : Nat) :
    acceptDrain (addOp (taken s p) o) o.ctx o.slot act first count (some o.id) = drainedBy s p o act first count := acceptDrain_eq ..

/-- The operation that a segment command becomes. -/
theorem newOp_eq (ctx slot first count mode : Nat) (left : List Nat) : newOp s p.val e ctx slot first count mode left =
    { id := s.q.nextOp, part := p.val, tag := fieldAt e 4 4, irq := decide (fieldAt e 1 1 / 2 % 2 = 1), cmd := fieldAt e 8 2, ctx := ctx
      slot := slot, first := first, count := count, mode := mode, left := left, status := 0, detail := 0 } := rfl

theorem answer_drainedBy {s0 : State} (shell : Shell s0 s) (o : AdminOp) (act : DrainAct) (first count : Nat) :
    answer s0 (drainedBy s p o act first count) = .next { s with
      q := { s.q with sqs := popAdmin s.q.sqs p.val, nextOp := s.q.nextOp + 1, ops := s.q.ops ++ [o] }
      seg := { s.seg with segs := withSegment s o.ctx o.slot fun x => startDrain { x with drains := x.drains ++
        [{ act := act, first := first, count := count, started := false, op := some o.id, taken := s.time }] } } } :=
  Shell.answer (u := drainedBy s p o act first count) ⟨shell.pending, shell.fuses, shell.flash⟩

theorem segLen_found {ctx slot : Nat} {g : Segment} (found : getSeg s ctx slot = some g) : segLen s ctx slot = segBlocks g.cfg := by
  rw [segLen, found, Option.map_some, Option.getD_some]

variable {g : Segment} (now : atTime s0 t = s)
include now

theorem execSegmentCreate_creates (front : SegEntry s p 0x0020 e rest) (formed : segReserved (e.drop 16) = false)
    (named : (parseSeg (e.drop 16)).ctx = opCtx e) (empty : getSeg s (opCtx e) (parseSeg (e.drop 16)).index = none)
    (passed : segFails (segEnv s (opCtx e)) (s.seg.segs.map (·.cfg)) s.cfg.halves (parseSeg (e.drop 16)) = []) :
    execSegmentCreate t p s0 = answer s0 (withRecords
      (withSegs (taken s p) (s.seg.segs ++ [newSegment (parseSeg (e.drop 16)) false])) [adminAnswer s.time p.val e stOk 0 0]) := by
  refine (withAdmin_segment now front ?_).trans ?_
  · have own : ownsCtx (taken s p) p.val (opCtx e) = true := front.own
    have empty' : getSeg (taken s p) (opCtx e) (parseSeg (e.drop 16)).index = none := empty
    simp only [formed, named, own, empty', failIf, Bool.not_true, Option.isSome_none, Bool.false_eq_true, if_false, List.nil_append]
    exact passed
  · rw [finishAdmin_eq]
    rfl

theorem execSegmentDestroy_drains (front : SegEntry s p 0x0021 e rest) (zero : opBytes e 18 63 = false)
    (found : getSeg s (opCtx e) (opSlot e) = some g) (plain : isStaging s (opCtx e) (opSlot e) = false) :
    execSegmentDestroy t p s0 = answer s0
      (drainedBy s p (newOp s p.val e (opCtx e) (opSlot e) 0 0 0 []) .destroy 0 (segBlocks g.cfg)) := by
  refine (withAdmin_segment now front ?_).trans ?_
  · have own : ownsCtx (taken s p) p.val (opCtx e) = true := front.own
    have here : getSeg (taken s p) (opCtx e) (opSlot e) = some g := found
    have plain' : isStaging (taken s p) (opCtx e) (opSlot e) = false := plain
    simp [zero, own, here, plain', failIf]
  · rw [← segLen_found found, ← acceptDrain_taken]
    rfl

end

section
variable {s0 s : State} {t : Mc} {p : Fin 16} {e : List Byte} {rest : List (List Byte)} {g : Segment}

/-- An INVALIDATE names `g`'s units `fieldAt e 20 4` to `fieldAt e 20 4 + fieldAt e 24 4 - 1`, and no reserved byte is set. -/
structure NamesUnits (s : State) (e : List Byte) (g : Segment) : Prop where
  low    : opBytes e 19 19 = false
  high   : opBytes e 28 63 = false
  found  : getSeg s (opCtx e) (opSlot e) = some g
  sized  : fieldAt e 24 4 ≠ 0
  inside : fieldAt e 20 4 + fieldAt e 24 4 ≤ segBlocks g.cfg

theorem opRange_sized (sized : fieldAt e 24 4 ≠ 0) : opRange s e = (fieldAt e 20 4, fieldAt e 24 4) := if_neg (by simpa using sized)

theorem rangeHeld_found (units : NamesUnits s e g) : rangeHeld s e = g.holds.contains (fieldAt e 20 4, fieldAt e 24 4) := by
  rw [rangeHeld, units.found, opRange_sized units.sized, Option.map_some, Option.getD_some]

/-- The checks of an INVALIDATE of these units in a mode that its range allows. -/
theorem invalidateChecks_pass (units : NamesUnits s e g) (own : ownsCtx s p.val (opCtx e) = true) (mode : fieldAt e 18 1 ≤ 2)
    (held : fieldAt e 18 1 = 2 → (fieldAt e 20 4, fieldAt e 24 4) ∈ g.holds) :
    failIf (opBytes e 19 19 || opBytes e 28 63) stBadProgram dtReserved ++ failIf (!ownsCtx s p.val (opCtx e)) stRights dtNotOwned ++
      failIf (fieldAt e 18 1 > 2 || (getSeg s (opCtx e) (opSlot e)).isNone ||
        (opRange s e).1 + (opRange s e).2 > segLen s (opCtx e) (opSlot e) ||
        (fieldAt e 18 1 == 2 && !rangeHeld s e)) stBadProgram 0x4019 = [] := by
  have covered : (fieldAt e 18 1 == 2 && !g.holds.contains (fieldAt e 20 4, fieldAt e 24 4)) = false := by
    by_cases release : fieldAt e 18 1 = 2
    · simp [held release]
    · simp [release]
  rw [rangeHeld_found units, covered, opRange_sized units.sized, segLen_found units.found, units.low, units.high, own, units.found,
    decide_eq_false (Nat.not_lt.2 mode), decide_eq_false (Nat.not_lt.2 units.inside)]
  rfl

variable (now : atTime s0 t = s)
include now

/-- DRAIN and HOLD. -/
theorem execInvalidate_drains (front : SegEntry s p 0x0022 e rest) (units : NamesUnits s e g) (mode : fieldAt e 18 1 < 2) :
    execInvalidate t p s0 = answer s0 (drainedBy s p
      (newOp s p.val e (opCtx e) (opSlot e) (fieldAt e 20 4) (fieldAt e 24 4) (fieldAt e 18 1) [])
      (.invalidate (fieldAt e 18 1 == 1)) (fieldAt e 20 4) (fieldAt e 24 4)) := by
  have units' : NamesUnits (taken s p) e g := ⟨units.low, units.high, units.found, units.sized, units.inside⟩
  have drain : (fieldAt e 18 1 == 2) = false := by simp [Nat.ne_of_lt mode]
  refine (withAdmin_segment now front (invalidateChecks_pass units' front.own mode.le fun release => absurd mode (by omega))).trans ?_
  rw [← acceptDrain_taken]
  dsimp only
  rw [drain, if_neg Bool.false_ne_true, opRange_sized units.sized]
  rfl

/-- RELEASE, with nothing that waits for the range outside the haulers. -/
theorem execInvalidate_releases (front : SegEntry s p 0x0022 e rest) (units : NamesUnits s e g) (mode : fieldAt e 18 1 = 2)
    (held : (fieldAt e 20 4, fieldAt e 24 4) ∈ g.holds) (quiet : NothingHeld s) :
    execInvalidate t p s0 = answer s0 (withRecords (withSegs (taken s p) (withSegment s (opCtx e) (opSlot e)
      fun x => { x with holds := x.holds.filter (· != (fieldAt e 20 4, fieldAt e 24 4)) })) [adminAnswer s.time p.val e stOk 0 0]) := by
  have units' : NamesUnits (taken s p) e g := ⟨units.low, units.high, units.found, units.sized, units.inside⟩
  have release : (fieldAt e 18 1 == 2) = true := by simp [mode]
  have freed := updSeg_sameBlocks (s := taken s p) (ctx := opCtx e) (slot := opSlot e)
    (f := fun x => { x with holds := x.holds.filter (· != (fieldAt e 20 4, fieldAt e 24 4)) }) fun _ => rfl
  refine (withAdmin_segment now front (invalidateChecks_pass units' front.own mode.le fun _ => held)).trans ?_
  dsimp only
  rw [release, if_pos rfl, opRange_sized units.sized, freed, finishAdmin_eq, retryHeld_nothingHeld]
  · rfl
  · exact nothingHeld_congr quiet rfl rfl rfl

end

/-- The first operand bytes of SEGMENT_CREATE. -/
theorem parseSeg_operands (e : List Byte) : (parseSeg (e.drop 16)).ctx = fieldAt e 16 1 ∧ (parseSeg (e.drop 16)).index = fieldAt e 17 1 ∧
    (parseSeg (e.drop 16)).start = fieldAt e 24 8 ∧ (parseSeg (e.drop 16)).length = fieldAt e 32 8 ∧
    (parseSeg (e.drop 16)).backing = fieldAt e 40 8 := by
  simp [parseSeg, fieldAt, List.drop_drop]

/-- Settles O42: each command passes its checks; SEGMENT_CREATE adds its segment, and the others change the segment of their slot. -/
theorem segmentCommandsCreateAndDrain : Obligations.SegmentCommandsCreateAndDrain := by
  unfold Obligations.SegmentCommandsCreateAndDrain
  intro s0 t p e rest g s ctx slot range zero entry q done drained c
  have shell : Shell s0 s := atTime_shell s0 t
  have now : atTime s0 t = s := rfl
  clear_value s
  have front {cmd : Nat} (at' : entry cmd) : SegEntry s p cmd e rest :=
    let ⟨here, own, free⟩ := at'
    ⟨here, own, free⟩
  refine ⟨fun at' formed empty passed => ?_, fun at' clear found plain => ?_, fun at' low high found sized inside => ?_⟩
  · obtain ⟨named, index, start, length, backing⟩ := parseSeg_operands e
    refine ⟨named, index, start, length, backing, ?_⟩
    exact (execSegmentCreate_creates now (front at') formed named (index.symm ▸ empty) passed).trans
      (Shell.answer ⟨shell.pending, shell.fuses, shell.flash⟩)
  · refine (execSegmentDestroy_drains now (front at') (opBytes_clear clear) found plain).trans ?_
    rw [answer_drainedBy shell, newOp_eq]
    rfl
  · have units : NamesUnits s e g := ⟨opBytes_clear low, opBytes_clear high, found, sized, inside⟩
    refine ⟨fun mode => ?_, fun mode held quiet => ?_⟩
    · refine (execInvalidate_drains now (front at') units mode).trans ?_
      rw [answer_drainedBy shell, newOp_eq]
      rfl
    · exact (execInvalidate_releases now (front at') units mode held quiet).trans
        (Shell.answer ⟨shell.pending, shell.fuses, shell.flash⟩)

end Sys2Proof.Machine
end

section
/-! SEGMENT_DRAIN_COMPLETE (R332, R336, R349, R350): the front drain applies once the billets of the epoch before it are done. -/

namespace Sys2Proof.Machine

/-! ### An operation that ends (R302) -/

section
variable {s : State} {ctx slot : Nat} {g : Segment} {d : SegDrain} {o : AdminOp}

/-- The machine once the operation `o` has ended with its record. -/
def opEnded (s : State) (o : AdminOp) (status detail : Nat) : State := { s with
  q := { s.q with ops := s.q.ops.filter (·.id != o.id), records := joinRecords s.q.records [opAnswer s.time o status detail] } }

theorem finishOp_eq (admin : o.part < 16) (status detail : Nat) : finishOp s o status detail = opEnded s o status detail := by
  unfold finishOp adminRecord entryRecord
  rw [readyRecord_now rfl]
  simp only [cqOf, if_pos admin]
  rfl

/-! ### Changes of a slot's segment one after the other -/

theorem getSeg_named (found : getSeg s ctx slot = some g) : g.cfg.ctx = ctx ∧ g.cfg.index = slot := by
  simpa using List.find?_some found

theorem withSegment_twice {f h : Segment → Segment} (keeps : ∀ x, (f x).cfg = x.cfg) :
    withSegment (withSegs s (withSegment s ctx slot f)) ctx slot h = withSegment s ctx slot fun x => h (f x) := by
  simp only [withSegment, withSegs, List.map_map]
  refine List.map_congr_left fun x _ => ?_
  by_cases named : (x.cfg.ctx == ctx && x.cfg.index == slot) = true
  · simp only [Function.comp_apply, named, if_true, keeps]
  · simp only [Function.comp_apply, if_neg named]

/-- A segment that a drain has left. -/
def nextDrain (g : Segment) : Segment := startDrain { g with drains := g.drains.drop 1 }

theorem nextDrain_cfg (g : Segment) : (nextDrain g).cfg = g.cfg := startDrain_cfg _

theorem nextDrain_holds (g : Segment) : (nextDrain g).holds = g.holds := by
  unfold nextDrain startDrain
  split
  · split <;> rfl
  · rfl

theorem popDrain_eq : popDrain s ctx slot = withSegs s (withSegment s ctx slot nextDrain) :=
  updSeg_sameBlocks fun x => startDrain_blocks { x with drains := x.drains.drop 1 }

/-! ### What a quiet drain applies -/

/-- A segment that a drain of its units has left, which are held when the drain asked so. -/
def invalidated (hold : Bool) (d : SegDrain) (x : Segment) : Segment :=
  if hold then { nextDrain x with holds := x.holds ++ [(d.first, d.count)] } else nextDrain x

/-- The segments once an INVALIDATE's drain has left the segment of the slot. -/
theorem popDrain_invalidated (hold : Bool) (d : SegDrain) :
    (if hold then updSeg (popDrain s ctx slot) ctx slot fun x => { x with holds := x.holds ++ [(d.first, d.count)] }
      else popDrain s ctx slot) = withSegs s (withSegment s ctx slot (invalidated hold d)) := by
  cases hold with
  | false => exact popDrain_eq
  | true =>
    have held := updSeg_sameBlocks (s := withSegs s (withSegment s ctx slot nextDrain)) (ctx := ctx) (slot := slot)
      (f := fun x => { x with holds := x.holds ++ [(d.first, d.count)] }) fun _ => rfl
    rw [if_pos rfl, popDrain_eq, held, withSegment_twice nextDrain_cfg]
    simp only [nextDrain_holds]
    rfl

theorem applyDrain_invalidate {hold : Bool} (found : getSeg s ctx slot = some g) (act : d.act = .invalidate hold) (op : d.op = some o.id)
    (under : getOp s o.id = some o) (admin : o.part < 16) :
    applyDrain s g d = opEnded (withSegs s (withSegment s ctx slot (invalidated hold d))) o 0 0 := by
  obtain ⟨rfl, rfl⟩ := getSeg_named found
  have under' : getOp (withSegs s (withSegment s g.cfg.ctx g.cfg.index (invalidated hold d))) o.id = some o := under
  simp only [applyDrain, act, op, Option.bind_some, popDrain_invalidated, under']
  exact finishOp_eq admin 0 0

/-- No fault of the segment is outstanding, and no request waits for one. -/
structure NoWaiter (s : State) (ctx slot : Nat) : Prop where
  faults : ∀ f ∈ s.seg.faults, ¬ (f.ctx = ctx ∧ f.slot = slot)
  reqs   : ∀ r ∈ s.run.reqs, r.ctx = ctx → ∀ b, r.wait ≠ some (.absent slot b)

theorem endWaiters_none (none : NoWaiter s ctx slot) (status : Nat) : endWaiters s ctx slot Option.none status = s := by
  have faults {p : Outstanding → Bool} (named : ∀ f, p f = true → f.ctx = ctx ∧ f.slot = slot) : s.seg.faults.filter p = [] :=
    List.filter_eq_nil_iff.2 fun f hf at' => none.faults f hf (named f at')
  have reqs {p : Request → Bool} (named : ∀ r, p r = true → r.ctx = ctx ∧ ∃ b, r.wait = some (.absent slot b)) :
      s.run.reqs.filter p = [] :=
    List.filter_eq_nil_iff.2 fun r hr at' => by
      obtain ⟨own, b, waits⟩ := named r at'
      exact none.reqs r hr own b waits
  unfold endWaiters
  dsimp only
  rw [faults fun f at' => by simpa using at', reqs]
  · rfl
  · intro r at'
    simp only [Bool.and_eq_true, beq_iff_eq] at at'
    obtain ⟨⟨own, -⟩, waits⟩ := at'
    refine ⟨own, ?_⟩
    split at waits
    · rename_i sl k wait
      simp only [BEq.rfl, Bool.true_or, Bool.and_true, beq_iff_eq] at waits
      exact ⟨k, waits ▸ wait⟩
    · exact absurd waits Bool.false_ne_true

/-- The segments without the one of a slot. -/
def withoutSegment (l : List Segment) (ctx slot : Nat) : List Segment := l.filter fun g => !(g.cfg.ctx == ctx && g.cfg.index == slot)

/-- The hot entries of both halves without those of a segment. -/
def coolHot (h : Both (List HotEntry)) (ctx slot : Nat) : Both (List HotEntry) :=
  ⟨h.east.filter fun x => !(x.ctx == ctx && x.seg == slot), h.west.filter fun x => !(x.ctx == ctx && x.seg == slot)⟩

/-- The machine without the segment of a slot. -/
def withoutSlot (s : State) (ctx slot : Nat) : State := { s with
  seg := { s.seg with segs := withoutSegment s.seg.segs ctx slot, hot := coolHot s.seg.hot ctx slot } }

theorem destroySegment_eq (none : NoWaiter s ctx slot) : destroySegment s ctx slot = withoutSlot s ctx slot := by
  have faults : s.seg.faults.filter (fun f => !(f.ctx == ctx && f.slot == slot)) = s.seg.faults :=
    List.filter_eq_self.2 fun f hf => by simpa [imp_iff_not_or] using none.faults f hf
  simp only [destroySegment, endWaiters_none none, faults]
  rfl

theorem applyDrain_destroy (found : getSeg s ctx slot = some g) (act : d.act = .destroy) (op : d.op = some o.id)
    (under : getOp s o.id = some o) (admin : o.part < 16) (none : NoWaiter s ctx slot) :
    applyDrain s g d = opEnded (withoutSlot (withSegs s (withSegment s ctx slot nextDrain)) ctx slot) o 0 0 := by
  obtain ⟨rfl, rfl⟩ := getSeg_named found
  have none' : NoWaiter (withSegs s (withSegment s g.cfg.ctx g.cfg.index nextDrain)) g.cfg.ctx g.cfg.index := ⟨none.faults, none.reqs⟩
  have under' : getOp (withoutSlot (withSegs s (withSegment s g.cfg.ctx g.cfg.index nextDrain)) g.cfg.ctx g.cfg.index) o.id = some o := under
  simp only [applyDrain, act, op, Option.bind_some, popDrain_eq, destroySegment_eq none', under']
  exact finishOp_eq admin 0 0

/-- The segment that was removed is no longer found. -/
theorem find?_withoutSegment_same (l : List Segment) :
    (withoutSegment l ctx slot).find? (fun x => x.cfg.ctx == ctx && x.cfg.index == slot) = none :=
  List.find?_eq_none.2 fun x hx => by simpa [imp_iff_not_or] using (List.mem_filter.1 hx).2

/-- A filter that lets what is looked for through. -/
theorem find?_filter_of_implied {α : Type} {p q : α → Bool} {l : List α} (implied : ∀ x, q x = true → p x = true) :
    (l.filter p).find? q = l.find? q := by
  rw [List.find?_filter]
  refine congrArg (List.find? · l) (funext fun x => ?_)
  cases at' : q x with
  | false => simp
  | true => simp [implied x at']

/-- Every other slot is as it was before the segment changed and was removed. -/
theorem find?_withoutSegment_other {f : Segment → Segment} (keeps : ∀ x, (f x).cfg = x.cfg) {c i : Nat} (other : (c, i) ≠ (ctx, slot)) :
    (withoutSegment (withSegment s ctx slot f) ctx slot).find? (fun x => x.cfg.ctx == c && x.cfg.index == i) = getSeg s c i := by
  have away (x : Segment) (there : (x.cfg.ctx == c && x.cfg.index == i) = true) : (x.cfg.ctx == ctx && x.cfg.index == slot) = false := by
    simp only [Bool.and_eq_true, beq_iff_eq] at there
    obtain ⟨rfl, rfl⟩ := there
    simpa [Bool.eq_false_iff] using other
  have same (x : Segment) : ((if x.cfg.ctx == ctx && x.cfg.index == slot then f x else x).cfg.ctx == c &&
      (if x.cfg.ctx == ctx && x.cfg.index == slot then f x else x).cfg.index == i) = (x.cfg.ctx == c && x.cfg.index == i) := by
    split <;> simp [keeps]
  rw [withoutSegment, find?_filter_of_implied fun x there => by simp [away x there], withSegment, find?_map_of_keeps same, getSeg]
  cases found : s.seg.segs.find? fun x => x.cfg.ctx == c && x.cfg.index == i with
  | none => rfl
  | some x =>
    have there : (x.cfg.ctx == c && x.cfg.index == i) = true := List.find?_some (p := fun x : Segment => x.cfg.ctx == c && x.cfg.index == i) found
    simp only [Option.map_some, away x there, Bool.false_eq_true, if_false]

end

/-! ### The command -/

section
variable {s0 s : State} {t : Mc} {ctx : Fin 256} {slot : Fin 16} {g : Segment} {d : SegDrain} {ds : List SegDrain}

/-- SEGMENT_DRAIN_COMPLETE of a segment with a drain. -/
theorem execSegmentDrainComplete_eq (now : whenReady s0 (drainFrom s0 ctx.val slot.val t) (quietNow ctx.val slot.val) = s)
    (found : getSeg s ctx.val slot.val = some g) (front : g.drains = d :: ds) (run : running s = true) :
    execSegmentDrainComplete t ctx slot s0 = answer s0 (if drainQuiet s g d then retryHeld (applyDrain s g d) else s) := by
  unfold execSegmentDrainComplete
  simp only [now, found, front, run, Bool.true_and]
  split <;> rfl

theorem drainQuiet_eq_true : drainQuiet s g d = true ↔ d.started = true ∧ inflightOf s g (!g.epoch) = 0 := by
  simp [drainQuiet]

end

/-- Settles O43: a drain that is not quiet does nothing, and a quiet one leaves its segment and ends its operation. -/
theorem drainsApplyWhenQuiet : Obligations.DrainsApplyWhenQuiet := by
  unfold Obligations.DrainsApplyWhenQuiet
  intro s0 t ctx slot g d ds o from' s run found front ended next
  have now : whenReady s0 (drainFrom s0 ctx.val slot.val t) (quietNow ctx.val slot.val) = s := rfl
  have shell : Shell s0 s := whenReady_shell ..
  have does := execSegmentDrainComplete_eq now found front run
  clear_value s
  refine ⟨fun busy => ?_, fun started quiet held op under admin => ⟨fun hold act => ?_, fun act faults reqs => ?_⟩⟩
  · have idle : drainQuiet s g d = false := Bool.eq_false_iff.2 fun at' => by
      obtain ⟨started, quiet⟩ := drainQuiet_eq_true.1 at'
      exact busy.elim (by simp [started]) (absurd quiet)
    rw [idle, if_neg Bool.false_ne_true] at does
    exact does.trans shell.answer
  · rw [drainQuiet_eq_true.2 ⟨started, quiet⟩, if_pos rfl, applyDrain_invalidate found act op under admin, retryHeld_nothingHeld] at does
    · exact does.trans (Shell.answer (u := opEnded ..) ⟨shell.pending, shell.fuses, shell.flash⟩)
    · exact nothingHeld_congr held rfl rfl rfl
  · have none : NoWaiter s ctx.val slot.val := ⟨faults, reqs⟩
    rw [drainQuiet_eq_true.2 ⟨started, quiet⟩, if_pos rfl, applyDrain_destroy found act op under admin none, retryHeld_nothingHeld] at does
    · exact ⟨_, does.trans (Shell.answer (u := opEnded ..) ⟨shell.pending, shell.fuses, shell.flash⟩), find?_withoutSegment_same _,
        fun c i other => find?_withoutSegment_other nextDrain_cfg other, rfl⟩
    · exact nothingHeld_congr held rfl rfl rfl

end Sys2Proof.Machine
end

section
/-! O44 fails where two segments stand in one slot: PROMOTION_COPY_DONE changes block `b` of each as that segment holds it, and the
statement gives both the block of the one that the slot names. -/

namespace Sys2Proof.Machine

/-! ### A copy that ends (R340) -/

section
variable {s0 s : State} {t : Mc} {ctx : Fin 256} {slot : Fin 16} {g : Segment} {b f : Nat}

/-- With no half in half reset every address answers. -/
theorem unreachable_noReset (whole : s.halfReset = ⟨false, false⟩) (a : Nat) : unreachable s a = false := by
  unfold unreachable
  rw [whole]
  cases homeOfAddr s a with
  | none => rfl
  | some h => cases h <;> rfl

/-- A copy of good lines moves the bytes alone. -/
theorem copyBlock_clean {src dst : Nat} (whole : s.halfReset = ⟨false, false⟩) (clean : Clean (memReadS s.mem src blockSize)) :
    copyBlock s g b src dst = { s with mem := memWrite s.mem dst (memReadS s.mem src blockSize) } := by
  simp only [copyBlock, readLocal, writeLocal, spoiledLines, unreachable_noReset whole, spoiledPieces_clean clean, Bool.false_eq_true, if_false,
    bne_self_eq_false]

/-- With no operation in progress none waits for a block's move. -/
theorem afterMove_idle {u : State} (idle : u.q.ops = []) {ctx slot : Nat} : afterMove u ctx slot b = u := by
  simp [afterMove, waitingOp, idle]

/-- A promotion's copy has ended: every segment of the slot has its block `b` in frame `f`. -/
theorem execPromotionCopyDone_in (now : whenReady s0 t (fun x => !otherOpen x (.copy ctx.val slot.val b)) = s) (run : running s = true)
    (found : getSeg s ctx.val slot.val = some g) (moving : (blockOf g b).st = .movingIn f) (idle : s.q.ops = [])
    (whole : s.halfReset = ⟨false, false⟩) (quiet : NothingHeld s) (clean : Clean (memReadS s.mem (hostSide g b) blockSize)) :
    execPromotionCopyDone t ctx slot b s0 = answer s0
      (putBlock { s with mem := memWrite s.mem (frameSide g f) (memReadS s.mem (hostSide g b) blockSize) } ctx.val slot.val b
        fun x => { x with st := .inFrame f, written := false }) := by
  unfold execPromotionCopyDone
  simp only [now, found, run, moving, idle, copyBlock_clean whole clean, List.find?_nil, Option.map_none, Option.bind_none, Bool.not_true,
    Bool.false_eq_true, if_false]
  rw [afterMove_idle, retryHeld_nothingHeld]
  · exact nothingHeld_congr quiet rfl rfl rfl
  · exact idle

end

/-! ### Two segments in one slot -/

/-- A migratable segment of one block, backed by host memory, with one frame. -/
def oneBlock : SegCfg := { stockSegment with kind := .migratable, length := 0x20_0000, backing := 0x8000_0000_0000, frames := 1 }

/-- The segment while its block moves into its frame. -/
def movingBlock (readMostly : Bool) : Segment := { newSegment oneBlock true with
  blocks := [{ num := 0, st := .movingIn 0, written := false, readMostly := readMostly, preferDevice := false, was := none }] }

/-- A machine in Run with two such segments in slot 0 of context 0, whose blocks differ in a mark. -/
def twoInSlot : State :=
  { State.reset with
    power := { PowerSt.reset with cold := false, up := true }
    seg := { Segs.reset with segs := [movingBlock false, movingBlock true] } }

/-- The mark READ_MOSTLY of block 0 of each segment, in the next state. -/
def readMostlyAfter : Result → List Bool
  | .next u => u.seg.segs.map fun g => (blockOf g 0).readMostly
  | _ => []

theorem clean_twoInSlot (a n : Nat) : Clean (memReadS twoInSlot.mem a n) := by
  have unmarked (l : Nat) : memMark twoInSlot.mem l = false := by
    simp [memMark, twoInSlot, State.reset, sparseRead, sparseFill, markDefault]
  intro x hx
  obtain ⟨p, -, hx⟩ := List.mem_flatMap.1 hx
  obtain ⟨y, -, rfl⟩ := List.mem_map.1 hx
  exact unmarked (p.1 / 256)

theorem nothingHeld_twoInSlot : NothingHeld twoInSlot :=
  ⟨rfl, fun _ none => absurd none List.not_mem_nil, fun _ none => absurd none List.not_mem_nil⟩

theorem whenReady_twoInSlot : whenReady twoInSlot 0 (fun x => !otherOpen x (.copy 0 0 0)) = twoInSlot :=
  whenReady_past (Nat.zero_le _) (.inl rfl)

/-- The copy's end leaves each block its own mark. -/
theorem readMostlyAfter_twoInSlot : readMostlyAfter (exec (.promotionCopyDone 0 0 0 0) twoInSlot) = [false, true] := by
  have done := execPromotionCopyDone_in (s0 := twoInSlot) (t := 0) (ctx := 0) (slot := 0) (b := 0) (f := 0) (g := movingBlock false)
    whenReady_twoInSlot (by decide +kernel) rfl rfl rfl rfl nothingHeld_twoInSlot (clean_twoInSlot _ _)
  rw [show exec (.promotionCopyDone 0 0 0 0) twoInSlot = _ from done]
  decide +kernel

/-- Refutes O44: of the two segments of `twoInSlot` the statement's second one takes the mark of the first. No command puts two segments
into one slot (R330), but the clauses on copies are of every state. -/
theorem not_faultsResolveAndBlocksMove : ¬ Obligations.FaultsResolveAndBlocksMove := by
  intro holds
  obtain ⟨-, copies⟩ := holds
  have clauses := copies twoInSlot 0 (movingBlock false) 0 0 0
  rw [show whenReady twoInSlot 0 (fun x => !otherOpen x (.copy (0 : Fin 256).val (0 : Fin 16).val 0)) = twoInSlot from whenReady_twoInSlot] at clauses
  obtain ⟨moves, -⟩ := clauses (by decide +kernel) rfl rfl nothingHeld_twoInSlot rfl rfl
  have unmarked (a n : Nat) : (memReadS twoInSlot.mem a n).any Prod.snd = false := anyMark_clean (clean_twoInSlot a n)
  have marks := readMostlyAfter_twoInSlot
  rw [moves 0 rfl (unmarked _ _)] at marks
  exact absurd marks (by decide +kernel)

end Sys2Proof.Machine
end

section
/-! O45 fails in a LEDGERED context whose ledger queue is not enabled: a request that a fault's timeout ends closes its open entry, the entry
is held, and the request parks (R425). Its parking record is written though no completion queue is full, the one case that the statement
leaves out. -/

namespace Sys2Proof.Machine

/-- A recorded fault at block 0 of slot 0 of context 0, whose timeout of 1 ns ends with mc 3; request 0 waits for it. -/
def timedOut : Outstanding :=
  { ctx := 0, slot := 0, block := 0, recorded := true, written := true, flags := 0, value := 0, created := 0, waiters := [0], extra := 0 }

/-- A partition whose faults time out after 1 ns. -/
def briefPart : PartCfg :=
  { homePort := .east, adminSqBase := 0, adminCqBase := 0, compat := false, batchWindow := 1, resTimeout := 1, hotThreshold := 0
    adminVector := 0 }

/-- A machine in Run at mc 3 whose marked request waits on its hauler for the fault (R76), with a free parking record for it; no ledger queue
is enabled. -/
def faultWaiter : State :=
  { State.reset with
    time := 3
    power := { PowerSt.reset with cold := false, up := true }
    cfg := { Settings.none with
      parts := [briefPart]
      ctxs := [ledgeredCtx], staging := [{ ctx := 0, half := .east, parking := 1, offset := 0, length := 1024, segment := 0 }] }
    ctxs := [CtxState.start ledgeredCtx]
    seg := { Segs.reset with faults := [timedOut] }
    run := { State.reset.run with reqs := [{ markedRequest with wait := some (.absent 0 0), stays := true }] } }

theorem bankWritesAfter_timeout_faultWaiter : 0 < bankWritesAfter (exec (.faultResolutionTimeout 0 0 0 0) faultWaiter) := by decide +kernel

/-- Refutes O45: the fault's timeout parks the request of `faultWaiter`, which writes its parking record. -/
theorem not_faultBatchesCloseAndFaultsTimeOut : ¬ Obligations.FaultBatchesCloseAndFaultsTimeOut := by
  intro holds
  obtain ⟨-, timeouts⟩ := holds
  have now : atTime faultWaiter (max 0 (timedOut.created + mcOf briefPart.resTimeout)) = faultWaiter := atTime_past (by decide)
  have clauses := timeouts faultWaiter 0 briefPart 0 0 0 timedOut
  rw [now] at clauses
  obtain ⟨u, ends, -, -, -, -, mem⟩ := clauses (by decide +kernel) (by decide +kernel) (by decide +kernel) rfl (by decide)
    (by unfold OneRequestPerId; decide +kernel)
  have writes := bankWritesAfter_timeout_faultWaiter
  rw [ends, bankWritesAfter, mem fun _ => rfl] at writes
  exact absurd writes (by decide +kernel)

end Sys2Proof.Machine
end

section
/-! What the Hearth counts while time passes (table "Clocks", assumption 1), and the empty queue (assumption 2). -/

namespace Sys2Proof.Machine

theorem tickHearth_htime (p : PowerSt) (mc : Nat) : (tickHearth p mc).htime = p.htime + (p.hfrac + mc) / 21 := by
  unfold tickHearth
  cases p.entry <;> rfl

theorem tickHearth_hfrac (p : PowerSt) (mc : Nat) : (tickHearth p mc).hfrac = (p.hfrac + mc) % 21 := by
  unfold tickHearth
  cases p.entry <;> rfl

/-- Neither Glow nor a Banked entry changes the Hearth's count. -/
theorem powerPart_clock (p q : PowerSt) (mc : Nat) :
    (powerPart p q mc).htime = (tickHearth p mc).htime ∧ (powerPart p q mc).hfrac = (tickHearth p mc).hfrac := by
  unfold powerPart
  dsimp only
  split <;> exact ⟨rfl, rfl⟩

/-- The Hearth counts one HCLK for each 21 mc that pass. -/
theorem atTime_clock {s : State} (frac : s.power.hfrac < 21) (t : Mc) :
    (atTime s t).power.htime = s.power.htime + (s.power.hfrac + (t - s.time)) / 21 ∧
      (atTime s t).power.hfrac = (s.power.hfrac + (t - s.time)) % 21 := by
  rcases atTime_frame s t with ⟨past, same⟩ | ⟨-, x, rfl, ahead⟩
  · rw [same, Nat.sub_eq_zero_of_le past]
    omega
  · obtain ⟨htime, hfrac⟩ := powerPart_clock s.power x.power (x.time - s.time)
    rw [ahead]
    exact ⟨htime.trans (tickHearth_htime ..), hfrac.trans (tickHearth_hfrac ..)⟩

/-- Time that passes in two parts is the time that passes. -/
theorem elapsed_add {now t t' : Nat} (later : t ≤ t') : t' - now = (t - now) + (t' - max now t) := by omega

/-- Settles O2: an empty queue lets one mc pass, and the Hearth's count depends on the mc that have passed alone. -/
theorem timePassesAndTheHearthCountsIt : Obligations.TimePassesAndTheHearthCountsIt := by
  unfold Obligations.TimePassesAndTheHearthCountsIt
  refine ⟨fun s empty => ⟨idle s, by rw [step, empty], ?_, ?_, fun quiet => ?_⟩, fun s t frac => ?_⟩
  · exact (atTime_time s _).trans (Nat.max_eq_right (Nat.le_succ _))
  · rw [idle, atTime_ahead (Nat.lt_succ_self _)]
    rfl
  · rw [idle, atTime_quiet quiet (Nat.lt_succ_self _)]
    rfl
  · obtain ⟨htime, hfrac⟩ := atTime_clock frac t
    obtain ⟨_, _, _, _, _, _, _, _, power, entry, glow⟩ := atTime_power s t
    have less : (atTime s t).power.hfrac < 21 := by omega
    refine ⟨less, by omega, atTime_time s t, ⟨by rw [power], by rw [power, entry], by rw [power]; exact glow⟩, fun t' later => ?_⟩
    obtain ⟨htime', hfrac'⟩ := atTime_clock frac t'
    obtain ⟨htime2, hfrac2⟩ := atTime_clock less t'
    rw [elapsed_add later, ← atTime_time] at htime' hfrac'
    omega

end Sys2Proof.Machine
end

section
/-! Host additions (R367). -/

namespace Sys2Proof.Machine

section
variable {s0 s : State} {t : Mc} {p : Fin 16} {w : RegWrite}

/-- The partition's host-add discard count has risen by 1. -/
def addDiscarded (s : State) (p : Nat) : State :=
  { s with partRegs := s.partRegs.map fun r => if r.part == p then { r with addDiscards := min 0xFFFFFFFF (r.addDiscards + 1) } else r }

/-- FV_CTR_SEL of partition `p`'s page names a context, and an entry of its virtual counter table. -/
def addCtx (s : State) (p : Fin 16) : Nat := (getSel s (.part p)).ctr / 4096 % 256
def addTarget (s : State) (p : Fin 16) : VEntry := vEntry s (addCtx s p) ((getSel s (.part p)).ctr % 4096)

/-- The selected entry is LOCAL, its counter HOST and ACTIVE, and the amount of the write is not zero. -/
def addApplies (s : State) (p : Fin 16) (w : RegWrite) (c : Nat) (x : CtrSt) : Prop :=
  (∃ a b, addTarget s p = .loc c a b) ∧ getCtr s c = some x ∧ (∃ d, ctrCfg s c = some d ∧ d.host = true) ∧ x.abandoned = false ∧
    w.value.toNat % 2 ^ 32 ≠ 0

/-- The selection names no context of another partition. -/
def addOwn (s : State) (p : Fin 16) : Prop := (ctxCfg s (addCtx s p)).isSome = true → partOfCtx s (addCtx s p) = p.val

/-- What the addition of a page write does, in the terms of its page's selection. -/
theorem execHostAdd_reaches (at' : hostAt s0 t w.port = s) (reaches : PageWrite s p w) :
    execHostAdd t w s0 =
      if (ctxCfg s (addCtx s p)).isSome && partOfCtx s (addCtx s p) != p.val then answer s0 s
      else match addTarget s p with
        | .loc c _ _ =>
          (match getCtr s c, ctrCfg s c with
           | some x, some d =>
             if d.host && !x.abandoned && w.value.toNat % 2 ^ 32 != 0 then
               answer s0 (sendUpdate s c (w.value.toNat % 2 ^ 32) x.gen w.port (s.time + releaseDelay c w.port))
             else answer s0 (addDiscarded s p.val)
           | _, _ => answer s0 (addDiscarded s p.val))
        | _ => answer s0 (addDiscarded s p.val) := by
  have entry : bits (getSel s (.part p)).ctr 11 0 = (getSel s (.part p)).ctr % 4096 := congrArg (· % 4096) (Nat.div_one _)
  have lost : updPartRegs s p.val (fun x => { x with addDiscards := capAt 0xFFFFFFFF (x.addDiscards + 1) }) = addDiscarded s p.val := by
    simp only [updPartRegs, updWhere, capAt_eq_min, addDiscarded]
  unfold execHostAdd
  simp only [at', regOpen_plain_of_pageWrite reaches, pagePart_of_pageWrite reaches, regBits_low32, lost]
  simp only [reaches.page, entry]
  rfl

theorem execHostAdd_other (at' : hostAt s0 t w.port = s) (reaches : PageWrite s p w) (declared : (ctxCfg s (addCtx s p)).isSome = true)
    (other : partOfCtx s (addCtx s p) ≠ p.val) : execHostAdd t w s0 = answer s0 s := by
  rw [execHostAdd_reaches at' reaches]
  exact if_pos (by simp [declared, other])

theorem execHostAdd_applies {c : Nat} {x : CtrSt} (at' : hostAt s0 t w.port = s) (reaches : PageWrite s p w) (own : addOwn s p)
    (applies : addApplies s p w c x) :
    execHostAdd t w s0 = answer s0 (sendUpdate s c (w.value.toNat % 2 ^ 32) x.gen w.port (s.time + releaseDelay c w.port)) := by
  obtain ⟨⟨a, b, loc⟩, ctr, ⟨d, cfg, host⟩, active, some'⟩ := applies
  rw [execHostAdd_reaches at' reaches, if_neg (by simpa [addOwn] using own)]
  simp only [loc, ctr, cfg]
  exact if_pos (by simp only [host, active, bne_iff_ne.2 some', Bool.not_false, Bool.and_self])

theorem execHostAdd_discards (at' : hostAt s0 t w.port = s) (reaches : PageWrite s p w) (own : addOwn s p)
    (none : ¬ ∃ c x, addApplies s p w c x) : execHostAdd t w s0 = answer s0 (addDiscarded s p.val) := by
  rw [execHostAdd_reaches at' reaches, if_neg (by simpa [addOwn] using own)]
  split
  · rename_i c a b loc
    split
    · rename_i x d ctr cfg
      refine if_neg fun met => none ⟨c, x, ⟨a, b, loc⟩, ctr, ?_⟩
      simp only [Bool.and_eq_true, Bool.not_eq_true', bne_iff_ne] at met
      obtain ⟨⟨host, active⟩, some'⟩ := met
      exact ⟨⟨d, cfg, host⟩, active, some'⟩
    · rfl
  · rfl

end

/-- Settles O15: FV_CTR_ADD by what its page selects. -/
theorem hostAddAppliesOrIsCounted : Obligations.HostAddAppliesOrIsCounted := by
  unfold Obligations.HostAddAppliesOrIsCounted
  intro s0 t p w s reaches sel ctx n applies
  have same : answer s0 s = .next s := answer_hostAt_eq (t := t) (h := w.port) rfl rfl rfl
  refine ⟨fun declared other => (execHostAdd_other rfl reaches declared other).trans same, fun own => ⟨?_, ?_, fun none => ?_⟩⟩
  · intro c x met near
    have open' : (s.halfReset.get (homeOfCtr c) && homeOfCtr c != w.port) = false := by
      cases reset : s.halfReset.get (homeOfCtr c) with
      | false => rfl
      | true => simp [near reset]
    refine (execHostAdd_applies rfl reaches own met).trans ?_
    rw [sendUpdate, if_neg (Bool.eq_false_iff.1 open')]
    exact answer_hostAt_eq (t := t) (h := w.port) rfl rfl rfl
  · intro c x met reset far
    refine (execHostAdd_applies rfl reaches own met).trans ?_
    rw [sendUpdate, if_pos (by simp [far]; exact reset)]
    exact same
  · exact (execHostAdd_discards rfl reaches own none).trans (answer_hostAt_eq (t := t) (h := w.port) rfl rfl rfl)

end Sys2Proof.Machine
end

section
/-! The registers of stall reports (R379, R534). -/

namespace Sys2Proof.Machine

section
variable {s s0 : State} {t : Mc} {p : Nat} {w : RegWrite} {r : StallRegs}

theorem getStallRegs_found (found : s.ctr.stallRegs.find? (·.part == p) = some r) : getStallRegs s p = r := by
  rw [getStallRegs, found, Option.getD_some]

theorem getStallRegs_updStallRegs (f : StallRegs → StallRegs) (keeps : ∀ x, (f x).part = x.part)
    (found : s.ctr.stallRegs.find? (·.part == p) = some r) : getStallRegs (updStallRegs s p f) p = f r := by
  simp only [getStallRegs, updStallRegs, find?_updWhere_key keeps, found, Option.map_some, beq_self_eq_true, if_true, Option.getD_some]

theorem getStallRegs_updStallRegs_other (f : StallRegs → StallRegs) (keeps : ∀ x, (f x).part = x.part) {q : Nat} (other : q ≠ p) :
    getStallRegs (updStallRegs s p f) q = getStallRegs s q := by
  simp [getStallRegs, updStallRegs, find?_updWhere_key keeps, other]

/-- The elements of one key change once after the other. -/
theorem updWhere_updWhere {α : Type} {key : α → Nat} {f g : α → α} (keeps : ∀ x, key (f x) = key x) (k : Nat) (l : List α) :
    updWhere (fun x => key x == k) g (updWhere (fun x => key x == k) f l) = updWhere (fun x => key x == k) (fun x => g (f x)) l := by
  simp only [updWhere, List.map_map]
  refine List.map_congr_left fun x _ => ?_
  by_cases h : key x = k <;> simp [h, keeps]

theorem updStallRegs_updStallRegs {f g : StallRegs → StallRegs} (keeps : ∀ x, (f x).part = x.part) :
    updStallRegs (updStallRegs s p f) p g = updStallRegs s p fun x => g (f x) :=
  congrArg (fun l => { s with ctr := { s.ctr with stallRegs := l } }) (updWhere_updWhere (key := StallRegs.part) keeps p s.ctr.stallRegs)

/-- A partition's registers once a report is shown in mc `now`. -/
def reportShown (now : Mc) (x : StallReport) (r : StallRegs) : StallRegs :=
  { r with shown := x, pending := true, shownAt := some now, reports := min 0xFFFFFFFF (r.reports + 1) }

/-- The same once the oldest held report, with `rest` behind it, is the one shown. -/
def heldShown (now : Mc) (x : StallReport) (rest : List StallReport) (r : StallRegs) : StallRegs := reportShown now x { r with held := rest }

/-- A partition's registers with no report to read. -/
def pendingCleared (r : StallRegs) : StallRegs := { r with pending := false }

theorem showReport_eq (s : State) (p : Nat) (x : StallReport) :
    showReport s p x = sendMsix (updStallRegs s p (reportShown s.time x)) p (getFaultQ s p).vector := by
  simp only [showReport, capAt_eq_min]
  rfl

end

section
variable {s s0 : State} {t : Mc} {p : Fin 16} {w : RegWrite} {r : StallRegs}

/-- PENDING of a page write with bit 0 set, in the mc in which the mover has set it. -/
theorem execStallPending_stands (at' : hostAt s0 t w.port = s) (reaches : PageWrite s p w)
    (now : (getStallRegs s p.val).shownAt = some s.time) : execStallPending t w s0 = answer s0 s := by
  unfold execStallPending
  simp only [at', pagePart_of_pageWrite reaches, now, beq_self_eq_true, if_true, ite_self]

/-- A held report is shown in its turn, the first of them first. -/
theorem execStallPending_delivers {x : StallReport} {rest : List StallReport} (at' : hostAt s0 t w.port = s) (reaches : PageWrite s p w)
    (set : regBit w 0 = true) (past : (getStallRegs s p.val).shownAt ≠ some s.time) (held : (getStallRegs s p.val).held = x :: rest) :
    execStallPending t w s0 = answer s0 (sendMsix (updStallRegs s p.val (heldShown s.time x rest)) p.val
      (getFaultQ s p.val).vector) := by
  unfold execStallPending
  simp only [at', regOpen_plain_of_pageWrite reaches, set, pagePart_of_pageWrite reaches, beq_iff_eq, past, held, showReport_eq,
    Bool.not_true, Bool.or_self, Bool.false_eq_true, if_false]
  exact congrArg (fun u => answer s0 (sendMsix u p.val (getFaultQ s p.val).vector)) (updStallRegs_updStallRegs fun _ => rfl)

theorem execStallPending_clears (at' : hostAt s0 t w.port = s) (reaches : PageWrite s p w) (set : regBit w 0 = true)
    (past : (getStallRegs s p.val).shownAt ≠ some s.time) (held : (getStallRegs s p.val).held = []) :
    execStallPending t w s0 = answer s0 (updStallRegs s p.val pendingCleared) := by
  unfold execStallPending
  simp only [at', regOpen_plain_of_pageWrite reaches, set, pagePart_of_pageWrite reaches, beq_iff_eq, past, held,
    Bool.not_true, Bool.or_self, Bool.false_eq_true, if_false]
  rfl

end

/-- Settles O17: PENDING, by when it was last set and by what is held. -/
theorem pendingDeliversTheOldestHeldReport : Obligations.PendingDeliversTheOldestHeldReport := by
  unfold Obligations.PendingDeliversTheOldestHeldReport
  intro s0 t p w r s reaches odd found
  have set : regBit w 0 = true := by rw [regBit_zero, decide_eq_true odd]
  have regs := getStallRegs_found found
  refine ⟨fun now => ?_, fun past => ?_⟩
  · exact (execStallPending_stands rfl reaches (regs ▸ now)).trans (answer_hostAt_eq (t := t) (h := w.port) rfl rfl rfl)
  · cases held : r.held with
    | nil =>
      refine ⟨updStallRegs s p.val pendingCleared, ?_, ?_, rfl, fun q => getStallRegs_updStallRegs_other pendingCleared (fun _ => rfl), rfl⟩
      · exact (execStallPending_clears rfl reaches set (regs ▸ past) (regs ▸ held)).trans
          (answer_hostAt_eq (t := t) (h := w.port) rfl rfl rfl)
      · rw [getStallRegs_updStallRegs pendingCleared (fun _ => rfl) found, pendingCleared, held]
    | cons x rest =>
      refine ⟨sendMsix (updStallRegs s p.val (heldShown s.time x rest)) p.val (getFaultQ s p.val).vector, ?_, ?_, rfl,
        fun q => getStallRegs_updStallRegs_other (s := s) (heldShown s.time x rest) (fun _ => rfl), rfl⟩
      · exact (execStallPending_delivers rfl reaches set (regs ▸ past) (regs ▸ held)).trans
          (answer_hostAt_eq (t := t) (h := w.port) rfl rfl rfl)
      · exact getStallRegs_updStallRegs (s := s) (heldShown s.time x rest) (fun _ => rfl) found

end Sys2Proof.Machine
end

section
/-! One update on its way, with nothing else under way, reaches its counter's home (R362, R363, R369). -/

namespace Sys2Proof.Machine

/-! ### A machine in which one update alone is under way -/

section
variable {s : State} {x : Update}

/-- The machine without the updates that are under way. -/
def noUpdates (s : State) : State := { s with ctr.updates := [] }

/-- Nothing is under way but updates. -/
structure UpdatesOnly (s : State) : Prop where
  rest : StrsOnly (noUpdates s)
  strs : s.buf.strs = []

/-- Without its updates the machine has no next event. -/
theorem updatesOnly_of_nextEvent (quiet : nextEvent (noUpdates s) = none) : UpdatesOnly s := by
  have none : minBy id _ = none := Option.map_eq_none_iff.1 quiet
  have empty := congrArg (!·.isSome) none
  simp only [minBy_isSome, Bool.not_not, Option.isSome_none, Bool.not_false, List.isEmpty_iff, List.append_eq_nil_iff, portDues] at empty
  have strs : s.buf.strs = [] := by
    have dues := List.flatMap_eq_nil_iff.1 empty.1.1.1.1.1.2.2
    exact List.eq_nil_iff_forall_not_mem.2 fun x hx => List.cons_ne_nil _ _ (dues x hx)
  refine ⟨strsOnly_of_nextEvent ?_, strs⟩
  rw [← quiet]
  exact congrArg (fun l => nextEvent { noUpdates s with buf := { s.buf with strs := l } }) strs.symm

theorem nextEvent_oneUpdate (alone : OnlyUpdate s x) : nextEvent s = some x.due := by
  obtain ⟨only, strs⟩ := updatesOnly_of_nextEvent alone.quiet
  have at' : nextEvent s = (minBy id (x.due :: [])).map (max (s.time + 1)) := by
    obtain ⟨updates, copies, sent, coming, heads, entries, wakes, mbist, lines⟩ := only
    have wakes' (h : Half) : timerWakes s h = [] := wakes h
    have lines' : linesBusy s = false := lines
    have entries' : entryDues s = [] := entries
    dsimp only [noUpdates] at copies sent coming heads mbist
    simp [nextEvent, portDues, alone.only, strs, copies, sent, coming, heads, entries', wakes', mbist, lines']
  rw [at']
  exact congrArg some (Nat.max_eq_right alone.later)

theorem endMbist_none (noTest : s.test.mbist = none) : endMbist s = s := by simp [endMbist, noTest]

theorem landStrs_none (strs : s.buf.strs = []) : landStrs s = s := by
  have same : { s with buf := { s.buf with strs := [] } } = s := by rw [← strs]
  simp [landStrs, strs, updWhere, same]

theorem answerStrs_none (strs : s.buf.strs = []) : answerStrs s = s := by simp [answerStrs, strs]

theorem applyCopies_later (later : ∀ m ∈ s.ctr.copyMsgs, s.time < m.due) : applyCopies s = s := by
  have due : s.ctr.copyMsgs.filter (fun m => decide (m.due ≤ s.time)) = [] :=
    List.filter_eq_nil_iff.2 fun m hm => by simpa using later m hm
  have kept : s.ctr.copyMsgs.filter (fun m => decide (s.time < m.due)) = s.ctr.copyMsgs :=
    List.filter_eq_self.2 fun m hm => by simpa using later m hm
  simp [applyCopies, due, kept, sortBy]

theorem followSent_none (sent : s.run.reqs.filterMap sentDue = []) : followSent s = s := by
  have follows : s.run.reqs.filter (fun r => (sentDue r).any (· ≤ s.time)) = [] := by
    rw [List.filterMap_eq_nil_iff] at sent
    exact List.filter_eq_nil_iff.2 fun r hr => by simp [sent r hr]
  simp [followSent, follows]

theorem applyUpdates_one (one : s.ctr.updates = [x]) (due : x.due ≤ s.time) :
    applyUpdates s = counterChanged (applyUpdate (noUpdates s) x) := by
  simp [applyUpdates, noUpdates, one, due, Nat.not_lt.2 due, sortBy, insertBy]

/-! ### The counter -/

/-- The machine once the update has reached counter `k`, which is `d` now, with messages `msgs` to its copy under way. -/
def withCounter (s : State) (k : Nat) (d : CtrSt) (msgs : List CopyMsg) : State :=
  { s with ctr := { s.ctr with ctrs := s.ctr.ctrs.map (fun y => if y.ctr == k then d else y), updates := [], copyMsgs := msgs } }

/-- What the other half's copy is told in mc `now` of a counter that has changed from `c` to `d`. -/
def copyTold (now : Mc) (c d : CtrSt) : List CopyMsg :=
  if d.value = c.value then [] else [{ ctr := c.ctr, due := now + 24, value := d.value, gen := d.gen, abandoned := d.abandoned }]

theorem copyTold_later {now : Mc} {c d : CtrSt} : ∀ m ∈ copyTold now c d, now < m.due := by
  intro m hm
  unfold copyTold at hm
  split at hm
  · cases hm
  · rw [List.mem_singleton.1 hm]
    exact Nat.lt_add_of_pos_right (by decide)

theorem addToCtr_ctr (c : CtrSt) (x : Update) : (addToCtr c x).ctr = c.ctr := by unfold addToCtr; split_ifs <;> rfl

theorem addToCtr_discards {c : CtrSt} (deaf : c.abandoned = true ∨ x.gen < c.gen) :
    addToCtr c x = { c with discards := min 0xFFFFFFFF (c.discards + 1) } := by
  rw [addToCtr, if_pos (by simpa using deaf), capAt_eq_min]

theorem addToCtr_adds {c : CtrSt} (active : c.abandoned = false) (current : c.gen ≤ x.gen) :
    addToCtr c x = { c with
      value := min (2 ^ 64 - 1) (c.value + x.amount), sat := c.sat || decide (2 ^ 64 - 1 < c.value + x.amount) } := by
  rw [addToCtr, if_neg (by simpa [active] using current), ctrMax]
  split
  · rename_i above
    rw [Nat.min_eq_left above.le, decide_eq_true above, Bool.or_true]
  · rename_i below
    rw [Nat.min_eq_right (Nat.not_lt.1 below), decide_eq_false below, Bool.or_false]

/-- A change of a counter that has one record. -/
theorem updCtr_only {k : Nat} {c : CtrSt} (only : ∀ y ∈ s.ctr.ctrs, y.ctr = k → y = c) (f : CtrSt → CtrSt) :
    updCtr s k f = { s with ctr := { s.ctr with ctrs := s.ctr.ctrs.map fun y => if y.ctr == k then f c else y } } := by
  have same : updWhere (fun y : CtrSt => y.ctr == k) f s.ctr.ctrs = s.ctr.ctrs.map fun y => if y.ctr == k then f c else y := by
    refine List.map_congr_left fun y hy => ?_
    by_cases hk : y.ctr = k
    · simp [only y hy hk]
    · simp [hk]
  rw [updCtr, same]

/-- The counter takes the update, and its copy is told where its value changes. -/
theorem applyUpdate_eq {c : CtrSt} (updates : s.ctr.updates = []) (copies : s.ctr.copyMsgs = []) (at' : getCtr s x.ctr = some c)
    (only : ∀ y ∈ s.ctr.ctrs, y.ctr = x.ctr → y = c) (whole : s.halfReset = ⟨false, false⟩) :
    applyUpdate s x = withCounter s x.ctr (addToCtr c x) (copyTold s.time c (addToCtr c x)) := by
  have named : c.ctr = x.ctr := by simpa using List.find?_some at'
  have after : getCtr (updCtr s x.ctr fun c => addToCtr c x) x.ctr = some (addToCtr c x) := by
    have found : s.ctr.ctrs.find? (fun y => y.ctr == x.ctr) = some c := at'
    simp [getCtr, updCtr, find?_updWhere_key (key := CtrSt.ctr) (fun y => addToCtr_ctr y x), found]
  have put : updCtr s x.ctr (fun c => addToCtr c x) = withCounter s x.ctr (addToCtr c x) [] := by
    rw [updCtr_only only, withCounter, ← updates, ← copies]
  unfold applyUpdate
  simp only [at', beq_iff_eq]
  split
  · rename_i kept
    rw [put, copyTold, if_pos kept]
  · rename_i changed
    have sends : ((updCtr s x.ctr fun c => addToCtr c x).halfReset.east || (updCtr s x.ctr fun c => addToCtr c x).halfReset.west) = false := by
      simp [whole]
    rw [sendCopy, if_neg (Bool.eq_false_iff.1 sends), copyTold, if_neg changed]
    simp only [after]
    rw [put, named]
    rfl

/-! ### Waits -/

/-- The mover's state is that of `p`, and no half is in Glow that is not so in `p`. -/
structure GlowFrom (p q : PowerSt) : Prop where
  up     : q.up = p.up
  cold   : q.cold = p.cold
  banked : q.banked = p.banked
  glow   : ∀ h, q.glow.get h = true → p.glow.get h = true

theorem GlowFrom.trans {p q r : PowerSt} (h : GlowFrom p q) (g : GlowFrom q r) : GlowFrom p r :=
  ⟨g.up.trans h.up, g.cold.trans h.cold, g.banked.trans h.banked, fun i hi => h.glow i (g.glow i hi)⟩

theorem tickHearth_glow (p : PowerSt) (mc : Nat) : (tickHearth p mc).glow = p.glow := by
  unfold tickHearth bellows
  cases p.entry <;> rfl

theorem tickHearth_glowFrom (p : PowerSt) (mc : Nat) : GlowFrom p (tickHearth p mc) := by
  unfold tickHearth bellows
  cases p.entry <;> exact ⟨rfl, rfl, rfl, fun _ hg => hg⟩

theorem jumpTo_glowFrom (s : State) (t : Mc) : GlowFrom s.power (jumpTo s t).power := by
  obtain ⟨up, cold, banked, glow⟩ := tickHearth_glowFrom s.power (t - s.time)
  exact ⟨up, cold, banked, glow⟩

theorem get_of_get_set_false {b : Both Bool} {h g : Half} (on : (b.set h false).get g = true) : b.get g = true := by
  cases h <;> cases g <;> simp_all [Both.get, Both.set]

/-- A wake event of one half changes the power state alone, and no half enters Glow by it. -/
theorem wakeHalf_glowFrom (s : State) (h : Half) : ∃ p, GlowFrom s.power p ∧ wakeHalf s h = { s with power := p } := by
  unfold wakeHalf
  split
  · split
    · refine ⟨_, ?_, rfl⟩
      exact ⟨rfl, rfl, rfl, fun _ hg => hg⟩
    · refine ⟨_, ?_, rfl⟩
      exact ⟨rfl, rfl, rfl, fun g hg => get_of_get_set_false hg⟩
  · exact ⟨s.power, ⟨rfl, rfl, rfl, fun _ hg => hg⟩, rfl⟩

theorem wakeWaiters_glowFrom (s : State) : ∃ p, GlowFrom s.power p ∧ wakeWaiters s = { s with power := p } := by
  have one (wakes : Bool) (u : State) (h : Half) : ∃ p, GlowFrom u.power p ∧
      (if wakes then wakeHalf u h else u) = { u with power := p } := by
    split
    · exact wakeHalf_glowFrom u h
    · exact ⟨u.power, ⟨rfl, rfl, rfl, fun _ hg => hg⟩, rfl⟩
  obtain ⟨p, east, hp⟩ := one (s.power.glow.get .east && targetReached s .east) s .east
  obtain ⟨q, west, hq⟩ := one (s.power.glow.get .west && targetReached s .west) { s with power := p } .west
  refine ⟨q, east.trans west, ?_⟩
  simp only [wakeWaiters, hp]
  exact hq

theorem wakeContexts_none (none : ∀ y ∈ s.ctxs, y.cw = none) : wakeContexts s = s := by
  refine if_neg ?_
  simpa using none

/-- A changed counter ends waits of requests, and rouses the halves in Glow that hold them. -/
theorem counterChanged_eq (none : ∀ y ∈ s.ctxs, y.cw = none) : ∃ p, GlowFrom s.power p ∧
    counterChanged s = { s with power := p, run := { s.run with reqs := s.run.reqs.map (latchWait s) } } := by
  obtain ⟨p, down, wakes⟩ := wakeWaiters_glowFrom s
  refine ⟨p, down, ?_⟩
  unfold counterChanged
  rw [wakes]
  exact wakeContexts_none none

/-! ### The update's mc -/

/-- The wheels of the memory ports do not depend on how a half has come to its clocks. -/
theorem syncPorts_arb_congr {p q : PowerSt} (same : ∀ h, hasPclk { s with power := p } h = hasPclk { s with power := q } h) :
    (syncPorts { s with power := p }).arb = (syncPorts { s with power := q }).arb := by
  have grow (n : Nat) : growCredits { s with power := p } n = growCredits { s with power := q } n := by
    funext y
    simp only [growCredits, same]
    rfl
  simp only [syncPorts, passPclk, grow, same]

/-- A half is in Glow as time passes while it was in Glow before and still is. -/
theorem powerPart_glow (p q : PowerSt) (mc : Nat) (h : Half) : (powerPart p q mc).glow.get h = (p.glow.get h && q.glow.get h) := by
  have both : (⟨p.glow.east && q.glow.east, p.glow.west && q.glow.west⟩ : Both Bool).get h = (p.glow.get h && q.glow.get h) := by
    cases h <;> rfl
  unfold powerPart
  dsimp only
  split
  · rename_i same
    rw [← both, eq_of_beq same, tickHearth_glow]
  · exact both

/-- A half has its clocks in the power state that time makes of `q` where it has them in `q`. -/
theorem hasPclk_powerPart {q : PowerSt} (mc : Nat) (down : GlowFrom s.power q) (h : Half) :
    hasPclk { s with power := powerPart s.power q mc } h = hasPclk { s with power := q } h := by
  obtain ⟨_, _, _, _, _, _, _, _, part, -, -⟩ := powerPart_frame s.power q mc
  have glow : (s.power.glow.get h && q.glow.get h) = q.glow.get h := by
    cases on : q.glow.get h with
    | false => exact Bool.and_false _
    | true => rw [down.glow h on, Bool.and_self]
  have runs : running { s with power := powerPart s.power q mc } = running { s with power := q } := by
    simp only [running, part, down.up, down.cold, down.banked]
  rw [hasPclk, runs, powerPart_glow, glow]
  rfl

/-- The machine in mc `now`, at which counter `k` has become `d`, with its clocks and wheels at that mc and the waits that it ends ended. -/
def reachedHome (s : State) (now : Mc) (power : PowerSt) (k : Nat) (d : CtrSt) (msgs : List CopyMsg) : State :=
  let m := { withCounter s k d msgs with time := now, power := power }
  { m with run := { s.run with reqs := s.run.reqs.map (latchWait m) }, arb := (syncPorts m).arb }

/-- The same before the wheels have come to that mc. -/
def atHome (s : State) (now : Mc) (power : PowerSt) (k : Nat) (d : CtrSt) (msgs : List CopyMsg) : State :=
  { reachedHome s now power k d msgs with arb := s.arb }

/-- A latched wait changes neither a request's lines nor its effects. -/
theorem latchWait_frame (s : State) (r : Request) : ∃ l, latchWait s r = { r with latched := l } := by
  unfold latchWait
  split
  · split
    · exact ⟨_, rfl⟩
    · exact ⟨_, rfl⟩
    · exact ⟨r.latched, rfl⟩
  · exact ⟨r.latched, rfl⟩

theorem filterMap_sentDue_latchWait (u : State) (l : List Request) : (l.map (latchWait u)).filterMap sentDue = l.filterMap sentDue := by
  rw [List.filterMap_map]
  refine List.filterMap_congr fun r _ => ?_
  obtain ⟨_, latch⟩ := latchWait_frame u r
  rw [Function.comp_apply, latch]
  rfl

theorem linesBusy_atHome (s : State) (now : Mc) (power : PowerSt) (k : Nat) (d : CtrSt) (msgs : List CopyMsg) :
    linesBusy (atHome s now power k d msgs) = linesBusy s := by
  have same (u : State) (r : Request) : (!allIssued (latchWait u r) && (latchWait u r).hauler.isSome) = (!allIssued r && r.hauler.isSome) := by
    obtain ⟨_, latch⟩ := latchWait_frame u r
    rw [latch]
    rfl
  simp only [linesBusy, atHome, reachedHome, withCounter, List.any_map, Function.comp_def, same]

section
variable {c : CtrSt} (alone : OnlyUpdate s x) (at' : getCtr s x.ctr = some c) (only : ∀ y ∈ s.ctr.ctrs, y.ctr = x.ctr → y = c)
  (noWaits : ∀ y ∈ s.ctxs, y.cw = none) (whole : s.halfReset = ⟨false, false⟩)
include alone at' only noWaits whole

/-- The mc of the update: the counter takes it, and nothing else happens. -/
theorem tick_oneUpdate : ∃ p, GlowFrom s.power p ∧
    tick (jumpTo s x.due) = atHome s x.due p x.ctr (addToCtr c x) (copyTold x.due c (addToCtr c x)) := by
  obtain ⟨rest, strs⟩ := updatesOnly_of_nextEvent alone.quiet
  have far := rest.jumpTo alone.later.le
  have takes : applyUpdate (noUpdates (jumpTo s x.due)) x = withCounter (noUpdates (jumpTo s x.due)) x.ctr (addToCtr c x)
      (copyTold x.due c (addToCtr c x)) := applyUpdate_eq rfl rest.copies at' only whole
  obtain ⟨p, down, ends⟩ := counterChanged_eq (s := withCounter (noUpdates (jumpTo s x.due)) x.ctr (addToCtr c x)
    (copyTold x.due c (addToCtr c x))) noWaits
  have comes : applyUpdates (jumpTo s x.due) = atHome s x.due p x.ctr (addToCtr c x) (copyTold x.due c (addToCtr c x)) := by
    rw [applyUpdates_one (s := jumpTo s x.due) alone.only (Nat.le_refl _), takes, ends]
    rfl
  have sent : (atHome s x.due p x.ctr (addToCtr c x) (copyTold x.due c (addToCtr c x))).run.reqs.filterMap sentDue = [] :=
    (filterMap_sentDue_latchWait _ _).trans rest.sent
  refine ⟨p, (jumpTo_glowFrom s x.due).trans down, ?_⟩
  simp only [tick]
  rw [endMbist_none (s := jumpTo s x.due) far.mbist, wakeTimers_none (s := jumpTo s x.due) far.wakes,
    arrivals_none (s := jumpTo s x.due) far.coming, freeHeads_none (s := jumpTo s x.due) far.heads,
    landStrs_none (s := jumpTo s x.due) strs, answerStrs_none (s := jumpTo s x.due) strs, comes, applyCopies_later copyTold_later,
    followSent_none sent, linesBusy_atHome]
  exact if_neg (Bool.eq_false_iff.1 rest.lines)

/-- The update reaches its counter in its mc, and nothing else happens on the way but what time does to the clocks and the halves in Glow. -/
theorem atTime_oneUpdate : ∃ power, power.htime = (tickHearth s.power (x.due - s.time)).htime ∧
    (∀ h, power.glow.get h = true → s.power.glow.get h = true) ∧
    atTime s x.due = reachedHome s x.due power x.ctr (addToCtr c x) (copyTold x.due c (addToCtr c x)) := by
  obtain ⟨p, down, ticks⟩ := tick_oneUpdate alone at' only noWaits whole
  let z := atHome s x.due p x.ctr (addToCtr c x) (copyTold x.due c (addToCtr c x))
  let y := jumpTo z x.due
  have ahead : advanceTo (x.due - s.time) s x.due = y := by
    obtain ⟨f, fuel⟩ := Nat.exists_eq_succ_of_ne_zero (Nat.sub_ne_zero_of_lt alone.later)
    rw [fuel, advanceTo, nextEvent_oneUpdate alone]
    simp only [Nat.le_refl, if_true, ticks]
    exact advanceTo_now f rfl
  have down' : GlowFrom s.power y.power := down.trans (jumpTo_glowFrom z x.due)
  refine ⟨powerPart s.power y.power (x.due - s.time), (powerPart_clock ..).1, fun h on => ?_, ?_⟩
  · rw [powerPart_glow, Bool.and_eq_true] at on
    exact on.1
  · have wheels : (syncPorts y).arb = (syncPorts { y with power := powerPart s.power y.power (x.due - s.time) }).arb :=
      syncPorts_arb_congr (s := y) fun h => (hasPclk_powerPart (s := { y with power := s.power }) (x.due - s.time) down' h).symm
    rw [atTime_ahead alone.later, ahead]
    simp only [timePart]
    rw [wheels]
    rfl

end

end

end Sys2Proof.Machine
end

section
/-! Counters change at their home, and their waits are answered and reported (R362 to R379, R514). -/

namespace Sys2Proof.Machine

theorem get_neither (h : Half) : (⟨false, false⟩ : Both Bool).get h = false := by cases h <;> rfl

/-! ### COUNTER_UPDATE -/

section
variable {s s0 : State} {t : Mc} {k : Fin 65536} {x : Update} {c : CtrSt}

/-- COUNTER_UPDATE waits for the oldest update that is under way to the counter. -/
theorem execCounterUpdate_due (now : whenReady s0 t (fun y => !signalWaits y k.val) = s) (run : running s = true)
    (first : minBy (·.due) (s.ctr.updates.filter (·.ctr == k.val)) = some x) : execCounterUpdate t k s0 = .next (atTime s x.due) := by
  simp only [execCounterUpdate, now, first, run, if_true]
  exact ((now ▸ whenReady_shell s0 t _ : Shell s0 s).trans (atTime_shell s x.due)).answer

theorem getCtr_withCounter {k : Nat} {d : CtrSt} {msgs : List CopyMsg} (at' : getCtr s k = some c) (named : d.ctr = k) :
    getCtr (withCounter s k d msgs) k = some d := by
  have keeps (y : CtrSt) : ((if y.ctr == k then d else y).ctr == k) = (y.ctr == k) := by
    by_cases h : y.ctr = k <;> simp [h, named]
  have found : s.ctr.ctrs.find? (fun y => y.ctr == k) = some c := at'
  have key : (c.ctr == k) = true := by simpa using List.find?_some found
  refine (find?_map_of_keeps (p := fun y => y.ctr == k) keeps s.ctr.ctrs).trans ?_
  rw [found, Option.map_some, if_pos key]

/-- A wait in the counter's home half, at its generation. -/
theorem evalWait_met {k target : Nat} {h : Half} (at' : getCtr s k = some c) (home : h = homeOfCtr k) (whole : s.halfReset = ⟨false, false⟩)
    (active : c.abandoned = false) (reached : target ≤ c.value) : evalWait s k h target c.gen = .met := by
  simp [evalWait, ctrView, at', home, whole, get_neither, active, reached]

theorem latchWait_met {r : Request} {vid k target gen : Nat} (waits : r.wait = some (.counter vid k target gen)) (unlatched : r.latched = none)
    (met : evalWait s k r.half target gen = .met) : latchWait s r = { r with latched := some true } := by
  simp only [latchWait, waits, unlatched, met]

section
variable (now : whenReady s0 t (fun y => !signalWaits y k.val) = s) (run : running s = true) (alone : OnlyUpdate s x) (named : x.ctr = k.val)
  (at' : getCtr s k.val = some c) (only : ∀ y ∈ s.ctr.ctrs, y.ctr = k.val → y = c) (noWaits : ∀ y ∈ s.ctxs, y.cw = none)
  (whole : s.halfReset = ⟨false, false⟩)
include now run alone named at' only noWaits whole

/-- The one update that is under way reaches its counter. -/
theorem execCounterUpdate_one : ∃ power, power.htime = (tickHearth s.power (x.due - s.time)).htime ∧
    (∀ h, power.glow.get h = true → s.power.glow.get h = true) ∧
    execCounterUpdate t k s0 = .next (reachedHome s x.due power k.val (addToCtr c x) (copyTold x.due c (addToCtr c x))) := by
  have first : minBy (·.due) (s.ctr.updates.filter (·.ctr == k.val)) = some x := by simp [alone.only, named, minBy]
  obtain ⟨power, htime, glow, home⟩ := atTime_oneUpdate alone (named ▸ at') (named ▸ only) noWaits whole
  exact ⟨power, htime, glow, by rw [execCounterUpdate_due now run first, home, named]⟩

/-- A request's wait that the update ends keeps its outcome (R369). -/
theorem execCounterUpdate_latches {r : Request} {vid target : Nat} (active : c.abandoned = false) (current : c.gen ≤ x.gen)
    (mem : r ∈ s.run.reqs) (waits : r.wait = some (.counter vid k.val target c.gen)) (unlatched : r.latched = none)
    (home : r.half = homeOfCtr k.val) (reached : target ≤ (addToCtr c x).value) :
    ∃ u, execCounterUpdate t k s0 = .next u ∧ { r with latched := some true } ∈ u.run.reqs := by
  obtain ⟨power, -, -, comes⟩ := execCounterUpdate_one now run alone named at' only noWaits whole
  refine ⟨_, comes, List.mem_map.2 ⟨r, mem, ?_⟩⟩
  have key : (addToCtr c x).ctr = k.val := (addToCtr_ctr c x).trans (by simpa using List.find?_some at')
  have gen : (addToCtr c x).gen = c.gen ∧ (addToCtr c x).abandoned = false := by
    rw [addToCtr_adds active current]
    exact ⟨rfl, active⟩
  have found := getCtr_withCounter (msgs := copyTold x.due c (addToCtr c x)) at' key
  exact latchWait_met waits unlatched (gen.1 ▸ evalWait_met (s := { withCounter s k.val (addToCtr c x) _ with time := x.due, power := power })
    found home whole gen.2 reached)

end

end

/-! ### COUNTER_WAIT -/

section
variable {s s0 : State} {t : Mc} {h : Half} {ctx : Fin 256} {vid : BitVec 12} {target : Word} {k : Nat} {a : Bool}

theorem updCtx_updCtx {c : Nat} {f g : CtxState → CtxState} (keeps : ∀ x, (f x).ctx = x.ctx) :
    updCtx (updCtx s c f) c g = updCtx s c fun x => g (f x) :=
  congrArg (fun l => { s with ctxs := l }) (updWhere_updWhere (key := CtxState.ctx) keeps c s.ctxs)

/-- Contexts whose waits have not ended are not woken. -/
theorem wakeContexts_notMet (open' : ∀ y ∈ s.ctxs, ∀ w, y.cw = some w → evalWait s w.ctr w.half w.target w.gen = .notMet) :
    wakeContexts s = s := by
  unfold wakeContexts
  split
  · refine List.foldlRecOn (motive := fun u => u = s) s.ctxs wakeContext rfl fun u hu y hy => ?_
    rw [hu]
    unfold wakeContext
    split
    · rfl
    · rename_i w parked
      rw [open' y hy w parked]
  · rfl

/-- A context without a wait: a new wait replaces a parked one. -/
def withoutWait (s : State) (ctx : Nat) : State := updCtx s ctx fun x => { x with cw := none }

/-- A context that waits for `w`, in its next wait. -/
def withWait (s : State) (ctx : Nat) (w : CwWait) : State := updCtx s ctx fun x => { x with cw := some w, waitNo := x.waitNo + 1 }

section
variable (now : atTime s0 t = s) (run : running s = true) (whole : s.halfReset = ⟨false, false⟩)
include now run whole

theorem execCounterWait_met (loc : vEntry s ctx.val vid.toNat = .loc k a true)
    (met : evalWait s k h target.toNat (genOf s k) = .met) :
    execCounterWait t h ctx vid target s0 = answer s0 (setAns (withoutWait s ctx.val) h 1) := by
  simp only [execCounterWait, now, run, whole, get_neither, loc, met, Bool.not_true, Bool.or_self, Bool.false_eq_true, if_false]
  rfl

theorem execCounterWait_parks (loc : vEntry s ctx.val vid.toNat = .loc k a true)
    (notMet : evalWait s k h target.toNat (genOf s k) = .notMet) (others : ∀ y ∈ s.ctxs, y.ctx ≠ ctx.val → y.cw = none) :
    execCounterWait t h ctx vid target s0 = answer s0 (setAns (withWait s ctx.val
      { half := h, vid := vid.toNat, ctr := k, target := target.toNat, gen := genOf s k }) h 2) := by
  have parks (w : CwWait) : updCtx (setAns (withoutWait s ctx.val) h 2) ctx.val (fun x => { x with cw := some w, waitNo := x.waitNo + 1 }) =
      setAns (withWait s ctx.val w) h 2 := congrArg (setAns · h 2) (updCtx_updCtx (f := fun x => { x with cw := none }) fun _ => rfl)
  simp only [execCounterWait, now, run, whole, get_neither, loc, notMet, Bool.not_true, Bool.or_self, Bool.false_eq_true, if_false]
  refine congrArg (answer s0) ((congrArg wakeContexts (parks _)).trans (wakeContexts_notMet fun y hy w parked => ?_))
  obtain ⟨z, hz, rfl⟩ := List.mem_map.1 hy
  by_cases own : z.ctx = ctx.val
  · rw [if_pos (beq_iff_eq.2 own)] at parked
    cases parked
    exact notMet
  · rw [if_neg (by simpa using own), others z hz own] at parked
    cases parked

theorem execCounterWait_faulty {fq : FaultQ} (noWait : ∀ k a, vEntry s ctx.val vid.toNat ≠ .loc k a true)
    (batch : BatchOpen s (partOfCtx s ctx.val) fq) :
    execCounterWait t h ctx vid target s0 = answer s0 { setAns (withoutWait s ctx.val) h 3 with
      seg := withEvent s (partOfCtx s ctx.val) (eventRec 0x0008 ctx.val false (2 ^ 59 + vid.toNat) target.toNat s.time) } := by
  simp only [execCounterWait, now, run, whole, get_neither, Bool.not_true, Bool.or_self, Bool.false_eq_true, if_false]
  exact congrArg (answer s0) (ctxEvent_open (batchOpen_congr (u := setAns (withoutWait s ctx.val) h 3) batch rfl) _ _ _)

end

end

/-! ### STALL_EVALUATION -/

section
variable {s s0 : State} {t : Mc} {p : Nat} {k old : StallMember}

/-- A member that nothing can advance is a stall by itself. -/
theorem stallSet_one (unaided : advancers s k = []) (inside : hasOutside s k = false) : stallSet s 1 [k] = [k] := by
  have pass : stallPass s [k] = [k] := by simp [stallPass, unaided, inside]
  simp [stallSet, pass]

/-- A member that has stayed in the set on a wait that no report has named. -/
theorem carryMember_one {told : List (StallKey × Nat)} (key : old.key = k.key) (wait : old.wait = k.wait) (untold : (k.key, k.wait) ∉ told)
    (fresh : k.reported = false) : carryMember told [old] k = { k with rounds := old.rounds + 1 } := by
  simp [carryMember, key, wait, fresh, untold]

/-- The report of one member to its own partition. -/
def soleReport (m : StallMember) : StallReport := { members := [m], foreign := 0, overflow := false }

theorem giveReport_sole (own : partOfCtx s k.ctx = p) (free : (getStallRegs s p).pending = false) :
    giveReport [k] s p = sendMsix (updStallRegs s p (reportShown s.time (soleReport k))) p (getFaultQ s p).vector := by
  have shows := showReport_eq s p (soleReport k)
  simpa [giveReport, own, free, capAt, soleReport] using shows

section
variable (now : atTime s0 t = s) (run : running s = true) (whole : s.halfReset = ⟨false, false⟩)
include now run whole

/-- With nothing blocked the stall set is empty. -/
theorem execStallEvaluation_none (none : blockedMembers s = []) :
    execStallEvaluation t s0 = answer s0 { s with ctr := { s.ctr with stalls := [], told := s.ctr.told.filter (stillWaits s) } } := by
  simp [execStallEvaluation, now, run, whole, none, stallSet, dedup]

/-- The machine once the stall of the one member `m` has been reported, but for the registers that show the report. -/
def stallTold (s : State) (m : StallMember) : State :=
  { s with
    ctr := { s.ctr with stalls := [{ m with reported := true }], told := (s.ctr.told ++ [(m.key, m.wait)]).filter (stillWaits s) }
    run := { s.run with stalled := s.run.stalled ++ m.req.toList } }

/-- A stall of one member that has lasted for the window, on a wait that no report has named. -/
theorem execStallEvaluation_reports (one : blockedMembers s = [k]) (unaided : advancers s k = []) (inside : hasOutside s k = false)
    (was : s.ctr.stalls = [old]) (key : old.key = k.key) (wait : old.wait = k.wait) (untold : (k.key, k.wait) ∉ s.ctr.told)
    (lasted : s.cfg.safety.stallWindow ≤ (old.rounds + 1) * 10000) (fresh : k.reported = false)
    (free : (getStallRegs s (partOfCtx s k.ctx)).pending = false) :
    let m := { k with rounds := old.rounds + 1 }
    let p := partOfCtx s k.ctx
    execStallEvaluation t s0 =
      answer s0 (sendMsix (updStallRegs (stallTold s m) p (reportShown s.time (soleReport m))) p (getFaultQ s p).vector) := by
  intro m p
  have gives : giveReport [m] (stallTold s m) p = _ := giveReport_sole rfl free
  have set : (stallSet s (blockedMembers s).length (blockedMembers s)).map (carryMember s.ctr.told s.ctr.stalls) = [m] := by
    rw [one, was, List.length_singleton, stallSet_one unaided inside, List.map_singleton, carryMember_one key wait untold fresh]
  have runs : (!running s || s.halfReset.east) = false := by simp [run, whole]
  have due : (!([m].isEmpty) && [m].all fun m => decide (m.rounds * 10000 ≥ s.cfg.safety.stallWindow)) = true := by simp [m, lasted]
  have all : [m].filter (fun m => !m.reported) = [m] := by simp [m, fresh]
  have held : [m].filterMap (·.req) = m.req.toList := by cases req : m.req <;> simp [req]
  unfold execStallEvaluation
  simp only [now, runs, set, due, all, held, Bool.false_eq_true, if_false, if_true]
  exact congrArg (answer s0) gives

end

end

/-- Settles O60: an update at its counter's home, the answers of a context's wait, and the report of a stall of one member. -/
theorem countersChangeAtTheirHome : Obligations.CountersChangeAtTheirHome := by
  unfold Obligations.CountersChangeAtTheirHome
  intro s0 t
  refine ⟨?_, ?_, ?_⟩
  · intro k x s run
    have now : whenReady s0 t (fun y => !signalWaits y k.val) = s := rfl
    clear_value s
    refine ⟨execCounterUpdate_due now run, ?_⟩
    intro c alone named at' only noWaits whole v put lost taken msg passes
    have key : c.ctr = k.val := by simpa using List.find?_some at'
    obtain ⟨power, htime, glow, comes⟩ := execCounterUpdate_one now run alone named at' only noWaits whole
    refine ⟨fun deaf => ⟨power, ⟨htime, glow⟩, comes.trans ?_⟩, fun active current => ⟨⟨power, ⟨htime, glow⟩, comes.trans ?_⟩, ?_⟩⟩
    · rw [addToCtr_discards deaf, copyTold, if_pos rfl]
      rfl
    · have told : copyTold x.due c taken = if v = c.value then [] else [msg] := by simp only [copyTold, key, active, taken, msg]
      rw [addToCtr_adds active current]
      exact congrArg (fun l => Host.Outcome.next (reachedHome s x.due power k.val taken l)) told
    · intro r mem vid target waits unlatched home reached
      refine execCounterUpdate_latches now run alone named at' only noWaits whole active current mem waits unlatched home ?_
      rw [addToCtr_adds active current]
      exact reached
  · intro h ctx vid target s
    obtain ⟨now, shell⟩ : atTime s0 t = s ∧ Shell s0 s := ⟨rfl, atTime_shell s0 t⟩
    clear_value s
    have answered {u : State} (kept : Shell s u) : answer s0 u = .next u := (shell.trans kept).answer
    intro run whole ans drop
    refine ⟨fun k a loc => ⟨fun met => ?_, fun notMet others => ?_⟩, fun fq noWait batch => ?_⟩
    · exact (execCounterWait_met now run whole loc met).trans (answered ⟨rfl, rfl, rfl⟩)
    · exact (execCounterWait_parks now run whole loc notMet others).trans (answered ⟨rfl, rfl, rfl⟩)
    · exact (execCounterWait_faulty now run whole noWait batch).trans (answered ⟨rfl, rfl, rfl⟩)
  · intro s
    obtain ⟨now, shell⟩ : atTime s0 t = s ∧ Shell s0 s := ⟨rfl, atTime_shell s0 t⟩
    clear_value s
    have answered {u : State} (kept : Shell s u) : answer s0 u = .next u := (shell.trans kept).answer
    refine fun run whole => ⟨fun none => (execStallEvaluation_none now run whole none).trans (answered ⟨rfl, rfl, rfl⟩), ?_⟩
    intro k old one unaided inside was key wait untold p member lasted fresh free
    have reports := execStallEvaluation_reports now run whole one unaided inside was key wait untold lasted fresh free
    exact ⟨_, reports.trans (answered ⟨rfl, rfl, rfl⟩), rfl, rfl, rfl, rfl, rfl, rfl⟩

end Sys2Proof.Machine
end

section
/-! Frames that reach a remote port: what a beat on the port keeps, changes of one partner's record, and the requests of a partner that are
dropped, counted or answered anew (R384, R387, R391, R394). -/

namespace Sys2Proof.Machine

section
variable {s s0 : State} {t : Mc} {f : RxFrame} {fr : Frame} {c : PartnerCfg} {p : Partner} {path : Nat}

/-- A frame that reaches a port which is on, in a half that is awake, is served at its mc. -/
theorem receive_served {ty : Nat} (typed : frameType f.bytes = ty) (on : remoteOn (hostAt s0 t f.half) f.half = true)
    (awake : (hostAt s0 t f.half).power.glow.get f.half = false) :
    receive t ty f s0 = answer s0 (requestFrame (hostAt s0 t f.half) f) := by
  have row : otherType ty (frameType f.bytes) = false := by simp [otherType, typed]
  rw [receive, row, if_neg Bool.false_ne_true, frameBeat_awake on awake]
  rfl

/-- No inbound request waits whose answers from another package have all come. -/
theorem settleRelays_open (relays : RelaysOpen s) : ∀ n, settleRelays n s = s
  | 0 => rfl
  | n + 1 => by
    have waits : (s.rem.inbound.any fun x => x.sent && x.tags.isEmpty) = false :=
      List.any_eq_false.2 fun x hx => by simpa using relays x hx
    simp [settleRelays, waits]

/-- The records of partners, with the one of number `num` changed by `f`. -/
theorem updPartner_eq (s : State) (num : Nat) (f : Partner → Partner) : updPartner s num f =
    { s with rem := { s.rem with partners := s.rem.partners.map fun y => if y.num == num then f y else y } } := rfl

theorem countDrop_eq (s : State) (num : Nat) : countDrop s num = { s with rem := { s.rem with partners := s.rem.partners.map fun y =>
    if y.num == num then { y with fencedDrops := min 0xFFFF (y.fencedDrops + 1) } else y } } := by
  simp only [countDrop, updPartner_eq, capAt_eq_min]

/-! ### Requests that are not carried out -/

/-- A frame whose SRC no record names is counted for its half (R394). -/
theorem requestFrame_unknown (unknown : recordOf s (fieldAt f.bytes 2 2 % 2 ^ 14) = none) : requestFrame s f = { s with rem := { s.rem with
    unknownSrc := s.rem.unknownSrc.set f.half (min 0xFFFFFFFF (s.rem.unknownSrc.get f.half + 1)) } } := by
  simp only [requestFrame, unknown, capAt_eq_min]

section
variable (named : recordOf s (fieldAt f.bytes 2 2 % 2 ^ 14) = some c) (partner : getPartner s c.num = some p)
include named partner

theorem requestFrame_fenced (fenced : p.st = .fenced) : requestFrame s f = countDrop s c.num := by
  simp only [requestFrame, named, partner, fenced]

theorem requestFrame_down (down : p.st = .absent ∨ p.st = .training) : requestFrame s f = s := by
  rcases down with absent | training
  · simp only [requestFrame, named, partner, absent]
  · simp only [requestFrame, named, partner, training]

theorem requestFrame_up (up : isUp p = true) : requestFrame s f = settleRelays 2 (takeRequest s c p f) := by
  simp only [isUp, Bool.or_eq_true, beq_iff_eq] at up
  rcases up with active | slow
  · simp only [requestFrame, named, partner, active]
  · simp only [requestFrame, named, partner, slow]

end

/-- A write-class request whose SEQ has been applied is answered with the response that is retained (R391). -/
theorem takeRequest_repeated {bs : List Byte} (parsed : parseFrame f.bytes = some fr) (arrives : arrivalPath c f = some path)
    (formed : malformed s c p f fr = false) (write : isWriteClass fr.ty = true) (below : seqPlace p fr.seq = .below)
    (retained : (p.retained.find? fun r => r.1 == fr.seq) = some (fr.seq, bs)) :
    takeRequest s c p f = { s with out := { s.out with frames := (c.num, path, bs) :: s.out.frames } } := by
  simp only [takeRequest, parsed, formed, write, below, retained, arrives, beq_self_eq_true, Bool.true_or, Bool.and_self,
    Bool.false_eq_true, if_false, if_true, Option.getD_some]

end

/-- Settles O49: the frame is served at once (`receive_served`), and the record's state says what becomes of it. -/
theorem unheardRequestsAreDropped : Obligations.UnheardRequestsAreDropped := by
  unfold Obligations.UnheardRequestsAreDropped
  intro s0 t f s on awake relays src x row typed
  have served : exec x.2 s0 = answer s0 (requestFrame s f) := by
    simp only [List.mem_cons, List.not_mem_nil, or_false] at row
    rcases row with rfl | rfl | rfl | rfl | rfl
    all_goals exact receive_served typed on awake
  have answered {u : State} (serves : requestFrame s f = u) (shell : Shell s u) : exec x.2 s0 = .next u := by
    rw [served, serves]
    exact answer_hostAt_eq shell.pending shell.fuses shell.flash
  refine ⟨fun unknown => answered (requestFrame_unknown unknown) ⟨rfl, rfl, rfl⟩, fun c p named partner => ⟨fun fenced => ?_,
    fun down => answered (requestFrame_down named partner down) ⟨rfl, rfl, rfl⟩, ?_⟩⟩
  · exact answered ((requestFrame_fenced named partner fenced).trans (countDrop_eq s c.num)) ⟨rfl, rfl, rfl⟩
  · intro fr path bs up parsed arrives formed write below retained
    refine answered ((requestFrame_up named partner up).trans ?_) ⟨rfl, rfl, rfl⟩
    rw [takeRequest_repeated parsed arrives formed write below retained]
    refine settleRelays_open ?_ 2
    exact relays

end Sys2Proof.Machine
end

section
/-! Records of partners and the partner-state event (R387): an event leaves all but the memory, the faults block and the messages as it was,
and a transition of a record leaves the other records as they were. -/

namespace Sys2Proof.Machine

/-! ### Events leave the rest alone -/

/-- Records of faults or events have been gathered or written, and messages sent for them: nothing else changes from `s` to `u`. -/
def EventOnly (s u : State) : Prop := ∃ m seg msgs, u = { s with mem := m, seg := seg, out := { s.out with msix := msgs } }

theorem EventOnly.refl (s : State) : EventOnly s s := ⟨s.mem, s.seg, s.out.msix, rfl⟩

theorem EventOnly.trans {s u v : State} (h : EventOnly s u) (g : EventOnly u v) : EventOnly s v := by
  obtain ⟨_, _, _, rfl⟩ := h
  obtain ⟨m, seg, msgs, rfl⟩ := g
  exact ⟨m, seg, msgs, rfl⟩

theorem EventOnly.of_seg (s : State) (seg : Segs) : EventOnly s { s with seg := seg } := ⟨s.mem, seg, s.out.msix, rfl⟩

theorem writeFaultRecs_eventOnly (p : Nat) (q : FaultQ) : ∀ (rs : List FaultRec) (s : State) (k : Nat), EventOnly s (writeFaultRecs s p q rs k)
  | [], s, _ => .refl s
  | _ :: rs, s, k => .trans ⟨_, s.seg, s.out.msix, rfl⟩ (writeFaultRecs_eventOnly p q rs _ (k + 1))

theorem writeClosed_eventOnly (s : State) (p : Nat) : EventOnly s (writeClosed s p) := by
  unfold writeClosed
  dsimp only
  split
  · exact .refl s
  · exact (writeFaultRecs_eventOnly p _ _ s _).trans ⟨_, _, _, rfl⟩

theorem createWaiting_eventOnly (s : State) (p : Nat) (r : FaultRec) : EventOnly s (createWaiting s p r) := by
  unfold createWaiting
  dsimp only
  split
  · exact .of_seg s _
  · split
    · exact .refl s
    · exact .of_seg s _

theorem drainWaiting_eventOnly (p : Nat) : ∀ (n : Nat) (s : State), EventOnly s (drainWaiting n s p)
  | 0, s => .refl s
  | n + 1, s => by
    unfold drainWaiting
    dsimp only
    split
    · exact .refl s
    · split
      · exact (EventOnly.of_seg s _).trans ((createWaiting_eventOnly _ p _).trans (drainWaiting_eventOnly p n _))
      · exact .refl s

theorem flushRound_eventOnly (s : State) (p : Nat) : EventOnly s (flushRound s p) := by
  unfold flushRound
  dsimp only
  refine EventOnly.trans ?_ (drainWaiting_eventOnly p _ _)
  split
  · exact (writeClosed_eventOnly s p).trans ((EventOnly.of_seg _ _).trans (writeClosed_eventOnly _ p))
  · exact writeClosed_eventOnly s p

theorem flushLoop_eventOnly (p : Nat) : ∀ (n : Nat) (s : State), EventOnly s (flushLoop n s p)
  | 0, s => .refl s
  | n + 1, s => by
    unfold flushLoop
    dsimp only
    split
    · exact .refl s
    · exact (flushRound_eventOnly s p).trans (flushLoop_eventOnly p n _)

theorem raiseEvent_eventOnly (s : State) (p code ctx : Nat) (noCtx : Bool) (object value : Nat) :
    EventOnly s (raiseEvent s p code ctx noCtx object value) := by
  unfold raiseEvent pushRecord
  dsimp only
  split
  · exact (EventOnly.of_seg s _).trans (flushLoop_eventOnly p _ _)
  · exact .of_seg s _

section
variable {s u : State} (h : EventOnly s u)
include h

theorem EventOnly.shell : Shell s u := by
  obtain ⟨_, _, _, rfl⟩ := h
  exact ⟨rfl, rfl, rfl⟩

theorem EventOnly.rem : u.rem = s.rem := by
  obtain ⟨_, _, _, rfl⟩ := h
  rfl

theorem EventOnly.cfg : u.cfg = s.cfg := by
  obtain ⟨_, _, _, rfl⟩ := h
  rfl

theorem EventOnly.run : u.run = s.run := by
  obtain ⟨_, _, _, rfl⟩ := h
  rfl

theorem EventOnly.time : u.time = s.time := by
  obtain ⟨_, _, _, rfl⟩ := h
  rfl

theorem EventOnly.getPartner (r : Nat) : getPartner u r = Machine.getPartner s r := by
  simp only [Machine.getPartner, h.rem]

end

/-! ### Changes of one record -/

section
variable {s u : State} {num r : Nat} {f : Partner → Partner} {p : Partner} {c : PartnerCfg} {st : PartnerSt}

theorem shell_updPartner : Shell s (updPartner s num f) := ⟨rfl, rfl, rfl⟩

theorem getPartner_updPartner (keeps : ∀ x, (f x).num = x.num) :
    getPartner (updPartner s num f) r = (getPartner s r).map fun x => if r == num then f x else x :=
  find?_updWhere_key keeps num r _

theorem getPartner_updPartner_same (keeps : ∀ x, (f x).num = x.num) (partner : getPartner s num = some p) :
    getPartner (updPartner s num f) num = some (f p) := by
  simp [getPartner_updPartner keeps, partner]

theorem getPartner_updPartner_other (keeps : ∀ x, (f x).num = x.num) (other : r ≠ num) :
    getPartner (updPartner s num f) r = getPartner s r := by
  simp [getPartner_updPartner keeps, other]

/-- Two changes that agree on the one record of a number. -/
theorem updPartner_congr {g : Partner → Partner} (only : ∀ y ∈ s.rem.partners, y.num = num → y = p) (same : f p = g p) :
    updPartner s num f = updPartner s num g := by
  have maps : (s.rem.partners.map fun y => if y.num == num then f y else y) =
      s.rem.partners.map fun y => if y.num == num then g y else y :=
    List.map_congr_left fun y hy => by
      by_cases at' : y.num = num
      · rw [only y hy at', same]
      · simp [at']
  rw [updPartner_eq, maps]
  rfl

theorem updPartner_id : updPartner s num (fun x => x) = s := by
  simp [updPartner_eq]

theorem updPartner_updPartner {g : Partner → Partner} (keeps : ∀ x, (f x).num = x.num) :
    updPartner (updPartner s num f) num g = updPartner s num fun x => g (f x) := by
  have maps := updWhere_updWhere (key := Partner.num) (f := f) (g := g) keeps num s.rem.partners
  simp only [updPartner, maps]

/-- A transition to another state, with its event. -/
theorem setPartner_moves (partner : getPartner s num = some p) (config : partnerCfg s num = some c) (moves : p.st ≠ st) :
    EventOnly (updPartner s num fun x => { x with st := st }) (setPartner s num st) := by
  simp only [setPartner, partner, config, moves, if_false]
  exact raiseEvent_eventOnly ..

/-- A transition of the one record of a number. -/
theorem setPartner_only (partner : getPartner s num = some p) (only : ∀ y ∈ s.rem.partners, y.num = num → y = p)
    (config : partnerCfg s num = some c) : EventOnly (updPartner s num fun x => { x with st := st }) (setPartner s num st) := by
  by_cases stays : p.st = st
  · have same : updPartner s num (fun x => { x with st := st }) = updPartner s num fun x => x := by
      refine updPartner_congr only ?_
      rw [← stays]
    have rests : setPartner s num st = s := by simp only [setPartner, partner, config, stays, if_true]
    rw [same, updPartner_id, rests]
    exact .refl s
  · exact setPartner_moves partner config stays

/-- Whatever a transition does, it changes one record at most. -/
theorem setPartner_changes (s : State) (num : Nat) (st : PartnerSt) :
    ∃ f : Partner → Partner, (∀ x, (f x).num = x.num) ∧ EventOnly (updPartner s num f) (setPartner s num st) := by
  have rests {u : State} (e : u = s) : ∃ f : Partner → Partner, (∀ x, (f x).num = x.num) ∧ EventOnly (updPartner s num f) u :=
    ⟨fun x => x, fun _ => rfl, by rw [updPartner_id, e]; exact .refl s⟩
  unfold setPartner
  split
  · split
    · exact rests rfl
    · exact ⟨fun x => { x with st := st }, fun _ => rfl, raiseEvent_eventOnly ..⟩
  · exact rests rfl

/-- Where no request toward the record waits to be sent, none is sent. -/
theorem pump_idle (idle : ∀ o ∈ s.rem.outReqs, o.num = num → o.waiting = false) : pump s num = s := by
  have none : (s.rem.outReqs.filter fun o => o.num == num && o.waiting) = [] :=
    List.filter_eq_nil_iff.2 fun o ho waits => by
      obtain ⟨at', waits⟩ := Bool.and_eq_true_iff.1 waits
      simp [idle o ho (by simpa using at')] at waits
  simp [pump, none]

/-- The record of `num`, which was `p`, is Absent in `u`, and the inbound requests of the partner are freed (R442). -/
structure Gone (s u : State) (num : Nat) (p : Partner) : Prop where
  shell   : Shell s u
  time    : u.time = s.time
  partner : getPartner u num = some { p with st := .absent }
  others  : ∀ j, j ≠ num → getPartner u j = getPartner s j
  inbound : u.rem.inbound = s.rem.inbound.filter (·.num != num)
  outReqs : u.rem.outReqs = s.rem.outReqs
  run     : u.run = s.run

theorem makeAbsent_gone (partner : getPartner s num = some p) (only : ∀ y ∈ s.rem.partners, y.num = num → y = p)
    (config : partnerCfg s num = some c) (idle : ∀ o ∈ s.rem.outReqs, o.num = num → o.waiting = false) :
    Gone s (makeAbsent s num) num p := by
  have event := setPartner_only (st := .absent) partner only config
  obtain ⟨m, seg, msgs, moved⟩ := event
  have drops : makeAbsent s num = { setPartner s num .absent with
      rem := { (setPartner s num .absent).rem with inbound := s.rem.inbound.filter (·.num != num) } } := by
    simp only [makeAbsent, dropPartner, moved]
    exact pump_idle idle
  rw [drops, moved]
  exact ⟨⟨rfl, rfl, rfl⟩, rfl, getPartner_updPartner_same (s := s) (f := fun x => { x with st := .absent }) (fun _ => rfl) partner,
    fun j other => getPartner_updPartner_other (s := s) (f := fun x => { x with st := .absent }) (fun _ => rfl) other, rfl, rfl, rfl⟩

end

end Sys2Proof.Machine
end

section
/-! HELLO (R384, R387, R390, R405): where it reaches a record that is Fenced or in Training, and the record that becomes Active by it. -/

namespace Sys2Proof.Machine

section
variable {s s0 u : State} {t : Mc} {f : RxFrame} {fr : Frame} {c : PartnerCfg} {p : Partner} {path : Nat}

/-- A beat on a host port leaves the remote ports on. -/
theorem remoteOn_hostBeat {h g : Half} (on : remoteOn s h = true) : remoteOn (hostBeat s g) h = true := by
  have run := running_of_remoteOn on
  have beat : hostBeat s g = noteBusy (wakeHalf s g) g := if_pos run
  have same := woken_running s s.time (oneHalf g)
  rw [beat, wakeHalf_eq_woken run]
  simp only [remoteOn, Bool.and_eq_true] at on ⊢
  exact ⟨⟨⟨same.trans run, on.1.1.2⟩, on.1.2⟩, on.2⟩

/-- A HELLO that reaches a port which is on, in a half that is then awake. -/
theorem execHello_served (typed : frameType f.bytes = 0xF0) (on : remoteOn (atTime s0 t) f.half = true)
    (awake : (hostAt s0 t f.half).power.glow.get f.half = false) :
    execHello t f s0 = answer s0 (helloArrives (hostAt s0 t f.half) f) := by
  simp only [execHello, typed, beq_self_eq_true, if_true]
  rw [frameBeat_awake (remoteOn_hostBeat on) awake]
  rfl

section
variable (named : helloRecord s f = some c) (partner : getPartner s c.num = some p)
include named partner

/-- A HELLO of a Fenced record is counted, whatever it holds. -/
theorem helloArrives_fenced (relays : RelaysOpen s) (fenced : p.st = .fenced) : helloArrives s f = countDrop s c.num := by
  have takes (path : Nat) : takeHello s c path f.bytes = countDrop s c.num := by
    simp only [takeHello, partner, fenced, beq_self_eq_true, if_true]
  simp only [helloArrives, named, partner]
  split
  · rw [takes]
    exact settleRelays_open (by exact relays) 2
  · rename_i same
    obtain rfl := Option.some.inj same
    rw [fenced]
    rfl
  · rename_i absent
    cases absent

/-- A HELLO whose CRC fails is not acted on (R384). -/
theorem helloArrives_unparsed (relays : RelaysOpen s) (open' : p.st ≠ .fenced) (broken : parseFrame f.bytes = none) : helloArrives s f = s := by
  have notFenced : (p.st == .fenced) = false := by simpa using open'
  have takes (path : Nat) : takeHello s c path f.bytes = s := by
    simp only [takeHello, partner, notFenced, broken, Bool.false_eq_true, if_false]
  simp only [helloArrives, named, partner]
  split
  · rw [takes]
    exact settleRelays_open relays 2
  · rename_i same
    obtain rfl := Option.some.inj same
    simp only [notFenced, Bool.false_eq_true, if_false]
  · rfl

/-- A HELLO within the 10 ms of a record's Training is checked (R387). -/
theorem helloArrives_training (arrives : arrivalPath c f = some path) (parsed : parseFrame f.bytes = some fr) (training : p.st = .training)
    (soon : s.time ≤ p.trainAt + trainingTime) : helloArrives s f = settleRelays 2 (checkHello s c fr) := by
  have notFenced : (PartnerSt.training == PartnerSt.fenced) = false := rfl
  simp only [helloArrives, named, arrives, takeHello, partner, parsed, training, notFenced, soon, Bool.false_eq_true, if_false, if_true]

end

/-- The record as it becomes Active: both SEQ directions start anew (R390). -/
def justActive (p : Partner) : Partner :=
  { p with st := .active, txSeq := 1, rxH := 0, rxAbove := [], retained := [], okRun := 0, badPath := none, wakeUntil := none, bankWake := false }

/-- A record toward which nothing is outstanding becomes Active. -/
theorem becomeActive_quiet {num : Nat} (partner : getPartner s num = some p) (config : partnerCfg s num = some c) (quiet : s.rem.outReqs = [])
    (moves : p.st ≠ .active) : EventOnly (updPartner s num justActive) (becomeActive s num) := by
  obtain ⟨m, seg, msgs, moved⟩ := setPartner_moves partner config moves
  have maps := updPartner_updPartner (s := s) (num := num) (f := fun x => { x with st := .active })
    (g := fun x => { x with
      txSeq := 1, rxH := 0, rxAbove := [], retained := [], okRun := 0, badPath := none, wakeUntil := none, bankWake := false }) fun _ => rfl
  have starts : updPartner s num justActive = updPartner (updPartner s num fun x => { x with st := .active }) num _ := maps.symm
  refine ⟨m, seg, msgs, ?_⟩
  rw [starts]
  simp only [becomeActive, moved, updPartner, quiet, updWhere, List.map_nil, List.filter_nil, List.foldl_nil]
  exact pump_idle fun _ none => absurd none List.not_mem_nil

/-- A valid HELLO makes the record Active with the partner's values. -/
theorem checkHello_valid (partner : getPartner s c.num = some p) (config : partnerCfg s c.num = some c) (quiet : s.rem.outReqs = [])
    (training : p.st = .training) (formed : helloForm s c fr = true) (package : fieldAt fr.data 0 2 = c.package)
    (revision : 2 ≤ fieldAt fr.data 2 1) : EventOnly (updPartner s c.num fun x => justActive (recordHello fr.data x)) (checkHello s c fr) := by
  have suits : (fieldAt fr.data 0 2 != c.package || decide (fieldAt fr.data 2 1 < 2)) = false := by
    simp only [package, bne_self_eq_false, Bool.false_or, decide_eq_false_iff_not]
    omega
  have recorded := getPartner_updPartner_same (f := recordHello fr.data) (fun _ => rfl) partner
  have becomes := becomeActive_quiet (s := updPartner s c.num (recordHello fr.data)) recorded config quiet
    (by simp [recordHello, training])
  rw [updPartner_updPartner (f := recordHello fr.data) fun _ => rfl] at becomes
  simp only [checkHello, suits, formed, Bool.false_eq_true, if_false, if_true]
  exact becomes

/-- A HELLO of another package, or with a MAXREV below 2, makes the record Absent. -/
theorem checkHello_refused (refused : fieldAt fr.data 0 2 ≠ c.package ∨ fieldAt fr.data 2 1 < 2) :
    checkHello s c fr = makeAbsent s c.num := by
  have bars : (fieldAt fr.data 0 2 != c.package || decide (fieldAt fr.data 2 1 < 2)) = true := by simpa using refused
  simp only [checkHello, bars, if_true]

end

end Sys2Proof.Machine
end

section
/-! Links and their records (R387): a link that comes up starts Training of Absent records with a path over it, one that goes down begins the
100 µs of records that it leaves without a path; Training and paths that time out make a record Absent. -/

namespace Sys2Proof.Machine

/-! ### A link up -/

/-- Some records may have entered Training, each with its event and its HELLO. -/
structure TrainingBegun (s u : State) : Prop where
  shell   : Shell s u
  cfg     : u.cfg = s.cfg
  status  : u.status = s.status
  time    : u.time = s.time
  run     : u.run = s.run
  links   : u.rem.links = s.rem.links
  outReqs : u.rem.outReqs = s.rem.outReqs
  frames  : ∀ x ∈ s.out.frames, x ∈ u.out.frames

theorem TrainingBegun.refl (s : State) : TrainingBegun s s := ⟨⟨rfl, rfl, rfl⟩, rfl, rfl, rfl, rfl, rfl, rfl, fun _ h => h⟩

theorem TrainingBegun.trans {s u v : State} (h : TrainingBegun s u) (g : TrainingBegun u v) : TrainingBegun s v :=
  ⟨h.shell.trans g.shell, g.cfg.trans h.cfg, g.status.trans h.status, g.time.trans h.time, g.run.trans h.run, g.links.trans h.links,
    g.outReqs.trans h.outReqs, fun x hx => g.frames x (h.frames x hx)⟩

section
variable {s s0 u : State} {t : Mc} {h : Half} {k : LinkPort} {num i : Nat} {b c : PartnerCfg} {p : Partner}

theorem startTraining_begun (s : State) (c : PartnerCfg) (path : Nat) : TrainingBegun s (startTraining s c path) := by
  obtain ⟨f, -, m, seg, msgs, changed⟩ := setPartner_changes s c.num .training
  simp only [startTraining, changed]
  exact ⟨⟨rfl, rfl, rfl⟩, rfl, rfl, rfl, rfl, rfl, rfl, fun x hx => List.mem_cons_of_mem _ hx⟩

theorem startTraining_other (path : Nat) (other : num ≠ c.num) : getPartner (startTraining s c path) num = getPartner s num := by
  obtain ⟨f, keeps, event⟩ := setPartner_changes s c.num .training
  have trains := getPartner_updPartner_other (s := setPartner s c.num .training) (f := fun p => { p with trainAt := s.time }) (fun _ => rfl) other
  exact trains.trans ((event.getPartner num).trans (getPartner_updPartner_other keeps other))

theorem trainOver_begun (h : Half) (k : LinkPort) (s : State) (b : PartnerCfg) : TrainingBegun s (trainOver h k s b) := by
  unfold trainOver
  split
  · split
    · exact startTraining_begun s b _
    · exact .refl s
  · exact .refl s

theorem trainOver_other (other : num ≠ b.num) : getPartner (trainOver h k s b) num = getPartner s num := by
  unfold trainOver
  split
  · split
    · exact startTraining_other _ other
    · rfl
  · rfl

theorem foldl_trainOver_begun (h : Half) (k : LinkPort) : ∀ (l : List PartnerCfg) (s : State), TrainingBegun s (l.foldl (trainOver h k) s)
  | [], s => .refl s
  | b :: l, s => (trainOver_begun h k s b).trans (foldl_trainOver_begun h k l _)

theorem foldl_trainOver_other : ∀ {l : List PartnerCfg} {s : State}, (∀ b ∈ l, num ≠ b.num) →
    getPartner (l.foldl (trainOver h k) s) num = getPartner s num
  | [], _, _ => rfl
  | b :: _, _, others =>
    (foldl_trainOver_other fun x hx => others x (List.mem_cons_of_mem b hx)).trans (trainOver_other (others b List.mem_cons_self))

/-- An Absent record with a path over the link enters Training, and sends its HELLO on the path. -/
theorem trainOver_trains (route : pathIndex c h k = some i) (partner : getPartner s c.num = some p) (absent : p.st = .absent)
    (config : partnerCfg s c.num = some c) :
    getPartner (trainOver h k s c) c.num = some { p with st := .training, trainAt := s.time } ∧
      (c.num, i, helloFrame s c) ∈ (trainOver h k s c).out.frames := by
  have event := setPartner_moves (st := .training) partner config (by simp [absent])
  have moved : getPartner (setPartner s c.num .training) c.num = some { p with st := .training } :=
    (event.getPartner c.num).trans (getPartner_updPartner_same (f := fun x => { x with st := .training }) (fun _ => rfl) partner)
  have trains : trainOver h k s c = startTraining s c i := by simp only [trainOver, route, partner, absent, beq_self_eq_true, if_true]
  rw [trains]
  exact ⟨getPartner_updPartner_same (f := fun p => { p with trainAt := s.time }) (fun _ => rfl) moved, List.mem_cons_self⟩

/-- A record that is not Absent, or has no path over the link, stays as it is. -/
theorem trainOver_stays (partner : getPartner s c.num = some p) (stays : p.st ≠ .absent ∨ pathIndex c h k = none) : trainOver h k s c = s := by
  unfold trainOver
  rw [partner]
  rcases stays with up | noRoute
  · have notAbsent : (p.st == .absent) = false := by simpa using up
    cases pathIndex c h k with
    | none => rfl
    | some i => simp only [notAbsent, Bool.false_eq_true, if_false]
  · rw [noRoute]

/-- In a list of settings in which each number stands once, the records of the others come before and after that of `c`. -/
theorem split_at_record {l : List PartnerCfg} (mem : c ∈ l) (each : ∀ a ∈ l, ∀ b ∈ l, a.num = b.num → a = b) (nodup : l.Nodup) :
    ∃ l₁ l₂, l = l₁ ++ c :: l₂ ∧ (∀ b ∈ l₁, c.num ≠ b.num) ∧ ∀ b ∈ l₂, c.num ≠ b.num := by
  obtain ⟨l₁, l₂, rfl⟩ := List.append_of_mem mem
  obtain ⟨-, after, apart⟩ := List.nodup_append.1 nodup
  refine ⟨l₁, l₂, rfl, fun b hb same => ?_, fun b hb same => ?_⟩
  · exact apart b hb c List.mem_cons_self (each b (by simp [hb]) c mem same.symm)
  · exact (List.nodup_cons.1 after).1 (each c mem b (by simp [hb]) same ▸ hb)

section
variable (mem : c ∈ s.cfg.partners) (each : ∀ a ∈ s.cfg.partners, ∀ b ∈ s.cfg.partners, a.num = b.num → a = b)
  (nodup : s.cfg.partners.Nodup) (partner : getPartner s c.num = some p)
include mem each nodup partner

/-- The records of the others leave that of `c` to its own turn. -/
theorem foldl_trainOver_at : ∃ v, TrainingBegun s v ∧ getPartner v c.num = some p ∧
    getPartner (s.cfg.partners.foldl (trainOver h k) s) c.num = getPartner (trainOver h k v c) c.num ∧
    TrainingBegun (trainOver h k v c) (s.cfg.partners.foldl (trainOver h k) s) := by
  obtain ⟨l₁, l₂, parts, before, after⟩ := split_at_record mem each nodup
  refine ⟨l₁.foldl (trainOver h k) s, foldl_trainOver_begun h k l₁ s, (foldl_trainOver_other before).trans partner, ?_, ?_⟩
  · rw [parts, List.foldl_append, List.foldl_cons]
    exact foldl_trainOver_other after
  · rw [parts, List.foldl_append, List.foldl_cons]
    exact foldl_trainOver_begun h k l₂ _

theorem linkUp_trains (route : pathIndex c h k = some i) (absent : p.st = .absent) (config : partnerCfg s c.num = some c) :
    getPartner (s.cfg.partners.foldl (trainOver h k) s) c.num = some { p with st := .training, trainAt := s.time } ∧
      (c.num, i, helloFrame s c) ∈ (s.cfg.partners.foldl (trainOver h k) s).out.frames := by
  obtain ⟨v, before, partner', at', after⟩ := foldl_trainOver_at (h := h) (k := k) mem each nodup partner
  have config' : partnerCfg v c.num = some c := by rw [partnerCfg, before.cfg]; exact config
  have hello : helloFrame v c = helloFrame s c := by simp only [helloFrame, before.cfg, before.status]
  obtain ⟨trained, sent⟩ := trainOver_trains route partner' absent config'
  rw [before.time] at trained
  exact ⟨at'.trans trained, after.frames _ (hello ▸ sent)⟩

theorem linkUp_stays (stays : p.st ≠ .absent ∨ pathIndex c h k = none) :
    getPartner (s.cfg.partners.foldl (trainOver h k) s) c.num = some p := by
  obtain ⟨v, -, partner', at', -⟩ := foldl_trainOver_at (h := h) (k := k) mem each nodup partner
  rw [at', trainOver_stays partner' stays]
  exact partner'

end

/-- The machine with the link up. -/
def withLink (s : State) (h : Half) (k : LinkPort) : State :=
  { s with rem := { s.rem with links := (s.rem.links.filter (· != (h, k))) ++ [(h, k)] } }

theorem execLinkUp_trains (at' : atTime s0 t = s) (run : running s = true) (grade : s.fuses.grade ≠ .c) (whole : s.halfReset = ⟨false, false⟩)
    (inRun : s.status.maint = false) :
    execLinkUp t h k s0 = .next ((withLink s h k).cfg.partners.foldl (trainOver h k) (withLink s h k)) := by
  have open' : (!running s || s.fuses.grade == .c) = false := by simp [run, grade]
  have here : s.halfReset.get h = false := by rw [whole]; cases h <;> rfl
  have begun := foldl_trainOver_begun h k (withLink s h k).cfg.partners (withLink s h k)
  have shell : Shell s0 s := at' ▸ atTime_shell s0 t
  simp only [execLinkUp, at', open', here, inRun, Bool.false_eq_true, if_false, Bool.or_self]
  exact (shell.trans (Shell.trans (u := withLink s h k) ⟨rfl, rfl, rfl⟩ begun.shell)).answer

/-! ### A link down -/

/-- Some records may have begun to count the time without a path, that of `num` among them. -/
def CountingDown (s u : State) (num : Nat) (p : Partner) : Prop :=
  ∃ ps d, u = { s with rem := { s.rem with partners := ps } } ∧ getPartner u num = some { p with downAt := d } ∧
    (d = p.downAt ∨ d = s.time)

theorem countingDown_refl (partner : getPartner s num = some p) : CountingDown s s num p := ⟨s.rem.partners, p.downAt, rfl, partner, .inl rfl⟩

theorem countingDown_step (r : Nat) (down : CountingDown s u num p) :
    CountingDown s (updPartner u r fun p => { p with downAt := u.time }) num p := by
  obtain ⟨ps, d, rfl, at', since⟩ := down
  have found := getPartner_updPartner (s := { s with rem := { s.rem with partners := ps } }) (num := r) (r := num)
    (f := fun p => { p with downAt := s.time }) fun _ => rfl
  rw [at', Option.map_some] at found
  by_cases same : num = r
  · exact ⟨_, s.time, rfl, found.trans (by simp [same]), .inr rfl⟩
  · exact ⟨_, d, rfl, found.trans (by simp [same]), since⟩

/-- LINK_DOWN of a link that is up. -/
theorem execLinkDown_counts (at' : atTime s0 t = s) (run : running s = true) (up : (h, k) ∈ s.rem.links)
    (partner : getPartner s num = some p) :
    ∃ u, execLinkDown t h k s0 = .next u ∧
      CountingDown { s with rem := { s.rem with links := s.rem.links.filter (· != (h, k)) } } u num p := by
  have shell : Shell s0 s := at' ▸ atTime_shell s0 t
  have open' : (!running s || !s.rem.links.contains (h, k)) = false := by simp [run, up]
  simp only [execLinkDown, at', open', Bool.false_eq_true, if_false]
  have counts (l : List PartnerCfg) : CountingDown { s with rem := { s.rem with links := s.rem.links.filter (· != (h, k)) } }
      (l.foldl (fun s c => if (pathIndex c h k).isSome && !anyPathUp s c then updPartner s c.num fun p => { p with downAt := s.time } else s)
        { s with rem := { s.rem with links := s.rem.links.filter (· != (h, k)) } }) num p := by
    refine List.foldlRecOn (motive := fun u => CountingDown _ u num p) l _ (countingDown_refl partner) fun u down c _ => ?_
    split
    · exact countingDown_step c.num down
    · exact down
  refine ⟨_, ?_, counts s.cfg.partners⟩
  obtain ⟨ps, d, frame, -⟩ := counts s.cfg.partners
  refine (shell.trans ?_).answer
  rw [frame]
  exact ⟨rfl, rfl, rfl⟩

/-! ### Timeouts -/

theorem execTrainingTimeout_drops {rec : Fin 1088} (due : atTime s0 (max t (p.trainAt + 21000000)) = s) (run : running s0 = true)
    (partner : getPartner s0 rec.val = some p) (training : p.st = .training) :
    execTrainingTimeout t rec s0 = answer s0 (makeAbsent s rec.val) := by
  simp only [execTrainingTimeout, partner, run, training, beq_self_eq_true, Bool.and_self, if_true, trainingTime, due]

theorem execPathDown_drops {rec : Fin 1088} (due : atTime s0 (max t (p.downAt + 210000)) = s) (run : running s0 = true)
    (config : partnerCfg s0 rec.val = some c) (partner : getPartner s0 rec.val = some p) (up : isUp p = true)
    (cut : anyPathUp s0 c = false) (whole : s0.halfReset.get c.half = false) :
    execPathDown t rec s0 = answer s0 (makeAbsent s c.num) := by
  simp only [execPathDown, config, partner, run, up, cut, whole, Bool.not_false, Bool.and_self, if_true, due]

end

end Sys2Proof.Machine
end

section
/-! The wake of an Absent record (R389, R407): the ordered sets on its paths, and the wake limit. -/

namespace Sys2Proof.Machine

/-! ### Ordered sets -/

/-- Ordered sets that have gone out on a path of record `num`. -/
def setsOn (num : Nat) (path : Nat × Nat) (sets : List (Nat × (Nat × Nat) × Nat)) : Nat :=
  ((sets.find? fun y => y.1 == num && y.2.1 == path).map (·.2.2)).getD 0

/-- One more ordered set on a path of record `num`. -/
def oneMoreSet (num : Nat) (sets : List (Nat × (Nat × Nat) × Nat)) (path : Nat × Nat) : List (Nat × (Nat × Nat) × Nat) :=
  if sets.any fun x => x.1 == num && x.2.1 == path then
    updWhere (fun x => x.1 == num && x.2.1 == path) (fun x => (x.1, x.2.1, x.2.2 + 1)) sets
  else (num, path, 1) :: sets

section
variable {num : Nat} {path other : Nat × Nat} {sets : List (Nat × (Nat × Nat) × Nat)}

/-- The sets of a path once another count has been raised, or its own. -/
theorem setsOn_updWhere (num : Nat) (path other : Nat × Nat) (sets : List (Nat × (Nat × Nat) × Nat)) :
    (updWhere (fun x => x.1 == num && x.2.1 == other) (fun x => (x.1, x.2.1, x.2.2 + 1)) sets).find? (fun y => y.1 == num && y.2.1 == path) =
      (sets.find? fun y => y.1 == num && y.2.1 == path).map fun x => if path = other then (x.1, x.2.1, x.2.2 + 1) else x := by
  have keeps (x : Nat × (Nat × Nat) × Nat) :
      ((if x.1 == num && x.2.1 == other then (x.1, x.2.1, x.2.2 + 1) else x).1 == num &&
        (if x.1 == num && x.2.1 == other then (x.1, x.2.1, x.2.2 + 1) else x).2.1 == path) = (x.1 == num && x.2.1 == path) := by split <;> rfl
  rw [updWhere, find?_map_of_keeps keeps]
  cases found : sets.find? fun y => y.1 == num && y.2.1 == path with
  | none => rfl
  | some x =>
    have mine := List.find?_some found
    simp only [Bool.and_eq_true, beq_iff_eq] at mine
    simp [mine.1, mine.2]

theorem setsOn_oneMoreSet_same : setsOn num path (oneMoreSet num sets path) = setsOn num path sets + 1 := by
  unfold oneMoreSet
  split
  · rename_i listed
    obtain ⟨x, found⟩ := Option.isSome_iff_exists.1 (List.find?_isSome.2 (List.any_eq_true.1 listed))
    simp only [setsOn, setsOn_updWhere, found, Option.map_some, if_true, Option.getD_some]
  · rename_i unlisted
    have none : sets.find? (fun y => y.1 == num && y.2.1 == path) = none :=
      List.find?_eq_none.2 fun x hx mine => unlisted (List.any_eq_true.2 ⟨x, hx, mine⟩)
    simp [setsOn, none]

theorem setsOn_oneMoreSet_other (apart : path ≠ other) : setsOn num path (oneMoreSet num sets other) = setsOn num path sets := by
  unfold oneMoreSet
  split
  · simp [setsOn, setsOn_updWhere, apart]
  · simp [setsOn, Ne.symm apart]

theorem setsOn_foldl_other : ∀ {paths : List (Nat × Nat)} {sets : List (Nat × (Nat × Nat) × Nat)}, path ∉ paths →
    setsOn num path (paths.foldl (oneMoreSet num) sets) = setsOn num path sets
  | [], _, _ => rfl
  | _ :: _, _, apart => by
    obtain ⟨first, rest⟩ := not_or.1 (mt List.mem_cons.2 apart)
    exact (setsOn_foldl_other rest).trans (setsOn_oneMoreSet_other first)

/-- One set goes out on each path. -/
theorem setsOn_foldl_mem : ∀ {paths : List (Nat × Nat)} {sets : List (Nat × (Nat × Nat) × Nat)}, paths.Nodup → path ∈ paths →
    setsOn num path (paths.foldl (oneMoreSet num) sets) = setsOn num path sets + 1
  | first :: rest, sets, nodup, mem => by
    obtain ⟨apart, nodup⟩ := List.nodup_cons.1 nodup
    rcases List.mem_cons.1 mem with rfl | mem
    · exact (setsOn_foldl_other apart).trans setsOn_oneMoreSet_same
    · exact (setsOn_foldl_mem nodup mem).trans
        (congrArg (· + 1) (setsOn_oneMoreSet_other fun same => apart (same ▸ mem)))

end

section
variable {s s0 : State} {t : Mc} {num : Nat} {c : PartnerCfg} {p : Partner} {rec : Fin 1088}

/-- The ordered set goes out on every path of the record, and nothing else does. -/
theorem sendWakeSet_eq (config : partnerCfg s num = some c) : sendWakeSet s num = { s with
    rem := { s.rem with partners := s.rem.partners.map fun y => if y.num == num then { y with setAt := s.time } else y }
    out := { s.out with wakeSets := c.paths.foldl (oneMoreSet num) s.out.wakeSets } } := by
  have sends : ∀ (paths : List (Nat × Nat)) (u : State), paths.foldl (fun s path => { s with out := { s.out with
      wakeSets := oneMoreSet num s.out.wakeSets path } }) u = { u with out := { u.out with wakeSets := paths.foldl (oneMoreSet num) u.out.wakeSets } } := by
    intro paths
    induction paths with
    | nil => exact fun u => rfl
    | cons path paths ih => exact fun u => ih _
  simp only [sendWakeSet, config]
  exact sends c.paths _

theorem execWakeOrderedSet_sends {limit w : Nat} (due : atTime s0 (max (max t s0.time) (p.setAt + 21000)) = s) (run : running s0 = true)
    (config : partnerCfg s0 rec.val = some c) (wake : c.wake = some limit) (partner : getPartner s0 rec.val = some p)
    (absent : p.st = .absent) (until' : p.wakeUntil = some w) (soon : max (max t s0.time) (p.setAt + 21000) < w) :
    execWakeOrderedSet t rec s0 = answer s0 (sendWakeSet s rec.val) := by
  simp only [execWakeOrderedSet, config, wake, partner, run, absent, until', soon, Option.bind_some, Option.isSome_some, Option.any_some,
    decide_true, beq_self_eq_true, Bool.and_self, if_true, due]

/-- The wake limit ends the wait of a record toward which nothing waits to be sent. -/
theorem execWakeLimit_ends {w : Nat} (due : atTime s0 (max t w) = s) (run : running s0 = true) (partner : getPartner s0 rec.val = some p)
    (until' : p.wakeUntil = some w) (idle : ∀ o ∈ s.rem.outReqs, o.num = rec.val → o.waiting = false ∧ o.wakeWait ≠ some true) :
    execWakeLimit t rec s0 = answer s0 (updPartner s rec.val fun y => { y with wakeUntil := none, bankWake := false }) := by
  have kept : updWhere (fun o : OutReq => o.num == rec.val)
      (fun o => if o.wakeWait == some true then { o with wakeWait := some false } else o) s.rem.outReqs = s.rem.outReqs := by
    refine (List.map_congr_left fun o ho => ?_).trans (List.map_id _)
    by_cases at' : o.num = rec.val
    · simp [(idle o ho at').2]
    · simp [at']
  simp only [execWakeLimit, partner, until', run, if_true, due, updPartner_eq, kept]
  exact congrArg (answer s0) (pump_idle fun o ho at' => (idle o ho at').1)

end

end Sys2Proof.Machine
end

section
/-! Partner records follow their links, HELLO frames and timeouts (R384, R387, R405, R407). -/

namespace Sys2Proof.Machine

section
variable {s s0 m : State} {t : Mc} {f : RxFrame} {fr : Frame} {c : PartnerCfg} {p : Partner} {path : Nat} {rec : Fin 1088}

theorem remoteOn_of_run {h : Half} (run : running s = true) (grade : s.fuses.grade ≠ .c) (inRun : s.status.maint = false)
    (whole : s.halfReset = ⟨false, false⟩) : remoteOn s h = true := by
  have here : s.halfReset.get h = false := by rw [whole]; cases h <;> rfl
  simp [remoteOn, run, grade, inRun, here]

section
variable (relays : RelaysOpen m) (named : helloRecord m f = some c) (partner : getPartner m c.num = some p)
  (config : partnerCfg m c.num = some c) (arrives : arrivalPath c f = some path) (parsed : parseFrame f.bytes = some fr)
  (training : p.st = .training) (soon : m.time ≤ p.trainAt + trainingTime)
include relays named partner config arrives parsed training soon

/-- A valid HELLO in Training, with nothing outstanding. -/
theorem helloArrives_valid (quiet : m.rem.outReqs = []) (formed : helloForm m c fr = true) (package : fieldAt fr.data 0 2 = c.package)
    (revision : 2 ≤ fieldAt fr.data 2 1) :
    EventOnly (updPartner m c.num fun x => justActive (recordHello fr.data x)) (helloArrives m f) := by
  have event := checkHello_valid partner config quiet training formed package revision
  have relays' : RelaysOpen (checkHello m c fr) := by
    unfold RelaysOpen
    rw [event.rem]
    exact relays
  rw [helloArrives_training named partner arrives parsed training soon, settleRelays_open relays' 2]
  exact event

/-- A HELLO of another package, or with a MAXREV below 2, in Training. -/
theorem helloArrives_refused (only : ∀ y ∈ m.rem.partners, y.num = c.num → y = p)
    (idle : ∀ o ∈ m.rem.outReqs, o.num = c.num → o.waiting = false)
    (refused : fieldAt fr.data 0 2 ≠ c.package ∨ fieldAt fr.data 2 1 < 2) : Gone m (helloArrives m f) c.num p := by
  have gone := makeAbsent_gone partner only config idle
  have relays' : RelaysOpen (makeAbsent m c.num) := by
    unfold RelaysOpen
    rw [gone.inbound]
    exact fun x hx => relays x (List.mem_of_mem_filter hx)
  rw [helloArrives_training named partner arrives parsed training soon, checkHello_refused refused, settleRelays_open relays' 2]
  exact gone

end

end

/-- Settles O50: each command changes the one record of its number (`linkUp_trains`, `execLinkDown_counts`, `helloArrives_valid`,
`makeAbsent_gone`, `sendWakeSet_eq`), besides the partner-state event. -/
theorem partnersTrainAndDrop : Obligations.PartnersTrainAndDrop := by
  unfold Obligations.PartnersTrainAndDrop
  refine ⟨?_, ?_⟩
  · intro s0 t ⟨n, small⟩ c p h k f fr path s m run grade inRun whole awake relays config partner only each nodup now
    obtain rfl : c.num = n := by simpa using List.find?_some config
    have listed : c ∈ s.cfg.partners := List.mem_of_find?_eq_some config
    have shell : Shell s0 s := atTime_shell s0 t
    obtain ⟨power, beat⟩ : ∃ power, m = { s with power := power } := hostBeat_frame s f.half
    have remAt : m.rem = s.rem := by rw [beat]
    have runAt : m.run = s.run := by rw [beat]
    have partnerAt (j : Nat) : getPartner m j = getPartner s j := by simp only [getPartner, remAt]
    have relays' : RelaysOpen m := by unfold RelaysOpen; rw [remAt]; exact relays
    have partner' := (partnerAt c.num).trans partner
    have config' : partnerCfg m c.num = some c := by rw [beat]; exact config
    have named' (named : helloRecord s f = some c) : helloRecord m f = some c := by rw [beat]; exact named
    have served (typed : frameType f.bytes = 0xF0) {u : State} (serves : helloArrives m f = u) (kept : Shell m u) :
        exec (.hello t f) s0 = .next u := by
      have shell' : Shell s0 m := shell.trans (by rw [beat]; exact ⟨rfl, rfl, rfl⟩)
      rw [← (shell'.trans kept).answer, ← serves]
      exact execHello_served typed (remoteOn_of_run run grade inRun whole) awake
    refine ⟨?_, fun up => ?_, fun typed named => ⟨fun fenced => ?_, fun open' broken => ?_⟩, ?_⟩
    · have begun := foldl_trainOver_begun h k s.cfg.partners (withLink s h k)
      refine ⟨_, execLinkUp_trains rfl run grade whole inRun, ?_, fun absent route => ?_, fun stays => ?_, begun.run, begun.outReqs⟩
      · exact begun.links ▸ List.mem_append_right _ List.mem_cons_self
      · obtain ⟨i, route⟩ := Option.isSome_iff_exists.1 route
        obtain ⟨trained, sent⟩ := linkUp_trains (s := withLink s h k) listed each nodup partner route absent config
        exact ⟨_, i, trained, rfl, rfl, sent⟩
      · exact linkUp_stays (s := withLink s h k) listed each nodup partner stays
    · obtain ⟨u, effect, ps, d, rfl, found, since⟩ := execLinkDown_counts rfl run up partner
      exact ⟨_, effect, rfl, ⟨_, found, rfl, since⟩, rfl⟩
    · rw [← remAt]
      exact served typed ((helloArrives_fenced (named' named) partner' relays' fenced).trans (countDrop_eq m c.num)) ⟨rfl, rfl, rfl⟩
    · exact served typed (helloArrives_unparsed (named' named) partner' relays' open' broken) ⟨rfl, rfl, rfl⟩
    · intro parsed typed named arrives training soon formed
      have soon' : m.time ≤ p.trainAt + trainingTime := by rw [beat]; exact soon
      refine ⟨fun package revision quiet => ?_, fun refused idle => ?_⟩
      · have event := helloArrives_valid relays' (named' named) partner' config' arrives parsed training soon' (by rw [remAt]; exact quiet)
          (by rw [beat]; exact formed) package revision
        have found := (event.getPartner c.num).trans (getPartner_updPartner_same (fun _ => rfl) partner')
        refine ⟨_, served typed rfl (Shell.trans shell_updPartner event.shell),
          ⟨_, found, rfl, rfl, rfl, rfl, rfl, rfl, rfl, rfl, rfl, rfl⟩, fun j other => ?_, event.run.trans runAt⟩
        have kept := getPartner_updPartner_other (s := m) (f := fun x => justActive (recordHello fr.data x)) (fun _ => rfl) other
        exact (event.getPartner j).trans (kept.trans (partnerAt j))
      · have gone := helloArrives_refused relays' (named' named) partner' config' arrives parsed training soon'
          (by rw [remAt]; exact only) (by rw [remAt]; exact idle) refused
        refine ⟨_, served typed rfl gone.shell, gone.partner, fun j other => (gone.others j other).trans (partnerAt j), ?_, ?_,
          gone.run.trans runAt⟩
        · exact gone.inbound.trans (by rw [remAt])
        · exact gone.outReqs.trans (by rw [remAt])
  · intro s0 t ⟨n, small⟩ c p0 p due run config partner0 s partner only idle put gone
    obtain rfl : c.num = n := by simpa using List.find?_some config
    have config' : partnerCfg s c.num = some c := (partnerCfg_atTime s0 due c.num).trans config
    have answered {u : State} (kept : Shell s u) : answer s0 u = .next u := ((atTime_shell s0 due).trans kept).answer
    have absent := makeAbsent_gone partner only config' fun o ho at' => (idle o ho at').1
    have drops : gone (makeAbsent s c.num) :=
      ⟨absent.time, absent.partner, absent.others, absent.inbound, absent.outReqs, absent.run⟩
    refine ⟨fun now training => ⟨_, ?_, drops⟩, fun now up cut whole => ⟨_, ?_, drops⟩, ?_, fun w until' now => ?_⟩
    · exact (execTrainingTimeout_drops (congrArg (atTime s0) now.symm) run partner0 training).trans (answered absent.shell)
    · exact (execPathDown_drops (congrArg (atTime s0) now.symm) run config partner0 up cut whole).trans (answered absent.shell)
    · intro limit w now wake absent until' soon count
      have sends := execWakeOrderedSet_sends (congrArg (atTime s0) now.symm) run config wake partner0 absent until' (now ▸ soon)
      rw [sendWakeSet_eq config'] at sends
      exact ⟨_, sends.trans (answered ⟨rfl, rfl, rfl⟩), fun nodup path mem => setsOn_foldl_mem nodup mem, rfl⟩
    · exact (execWakeLimit_ends (congrArg (atTime s0) now.symm) run partner0 until' idle).trans (answered ⟨rfl, rfl, rfl⟩)

end Sys2Proof.Machine
end

section
/-! Responses (R388, R393): the outstanding request that a response answers, and what one that answers nothing is taken for. -/

namespace Sys2Proof.Machine

/-! ### Requests that are outstanding no more -/

/-- The request of `tag` toward record `num` is outstanding no more: besides, records of partners and billet counts of segments may have
changed from `s` to `u`. -/
def Dropped (s u : State) (num tag : Nat) : Prop := ∃ partners segs, u = { s with
  rem := { s.rem with outReqs := s.rem.outReqs.filter fun x => !(x.num == num && x.tag == tag), partners := partners }
  seg := { s.seg with segs := segs } }

section
variable {s s0 u v : State} {t : Mc} {f : RxFrame} {fr : Frame} {c : PartnerCfg} {p : Partner} {o : OutReq} {r : Request} {num tag : Nat}

theorem foldl_addInflight_frame (up : Bool) : ∀ (l : List (Nat × Nat × Bool)) (s : State),
    ∃ segs, l.foldl (addInflight up) s = { s with seg := { s.seg with segs := segs } }
  | [], s => ⟨s.seg.segs, rfl⟩
  | x :: l, s => by
    obtain ⟨segs, rest⟩ := foldl_addInflight_frame up l (addInflight up s x)
    exact ⟨segs, rest⟩

theorem dropOut_dropped (out : outReq s num tag = some o) : Dropped s (dropOut s num tag) num tag := by
  simp only [dropOut, out]
  obtain ⟨segs, counts⟩ := foldl_addInflight_frame false o.segs _
  exact ⟨_, segs, counts⟩

/-- A response of an Active record changes its record at most (R387). -/
theorem countOk_active (partner : getPartner s num = some p) (active : p.st = .active) :
    ∃ partners, countOk s num = { s with rem := { s.rem with partners := partners } } := by
  have notSlow : (PartnerSt.active == PartnerSt.slow) = false := rfl
  simp only [countOk, partner, active, notSlow, Bool.false_and, Bool.false_eq_true, if_false]
  exact ⟨_, rfl⟩

theorem dropOut_countOk (partner : getPartner s num = some p) (active : p.st = .active) (out : outReq s num tag = some o) :
    Dropped s (dropOut (countOk s num) num tag) num tag := by
  obtain ⟨partners, counts⟩ := countOk_active partner active
  obtain ⟨partners', segs, drops⟩ := dropOut_dropped (s := countOk s num) (o := o) (num := num) (tag := tag) (by rw [counts]; exact out)
  exact ⟨partners', segs, by rw [drops, counts]⟩

theorem outReq_some (out : outReq s num tag = some o) : o ∈ s.rem.outReqs ∧ o.num = num ∧ o.tag = tag := by
  have found := List.find?_some out
  simp only [Bool.and_eq_true, beq_iff_eq] at found
  exact ⟨List.mem_of_find?_eq_some out, found⟩

section
variable (dropped : Dropped s u num tag)
include dropped

theorem Dropped.shell : Shell s u := by
  obtain ⟨_, _, rfl⟩ := dropped
  exact ⟨rfl, rfl, rfl⟩

theorem Dropped.run : u.run = s.run := by
  obtain ⟨_, _, rfl⟩ := dropped
  rfl

theorem Dropped.inbound : u.rem.inbound = s.rem.inbound := by
  obtain ⟨_, _, rfl⟩ := dropped
  rfl

theorem Dropped.idle {k : Nat} (idle : ∀ x ∈ s.rem.outReqs, x.num = k → x.waiting = false) :
    ∀ x ∈ u.rem.outReqs, x.num = k → x.waiting = false := by
  obtain ⟨_, _, rfl⟩ := dropped
  exact fun x hx => idle x (List.mem_of_mem_filter hx)

theorem Dropped.outReq : outReq u num tag = none := by
  obtain ⟨_, _, rfl⟩ := dropped
  refine List.find?_eq_none.2 fun x hx at' => ?_
  have other := (List.mem_filter.1 hx).2
  rw [at'] at other
  cases other

end

/-! ### A response comes for a request -/

theorem noteActive_eq (each : OneRequestPerId s) (at' : getReq s r.id = some r) : noteActive s r.id = setReq s { r with active := s.time } := by
  have same : updWhere (fun x : Request => x.id == r.id) (fun x => { x with active := s.time }) s.run.reqs =
      updWhere (fun x => x.id == r.id) (fun _ => { r with active := s.time }) s.run.reqs :=
    List.map_congr_left fun x hx => by
      by_cases id : x.id = r.id
      · have found := getReq_of_mem each hx
        rw [id, at'] at found
        obtain rfl := Option.some.inj found
        rfl
      · simp [id]
  simp only [noteActive, same]
  rfl

/-- The request with the bytes of remote tag `tag`, which lie at global address `addr`. -/
def withBytes (r : Request) (tag addr : Nat) (bs : List SByte) : Request :=
  { r with rdata := r.rdata ++ (bs.zipIdx).map (fun x => (addr + x.2, x.1)), pass := { r.pass with sent := r.pass.sent.filter (· != tag) } }

theorem readArrived_eq {addr : Nat} {bs : List SByte} (at' : getReq s r.id = some r) :
    readArrived s r.id tag addr bs = setReq s (withBytes r tag addr bs) := by
  simp only [readArrived, at']
  rfl

/-- The response of a remote read: its bytes are the request's (R386). -/
theorem outAnswered_read {addr len : Nat} (purpose : o.purpose = .read addr len) (req : o.req = some r.id)
    (dropped : dropOut s o.num o.tag = v) (each : OneRequestPerId v) (at' : getReq v r.id = some r) :
    outAnswered s o fr = setReq v (withBytes { r with active := v.time } o.tag addr (markPayload fr.spoil fr.data)) := by
  have here := getReq_setReq (y := { r with active := v.time }) (getReq_some at').1 rfl
  simp only [outAnswered, purpose, req, dropped, noteActive_eq each at']
  exact (readArrived_eq (r := { r with active := v.time }) here).trans (setReq_setReq rfl)

/-- The ledger queue has room whatever its entries wait for. -/
theorem ledgerRoom_mapEntryNeeds {g : List Nat → List Nat} (room : LedgerRoom (getLedger s (partOfCtx s r.ctx)) 0) :
    LedgerRoom (getLedger (mapEntryNeeds s r g) (partOfCtx s r.ctx)) 0 := by
  have needs : getLedger (mapEntryNeeds s r g) (partOfCtx s r.ctx) = { getLedger s (partOfCtx s r.ctx) with
      waiting := updWhere (fun e => e.req == some r.id) (fun e => { e with needs := g e.needs }) (getLedger s (partOfCtx s r.ctx)).waiting } :=
    getLedger_updLedger (fun _ => rfl) rfl
  obtain ⟨enabled, free, fits⟩ := room
  rw [needs]
  refine ⟨enabled, fun e he => ?_, by simpa [updWhere] using fits⟩
  obtain ⟨x, hx, rfl⟩ := List.mem_map.1 he
  split <;> exact free x hx

/-- The request without the write of remote tag `tag`. -/
def withoutWrite (r : Request) (tag : Nat) : Request := { r with writes := r.writes.filter (· != tag) }

/-- The response of a remote write of a request that runs, whose effects are all done: its ledger entries may close (R416). -/
theorem writeAnswered_eq (at' : getReq s r.id = some r) (fin : r.fin = none) (effects : r.effects = [])
    (room : ledgered s r.ctx = true → LedgerRoom (getLedger s (partOfCtx s r.ctx)) 0) :
    ∃ l, writeAnswered s r.id tag = { setReq s (withoutWrite r tag) with ledgers := l } := by
  have same : { r with writes := r.writes.filter (· != tag)
                       effects := (r.effects.filter fun e => !isRsignal tag e).map (mapNeeds fun l => l.filter (· != tag)) } =
      withoutWrite r tag := by simp [withoutWrite, effects]
  have stands : StandsIn (setReq s (withoutWrite r tag)) (withoutWrite r tag) := standsIn_setReq ⟨r, (getReq_some at').1, rfl⟩
  obtain ⟨l, releases, -⟩ := releaseEffects_stay (u := mapEntryNeeds (setReq s (withoutWrite r tag)) r fun l => l.filter (· != tag))
    (stands.withLedgers _) fin (fun _ => effectsStay_nil effects)
    (fun led => ledgerRoom_mapEntryNeeds (s := setReq s (withoutWrite r tag)) (room led))
  refine ⟨l, ?_⟩
  simp only [writeAnswered, at', same]
  exact releases

/-- The response of a remote write (R388). -/
theorem outAnswered_write (purpose : o.purpose = .write) (req : o.req = some r.id) (dropped : dropOut s o.num o.tag = v)
    (each : OneRequestPerId v) (at' : getReq v r.id = some r) (fin : r.fin = none) (effects : r.effects = [])
    (room : ledgered v r.ctx = true → LedgerRoom (getLedger v (partOfCtx v r.ctx)) 0) :
    ∃ l, outAnswered s o fr = { setReq v (withoutWrite { r with active := v.time } o.tag) with ledgers := l } := by
  obtain ⟨l, answers⟩ := writeAnswered_eq (r := { r with active := v.time }) (tag := o.tag)
    (getReq_setReq (r := r) (getReq_some at').1 rfl) fin effects room
  have same := setReq_setReq (s := v) (x := { r with active := v.time }) (y := withoutWrite { r with active := v.time } o.tag) rfl
  refine ⟨l, ?_⟩
  simp only [outAnswered, purpose, req, dropped, noteActive_eq each at']
  exact answers.trans (congrArg (fun u : State => { u with ledgers := l }) same)

/-! ### A frame of TYPE RESPONSE -/

/-- The first element that meets one test, and meets another one too. -/
theorem find?_and {α : Type} {a b : α → Bool} : ∀ {l : List α} {x : α}, l.find? a = some x → b x = true → l.find? (fun y => a y && b y) = some x
  | y :: l, x, found, also => by
    by_cases meets : a y = true
    · obtain rfl : y = x := by simpa [meets] using found
      simp [meets, also]
    · simp only [List.find?_cons, meets] at found ⊢
      exact find?_and found also

/-- A well-formed response that reaches a port which is on, in a half that is awake, for an Active record. -/
theorem execResponse_served (on : remoteOn (hostAt s0 t f.half) f.half = true) (awake : (hostAt s0 t f.half).power.glow.get f.half = false)
    (parsed : parseFrame f.bytes = some fr) (named : recordOf (hostAt s0 t f.half) (fr.src % 2 ^ 14) = some c)
    (partner : getPartner (hostAt s0 t f.half) c.num = some p) (active : p.st = .active)
    (formed : responseForm (hostAt s0 t f.half) c p f fr = true) :
    execResponse t f s0 = answer s0 (settleRelays 2 (takeResponse (hostAt s0 t f.half) c p f)) := by
  obtain ⟨type, source⟩ := parseFrame_header parsed
  simp only [responseForm, Bool.and_eq_true, decide_eq_true_eq] at formed
  obtain ⟨⟨⟨⟨-, low⟩, high⟩, -⟩, -⟩ := formed
  rw [type] at low high
  have row : (decide (0x81 ≤ frameType f.bytes) && decide (frameType f.bytes ≤ 0x85)) = true := by simp [low, high]
  have inRow : (decide (frameType f.bytes < 0x81) || decide (frameType f.bytes > 0x85)) = false := by
    simp only [Bool.or_eq_false_iff, decide_eq_false_iff_not]
    omega
  have serves : responseFrame (hostAt s0 t f.half) f = settleRelays 2 (takeResponse (hostAt s0 t f.half) c p f) := by
    simp only [responseFrame, inRow, ← source, named, partner, active, Bool.false_eq_true, if_false]
  have beat : frameBeat responseFrame (atTime s0 t) f = responseFrame (hostAt s0 t f.half) f := frameBeat_awake on awake
  rw [← serves, ← beat]
  simp only [execResponse, row, if_true]

theorem find?_unanswered (none : ∀ x ∈ s.rem.outReqs, x.num = c.num → x.tag ≠ fr.tag) :
    s.rem.outReqs.find? (fun x => x.num == c.num && x.tag == fr.tag && decide (x.attempts > 0)) = Option.none := by
  refine List.find?_eq_none.2 fun x hx meets => ?_
  simp only [Bool.and_eq_true, beq_iff_eq] at meets
  exact none x hx meets.1.1 meets.1.2

section
variable (parsed : parseFrame f.bytes = some fr) (formed : responseForm s c p f fr = true)
include parsed formed

/-- An OK response ends the request that it answers. -/
theorem takeResponse_answers (out : outReq s c.num fr.tag = some o) (sent : 0 < o.attempts)
    (fits : answersReq o.ty o.rlen (o.seq.getD 0) fr = true) (ok : fieldAt fr.arg 0 2 = 0) :
    takeResponse s c p f = pump (outAnswered (countOk s c.num) o fr) c.num := by
  have found := find?_and (b := fun x => decide (x.attempts > 0)) out (by simpa using sent)
  have isOk : (fieldAt fr.arg 0 2 == stOk) = true := by rw [ok]; rfl
  simp only [takeResponse, parsed, formed, found, fits, isOk, Bool.not_true, Bool.false_eq_true, if_false, if_true]

section
variable (none : ∀ x ∈ s.rem.outReqs, x.num = c.num → x.tag ≠ fr.tag)
include none

/-- A response to a request that has ended within the last 1 ms counts as late (R393). -/
theorem takeResponse_late {x : DoneReq} (done : x ∈ p.recent) (tag : x.tag = fr.tag) (soon : s.time < x.ended + 2100000)
    (fits : answersReq x.ty x.rlen x.seq fr = true) :
    takeResponse s c p f = updPartner s c.num fun p => { p with late := capAt 0xFFFF (p.late + 1) } := by
  have found := find?_unanswered none
  have late : (p.recent.any fun r => r.tag == fr.tag && decide (s.time < r.ended + 2100000) && answersReq r.ty r.rlen r.seq fr) = true :=
    List.any_eq_true.2 ⟨x, done, by simp [tag, soon, fits]⟩
  simp only [takeResponse, parsed, formed, found, late, Bool.not_true, Bool.false_eq_true, if_false, if_true]

/-- A response that answers nothing is a violation (R393). -/
theorem takeResponse_stray (stray : ∀ x ∈ p.recent, x.tag = fr.tag → x.ended + 2100000 ≤ s.time ∨ answersReq x.ty x.rlen x.seq fr = false) :
    takeResponse s c p f = violate s c.num := by
  have found := find?_unanswered none
  have late : (p.recent.any fun r => r.tag == fr.tag && decide (s.time < r.ended + 2100000) && answersReq r.ty r.rlen r.seq fr) = false :=
    List.any_eq_false.2 fun x hx meets => by
      simp only [Bool.and_eq_true, beq_iff_eq, decide_eq_true_eq] at meets
      obtain ⟨⟨tag, soon⟩, fits⟩ := meets
      rcases stray x hx tag with old | unfit
      · exact absurd soon (Nat.not_lt.2 old)
      · rw [fits] at unfit
        cases unfit
  simp only [takeResponse, parsed, formed, found, late, Bool.not_true, Bool.false_eq_true, if_false]

end

end

/-- The first violation of a record for 1 ms is counted (R397). -/
theorem violate_first (partner : getPartner s num = some p) (first : p.violTimes = []) : violate s num = updPartner s num fun p =>
    { p with violTimes := [s.time], violations := capAt 0xFFFF (p.violations + 1) } := by
  have few : (decide ([s.time].length ≥ 16) && p.st != .fenced) = false := rfl
  simp only [violate, partner, first, List.filter_nil, few, Bool.false_eq_true, if_false]

end

end Sys2Proof.Machine
end

section
/-! Timeouts of attempts (R387, R388, R392): the record becomes Slow, the request is sent again under its tag, and after four attempts it ends. -/

namespace Sys2Proof.Machine

section
variable {s s0 u v : State} {t : Mc} {c : PartnerCfg} {p : Partner} {o y : OutReq} {r : Request} {num tag : Nat}

/-- The record whose attempt of the request `o` has timed out (R387). -/
def slowed (o : OutReq) (p : Partner) : Partner :=
  { p with timeouts := capAt 0xFFFF (p.timeouts + 1), okRun := 0, badPath := some o.path, st := .slow }

/-- The machine in which an attempt of the request `o` toward the Active record `num` has timed out. -/
def attemptLost (s : State) (num : Nat) (o : OutReq) : State :=
  setPartner (updPartner s num fun p => { p with timeouts := capAt 0xFFFF (p.timeouts + 1), okRun := 0, badPath := some o.path }) num .slow

theorem attemptLost_event (partner : getPartner s num = some p) (active : p.st = .active) (config : partnerCfg s num = some c) :
    EventOnly (updPartner s num (slowed o)) (attemptLost s num o) := by
  have counted := getPartner_updPartner_same
    (f := fun p => { p with timeouts := capAt 0xFFFF (p.timeouts + 1), okRun := 0, badPath := some o.path }) (fun _ => rfl) partner
  have event := setPartner_moves (st := .slow) counted config (by simp [active])
  rwa [updPartner_updPartner
    (f := fun p => { p with timeouts := capAt 0xFFFF (p.timeouts + 1), okRun := 0, badPath := some o.path }) fun _ => rfl] at event

/-- An attempt of the request `o` toward record `num` has been lost from `s` to `u`: its record `p` is Slow, and no other part of the machine that
remote requests need has changed. -/
structure Lost (s u : State) (num : Nat) (o : OutReq) (p : Partner) : Prop where
  shell   : Shell s u
  time    : u.time = s.time
  cfg     : u.cfg = s.cfg
  run     : u.run = s.run
  outReqs : u.rem.outReqs = s.rem.outReqs
  inbound : u.rem.inbound = s.rem.inbound
  partner : getPartner u num = some (slowed o p)

theorem attemptLost_lost (partner : getPartner s num = some p) (active : p.st = .active) (config : partnerCfg s num = some c) :
    Lost s (attemptLost s num o) num o p := by
  have event := attemptLost_event (o := o) partner active config
  have slow := (event.getPartner num).trans (getPartner_updPartner_same (f := slowed o) (fun _ => rfl) partner)
  exact ⟨shell_updPartner.trans event.shell, event.time, event.cfg, event.run, by rw [event.rem]; rfl, by rw [event.rem]; rfl, slow⟩

/-- ATTEMPT_TIMEOUT of a request toward an Active record. -/
theorem execAttemptTimeout_lost {rec : Fin 1088} {bits : BitVec 32} (due : atTime s0 (max t (o.sentAt + mcOf c.timeout)) = s)
    (run : running s0 = true) (config : partnerCfg s0 rec.val = some c) (out : outReq s0 rec.val bits.toNat = some o)
    (going : o.waiting = false) (sent : 0 < o.attempts) (whole : s0.halfReset = ⟨false, false⟩)
    (partner : getPartner s c.num = some p) (active : p.st = .active) :
    execAttemptTimeout t rec bits s0 = if o.attempts < 4 then answer s0 (retryOut (attemptLost s c.num o) c.num o.tag)
      else answerRelays s0 (pump (outTimedOut (attemptLost s c.num o) o) c.num) := by
  have here : s0.halfReset.get c.half = false := by rw [whole]; cases c.half <;> rfl
  have tried : (o.attempts == 0) = false := by simpa using sent.ne'
  have wasActive := getPartner_updPartner_same
    (f := fun p => { p with timeouts := capAt 0xFFFF (p.timeouts + 1), okRun := 0, badPath := some o.path }) (fun _ => rfl) partner
  simp only [execAttemptTimeout, config, out, run, going, tried, here, Bool.not_true, Bool.or_self, Bool.false_eq_true, if_false, due,
    wasActive, Option.map_some, active, beq_self_eq_true, Option.getD_some, if_true]
  rfl

/-! ### A further attempt -/

/-- The request as an attempt at the present mc on path `path` leaves it. -/
def attemptedAt (s : State) (o : OutReq) (path : Nat) : OutReq :=
  { o with attempts := o.attempts + 1, path := path, sentAt := s.time, waiting := false }

/-- The request as its further attempt falls due. -/
def dueAgain (o : OutReq) : OutReq := { o with waiting := true }

theorem outReq_updOut (g : OutReq → OutReq) (keeps : ∀ x, x.num = num → x.tag = tag → (g x).num = num ∧ (g x).tag = tag) :
    outReq (updOut s num tag g) num tag = (outReq s num tag).map g := by
  have same (x : OutReq) : ((if x.num == num && x.tag == tag then g x else x).num == num &&
      (if x.num == num && x.tag == tag then g x else x).tag == tag) = (x.num == num && x.tag == tag) := by
    split
    · rename_i at'
      obtain ⟨hn, ht⟩ := Bool.and_eq_true_iff.1 at'
      obtain ⟨hn', ht'⟩ := keeps x (by simpa using hn) (by simpa using ht)
      rw [at', hn', ht', beq_self_eq_true, beq_self_eq_true, Bool.and_self]
    · rfl
  simp only [outReq, updOut, updWhere]
  rw [find?_map_of_keeps same]
  cases found : s.rem.outReqs.find? fun x => x.num == num && x.tag == tag with
  | none => rfl
  | some x =>
    have at' := List.find?_some found
    simp only [Option.map_some, at', if_true]

/-- A request that is in flight toward a record that is up is attempted anew, under its tag and SEQ (R388). -/
theorem sendAttempt_again (config : partnerCfg s num = some c) (partner : getPartner s num = some p) (up : isUp p = true)
    (out : outReq s num tag = some o) (sent : 0 < o.attempts) (numbered : o.seq ≠ none ∨ isWriteClass o.ty = false) (wire : o.onWire = true) :
    ∃ path frames, sendAttempt s num tag =
      { updOut s num tag (fun _ => attemptedAt s o path) with out := { s.out with frames := frames } } := by
  have notFirst : (o.attempts == 0) = false := by simpa using sent.ne'
  have notFresh : (true && isWriteClass o.ty && o.seq.isNone) = false := by
    rcases numbered with seq | read
    · obtain ⟨k, seq⟩ := Option.ne_none_iff_exists'.1 seq
      simp [seq]
    · simp [read]
  have onWire : (o.onWire || true) = o.onWire := by rw [wire, Bool.true_or]
  simp only [sendAttempt, config, partner, out, notFirst, up, notFresh, onWire, Bool.false_eq_true, if_false, if_true]
  exact ⟨_, _, rfl⟩

theorem pumpOne_inFlight (config : partnerCfg s num = some c) (partner : getPartner s num = some p) (up : isUp p = true)
    (out : outReq s num tag = some o) (waits : o.waiting = true) (wire : o.onWire = true) : pumpOne num s tag = sendAttempt s num tag := by
  have awake : waitsForWake c p o = false := by simp [waitsForWake, up]
  have room : hasRoom s p o = true := by simp [hasRoom, wire]
  simp only [pumpOne, config, partner, out, waits, awake, room, Bool.not_true, Bool.false_eq_true, if_false, Bool.or_true, if_true]

theorem retryOut_again (config : partnerCfg s num = some c) (partner : getPartner s num = some p) (up : isUp p = true)
    (out : outReq s num tag = some o) (sent : 0 < o.attempts) (numbered : o.seq ≠ none ∨ isWriteClass o.ty = false) (wire : o.onWire = true) :
    ∃ path frames outReqs, retryOut s num tag =
        { s with rem := { s.rem with outReqs := outReqs }, out := { s.out with frames := frames } } ∧
      outReqs.find? (fun x => x.num == num && x.tag == tag) = some (attemptedAt s o path) := by
  have waits : outReq (updOut s num tag dueAgain) num tag = some (dueAgain o) := by
    rw [outReq_updOut dueAgain fun x hn ht => ⟨hn, ht⟩, out, Option.map_some]
  obtain ⟨path, frames, sends⟩ := sendAttempt_again (s := updOut s num tag dueAgain) config partner up waits sent numbered wire
  obtain ⟨-, hn, ht⟩ := outReq_some out
  have found : outReq (updOut (updOut s num tag dueAgain) num tag fun _ => attemptedAt s o path) num tag = some (attemptedAt s o path) := by
    rw [outReq_updOut (fun _ => attemptedAt s o path) fun _ _ _ => ⟨hn, ht⟩, waits, Option.map_some]
  exact ⟨path, frames, _, (pumpOne_inFlight (s := updOut s num tag dueAgain) config partner up waits rfl wire).trans sends, found⟩

/-! ### The last attempt -/

theorem noteCause_id (r : Request) (status : Nat) : (noteCause r status).id = r.id := by
  unfold noteCause
  dsimp only
  split
  · split <;> rfl
  · rfl

/-- The first continuing cause of a request is kept (R116). -/
theorem noteCause_first (none : r.cause = none) (status : Nat) : noteCause r status =
    { r with cause := some (status, wordDetail r), pass := { r.pass with onlyLines := status == stOkSpoiled } } := by
  simp only [noteCause, none]

/-- After its last attempt a read's bytes are delivered spoiled, with PARTNER_TIMEOUT (R392). -/
theorem outTimedOut_read {addr len : Nat} (purpose : o.purpose = .read addr len) (req : o.req = some r.id)
    (dropped : dropOut s o.num o.tag = v) (at' : getReq v r.id = some r) :
    outTimedOut s o = setReq v (withBytes (noteCause r stPartnerTimeout) o.tag addr
      ((List.range len).map fun i => (Config.unreadByte s.time (addr + i), true))) := by
  have id := noteCause_id r stPartnerTimeout
  have here := getReq_setReq (y := noteCause r stPartnerTimeout) (getReq_some at').1 id
  rw [← id] at here
  have read := readArrived_eq (tag := o.tag) (addr := addr)
    (bs := (List.range len).map fun i => (Config.unreadByte s.time (addr + i), true)) here
  rw [id] at read
  simp only [outTimedOut, purpose, req, dropped, at']
  exact read.trans (setReq_setReq rfl)

end

end Sys2Proof.Machine
end

section
/-! Responses and timeouts end outstanding remote requests (R386 to R393). -/

namespace Sys2Proof.Machine

section
variable {s s0 v : State} {t : Mc} {f : RxFrame} {fr : Frame} {c : PartnerCfg} {p : Partner} {o : OutReq} {r : Request} {num tag : Nat}

theorem relaysOpen_congr {u : State} (relays : RelaysOpen s) (same : u.rem.inbound = s.rem.inbound) : RelaysOpen u := by
  unfold RelaysOpen
  rw [same]
  exact relays

/-- The requests of a machine in which a remote request has been dropped are those of before. -/
theorem Dropped.requests (dropped : Dropped s v num tag) (each : OneRequestPerId s) (found : getReq s r.id = some r) :
    OneRequestPerId v ∧ getReq v r.id = some r := by
  unfold OneRequestPerId getReq
  rw [dropped.run]
  exact ⟨each, found⟩

/-- A request's last attempt has timed out, and its bytes are spoiled: nothing that waits is sent or answered by that. -/
theorem answerRelays_dropped {y : Request} (shell : Shell s0 s) (relays : RelaysOpen s)
    (idle : ∀ x ∈ s.rem.outReqs, x.num = num → x.waiting = false) (dropped : Dropped s v num tag) :
    answerRelays s0 (pump (setReq v y) num) = .next (setReq v y) := by
  have shell' := dropped.shell
  have pumped : pump (setReq v y) num = setReq v y := pump_idle (dropped.idle idle)
  rw [answerRelays, pumped, settleRelays_open (relaysOpen_congr (u := setReq v y) relays dropped.inbound) 2]
  exact Shell.answer (shell.trans ⟨shell'.pending, shell'.fuses, shell'.flash⟩)

end

/-- Settles O51: a response is matched with the one outstanding request of its tag (`takeResponse_answers`), and the loss of an attempt either
sends the request again (`retryOut_again`) or ends it (`outTimedOut_read`). -/
theorem responsesAndTimeoutsEndRequests : Obligations.ResponsesAndTimeoutsEndRequests := by
  unfold Obligations.ResponsesAndTimeoutsEndRequests
  refine ⟨?_, ?_⟩
  · intro s0 t ⟨n, small⟩ c p o f fr path r s on awake relays parsed named at' config partner only active arrives formed idle found fin effects
      each room rest bytes
    obtain rfl : c.num = n := at'
    have served {u : State} (takes : takeResponse s c p f = u) (waits : u.rem.inbound = s.rem.inbound) (kept : Shell s u) :
        exec (.response t f) s0 = .next u := by
      have effect := execResponse_served on awake parsed named partner active formed
      rw [takes, settleRelays_open (relaysOpen_congr relays waits) 2] at effect
      exact effect.trans (answer_hostAt_eq kept.pending kept.fuses kept.flash)
    refine ⟨fun out sent fits ok req one => ?_, fun none => ⟨fun x done tag soon fits => ?_, fun stray first => ?_⟩⟩
    · obtain ⟨-, hn, ht⟩ := outReq_some out
      obtain ⟨v, hv⟩ : ∃ v, dropOut (countOk s c.num) o.num o.tag = v := ⟨_, rfl⟩
      have dropped : Dropped s v c.num fr.tag := by
        rw [← hv, hn, ht]
        exact dropOut_countOk partner active out
      obtain ⟨each', found'⟩ := dropped.requests each found
      have ends {y : Request} {l : List LedgerSt} (answers : outAnswered (countOk s c.num) o fr = { setReq v y with ledgers := l }) :
          exec (.response t f) s0 = .next { setReq v y with ledgers := l } := by
        have takes := takeResponse_answers parsed formed out sent fits ok
        rw [answers] at takes
        have shell := dropped.shell
        exact served (takes.trans (pump_idle (dropped.idle idle))) dropped.inbound ⟨shell.pending, shell.fuses, shell.flash⟩
      have here (y : Request) (id : y.id = r.id) := getReq_setReq (y := y) (getReq_some found').1 id
      refine ⟨fun addr len purpose => ?_, fun purpose => ?_⟩
      · have reads := outAnswered_read (fr := fr) purpose req hv each' found'
        rw [ht] at reads
        have effect := ends (l := v.ledgers) reads
        have at'' := here (withBytes { r with active := v.time } fr.tag addr (markPayload fr.spoil fr.data)) rfl
        obtain ⟨partners, segs, rfl⟩ := dropped
        exact ⟨_, effect, rfl, at'', rfl⟩
      · obtain ⟨l, writes⟩ := outAnswered_write (fr := fr) purpose req hv each' found' fin effects (by
          obtain ⟨partners, segs, rfl⟩ := dropped
          exact room)
        rw [ht] at writes
        have effect := ends writes
        have at'' := here (withoutWrite { r with active := v.time } fr.tag) rfl
        obtain ⟨partners, segs, rfl⟩ := dropped
        exact ⟨_, effect, rfl, at'', rfl⟩
    · have takes := takeResponse_late parsed formed none done tag soon fits
      simp only [updPartner_eq, capAt_eq_min] at takes
      exact served takes rfl ⟨rfl, rfl, rfl⟩
    · have takes := (takeResponse_stray parsed formed none stray).trans (violate_first partner first)
      simp only [updPartner_eq, capAt_eq_min] at takes
      exact served takes rfl ⟨rfl, rfl, rfl⟩
  · intro s0 t ⟨n, small⟩ tag c p o r run config out0 whole at' s partner only active out idle sent relays found fin
    obtain rfl : c.num = n := at'
    obtain ⟨mem, hn, ht⟩ := outReq_some out
    have config' : partnerCfg s c.num = some c := (partnerCfg_atTime s0 _ c.num).trans config
    have times := execAttemptTimeout_lost rfl run config out0 (idle o mem hn) sent whole partner active
    have lost := attemptLost_lost (o := o) partner active config'
    generalize attemptLost _ c.num o = v at times lost
    have shell : Shell s0 v := (atTime_shell s0 _).trans lost.shell
    have outAt : outReq v c.num tag.toNat = some o := by rw [outReq, lost.outReqs]; exact out
    refine ⟨fun few numbered wire => ?_, fun addr len many purpose req cause => ?_⟩
    · have configAt : partnerCfg v c.num = some c := by rw [partnerCfg, lost.cfg]; exact config'
      obtain ⟨path, frames, outReqs, retries, again⟩ := retryOut_again configAt lost.partner rfl outAt sent numbered wire
      have same : attemptedAt v o path = { o with attempts := o.attempts + 1, path := path, sentAt := v.time } := by
        simp [attemptedAt, idle o mem hn]
      rw [if_pos few, ht, retries] at times
      rw [same] at again
      exact ⟨_, path, times.trans (Shell.answer ⟨shell.pending, shell.fuses, shell.flash⟩), lost.time, again,
        ⟨_, lost.partner, rfl, capAt_eq_min _ _⟩, lost.run⟩
    · obtain ⟨w, hw⟩ : ∃ w, dropOut v o.num o.tag = w := ⟨_, rfl⟩
      have dropped : Dropped v w c.num tag.toNat := by
        rw [← hw, hn, ht]
        exact dropOut_dropped outAt
      have found' : getReq w r.id = some r := by rw [getReq, dropped.run, lost.run]; exact found
      rw [if_neg (Nat.not_lt.2 many), outTimedOut_read purpose req hw found',
        answerRelays_dropped shell (relaysOpen_congr relays lost.inbound) (by rw [lost.outReqs]; exact idle) dropped,
        noteCause_first cause] at times
      refine ⟨_, times, dropped.outReq, _, getReq_setReq (getReq_some found').1 rfl, rfl, ?_, fun x hx => ?_⟩
      · simp [withBytes]
      · simp only [withBytes, List.drop_left] at hx
        obtain ⟨y, hy, rfl⟩ := List.mem_map.1 hx
        obtain ⟨i, -, same⟩ := List.mem_map.1 (List.fst_mem_of_mem_zipIdx hy)
        exact (congrArg Prod.snd same).symm

end Sys2Proof.Machine
end

section
/-! The end of a reduction's epoch (R400 to R404): the completion counter's signal, the destination write of one plain piece, and the next
epoch. -/

namespace Sys2Proof.Machine

section
variable {s s0 : State} {t : Mc} {d : RedCfg} {x : EpochSt} {q : Piece} {bs : List SByte}

/-! ### Events that the mover makes by itself -/

/-- What the passing of time keeps, the wait for a condition keeps. -/
theorem passUntil_keeps {P : State → Prop} (keeps : ∀ (u : State) (t : Mc), P u → P (atTime u t)) (p : State → Bool) :
    ∀ (n : Nat) {u : State}, P u → P (passUntil p n u)
  | 0, _, holds => holds
  | n + 1, u, holds => by
    unfold passUntil
    split
    · exact holds
    · split
      · exact passUntil_keeps keeps p n (keeps u _ holds)
      · exact holds

theorem whenReady_keeps {P : State → Prop} (keeps : ∀ (u : State) (t : Mc), P u → P (atTime u t)) (p : State → Bool) (holds : P s) :
    P (whenReady s t p) := by
  unfold whenReady
  dsimp only
  split
  · exact passUntil_keeps keeps p _ (keeps s t holds)
  · exact keeps s t holds

/-! ### The signal of the completion counter -/

/-- A completion counter of the own package is signalled from the half that homes the reduction (R403). -/
theorem signalEpoch_sends {v k : Nat} {a b : Bool} (counter : d.counter = some v) (entry : vEntry s d.ctx v = .loc k a b)
    (whole : s.halfReset = ⟨false, false⟩) : signalEpoch s d = signalled s k 1 (redHome s d.ctx) := by
  have reached : s.halfReset.get (homeOfCtr k) = false := by rw [whole]; cases homeOfCtr k <;> rfl
  simp only [signalEpoch, counter, entry, sendUpdate, reached, Bool.false_and, Bool.false_eq_true, if_false, signalled]

/-! ### The destination write -/

theorem mem_of_mem_piecesOf {α : Type} {a : Nat} {bs : List α} {x : Nat × List α} {y : α} (piece : x ∈ piecesOf a bs) (mem : y ∈ x.2) :
    y ∈ bs := by
  rw [← piecesOf_flatten a bs]
  exact List.mem_flatMap.2 ⟨x, piece, mem⟩

/-- A line that writes a piece without a key is one write, of bytes among those that are written. -/
theorem writeAsks_plain (plain : PlainPiece s q) {ask : LineAsk} (mem : ask ∈ writeAsks s [q] bs) :
    ask.merge = false ∧ ∀ m, ask.load = some m → ∀ y ∈ m.data, y ∈ bs := by
  simp only [writeAsks, List.append_nil] at mem
  split at mem
  · obtain ⟨piece, hp, mem⟩ := List.mem_flatMap.1 mem
    simp only [partAsks, mergeAsks, plain.key, Option.isSome_none, Bool.false_and, Bool.false_eq_true, if_false, List.nil_append,
      List.mem_singleton] at mem
    subst mem
    refine ⟨rfl, fun m load y hy => List.mem_of_mem_take (i := q.len) (mem_of_mem_piecesOf hp ?_)⟩
    obtain rfl := Option.some.inj load
    exact hy
  · exact absurd mem List.not_mem_nil

/-- The memory ports once an epoch's destination write has its lines at the piece. -/
def destArb (s : State) (d : RedCfg) (q : Piece) (bs : List SByte) : Arbiters :=
  (addOthers s (.epoch d.ctx d.red) 0 fun n => linesOfAsks s true .write none (touched d.ctx [q]) n (writeAsks s [q] bs)).arb

/-- What the destination write leaves at the memory ports: outside HBM nothing, and in HBM the lines that write its bytes. -/
theorem destArb_lines (plain : PlainPiece s q) : (destArb s d q bs).ports = s.arb.ports ∧ (inHbm s q = false → destArb s d q bs = s.arb) ∧
    ∀ l, l ∈ (destArb s d q bs).others → l ∉ s.arb.others → l.who = .epoch d.ctx d.red ∧ l.line.write = true ∧
      ∀ m, l.line.load = some m → ∀ y ∈ m.data, y ∈ bs := by
  refine ⟨rfl, fun far => by simp [destArb, addOthers, writeAsks, linesOfAsks, far], fun l mem new => ?_⟩
  rcases List.mem_append.1 mem with old | mem
  · exact absurd old new
  · obtain ⟨line, hl, rfl⟩ := List.mem_map.1 mem
    obtain ⟨ask, ha, rfl⟩ := List.mem_map.1 hl
    obtain ⟨single, bytes⟩ := writeAsks_plain plain (List.fst_mem_of_mem_zipIdx ha)
    exact ⟨rfl, by simp [lineAt, single], bytes⟩

/-- A destination of one plain piece takes the write (R403). -/
theorem writeDest_plain (plain : PlainPiece s q) (translates : translate s d.ctx [(d.dest, d.length, .w)] = .ok [q])
    (size : bs.length = q.len) (e : Nat) :
    writeDest s d e bs = some { s with arb := destArb s d q bs, mem := memAfter s .remote q bs } := by
  have fits : bs.take q.len = bs := by rw [← size, List.take_length]
  have stores := storePiece_plain (w := .remote) (ctx := d.ctx) (bs := bs) (plainPiece_arb (a := destArb s d q bs) plain)
  simp only [writeDest, translates, touchBlocks_plain (plainPiece_singleton plain), destPieces, plain.pkg, Option.isSome_none,
    Bool.false_eq_true, if_false, fits]
  exact congrArg some stores

/-- An epoch that ends after its timeout, where the destination takes the write and the partition's batch is open (R403). -/
theorem spoilEpoch_plain {v k : Nat} {a b : Bool} {fq : FaultQ} (plain : PlainPiece s q)
    (translates : translate s d.ctx [(d.dest, d.length, .w)] = .ok [q]) (size : q.len = d.length) (counter : d.counter = some v)
    (entry : vEntry s d.ctx v = .loc k a b) (whole : s.halfReset = ⟨false, false⟩) (batch : BatchOpen s (partOfCtx s d.ctx) fq)
    (small : d.red < 4096) : spoilEpoch s d x false = { s with
      arb := destArb s d q (spoiledZeros d.length)
      mem := memAfter s .remote q (spoiledZeros d.length)
      ctr := (signalled s k 1 (redHome s d.ctx)).ctr
      seg := withEvent s (partOfCtx s d.ctx) (eventRec 0x000F d.ctx false (d.red + x.e * 2 ^ 32) (missingRank d x) s.time)
      rem := { s.rem with
        epochs := epochsWith s { nextEpoch x with timedOut := x.timedOut ++ [(x.e, x.chunks.map fun c => (c.1, c.2.1))] } } } := by
  have length : (spoiledZeros d.length).length = q.len := by simp [spoiledZeros, zeros, size]
  have writes := writeDest_plain plain translates length x.e
  have signals := signalEpoch_sends (d := d)
    (s := { s with arb := destArb s d q (spoiledZeros d.length), mem := memAfter s .remote q (spoiledZeros d.length) }) counter entry whole
  have event := ctxEvent_open (s := { s with
      arb := destArb s d q (spoiledZeros d.length), mem := memAfter s .remote q (spoiledZeros d.length), ctr := (signalled s k 1 (redHome s d.ctx)).ctr })
    (ctx := d.ctx) (batchOpen_congr batch rfl) 0x000F (d.red + x.e * 2 ^ 32) (missingRank d x)
  have object : d.red % 4096 + x.e * 2 ^ 32 = d.red + x.e * 2 ^ 32 := by rw [Nat.mod_eq_of_lt small]
  simp only [spoilEpoch, writes, signals, epochEvent, object, Bool.false_eq_true, if_false, Nat.add_zero]
  exact congrArg (setEpoch · _) event

/-! ### Commands -/

theorem epochsWith_at {y : EpochSt} {ctx red : Nat} (ofCtx : y.ctx = ctx) (ofRed : y.red = red) :
    epochsWith s y = (s.rem.epochs.filter fun z => !(z.ctx == ctx && z.red == red)) ++ [y] := by
  rw [epochsWith, ofCtx, ofRed]

/-- EPOCH_COMPLETE of a summed epoch whose destination write is answered (R403). -/
theorem execEpochComplete_ends {ctx : Fin 256} {red : Fin 4096} {v k : Nat} {a b : Bool}
    (now : whenReady s0 t (fun x => !otherOpen x (.epoch ctx.val red.val)) = s) (run : running s = true)
    (config : redCfg s ctx.val red.val = some d) (counter : d.counter = some v) (entry : vEntry s d.ctx v = .loc k a b)
    (whole : s.halfReset = ⟨false, false⟩) (epoch : getEpoch s ctx.val red.val = x) (summed : x.summed = true) (intact : x.failed = false)
    (answered : destOutstanding s x = false) :
    execEpochComplete t ctx red s0 = answer s0 { s with
      ctr := (signalled s k 1 (redHome s d.ctx)).ctr, rem := { s.rem with epochs := epochsWith s (nextEpoch x) } } := by
  have stays : sumEpoch s d x = s := by simp [sumEpoch, summed]
  simp only [execEpochComplete, now, config, run, epoch, stays, summed, intact, answered, Bool.not_false, Bool.and_self, if_true,
    signalEpoch_sends counter entry whole]
  rfl

/-- EPOCH_TIMEOUT of an open epoch whose contributions are not all stored (R403). -/
theorem execEpochTimeout_spoils {ctx : Fin 256} {red : Fin 4096} (run : running s0 = true) (config : redCfg s0 ctx.val red.val = some d)
    (epoch : getEpoch s0 ctx.val red.val = x) (due : atTime s0 (max t (x.opened + mcOf d.timeout)) = s) (open' : x.isOpen = true)
    (going : x.ending = none) (missing : allRanks d x = false) :
    execEpochTimeout t ctx red s0 = answer s0 (spoilEpoch s d x false) := by
  simp only [execEpochTimeout, config, epoch, run, open', going, missing, Option.isSome_none, Bool.not_true, Bool.or_self,
    Bool.false_eq_true, if_false, due]

end

/-- Settles O52: both commands end the epoch once, with its signal (`signalEpoch_sends`); the timeout spoils the destination
(`spoilEpoch_plain`). -/
theorem epochsCloseOnce : Obligations.EpochsCloseOnce := by
  unfold Obligations.EpochsCloseOnce
  intro s0 t ctx red d v k a b run config ofCtx ofRed counter entry whole closed next signal
  refine ⟨?_, ?_⟩
  · intro s x hctx hred summed intact answered
    obtain ⟨now, shell⟩ : whenReady s0 t (fun x => !otherOpen x (.epoch ctx.val red.val)) = s ∧ Shell s0 s := ⟨rfl, whenReady_shell ..⟩
    obtain ⟨run', cfg, resets⟩ : running s = true ∧ s.cfg = s0.cfg ∧ s.halfReset = s0.halfReset := by
      refine whenReady_keeps (P := fun u => running u = true ∧ u.cfg = s0.cfg ∧ u.halfReset = s0.halfReset) (fun u t holds => ?_) _
        ⟨run, rfl, rfl⟩
      rw [running_atTime, atTime_cfg, atTime_halfReset]
      exact holds
    clear_value s
    have config' : redCfg s ctx.val red.val = some d := by rw [redCfg, cfg]; exact config
    have entry' : vEntry s d.ctx v = .loc k a b := by rw [ofCtx, vEntry, cfg]; exact entry
    have ends := execEpochComplete_ends now run' config' counter entry' (resets.trans whole) rfl summed intact answered
    rw [epochsWith_at (y := nextEpoch x) hctx hred, ofCtx] at ends
    exact ends.trans (Shell.answer (shell.trans ⟨rfl, rfl, rfl⟩))
  · intro x s hctx hred open' going missing q fq translates plain size batch
    obtain ⟨due, shell⟩ : atTime s0 (max t (x.opened + mcOf d.timeout)) = s ∧ Shell s0 s := ⟨rfl, atTime_shell ..⟩
    have entry' : vEntry s d.ctx v = .loc k a b := by rw [ofCtx]; exact (vEntry_atTime s0 _ _ v).trans entry
    have whole' : s.halfReset = ⟨false, false⟩ := (atTime_halfReset s0 _).trans whole
    clear_value s
    have times := execEpochTimeout_spoils run config rfl due open' going missing
    rw [spoilEpoch_plain plain (by rw [ofCtx]; exact translates) size counter entry' whole' (by rw [ofCtx]; exact batch)
      (ofRed ▸ red.isLt), epochsWith_at (y := { nextEpoch x with timedOut := _ }) hctx hred] at times
    obtain ⟨ports, far, lines⟩ := destArb_lines (d := d) (bs := spoiledZeros d.length) plain
    refine ⟨_, times.trans (Shell.answer (shell.trans ⟨rfl, rfl, rfl⟩)), far, ports, fun _ l mem new => ?_, ?_⟩
    · obtain ⟨who, write, bytes⟩ := lines l mem new
      refine ⟨by rw [who, ofCtx, ofRed], write, fun m load y hy => ?_⟩
      obtain ⟨z, hz, rfl⟩ := List.mem_map.1 (bytes m load y hy)
      rw [List.eq_of_mem_replicate hz]
    · rw [ofCtx, ofRed]
      rfl

end Sys2Proof.Machine
end
